-- ==== Sys2Proof/Word.lean ====
section
/-! DEFINITION. The word types of the HKF4410: slot and memory words, bytes, sample words. -/

namespace Sys2Proof

/-- A slot, record or memory word: 16 bits (00, Conventions). -/
abbrev Word := BitVec 16

/-- One byte of memory. -/
abbrev Byte := BitVec 8

/-- A sample word: a signed 24-bit audio value (00, Conventions). -/
abbrev Sample := BitVec 24

end Sys2Proof
end

