-- ==== Sys2Proof/Syntax.lean ====
section
/-! DEFINITION. The commands of the HKF4410: one constructor of `Instr` per row of
spec/opcode_table.json, with the row's operands, and the small types the operands are made of. -/

namespace Sys2Proof

/-- The two listening zones (03). -/
inductive Zone where
  | z1
  | z2
deriving DecidableEq, Repr

/-- The four serial audio lines (R25). -/
inductive SaLine where
  | sa1
  | sa2
  | sa3
  | sa4
deriving DecidableEq, Repr

/-- The two memory streams (R25). -/
inductive StreamId where
  | ms1
  | ms2
deriving DecidableEq, Repr

/-- The seven sources (R25); NONE is `none` of `Option Source`. -/
inductive Source where
  | sa (l : SaLine)
  | ms (m : StreamId)
  | tuner
deriving DecidableEq, Repr

/-- The three amplifier modules (R125). -/
inductive AmpModule where
  | a
  | b
  | c
deriving DecidableEq, Repr

/-- The ten loudspeaker channels of zone 1, in the order of R111. -/
inductive MainChan where
  | fl
  | fr
  | c
  | sw
  | sl
  | sr
  | bl
  | br
  | tl
  | tr
deriving DecidableEq, Repr

/-- The twelve output channels: zone 1's ten and zone 2's pair (R91). -/
inductive Chan where
  | main (ch : MainChan)
  | zl
  | zr
deriving DecidableEq, Repr

/-- The descriptor slots of a memory stream (R36). -/
inductive DescSlot where
  | baseLo
  | baseHi
  | size
  | channels
  | width
  | rate
deriving DecidableEq, Repr

/-- The seven speaker configuration slots (R79). -/
inductive SpeakerSlot where
  | frontSize
  | center
  | surround
  | back
  | top
  | sub
  | crossover
deriving DecidableEq, Repr

/-- The two knob contacts (R104). -/
inductive KnobPin where
  | kna
  | knb
deriving DecidableEq, Repr

/-- Which knob stability filters run out at one moment; both together give one knob step (R104). -/
inductive KnobPins where
  | kna
  | knb
  | both
deriving DecidableEq, Repr

/-- The byte lane enables of a host access: BLE1 (upper) and BLE0 (lower); `true` is enabled. -/
structure Lanes where
  hi : Bool
  lo : Bool
deriving DecidableEq, Repr

/-- A full write enables both lanes (section 1.1). -/
def Lanes.full : Lanes := ⟨true, true⟩

/-- One host access on the upstream port: address on A23 to A1 (bit 0 is not on the bus),
direction, lane enables, and D15 to D0 of a write (R1). -/
structure HostAccess where
  addr : BitVec 24
  isWrite : Bool
  lanes : Lanes
  data : Word
deriving DecidableEq, Repr

/-- The commands. A row that is a host write carries the lane enables and the written word;
a command-slot row carries the lanes and the arguments of its command word. -/
inductive Instr where
  /-- RSTN_FALL (R2). -/
  | rstnFall
  /-- RSTN_RISE (R21): the levels of the strap pins as RSTN rises. -/
  | rstnRise (aps1 aps0 : Bool)
  /-- HOST_ACCESS_BEGIN (R12). -/
  | hostAccessBegin (a : HostAccess)
  /-- HOST_ACCESS_END (R12). -/
  | hostAccessEnd
  /-- SLOT_WRITE (R5): byte offset from the aperture base. -/
  | slotWrite (off : BitVec 16) (lanes : Lanes) (v : Word)
  /-- ATTN_ENABLE_WRITE (R19). -/
  | attnEnableWrite (lanes : Lanes) (v : Word)
  /-- ATTN_ACK_WRITE (R19). -/
  | attnAckWrite (lanes : Lanes) (v : Word)
  /-- SETUP_LOCK_WRITE (R137). -/
  | setupLockWrite (lanes : Lanes) (v : Word)
  /-- RESTART_AUDIO (R22): 0x0001 written to SYSTEM_CMD. -/
  | restartAudio (lanes : Lanes)
  /-- SELF_RECHECK (R151): 0x0002 written to SYSTEM_CMD. -/
  | selfRecheck (lanes : Lanes)
  /-- PART_BURST_ISSUE (R14). -/
  | partBurstIssue
  /-- PART_BURST_END (R12). -/
  | partBurstEnd
  /-- METER_TIMER_EXPIRY (R17). -/
  | meterTimerExpiry
  /-- SA_WINDOW_END (R29). -/
  | saWindowEnd (l : SaLine)
  /-- SA_FRAME (R27): the 32-bit slots shifted in since the frame's FCK edge. -/
  | saFrame (l : SaLine) (slots : List (BitVec 32))
  /-- NPCM_CHANGE (R33): the pin's new level. -/
  | npcmChange (l : SaLine) (level : Bool)
  /-- NPCM_STABLE (R33). -/
  | npcmStable (l : SaLine)
  /-- FORMAT_WRITE (R28). -/
  | formatWrite (l : SaLine) (lanes : Lanes) (v : Word)
  /-- STREAM_DESCRIPTOR_WRITE (R36). -/
  | streamDescriptorWrite (m : StreamId) (d : DescSlot) (lanes : Lanes) (v : Word)
  /-- FILL_WRITE (R37). -/
  | fillWrite (m : StreamId) (lanes : Lanes) (v : Word)
  /-- STREAM_START (R38). -/
  | streamStart (m : StreamId) (lanes : Lanes)
  /-- STREAM_STOP (R39). -/
  | streamStop (m : StreamId) (lanes : Lanes)
  /-- STREAM_FRAME_INSTANT (R40). -/
  | streamFrameInstant (m : StreamId)
  /-- SOURCE_WRITE (R51). -/
  | sourceWrite (z : Zone) (lanes : Lanes) (v : Word)
  /-- FADE_RATE_WRITE (R54). -/
  | fadeRateWrite (z : Zone) (lanes : Lanes) (v : Word)
  /-- WAIT_LIMIT_WRITE (R59). -/
  | waitLimitWrite (z : Zone) (lanes : Lanes) (v : Word)
  /-- FADE_TIMER_EXPIRY (R54). -/
  | fadeTimerExpiry (z : Zone)
  /-- WAIT_TIMER_EXPIRY (R59). -/
  | waitTimerExpiry (z : Zone)
  /-- DECODE_MODE_WRITE (R67). -/
  | decodeModeWrite (lanes : Lanes) (v : Word)
  /-- STEER_SPEED_WRITE (R67). -/
  | steerSpeedWrite (lanes : Lanes) (v : Word)
  /-- STEER_WINDOW_END (R72). -/
  | steerWindowEnd
  /-- SPEAKER_CONFIG_WRITE (R82). -/
  | speakerConfigWrite (p : SpeakerSlot) (lanes : Lanes) (v : Word)
  /-- AUDIO_FRAME (R97): the lines whose window in progress is a NONE window (R31; log 14), and the two 32-bit
  slots, L then R, shifted in from the tuner audio line TA for this frame (R44). -/
  | audioFrame (quiet : List SaLine) (ta : BitVec 32 × BitVec 32)
  /-- VOLUME_WRITE (R99). -/
  | volumeWrite (z : Zone) (lanes : Lanes) (v : Word)
  /-- MUTE_WRITE (R100). -/
  | muteWrite (z : Zone) (lanes : Lanes) (v : Word)
  /-- MAX_VOLUME_WRITE (R101). -/
  | maxVolumeWrite (z : Zone) (lanes : Lanes) (v : Word)
  /-- SLEW_TIMER_EXPIRY (R94). -/
  | slewTimerExpiry
  /-- KNOB_PIN_CHANGE (R104): the pin's new level. -/
  | knobPinChange (p : KnobPin) (level : Bool)
  /-- KNOB_FILTER_EXPIRY (R104). -/
  | knobFilterExpiry (ps : KnobPins)
  /-- DIST_WRITE (R112). -/
  | distWrite (ch : MainChan) (lanes : Lanes) (v : Word)
  /-- LIPSYNC_WRITE (R112). -/
  | lipsyncWrite (z : Zone) (lanes : Lanes) (v : Word)
  /-- MODULE_EN_WRITE (R126). -/
  | moduleEnWrite (m : AmpModule) (lanes : Lanes) (v : Word)
  /-- START_TIMER_EXPIRY (R127). -/
  | startTimerExpiry (m : AmpModule)
  /-- STOP_TIMER_EXPIRY (R129). -/
  | stopTimerExpiry (m : AmpModule)
  /-- AMPFLT_CHANGE (R132): the pin's new level. -/
  | ampfltChange (m : AmpModule) (level : Bool)
  /-- FAULT_LINE_TRIP (R132). -/
  | faultLineTrip (m : AmpModule)
  /-- CLEAR_TRIP (R134): 0x0100 plus this module number written to MODULE_CMD. -/
  | clearTrip (n : BitVec 8) (lanes : Lanes)
  /-- CLOCK_ABSENCE (R135). -/
  | clockAbsence
  /-- CLOCK_PROVEN (R135). -/
  | clockProven
  /-- SEQ_LEN_WRITE (R142). -/
  | seqLenWrite (lanes : Lanes) (v : Word)
  /-- ENTRY_WRITE (R142): entry number and word number. -/
  | entryWrite (n : Fin 16) (w : Fin 4) (lanes : Lanes) (v : Word)
  /-- MEASURE (R146): 0x1000 plus 16 times the input number plus the divider. -/
  | measure (input : BitVec 8) (divider : BitVec 4) (lanes : Lanes)
  /-- CONVERTER_TIMER_EXPIRY (R140): the voltage, in microvolts, at the input being converted. -/
  | converterTimerExpiry (microvolts : Int)
  /-- FE_DIVISOR_WRITE (R155). -/
  | feDivisorWrite (lanes : Lanes) (v : Word)
  /-- DIVISOR_TAKE_UP (R155). -/
  | divisorTakeUp
  /-- FRAME_SENT (R156). -/
  | frameSent
  /-- CHARACTER_RECEIVED (R157): the sampled data, parity and stop bits, and the whole character
  times of idle line before the start bit. -/
  | characterReceived (data : Byte) (parity stop : Bool) (idle : Nat)
  /-- ASSEMBLER_TIMER_EXPIRY (R158). -/
  | assemblerTimerExpiry
  /-- RESPONSE_TIMER_EXPIRY (R160). -/
  | responseTimerExpiry
  /-- REGION_WRITE (R162). -/
  | regionWrite (lanes : Lanes) (v : Word)
  /-- BAND_WRITE (R162). -/
  | bandWrite (lanes : Lanes) (v : Word)
  /-- CODE_WRITE (R162). -/
  | codeWrite (lanes : Lanes) (v : Word)
  /-- TUNE (R166). -/
  | tune (lanes : Lanes)
  /-- SEEK_UP (R167). -/
  | seekUp (lanes : Lanes)
  /-- SEEK_DOWN (R167). -/
  | seekDown (lanes : Lanes)
  /-- TUNER_STOP (R168). -/
  | tunerStop (lanes : Lanes)
  /-- TUNER_OFF (R171). -/
  | tunerOff (lanes : Lanes)
  /-- RECALL (R169): 0x0100 + n. -/
  | recall (n : BitVec 8) (lanes : Lanes)
  /-- STORE (R170): 0x0200 + n. -/
  | store (n : BitVec 8) (lanes : Lanes)
  /-- SETTLE_TIMER_EXPIRY (R164). -/
  | settleTimerExpiry
  /-- READING_TIMER_EXPIRY (R172). -/
  | readingTimerExpiry
  /-- QUERY_TIMER_EXPIRY (R172). -/
  | queryTimerExpiry
  /-- VERIFY_TIMER_EXPIRY (R175). -/
  | verifyTimerExpiry
  /-- BACKOFF_TIMER_EXPIRY (R173). -/
  | backoffTimerExpiry
  /-- STATION_BLOCK (R181): the 24 bits of a block, first bit in bit 23. -/
  | stationBlock (block : BitVec 24)
  /-- GAP_TIMER_EXPIRY (R178). -/
  | gapTimerExpiry
  /-- STATION_DATA_BIT (R180): the sampled SDATA level. -/
  | stationDataBit (bit : Bool)
deriving DecidableEq, Repr

end Sys2Proof
end

