-- ==== Sys2Proof/Config.lean ====
section
/-! DEFINITION. What the part's design fixes, and the free values: constants without a body that
stand for values the spec leaves open. No proof can evaluate a free value. -/

namespace Sys2Proof

/-- The state of one second-order filter section: its two stored values (R85). DESIGN CHOICE, log 22. -/
structure FilterSection where
  z1 : Int
  z2 : Int
deriving DecidableEq, Repr, Inhabited

namespace Config

/-- The part code of the device record (R195). -/
def partCode : Word := 0x4410#16

/-- The revision of the device record (R195). -/
def revision : Word := 0x0001#16

/-- What a memory byte that nothing has written reads as. DESIGN CHOICE, unsafe, log 4. -/
def memoryFill : Byte := 0x00#8

/-- FREE VALUE: the sample a rate converter delivers (R34 leaves the values open), for one draw,
one source (0 to 5) and one channel of it. log 13. -/
opaque convertedSample : (draw source channel : Nat) → Sample

/-- FREE VALUE: one low-pass section at a CROSSOVER code: the output before saturation and the
section's next state, from its state and its input (R85 leaves coefficients and rounding open). log 22. -/
opaque lowPassSection : (code : Nat) → FilterSection → Int → Int × FilterSection

/-- FREE VALUE: one high-pass section, as `lowPassSection`. log 22. -/
opaque highPassSection : (code : Nat) → FilterSection → Int → Int × FilterSection

/-- FREE VALUE: what a host read above the memory fitted returns, for one draw. log 5. -/
opaque unfittedRead : (draw : Nat) → Word

/-- FREE VALUE: what a host read returns on the byte lanes that its lane enables leave disabled, for one
draw; a lane takes its own byte of the word (R1 is silent there). log 64. -/
opaque disabledLanes : (draw : Nat) → Word

/-- FREE VALUE: how many word cycles of the burst in flight have run when RSTN falls, before it is
limited to 1 up to the burst's length (R2 ends the burst at the cycle then running). log 7. -/
opaque cyclesAtFall : (draw : Nat) → Nat

end Config
end Sys2Proof
end

