-- ==== Sys2Proof/Machine/Arith.lean ====
section
/-! DEFINITION. The arithmetic of the manual: clamping and saturation, the mantissa table and the
level function L2, coefficients, the -3 dB scaling, bit fields, and the block check. -/

namespace Sys2Proof.Machine

/-- The nearer bound of a range, or the value itself when it lies inside (00, Numbers). -/
def clampInt (lo hi x : Int) : Int :=
  if x < lo then lo else if hi < x then hi else x

/-- The nearer bound of a range of naturals, or the value itself. -/
def clampNat (lo hi x : Nat) : Nat :=
  if x < lo then lo else if hi < x then hi else x

/-- The least sample word. -/
def sampleMin : Int := -8388608

/-- The greatest sample word. -/
def sampleMax : Int := 8388607

/-- Saturation to the sample word range (00, Numbers). -/
def sat (x : Int) : Int := clampInt sampleMin sampleMax x

/-- A sample word holding an integer of its range. -/
def toSample (x : Int) : Sample := BitVec.ofInt 24 x

/-- The scaling k of about -3.01 dB: floor((x * 23170 + 16384) / 32768) (R70). -/
def scaleK (x : Int) : Int := (x * 23170 + 16384) / 32768

/-- The floor of half a sum or difference (R69, R44). -/
def half (x : Int) : Int := x / 2

/-- The mantissa table M (R74). -/
def mantissaTable : List Nat :=
  [32768, 34219, 35734, 37316, 38968, 40693, 42495, 44376, 46341, 48393, 50535, 52773, 55109, 57549,
    60097, 62757]

/-- M(r) for r from 0 to 15. -/
def mantissa (r : Nat) : Nat := mantissaTable.getD r 0

/-- The largest index r from 0 to 15 with M(r) at most m (R74, step 4). -/
def mantissaIndex (m : Nat) : Nat :=
  (mantissaTable.filter fun x => x ≤ m).length - 1

/-- The level function L2 of a non-negative integer (R74). -/
def level2 (x : Nat) : Nat :=
  let x' := max x 1
  let e := Nat.log2 x'
  16 * e + mantissaIndex (x' * 32768 / 2 ^ e)

/-- The gain floor, -320 level steps (R89). -/
def gainFloor : Int := -320

/-- The gain ceiling, +32 level steps (R89). -/
def gainCeiling : Int := 32

/-- The coefficient K of an applied gain, in units of 2^-30 (R96). -/
def coeff (g : Int) : Nat :=
  if g = gainFloor then 0
  else
    let e := g / 16
    let r := (g - 16 * e).toNat
    if 0 ≤ 15 + e then mantissa r * 2 ^ (15 + e).toNat else mantissa r / 2 ^ (-(15 + e)).toNat

/-- The product of a sample and a coefficient before saturation: floor((x * K + 2^29) / 2^30) (R97). -/
def scaleByCoeff (k : Nat) (x : Int) : Int := (x * (k : Int) + 2 ^ 29) / 2 ^ 30

/-- The LFE scaling of +27 level steps: K = M(11) * 2^16 (R86). -/
def scaleLfe (x : Int) : Int := scaleByCoeff (mantissa 11 * 2 ^ 16) x

/-- The field of `w` bits from bit `lo` of a word. -/
def field (v : Word) (lo w : Nat) : Nat := (v.toNat / 2 ^ lo) % 2 ^ w

/-- One bit of a word. -/
def flag (v : Word) (i : Nat) : Bool := v.getLsbD i

/-- A level as a signed 16-bit word (R190). -/
def levelWord (x : Int) : Word := BitVec.ofInt 16 x

/-- A number as an unsigned 16-bit word (R190). -/
def numWord (n : Nat) : Word := BitVec.ofNat 16 n

/-- A flag as bit `i` of a word. -/
def bitAt (b : Bool) (i : Nat) : Nat := if b then 2 ^ i else 0

/-- One bit into the CRC register, polynomial x^8 + x^2 + x + 1 (R179). -/
def crcStep (c : Byte) (b : Bool) : Byte :=
  if c.msb != b then (c <<< 1) ^^^ 0x07#8 else c <<< 1

/-- The bits of a word, most significant first. -/
def bitsOf (n : Nat) (v : Nat) : List Bool :=
  (List.range n).map fun i => v.testBit (n - 1 - i)

/-- The CRC of 16 information bits, most significant first, initial value 0 (R179). -/
def crc8 (v : Word) : Byte := (bitsOf 16 v.toNat).foldl crcStep 0

/-- The position words W(p) (R179). -/
def positionWord (p : Nat) : Byte :=
  match p with
  | 0 => 0x3C#8
  | 1 => 0x5A#8
  | 2 => 0x96#8
  | _ => 0xE1#8

/-- The number formed by bits, the first one most significant. -/
def numOfBits (bits : List Bool) : Nat :=
  bits.foldl (fun n b => 2 * n + (if b then 1 else 0)) 0

/-- The information word of a 24-bit block (R179). -/
def blockInfo (block : Nat) : Word := BitVec.ofNat 16 (block / 256)

/-- A block is valid at position p when its check bits are the CRC XOR W(p) (R179). -/
def validAt (block p : Nat) : Bool :=
  BitVec.ofNat 8 block == crc8 (blockInfo block) ^^^ positionWord p

/-- The first position at which a block is valid, if any (R179). -/
def validPosition (block : Nat) : Option Nat :=
  [0, 1, 2, 3].find? fun p => validAt block p

end Sys2Proof.Machine
end

