-- ==== Sys2Proof/Machine/Tables.lean ====
section
/-! DEFINITION. Tables of one item per zone, line, stream, module, channel or source: plain
structures, read by `get`, built by `ofFn`, changed by `set`. -/

namespace Sys2Proof.Machine

/-- One item per zone. -/
structure PerZone (α : Type) where
  z1 : α
  z2 : α
deriving DecidableEq, Repr

/-- The item at an index. -/
def PerZone.get (t : PerZone α) : Zone → α
  | .z1 => t.z1
  | .z2 => t.z2

/-- The table of a function's values. -/
def PerZone.ofFn (f : Zone → α) : PerZone α :=
  ⟨f .z1, f .z2⟩

/-- Replaces the item at one index. -/
def PerZone.set (t : PerZone α) (i : Zone) (x : α) : PerZone α :=
  PerZone.ofFn fun j => if j = i then x else t.get j

/-- Changes the item at one index by a function. -/
def PerZone.upd (t : PerZone α) (i : Zone) (f : α → α) : PerZone α :=
  t.set i (f (t.get i))

/-- The same item at every index. -/
def PerZone.all (x : α) : PerZone α :=
  PerZone.ofFn fun _ => x

/-- One item per serial audio line. -/
structure PerLine (α : Type) where
  sa1 : α
  sa2 : α
  sa3 : α
  sa4 : α
deriving DecidableEq, Repr

/-- The item at an index. -/
def PerLine.get (t : PerLine α) : SaLine → α
  | .sa1 => t.sa1
  | .sa2 => t.sa2
  | .sa3 => t.sa3
  | .sa4 => t.sa4

/-- The table of a function's values. -/
def PerLine.ofFn (f : SaLine → α) : PerLine α :=
  ⟨f .sa1, f .sa2, f .sa3, f .sa4⟩

/-- Replaces the item at one index. -/
def PerLine.set (t : PerLine α) (i : SaLine) (x : α) : PerLine α :=
  PerLine.ofFn fun j => if j = i then x else t.get j

/-- Changes the item at one index by a function. -/
def PerLine.upd (t : PerLine α) (i : SaLine) (f : α → α) : PerLine α :=
  t.set i (f (t.get i))

/-- The same item at every index. -/
def PerLine.all (x : α) : PerLine α :=
  PerLine.ofFn fun _ => x

/-- One item per memory stream. -/
structure PerStream (α : Type) where
  ms1 : α
  ms2 : α
deriving DecidableEq, Repr

/-- The item at an index. -/
def PerStream.get (t : PerStream α) : StreamId → α
  | .ms1 => t.ms1
  | .ms2 => t.ms2

/-- The table of a function's values. -/
def PerStream.ofFn (f : StreamId → α) : PerStream α :=
  ⟨f .ms1, f .ms2⟩

/-- Replaces the item at one index. -/
def PerStream.set (t : PerStream α) (i : StreamId) (x : α) : PerStream α :=
  PerStream.ofFn fun j => if j = i then x else t.get j

/-- Changes the item at one index by a function. -/
def PerStream.upd (t : PerStream α) (i : StreamId) (f : α → α) : PerStream α :=
  t.set i (f (t.get i))

/-- The same item at every index. -/
def PerStream.all (x : α) : PerStream α :=
  PerStream.ofFn fun _ => x

/-- One item per amplifier module. -/
structure PerModule (α : Type) where
  a : α
  b : α
  c : α
deriving DecidableEq, Repr

/-- The item at an index. -/
def PerModule.get (t : PerModule α) : AmpModule → α
  | .a => t.a
  | .b => t.b
  | .c => t.c

/-- The table of a function's values. -/
def PerModule.ofFn (f : AmpModule → α) : PerModule α :=
  ⟨f .a, f .b, f .c⟩

/-- Replaces the item at one index. -/
def PerModule.set (t : PerModule α) (i : AmpModule) (x : α) : PerModule α :=
  PerModule.ofFn fun j => if j = i then x else t.get j

/-- Changes the item at one index by a function. -/
def PerModule.upd (t : PerModule α) (i : AmpModule) (f : α → α) : PerModule α :=
  t.set i (f (t.get i))

/-- The same item at every index. -/
def PerModule.all (x : α) : PerModule α :=
  PerModule.ofFn fun _ => x

/-- One item per zone 1 channel. -/
structure PerMain (α : Type) where
  fl : α
  fr : α
  c : α
  sw : α
  sl : α
  sr : α
  bl : α
  br : α
  tl : α
  tr : α
deriving DecidableEq, Repr

/-- The item at an index. -/
def PerMain.get (t : PerMain α) : MainChan → α
  | .fl => t.fl
  | .fr => t.fr
  | .c => t.c
  | .sw => t.sw
  | .sl => t.sl
  | .sr => t.sr
  | .bl => t.bl
  | .br => t.br
  | .tl => t.tl
  | .tr => t.tr

/-- The table of a function's values. -/
def PerMain.ofFn (f : MainChan → α) : PerMain α :=
  ⟨f .fl, f .fr, f .c, f .sw, f .sl, f .sr, f .bl, f .br, f .tl, f .tr⟩

/-- Replaces the item at one index. -/
def PerMain.set (t : PerMain α) (i : MainChan) (x : α) : PerMain α :=
  PerMain.ofFn fun j => if j = i then x else t.get j

/-- Changes the item at one index by a function. -/
def PerMain.upd (t : PerMain α) (i : MainChan) (f : α → α) : PerMain α :=
  t.set i (f (t.get i))

/-- The same item at every index. -/
def PerMain.all (x : α) : PerMain α :=
  PerMain.ofFn fun _ => x

/-- One item per output channel. -/
structure PerChan (α : Type) where
  fl : α
  fr : α
  c : α
  sw : α
  sl : α
  sr : α
  bl : α
  br : α
  tl : α
  tr : α
  zl : α
  zr : α
deriving DecidableEq, Repr

/-- The item at an index. -/
def PerChan.get (t : PerChan α) : Chan → α
  | .main .fl => t.fl
  | .main .fr => t.fr
  | .main .c => t.c
  | .main .sw => t.sw
  | .main .sl => t.sl
  | .main .sr => t.sr
  | .main .bl => t.bl
  | .main .br => t.br
  | .main .tl => t.tl
  | .main .tr => t.tr
  | .zl => t.zl
  | .zr => t.zr

/-- The table of a function's values. -/
def PerChan.ofFn (f : Chan → α) : PerChan α :=
  ⟨f (.main .fl), f (.main .fr), f (.main .c), f (.main .sw), f (.main .sl), f (.main .sr), f (.main .bl), f (.main .br), f (.main .tl), f (.main .tr), f .zl, f .zr⟩

/-- Replaces the item at one index. -/
def PerChan.set (t : PerChan α) (i : Chan) (x : α) : PerChan α :=
  PerChan.ofFn fun j => if j = i then x else t.get j

/-- Changes the item at one index by a function. -/
def PerChan.upd (t : PerChan α) (i : Chan) (f : α → α) : PerChan α :=
  t.set i (f (t.get i))

/-- The same item at every index. -/
def PerChan.all (x : α) : PerChan α :=
  PerChan.ofFn fun _ => x

/-- One item per source. -/
structure PerSource (α : Type) where
  sa1 : α
  sa2 : α
  sa3 : α
  sa4 : α
  ms1 : α
  ms2 : α
  tuner : α
deriving DecidableEq, Repr

/-- The item at an index. -/
def PerSource.get (t : PerSource α) : Source → α
  | .sa .sa1 => t.sa1
  | .sa .sa2 => t.sa2
  | .sa .sa3 => t.sa3
  | .sa .sa4 => t.sa4
  | .ms .ms1 => t.ms1
  | .ms .ms2 => t.ms2
  | .tuner => t.tuner

/-- The table of a function's values. -/
def PerSource.ofFn (f : Source → α) : PerSource α :=
  ⟨f (.sa .sa1), f (.sa .sa2), f (.sa .sa3), f (.sa .sa4), f (.ms .ms1), f (.ms .ms2), f .tuner⟩

/-- Replaces the item at one index. -/
def PerSource.set (t : PerSource α) (i : Source) (x : α) : PerSource α :=
  PerSource.ofFn fun j => if j = i then x else t.get j

/-- Changes the item at one index by a function. -/
def PerSource.upd (t : PerSource α) (i : Source) (f : α → α) : PerSource α :=
  t.set i (f (t.get i))

/-- The same item at every index. -/
def PerSource.all (x : α) : PerSource α :=
  PerSource.ofFn fun _ => x

/-- The zones. -/
def zones : List Zone := [.z1, .z2]

/-- The serial audio lines. -/
def saLines : List SaLine := [.sa1, .sa2, .sa3, .sa4]

/-- The memory streams. -/
def streams : List StreamId := [.ms1, .ms2]

/-- The amplifier modules. -/
def modules : List AmpModule := [.a, .b, .c]

/-- Zone 1's channels in the order of R111. -/
def mainChans : List MainChan := [.fl, .fr, .c, .sw, .sl, .sr, .bl, .br, .tl, .tr]

/-- The twelve channels in the order of the meter records (R194). -/
def chans : List Chan := mainChans.map .main ++ [.zl, .zr]

/-- The seven sources in the order of R25. -/
def sources : List Source := saLines.map .sa ++ streams.map .ms ++ [.tuner]

end Sys2Proof.Machine
end

