-- ==== Sys2Proof/Machine/Slots.lean ====
section
/-! DEFINITION. The assigned slots of the control region and the report records: their names,
offsets, kinds and groups (R192, R194). -/

namespace Sys2Proof.Machine

/-- The assigned slots (R192). -/
inductive Slot where
  | systemCmd
  | attnEnable
  | attnAck
  | setupLock
  | knobZone
  | knobStep
  | source (z : Zone)
  | volume (z : Zone)
  | mute (z : Zone)
  | fadeRate (z : Zone)
  | waitLimit (z : Zone)
  | lipsync (z : Zone)
  | decodeMode
  | steerSpeed
  | format (l : SaLine)
  | srcTrim (src : Source)
  | desc (m : StreamId) (d : DescSlot)
  | fill (m : StreamId)
  | streamCmd (m : StreamId)
  | speaker (p : SpeakerSlot)
  | maxVolume (z : Zone)
  | moduleEn (m : AmpModule)
  | trim (ch : Chan)
  | dist (ch : MainChan)
  | moduleCmd
  | seqLen
  | measureCmd
  | entry (n : Fin 16) (w : Fin 4)
  | region
  | band
  | code
  | tunerCmd
  | seekThr
  | blendThr
  | afThr
  | afFollow
  | feDivisor
deriving DecidableEq, Repr

/-- Place of a zone 1 channel in the order FL FR C SW SL SR BL BR TL TR. -/
def mainIndex : MainChan → Nat
  | .fl => 0
  | .fr => 1
  | .c => 2
  | .sw => 3
  | .sl => 4
  | .sr => 5
  | .bl => 6
  | .br => 7
  | .tl => 8
  | .tr => 9

/-- Place of a channel in the order of the TRIM slots and the meter records. -/
def chanIndex : Chan → Nat
  | .main ch => mainIndex ch
  | .zl => 10
  | .zr => 11

/-- Place of a line among SA1 to SA4. -/
def lineIndex : SaLine → Nat
  | .sa1 => 0
  | .sa2 => 1
  | .sa3 => 2
  | .sa4 => 3

/-- Place of a stream among MS1 and MS2. -/
def streamIndex : StreamId → Nat
  | .ms1 => 0
  | .ms2 => 1

/-- Place of a source in the order SA1 to SA4, MS1, MS2, TUNER. -/
def sourceIndex : Source → Nat
  | .sa l => lineIndex l
  | .ms m => 4 + streamIndex m
  | .tuner => 6

/-- Place of a zone. -/
def zoneIndex : Zone → Nat
  | .z1 => 0
  | .z2 => 1

/-- Place of a module among A, B and C. -/
def moduleIndex : AmpModule → Nat
  | .a => 0
  | .b => 1
  | .c => 2

/-- Place of a descriptor slot in a stream's group. -/
def descIndex : DescSlot → Nat
  | .baseLo => 0
  | .baseHi => 1
  | .size => 2
  | .channels => 3
  | .width => 4
  | .rate => 5

/-- Place of a speaker configuration slot. -/
def speakerIndex : SpeakerSlot → Nat
  | .frontSize => 0
  | .center => 1
  | .surround => 2
  | .back => 3
  | .top => 4
  | .sub => 5
  | .crossover => 6

/-- A slot's byte offset from the aperture base (R192). -/
def Slot.offset : Slot → Nat
  | .systemCmd => 0x0000
  | .attnEnable => 0x0002
  | .attnAck => 0x0004
  | .setupLock => 0x0006
  | .knobZone => 0x0008
  | .knobStep => 0x000A
  | .source z => 0x0020 + 0x20 * zoneIndex z
  | .volume z => 0x0022 + 0x20 * zoneIndex z
  | .mute z => 0x0024 + 0x20 * zoneIndex z
  | .fadeRate z => 0x0026 + 0x20 * zoneIndex z
  | .waitLimit z => 0x0028 + 0x20 * zoneIndex z
  | .lipsync z => 0x002A + 0x20 * zoneIndex z
  | .decodeMode => 0x002C
  | .steerSpeed => 0x002E
  | .format l => 0x0060 + 2 * lineIndex l
  | .srcTrim src => 0x0070 + 2 * sourceIndex src
  | .desc m d => 0x0080 + 0x20 * streamIndex m + 2 * descIndex d
  | .fill m => 0x008C + 0x20 * streamIndex m
  | .streamCmd m => 0x008E + 0x20 * streamIndex m
  | .speaker p => 0x00C0 + 2 * speakerIndex p
  | .maxVolume z => 0x00D0 + 2 * zoneIndex z
  | .moduleEn m => 0x00D8 + 2 * moduleIndex m
  | .trim ch => 0x00E0 + 2 * chanIndex ch
  | .dist ch => 0x0100 + 2 * mainIndex ch
  | .moduleCmd => 0x0120
  | .seqLen => 0x0140
  | .measureCmd => 0x0142
  | .entry n w => 0x0160 + 8 * n.val + 2 * w.val
  | .region => 0x0200
  | .band => 0x0202
  | .code => 0x0204
  | .tunerCmd => 0x0206
  | .seekThr => 0x0208
  | .blendThr => 0x020A
  | .afThr => 0x020C
  | .afFollow => 0x020E
  | .feDivisor => 0x0210

/-- The six slots a zone has at the start of its group, in ascending order. -/
def zoneSlots (z : Zone) : List Slot :=
  [.source z, .volume z, .mute z, .fadeRate z, .waitLimit z, .lipsync z]

/-- The eight slots of a stream, in ascending order (R36). -/
def streamSlots (m : StreamId) : List Slot :=
  [.desc m .baseLo, .desc m .baseHi, .desc m .size, .desc m .channels, .desc m .width, .desc m .rate,
    .fill m, .streamCmd m]

/-- The four words of a measurement entry. -/
def entrySlots (n : Fin 16) : List Slot :=
  [.entry n 0, .entry n 1, .entry n 2, .entry n 3]

/-- The numbers of the measurement entries. -/
def entryNumbers : List (Fin 16) :=
  [0, 1, 2, 3, 4, 5, 6, 7, 8, 9, 10, 11, 12, 13, 14, 15]

/-- The slots of offsets 0x0000 to 0x000A. -/
def systemSlots : List Slot :=
  [.systemCmd, .attnEnable, .attnAck, .setupLock, .knobZone, .knobStep]

/-- The speaker configuration slots. -/
def speakerSlots : List Slot :=
  [.speaker .frontSize, .speaker .center, .speaker .surround, .speaker .back, .speaker .top,
    .speaker .sub, .speaker .crossover]

/-- The slots of the tuner and the front-end line. -/
def tunerSlots : List Slot :=
  [.region, .band, .code, .tunerCmd, .seekThr, .blendThr, .afThr, .afFollow, .feDivisor]

/-- Every assigned slot, by ascending offset (R192). -/
def slots : List Slot :=
  List.flatten
    [systemSlots, zoneSlots .z1, [.decodeMode, .steerSpeed], zoneSlots .z2, saLines.map .format,
      sources.map .srcTrim, streamSlots .ms1, streamSlots .ms2, speakerSlots, zones.map .maxVolume,
      modules.map .moduleEn, chans.map .trim, mainChans.map .dist, [.moduleCmd, .seqLen, .measureCmd],
      entryNumbers.flatMap entrySlots, tunerSlots]

/-- The slot at an offset, if the word is assigned. -/
def slotAt (off : Nat) : Option Slot :=
  slots.find? fun sl => sl.offset == off

/-- Command slots: their writes are requests (R4, R9). -/
def Slot.isCommand : Slot → Bool
  | .systemCmd | .streamCmd _ | .moduleCmd | .measureCmd | .tunerCmd => true
  | _ => false

/-- Lockable state slots: the setup group (R4, section 7.7). -/
def Slot.isLockable : Slot → Bool
  | .speaker _ | .maxVolume _ | .moduleEn _ | .seqLen | .entry _ _ => true
  | _ => false

/-- The audio group, column A of R192. -/
def Slot.isAudio : Slot → Bool
  | .source _ | .volume _ | .mute _ | .fadeRate _ | .waitLimit _ | .lipsync _ | .decodeMode
  | .steerSpeed | .format _ | .srcTrim _ | .desc _ _ | .fill _ | .streamCmd _ | .trim _ | .dist _ => true
  | _ => false

/-- The sixteen write-back-capable slots, column WB of R192. -/
def Slot.takesWriteBack : Slot → Bool
  | .systemCmd | .attnAck | .setupLock | .volume _ | .mute _ | .streamCmd _ | .speaker .frontSize
  | .speaker .back | .moduleCmd | .measureCmd | .band | .code | .tunerCmd => true
  | _ => false

/-- The report records (R194). -/
inductive Rec where
  | device
  | attention
  | zone (z : Zone)
  | source (src : Source)
  | stream (m : StreamId)
  | meter (ch : Chan)
  | module (m : AmpModule)
  | entries
  | onDemand
  | tuner
  | summary
  | name
  | text1
  | text2
  | af
  | delay
deriving DecidableEq, Repr

/-- A record's byte offset from the aperture base (R194). -/
def Rec.offset : Rec → Nat
  | .device => 0x0400
  | .attention => 0x0420
  | .zone z => 0x0440 + 0x20 * zoneIndex z
  | .source src => 0x0480 + 0x20 * sourceIndex src
  | .stream m => 0x0560 + 0x20 * streamIndex m
  | .meter ch => 0x05A0 + 0x20 * chanIndex ch
  | .module m => 0x0720 + 0x20 * moduleIndex m
  | .entries => 0x0780
  | .onDemand => 0x07A0
  | .tuner => 0x07C0
  | .summary => 0x07E0
  | .name => 0x0800
  | .text1 => 0x0820
  | .text2 => 0x0840
  | .af => 0x0860
  | .delay => 0x0880

/-- A record's length in words (R194). -/
def Rec.words : Rec → Nat
  | .device => 6
  | .attention => 3
  | .zone _ => 12
  | .source _ => 4
  | .stream _ => 4
  | .meter _ => 2
  | .module _ => 11
  | .entries => 16
  | .onDemand => 8
  | .tuner => 7
  | .summary => 5
  | .name => 6
  | .text1 => 12
  | .text2 => 12
  | .af => 13
  | .delay => 15

/-- Every record, by ascending offset. -/
def records : List Rec :=
  List.flatten
    [[.device, .attention], zones.map .zone, sources.map .source, streams.map .stream,
      chans.map .meter, modules.map .module,
      [.entries, .onDemand, .tuner, .summary, .name, .text1, .text2, .af, .delay]]

/-- The records of a partial restore pass (R22). -/
def Rec.isAudio : Rec → Bool
  | .zone _ | .source _ | .stream _ | .meter _ | .delay => true
  | _ => false

/-- The five records of the station data decoder (R189). -/
def Rec.isStation : Rec → Bool
  | .summary | .name | .text1 | .text2 | .af => true
  | _ => false

end Sys2Proof.Machine
end

