-- ==== Sys2Proof/Machine/State.lean ====
section
/-! DEFINITION. The state of the HKF4410 as plain data, and its value right after pin reset.
Each structure is one block's state; docstrings name the rules. INVENTORY.md lists every piece. -/

namespace Sys2Proof.Machine

/-- No command of this block faults: whatever the spec calls a failure is state. -/
inductive Fault : Type
deriving DecidableEq, Repr

/-- Why a command has no meaning. -/
inductive Refusal where
  /-- Raised by `exec` alone for a command not modelled yet; safe. No arm raises it now. -/
  | notModelled (mnemonic : String)
deriving DecidableEq, Repr

/-- Memory as (address, byte) pairs in canonical form (`Memory.wf` in Machine/Ops.lean). -/
abbrev Memory := List Host.Cell

/-! ### Pass-through, memory agent, report writer (01) -/

/-- The two kinds of restore pass (R21, R22). -/
inductive PassKind where
  | full
  | audio
deriving DecidableEq, Repr

/-- A restore pass in progress: its kind and the lowest offset it has not yet written. -/
structure RestorePass where
  kind : PassKind
  next : Nat
deriving DecidableEq, Repr

/-- Whose burst is in flight (R13). -/
inductive BurstOwner where
  | restore
  | fetch (m : StreamId) (frames : Nat)
  | writeBack
  | recall (n : Nat)
  | store (n : Nat)
  | report (r : Rec)
deriving DecidableEq, Repr

/-- A part burst: first byte address, words written or read, the words a write burst replaced,
and whether a read burst's requester no longer wants the words (R13, R15). -/
structure Burst where
  owner : BurstOwner
  addr : Nat
  isWrite : Bool
  words : List Word
  replaced : List Word
  discard : Bool
deriving DecidableEq, Repr

/-- Who holds the downstream port (R12). -/
inductive Port where
  | free
  | host
  | part (b : Burst)
deriving DecidableEq, Repr

/-- A host access held on WAITN; `whole` when it came as a one-step write row (log 2). -/
structure HeldAccess where
  access : HostAccess
  whole : Bool
deriving DecidableEq, Repr

/-- The memory agent (R10 to R15). -/
structure Agent where
  port : Port
  lastPart : Bool
  held : Option HeldAccess
  queue : List Slot
  restore : Option RestorePass
deriving DecidableEq, Repr

/-- The attention causes, by mask bit (R18). -/
inductive Cause where
  | writeBlocked
  | source
  | stream
  | zoneNoSignal
  | module
  | clock
  | measure
  | selfCheck
  | tuner
  | station
  | restoreDone
deriving DecidableEq, Repr

/-- Block reasons (R20). -/
inductive BlockReason where
  | none
  | partialWrite
  | partOwned
  | locked
  | state
  | value
deriving DecidableEq, Repr

/-- The attention state (R18 to R20). -/
structure Attention where
  pending : Word
  enable : Word
  blockOffset : Word
  blockReason : BlockReason
deriving DecidableEq, Repr

/-- Outcomes of command slots (R9). -/
inductive Answer where
  | taken
  | busy
  | range
  | notAllowed
  | invalid
deriving DecidableEq, Repr

/-- The latest outcome of each command slot (R9). -/
structure Answers where
  system : Answer
  stream : PerStream Answer
  module : Answer
  measure : Answer
  tuner : Answer
deriving DecidableEq, Repr

/-! ### Inputs and streams (02) -/

/-- An audio frame of a source: a stereo pair, or eight channels FL FR C LFE SL SR BL BR (R25). -/
inductive SrcFrame where
  | stereo (l r : Sample)
  | eight (fl fr c lfe sl sr bl br : Sample)
deriving DecidableEq, Repr

/-- A rate converter: 48 kHz frames delivered since it started empty, and the frames it holds (R34). -/
structure Converter where
  age : Nat
  frames : List SrcFrame
deriving DecidableEq, Repr

/-- FORMAT values (R28). -/
inductive Format where
  | stereo
  | tdm8
deriving DecidableEq, Repr

/-- SA lock states (R30). -/
inductive LockState where
  | noClock
  | measuring
  | locked
  | unsupported
deriving DecidableEq, Repr

/-- The five supported rate classes (R29). -/
inductive RateClass where
  | k32
  | k44
  | k48
  | k88
  | k96
deriving DecidableEq, Repr

/-- One serial audio line (section 2.2). -/
structure SaState where
  format : Format
  formatKept : Bool
  edges : Nat
  lock : LockState
  lockedClass : Option RateClass
  runClass : Option RateClass
  runCount : Nat
  otherRun : Nat
  misses : Nat
  npcmPin : Bool
  npcmTaken : Bool
  npcmTimer : Bool
  afterSilence : Bool
  conv : Converter
deriving DecidableEq, Repr

/-- Stream states (R40). -/
inductive StreamState where
  | stopped
  | priming
  | running
  | starved
deriving DecidableEq, Repr

/-- One stream reader (section 2.3). The descriptor taken at START is the descriptor slots' values,
which only change while the stream is STOPPED (R36). -/
structure Reader where
  baseLo : Word
  baseHi : Word
  size : Nat
  channels : Nat
  width : Nat
  rate : Nat
  fill : Nat
  drain : Nat
  state : StreamState
  buffer : List SrcFrame
  starvations : Nat
  conv : Converter
deriving DecidableEq, Repr

/-! ### Zones (03) -/

/-- Zone states (R50). -/
inductive ZoneState where
  | silent
  | fadingOut
  | waiting
  | fadingIn
  | playing
  | reconfiguring
deriving DecidableEq, Repr

/-- Kinds of reconfiguration request (R60). -/
inductive ChangeKind where
  | decode
  | speakers
  | delay
deriving DecidableEq, Repr

/-- The held changes set (R46): each kind at most once. -/
structure HeldChanges where
  decode : Bool
  speakers : Bool
  delay : Bool
deriving DecidableEq, Repr

/-- The fields of a zone record held by the zone switch (R46), and the SOURCE arrival kept during
master clock failure (R65). -/
structure ZoneRec where
  state : ZoneState
  connected : Option Source
  pending : Option Source
  fade : Int
  gateOpen : Bool
  held : HeldChanges
  fadeRate : Nat
  waitLimit : Nat
  waited : Nat
  noSignal : Bool
  kept : Option (Option Source)
deriving DecidableEq, Repr

/-! ### Surround decoder and bass manager (04) -/

/-- DECODE_MODE values (R67). -/
inductive DecodeMode where
  | direct
  | matrix
  | stereo
deriving DecidableEq, Repr

/-- STEER_SPEED values (R67). -/
inductive SteerSpeed where
  | fast
  | normal
  | slow
deriving DecidableEq, Repr

/-- Four values, one for each of L, R, S = L + R and D = L - R (R72, R73). -/
structure Quad where
  l : Nat
  r : Nat
  s : Nat
  d : Nat
deriving DecidableEq, Repr

/-- The surround decoder (R67, R72, R73, R76). -/
structure Decoder where
  active : DecodeMode
  staged : DecodeMode
  speed : SteerSpeed
  sums : Quad
  frames : Nat
  env : Quad
  stagedTerms : PerMain Int
  activeTerms : PerMain Int
deriving DecidableEq, Repr

/-- FRONT_SIZE values (R79). -/
inductive FrontSize where
  | large
  | small
deriving DecidableEq, Repr

/-- CENTER, SURROUND, BACK and TOP values (R79). -/
inductive SpeakerSize where
  | large
  | small
  | absent
deriving DecidableEq, Repr

/-- A speaker configuration (R79). -/
structure SpeakerConfig where
  front : FrontSize
  center : SpeakerSize
  surround : SpeakerSize
  back : SpeakerSize
  top : SpeakerSize
  subPresent : Bool
  crossover : Nat
deriving DecidableEq, Repr

/-- The crossover filters of one channel: two sections each of high-pass and low-pass (R85). -/
structure FilterBank where
  hp1 : FilterSection
  hp2 : FilterSection
  lp1 : FilterSection
  lp2 : FilterSection
deriving DecidableEq, Repr

/-- The bass manager (R79, R85). -/
structure Bass where
  staged : SpeakerConfig
  active : SpeakerConfig
  filters : PerMain FilterBank
deriving DecidableEq, Repr

/-! ### Gain stage and panel knob (05) -/

/-- One channel of the gain stage (R94, R98). -/
structure ChanGain where
  applied : Int
  peak : Nat
  clip : Bool
  closedPeak : Int
  closedClip : Bool
deriving DecidableEq, Repr

/-- One zone of the gain stage (R99 to R101). -/
structure ZoneGain where
  volume : Int
  mute : Bool
  maxVolume : Int
deriving DecidableEq, Repr

/-- The gain stage (R89 to R101). -/
structure Gain where
  chans : PerChan ChanGain
  zones : PerZone ZoneGain
  trims : PerChan Int
  srcTrims : PerSource Int
deriving DecidableEq, Repr

/-- One knob contact (R104). -/
structure Contact where
  pin : Bool
  taken : Option Bool
  timer : Bool
deriving DecidableEq, Repr

/-- The panel knob decoder (R104 to R107). -/
structure Knob where
  a : Contact
  b : Contact
  reference : Option (Bool × Bool)
  acc : Int
  zone : Zone
  step : Nat
deriving DecidableEq, Repr

/-! ### Delay pool (06) -/

/-- Line lengths in frames and grants in frames (R115). -/
structure PoolSet where
  len : PerChan Nat
  grant : PerZone Nat
deriving DecidableEq, Repr

/-- Allocation states (R117). -/
inductive AllocState where
  | settled
  | requested
  | waitingRoom
deriving DecidableEq, Repr

/-- The delay pool (06). A line's list holds its words, the newest first. -/
structure Pool where
  dist : PerMain Nat
  lipsync : PerZone Nat
  presence : PerMain Bool
  staged : PoolSet
  active : PoolSet
  alloc : PerZone AllocState
  lines : PerChan (List Sample)
deriving DecidableEq, Repr

/-! ### Amplifier supervisor (07) -/

/-- Module states (R125). -/
inductive ModuleState where
  | off
  | starting
  | on
  | stopping
  | tripped
deriving DecidableEq, Repr

/-- Trip causes (R125). -/
inductive TripCause where
  | none
  | faultLine
  | measure
  | clock
deriving DecidableEq, Repr

/-- One module's record (R125) and the level of its AMPFLT pin (R132). -/
structure ModuleRec where
  state : ModuleState
  enable : Bool
  order : Bool
  cause : TripCause
  tripEntry : Nat
  derate : Int
  fltPin : Bool
deriving DecidableEq, Repr

/-- Clock states (R135). -/
inductive ClockState where
  | unproven
  | good
  | failed
deriving DecidableEq, Repr

/-- Setup lock states (R137). -/
inductive SetupLock where
  | unlocked
  | locked
  | pending
deriving DecidableEq, Repr

/-! ### Measurement unit (08) -/

/-- One measurement entry: its four slot words, last code, violation count and state (R141, R147). -/
structure Entry where
  w0 : Word
  w1 : Word
  w2 : Word
  w3 : Word
  code : Option Nat
  count : Nat
  violation : Bool
deriving DecidableEq, Repr

/-- A request in the on-demand queue (R144): the tuner's may be abandoned; the self-check's
remembers that its REF conversion has been started. -/
inductive OnDemand where
  | tuner (abandoned : Bool)
  | host
  | selfCheck (refStarted : Bool)
deriving DecidableEq, Repr

/-- Whom a conversion is made for (R140): a round-robin entry, whose code may have to be
discarded (R142), or an on-demand request. -/
inductive ConvOwner where
  | entry (n : Nat) (discard : Bool)
  | tuner (abandoned : Bool)
  | host
  | ref
  | halfRef
deriving DecidableEq, Repr

/-- The conversion in progress (R140). -/
structure Conversion where
  owner : ConvOwner
  input : Nat
  divider : Nat
deriving DecidableEq, Repr

/-- Host status of the on-demand result record (R153). -/
inductive HostStatus where
  | none
  | waiting
  | converting
  | done
deriving DecidableEq, Repr

/-- Self-check results (R150). -/
inductive CheckResult where
  | running
  | pass
  | fail
deriving DecidableEq, Repr

/-- The measurement unit (08). -/
structure Meas where
  seqLen : Nat
  entries : List Entry
  position : Nat
  roundRobin : Bool
  queue : List OnDemand
  onDemandCount : Nat
  conv : Option Conversion
  hostStatus : HostStatus
  hostInput : Nat
  hostDivider : Nat
  hostCode : Nat
  hostCount : Nat
  result : CheckResult
  checkRef : Nat
  refCode : Nat
  halfRefCode : Nat
deriving DecidableEq, Repr

/-! ### Front-end line and tuner controller (09) -/

/-- Bands (R162). -/
inductive Band where
  | fm
  | am
deriving DecidableEq, Repr

/-- Regions (R162). -/
inductive Region where
  | a
  | b
deriving DecidableEq, Repr

/-- A received character with its marks (R157). -/
structure RxChar where
  data : Byte
  brk : Bool
  parityError : Bool
  framingError : Bool
  gap : Bool
  overrun : Bool
deriving DecidableEq, Repr

/-- The frame assembler (R158). -/
inductive Assembler where
  | hunt
  | length
  | body (len : Nat) (got : List Byte)
deriving DecidableEq, Repr

/-- What a TUNE was sent for (R159, R161): a plain tune, a seek step, a probe step, the switch to
the best candidate, or the re-tune after a front-end restart. -/
inductive TunePurpose where
  | plain
  | seekStep
  | probeStep
  | switch
  | retune
deriving DecidableEq, Repr

/-- The three commands of the line (R159). -/
inductive FeCommand where
  | tune (band : Band) (region : Region) (code : Nat) (purpose : TunePurpose)
  | query
  | standby
deriving DecidableEq, Repr

/-- The outstanding command (R160). -/
structure Outstanding where
  cmd : FeCommand
  resent : Bool
  abandoned : Bool
deriving DecidableEq, Repr

/-- The front-end line (section 9.1). -/
structure FrontEnd where
  divisor : Nat
  divisorSetting : Nat
  divisorWaiting : Bool
  txFrames : List (List Byte)
  rxQueue : List RxChar
  rxFirst : Bool
  assembler : Assembler
  outstanding : Option Outstanding
  pending : Option FeCommand
  responseTimer : Bool
deriving DecidableEq, Repr

/-- Tuner states (R163). -/
inductive TunerState where
  | off
  | tuning
  | settling
  | listening
  | seeking
  | probing
  | verifying
  | fault
deriving DecidableEq, Repr

/-- Reasons of a plain tune (R164). -/
inductive TuneReason where
  | hostTune
  | recall
  | seekStopped
  | seekWrapped
  | verifyFailed
  | noSwitch
deriving DecidableEq, Repr

/-- Long outcomes (R164, R193). -/
inductive LongOutcome where
  | none
  | tuned
  | seekFound
  | seekNone
  | seekStopped
  | recalled
  | stored
  | afSwitched
  | afReturned
  | afStayed
  | invalid
  | feFault
deriving DecidableEq, Repr

/-- The phase of a seek or probe step (R167). -/
inductive StepPhase where
  | exchange
  | settling
  | firstReading
  | secondReading (first : Nat)
deriving DecidableEq, Repr

/-- A seek (R167). -/
structure Seek where
  band : Band
  region : Region
  start : Nat
  step : Nat
  up : Bool
deriving DecidableEq, Repr

/-- A probe (R173, R174). -/
structure Probe where
  band : Band
  original : Nat
  mean : Nat
  todo : List Nat
  current : Nat
  best : Option (Nat × Nat)
  verifyCode : Word
  switching : Bool
deriving DecidableEq, Repr

/-- The preset transfer (R169, R170): a recall with the words fetched so far, or a store with the
bursts issued so far and the eighteen words of its snapshot. -/
inductive Transfer where
  | none
  | recalling (n : Nat) (got : List Word)
  | storing (n : Nat) (issued : Nat) (snap : List Word)
deriving DecidableEq, Repr

/-- The tuner controller (section 9.2). -/
structure Tuner where
  state : TunerState
  phase : StepPhase
  region : Region
  band : Band
  code : Nat
  seekThr : Nat
  blendThr : Nat
  afThr : Nat
  afFollow : Bool
  tunedBand : Band
  tunedCode : Nat
  pilot : Bool
  reason : TuneReason
  seek : Seek
  probe : Probe
  expected : Option Word
  stereo : Bool
  lowRun : Nat
  highRun : Nat
  weak : Nat
  previous : Nat
  settleTimer : Bool
  readingTimer : Bool
  queryTimer : Bool
  verifyTimer : Bool
  backoff : Bool
  transfer : Transfer
  lastRssi : Nat
  outcome : LongOutcome
  outcomeCount : Nat
deriving DecidableEq, Repr

/-! ### Station data decoder (10) -/

/-- Sync states (R178, R180). -/
inductive SyncState where
  | idle
  | search
  | acquiring
  | synced
deriving DecidableEq, Repr

/-- The group in progress (R182): which of its four blocks have been handed over, and their words. -/
structure Group where
  p0 : Option Word
  p1 : Option Word
  p2 : Option Word
  p3 : Option Word
deriving DecidableEq, Repr

/-- Content items, as candidates or confirmed (R183 to R185): six name segments of one word, twelve
text segments of two. -/
structure Content where
  code : Option Word
  category : Option Nat
  names : List (Option Word)
  texts : List (Option (Word × Word))
deriving DecidableEq, Repr

/-- The station data decoder (10). -/
structure Station where
  sync : SyncState
  window : List Bool
  expected : Nat
  validCount : Nat
  badCount : Nat
  gapTimer : Bool
  group : Group
  candidate : Content
  confirmed : Content
  traffic : Bool
  speech : Bool
  toggle : Bool
  toggleRef : Option Bool
  af : List Nat
deriving DecidableEq, Repr

/-- The whole part. -/
structure State where
  pending : List Instr
  rstnLow : Bool
  strap : Bool × Bool
  mem : Memory
  readData : Word
  agent : Agent
  att : Attention
  dirty : List Rec
  meterTimer : Bool
  answers : Answers
  sa : PerLine SaState
  ms : PerStream Reader
  zones : PerZone ZoneRec
  view : PerSource Bool
  dec : Decoder
  bass : Bass
  gain : Gain
  knob : Knob
  pool : Pool
  mods : PerModule ModuleRec
  clock : ClockState
  audioStarted : Bool
  lock : SetupLock
  links : PerChan Sample
  meas : Meas
  fe : FrontEnd
  tun : Tuner
  sd : Station
  free : Nat
deriving DecidableEq, Repr

/-! ### Reset values -/

/-- A rate converter that holds no frames. -/
def Converter.empty : Converter := ⟨0, []⟩

/-- The restart state of an SA line (R35), with its NPCM pin at a level. -/
def SaState.restart (pin : Bool) : SaState :=
  { format := .stereo, formatKept := false, edges := 0, lock := .noClock, lockedClass := none,
    runClass := none, runCount := 0, otherRun := 0, misses := 0, npcmPin := pin, npcmTaken := false,
    npcmTimer := true, afterSilence := false, conv := .empty }

/-- The restart state of a reader (R43, R36). -/
def Reader.restart : Reader :=
  { baseLo := 0, baseHi := 0, size := 64, channels := 2, width := 16, rate := 2, fill := 0, drain := 0,
    state := .stopped, buffer := [], starvations := 0, conv := .empty }

/-- An empty held changes set. -/
def HeldChanges.empty : HeldChanges := ⟨false, false, false⟩

/-- The restart state of a zone (R64). -/
def ZoneRec.restart : ZoneRec :=
  { state := .silent, connected := none, pending := none, fade := -320, gateOpen := false, held := .empty,
    fadeRate := 4, waitLimit := 3000, waited := 0, noSignal := false, kept := none }

/-- Four zeros. -/
def Quad.zero : Quad := ⟨0, 0, 0, 0⟩

/-- The restart state of the surround decoder (R78). -/
def Decoder.restart : Decoder :=
  { active := .direct, staged := .direct, speed := .normal, sums := .zero, frames := 0, env := .zero,
    stagedTerms := .all 0, activeTerms := .all 0 }

/-- The reset speaker configuration (R79). -/
def SpeakerConfig.reset : SpeakerConfig :=
  { front := .small, center := .small, surround := .small, back := .absent, top := .absent,
    subPresent := true, crossover := 2 }

/-- Filters in the zero state (R85). -/
def FilterBank.zero : FilterBank := ⟨⟨0, 0⟩, ⟨0, 0⟩, ⟨0, 0⟩, ⟨0, 0⟩⟩

/-- The bass manager after pin reset (R88). -/
def Bass.reset : Bass := ⟨.reset, .reset, .all .zero⟩

/-- The restart state of a channel of the gain stage (R108). -/
def ChanGain.restart : ChanGain := ⟨-320, 0, false, -368, false⟩

/-- The gain stage after pin reset (R108). -/
def Gain.reset : Gain :=
  { chans := .all .restart, zones := .all ⟨-120, false, 0⟩, trims := .all 0, srcTrims := .all 0 }

/-- The panel knob decoder after pin reset, with its pins at levels (R109). -/
def Knob.reset (a b : Bool) : Knob :=
  { a := ⟨a, none, true⟩, b := ⟨b, none, true⟩, reference := none, acc := 0, zone := .z1, step := 2 }

/-- The presence set of a configuration (R79). -/
def SpeakerConfig.presence (c : SpeakerConfig) : PerMain Bool :=
  { fl := true, fr := true, c := c.center != .absent, sw := c.subPresent, sl := c.surround != .absent,
    sr := c.surround != .absent, bl := c.back != .absent, br := c.back != .absent,
    tl := c.top != .absent, tr := c.top != .absent }

/-- All lengths and grants zero. -/
def PoolSet.zero : PoolSet := ⟨.all 0, .all 0⟩

/-- The restart state of the delay pool on a presence set (R121): every length is zero. -/
def Pool.restart (presence : PerMain Bool) : Pool :=
  { dist := .all 300, lipsync := .all 0, presence := presence, staged := .zero, active := .zero,
    alloc := .all .settled, lines := .all [] }

/-- A module after pin reset, with its AMPFLT pin at a level (R125). -/
def ModuleRec.reset (flt : Bool) : ModuleRec :=
  { state := .off, enable := true, order := false, cause := .none, tripEntry := 0, derate := 0, fltPin := flt }

/-- An entry with no code from its four words. -/
def Entry.fresh (w0 w1 w2 w3 : Word) : Entry := ⟨w0, w1, w2, w3, none, 0, false⟩

/-- The reset sequence table (R141, encoded by R192). -/
def Entry.resetTable : List Entry :=
  [.fresh 0x0100 0 640 0x0211, .fresh 0x0101 0 640 0x0221, .fresh 0x0102 0 640 0x0231,
    .fresh 0x0100 0 760 0x0212, .fresh 0x0101 0 760 0x0222, .fresh 0x0102 0 760 0x0232,
    .fresh 0x0103 300 900 0x0412, .fresh 0x0104 300 900 0x0422, .fresh 0x0105 300 900 0x0432,
    .fresh 0x0106 0 850 0x0112, .fresh 0x0107 0 850 0x0122, .fresh 0x0108 0 850 0x0132,
    .fresh 0x010A 0 1023 0x0100, .fresh 0x010A 0 1023 0x0100, .fresh 0x010A 0 1023 0x0100,
    .fresh 0x010A 0 1023 0x0100]

/-- The measurement unit after pin reset (R154). -/
def Meas.reset : Meas :=
  { seqLen := 12, entries := Entry.resetTable, position := 0, roundRobin := false,
    queue := [.selfCheck false], onDemandCount := 0, conv := none, hostStatus := .none, hostInput := 0,
    hostDivider := 1, hostCode := 0, hostCount := 0, result := .running, checkRef := 0, refCode := 0,
    halfRefCode := 0 }

/-- The front-end line after pin reset (R161). -/
def FrontEnd.reset : FrontEnd :=
  { divisor := 40, divisorSetting := 40, divisorWaiting := false, txFrames := [], rxQueue := [],
    rxFirst := true, assembler := .hunt, outstanding := none, pending := none, responseTimer := false }

/-- The tuner controller after pin reset (R177). The fields of an operation that is not in progress and the
earlier of the two latest readings, `previous`, for which R177 gives no value: DESIGN CHOICE, log 39. -/
def Tuner.reset : Tuner :=
  { state := .off, phase := .exchange, region := .a, band := .fm, code := 0, seekThr := 420, blendThr := 360,
    afThr := 300, afFollow := true, tunedBand := .fm, tunedCode := 0, pilot := false, reason := .hostTune,
    seek := ⟨.fm, .a, 0, 0, true⟩, probe := ⟨.fm, 0, 0, [], 0, none, 0, false⟩, expected := none,
    stereo := true, lowRun := 0, highRun := 0, weak := 0, previous := 0, settleTimer := false,
    readingTimer := false, queryTimer := false, verifyTimer := false, backoff := false, transfer := .none,
    lastRssi := 0, outcome := .none, outcomeCount := 0 }

/-- No content (R186). -/
def Content.empty : Content := ⟨none, none, List.replicate 6 none, List.replicate 12 none⟩

/-- No group in progress. -/
def Group.empty : Group := ⟨none, none, none, none⟩

/-- The station data decoder after pin reset (R186; the expected position and the latest text-toggle
flag, log 56). -/
def Station.reset : Station :=
  { sync := .idle, window := [], expected := 0, validCount := 0, badCount := 0, gapTimer := false,
    group := .empty, candidate := .empty, confirmed := .empty, traffic := false, speech := false,
    toggle := false, toggleRef := none, af := [] }

/-- The machine right after pin reset: RSTN has risen with both straps low, every block is in its
reset state, and the full restore pass and the self-check are requested. Pin reset clears every mark (R16,
R21), and the measurement unit marks the device record as RSTN rises (R150; logs 3 and 53). -/
def State.reset : State :=
  { pending := [], rstnLow := false, strap := (false, false), mem := [], readData := 0,
    agent := { port := .free, lastPart := false, held := none, queue := [], restore := some ⟨.full, 0⟩ },
    att := { pending := 0, enable := 0, blockOffset := 0, blockReason := .none },
    dirty := [.device], meterTimer := false,
    answers := ⟨.taken, .all .taken, .taken, .taken, .taken⟩,
    sa := .all (.restart false), ms := .all .restart, zones := .all .restart, view := .all false,
    dec := .restart, bass := .reset, gain := .reset, knob := .reset false false,
    pool := .restart SpeakerConfig.reset.presence, mods := .all (.reset false), clock := .unproven,
    audioStarted := false, lock := .locked, links := .all 0, meas := .reset, fe := .reset, tun := .reset,
    sd := .reset, free := 0 }

end Sys2Proof.Machine
end

