-- ==== Sys2Proof/Machine/Ops.lean ====
section
/-! DEFINITION. The named operations every block shares: memory by byte and by word, the dirty marks,
the attention causes, the write-back queue, command outcomes, and updates of one item of a table. -/

set_option autoImplicit false

namespace Sys2Proof.Machine

/-! ### Memory -/

/-- The byte at an address: the listed one, else what unwritten memory reads as (log 4). -/
def Memory.read : Memory → Nat → Byte
  | [], _ => Config.memoryFill
  | (b, v) :: rest, a => if b = a then v else Memory.read rest a

/-- Writes one byte and keeps the canonical form. -/
def Memory.write : Memory → Nat → Byte → Memory
  | [], a, v => if v = Config.memoryFill then [] else [(a, v)]
  | (b, w) :: rest, a, v =>
    if a < b then (if v = Config.memoryFill then (b, w) :: rest else (a, v) :: (b, w) :: rest)
    else if a = b then (if v = Config.memoryFill then rest else (a, v) :: rest)
    else (b, w) :: Memory.write rest a v

/-- Addresses from `lo` upward strictly rising, and no listed byte equal to the fill. -/
def Memory.wfFrom : Nat → Memory → Bool
  | _, [] => true
  | lo, (a, v) :: rest => decide (lo ≤ a) && (v != Config.memoryFill) && Memory.wfFrom (a + 1) rest

/-- The canonical form of memory. -/
def Memory.wf (m : Memory) : Bool := Memory.wfFrom 0 m

/-- The word at an even address: lower lane at the address, upper lane above it (log 6). -/
def Memory.readWord (m : Memory) (a : Nat) : Word := m.read (a + 1) ++ m.read a

/-- Writes the enabled lanes of a word at an even address (R1). -/
def Memory.writeLanes (m : Memory) (a : Nat) (lanes : Lanes) (v : Word) : Memory :=
  let m1 := if lanes.lo then m.write a (v.extractLsb' 0 8) else m
  if lanes.hi then m1.write (a + 1) (v.extractLsb' 8 8) else m1

/-- Writes a whole word (a part write enables both lanes, R13). -/
def Memory.writeWord (m : Memory) (a : Nat) (v : Word) : Memory := m.writeLanes a .full v

/-- Writes words at consecutive word addresses. -/
def Memory.writeWords : Memory → Nat → List Word → Memory
  | m, _, [] => m
  | m, a, v :: vs => Memory.writeWords (m.writeWord a v) (a + 2) vs

/-- Reads `n` words at consecutive word addresses. -/
def Memory.readWords (m : Memory) (a : Nat) : Nat → List Word
  | 0 => []
  | n + 1 => m.readWord a :: Memory.readWords m (a + 2) n

/-- The size in bytes of the memory fitted, by the straps APS1 APS0 (00, the placement table). -/
def fittedBytes (strap : Bool × Bool) : Nat :=
  match strap with
  | (false, false) => 0x1000000
  | (false, true) => 0x800000
  | (true, false) => 0x400000
  | (true, true) => 0x200000

/-- The aperture base: the top 64 KiB of the memory fitted (R2). -/
def State.apertureBase (s : State) : Nat := fittedBytes s.strap - 0x10000

/-! ### Dirty marks, attention, write-backs, outcomes -/

/-- Adds a record to a list kept by ascending offset; a mark already set changes nothing (R16). -/
def insertRec (r : Rec) : List Rec → List Rec
  | [] => [r]
  | x :: xs =>
    if x = r then x :: xs
    else if r.offset < x.offset then r :: x :: xs
    else x :: insertRec r xs

/-- Sets a record's dirty mark (R16). -/
def markDirty (r : Rec) (s : State) : State := { s with dirty := insertRec r s.dirty }

/-- Sets the dirty marks of several records. -/
def markAll (rs : List Rec) (s : State) : State := rs.foldl (fun t r => markDirty r t) s

/-- A cause's mask bit (R18). -/
def causeBit : Cause → Nat
  | .writeBlocked => 0
  | .source => 1
  | .stream => 2
  | .zoneNoSignal => 3
  | .module => 4
  | .clock => 5
  | .measure => 6
  | .selfCheck => 7
  | .tuner => 8
  | .station => 9
  | .restoreDone => 10

/-- The mask with one cause's bit. -/
def causeMask (c : Cause) : Word := 1#16 <<< causeBit c

/-- Makes a cause pending; every change of the pending set marks the attention record dirty (R18). -/
def raise (c : Cause) (s : State) : State :=
  if s.att.pending &&& causeMask c = 0 then
    markDirty .attention { s with att := { s.att with pending := s.att.pending ||| causeMask c } }
  else s

/-- Requests a write-back of a slot: at the tail, unless the queue already holds it (R10). -/
def requestWriteBack (sl : Slot) (s : State) : State :=
  if sl ∈ s.agent.queue then s
  else { s with agent := { s.agent with queue := s.agent.queue ++ [sl] } }

/-- An outcome's value (R9). -/
def answerWord : Answer → Word
  | .taken => 0x0000#16
  | .busy => 0x8001#16
  | .range => 0x8002#16
  | .notAllowed => 0x8003#16
  | .invalid => 0x8004#16

/-- Records SYSTEM_CMD's outcome and requests its write-back (R9). -/
def answerSystem (a : Answer) (s : State) : State :=
  requestWriteBack .systemCmd { s with answers := { s.answers with system := a } }

/-- Records a STREAM_CMD outcome and requests its write-back (R9). -/
def answerStream (m : StreamId) (a : Answer) (s : State) : State :=
  requestWriteBack (.streamCmd m) { s with answers := { s.answers with stream := s.answers.stream.set m a } }

/-- Records MODULE_CMD's outcome and requests its write-back (R9). -/
def answerModule (a : Answer) (s : State) : State :=
  requestWriteBack .moduleCmd { s with answers := { s.answers with module := a } }

/-- Records MEASURE_CMD's outcome and requests its write-back (R9). -/
def answerMeasure (a : Answer) (s : State) : State :=
  requestWriteBack .measureCmd { s with answers := { s.answers with measure := a } }

/-- Records TUNER_CMD's outcome and requests its write-back (R9). -/
def answerTuner (a : Answer) (s : State) : State :=
  requestWriteBack .tunerCmd { s with answers := { s.answers with tuner := a } }

/-! ### Updates of one item -/

/-- Changes one SA line. -/
def updLine (l : SaLine) (f : SaState → SaState) (s : State) : State := { s with sa := s.sa.upd l f }

/-- Changes one stream reader. -/
def updReader (m : StreamId) (f : Reader → Reader) (s : State) : State := { s with ms := s.ms.upd m f }

/-- Changes one zone record. -/
def updZone (z : Zone) (f : ZoneRec → ZoneRec) (s : State) : State := { s with zones := s.zones.upd z f }

/-- Changes one zone record; a change of its state marks the zone's report record (R50, R63). -/
def moveZone (z : Zone) (f : ZoneRec → ZoneRec) (s : State) : State :=
  let r := s.zones.get z
  markAll (if (f r).state = r.state then [] else [.zone z]) (updZone z f s)

/-- Changes one module record. -/
def updModule (m : AmpModule) (f : ModuleRec → ModuleRec) (s : State) : State :=
  { s with mods := s.mods.upd m f }

/-- Changes the levels of one zone in the gain stage. -/
def updZoneGain (z : Zone) (f : ZoneGain → ZoneGain) (s : State) : State :=
  { s with gain := { s.gain with zones := s.gain.zones.upd z f } }

/-- Changes every channel of the gain stage. -/
def mapChans (f : Chan → ChanGain → ChanGain) (s : State) : State :=
  { s with gain := { s.gain with chans := .ofFn fun ch => f ch (s.gain.chans.get ch) } }

/-! ### When the audio blocks run -/

/-- The audio blocks run: their timers have started and the clock state is GOOD (R135). -/
def State.audioRuns (s : State) : Bool := s.audioStarted && (s.clock == .good)

/-- A partial restore pass is running (R22). -/
def State.partialPass (s : State) : Bool :=
  match s.agent.restore with
  | some p => p.kind == .audio
  | none => false

/-- The zone, slew and steering timers run: not during a partial restore pass (R64, R94, R72). -/
def State.restartTimersRun (s : State) : Bool := s.audioRuns && !s.partialPass

end Sys2Proof.Machine
end

