-- ==== Sys2Proof/Machine/Gain.lean ====
section
/-! DEFINITION. The gain stage: the target of each channel, the slew, the floor events, the output
arithmetic, metering, and the operations on volume, mute and max volume (05). -/

set_option autoImplicit false

namespace Sys2Proof.Machine

/-- The zone a channel belongs to (R91). -/
def chanZone : Chan → Zone
  | .main _ => .z1
  | .zl => .z2
  | .zr => .z2

/-- The module a channel is sent to (R91, R123). -/
def chanModule : Chan → AmpModule
  | .main .fl => .a
  | .main .fr => .a
  | .main .c => .a
  | .main .sw => .a
  | .main .sl => .b
  | .main .sr => .b
  | .main .bl => .b
  | .main .br => .b
  | .main .tl => .c
  | .main .tr => .c
  | .zl => .c
  | .zr => .c

/-- Whether a channel is present by the presence set last handed over, which is that of the active
configuration; ZL and ZR are always present (R79, R91). -/
def chanPresent (s : State) : Chan → Bool
  | .main ch => s.bass.active.presence.get ch
  | .zl => true
  | .zr => true

/-- The steering term D of a channel: the active term, and 0 for ZL and ZR (R91). -/
def steeringTerm (s : State) : Chan → Int
  | .main ch => s.dec.activeTerms.get ch
  | .zl => 0
  | .zr => 0

/-- The source trim S of a zone: the trim of its connected source, 0 for NONE (R91). -/
def zoneSourceTrim (s : State) (z : Zone) : Int :=
  match (s.zones.get z).connected with
  | some src => s.gain.srcTrims.get src
  | none => 0

/-- The forcing conditions of R92. -/
def forced (s : State) (ch : Chan) : Bool :=
  (s.gain.zones.get (chanZone ch)).mute
    || !chanPresent s ch
    || !(s.zones.get (chanZone ch)).gateOpen
    || ((s.zones.get (chanZone ch)).fade == gainFloor)
    || ((s.mods.get (chanModule ch)).state != .on)
    || (s.mods.get (chanModule ch)).order

/-- The sum V + T + S + D + P + F of a channel (R92). -/
def termSum (s : State) (ch : Chan) : Int :=
  (s.gain.zones.get (chanZone ch)).volume + s.gain.trims.get ch + zoneSourceTrim s (chanZone ch)
    + steeringTerm s ch + (s.mods.get (chanModule ch)).derate + (s.zones.get (chanZone ch)).fade

/-- The target G_t of a channel as its inputs stand (R92). -/
def target (s : State) (ch : Chan) : Int :=
  if forced s ch then gainFloor else clampInt gainFloor gainCeiling (termSum s ch)

/-- One slew step of an applied gain toward a target: at most 8 level steps (R94). -/
def slewStep (g t : Int) : Int :=
  if g + 8 < t then g + 8 else if t + 8 < g then g - 8 else t

/-- The slew of all twelve channels (R94). -/
def slewAll (s : State) : State :=
  mapChans (fun ch c => { c with applied := slewStep c.applied (target s ch) }) s

/-- Sets the applied gain of some channels to -320 at once (R95). -/
def floorChans (p : Chan → Bool) (s : State) : State :=
  mapChans (fun ch c => if p ch then { c with applied := gainFloor } else c) s

/-- The gate-close notice of a zone: every channel of the zone to -320 (R49, R95). -/
def floorZone (z : Zone) (s : State) : State := floorChans (fun ch => chanZone ch == z) s

/-- A module's four channels to -320 (R95). -/
def floorModule (m : AmpModule) (s : State) : State := floorChans (fun ch => chanModule ch == m) s

/-- All four channels of a module stand at -320 (R93). -/
def moduleAtFloor (s : State) (m : AmpModule) : Bool :=
  chans.all fun ch => (chanModule ch != m) || ((s.gain.chans.get ch).applied == gainFloor)

/-- Takes one sample through a channel: the output, with the magnitude and clip noted (R97, R98). -/
def outputSample (c : ChanGain) (x : Int) : Sample × ChanGain :=
  let y := scaleByCoeff (coeff c.applied) x
  let z := sat y
  (toSample z, { c with peak := max c.peak z.natAbs, clip := c.clip || (y != z) })

/-- Closes the meter period of a channel (R98). -/
def closeMeter (c : ChanGain) : ChanGain :=
  { c with peak := 0, clip := false, closedPeak := (level2 c.peak : Int) - 368, closedClip := c.clip }

/-- A VOLUME arrival: V, limited to the max volume with a write-back when it was above it (R99). -/
def volumeArrival (z : Zone) (v : Int) (s : State) : State :=
  let m := (s.gain.zones.get z).maxVolume
  if m < v then requestWriteBack (.volume z) (updZoneGain z (fun g => { g with volume := m }) s)
  else updZoneGain z (fun g => { g with volume := v }) s

/-- A MUTE arrival (R100). -/
def muteArrival (z : Zone) (on : Bool) (s : State) : State :=
  updZoneGain z (fun g => { g with mute := on }) s

/-- A MAX_VOLUME arrival: the ceiling, and V lowered to it with a write-back (R101). -/
def maxVolumeArrival (z : Zone) (m : Int) (s : State) : State :=
  let s1 := updZoneGain z (fun g => { g with maxVolume := m }) s
  if m < (s.gain.zones.get z).volume then
    requestWriteBack (.volume z) (updZoneGain z (fun g => { g with volume := m }) s1)
  else s1

/-- Sets V to a detent's value, with a write-back when it changes (R102). -/
def detentVolume (z : Zone) (v : Int) (s : State) : State :=
  if v = (s.gain.zones.get z).volume then s
  else requestWriteBack (.volume z) (updZoneGain z (fun g => { g with volume := v }) s)

/-- A detent applied to a zone (R102). -/
def detent (z : Zone) (clockwise : Bool) (s : State) : State :=
  let g := s.gain.zones.get z
  if clockwise then
    if g.mute then requestWriteBack (.mute z) (updZoneGain z (fun g => { g with mute := false }) s)
    else detentVolume z (min (g.volume + s.knob.step) g.maxVolume) s
  else detentVolume z (max (g.volume - s.knob.step) gainFloor) s

/-- The levels of a zone after audio restart: V the lower of -120 and the kept max volume (R103). -/
def ZoneGain.restart (g : ZoneGain) : ZoneGain :=
  { g with volume := min (-120) g.maxVolume, mute := false }

/-- The gain stage after audio restart (R108). -/
def Gain.restart (g : Gain) : Gain :=
  { chans := .all .restart, zones := .ofFn fun z => (g.zones.get z).restart, trims := .all 0, srcTrims := .all 0 }

end Sys2Proof.Machine
end

