-- ==== Sys2Proof/Machine/Amplifier.lean ====
section
/-! DEFINITION. The amplifier supervisor's modules: starting, stopping, wind-down, trips, derate, and
the setup lock (07). -/

set_option autoImplicit false

namespace Sys2Proof.Machine

/-- A module leaves STARTING or ON for STOPPING: the order is removed, and its channels are floored
(R128, R129, R130, R95). -/
def stopModule (m : AmpModule) (s : State) : State :=
  floorModule m (updModule m (fun r => { r with state := .stopping, order := false }) s)

/-- The wound-down report of a module, if its order stands while it is ON and its four channels all
stand at -320 (R93, R128). -/
def windDownReport (m : AmpModule) (s : State) : State :=
  let r := s.mods.get m
  if r.order && (r.state == .on) && moduleAtFloor s m then stopModule m s else s

/-- The wound-down reports that are due (R93). -/
def windDownReports (s : State) : State :=
  windDownReport .c (windDownReport .b (windDownReport .a s))

/-- The start conditions of R127 other than the module's own state. -/
def startAllowed (s : State) (r : ModuleRec) : Bool :=
  r.enable && (s.meas.result == .pass) && (s.clock == .good)

/-- A module in OFF whose start conditions all hold enters STARTING (R127). -/
def startModule (m : AmpModule) (s : State) : State :=
  let r := s.mods.get m
  if (r.state == .off) && startAllowed s r then updModule m (fun r => { r with state := .starting }) s else s

/-- Checks every module in OFF (R127). -/
def startModules (s : State) : State := startModule .c (startModule .b (startModule .a s))

/-- A trip event for a module (R131): a hard mute, and unless the module is TRIPPED already, TRIPPED
with the cause latched and MODULE pending. -/
def trip (m : AmpModule) (cause : TripCause) (entry : Nat) (s : State) : State :=
  let s1 := floorModule m s
  if (s.mods.get m).state = .tripped then s1
  else
    raise .module
      (updModule m (fun r => { r with state := .tripped, order := false, cause := cause, tripEntry := entry }) s1)

/-- The self-check result leaves PASS: each module in STARTING or ON stops at once (R130). -/
def selfCheckStop (m : AmpModule) (s : State) : State :=
  let r := s.mods.get m
  if (r.state == .starting) || (r.state == .on) then stopModule m s else s

/-- R130 for the three modules. -/
def selfCheckStops (s : State) : State := selfCheckStop .c (selfCheckStop .b (selfCheckStop .a s))

/-- A derate notice: P moves by a step within -48 to 0 (R133). -/
def derateBy (m : AmpModule) (d : Int) (s : State) : State :=
  updModule m (fun r => { r with derate := clampInt (-48) 0 (r.derate + d) }) s

/-- A MODULE_EN arrival (R126); one equal to the setting changes nothing. -/
def moduleEnArrival (m : AmpModule) (on : Bool) (s : State) : State :=
  let r := s.mods.get m
  if r.enable = on then s
  else
    let s1 := updModule m (fun r => { r with enable := on }) s
    match r.state, on with
    | .off, true => startModule m s1
    | .starting, false => stopModule m s1
    | .on, false => windDownReport m (updModule m (fun r => { r with order := true }) s1)
    | .on, true => updModule m (fun r => { r with order := false }) s1
    | _, _ => s1

/-- A CLEAR_TRIP that is taken for a TRIPPED module (R134). -/
def clearTripTaken (m : AmpModule) (s : State) : State :=
  startModule m (updModule m (fun r => { r with state := .off, cause := .none, tripEntry := 0 }) s)

/-! ### The setup lock -/

/-- The slot value of a lock state (R137). -/
def lockWord : SetupLock → Word
  | .unlocked => 0x0000#16
  | .locked => 0x0001#16
  | .pending => 0x0002#16

/-- The lock after a SETUP_LOCK arrival (R137). -/
def lockNext (l : SetupLock) (v : Word) : SetupLock :=
  if v = 0 then (match l with | .locked => .pending | .pending => .unlocked | .unlocked => .unlocked)
  else .locked

/-- A SETUP_LOCK arrival, with a write-back when its value is not the new state's (R137). -/
def setupLockArrival (v : Word) (s : State) : State :=
  let l := lockNext s.lock v
  let s1 := { s with lock := l }
  if v = lockWord l then s1 else requestWriteBack .setupLock s1

/-- The filter's report of another control-region write: a PENDING lock becomes LOCKED (R138). -/
def relock (s : State) : State :=
  if s.lock = .pending then requestWriteBack .setupLock { s with lock := .locked } else s

end Sys2Proof.Machine
end

