-- ==== Sys2Proof/Machine/Surround.lean ====
section
/-! DEFINITION. The surround decoder and the bass manager: decode modes, downmix, steering analysis,
folding, crossover and the subwoofer bus, and what an apply notice does (04). -/

set_option autoImplicit false

namespace Sys2Proof.Machine

/-- A stereo source and an eight-channel source (R25). -/
inductive ChannelSet where
  | stereo
  | eight
deriving DecidableEq, Repr

/-- The eleven zone 1 buses of a frame (R66). -/
structure Buses where
  ch : PerMain Int
  lfe : Int
deriving DecidableEq, Repr

/-- The channel set of a frame. -/
def SrcFrame.set : SrcFrame → ChannelSet
  | .stereo _ _ => .stereo
  | .eight _ _ _ _ _ _ _ _ => .eight

/-- The channel set a source delivers (R25). -/
def sourceSet (s : State) : Source → ChannelSet
  | .sa l => match (s.sa.get l).format with | .stereo => .stereo | .tdm8 => .eight
  | .ms m => if (s.ms.get m).channels = 8 then .eight else .stereo
  | .tuner => .stereo

/-- The channel set the zone switch reports for a zone (R49); with NONE connected, stereo (log 18). -/
def zoneSet (s : State) (z : Zone) : ChannelSet :=
  match (s.zones.get z).connected with
  | some src => sourceSet s src
  | none => .stereo

/-! ### Forming the buses -/

/-- The buses of DIRECT mode (R68). -/
def directBuses : SrcFrame → Buses
  | .stereo l r => ⟨{ PerMain.all 0 with fl := l.toInt, fr := r.toInt }, 0⟩
  | .eight fl fr c lfe sl sr bl br =>
    ⟨{ PerMain.all 0 with
        fl := fl.toInt, fr := fr.toInt, c := c.toInt, sl := sl.toInt, sr := sr.toInt, bl := bl.toInt,
        br := br.toInt }, lfe.toInt⟩

/-- The buses of MATRIX mode (R69). -/
def matrixBuses : SrcFrame → Buses
  | .stereo l r =>
    let a := l.toInt
    let b := r.toInt
    ⟨{ fl := a, fr := b, c := half (a + b), sw := 0, sl := half (a - b), sr := half (b - a),
       bl := half (a - b), br := half (b - a), tl := half (a - b), tr := half (b - a) }, 0⟩
  | .eight fl fr c lfe sl sr bl br =>
    let d := directBuses (.eight fl fr c lfe sl sr bl br)
    ⟨{ d.ch with tl := half (sl.toInt + bl.toInt), tr := half (sr.toInt + br.toInt) }, d.lfe⟩

/-- The downmix pair of a frame: the pair itself, or Lo and Ro (R70, R71). -/
def downmix : SrcFrame → Int × Int
  | .stereo l r => (l.toInt, r.toInt)
  | .eight fl fr c _ sl sr bl br =>
    (sat (fl.toInt + scaleK c.toInt + scaleK sl.toInt + scaleK bl.toInt),
     sat (fr.toInt + scaleK c.toInt + scaleK sr.toInt + scaleK br.toInt))

/-- The buses of STEREO mode (R70). -/
def stereoBuses (f : SrcFrame) : Buses :=
  ⟨{ PerMain.all 0 with fl := (downmix f).1, fr := (downmix f).2 }, 0⟩

/-- The buses of a frame by the active mode (R66). -/
def formBuses : DecodeMode → SrcFrame → Buses
  | .direct, f => directBuses f
  | .matrix, f => matrixBuses f
  | .stereo, f => stereoBuses f

/-! ### Steering -/

/-- The pair that enters the window sums: zero for eight channels (R72). -/
def steeringPair : SrcFrame → Int × Int
  | .stereo l r => (l.toInt, r.toInt)
  | .eight _ _ _ _ _ _ _ _ => (0, 0)

/-- The window sums after one more frame (R72). -/
def addToSums (q : Quad) (l r : Int) : Quad :=
  ⟨q.l + l.natAbs, q.r + r.natAbs, q.s + (l + r).natAbs, q.d + (l - r).natAbs⟩

/-- One frame into the window in progress; a window takes 48 frames (R72; log 21). -/
def Decoder.takeFrame (d : Decoder) (f : SrcFrame) : Decoder :=
  if d.frames < 48 then
    { d with frames := d.frames + 1, sums := addToSums d.sums (steeringPair f).1 (steeringPair f).2 }
  else d

/-- The shift k of a steering speed (R73). -/
def speedShift : SteerSpeed → Nat
  | .fast => 3
  | .normal => 5
  | .slow => 7

/-- One envelope's update: E + floor((A - E) / 2^k) (R73). -/
def envelopeStep (k e a : Nat) : Nat := ((e : Int) + ((a : Int) - e) / 2 ^ k).toNat

/-- The four envelopes' update (R73). -/
def envelopesStep (k : Nat) (e a : Quad) : Quad :=
  ⟨envelopeStep k e.l a.l, envelopeStep k e.r a.r, envelopeStep k e.s a.s, envelopeStep k e.d a.d⟩

/-- A dominance: the difference of two levels, clamped to -48 to +48 (R75). -/
def dominance (a b : Nat) : Int := clampInt (-48) 48 ((level2 a : Int) - level2 b)

/-- The terms of R75 from the four envelopes. -/
def steeredTerms (e : Quad) : PerMain Int :=
  let dLR := dominance e.l e.r
  let dCS := dominance e.s e.d
  let f := max 0 dCS
  let s := max 0 (-dCS)
  let ld := max 0 dLR
  let rd := max 0 (-dLR)
  let t := clampInt (-48) 0
  { fl := t (-(f / 2) - rd), fr := t (-(f / 2) - ld), c := t (-s - (ld + rd) / 2), sw := 0,
    sl := t (-f - rd), sr := t (-f - ld), bl := t (-f - (ld + rd) / 2), br := t (-f - (ld + rd) / 2),
    tl := t (-8 - f - rd), tr := t (-8 - f - ld) }

/-- The fixed terms of MATRIX mode with an eight-channel source (R69, R76). -/
def eightMatrixTerms : PerMain Int := { PerMain.all 0 with tl := -8, tr := -8 }

/-- The staged term set of R76. -/
def termSet (mode : DecodeMode) (set : ChannelSet) (e : Quad) : PerMain Int :=
  match mode, set with
  | .matrix, .stereo => steeredTerms e
  | .matrix, .eight => eightMatrixTerms
  | _, _ => .all 0

/-- The end of a steering window: envelopes updated, the previous staged set made active, the new
set staged, sums cleared (R72, R76; log 20). -/
def Decoder.windowEnd (d : Decoder) (set : ChannelSet) : Decoder :=
  let e := envelopesStep (speedShift d.speed) d.env d.sums
  { d with env := e, activeTerms := d.stagedTerms, stagedTerms := termSet d.active set e, sums := .zero, frames := 0 }

/-- A DECODE apply notice (R77). -/
def Decoder.apply (d : Decoder) (set : ChannelSet) : Decoder :=
  let t := termSet d.staged set .zero
  { d with active := d.staged, env := .zero, stagedTerms := t, activeTerms := t, sums := .zero, frames := 0 }

/-- A DECODE apply notice for zone 1, on the whole state (R77). -/
def decodeApply (s : State) : State :=
  markDirty (.zone .z1) { s with dec := s.dec.apply (zoneSet s .z1) }

/-! ### Speaker configuration -/

/-- A SPEAKERS apply notice: the staged configuration becomes active, filters at zero (R83). -/
def speakersApply (s : State) : State :=
  { s with bass := { s.bass with active := s.bass.staged, filters := .all .zero } }

/-- The speaker size of a slot word. -/
def sizeOfWord (v : Word) : SpeakerSize :=
  if v = 0 then .large else if v = 1 then .small else .absent

/-- The slot word of a speaker size (R79). -/
def sizeWord : SpeakerSize → Word
  | .large => 0
  | .small => 1
  | .absent => 2

/-- A configuration with one slot's word taken, before any constraint fix (R79). -/
def SpeakerConfig.put (c : SpeakerConfig) (p : SpeakerSlot) (v : Word) : SpeakerConfig :=
  match p with
  | .frontSize => { c with front := if v = 0 then .large else .small }
  | .center => { c with center := sizeOfWord v }
  | .surround => { c with surround := sizeOfWord v }
  | .back => { c with back := sizeOfWord v }
  | .top => { c with top := sizeOfWord v }
  | .sub => { c with subPresent := v = 0 }
  | .crossover => { c with crossover := v.toNat }

/-- A configuration's slot word (R79). -/
def SpeakerConfig.word (c : SpeakerConfig) : SpeakerSlot → Word
  | .frontSize => match c.front with | .large => 0 | .small => 1
  | .center => sizeWord c.center
  | .surround => sizeWord c.surround
  | .back => sizeWord c.back
  | .top => sizeWord c.top
  | .sub => if c.subPresent then 0 else 1
  | .crossover => numWord c.crossover

/-- SUB set ABSENT forces a SMALL front pair to LARGE (R80). -/
def SpeakerConfig.needsFrontFix (c : SpeakerConfig) (p : SpeakerSlot) : Bool :=
  (p == .sub) && !c.subPresent && (c.front == .small)

/-- SURROUND set ABSENT forces a present back pair to ABSENT (R81). -/
def SpeakerConfig.needsBackFix (c : SpeakerConfig) (p : SpeakerSlot) : Bool :=
  (p == .surround) && (c.surround == .absent) && (c.back != .absent)

/-- An arrival's new staged configuration, constraint fixes included (R80, R81). -/
def SpeakerConfig.take (c : SpeakerConfig) (p : SpeakerSlot) (v : Word) : SpeakerConfig :=
  let c1 := c.put p v
  { c1 with
    front := if c1.needsFrontFix p then .large else c1.front
    back := if c1.needsBackFix p then .absent else c1.back }

/-- The speaker size that governs a channel's split (R85); SW is never split. -/
def SpeakerConfig.isSmall (c : SpeakerConfig) : MainChan → Bool
  | .fl => c.front == .small
  | .fr => c.front == .small
  | .c => c.center == .small
  | .sw => false
  | .sl => c.surround == .small
  | .sr => c.surround == .small
  | .bl => c.back == .small
  | .br => c.back == .small
  | .tl => c.top == .small
  | .tr => c.top == .small

/-- Adds the scaled second bus to the first, saturating (R84). -/
def foldInto (x y : Int) : Int := sat (x + scaleK y)

/-- Fold step 1: BACK into SURROUND (R84). -/
def foldBack (c : SpeakerConfig) (b : PerMain Int) : PerMain Int :=
  if c.back = .absent then { b with sl := foldInto b.sl b.bl, sr := foldInto b.sr b.br } else b

/-- Fold step 2: SURROUND into the fronts (R84). -/
def foldSurround (c : SpeakerConfig) (b : PerMain Int) : PerMain Int :=
  if c.surround = .absent then { b with fl := foldInto b.fl b.sl, fr := foldInto b.fr b.sr } else b

/-- Fold step 3: CENTER into the fronts (R84). -/
def foldCenter (c : SpeakerConfig) (b : PerMain Int) : PerMain Int :=
  if c.center = .absent then { b with fl := foldInto b.fl b.c, fr := foldInto b.fr b.c } else b

/-- Fold step 4: TOP into the fronts (R84). -/
def foldTop (c : SpeakerConfig) (b : PerMain Int) : PerMain Int :=
  if c.top = .absent then { b with fl := foldInto b.fl b.tl, fr := foldInto b.fr b.tr } else b

/-- The fold of absent channels, after which each absent channel's bus is zero (R84). -/
def foldBuses (c : SpeakerConfig) (b : PerMain Int) : PerMain Int :=
  let f := foldTop c (foldCenter c (foldSurround c (foldBack c b)))
  .ofFn fun ch => if c.presence.get ch then f.get ch else 0

/-- Two identical sections in cascade, each output saturated (R85): output and the two new states. -/
def cascade (sec : FilterSection → Int → Int × FilterSection) (a b : FilterSection) (x : Int) :
    Int × FilterSection × FilterSection :=
  let p := sec a x
  let q := sec b (sat p.1)
  (sat q.1, p.2, q.2)

/-- The split of one bus: high part, low part, and the channel's new filters (R85). -/
def splitBus (code : Nat) (small : Bool) (fb : FilterBank) (x : Int) : Int × Int × FilterBank :=
  if small then
    let h := cascade (Config.highPassSection code) fb.hp1 fb.hp2 x
    let l := cascade (Config.lowPassSection code) fb.lp1 fb.lp2 x
    (h.1, l.1, ⟨h.2.1, h.2.2, l.2.1, l.2.2⟩)
  else (x, 0, fb)

/-- The ten channels after the bass manager, and its new filters (R84 to R87). -/
def Bass.process (b : Bass) (buses : Buses) : PerMain Int × PerMain FilterBank :=
  let c := b.active
  let f := foldBuses c buses.ch
  let parts : PerMain (Int × Int × FilterBank) :=
    .ofFn fun ch => splitBus c.crossover (c.isSmall ch) (b.filters.get ch) (f.get ch)
  let bassSum := sat ((mainChans.map fun ch => (parts.get ch).2.1).sum)
  let hi : PerMain Int := .ofFn fun ch => (parts.get ch).1
  let out : PerMain Int :=
    if c.subPresent then { hi with sw := sat (bassSum + scaleLfe buses.lfe) }
    else
      let q := sat (bassSum + buses.lfe)
      { hi with fl := sat (hi.fl + scaleK q), fr := sat (hi.fr + scaleK q), sw := 0 }
  (out, .ofFn fun ch => (parts.get ch).2.2)

end Sys2Proof.Machine
end

