-- ==== Sys2Proof/Machine/DelayPool.lean ====
section
/-! DEFINITION. The delay pool: distance delays, grants, the staged and active sets, the room test,
examination and the DELAY apply notice, and the lines themselves (06). -/

set_option autoImplicit false

namespace Sys2Proof.Machine

/-- The words of the pool. -/
def poolWords : Nat := 65536

/-- The channels of a zone. -/
def zoneChans : Zone → List Chan
  | .z1 => mainChans.map .main
  | .z2 => [.zl, .zr]

/-- The present zone 1 channels of a presence set. -/
def presentChans (p : PerMain Bool) : List MainChan := mainChans.filter fun ch => p.get ch

/-- The largest distance among the present channels (R113). -/
def maxDistance (p : PerMain Bool) (dist : PerMain Nat) : Nat :=
  ((presentChans p).map fun ch => dist.get ch).foldl max 0

/-- The distance delay of a channel, 0 when absent (R113). -/
def distanceDelay (p : PerMain Bool) (dist : PerMain Nat) (ch : MainChan) : Nat :=
  if p.get ch then (maxDistance p dist - dist.get ch) * 480 / 343 else 0

/-- Dsum, the sum of the distance delays (R114). -/
def delaySum (p : PerMain Bool) (dist : PerMain Nat) : Nat :=
  ((presentChans p).map (distanceDelay p dist)).sum

/-- Zone 1's grant g1 (R114, step 3). -/
def grantOne (p : PerMain Bool) (dist : PerMain Nat) (request : Nat) : Nat :=
  min request ((poolWords - delaySum p dist) / (presentChans p).length)

/-- Zone 2's grant g2 (R114, step 4). -/
def grantTwo (p : PerMain Bool) (dist : PerMain Nat) (g1 request : Nat) : Nat :=
  min request ((poolWords - delaySum p dist - (presentChans p).length * g1) / 2)

/-- The staged length of each line (R115). -/
def stagedLengths (p : PerMain Bool) (dist : PerMain Nat) (g1 g2 : Nat) : PerChan Nat :=
  .ofFn fun ch =>
    match ch with
    | .main m => if p.get m then distanceDelay p dist m + g1 else 0
    | .zl => g2
    | .zr => g2

/-- The staged set from a presence set, the distances and the lip-sync requests in ms (R114, R115). -/
def computeSet (p : PerMain Bool) (dist : PerMain Nat) (lipsync : PerZone Nat) : PoolSet :=
  let g1 := grantOne p dist (lipsync.z1 * 48)
  let g2 := grantTwo p dist g1 (lipsync.z2 * 48)
  { len := stagedLengths p dist g1 g2, grant := ⟨g1, g2⟩ }

/-- A zone's total length in a set (R111). -/
def PoolSet.total (c : PoolSet) (z : Zone) : Nat := ((zoneChans z).map fun ch => c.len.get ch).sum

/-- The other zone. -/
def otherZone : Zone → Zone
  | .z1 => .z2
  | .z2 => .z1

/-- The room test of a zone (R117). -/
def Pool.hasRoom (p : Pool) (z : Zone) : Bool :=
  decide (p.staged.total z + p.active.total (otherZone z) ≤ poolWords)

/-- A zone's staged lengths and grant equal its active ones (R117). -/
def Pool.sameSet (p : Pool) (z : Zone) : Bool :=
  (zoneChans z).all (fun ch => p.staged.len.get ch == p.active.len.get ch)
    && (p.staged.grant.get z == p.active.grant.get z)

/-- Sets a zone's allocation state. -/
def Pool.setAlloc (p : Pool) (z : Zone) (a : AllocState) : Pool := { p with alloc := p.alloc.set z a }

/-- Clears a zone's lines to zeros, at the active lengths (R118, steps 1 and 3). -/
def Pool.clearLines (p : Pool) (z : Zone) : Pool :=
  { p with
    lines := .ofFn fun ch =>
      if chanZone ch = z then List.replicate (p.active.len.get ch) 0 else p.lines.get ch }

/-- Makes a zone's staged lengths and grant its active ones (R118, step 3). -/
def Pool.takeStaged (p : Pool) (z : Zone) : Pool :=
  { p with
    active :=
      { len := .ofFn fun ch => if chanZone ch = z then p.staged.len.get ch else p.active.len.get ch
        grant := p.active.grant.set z (p.staged.grant.get z) } }

/-- A DELAY apply notice for a zone, up to the examination that follows it: the zone leaves REQUESTED,
which marks the delay record, whether the room test passes or not (R117, R118; log 35). -/
def delayApply (z : Zone) (s : State) : State :=
  if s.pool.hasRoom z then
    markAll [.delay, .zone z] { s with pool := ((s.pool.takeStaged z).clearLines z).setAlloc z .settled }
  else markDirty .delay { s with pool := (s.pool.clearLines z).setAlloc z .settled }

/-! ### The layout in the pool's words (R111) -/

/-- The words that a list of zone 1's lines takes. -/
def mainWords (c : PoolSet) (chs : List MainChan) : Nat := (chs.map fun ch => c.len.get (.main ch)).sum

/-- The first word of a line: zone 1's lines in their order from word 0 upward, each where the one before
it ends; zone 2's from the top word downward, ZL at the top and ZR below it (R111). -/
def lineStart (c : PoolSet) : Chan → Nat
  | .main ch => mainWords c (mainChans.takeWhile fun x => x != ch)
  | .zl => poolWords - c.len.get .zl
  | .zr => poolWords - c.len.get .zl - c.len.get .zr

/-- A word of the pool belongs to a line (R111). -/
def inLine (c : PoolSet) (ch : Chan) (word : Nat) : Prop :=
  lineStart c ch ≤ word ∧ word < lineStart c ch + c.len.get ch

/-! ### Apply notices and examination -/

/-- A zone that is WAITING or SILENT applies a change at once while the audio blocks run (R60, R65). -/
def zoneQuiet (s : State) (z : Zone) : Bool :=
  s.audioRuns && (((s.zones.get z).state == .waiting) || ((s.zones.get z).state == .silent))

/-- The held changes with one more kind. -/
def HeldChanges.add (h : HeldChanges) : ChangeKind → HeldChanges
  | .decode => { h with decode := true }
  | .speakers => { h with speakers := true }
  | .delay => { h with delay := true }

/-- A reconfiguration request that is not applied at once: the kind joins the held changes, and a
zone that is PLAYING or FADING_IN enters RECONFIGURING while the audio blocks run (R60, R65). -/
def holdChange (k : ChangeKind) (z : Zone) (s : State) : State :=
  moveZone z (fun r =>
    { r with
      held := r.held.add k
      state :=
        if s.audioRuns && ((r.state == .playing) || (r.state == .fadingIn)) then .reconfiguring
        else r.state }) s

/-- The examination of one zone (R117): the new state, and whether a change was applied at once, so
that both zones are to be examined again (R118). -/
def examineZone (z : Zone) (s : State) : State × Bool :=
  if s.pool.alloc.get z = .requested then (s, false)
  else if s.pool.sameSet z then ({ s with pool := s.pool.setAlloc z .settled }, false)
  else if s.pool.hasRoom z then
    let s1 := { s with pool := s.pool.setAlloc z .requested }
    if zoneQuiet s1 z then (delayApply z s1, true) else (holdChange .delay z s1, false)
  else ({ s with pool := s.pool.setAlloc z .waitingRoom }, false)

/-- The examination of both zones, zone 1 first, again after each change applied at once (R117). An
application at once leaves its zone's sets equal, so two of them can follow one another at most. -/
def examine : Nat → State → State
  | 0, s => s
  | fuel + 1, s =>
    let r1 := examineZone .z1 s
    if r1.2 then examine fuel r1.1
    else
      let r2 := examineZone .z2 r1.1
      if r2.2 then examine fuel r2.1 else r2.1

/-- Both zones' examination. -/
def examineZones (s : State) : State := examine 3 s

/-- A recomputation: the staged set anew, then the examination (R116). -/
def recompute (s : State) : State :=
  examineZones { s with pool := { s.pool with staged := computeSet s.pool.presence s.pool.dist s.pool.lipsync } }

/-- A recomputation, unless the audio blocks are stopped: then it waits for them (R122). -/
def recomputeIfRunning (s : State) : State := if s.audioRuns then recompute s else s

/-- A DIST arrival (R112). -/
def distArrival (ch : MainChan) (v : Nat) (s : State) : State :=
  recomputeIfRunning { s with pool := { s.pool with dist := s.pool.dist.set ch v } }

/-- A LIPSYNC arrival (R112). -/
def lipsyncArrival (z : Zone) (v : Nat) (s : State) : State :=
  recomputeIfRunning { s with pool := { s.pool with lipsync := s.pool.lipsync.set z v } }

/-- The presence set reaches the pool; a stopped pool takes it when the audio blocks run again
(R116, R122). -/
def presenceArrival (s : State) : State :=
  if s.audioRuns then recompute { s with pool := { s.pool with presence := s.bass.staged.presence } } else s

/-- One frame through one line: the word that entered it L frames earlier, or the frame's own word
for a line of length 0 (R111). -/
def lineStep (line : List Sample) (x : Sample) : Sample × List Sample :=
  match line with
  | [] => (x, [])
  | y :: rest => ((y :: rest).getLastD 0, x :: (y :: rest).dropLast)

end Sys2Proof.Machine
end

