-- ==== Sys2Proof/Machine/Zones.lean ====
section
/-! DEFINITION. The zone switch: gate, connection, fades, waiting, loss and return, reconfiguration,
carrying events, and resumption after master clock failure (03). -/

set_option autoImplicit false

namespace Sys2Proof.Machine

/-- The gate closes, with its notice to the gain stage (R49, R95) and the wound-down reports that the
floor may bring about (R93). -/
def closeGate (z : Zone) (s : State) : State :=
  windDownReports (floorZone z (updZone z (fun r => { r with gateOpen := false }) s))

/-- The apply notices of the held kinds, and the emptied set (R61); the examination that a DELAY
apply asks for comes after the zone's step (log 19). -/
def applyHeld (z : Zone) (s : State) : State :=
  let h := (s.zones.get z).held
  let s1 := updZone z (fun r => { r with held := .empty }) s
  let s2 := if h.decode then decodeApply s1 else s1
  let s3 := if h.speakers then speakersApply s2 else s2
  if h.delay then delayApply z s3 else s3

/-- Enters FADING_IN: the gate opens with F = -320 (R53, R58, R61). A stay in WAITING ends here, and that its
waiting time then returns to 0 is the model's choice (log 65): R59 says only where a new stay begins. -/
def enterFadeIn (z : Zone) (s : State) : State :=
  moveZone z (fun r =>
    { r with state := .fadingIn, fade := gainFloor, gateOpen := true, waited := 0, noSignal := false }) s

/-- Enters WAITING on a new stay, which marks the zone record (R59). -/
def enterWaiting (z : Zone) (s : State) : State :=
  markDirty (.zone z)
    (updZone z (fun r => { r with state := .waiting, fade := gainFloor, waited := 0, noSignal := false }) s)

/-- Enters SILENT (R53); a stay in WAITING ends with its waiting time at 0, the model's choice (log 65). -/
def enterSilent (z : Zone) (s : State) : State :=
  moveZone z (fun r => { r with state := .silent, fade := gainFloor, waited := 0, noSignal := false }) s

/-- The connection step (R53). -/
def connect (z : Zone) (src : Option Source) (s : State) : State :=
  let s1 := updZone z (fun r => { r with connected := src, pending := src }) s
  match src with
  | none => enterSilent z s1
  | some x => if s.view.get x then enterFadeIn z s1 else enterWaiting z s1

/-- The examination after a zone's step, when that step sent a DELAY apply notice (R118; log 19). -/
def examineAfter (held : HeldChanges) (s : State) : State := if held.delay then examineZones s else s

/-- The fade-out ends (R55). -/
def fadeOutEnd (z : Zone) (s : State) : State :=
  let r := s.zones.get z
  examineAfter r.held (connect z r.pending (applyHeld z (closeGate z s)))

/-- The reconfiguring fade ends at its floor (R61). -/
def reconfigureEnd (z : Zone) (s : State) : State :=
  examineAfter (s.zones.get z).held (enterFadeIn z (applyHeld z (closeGate z s)))

/-- F is set to -320. -/
def dropFade (z : Zone) (s : State) : State := updZone z (fun r => { r with fade := gainFloor }) s

/-- The zone's connected source has stopped carrying (R57). -/
def zoneLoss (z : Zone) (s : State) : State :=
  match (s.zones.get z).state with
  | .fadingIn | .playing => enterWaiting z (closeGate z s)
  | .fadingOut => fadeOutEnd z (dropFade z s)
  | .reconfiguring =>
    examineAfter (s.zones.get z).held (enterWaiting z (applyHeld z (closeGate z (dropFade z s))))
  | .waiting | .silent => s

/-- The zone's connected source has started carrying (R58). -/
def zoneReturn (z : Zone) (s : State) : State :=
  if (s.zones.get z).state = .waiting then enterFadeIn z s else s

/-- A zone acts on a carrying event of a source (R48, R57, R58). -/
def zoneCarrying (z : Zone) (src : Source) (on : Bool) (s : State) : State :=
  if (s.zones.get z).connected = some src then (if on then zoneReturn z s else zoneLoss z s) else s

/-- A carrying event: SOURCE pending, the source record dirty, the view updated, and both zones act
on it, zone 1 first, unless the audio blocks are stopped (R26, R48, R62, R65; log 49). -/
def carryingEvent (src : Source) (on : Bool) (s : State) : State :=
  let s1 := markDirty (.source src) (raise .source { s with view := s.view.set src on })
  if s.audioRuns then zoneCarrying .z2 src on (zoneCarrying .z1 src on s1) else s1

/-- Starts the fade-out toward a new pending source (R51). -/
def startFadeOut (z : Zone) (src : Option Source) (s : State) : State :=
  moveZone z (fun r => { r with pending := src, state := .fadingOut }) s

/-- A SOURCE arrival that the zone acts on (R51 to R53). -/
def sourceAct (z : Zone) (src : Option Source) (s : State) : State :=
  match (s.zones.get z).state with
  | .playing | .fadingIn | .reconfiguring =>
    if src = (s.zones.get z).connected then s else startFadeOut z src s
  | .fadingOut => updZone z (fun r => { r with pending := src }) s
  | .waiting | .silent => connect z src s

/-- A SOURCE arrival: kept while the audio blocks are stopped (R65). -/
def sourceArrival (z : Zone) (src : Option Source) (s : State) : State :=
  if s.audioRuns then sourceAct z src s else updZone z (fun r => { r with kept := some src }) s

/-- The value of a SOURCE slot: the kept arrival, else the zone's selection (R47, R65). -/
def zoneSelection (r : ZoneRec) : Option Source :=
  match r.kept with
  | some src => src
  | none => r.pending

/-- One fade step of a zone (R54 to R56, R61). -/
def fadeStep (z : Zone) (s : State) : State :=
  let r := s.zones.get z
  let down := max gainFloor (r.fade - r.fadeRate)
  let up := min 0 (r.fade + r.fadeRate)
  match r.state with
  | .fadingIn =>
    moveZone z (fun r => { r with fade := up, state := if up = 0 then .playing else .fadingIn }) s
  | .fadingOut =>
    let s1 := updZone z (fun r => { r with fade := down }) s
    if down = gainFloor then fadeOutEnd z s1 else s1
  | .reconfiguring =>
    let s1 := updZone z (fun r => { r with fade := down }) s
    if down = gainFloor then reconfigureEnd z s1 else s1
  | .silent | .waiting | .playing => s

/-- The wait limit is reached: the flag goes from clear to set, which marks the zone record (R46, R59;
log 35). -/
def limitReached (z : Zone) (s : State) : State :=
  markDirty (.zone z) (raise .zoneNoSignal (updZone z (fun r => { r with noSignal := true }) s))

/-- Applies the wait limit to a stay in WAITING whose flag is clear (R59). -/
def checkLimit (z : Zone) (s : State) : State :=
  let r := s.zones.get z
  if (r.state == .waiting) && !r.noSignal && decide (r.waitLimit ≤ r.waited) then limitReached z s else s

/-- One expiry of a zone's waiting timer (R59). -/
def waitTick (z : Zone) (s : State) : State :=
  let r := s.zones.get z
  if (r.state == .waiting) && !r.noSignal then
    checkLimit z (updZone z (fun r => { r with waited := r.waited + 1 }) s)
  else s

/-- A FADE_RATE arrival (R47). -/
def fadeRateArrival (z : Zone) (v : Nat) (s : State) : State :=
  updZone z (fun r => { r with fadeRate := v }) s

/-- A WAIT_LIMIT arrival (R59); while the audio blocks are stopped it acts later (R65). -/
def waitLimitArrival (z : Zone) (v : Nat) (s : State) : State :=
  let s1 := updZone z (fun r => { r with waitLimit := v }) s
  if s.audioRuns then checkLimit z s1 else s1

/-- A DECODE or SPEAKERS request for zone 1, whose apply is `now` (R60). -/
def requestChange (k : ChangeKind) (now : State → State) (s : State) : State :=
  if zoneQuiet s .z1 then now s else holdChange k .z1 s

/-- A DECODE_MODE arrival (R67). -/
def decodeModeArrival (m : DecodeMode) (s : State) : State :=
  let s1 := { s with dec := { s.dec with staged := m } }
  if m = s.dec.staged then s1 else requestChange .decode decodeApply s1

/-- A STEER_SPEED arrival (R67). -/
def steerSpeedArrival (v : SteerSpeed) (s : State) : State := { s with dec := { s.dec with speed := v } }

/-- A speaker configuration arrival (R79 to R82): the staged configuration with its constraint
fixes and write-backs, the SPEAKERS request, and the presence set to the delay pool. -/
def speakerArrival (p : SpeakerSlot) (v : Word) (s : State) : State :=
  let old := s.bass.staged
  let new := old.take p v
  let s1 := { s with bass := { s.bass with staged := new } }
  let s2 := if (old.put p v).needsFrontFix p then requestWriteBack (.speaker .frontSize) s1 else s1
  let s3 := if (old.put p v).needsBackFix p then requestWriteBack (.speaker .back) s2 else s2
  if new = old then s3
  else
    let s4 := requestChange .speakers speakersApply s3
    if new.presence = old.presence then s4 else presenceArrival s4

/-! ### After master clock failure -/

/-- The carrying status a zone last acted on for its connected source: every state with an open gate
has a carrying source, WAITING a source that is not (R50, R65). -/
def actedCarrying (r : ZoneRec) : Bool := r.state != .waiting

/-- Step 1 of R65. -/
def resumeCarrying (z : Zone) (s : State) : State :=
  let r := s.zones.get z
  match r.connected with
  | some src =>
    if s.view.get src = actedCarrying r then s else zoneCarrying z src (s.view.get src) s
  | none => s

/-- Step 2 of R65. -/
def resumeSource (z : Zone) (s : State) : State :=
  match (s.zones.get z).kept with
  | some src => sourceAct z src (updZone z (fun r => { r with kept := none }) s)
  | none => s

/-- Step 3 of R65. -/
def resumeHeld (z : Zone) (s : State) : State :=
  let r := s.zones.get z
  if r.held = .empty then s
  else
    match r.state with
    | .playing | .fadingIn => moveZone z (fun r => { r with state := .reconfiguring }) s
    | .waiting | .silent => examineAfter r.held (applyHeld z s)
    | .fadingOut | .reconfiguring => s

/-- A zone acts on its kept inputs when the master clock is good again (R65; the kept wait limit
last, log 17). -/
def resumeZone (z : Zone) (s : State) : State :=
  checkLimit z (resumeHeld z (resumeSource z (resumeCarrying z s)))

end Sys2Proof.Machine
end

