-- ==== Sys2Proof/Machine/Inputs.lean ====
section
/-! DEFINITION. The serial audio lines: window classes, runs, the lock rules, NPCM, FORMAT, and the
frames that enter the rate converter (section 2.2). -/

set_option autoImplicit false

namespace Sys2Proof.Machine

/-- The class of a window (R29); NONE is `silent`. -/
inductive WindowClass where
  | silent
  | rate (c : RateClass)
  | other
deriving DecidableEq, Repr

/-- The class of an FCK count (R29). -/
def classify (n : Nat) : WindowClass :=
  if n = 0 then .silent
  else if 31 ≤ n ∧ n ≤ 33 then .rate .k32
  else if 43 ≤ n ∧ n ≤ 46 then .rate .k44
  else if 47 ≤ n ∧ n ≤ 49 then .rate .k48
  else if 87 ≤ n ∧ n ≤ 90 then .rate .k88
  else if 94 ≤ n ∧ n ≤ 98 then .rate .k96
  else .other

/-- A line carries (R25). -/
def SaState.carries (l : SaState) : Bool := (l.lock == .locked) && !l.npcmTaken

/-- Both runs at zero (R28, R29). -/
def SaState.clearRuns (l : SaState) : SaState := { l with runClass := none, runCount := 0, otherRun := 0 }

/-- The runs after a window (R29). -/
def SaState.countRuns (l : SaState) : WindowClass → SaState
  | .silent => l.clearRuns
  | .rate c =>
    { l with
      runCount := if l.runClass = some c then l.runCount + 1 else 1
      runClass := some c
      otherRun := 0 }
  | .other => { l with runClass := none, runCount := 0, otherRun := l.otherRun + 1 }

/-- Entry to LOCKED with the run's class (R30). -/
def SaState.enterLocked (l : SaState) : SaState :=
  { l with lock := .locked, lockedClass := l.runClass, misses := 0, conv := .empty }

/-- Leaving LOCKED for another state (R31). -/
def SaState.leaveLocked (l : SaState) (next : LockState) : SaState :=
  { l with lock := next, lockedClass := none, misses := 0, conv := .empty }

/-- The lock rule at the end of a window, on runs that include it (R30 to R32). -/
def SaState.lockRule (l : SaState) (c : WindowClass) : SaState :=
  match l.lock with
  | .noClock => if c = .silent then l else { l with lock := .measuring }
  | .measuring =>
    if c = .silent then { l with lock := .noClock }
    else if 4 ≤ l.runCount then l.enterLocked
    else if 4 ≤ l.otherRun then { l with lock := .unsupported }
    else l
  | .unsupported =>
    if c = .silent then { l with lock := .noClock }
    else if 4 ≤ l.runCount then l.enterLocked
    else l
  | .locked =>
    if l.lockedClass.map WindowClass.rate = some c then { l with misses := 0 }
    else if l.misses + 1 < 3 then { l with misses := l.misses + 1 }
    else l.leaveLocked (if c = .silent then .noClock else .measuring)

/-- The end of a window on one line (R29 to R32); after a NONE window the line delivers zeros until
frames arrive again (R31). -/
def SaState.windowEnd (l : SaState) : SaState :=
  let c := classify l.edges
  { (l.countRuns c).lockRule c with edges := 0, afterSilence := decide (l.edges = 0) }

/-- A format change by the lock state (R28). -/
def SaState.formatChange (l : SaState) : SaState :=
  match l.lock with
  | .locked => (l.leaveLocked .measuring).clearRuns
  | .measuring => l.clearRuns
  | .noClock | .unsupported => l

/-- Raises a line's carrying event when its status has changed from what it was (R26). -/
def lineCarryingFrom (l : SaLine) (was : Bool) (s : State) : State :=
  if (s.sa.get l).carries = was then s else carryingEvent (.sa l) (s.sa.get l).carries s

/-- A step of one line, followed by the carrying event it brings about (R26). -/
def lineStepWith (l : SaLine) (f : SaState → SaState) (s : State) : State :=
  lineCarryingFrom l (s.sa.get l).carries (updLine l f s)

/-- A FORMAT arrival (R28); during a stop of the audio blocks it acts later (R35; log 16). -/
def formatArrival (l : SaLine) (f : Format) (s : State) : State :=
  if f = (s.sa.get l).format then s
  else if s.audioRuns then lineStepWith l (fun x => ({ x with format := f } : SaState).formatChange) s
  else updLine l (fun x => { x with format := f, formatKept := true }) s

/-- The sample word of a 32-bit slot of an SA line or of TA: its first 24 bits, most significant bit first
(R27, R44). -/
def slotSample (slot : BitVec 32) : Sample := slot.extractLsb' 8 24

/-- The frame of the slots shifted in, those not complete as zero, extra ones ignored (R27). -/
def slotFrame (f : Format) (slots : List (BitVec 32)) : SrcFrame :=
  let x := fun i => slotSample (slots.getD i 0)
  match f with
  | .stereo => .stereo (x 0) (x 1)
  | .tdm8 => .eight (x 0) (x 1) (x 2) (x 3) (x 4) (x 5) (x 6) (x 7)

/-- How many of the latest frames a converter keeps (log 15). -/
def converterDepth : Nat := 98

/-- A frame enters a rate converter (R34). -/
def Converter.take (c : Converter) (f : SrcFrame) : Converter :=
  { c with frames := (f :: c.frames).take converterDepth }

/-- One frame of a line: its FCK edge is counted, frames arrive again after a NONE window, and its samples
go to the converter while the line carries (R27, R29, R31, R34; log 12). -/
def SaState.frame (l : SaState) (slots : List (BitVec 32)) : SaState :=
  { l with
    edges := l.edges + 1
    afterSilence := false
    conv := if l.carries then l.conv.take (slotFrame l.format slots) else l.conv }

/-- A change of the NPCM pin: the filter's 2 ms begins again (R33); stopped, it does not time (R35). -/
def npcmPinChange (l : SaLine) (level : Bool) (s : State) : State :=
  if level = (s.sa.get l).npcmPin then s
  else updLine l (fun x => { x with npcmPin := level, npcmTimer := s.audioRuns }) s

/-- The NPCM pin has held its level for 2 ms (R33). -/
def npcmStable (l : SaLine) (s : State) : State :=
  let x := s.sa.get l
  if s.audioRuns && x.npcmTimer then
    if x.npcmTaken = x.npcmPin then updLine l (fun x => { x with npcmTimer := false }) s
    else
      markDirty (.source (.sa l))
        (lineStepWith l (fun x => { x with npcmTimer := false, npcmTaken := x.npcmPin, conv := .empty }) s)
  else s

/-- A line after master clock failure: a new window, a kept format change, the filter timing again
(R35; log 42); the converter goes on with the frames and the age it had (log 58). -/
def resumeLine (l : SaLine) (s : State) : State :=
  lineStepWith l (fun x =>
    let y := { x with edges := 0, npcmTimer := true }
    if x.formatKept then { y.formatChange with formatKept := false } else y) s

end Sys2Proof.Machine
end

