-- ==== Sys2Proof/Machine/Streams.lean ====
section
/-! DEFINITION. The memory stream readers: the ring, commands, frame instants, fetch requests and
completed fetch bursts (section 2.3). -/

set_option autoImplicit false

namespace Sys2Proof.Machine

/-- The frame length in words (R37). -/
def Reader.frameWords (r : Reader) : Nat := r.channels * (if r.width = 24 then 2 else 1)

/-- The base address of the ring (R36). -/
def Reader.base (r : Reader) : Nat := r.baseHi.toNat * 0x10000 + r.baseLo.toNat

/-- The ring's length in bytes (R37). -/
def Reader.ringBytes (r : Reader) : Nat := r.size * r.frameWords * 2

/-- The frames available: (FILL - DRAIN) mod SIZE (R37). -/
def Reader.available (r : Reader) : Nat := (((r.fill : Int) - r.drain) % r.size).toNat

/-- The frames of a full burst (R41). -/
def Reader.fullBurst (r : Reader) : Nat := 16 / r.frameWords

/-- The stream is PRIMING, RUNNING or STARVED. -/
def Reader.active (r : Reader) : Bool := r.state != .stopped

/-- The buffer's capacity in frames (R40). -/
def bufferFrames : Nat := 512

/-- The reader's burst in flight, if one is (R41). -/
def fetchInFlight (s : State) (m : StreamId) : Bool :=
  match s.agent.port with
  | .part b => match b.owner with | .fetch x _ => x == m | _ => false
  | _ => false

/-- The reader's fetch request stands on the agent's list (R41); a stopped reader places none (R24). -/
def fetchWanted (s : State) (m : StreamId) : Bool :=
  let r := s.ms.get m
  s.audioRuns && r.active && decide (0 < r.available) && !fetchInFlight s m
    && decide (r.buffer.length + r.fullBurst ≤ bufferFrames)

/-- The request's urgency mark (R41). -/
def fetchUrgent (s : State) (m : StreamId) : Bool := decide ((s.ms.get m).buffer.length < 128)

/-- The frames of the burst the reader fixes at issue (R41). -/
def Reader.burstFrames (r : Reader) : Nat := min r.fullBurst (min r.available (r.size - r.drain))

/-- The address of frame DRAIN. -/
def Reader.fetchAddr (r : Reader) : Nat := r.base + r.drain * r.frameWords * 2

/-- The descriptor checks of START (R38). -/
def descriptorValid (s : State) (r : Reader) : Bool :=
  decide (r.fill < r.size)
    && decide (r.base + r.ringBytes ≤ s.apertureBase + 0x10000)
    && (decide (r.base + r.ringBytes ≤ s.apertureBase) || decide (s.apertureBase + 0x1A00 ≤ r.base))

/-- Marks a burst in flight for a stream as no longer wanted (R15, R39). -/
def discardFetch (m : StreamId) (s : State) : State :=
  match s.agent.port with
  | .part b =>
    if fetchInFlight s m then { s with agent := { s.agent with port := .part { b with discard := true } } } else s
  | _ => s

/-- A stream enters a state: its records are marked, and a carrying event is raised when RUNNING is
entered or left (R40, R26). -/
def enterStreamState (m : StreamId) (next : StreamState) (s : State) : State :=
  let was := (s.ms.get m).state == .running
  let s1 := markDirty (.stream m) (updReader m (fun r => { r with state := next }) s)
  if (next == .running) = was then s1 else carryingEvent (.ms m) (next == .running) s1

/-- START taken (R38). -/
def streamStartTaken (m : StreamId) (s : State) : State :=
  enterStreamState m .priming
    (updReader m (fun r => { r with drain := 0, buffer := [], starvations := 0, conv := .empty }) s)

/-- STOP in PRIMING, RUNNING or STARVED (R39). -/
def streamStopTaken (m : StreamId) (s : State) : State :=
  enterStreamState m .stopped
    (updReader m (fun r => { r with buffer := [], conv := .empty }) (discardFetch m s))

/-- START (R38). -/
def streamStartCommand (m : StreamId) (s : State) : State :=
  let r := s.ms.get m
  if !s.audioRuns || r.active then answerStream m .notAllowed s
  else if descriptorValid s r then answerStream m .taken (streamStartTaken m s)
  else answerStream m .invalid s

/-- STOP (R39); refused during master clock failure (R38). -/
def streamStopCommand (m : StreamId) (s : State) : State :=
  if !s.audioRuns then answerStream m .notAllowed s
  else if (s.ms.get m).active then answerStream m .taken (streamStopTaken m s)
  else answerStream m .taken s

/-- A STREAM_CMD arrival (R38, R39). -/
def streamCommand (m : StreamId) (v : Word) (s : State) : State :=
  if v = 1 then streamStartCommand m s
  else if v = 2 then streamStopCommand m s
  else answerStream m (if s.audioRuns then .invalid else .notAllowed) s

/-- A descriptor arrival (R36). -/
def Reader.putDesc (r : Reader) (d : DescSlot) (v : Word) : Reader :=
  match d with
  | .baseLo => { r with baseLo := v }
  | .baseHi => { r with baseHi := v }
  | .size => { r with size := v.toNat }
  | .channels => { r with channels := v.toNat }
  | .width => { r with width := v.toNat }
  | .rate => { r with rate := v.toNat }

/-- A descriptor slot's word (R36). -/
def Reader.descWord (r : Reader) : DescSlot → Word
  | .baseLo => r.baseLo
  | .baseHi => r.baseHi
  | .size => numWord r.size
  | .channels => numWord r.channels
  | .width => numWord r.width
  | .rate => numWord r.rate

/-- A FILL arrival (R37). -/
def fillArrival (m : StreamId) (v : Nat) (s : State) : State := updReader m (fun r => { r with fill := v }) s

/-- A RUNNING reader with an empty buffer starves (R40). -/
def starve (m : StreamId) (s : State) : State :=
  enterStreamState m .starved
    (raise .stream
      (updReader m (fun r => { r with starvations := (r.starvations + 1) % 65536, conv := .empty }) s))

/-- A frame instant of the declared rate (R40). -/
def frameInstant (m : StreamId) (s : State) : State :=
  let r := s.ms.get m
  if s.audioRuns && (r.state == .running) then
    match r.buffer with
    | [] => starve m s
    | f :: rest => updReader m (fun r => { r with buffer := rest, conv := r.conv.take f }) s
  else s

/-- The sample words of ring words (R37). -/
def samplesOfWords (wide : Bool) : List Word → List Sample
  | [] => []
  | w :: rest =>
    if wide then
      match rest with
      | [] => []
      | v :: rest' => (w ++ v.extractLsb' 0 8) :: samplesOfWords wide rest'
    else (w ++ 0#8) :: samplesOfWords wide rest

/-- Frames of two channels. -/
def stereoFrames : List Sample → List SrcFrame
  | l :: r :: rest => .stereo l r :: stereoFrames rest
  | _ => []

/-- Frames of eight channels, in the order of R25. -/
def eightFrames : List Sample → List SrcFrame
  | fl :: fr :: c :: lfe :: sl :: sr :: bl :: br :: rest => .eight fl fr c lfe sl sr bl br :: eightFrames rest
  | _ => []

/-- The frames that fetched words hold (R37). -/
def Reader.framesOf (r : Reader) (words : List Word) : List SrcFrame :=
  let xs := samplesOfWords (r.width == 24) words
  if r.channels = 8 then eightFrames xs else stereoFrames xs

/-- The level tests of R40 for PRIMING and STARVED. -/
def levelTests (m : StreamId) (s : State) : State :=
  let r := s.ms.get m
  let run := fun t => enterStreamState m .running (updReader m (fun r => { r with conv := .empty }) t)
  match r.state with
  | .priming => if 256 ≤ r.buffer.length then run s else s
  | .starved => if 64 ≤ r.buffer.length then run s else s
  | .stopped | .running => s

/-- A completed fetch burst that is still wanted (R42). -/
def fetchDone (m : StreamId) (frames : Nat) (words : List Word) (s : State) : State :=
  levelTests m
    (markDirty (.stream m)
      (updReader m (fun r =>
        { r with buffer := r.buffer ++ r.framesOf words, drain := (r.drain + frames) % r.size }) s))

end Sys2Proof.Machine
end

