-- ==== Sys2Proof/Machine/Content.lean ====
section
/-! DEFINITION. Station content as the tuner controller's actions change it: content clear, the AF
list's changes, and starting and stopping the taking of bits (10.1, 10.6, 10.7). -/

set_option autoImplicit false

namespace Sys2Proof.Machine

/-- Changes the station data decoder. -/
def updSd (f : Station → Station) (s : State) : State := { s with sd := f s.sd }

/-- A content clear; the latest text-toggle flag returns to clear with the other flags (R186; log 55). -/
def Station.clearContent (d : Station) : Station :=
  { d with
    candidate := .empty, confirmed := .empty, traffic := false, speech := false, toggle := false,
    toggleRef := none, af := [] }

/-- The decoder begins taking bits (R178). -/
def Station.startTaking (d : Station) : Station :=
  { d with sync := .search, window := [], candidate := .empty, group := .empty, gapTimer := false }

/-- The decoder stops taking bits (R178). -/
def Station.stopTaking (d : Station) : Station := { d with sync := .idle, gapTimer := false }

/-- A change of the tuner's state or tuned band, handed to the decoder (R178). -/
def Station.notice (d : Station) (was now : Bool) : Station :=
  if was = now then d else if now then d.startTaking else d.stopTaking

/-- The decoder is taking bits (R178). -/
def takingBits (t : Tuner) : Bool :=
  ((t.state == .listening) || (t.state == .verifying)) && (t.tunedBand == .fm)

/-- The longest AF list (R187). -/
def afLimit : Nat := 12

/-- A code offered to the AF list, against a target code (R187). -/
def afOffer (target code : Nat) (af : List Nat) : List Nat :=
  if af.length < afLimit ∧ code ∉ af ∧ code ≠ target then af ++ [code] else af

/-- A change of CODE: the entry is removed (R188). -/
def afRemove (code : Nat) (af : List Nat) : List Nat := af.filter fun x => x != code

/-- An AF switch to the tuned code from the original code (R188). -/
def afSwitch (tuned original : Nat) (af : List Nat) : List Nat :=
  if tuned ∈ af then
    if original ∈ af then afRemove tuned af
    else af.map fun x => if x = tuned then original else x
  else afOffer tuned original af

/-- The preload of a valid RECALL from the record's AF codes (R188). -/
def afPreload (target : Nat) (codes : List Nat) : List Nat :=
  codes.foldl (fun af code => if code ≤ 205 then afOffer target code af else af) []

end Sys2Proof.Machine
end

