-- ==== Sys2Proof/Machine/FrontEnd.lean ====
section
/-! DEFINITION. The front-end line: divisor, command frames, the transmit queue, the receiver's marks,
the frame assembler, and placing, ending and abandoning commands (section 9.1). -/

set_option autoImplicit false

namespace Sys2Proof.Machine

/-- Changes the front-end line. -/
def updFe (f : FrontEnd → FrontEnd) (s : State) : State := { s with fe := f s.fe }

/-! ### Frames -/

/-- The SYNC character (R158). -/
def syncChar : Byte := 0x7E#8

/-- The band byte of a TUNE (R159). -/
def bandByte (b : Band) (r : Region) : Byte :=
  (match b with | .fm => 0x00#8 | .am => 0x01#8) ||| (match r with | .a => 0x00#8 | .b => 0x10#8)

/-- A command's code (R159). -/
def FeCommand.charCode : FeCommand → Byte
  | .tune _ _ _ _ => 0x10#8
  | .query => 0x11#8
  | .standby => 0x12#8

/-- The characters of a frame that LEN counts: command code and payload (R159). -/
def FeCommand.body : FeCommand → List Byte
  | .tune b r code _ => [0x10#8, bandByte b r, BitVec.ofNat 8 (code / 256), BitVec.ofNat 8 code]
  | .query => [0x11#8]
  | .standby => [0x12#8]

/-- The sum of characters modulo 256. -/
def charSum (cs : List Byte) : Byte := cs.foldl (fun x c => x + c) 0

/-- The whole frame of a body: SYNC, LEN, the body and CHK (R158, R159). -/
def frameOfBody (body : List Byte) : List Byte :=
  let len := BitVec.ofNat 8 body.length
  [syncChar, len] ++ body ++ [-(len + charSum body)]

/-- A command's frame. -/
def FeCommand.frame (c : FeCommand) : List Byte := frameOfBody c.body

/-! ### Characters on the line (R155) -/

/-- The data and parity bits together hold an even number of ones (R155). -/
def evenParity (data : Byte) (parity : Bool) : Bool :=
  ((bitsOf 8 data.toNat).foldl (fun x b => x != b) parity) == false

/-- The parity bit of a character (R155). -/
def parityBit (data : Byte) : Bool := !evenParity data false

/-- The levels of a character's eleven bit times: the start bit low, the data bits from the least
significant, the parity bit, and the stop bit high (R155). -/
def charLevels (data : Byte) : List Bool := [false] ++ (bitsOf 8 data.toNat).reverse ++ [parityBit data, true]

/-- The levels of a frame's bit times: its characters back to back (R156). -/
def frameLevels (frame : List Byte) : List Bool := frame.flatMap charLevels

/-! ### The exchange's commands -/

/-- A command becomes outstanding: its frame goes into the transmit queue (R156, R160). -/
def FrontEnd.start (f : FrontEnd) (c : FeCommand) : FrontEnd :=
  { f with outstanding := some ⟨c, false, false⟩, txFrames := f.txFrames ++ [c.frame], responseTimer := false }

/-- Sends a TUNE or a STANDBY: outstanding at once, or into the pending slot (R160). -/
def FrontEnd.send (f : FrontEnd) (c : FeCommand) : FrontEnd :=
  match f.outstanding with
  | none => f.start c
  | some _ => { f with pending := some c }

/-- Sends a QUERY, or skips it (R160, R172). -/
def FrontEnd.sendQuery (f : FrontEnd) : FrontEnd :=
  if f.outstanding = none ∧ f.pending = none then f.start .query else f

/-- The exchange ends: the pending command, if any, becomes outstanding (R160). -/
def FrontEnd.endExchange (f : FrontEnd) : FrontEnd :=
  match f.pending with
  | none => { f with outstanding := none, responseTimer := false }
  | some c => { f with pending := none }.start c

/-- The first failure: the same frame again (R160). -/
def FrontEnd.resend (f : FrontEnd) (o : Outstanding) : FrontEnd :=
  { f with
    outstanding := some { o with resent := true }
    txFrames := f.txFrames ++ [o.cmd.frame]
    responseTimer := false }

/-- The second failure of a command that is not abandoned: nothing outstanding or pending (R160). -/
def FrontEnd.giveUp (f : FrontEnd) : FrontEnd :=
  { f with outstanding := none, pending := none, responseTimer := false }

/-- A command is a TUNE. -/
def FeCommand.isTune : FeCommand → Bool
  | .tune _ _ _ _ => true
  | _ => false

/-- A command that ends with LISTENING and VERIFYING: a QUERY or a re-tune (R160, R161). -/
def FeCommand.needsListening : FeCommand → Bool
  | .query => true
  | .tune _ _ _ .retune => true
  | _ => false

/-- Marks the outstanding command as abandoned when it is of a kind (R160). -/
def FrontEnd.abandon (f : FrontEnd) (p : FeCommand → Bool) : FrontEnd :=
  { f with outstanding := f.outstanding.map fun o => if p o.cmd then { o with abandoned := true } else o }

/-- A seek step's TUNE turned into a plain tune's (R168). -/
def FeCommand.toPlain : FeCommand → FeCommand
  | .tune b r code .seekStep => .tune b r code .plain
  | c => c

/-- The seek step's TUNE goes on as a plain tune (R168), outstanding or in the pending slot behind an abandoned
command. R168 names an outstanding exchange alone; that the pending TUNE stays in the slot as a plain one is DEDUCED
from R160, by which STOP in SEEKING does not abandon the step's TUNE (log 66). -/
def FrontEnd.stepToPlain (f : FrontEnd) : FrontEnd :=
  { f with
    outstanding := f.outstanding.map fun o => if o.abandoned then o else { o with cmd := o.cmd.toPlain }
    pending := f.pending.map FeCommand.toPlain }

/-- The last character of a frame has been sent: the response timer starts once the outstanding
command's frame is the one sent (R156, R160; log 30). -/
def FrontEnd.frameSent (f : FrontEnd) : FrontEnd :=
  match f.txFrames with
  | [] => f
  | _ :: rest =>
    { f with
      txFrames := rest
      responseTimer := if rest.isEmpty && f.outstanding.isSome then true else f.responseTimer }

/-! ### Divisor -/

/-- An FE_DIVISOR arrival (R155). -/
def FrontEnd.setDivisor (f : FrontEnd) (v : Nat) : FrontEnd :=
  { f with divisorSetting := v, divisorWaiting := true }

/-- The setting is taken up when the line is quiet (R155; log 31). -/
def FrontEnd.takeUp (f : FrontEnd) : FrontEnd :=
  if f.divisorWaiting && f.txFrames.isEmpty && f.rxQueue.isEmpty && (f.assembler == .hunt) then
    { f with divisor := f.divisorSetting, divisorWaiting := false, rxFirst := true }
  else f

/-! ### Receiving -/

/-- How many characters the receive queue holds (R157). -/
def rxDepth : Nat := 16

/-- The character formed from sampled bits, with its marks (R157). -/
def markedChar (data : Byte) (parity stop : Bool) (idle : Nat) (first : Bool) : RxChar :=
  let brk := (data == 0) && !parity && !stop
  { data := data
    brk := brk
    parityError := !evenParity data parity
    framingError := !stop && !brk
    gap := decide (4 ≤ idle) || first
    overrun := false }

/-- Gives the tail of the receive queue an overrun mark (R157). -/
def markOverrun : List RxChar → List RxChar
  | [] => []
  | [c] => [{ c with overrun := true }]
  | c :: cs => c :: markOverrun cs

/-- A character received: placed at the tail, or dropped when the queue is full (R157). -/
def FrontEnd.receive (f : FrontEnd) (data : Byte) (parity stop : Bool) (idle : Nat) : FrontEnd :=
  { f with
    rxFirst := false
    rxQueue :=
      if f.rxQueue.length < rxDepth then f.rxQueue ++ [markedChar data parity stop idle f.rxFirst]
      else markOverrun f.rxQueue }

/-! ### The assembler -/

/-- A character that discards any frame in progress and itself (R158). -/
def RxChar.isError (c : RxChar) : Bool := c.brk || c.parityError || c.framingError || c.overrun

/-- An unmarked character in a state of the assembler: the next state, and the body of a frame that
is complete (R158). -/
def Assembler.feed (a : Assembler) (d : Byte) : Assembler × Option (List Byte) :=
  match a with
  | .hunt => (if d = syncChar then .length else .hunt, none)
  | .length => (if 1 ≤ d.toNat ∧ d.toNat ≤ 12 then .body d.toNat [] else .hunt, none)
  | .body len got =>
    if got.length < len then (.body len (got ++ [d]), none)
    else (.hunt, if BitVec.ofNat 8 len + charSum got + d = 0 then some got else none)

/-- A marked character taken by the assembler (R158). -/
def Assembler.take (a : Assembler) (c : RxChar) : Assembler × Option (List Byte) :=
  if c.isError then (.hunt, none) else (if c.gap then Assembler.hunt else a).feed c.data

/-! ### Responses -/

/-- The response matches the outstanding command: code, LEN and, for a TUNE, the echo (R159). -/
def FeCommand.matches (c : FeCommand) (body : List Byte) : Bool :=
  match c, body with
  | .tune _ _ code _, [r, _, hi, lo] =>
    (r == 0x90#8) && (hi == BitVec.ofNat 8 (code / 256)) && (lo == BitVec.ofNat 8 code)
  | .query, [r, _] => r == 0x91#8
  | .standby, [r, _] => r == 0x92#8
  | _, _ => false

/-- The status byte of a response's body (R159). -/
def statusOf (body : List Byte) : Byte := body.getD 1 0

end Sys2Proof.Machine
end

