-- ==== Sys2Proof/Machine/Measure.lean ====
section
/-! DEFINITION. The measurement unit: codes, entries, limits and actions, the round-robin, on-demand
requests, arbitration and the self-check (08). -/

set_option autoImplicit false

namespace Sys2Proof.Machine

/-! ### Codes and entry fields -/

/-- The code of a voltage in microvolts at a divider (R140; log 25). -/
def convCode (microvolts : Int) (divider : Nat) : Nat :=
  if microvolts < 0 then 0 else min 1023 (1024 * microvolts.toNat * divider / 2500000)

/-- The actions of an entry (R141). -/
inductive Action where
  | report
  | derate
  | trip
deriving DecidableEq, Repr

/-- An entry's input number (R192). -/
def Entry.input (e : Entry) : Nat := field e.w0 0 4

/-- An entry's divider (R192). -/
def Entry.divider (e : Entry) : Nat := field e.w0 8 3

/-- An entry's low limit. -/
def Entry.low (e : Entry) : Nat := e.w1.toNat

/-- An entry's high limit. -/
def Entry.high (e : Entry) : Nat := e.w2.toNat

/-- An entry's action (R192). -/
def Entry.action (e : Entry) : Action :=
  if field e.w3 0 2 = 0 then .report else if field e.w3 0 2 = 1 then .derate else .trip

/-- The module an entry names (R192). -/
def Entry.module (e : Entry) : Option AmpModule :=
  if field e.w3 4 2 = 1 then some .a
  else if field e.w3 4 2 = 2 then some .b
  else if field e.w3 4 2 = 3 then some .c
  else none

/-- An entry's debounce (R192). -/
def Entry.debounce (e : Entry) : Nat := field e.w3 8 4

/-- Entry `n` of the table. -/
def Meas.entry (m : Meas) (n : Nat) : Entry := m.entries.getD n (Entry.fresh 0 0 0 0)

/-- Changes the measurement unit. -/
def updMeas (f : Meas → Meas) (s : State) : State := { s with meas := f s.meas }

/-- Changes one entry. -/
def Meas.updEntry (m : Meas) (n : Nat) (f : Entry → Entry) : Meas :=
  { m with entries := m.entries.set n (f (m.entry n)) }

/-- An entry after a reset: no code, count 0, not in violation (R142). -/
def Entry.cleared (e : Entry) : Entry := { e with code := none, count := 0, violation := false }

/-- An entry with one of its slot words replaced, and reset (R142). -/
def Entry.put (e : Entry) (w : Fin 4) (v : Word) : Entry :=
  match w with
  | 0 => { e.cleared with w0 := v }
  | 1 => { e.cleared with w1 := v }
  | 2 => { e.cleared with w2 := v }
  | 3 => { e.cleared with w3 := v }

/-- An entry's slot word. -/
def Entry.word (e : Entry) (w : Fin 4) : Word :=
  match w with
  | 0 => e.w0
  | 1 => e.w1
  | 2 => e.w2
  | 3 => e.w3

/-- Marks the code of a round-robin conversion in progress as discarded, for entries chosen by `p`
(R142). -/
def Meas.discardConv (m : Meas) (p : Nat → Bool) : Meas :=
  match m.conv with
  | some c =>
    match c.owner with
    | .entry n d => { m with conv := some { c with owner := .entry n (d || p n) } }
    | _ => m
  | none => m

/-- A SEQ_LEN arrival (R142; log 27 on the record's mark). -/
def seqLenArrival (v : Nat) (s : State) : State :=
  let s1 := updMeas (fun m =>
    { (m.discardConv fun _ => true) with
      seqLen := v
      position := 0
      entries := m.entries.mapIdx fun i e => if v ≤ i then e.cleared else e }) s
  if v < s.meas.seqLen then markDirty .entries s1 else s1

/-- An arrival on a word of an entry (R142). -/
def entryArrival (n : Fin 16) (w : Fin 4) (v : Word) (s : State) : State :=
  markDirty .entries
    (updMeas (fun m => (m.discardConv fun i => i == n.val).updEntry n.val fun e => e.put w v) s)

/-! ### On-demand requests -/

/-- The host request is outstanding (R144). -/
def Meas.hostOutstanding (m : Meas) : Bool :=
  (m.queue.contains .host) || (match m.conv with | some c => c.owner == .host | none => false)

/-- The host's conversion request is taken (R146). -/
def measureTaken (input divider : Nat) (s : State) : State :=
  updMeas (fun m =>
    { m with queue := m.queue ++ [.host], hostStatus := .waiting, hostInput := input, hostDivider := divider }) s

/-- A MEASURE_CMD arrival (R146). -/
def measureCommand (v : Word) (s : State) : State :=
  if v.toNat < 0x1000 ∨ 0x1FFF < v.toNat then answerMeasure .invalid s
  else
    let input := field v 4 8
    let divider := field v 0 4
    if 11 < input ∨ divider < 1 ∨ 4 < divider then answerMeasure .range s
    else if s.meas.hostOutstanding then answerMeasure .busy s
    else answerMeasure .taken (measureTaken input divider s)

/-- A request is the tuner's. -/
def OnDemand.isTuner : OnDemand → Bool
  | .tuner _ => true
  | _ => false

/-- The tuner asks for an RSSI conversion; a request of its own still in the queue gives its place to
the new one (R144). -/
def requestRssi (s : State) : State :=
  updMeas (fun m =>
    { m with
      queue :=
        if m.queue.any OnDemand.isTuner then m.queue.map fun q => if q.isTuner then .tuner false else q
        else m.queue ++ [.tuner false] }) s

/-- The tuner abandons its request (R144). -/
def abandonRssi (s : State) : State :=
  updMeas (fun m =>
    { m with
      queue := m.queue.map fun q => if q.isTuner then .tuner true else q
      conv := m.conv.map fun c =>
        match c.owner with
        | .tuner _ => { c with owner := .tuner true }
        | _ => c }) s

/-- A self-check request joins the tail of the queue with the result RUNNING (R151). -/
def startRecheck (s : State) : State :=
  selfCheckStops (updMeas (fun m => { m with result := .running, queue := m.queue ++ [.selfCheck false] }) s)

/-- SELF_RECHECK (R151). -/
def selfRecheckCommand (s : State) : State :=
  if s.meas.result = .running then answerSystem .busy s
  else answerSystem .taken (startRecheck s)

/-! ### Taking codes -/

/-- A code is out of an entry's range (R141). -/
def Entry.outOfRange (e : Entry) (code : Nat) : Bool := decide (code < e.low) || decide (e.high < code)

/-- An entry's violation state after a code (R147). -/
def Entry.takeCode (e : Entry) (code : Nat) : Entry :=
  let e1 := { e with code := some code }
  if e.outOfRange code = e.violation then { e1 with count := 0 }
  else if e.debounce ≤ e.count + 1 then { e1 with count := 0, violation := !e.violation }
  else { e1 with count := e.count + 1 }

/-- What an entry's action does on entering violation (R148). -/
def fireAction (n : Nat) (e : Entry) (s : State) : State :=
  match e.action, e.module with
  | .report, _ => raise .measure s
  | .trip, some m => trip m .measure n s
  | _, _ => s

/-- The down notice after a conversion of a DERATE entry in violation (R149). -/
def derateDown (e : Entry) (s : State) : State :=
  match e.action, e.module with
  | .derate, some m => if e.violation then derateBy m (-2) s else s
  | _, _ => s

/-- A kept code of entry `n` (R147 to R149). -/
def takeEntryCode (n code : Nat) (s : State) : State :=
  let old := s.meas.entry n
  let e := old.takeCode code
  let s1 := markDirty .entries (updMeas (fun m => m.updEntry n fun _ => e) s)
  let s2 := match e.module with | some m => markDirty (.module m) s1 | none => s1
  derateDown e (if e.violation && !old.violation then fireAction n e s2 else s2)

/-- An active DERATE entry in violation names the module (R149). -/
def Meas.derating (m : Meas) (x : AmpModule) : Bool :=
  (m.entries.take m.seqLen).any fun e => e.violation && (e.action == .derate) && (e.module == some x)

/-- The up notice of a pass completion for one module (R149). -/
def derateUp (x : AmpModule) (s : State) : State := if s.meas.derating x then s else derateBy x 1 s

/-- A pass is completed (R143, R149). -/
def passCompleted (s : State) : State := derateUp .c (derateUp .b (derateUp .a s))

/-- The result of a check (R150). -/
def checkPasses (ref halfRef : Nat) : Bool :=
  decide (500 ≤ ref) && decide (ref ≤ 524) && decide (248 ≤ halfRef) && decide (halfRef ≤ 264)

/-- The self-check completes: the device record and the on-demand result record are marked, whatever
codes they held (R150, R151). -/
def selfCheckDone (halfRef : Nat) (s : State) : State :=
  let pass := checkPasses s.meas.checkRef halfRef
  let s1 := markAll [.device, .onDemand] (updMeas (fun m =>
    { m with
      refCode := m.checkRef
      halfRefCode := halfRef
      result := if pass then .pass else .fail
      position := if m.roundRobin then m.position else 0
      roundRobin := true }) s)
  if pass then startModules s1 else selfCheckStops (raise .selfCheck s1)

/-! ### One expiry of the converter's timer -/

/-- Hands the code of the conversion in progress to its owner, the tuner's apart (R140). -/
def completeConversion (microvolts : Int) (s : State) : State :=
  match s.meas.conv with
  | none => s
  | some c =>
    let code := convCode microvolts c.divider
    let s1 := updMeas (fun m => { m with conv := none }) s
    match c.owner with
    | .entry _ true => s1
    | .entry n false =>
      let s2 := takeEntryCode n code s1
      if n + 1 = s.meas.seqLen then passCompleted s2 else s2
    | .tuner _ => s1
    | .host =>
      updMeas (fun m =>
        { m with hostStatus := .done, hostCode := code, hostCount := (m.hostCount + 1) % 65536 }) s1
    | .ref => updMeas (fun m => { m with checkRef := code }) s1
    | .halfRef => selfCheckDone code s1

/-- The RSSI code that the conversion in progress hands to the tuner, if it does (R140, R144). -/
def completedRssi (microvolts : Int) (s : State) : Option Nat :=
  match s.meas.conv with
  | some c => if c.owner = .tuner false then some (convCode microvolts c.divider) else none
  | none => none

/-- Starts the next conversion of the request at the head of the queue (R144, R145). -/
def startOnDemand (m : Meas) : Meas :=
  match m.queue with
  | [] => m
  | .tuner ab :: rest => { m with queue := rest, conv := some ⟨.tuner ab, 9, 1⟩ }
  | .host :: rest =>
    { m with queue := rest, hostStatus := .converting, conv := some ⟨.host, m.hostInput, m.hostDivider⟩ }
  | .selfCheck false :: rest => { m with queue := .selfCheck true :: rest, conv := some ⟨.ref, 10, 1⟩ }
  | .selfCheck true :: rest => { m with queue := rest, conv := some ⟨.halfRef, 11, 1⟩ }

/-- Starts the next round-robin conversion (R143, R145). -/
def startEntry (m : Meas) : Meas :=
  let e := m.entry m.position
  { m with
    conv := some ⟨.entry m.position false, e.input, e.divider⟩
    position := if m.position + 1 < m.seqLen then m.position + 1 else 0
    onDemandCount := 0 }

/-- The choice of the next conversion (R145; log 26). -/
def chooseConversion (m : Meas) : Meas :=
  if m.queue ≠ [] ∧ m.onDemandCount < 2 then { startOnDemand m with onDemandCount := m.onDemandCount + 1 }
  else if m.roundRobin ∧ 1 ≤ m.seqLen then startEntry m
  else startOnDemand m

/-- One expiry up to the choice; the tuner's code is delivered after it (R140, R144). -/
def converterExpiry (microvolts : Int) (s : State) : State :=
  updMeas chooseConversion (completeConversion microvolts s)

end Sys2Proof.Machine
end

