-- ==== Sys2Proof/Machine/Tuner.lean ====
section
/-! DEFINITION. The tuner controller: states, plain tunes, seeks, probes and verification, blend,
the end of an exchange, and the tuner's commands (section 9.2 to 9.6). -/

set_option autoImplicit false

namespace Sys2Proof.Machine

/-- Changes the tuner controller. -/
def updTun (f : Tuner → Tuner) (s : State) : State := { s with tun := f s.tun }

/-- TUNER carries (R25, R163). -/
def Tuner.carries (t : Tuner) : Bool := (t.state == .listening) || (t.state == .verifying)

/-- The top code of a band in a region (R162). -/
def topCode : Region → Band → Nat
  | .a, .fm => 205
  | .a, .am => 119
  | .b, .fm => 101
  | .b, .am => 118

/-- A long outcome is reported (R164). -/
def longOutcome (o : LongOutcome) (s : State) : State :=
  raise .tuner (updTun (fun t => { t with outcome := o, outcomeCount := (t.outcomeCount + 1) % 65536 }) s)

/-! ### AF follow -/

/-- The station code AF follow goes by: the confirmed one, else the expected one (R173). -/
def stationCode (s : State) : Option Word :=
  match s.sd.confirmed.code with
  | some c => some c
  | none => s.tun.expected

/-- AF follow is active (R173). -/
def afActive (s : State) : Bool :=
  s.tun.afFollow && (s.tun.tunedBand == .fm) && (s.tun.band == .fm) && (stationCode s).isSome
    && !s.sd.af.isEmpty && !s.tun.backoff

/-- While AF follow is not active, the weak count is 0 (R173; log 44). -/
def normWeak (s : State) : State := if afActive s then s else updTun (fun t => { t with weak := 0 }) s

/-! ### State changes -/

/-- What leaving LISTENING and VERIFYING ends: the RSSI request, a QUERY or re-tune, and the three
timers (R160, R163, R172). -/
def leaveListening (s : State) : State :=
  abandonRssi
    (updFe (fun f => f.abandon FeCommand.needsListening)
      (updTun (fun t => { t with readingTimer := false, queryTimer := false, verifyTimer := false }) s))

/-- The tuner enters a state: the carrying event, and the notice to the decoder (R163, R26, R178). -/
def tunerGoto (next : TunerState) (s : State) : State :=
  let was := s.tun.carries
  let now := (next == .listening) || (next == .verifying)
  let s1 := if was && !now then leaveListening s else s
  let taking := takingBits s.tun
  let s2 := updTun (fun t => { t with state := next }) s1
  let s3 := updSd (fun d => d.notice taking (takingBits s2.tun)) s2
  if was = now then s3 else carryingEvent .tuner now s3

/-- The content clear of entering LISTENING or VERIFYING on AM (R186). -/
def clearOnAm (s : State) : State :=
  if s.tun.tunedBand = .am then updSd Station.clearContent s else s

/-- The blend starts in mono with the reading and query timers (R164, R174). -/
def startReadings (s : State) : State :=
  updTun (fun t => { t with stereo := false, lowRun := 0, highRun := 0, readingTimer := true, queryTimer := true }) s

/-- The tuner enters LISTENING with its blend started (R164). -/
def enterListening (s : State) : State :=
  clearOnAm (updTun (fun t => { t with weak := 0 }) (startReadings (tunerGoto .listening s)))

/-- The operation in progress ends for the line and the converter: its TUNE and its reading are
abandoned and its settle and verify timers stop (R160, R166). -/
def abandonTuning (s : State) : State :=
  abandonRssi
    (updFe (fun f => f.abandon FeCommand.isTune)
      (updTun (fun t => { t with settleTimer := false, verifyTimer := false }) s))

/-- A recall fetch is discarded: the request withdrawn, or the burst's words discarded (R169). -/
def discardRecall (s : State) : State :=
  match s.tun.transfer with
  | .recalling _ _ =>
    let s1 := updTun (fun t => { t with transfer := .none }) s
    match s.agent.port with
    | .part b =>
      (match b.owner with
       | .recall _ => { s1 with agent := { s1.agent with port := .part { b with discard := true } } }
       | _ => s1)
    | _ => s1
  | _ => s

/-- The operation in progress is abandoned, a recall fetch included; a STORE continues (R166). -/
def abandonOperation (s : State) : State := discardRecall (abandonTuning s)

/-- Sends a TUNE for a purpose in the present region. -/
def sendTune (band : Band) (code : Nat) (purpose : TunePurpose) (s : State) : State :=
  updFe (fun f => f.send (.tune band s.tun.region code purpose)) s

/-- A plain tune of a band and code (R164). -/
def plainTune (band : Band) (code : Nat) (reason : TuneReason) (s : State) : State :=
  sendTune band code .plain
    (updTun (fun t => { t with reason := reason }) (tunerGoto .tuning (abandonTuning s)))

/-- The long outcome of a plain tune's reason (R164). -/
def reasonOutcome : TuneReason → LongOutcome
  | .hostTune => .tuned
  | .recall => .recalled
  | .seekStopped => .seekStopped
  | .seekWrapped => .seekNone
  | .verifyFailed => .afReturned
  | .noSwitch => .afStayed

/-! ### The target -/

/-- CODE changes: the target code, and the AF list without it (R162, R188). -/
def changeCode (code : Nat) (s : State) : State :=
  if code = s.tun.code then s
  else updSd (fun d => { d with af := afRemove code d.af }) (updTun (fun t => { t with code := code }) s)

/-- The tuner's own change of the target code, with its write-back (R162). -/
def ownCode (code : Nat) (s : State) : State :=
  if code = s.tun.code then s else requestWriteBack .code (changeCode code s)

/-- The tuner's own change of the target band, with its write-back (R162). -/
def ownBand (band : Band) (s : State) : State :=
  if band = s.tun.band then s else requestWriteBack .band (updTun (fun t => { t with band := band }) s)

/-- The tuner's own action sets the target (R162); BAND's write-back is asked for before CODE's, which is the model's
choice (log 62). -/
def ownTarget (band : Band) (code : Nat) (s : State) : State := ownCode code (ownBand band s)

/-- CODE lowered to the top code, with its write-back, when it stands above it (R162). -/
def lowerCode (s : State) : State := ownCode (min s.tun.code (topCode s.tun.region s.tun.band)) s

/-- A BAND arrival (R162). -/
def bandArrival (b : Band) (s : State) : State := lowerCode (updTun (fun t => { t with band := b }) s)

/-- A REGION arrival (R162). -/
def regionArrival (r : Region) (s : State) : State := lowerCode (updTun (fun t => { t with region := r }) s)

/-! ### Seek and probe steps -/

/-- The next code in a direction, wrapping (R167). -/
def stepCode (top : Nat) (up : Bool) (code : Nat) : Nat :=
  if up then (if code < top then code + 1 else 0)
  else if code = 0 then top
  else code - 1

/-- The next seek step, or the wrap (R167). -/
def seekNext (s : State) : State :=
  let k := s.tun.seek
  let next := stepCode (topCode k.region k.band) k.up k.step
  if next = k.start then plainTune k.band k.start .seekWrapped (ownTarget k.band k.start s)
  else
    updFe (fun f => f.send (.tune k.band k.region next .seekStep))
      (updTun (fun t => { t with seek := { k with step := next }, phase := .exchange }) s)

/-- A probe that ends without a switch (R174). -/
def probeNoSwitch (s : State) : State :=
  plainTune s.tun.probe.band s.tun.probe.original .noSwitch (updTun (fun t => { t with backoff := true }) s)

/-- The next candidate of a probe, the switch to the best, or no switch (R174). -/
def probeNext (s : State) : State :=
  let p := s.tun.probe
  match p.todo with
  | code :: rest =>
    sendTune p.band code .probeStep
      (updTun (fun t => { t with probe := { p with todo := rest, current := code }, phase := .exchange }) s)
  | [] =>
    match p.best with
    | some (code, mean) =>
      if p.mean + 24 ≤ mean then
        sendTune p.band code .switch
          (updTun (fun t => { t with probe := { p with current := code, switching := true }, phase := .exchange }) s)
      else probeNoSwitch s
    | none => probeNoSwitch s

/-- Entry to PROBING with the original mean (R173, R174). -/
def probeStart (mean : Nat) (s : State) : State :=
  let p : Probe :=
    { band := s.tun.tunedBand, original := s.tun.tunedCode, mean := mean,
      todo := s.sd.af.filter fun code => code ≤ topCode s.tun.region .fm, current := 0, best := none,
      verifyCode := (stationCode s).getD 0, switching := false }
  probeNext (updTun (fun t => { t with probe := p, weak := 0 }) (tunerGoto .probing s))

/-- A candidate is rated with a mean; the earliest wins a tie (R174). -/
def Probe.rate (p : Probe) (mean : Nat) : Probe :=
  match p.best with
  | some (_, m) => if m < mean then { p with best := some (p.current, mean) } else p
  | none => { p with best := some (p.current, mean) }

/-- A seek has found a station (R167). -/
def seekFound (s : State) : State :=
  let s1 := ownTarget s.tun.seek.band s.tun.seek.step s
  longOutcome .seekFound (enterListening (updSd Station.clearContent s1))

/-- The two readings of a step have a mean (R167, R174). -/
def stepRated (mean : Nat) (s : State) : State :=
  if s.tun.state = .seeking then (if s.tun.seekThr ≤ mean then seekFound s else seekNext s)
  else probeNext (updTun (fun t => { t with probe := t.probe.rate mean }) s)

/-- A reading delivered to a step (R167). -/
def stepReading (code : Nat) (s : State) : State :=
  match s.tun.phase with
  | .firstReading => requestRssi (updTun (fun t => { t with phase := .secondReading code }) s)
  | .secondReading first => stepRated ((first + code) / 2) s
  | _ => s

/-! ### Blend and readings -/

/-- One reading into the blend (R172). -/
def Tuner.blend (t : Tuner) (code : Nat) : Tuner :=
  let low := if code < t.blendThr then t.lowRun + 1 else 0
  let high := if t.blendThr + 16 ≤ code then t.highRun + 1 else 0
  { t with
    lowRun := low
    highRun := high
    stereo :=
      if t.tunedBand = .am then false
      else if 3 ≤ low then false
      else if 3 ≤ high ∧ t.pilot then true
      else t.stereo }

/-- One reading into the weak count, while AF follow is active (R173). -/
def weakReading (code : Nat) (s : State) : State :=
  let w := if code < s.tun.afThr then s.tun.weak + 1 else 0
  if afActive s then
    if 10 ≤ w then probeStart ((s.tun.previous + code) / 2) s else updTun (fun t => { t with weak := w }) s
  else s

/-- An RSSI code is delivered to the tuner (R163, R172, R173). -/
def deliverRssi (code : Nat) (s : State) : State :=
  let s1 := updTun (fun t => { t with lastRssi := code }) s
  match s.tun.state with
  | .listening =>
    updTun (fun t => { t with previous := code }) (weakReading code (updTun (fun t => t.blend code) s1))
  | .verifying => updTun (fun t => t.blend code) s1
  | .seeking | .probing => stepReading code s1
  | .off | .tuning | .settling | .fault => s1

/-- The tuner's RSSI request is outstanding (R172). -/
def rssiOutstanding (m : Meas) : Bool :=
  m.queue.contains (.tuner false) || (match m.conv with | some c => c.owner == .tuner false | none => false)

/-- An expiry of the reading timer (R172). -/
def readingExpiry (s : State) : State :=
  if s.tun.readingTimer && !rssiOutstanding s.meas then requestRssi s else s

/-- An expiry of the query timer (R172). -/
def queryExpiry (s : State) : State :=
  if s.tun.queryTimer then updFe FrontEnd.sendQuery s else s

/-! ### Settling and verification -/

/-- The settle timer expires (R164, R167, R174). -/
def settleExpiry (s : State) : State :=
  if s.tun.settleTimer then
    let s1 := updTun (fun t => { t with settleTimer := false }) s
    match s.tun.state with
    | .settling => longOutcome (reasonOutcome s.tun.reason) (enterListening s1)
    | .seeking => requestRssi (updTun (fun t => { t with phase := .firstReading }) s1)
    | .probing =>
      if s.tun.probe.switching then
        clearOnAm (updTun (fun t => { t with verifyTimer := true }) (startReadings (tunerGoto .verifying s1)))
      else requestRssi (updTun (fun t => { t with phase := .firstReading }) s1)
    | .off | .tuning | .listening | .verifying | .fault => s1
  else s

/-- A failed verification (R175). -/
def verifyFailed (s : State) : State :=
  plainTune s.tun.probe.band s.tun.probe.original .verifyFailed (updTun (fun t => { t with backoff := true }) s)

/-- The AF switch of a successful verification (R175, R188): the move to LISTENING stays within the pair
and keeps an outstanding reading (R163; log 60); BAND's write-back is asked for before CODE's (log 62). -/
def verifySwitch (s : State) : State :=
  let tuned := s.tun.tunedCode
  let s1 := ownBand s.tun.probe.band s
  let s2 :=
    if tuned = s.tun.code then s1
    else requestWriteBack .code (updTun (fun t => { t with code := tuned }) s1)
  let s3 := updSd (fun d => { d with af := afSwitch tuned s.tun.probe.original d.af }) s2
  longOutcome .afSwitched
    (updTun (fun t => { t with verifyTimer := false, weak := 0 }) (tunerGoto .listening s3))

/-- A confirmed station code handed to the tuner in VERIFYING; ignored elsewhere (R175, R183). -/
def verifyHanded (code : Word) (s : State) : State :=
  if s.tun.state = .verifying then (if code = s.tun.probe.verifyCode then verifySwitch s else verifyFailed s)
  else s

/-- The verify timer expires (R175). -/
def verifyExpiry (s : State) : State :=
  if s.tun.verifyTimer && (s.tun.state == .verifying) then verifyFailed s else s

/-! ### The end of an exchange -/

/-- The pilot bit of an accepted response (R172). -/
def setPilot (on : Bool) (s : State) : State :=
  updTun (fun t => { t with pilot := on, stereo := t.stereo && (on || !t.pilot) }) s

/-- The tuned band and code of an accepted locked TUNE response (R163). The stereo flag stays also where the band
becomes AM: R172 does not say when mono takes hold outside LISTENING and VERIFYING (DESIGN CHOICE, log 63). -/
def setTuned (band : Band) (code : Nat) (s : State) : State :=
  let was := takingBits s.tun
  let s1 := updTun (fun t => { t with tunedBand := band, tunedCode := code }) s
  updSd (fun d => d.notice was (takingBits s1.tun)) s1

/-- The tuner enters FAULT and reports it; a probe or a verification that ends so starts no backoff
timer (R160, R173; log 54). -/
def frontEndFault (s : State) : State :=
  longOutcome .feFault (updTun (fun t => { t with settleTimer := false }) (tunerGoto .fault s))

/-- A failure of the outstanding command's exchange (R160; log 29); a second failure of STANDBY leaves the
tuner's state as it is, also where a later command has left OFF (log 61). -/
def exchangeFailed (o : Outstanding) (s : State) : State :=
  if !o.resent then updFe (fun f => f.resend o) s
  else if o.abandoned then updFe FrontEnd.endExchange s
  else
    let s1 := updFe FrontEnd.giveUp s
    match o.cmd with
    | .standby => longOutcome .feFault s1
    | _ => frontEndFault s1

/-- What a TUNE that has ended without failure does, by its purpose (R164, R167, R174, R161). -/
def tuneEnded (purpose : TunePurpose) (locked : Bool) (s : State) : State :=
  match purpose with
  | .plain => updTun (fun t => { t with settleTimer := true }) (tunerGoto .settling s)
  | .seekStep =>
    if locked then updTun (fun t => { t with phase := .settling, settleTimer := true }) s else seekNext s
  | .probeStep =>
    if locked then updTun (fun t => { t with phase := .settling, settleTimer := true }) s else probeNext s
  | .switch => updTun (fun t => { t with phase := .settling, settleTimer := true }) s
  | .retune => s

/-- An unlocked TUNE response fails the exchange for every purpose but a step's (R159, R161, R174). -/
def unlockedFails : TunePurpose → Bool
  | .plain | .switch | .retune => true
  | .seekStep | .probeStep => false

/-- An accepted response to a TUNE (R159, R163; log 28). -/
def tuneAccepted (o : Outstanding) (band : Band) (code : Nat) (purpose : TunePurpose) (locked fault : Bool)
    (s : State) : State :=
  let s1 := if locked then setTuned band code s else s
  if fault || (!locked && unlockedFails purpose) then exchangeFailed o s1
  else if o.abandoned then updFe FrontEnd.endExchange s1
  else tuneEnded purpose locked (updFe FrontEnd.endExchange s1)

/-- An accepted response (R159, R160). -/
def responseAccepted (o : Outstanding) (body : List Byte) (s : State) : State :=
  let status := statusOf body
  let s1 := setPilot (status.getLsbD 1) (updFe (fun f => { f with responseTimer := false }) s)
  match o.cmd with
  | .tune band _ code purpose => tuneAccepted o band code purpose (status.getLsbD 0) (status.getLsbD 2) s1
  | .query | .standby =>
    if status.getLsbD 2 then exchangeFailed o s1 else updFe FrontEnd.endExchange s1

/-- A complete frame handed to the exchange (R159). -/
def frameHanded (body : List Byte) (s : State) : State :=
  match s.fe.outstanding with
  | some o => if o.cmd.matches body then responseAccepted o body s else s
  | none => s

/-- The front end has restarted (R161). -/
def frontEndRestart (s : State) : State :=
  if s.tun.carries then sendTune s.tun.tunedBand s.tun.tunedCode .retune s else s

/-- An expiry of the assembler's timer (R158). -/
def assemblerExpiry (s : State) : State :=
  match s.fe.rxQueue with
  | [] => s
  | c :: rest =>
    let r := s.fe.assembler.take c
    let s1 := updFe (fun f => { f with rxQueue := rest, assembler := r.1 }) s
    let s2 := if c.brk then frontEndRestart s1 else s1
    match r.2 with
    | some body => frameHanded body s2
    | none => s2

/-- The response timer expires (R160). -/
def responseExpiry (s : State) : State :=
  if s.fe.responseTimer then
    let s1 := updFe (fun f => { f with responseTimer := false }) s
    match s.fe.outstanding with
    | some o => exchangeFailed o s1
    | none => s1
  else s

/-! ### Commands -/

/-- TUNE (R166). -/
def tuneCommand (s : State) : State :=
  let s1 := updTun (fun t => { t with expected := none, backoff := false }) (abandonOperation s)
  plainTune s.tun.band s.tun.code .hostTune (updSd Station.clearContent s1)

/-- SEEK_UP and SEEK_DOWN (R167). -/
def seekCommand (up : Bool) (s : State) : State :=
  let s1 := abandonOperation s
  if s.tun.state = .seeking then
    seekNext (updTun (fun t => { t with seek := { t.seek with up := up, start := t.seek.step } }) s1)
  else
    let k : Seek := { band := s.tun.band, region := s.tun.region, start := s.tun.code, step := s.tun.code, up := up }
    seekNext (tunerGoto .seeking (updTun (fun t => { t with expected := none, backoff := false, seek := k }) s1))

/-- STOP in SEEKING (R168; log 34): CODE's write-back joins the queue behind the outcome's (log 62). A step's TUNE that
is still pending goes the way of an outstanding one, with the tuner in TUNING (log 66). -/
def stopSeek (s : State) : State :=
  let s1 := updSd Station.clearContent (ownCode s.tun.seek.step s)
  let s2 := updTun (fun t => { t with reason := .seekStopped }) s1
  match s.tun.phase with
  | .exchange => tunerGoto .tuning (updFe FrontEnd.stepToPlain s2)
  | .settling | .firstReading | .secondReading _ =>
    updTun (fun t => { t with settleTimer := true }) (tunerGoto .settling (abandonRssi s2))

/-- STOP (R168). -/
def stopCommand (s : State) : State :=
  match s.tun.state with
  | .seeking => stopSeek s
  | .probing => probeNoSwitch s
  | .off | .tuning | .settling | .listening | .verifying | .fault => s

/-- OFF (R171). -/
def offCommand (s : State) : State :=
  let s1 := abandonOperation s
  let s2 := updTun (fun t => { t with expected := none, backoff := false, readingTimer := false, queryTimer := false }) s1
  updFe (fun f => f.send .standby) (updSd Station.clearContent (tunerGoto .off s2))

/-- RECALL n (R169): an earlier recall is replaced. -/
def recallCommand (n : Nat) (s : State) : State :=
  updTun (fun t => { t with transfer := .recalling n [] }) (discardRecall s)

/-- The flag word of a preset snapshot, valid bit clear (R170, 11.5). -/
def presetFlags (band : Band) (name code : Bool) : Word :=
  numWord ((match band with | .fm => 0 | .am => 0x10) + bitAt name 6 + bitAt code 7)

/-- The name is complete (R185). -/
def Content.nameComplete (c : Content) : Bool := c.names.all Option.isSome

/-- The eighteen words of a STORE snapshot, valid bit clear (R170, 11.5). -/
def presetSnapshot (s : State) : List Word :=
  let c := s.sd.confirmed
  let code := if s.tun.state = .verifying then s.tun.probe.original else s.tun.tunedCode
  let names := if c.nameComplete then c.names.map fun n => n.getD 0 else List.replicate 6 0
  let af := s.sd.af.take 8
  [presetFlags s.tun.tunedBand c.nameComplete c.code.isSome, numWord code, c.code.getD 0] ++ names
    ++ [numWord af.length] ++ af.map numWord ++ List.replicate (8 - af.length) 0

/-- STORE n (R170). -/
def storeCommand (n : Nat) (s : State) : State :=
  updTun (fun t => { t with transfer := .storing n 0 (presetSnapshot s) }) s

/-- A preset transfer is a STORE. -/
def Transfer.isStoring : Transfer → Bool
  | .storing _ _ _ => true
  | _ => false

/-- A TUNER_CMD value's command, if it is one of the forms of R165. -/
inductive TunerCommand where
  | tune
  | seek (up : Bool)
  | stop
  | off
  | recall (n : Nat)
  | store (n : Nat)
deriving DecidableEq, Repr

/-- The command a TUNER_CMD value is (R165). -/
def tunerCommandOf (v : Word) : Option TunerCommand :=
  if v = 1 then some .tune
  else if v = 2 then some (.seek true)
  else if v = 3 then some (.seek false)
  else if v = 4 then some .stop
  else if v = 5 then some .off
  else if field v 8 8 = 1 then some (.recall (field v 0 8))
  else if field v 8 8 = 2 then some (.store (field v 0 8))
  else none

/-- The outcome of a TUNER_CMD command (R165, steps 2 to 5). -/
def tunerAnswer (s : State) : TunerCommand → Answer
  | .recall n =>
    if 39 < n then .range else if s.tun.transfer.isStoring then .busy else .taken
  | .store n =>
    if 39 < n then .range
    else if s.tun.transfer ≠ .none then .busy
    else if !s.tun.carries then .notAllowed
    else .taken
  | .tune | .seek _ | .stop | .off => .taken

/-- What a taken TUNER_CMD command does (R166 to R171). -/
def tunerAct : TunerCommand → State → State
  | .tune, s => tuneCommand s
  | .seek up, s => seekCommand up s
  | .stop, s => stopCommand s
  | .off, s => offCommand s
  | .recall n, s => recallCommand n s
  | .store n, s => storeCommand n s

/-- A TUNER_CMD arrival (R165). The outcome's write-back is asked for before the command acts, which is the model's
choice (log 62): R9 and R10 do not order it against the write-backs of the action (R168). -/
def tunerCommand (v : Word) (s : State) : State :=
  match tunerCommandOf v with
  | none => answerTuner .invalid s
  | some c =>
    let a := tunerAnswer s c
    if a = .taken then normWeak (tunerAct c (answerTuner a s)) else answerTuner a s

end Sys2Proof.Machine
end

