-- ==== Sys2Proof/Machine/Audio.lean ====
section
/-! DEFINITION. One 48 kHz audio frame through the zone paths, the steering window, the slew and meter
timers, and the panel knob decoder (R34, R44, R49, R66 to R73, R94 to R98, R104 to R111). -/

set_option autoImplicit false

namespace Sys2Proof.Machine

/-! ### What the sources deliver -/

/-- A frame of zeros of a channel set. -/
def zeroFrame : ChannelSet → SrcFrame
  | .stereo => .stereo 0 0
  | .eight => .eight 0 0 0 0 0 0 0 0

/-- A frame of converted samples: free values (R34; log 13). -/
def convertedFrame (draw source : Nat) : ChannelSet → SrcFrame
  | .stereo => .stereo (Config.convertedSample draw source 0) (Config.convertedSample draw source 1)
  | .eight =>
    let x := Config.convertedSample draw source
    .eight (x 0) (x 1) (x 2) (x 3) (x 4) (x 5) (x 6) (x 7)

/-- The frames of a converter's latency of 1 ms (R34). -/
def latencyFrames : Nat := 48

/-- What a rate converter delivers: zeros for its first 1 ms, then converted samples (R34). -/
def converterFrame (draw source : Nat) (set : ChannelSet) (c : Converter) : SrcFrame :=
  if c.age < latencyFrames then zeroFrame set else convertedFrame draw source set

/-- What TUNER delivers from the received pair, the first 24 bits of TA's two slots: the pair, or its floored
mean in mono (R44). -/
def tunerFrame (stereo : Bool) (l r : Sample) : SrcFrame :=
  if stereo then .stereo l r
  else
    let m := toSample (half (l.toInt + r.toInt))
    .stereo m m

/-- A line stands without frames: its window in progress is a NONE window, as the frame instant says of a
window in which no frame has arrived, or no frame has arrived since a NONE window (R31; log 14). -/
def SaState.silent (l : SaState) (quiet : Bool) : Bool := l.afterSilence || ((l.edges == 0) && quiet)

/-- The frame a source delivers; one that does not carry delivers zeros, and so does a line in a NONE window
and after it until frames arrive again (R25, R31, R34, R40, R44; log 14). -/
def delivered (s : State) (quiet : List SaLine) (taL taR : Sample) (src : Source) : SrcFrame :=
  let set := sourceSet s src
  match src with
  | .sa l =>
    let x := s.sa.get l
    if x.carries && !x.silent (decide (l ∈ quiet)) then converterFrame s.free (sourceIndex src) set x.conv
    else zeroFrame set
  | .ms m =>
    let x := s.ms.get m
    if x.state = .running then converterFrame s.free (sourceIndex src) set x.conv else zeroFrame set
  | .tuner => if s.tun.carries then tunerFrame s.tun.stereo taL taR else zeroFrame set

/-- The frame that enters a zone's path: the connected source's while the gate is OPEN, else zeros
(R49). -/
def zoneFrame (s : State) (quiet : List SaLine) (taL taR : Sample) (z : Zone) : SrcFrame :=
  let r := s.zones.get z
  match r.gateOpen, r.connected with
  | true, some src => delivered s quiet taL taR src
  | _, _ => zeroFrame (zoneSet s z)

/-- A converter after one delivered frame. -/
def Converter.tick (c : Converter) : Converter := { c with age := c.age + 1 }

/-- Every running converter after one delivered frame. -/
def tickConverters (s : State) : State :=
  { s with
    sa := .ofFn fun l => let x := s.sa.get l; if x.carries then { x with conv := x.conv.tick } else x
    ms := .ofFn fun m => let x := s.ms.get m; if x.state = .running then { x with conv := x.conv.tick } else x
    free := s.free + 1 }

/-! ### One frame through the paths -/

/-- The twelve words that enter the delay lines, and the crossover filters after them (R66, R84 to
R87, R111). -/
def pathOutputs (s : State) (f1 f2 : SrcFrame) : PerChan Sample × PerMain FilterBank :=
  let p := s.bass.process (formBuses s.dec.active f1)
  let d := downmix f2
  (.ofFn fun ch =>
    match ch with
    | .main m => toSample (p.1.get m)
    | .zl => toSample d.1
    | .zr => toSample d.2, p.2)

/-- The delay lines take the frame, the gain stage multiplies what they deliver, and the links carry
the results (R97, R98, R111, R123). -/
def outputFrame (xs : PerChan Sample) (s : State) : State :=
  let lines : PerChan (Sample × List Sample) := .ofFn fun ch => lineStep (s.pool.lines.get ch) (xs.get ch)
  let outs : PerChan (Sample × ChanGain) :=
    .ofFn fun ch => outputSample (s.gain.chans.get ch) (lines.get ch).1.toInt
  { s with
    pool := { s.pool with lines := .ofFn fun ch => (lines.get ch).2 }
    gain := { s.gain with chans := .ofFn fun ch => (outs.get ch).2 }
    links := .ofFn fun ch => (outs.get ch).1 }

/-- One 48 kHz frame with the pair received on the tuner audio line and the lines that stand in a NONE
window (R97, R31; log 14). -/
def audioFrameStep (quiet : List SaLine) (taL taR : Sample) (s : State) : State :=
  if s.audioRuns then
    let f1 := zoneFrame s quiet taL taR .z1
    let f2 := zoneFrame s quiet taL taR .z2
    let p := pathOutputs s f1 f2
    let s1 := tickConverters (outputFrame p.1 s)
    { s1 with
      bass := { s1.bass with filters := p.2 }
      dec := if s.restartTimersRun then s1.dec.takeFrame f1 else s1.dec }
  else s

/-- The end of a steering window (R72). -/
def steerWindow (s : State) : State :=
  if s.restartTimersRun then { s with dec := s.dec.windowEnd (zoneSet s .z1) } else s

/-- An expiry of the slew timer, with the wound-down reports it brings about (R94, R93). -/
def slewExpiry (s : State) : State := if s.restartTimersRun then windDownReports (slewAll s) else s

/-- The meter records. -/
def meterRecords : List Rec := chans.map .meter

/-- An expiry of the meter timer (R17, R98). -/
def meterExpiry (s : State) : State :=
  if s.meterTimer then markAll meterRecords (mapChans (fun _ c => closeMeter c) s) else s

/-! ### The panel knob -/

/-- A contact's filter runs out: its level is taken (R104). -/
def Contact.expire (c : Contact) (named : Bool) : Contact :=
  if named && c.timer then { c with timer := false, taken := some c.pin } else c

/-- A contact's pin changes: its filter's 1 ms begins again (R104); stopped, it does not time (R110). -/
def Contact.change (c : Contact) (level runs : Bool) : Contact :=
  if level = c.pin then c else { c with pin := level, timer := runs }

/-- Place of a pair, KNA first, in the forward cycle 00, 01, 11, 10 (R105). -/
def pairIndex : Bool × Bool → Nat
  | (false, false) => 0
  | (false, true) => 1
  | (true, true) => 2
  | (true, false) => 3

/-- The count of a new pair against the reference pair (R105). -/
def knobCount (old new : Bool × Bool) : Int :=
  let d := (pairIndex new + 4 - pairIndex old) % 4
  if d = 1 then 1 else if d = 3 then -1 else 0

/-- The two taken levels, once both pins have one. -/
def Knob.pair (k : Knob) : Option (Bool × Bool) :=
  match k.a.taken, k.b.taken with
  | some a, some b => some (a, b)
  | _, _ => none

/-- The accumulator after a count, and the detent it produces: clockwise is `true` (R106). -/
def accumulate (acc count : Int) : Int × Option Bool :=
  let x := acc + count
  if 4 ≤ x then (0, some true) else if x ≤ -4 then (0, some false) else (x, none)

/-- Whether an expiry names KNA. -/
def expiryNamesA : KnobPins → Bool
  | .kna | .both => true
  | .knb => false

/-- Whether an expiry names KNB. -/
def expiryNamesB : KnobPins → Bool
  | .knb | .both => true
  | .kna => false

/-- Stability filters run out: first levels, the first reference pair, or a knob step with its count
and detent, which the gain stage takes in the same step (R104 to R106, R102; log 51). -/
def knobExpiry (ps : KnobPins) (s : State) : State :=
  if s.audioRuns then
    let k := { s.knob with a := s.knob.a.expire (expiryNamesA ps), b := s.knob.b.expire (expiryNamesB ps) }
    match k.pair, k.reference with
    | some new, none => { s with knob := { k with reference := some new } }
    | some new, some old =>
      let r := accumulate k.acc (knobCount old new)
      let s1 := { s with knob := { k with reference := some new, acc := r.1 } }
      (match r.2 with
       | some clockwise => detent k.zone clockwise s1
       | none => s1)
    | none, _ => { s with knob := k }
  else s

/-- A knob pin changes (R104). -/
def knobChange (p : KnobPin) (level : Bool) (s : State) : State :=
  match p with
  | .kna => { s with knob := { s.knob with a := s.knob.a.change level s.audioRuns } }
  | .knb => { s with knob := { s.knob with b := s.knob.b.change level s.audioRuns } }

/-- The knob when the audio blocks run again: first levels are awaited anew, the accumulator is kept
(R104, R110). -/
def Knob.resume (k : Knob) : Knob :=
  { k with
    a := { k.a with taken := none, timer := true }
    b := { k.b with taken := none, timer := true }
    reference := none }

end Sys2Proof.Machine
end

