-- ==== Sys2Proof/Machine/Station.lean ====
section
/-! DEFINITION. The station data decoder: bits, sync, groups, and the confirmation of content on
repeat (chapter 10). -/

set_option autoImplicit false

namespace Sys2Proof.Machine

/-! ### Receptions -/

/-- Changes the candidate content. -/
def Station.updCandidate (d : Station) (f : Content → Content) : Station := { d with candidate := f d.candidate }

/-- Changes the confirmed content. -/
def Station.updConfirmed (d : Station) (f : Content → Content) : Station := { d with confirmed := f d.confirmed }

/-- Content without its name and text segments (R183). -/
def Content.clearSegments (c : Content) : Content :=
  { c with names := List.replicate 6 none, texts := List.replicate 12 none }

/-- Content without its text segments (R184). -/
def Content.clearTexts (c : Content) : Content := { c with texts := List.replicate 12 none }

/-- A station change to a new confirmed code (R183). -/
def Station.changeStation (d : Station) (code : Word) : Station :=
  { d with
    candidate := d.candidate.clearSegments
    confirmed := { d.confirmed.clearSegments with code := some code }
    toggleRef := none
    af := [] }

/-- A station code confirmed in LISTENING, with the tuner's expected code (R183). -/
def Station.confirmCode (d : Station) (expected : Option Word) (code : Word) : Station :=
  let other :=
    match d.confirmed.code, expected with
    | some held, _ => held != code
    | none, some e => e != code
    | none, none => false
  if other then d.changeStation code else d.updConfirmed fun c => { c with code := some code }

/-- A reception of the station code (R183). -/
def receiveCode (code : Word) (s : State) : State :=
  if s.sd.candidate.code = some code then
    if s.tun.state = .verifying then verifyHanded code s
    else updSd (fun d => d.confirmCode s.tun.expected code) s
  else updSd (fun d => d.updCandidate fun c => { c with code := some code }) s

/-- A reception of the programme category (R184). -/
def Station.receiveCategory (d : Station) (cat : Nat) : Station :=
  if d.candidate.category = some cat then d.updConfirmed fun c => { c with category := some cat }
  else d.updCandidate fun c => { c with category := some cat }

/-- The text-toggle flag against its reference (R184). -/
def Station.receiveToggle (d : Station) (flag : Bool) : Station :=
  match d.toggleRef with
  | none => { d with toggle := flag, toggleRef := some flag }
  | some held =>
    if held = flag then { d with toggle := flag }
    else
      { d with
        toggle := flag, toggleRef := some flag, candidate := d.candidate.clearTexts,
        confirmed := d.confirmed.clearTexts }

/-- A P1 handed over in LISTENING (R184). -/
def Station.receiveP1 (d : Station) (w : Word) : Station :=
  ({ d.receiveCategory (field w 3 5) with traffic := flag w 2, speech := flag w 1 }).receiveToggle (flag w 0)

/-- A reception of a name segment (R185). -/
def Station.receiveName (d : Station) (seg : Nat) (chars : Word) : Station :=
  if d.candidate.names.getD seg none = some chars then
    d.updConfirmed fun c => { c with names := c.names.set seg (some chars) }
  else d.updCandidate fun c => { c with names := c.names.set seg (some chars) }

/-- A reception of a text segment (R185). -/
def Station.receiveText (d : Station) (seg : Nat) (chars : Word × Word) : Station :=
  if d.candidate.texts.getD seg none = some chars then
    d.updConfirmed fun c => { c with texts := c.texts.set seg (some chars) }
  else d.updCandidate fun c => { c with texts := c.texts.set seg (some chars) }

/-- An AF value of a type 0 group (R182, R187). -/
def Station.receiveAf (d : Station) (target : Nat) (w : Word) : Station :=
  if 1 ≤ w.toNat ∧ w.toNat ≤ 206 then { d with af := afOffer target (w.toNat - 1) d.af } else d

/-! ### Groups -/

/-- The type of a P1 word (R182). -/
def groupType (p1 : Word) : Nat := field p1 12 4

/-- The segment of a P1 word (R182). -/
def groupSegment (p1 : Word) : Nat := field p1 8 4

/-- The use of a P2 of a group whose P1 was handed over (R182). -/
def Station.receiveP2 (d : Station) (target : Nat) (p1 w : Word) : Station :=
  match groupType p1 with
  | 0 => d.receiveAf target w
  | 1 => if groupSegment p1 ≤ 5 then d.receiveName (groupSegment p1) w else d
  | _ => d

/-- The use of a P3 of a group whose P1 was handed over: as a text segment with the group's P2 (R182). -/
def Station.receiveP3 (d : Station) (target : Nat) (p1 w : Word) : Station :=
  match groupType p1, d.group.p2 with
  | 0, _ => d.receiveAf target w
  | 2, some p2 => if groupSegment p1 ≤ 11 then d.receiveText (groupSegment p1) (p2, w) else d
  | _, _ => d

/-- P1, P2 or P3 joins the group in progress and is dealt with, in LISTENING; a P2 or P3 that follows a
missed P1 is discarded (R182). -/
def Station.joinGroup (d : Station) (target p : Nat) (w : Word) : Station :=
  if p = 1 then ({ d with group := { d.group with p1 := some w } }).receiveP1 w
  else
    match d.group.p1 with
    | none => d
    | some p1 =>
      if p = 2 then ({ d with group := { d.group with p2 := some w } }).receiveP2 target p1 w
      else ({ d with group := { d.group with p3 := some w } }).receiveP3 target p1 w

/-- A block handed to the group assembly with its position: P0 starts a new group; in VERIFYING, P0
alone is taken (R182). -/
def handBlock (p : Nat) (w : Word) (s : State) : State :=
  if p = 0 then receiveCode w (updSd (fun d => { d with group := { Group.empty with p0 := some w } }) s)
  else if s.tun.state = .verifying then s
  else updSd (fun d => d.joinGroup s.tun.code p w) s

/-! ### Sync -/

/-- The bits a block takes. -/
def blockBits : Nat := 24

/-- The next position. -/
def nextPosition (p : Nat) : Nat := (p + 1) % 4

/-- The latest 24 bits of a window after one more bit (R180). -/
def slide (window : List Bool) (b : Bool) : List Bool :=
  let w := window ++ [b]
  w.drop (w.length - blockBits)

/-- A bit taken in SEARCH (R180). -/
def Station.searchBit (d : Station) (b : Bool) : Station :=
  let w := slide d.window b
  if w.length < blockBits then { d with window := w }
  else
    match validPosition (numOfBits w) with
    | some p => { d with sync := .acquiring, validCount := 1, expected := nextPosition p, window := [] }
    | none => { d with window := w }

/-- A whole block taken in ACQUIRING (R180). -/
def acquireBlock (bits : List Bool) (s : State) : State :=
  let p := s.sd.expected
  let block := numOfBits bits
  if validAt block p then
    let n := s.sd.validCount + 1
    let s1 := updSd (fun d => { d with window := [], validCount := n, expected := nextPosition p }) s
    if 4 ≤ n then handBlock p (blockInfo block) (updSd (fun d => { d with sync := .synced, badCount := 0 }) s1)
    else s1
  else updSd (fun d => { d with sync := .search, window := bits }) s

/-- A block that does not fit in SYNCED (R181); one missed at position 0 ends the group in progress
(log 33). -/
def Station.badBlock (d : Station) (p : Nat) : Station :=
  let n := d.badCount + 1
  { d with
    window := []
    expected := nextPosition p
    badCount := n
    sync := if 24 ≤ n then .search else d.sync
    group := if p = 0 then .empty else d.group }

/-- A whole block taken in SYNCED (R181). -/
def syncedBlock (bits : List Bool) (s : State) : State :=
  let p := s.sd.expected
  let block := numOfBits bits
  if validAt block p then
    handBlock p (blockInfo block)
      (updSd (fun d => { d with window := [], expected := nextPosition p, badCount := 0 }) s)
  else updSd (fun d => d.badBlock p) s

/-- One sampled bit (R178, R180, R181). -/
def takeBit (b : Bool) (s : State) : State :=
  if takingBits s.tun then
    let s1 := updSd (fun d => { d with gapTimer := true }) s
    let w := s.sd.window ++ [b]
    match s.sd.sync with
    | .idle => s1
    | .search => updSd (fun d => d.searchBit b) s1
    | .acquiring => if w.length < blockBits then updSd (fun d => { d with window := w }) s1 else acquireBlock w s1
    | .synced => if w.length < blockBits then updSd (fun d => { d with window := w }) s1 else syncedBlock w s1
  else s

/-- The gap timer expires (R178). -/
def gapExpiry (s : State) : State :=
  if s.sd.gapTimer && takingBits s.tun then
    updSd (fun d => { d with window := [], group := .empty, sync := .search, gapTimer := false }) s
  else s

end Sys2Proof.Machine
end

