-- ==== Sys2Proof/Machine/Records.lean ====
section
/-! DEFINITION. The words of the report records and of the slots as their owners hold them, and the
dirty marks that a change of record content sets (R16, R190 to R195). -/

set_option autoImplicit false

namespace Sys2Proof.Machine

/-! ### Codes (R193) -/

/-- A source's code. -/
def sourceCode : Option Source → Nat
  | none => 0
  | some src => sourceIndex src + 1

/-- A zone state's code. -/
def zoneStateCode : ZoneState → Nat
  | .silent => 0
  | .fadingOut => 1
  | .waiting => 2
  | .fadingIn => 3
  | .playing => 4
  | .reconfiguring => 5

/-- An SA lock state's code. -/
def lockStateCode : LockState → Nat
  | .noClock => 0
  | .measuring => 1
  | .locked => 2
  | .unsupported => 3

/-- A locked class's code. -/
def classCode : Option RateClass → Nat
  | none => 0
  | some .k32 => 1
  | some .k44 => 2
  | some .k48 => 3
  | some .k88 => 4
  | some .k96 => 5

/-- A stream state's code. -/
def streamStateCode : StreamState → Nat
  | .stopped => 0
  | .priming => 1
  | .running => 2
  | .starved => 3

/-- A module state's code. -/
def moduleStateCode : ModuleState → Nat
  | .off => 0
  | .starting => 1
  | .on => 2
  | .stopping => 3
  | .tripped => 4

/-- A trip cause's code. -/
def causeCode : TripCause → Nat
  | .none => 0
  | .faultLine => 1
  | .measure => 2
  | .clock => 3

/-- A block reason's code. -/
def reasonCode : BlockReason → Nat
  | .none => 0
  | .partialWrite => 1
  | .partOwned => 2
  | .locked => 3
  | .state => 4
  | .value => 5

/-- A self-check result's code. -/
def resultCode : CheckResult → Nat
  | .running => 0
  | .pass => 1
  | .fail => 2

/-- A clock state's code. -/
def clockCode : ClockState → Nat
  | .unproven => 0
  | .good => 1
  | .failed => 2

/-- An allocation state's code. -/
def allocCode : AllocState → Nat
  | .settled => 0
  | .requested => 1
  | .waitingRoom => 2

/-- A host status's code. -/
def hostStatusCode : HostStatus → Nat
  | .none => 0
  | .waiting => 1
  | .converting => 2
  | .done => 3

/-- A queue requester's code. -/
def requesterCode : OnDemand → Nat
  | .tuner _ => 1
  | .host => 2
  | .selfCheck _ => 3

/-- A tuner state's code. -/
def tunerStateCode : TunerState → Nat
  | .off => 0
  | .tuning => 1
  | .settling => 2
  | .listening => 3
  | .seeking => 4
  | .probing => 5
  | .verifying => 6
  | .fault => 7

/-- A long outcome's code. -/
def outcomeCode : LongOutcome → Nat
  | .none => 0
  | .tuned => 1
  | .seekFound => 2
  | .seekNone => 3
  | .seekStopped => 4
  | .recalled => 5
  | .stored => 6
  | .afSwitched => 7
  | .afReturned => 8
  | .afStayed => 9
  | .invalid => 10
  | .feFault => 11

/-- A sync state's code. -/
def syncCode : SyncState → Nat
  | .idle => 0
  | .search => 1
  | .acquiring => 2
  | .synced => 3

/-- A decode mode's code (R67). -/
def modeCode : DecodeMode → Nat
  | .direct => 0
  | .matrix => 1
  | .stereo => 2

/-- A steering speed's code (R67). -/
def speedCode : SteerSpeed → Nat
  | .fast => 0
  | .normal => 1
  | .slow => 2

/-- A format's code (R28). -/
def formatCode : Format → Nat
  | .stereo => 0
  | .tdm8 => 1

/-- A band's code (R162). -/
def bandCode : Band → Nat
  | .fm => 0
  | .am => 1

/-- A region's code (R162). -/
def regionCode : Region → Nat
  | .a => 0
  | .b => 1

/-- Flags packed from bit 0 upward. -/
def packFlags : List Bool → Nat
  | [] => 0
  | b :: bs => bitAt b 0 + 2 * packFlags bs

/-! ### Records (R194, R195) -/

/-- The strap value: APS0 in bit 0, APS1 in bit 1 (R195). -/
def strapValue (strap : Bool × Bool) : Nat := bitAt strap.1 1 + bitAt strap.2 0

/-- The device record (R195). -/
def deviceWords (s : State) : List Word :=
  [Config.partCode, Config.revision, numWord (strapValue s.strap), numWord (resultCode s.meas.result),
    numWord (clockCode s.clock), lockWord s.lock]

/-- The attention record (R20). -/
def attentionWords (s : State) : List Word :=
  [s.att.pending, s.att.blockOffset, numWord (reasonCode s.att.blockReason)]

/-- A zone's flag word (R194). -/
def zoneFlags (r : ZoneRec) : Word :=
  numWord (zoneStateCode r.state + bitAt r.gateOpen 4 + bitAt r.noSignal 5 + bitAt r.held.decode 8
    + bitAt r.held.speakers 9 + bitAt r.held.delay 10)

/-- Decode mode and steering speed, in zone 1 only (R194). -/
def zoneDecodeWords (s : State) : Zone → List Word
  | .z1 => [numWord (modeCode s.dec.active), numWord (speedCode s.dec.speed)]
  | .z2 => [0, 0]

/-- A zone record (R46, R63). -/
def zoneWords (s : State) (z : Zone) : List Word :=
  let r := s.zones.get z
  let g := s.gain.zones.get z
  [zoneFlags r, numWord (sourceCode r.connected + 0x100 * sourceCode r.pending), levelWord r.fade,
    numWord r.fadeRate, numWord r.waitLimit, levelWord g.volume, numWord (bitAt g.mute 0),
    levelWord g.maxVolume, numWord (s.pool.lipsync.get z), numWord (s.pool.active.grant.get z / 48)]
    ++ zoneDecodeWords s z

/-- The carrying status of a source (R25). -/
def carries (s : State) : Source → Bool
  | .sa l => (s.sa.get l).carries
  | .ms m => (s.ms.get m).state == .running
  | .tuner => s.tun.carries

/-- A source record (R45). -/
def sourceWords (s : State) : Source → List Word
  | .sa l =>
    let x := s.sa.get l
    [numWord (bitAt x.carries 0 + 0x10 * lockStateCode x.lock), numWord (classCode x.lockedClass),
      numWord (formatCode x.format), numWord (bitAt x.npcmTaken 0)]
  | .ms m =>
    let x := s.ms.get m
    [numWord (bitAt (x.state == .running) 0), numWord (streamStateCode x.state), 0, 0]
  | .tuner => [numWord (bitAt s.tun.carries 0), numWord (bitAt (!s.tun.stereo) 0), 0, 0]

/-- A stream record (R43). -/
def streamWords (s : State) (m : StreamId) : List Word :=
  let x := s.ms.get m
  [numWord (streamStateCode x.state), numWord x.drain, numWord x.buffer.length, numWord x.starvations]

/-- A meter record (R98). -/
def meterWords (s : State) (ch : Chan) : List Word :=
  let c := s.gain.chans.get ch
  [levelWord c.closedPeak, numWord (bitAt c.closedClip 0)]

/-- A module record's word for an entry (R194). -/
def moduleEntryWord (n : Nat) (e : Entry) : Word :=
  numWord (0x1000 * n + 0x800 + bitAt e.code.isSome 10 + e.code.getD 0)

/-- The entry words of a module record: the first eight entries naming it, then zeros (R125, R147). -/
def moduleEntryWords (s : State) (m : AmpModule) : List Word :=
  let named := (s.meas.entries.mapIdx fun i e => (i, e)).filter fun p => p.2.module == some m
  let ws := (named.take 8).map fun p => moduleEntryWord p.1 p.2
  ws ++ List.replicate (8 - ws.length) 0

/-- A module record (R125). -/
def moduleWords (s : State) (m : AmpModule) : List Word :=
  let r := s.mods.get m
  [numWord (moduleStateCode r.state + bitAt r.enable 4 + bitAt r.order 5),
    numWord (causeCode r.cause + 0x100 * r.tripEntry), levelWord r.derate] ++ moduleEntryWords s m

/-- The measurement entry record (R152). -/
def entryWords (s : State) : List Word :=
  entryNumbers.map fun n =>
    let e := s.meas.entry n.val
    numWord (bitAt e.code.isSome 15 + bitAt e.violation 14 + e.code.getD 0)

/-- The queue word of the on-demand result record (R194). -/
def queueWord (q : List OnDemand) : Word :=
  let x := fun i => match q[i]? with | some r => requesterCode r | none => 0
  numWord (x 0 + 4 * x 1 + 16 * x 2)

/-- The on-demand result record (R153). -/
def onDemandWords (s : State) : List Word :=
  let m := s.meas
  [queueWord m.queue, numWord (hostStatusCode m.hostStatus), numWord m.hostInput, numWord m.hostDivider,
    numWord m.hostCode, numWord m.hostCount, numWord m.refCode, numWord m.halfRefCode]

/-- The preset transfer word of the tuner record (R194). -/
def transferWord : Transfer → Word
  | .none => 0
  | .recalling n _ => numWord (0x4000 + n)
  | .storing n _ _ => numWord (0x8000 + n)

/-- The tuner record (R163). -/
def tunerWords (s : State) : List Word :=
  let t := s.tun
  [numWord (tunerStateCode t.state + bitAt (t.tunedBand == .am) 4 + bitAt t.stereo 5 + bitAt t.pilot 6
      + bitAt t.backoff 7 + bitAt t.expected.isSome 8),
    numWord t.tunedCode, numWord t.lastRssi, t.expected.getD 0, transferWord t.transfer,
    numWord (outcomeCode t.outcome), numWord t.outcomeCount]

/-- The station summary record (R189). -/
def summaryWords (s : State) : List Word :=
  let d := s.sd
  let c := d.confirmed
  [numWord (syncCode d.sync + bitAt c.code.isSome 4 + bitAt c.category.isSome 5 + bitAt d.traffic 6
      + bitAt d.speech 7 + bitAt d.toggleRef.isSome 8 + bitAt (d.toggleRef == some true) 9
      + bitAt c.nameComplete 10),
    c.code.getD 0, numWord (c.category.getD 0), numWord (packFlags (c.names.map Option.isSome)),
    numWord (packFlags (c.texts.map Option.isSome))]

/-- The name record (R189). -/
def nameWords (s : State) : List Word := s.sd.confirmed.names.map fun n => n.getD 0

/-- A text record from its first segment (R189). -/
def textWords (s : State) (first : Nat) : List Word :=
  ((s.sd.confirmed.texts.drop first).take 6).flatMap fun t =>
    match t with
    | some (a, b) => [a, b]
    | none => [0, 0]

/-- The AF record (R189). -/
def afWords (s : State) : List Word :=
  numWord s.sd.af.length :: (s.sd.af.map numWord ++ List.replicate (12 - s.sd.af.length) 0)

/-- The delay record (R120). -/
def delayWords (s : State) : List Word :=
  (chans.map fun ch => numWord (s.pool.active.len.get ch))
    ++ [numWord s.pool.staged.grant.z1, numWord s.pool.staged.grant.z2,
      numWord (allocCode s.pool.alloc.z1 + 0x10 * allocCode s.pool.alloc.z2)]

/-- A record's whole content as its owner holds it (R16, R194). -/
def recWords (s : State) : Rec → List Word
  | .device => deviceWords s
  | .attention => attentionWords s
  | .zone z => zoneWords s z
  | .source src => sourceWords s src
  | .stream m => streamWords s m
  | .meter ch => meterWords s ch
  | .module m => moduleWords s m
  | .entries => entryWords s
  | .onDemand => onDemandWords s
  | .tuner => tunerWords s
  | .summary => summaryWords s
  | .name => nameWords s
  | .text1 => textWords s 0
  | .text2 => textWords s 6
  | .af => afWords s
  | .delay => delayWords s

/-! ### Slots (R192) -/

/-- A slot's value as its owner holds it; a command slot's is its latest outcome (R9, R11). -/
def slotValue (s : State) : Slot → Word
  | .systemCmd => answerWord s.answers.system
  | .attnEnable => s.att.enable
  | .attnAck => 0
  | .setupLock => lockWord s.lock
  | .knobZone => numWord (zoneIndex s.knob.zone + 1)
  | .knobStep => numWord s.knob.step
  | .source z => numWord (sourceCode (zoneSelection (s.zones.get z)))
  | .volume z => levelWord (s.gain.zones.get z).volume
  | .mute z => numWord (bitAt (s.gain.zones.get z).mute 0)
  | .fadeRate z => numWord (s.zones.get z).fadeRate
  | .waitLimit z => numWord (s.zones.get z).waitLimit
  | .lipsync z => numWord (s.pool.lipsync.get z)
  | .decodeMode => numWord (modeCode s.dec.staged)
  | .steerSpeed => numWord (speedCode s.dec.speed)
  | .format l => numWord (formatCode (s.sa.get l).format)
  | .srcTrim src => levelWord (s.gain.srcTrims.get src)
  | .desc m d => (s.ms.get m).descWord d
  | .fill m => numWord (s.ms.get m).fill
  | .streamCmd m => answerWord (s.answers.stream.get m)
  | .speaker p => s.bass.staged.word p
  | .maxVolume z => levelWord (s.gain.zones.get z).maxVolume
  | .moduleEn m => numWord (bitAt (s.mods.get m).enable 0)
  | .trim ch => levelWord (s.gain.trims.get ch)
  | .dist ch => numWord (s.pool.dist.get ch)
  | .moduleCmd => answerWord s.answers.module
  | .seqLen => numWord s.meas.seqLen
  | .measureCmd => answerWord s.answers.measure
  | .entry n w => (s.meas.entry n.val).word w
  | .region => numWord (regionCode s.tun.region)
  | .band => numWord (bandCode s.tun.band)
  | .code => numWord s.tun.code
  | .tunerCmd => answerWord s.answers.tuner
  | .seekThr => numWord s.tun.seekThr
  | .blendThr => numWord s.tun.blendThr
  | .afThr => numWord s.tun.afThr
  | .afFollow => numWord (bitAt s.tun.afFollow 0)
  | .feDivisor => numWord s.fe.divisorSetting

/-- The value a restore pass writes into a slot (R21). -/
def restoreValue (s : State) (sl : Slot) : Word :=
  if sl.isCommand then 0
  else
    match sl with
    | .setupLock => 0x0001#16
    | _ => slotValue s sl

/-! ### Changes of record content (R16) -/

/-- The stream records, whose buffer level does not mark them (R43). -/
def Rec.isStream : Rec → Bool
  | .stream _ => true
  | _ => false

/-- The stream records whose content differs between two states. -/
def changedStreams (s s' : State) : List Rec :=
  [.stream .ms1, .stream .ms2].filter fun r => recWords s r != recWords s' r

/-- The records whose content differs between two states, the stream records apart. -/
def changedRecords (s s' : State) : List Rec :=
  records.filter fun r => !r.isStream && (recWords s r != recWords s' r)

/-- Marks the records whose content differs between two states of a command, and makes STATION pending
when one of the decoder's does (R16, R189; log 35). -/
def publish (s s' : State) : State :=
  let rs := changedRecords s s'
  markAll rs (if rs.any Rec.isStation then raise .station s' else s')

end Sys2Proof.Machine
end

