-- ==== Sys2Proof/Machine/Operands.lean ====
section
/-! DEFINITION. The write filter: how each written word is decoded, blocked, clamped or passed (R3 to
R6, R190 to R192). -/

set_option autoImplicit false

namespace Sys2Proof.Machine

/-- The start of the report area. -/
def reportStart : Nat := 0x0400

/-- The end of the report area. -/
def reportEnd : Nat := 0x1000

/-- An enumerated slot: the whole word is a member, or the write is blocked VALUE (R191). -/
def members (ns : List Nat) (v : Word) : Option Word := if v.toNat ∈ ns then some v else none

/-- An unsigned numeric slot clamped to a range (R190). -/
def ranged (lo hi : Nat) (v : Word) : Option Word := some (numWord (clampNat lo hi v.toNat))

/-- A level slot clamped to a range (R190). -/
def levelRanged (lo hi : Int) (v : Word) : Option Word := some (levelWord (clampInt lo hi v.toInt))

/-- A mask slot: bits 11 to 15 must be 0 (R19, R191). -/
def maskWord (v : Word) : Option Word := if v &&& 0xF800#16 = 0 then some v else none

/-- A descriptor slot (R36). -/
def filterDesc (d : DescSlot) (v : Word) : Option Word :=
  match d with
  | .baseLo => if flag v 0 then none else some v
  | .baseHi => if v.toNat ≤ 0xFF then some v else none
  | .size => ranged 64 65535 v
  | .channels => members [2, 8] v
  | .width => members [16, 24] v
  | .rate => members [0, 1, 2] v

/-- A speaker configuration slot, with the clamps that follow another slot (R79 to R81). -/
def filterSpeaker (c : SpeakerConfig) (p : SpeakerSlot) (v : Word) : Option Word :=
  match p with
  | .frontSize => (members [0, 1] v).map fun w => if c.subPresent then w else 0
  | .back => (members [0, 1, 2] v).map fun w => if c.surround = .absent then 2 else w
  | .center | .surround | .top => members [0, 1, 2] v
  | .sub => members [0, 1] v
  | .crossover => members [0, 1, 2, 3, 4, 5] v

/-- A word of a measurement entry (R141, R191, R192). -/
def filterEntry (w : Fin 4) (v : Word) : Option Word :=
  match w with
  | 0 =>
    if (v &&& 0xF8F0#16 = 0) ∧ field v 0 4 ≤ 11 ∧ 1 ≤ field v 8 3 ∧ field v 8 3 ≤ 4 then some v else none
  | 1 => ranged 0 1023 v
  | 2 => ranged 0 1023 v
  | 3 =>
    if (v &&& 0xF0CC#16 = 0) ∧ field v 0 2 ≤ 2 ∧ 1 ≤ field v 8 4 ∧ field v 8 4 ≤ 8 then some v else none

/-- Checks 5 to 7 of the filter: none for a write blocked VALUE, else the word carried (R5, R192). -/
def filterValue (s : State) (sl : Slot) (v : Word) : Option Word :=
  match sl with
  | .systemCmd | .streamCmd _ | .moduleCmd | .measureCmd | .tunerCmd | .setupLock => some v
  | .attnEnable | .attnAck => maskWord v
  | .knobZone => members [1, 2] v
  | .knobStep => ranged 1 8 v
  | .source _ => members [0, 1, 2, 3, 4, 5, 6, 7] v
  | .volume z => levelRanged (-320) (s.gain.zones.get z).maxVolume v
  | .mute _ | .moduleEn _ | .format _ | .region | .band | .afFollow => members [0, 1] v
  | .fadeRate _ => members [2, 4, 8, 16] v
  | .waitLimit _ => ranged 500 10000 v
  | .lipsync _ => ranged 0 200 v
  | .decodeMode | .steerSpeed => members [0, 1, 2] v
  | .srcTrim _ | .trim _ => levelRanged (-48) 48 v
  | .desc _ d => filterDesc d v
  | .fill m => if v.toNat < (s.ms.get m).size then some v else none
  | .speaker p => filterSpeaker s.bass.staged p v
  | .maxVolume _ => levelRanged (-320) 32 v
  | .dist _ => ranged 0 1500 v
  | .seqLen => ranged 0 16 v
  | .entry _ w => filterEntry w v
  | .code => ranged 0 (topCode s.tun.region s.tun.band) v
  | .seekThr | .blendThr | .afThr => ranged 0 1023 v
  | .feDivisor => ranged 2 65535 v

/-- Check 4: the owner's present state forbids the write (R36, R162). -/
def stateForbids (s : State) : Slot → Bool
  | .desc m _ => (s.ms.get m).active
  | .region => s.tun.state != .off
  | _ => false

/-- What the filter decides for a write. -/
inductive Verdict where
  /-- Carried unchanged, with its lane enables; no slot is written (R3). -/
  | through
  /-- Carried with this word, and delivered to the slot's owner (R8). -/
  | arrives (sl : Slot) (v : Word)
  /-- Blocked with a reason (R7). -/
  | blocked (r : BlockReason)
deriving DecidableEq, Repr

/-- The filter on a write to an assigned slot (R5). -/
def judgeSlot (s : State) (sl : Slot) (lanes : Lanes) (v : Word) : Verdict :=
  if lanes ≠ .full then .blocked .partialWrite
  else if sl.isLockable && (s.lock != .unlocked) then .blocked .locked
  else if stateForbids s sl then .blocked .state
  else
    match filterValue s sl v with
    | some w => .arrives sl w
    | none => .blocked .value

/-- The filter on a write at an offset of the aperture (R3, R5). -/
def judge (s : State) (off : Nat) (lanes : Lanes) (v : Word) : Verdict :=
  match slotAt off with
  | some sl => judgeSlot s sl lanes v
  | none => if reportStart ≤ off ∧ off < reportEnd then .blocked .partOwned else .through

/-- What a blocked write does (R7). -/
def blockWrite (off : Nat) (r : BlockReason) (s : State) : State :=
  raise .writeBlocked
    (markDirty .attention { s with att := { s.att with blockOffset := numWord off, blockReason := r } })

/-! ### The values that carried words stand for -/

/-- The source a SOURCE word names (R47). -/
def sourceOfWord (v : Word) : Option Source :=
  match v.toNat with
  | 1 => some (.sa .sa1)
  | 2 => some (.sa .sa2)
  | 3 => some (.sa .sa3)
  | 4 => some (.sa .sa4)
  | 5 => some (.ms .ms1)
  | 6 => some (.ms .ms2)
  | 7 => some .tuner
  | _ => none

/-- The decode mode of a word (R67). -/
def modeOfWord (v : Word) : DecodeMode := if v = 0 then .direct else if v = 1 then .matrix else .stereo

/-- The steering speed of a word (R67). -/
def speedOfWord (v : Word) : SteerSpeed := if v = 0 then .fast else if v = 1 then .normal else .slow

/-- The format of a word (R28). -/
def formatOfWord (v : Word) : Format := if v = 0 then .stereo else .tdm8

/-- The band of a word (R162). -/
def bandOfWord (v : Word) : Band := if v = 0 then .fm else .am

/-- The region of a word (R162). -/
def regionOfWord (v : Word) : Region := if v = 0 then .a else .b

/-- The zone of a KNOB_ZONE word (R107). -/
def zoneOfWord (v : Word) : Zone := if v = 1 then .z1 else .z2

end Sys2Proof.Machine
end

