-- ==== Sys2Proof/Machine/Presets.lean ====
section
/-! DEFINITION. A preset's fetched record judged and taken (R169, R176, R188, R196). -/

set_option autoImplicit false

namespace Sys2Proof.Machine

/-- The band field of a preset's flag word (11.5). -/
def presetBand (w : Word) : Option Band :=
  if field w 4 2 = 0 then some .fm else if field w 4 2 = 1 then some .am else none

/-- The content clear of a valid RECALL, with the marks of what it removes: the preload that follows at
once may bring the same AF list back (R186, R188, R189; log 35). -/
def recallClear (s : State) : State := publish s (updSd Station.clearContent s)

/-- A valid RECALL: the record's name has no taker and is dropped (R169, R188, R196; log 48). -/
def recallValid (band : Band) (words : List Word) (s : State) : State :=
  let w := fun i => words.getD i 0
  let code := (w 1).toNat
  let expected := if flag (w 0) 7 then some (w 2) else none
  let s1 := updTun (fun t => { t with backoff := false }) (abandonOperation s)
  let s2 := updTun (fun t => { t with expected := expected }) (ownTarget band code s1)
  let codes := ((words.drop 10).take (min 8 (w 9).toNat)).map BitVec.toNat
  let s3 := updSd (fun d => { d with af := afPreload code codes }) (recallClear s2)
  plainTune band code .recall s3

/-- A completed recall fetch is judged (R169, R176, R196). -/
def judgeRecall (words : List Word) (s : State) : State :=
  let w := fun i => words.getD i 0
  match presetBand (w 0) with
  | some band =>
    if flag (w 0) 0 && decide ((w 1).toNat ≤ topCode s.tun.region band) then recallValid band words s
    else longOutcome .invalid s
  | none => longOutcome .invalid s

/-- A recall burst that is still wanted has completed (R169). -/
def recallDone (words : List Word) (s : State) : State :=
  match s.tun.transfer with
  | .recalling n got =>
    let all := got ++ words
    if all.length < 18 then updTun (fun t => { t with transfer := .recalling n all }) s
    else normWeak (judgeRecall all (updTun (fun t => { t with transfer := .none }) s))
  | _ => s

end Sys2Proof.Machine
end

