-- ==== Sys2Proof/Machine/Port.lean ====
section
/-! DEFINITION. Arrivals at their owners, audio restart, host accesses, part bursts and their
arbitration, restore passes, the reset pin and the master clock (01, R135). -/

set_option autoImplicit false

namespace Sys2Proof.Machine

/-! ### Commands and arrivals -/

/-- The carrying view after audio restart: TUNER alone keeps its status (R64). -/
def restartView (v : PerSource Bool) : PerSource Bool := { PerSource.all false with tuner := v.tuner }

/-- The restart states of the audio blocks at audio restart (R22, R35, R43, R64, R78, R88, R108, R121). -/
def restartAudioBlocks (s : State) : State :=
  { s with
    sa := .ofFn fun l => SaState.restart (s.sa.get l).npcmPin
    ms := .all .restart
    zones := .all .restart
    view := restartView s.view
    dec := .restart
    bass := { staged := s.bass.staged, active := s.bass.staged, filters := .all .zero }
    gain := s.gain.restart
    pool := .restart s.bass.staged.presence
    meterTimer := false }

/-- RESTART_AUDIO taken: the audio blocks restarted, with the marks of the stream records that this changes
(R16, R43), the outcome, and the partial restore pass (R22). -/
def restartAudioCommand (s : State) : State :=
  let s0 := restartAudioBlocks (discardFetch .ms2 (discardFetch .ms1 s))
  let s1 := windDownReports (markAll (changedStreams s s0) s0)
  answerSystem .taken { s1 with agent := { s1.agent with restore := some ⟨.audio, 0⟩ } }

/-- A SYSTEM_CMD arrival (R22). -/
def systemCommand (v : Word) (s : State) : State :=
  if v = 1 then restartAudioCommand s
  else if v = 2 then selfRecheckCommand s
  else answerSystem .invalid s

/-- A module has an entry of action TRIP in violation (R134, R148). -/
def tripEntryStands (s : State) (m : AmpModule) : Bool :=
  s.meas.entries.any fun e => e.violation && (e.action == .trip) && (e.module == some m)

/-- CLEAR_TRIP for a module (R134, steps 3 to 5). -/
def clearTripCommand (m : AmpModule) (s : State) : State :=
  let r := s.mods.get m
  if r.state ≠ .tripped then answerModule .taken s
  else if r.fltPin || tripEntryStands s m || (s.clock != .good) || (s.meas.result != .pass) then
    answerModule .notAllowed s
  else answerModule .taken (clearTripTaken m s)

/-- A MODULE_CMD arrival (R134). -/
def moduleCommand (v : Word) (s : State) : State :=
  if field v 8 8 ≠ 1 then answerModule .invalid s
  else if field v 0 8 = 1 then clearTripCommand .a s
  else if field v 0 8 = 2 then clearTripCommand .b s
  else if field v 0 8 = 3 then clearTripCommand .c s
  else answerModule .range s

/-- An ATTN_ACK arrival (R19). -/
def attnAckArrival (v : Word) (s : State) : State :=
  requestWriteBack .attnAck { s with att := { s.att with pending := s.att.pending &&& ~~~v } }

/-- Changes the gain stage. -/
def updGain (f : Gain → Gain) (s : State) : State := { s with gain := f s.gain }

/-- Changes the knob decoder. -/
def updKnob (f : Knob → Knob) (s : State) : State := { s with knob := f s.knob }

/-- An arrival delivered to its slot's owner (R8). -/
def arrive (sl : Slot) (v : Word) (s : State) : State :=
  match sl with
  | .systemCmd => systemCommand v s
  | .attnEnable => { s with att := { s.att with enable := v } }
  | .attnAck => attnAckArrival v s
  | .setupLock => setupLockArrival v s
  | .knobZone => updKnob (fun k => { k with zone := zoneOfWord v }) s
  | .knobStep => updKnob (fun k => { k with step := v.toNat }) s
  | .source z => sourceArrival z (sourceOfWord v) s
  | .volume z => volumeArrival z v.toInt s
  | .mute z => muteArrival z (v = 1) s
  | .fadeRate z => fadeRateArrival z v.toNat s
  | .waitLimit z => waitLimitArrival z v.toNat s
  | .lipsync z => lipsyncArrival z v.toNat s
  | .decodeMode => decodeModeArrival (modeOfWord v) s
  | .steerSpeed => steerSpeedArrival (speedOfWord v) s
  | .format l => formatArrival l (formatOfWord v) s
  | .srcTrim src => updGain (fun g => { g with srcTrims := g.srcTrims.set src v.toInt }) s
  | .desc m d => updReader m (fun r => r.putDesc d v) s
  | .fill m => fillArrival m v.toNat s
  | .streamCmd m => streamCommand m v s
  | .speaker p => speakerArrival p v s
  | .maxVolume z => maxVolumeArrival z v.toInt s
  | .moduleEn m => moduleEnArrival m (v = 1) s
  | .trim ch => updGain (fun g => { g with trims := g.trims.set ch v.toInt }) s
  | .dist ch => distArrival ch v.toNat s
  | .moduleCmd => moduleCommand v s
  | .seqLen => seqLenArrival v.toNat s
  | .measureCmd => measureCommand v s
  | .entry n w => entryArrival n w v s
  | .region => normWeak (regionArrival (regionOfWord v) s)
  | .band => normWeak (bandArrival (bandOfWord v) s)
  | .code => normWeak (changeCode v.toNat s)
  | .tunerCmd => tunerCommand v s
  | .seekThr => updTun (fun t => { t with seekThr := v.toNat }) s
  | .blendThr => updTun (fun t => { t with blendThr := v.toNat }) s
  | .afThr => updTun (fun t => { t with afThr := v.toNat }) s
  | .afFollow => normWeak (updTun (fun t => { t with afFollow := v = 1 }) s)
  | .feDivisor => updFe (fun f => f.setDivisor v.toNat) s

/-! ### Carrying a host access -/

/-- The word address of a host access. -/
def accessAddr (a : HostAccess) : Nat := a.addr.toNat / 2 * 2

/-- The word on D15 to D0 of a read that finds a word in memory: each enabled lane carries its byte, a
disabled lane a free byte, which is the model's choice where R1 is silent (log 64). -/
def readLanes (draw : Nat) (lanes : Lanes) (w : Word) : Word :=
  let other := Config.disabledLanes draw
  (if lanes.hi then w.extractLsb' 8 8 else other.extractLsb' 8 8)
    ++ (if lanes.lo then w.extractLsb' 0 8 else other.extractLsb' 0 8)

/-- An access carried unchanged; above the memory fitted a read returns a free value and a write
changes nothing (R1; log 5), and a read with a disabled lane draws a free value for it (log 64). -/
def rawCarry (a : HostAccess) (s : State) : State :=
  let x := accessAddr a
  if fittedBytes s.strap ≤ x then
    if a.isWrite then s else { s with readData := Config.unfittedRead s.free, free := s.free + 1 }
  else if a.isWrite then { s with mem := s.mem.writeLanes x a.lanes a.data }
  else if a.lanes = .full then { s with readData := s.mem.readWord x }
  else { s with readData := readLanes s.free a.lanes (s.mem.readWord x), free := s.free + 1 }

/-- The offset of an access that lies in the aperture (R2). -/
def accessOffset (s : State) (a : HostAccess) : Option Nat :=
  let x := accessAddr a
  if s.apertureBase ≤ x ∧ x < s.apertureBase + 0x10000 then some (x - s.apertureBase) else none

/-- The filter's report of a control-region write other than to SETUP_LOCK (R8, R138). -/
def reportWrite (off : Nat) (s : State) : State :=
  if off < reportStart ∧ off ≠ Slot.setupLock.offset then relock s else s

/-- What the filter's verdict on a write does (R1, R7, R8). -/
def applyVerdict (a : HostAccess) (off : Nat) (v : Verdict) (s : State) : State :=
  match v with
  | .through => rawCarry a s
  | .arrives sl w => arrive sl w { s with mem := s.mem.writeWord (accessAddr a) w }
  | .blocked r => blockWrite off r s

/-- A host access carried to memory, filtered when it is a write in the aperture; with RSTN low the
part has no aperture (R1, R2). The filter's report acts before the write's own arrival (R8; log 10). -/
def hostCarry (a : HostAccess) (s : State) : State :=
  if s.rstnLow || !a.isWrite then rawCarry a s
  else
    match accessOffset s a with
    | none => rawCarry a s
    | some off => applyVerdict a off (judge s off a.lanes a.data) (reportWrite off s)

/-! ### The port -/

/-- Changes the memory agent. -/
def updAgent (f : Agent → Agent) (s : State) : State := { s with agent := f s.agent }

/-- Puts the port in a holder's hands. -/
def setPort (p : Port) (s : State) : State := updAgent (fun g => { g with port := p }) s

/-- A host access is on the port or held (log 9). -/
def hostBusy (s : State) : Bool := (s.agent.port == .host) || s.agent.held.isSome

/-- A restore pass holds accesses to the control region and the report area (R21, R22). -/
def restoreHolds (s : State) (a : HostAccess) : Bool :=
  s.agent.restore.isSome
    && (match accessOffset s a with | some off => decide (off < reportEnd) | none => false)

/-- A part request (R14). -/
inductive Request where
  | restore
  | fetch (m : StreamId)
  | writeBack
  | preset
  | report (r : Rec)
deriving DecidableEq, Repr

/-- A fetch request of a stream, of the given urgency (R14, R41). -/
def fetchRequest (s : State) (urgent : Bool) (m : StreamId) : Option Request :=
  if fetchWanted s m && (fetchUrgent s m == urgent) then some (.fetch m) else none

/-- The requests by rank, highest first (R14). -/
def requestRanks (s : State) : List (Option Request) :=
  [fetchRequest s true .ms1, fetchRequest s true .ms2,
    if s.agent.queue.isEmpty then none else some .writeBack,
    if s.tun.transfer = .none then none else some .preset,
    s.dirty.head?.map .report, fetchRequest s false .ms1, fetchRequest s false .ms2]

/-- The highest-ranked request on the agent's list (R14; log 37). -/
def nextRequest (s : State) : Option Request :=
  if s.agent.restore.isSome then some .restore else (requestRanks s).findSome? id

/-! ### Bursts -/

/-- A write burst: its words go to memory, and those they replace are kept for R2. -/
def writeBurst (owner : BurstOwner) (addr : Nat) (words : List Word) (s : State) : State :=
  setPort (.part ⟨owner, addr, true, words, s.mem.readWords addr words.length, false⟩)
    { s with mem := s.mem.writeWords addr words }

/-- A read burst: the words memory holds. -/
def readBurst (owner : BurstOwner) (addr n : Nat) (s : State) : State :=
  setPort (.part ⟨owner, addr, false, s.mem.readWords addr n, [], false⟩) s

/-- The slots a restore pass writes (R21, R22). -/
def passSlots (k : PassKind) : List Slot :=
  match k with
  | .full => slots
  | .audio => slots.filter Slot.isAudio

/-- The records a restore pass writes (R21, R22). -/
def passRecords (k : PassKind) : List Rec :=
  match k with
  | .full => records
  | .audio => records.filter Rec.isAudio

/-- The longest run of slots at consecutive words from an offset, at most `n`. -/
def slotRun : Nat → Nat → List Slot → List Slot
  | 0, _, _ => []
  | _, _, [] => []
  | n + 1, off, sl :: rest => if sl.offset = off then sl :: slotRun n (off + 2) rest else []

/-- The longest burst (R13). -/
def maxBurst : Nat := 16

/-- What a restore pass writes in its next burst: a run of slots, or one record. Records are at most
16 words and start at multiples of 16 words, so a record is the report area's run (R21, R194). -/
inductive RestorePiece where
  | slots (run : List Slot)
  | record (r : Rec)
  | done
deriving DecidableEq, Repr

/-- The next piece of a restore pass (R21). -/
def restorePiece (p : RestorePass) : RestorePiece :=
  match (passSlots p.kind).filter fun sl => p.next ≤ sl.offset with
  | sl :: rest => .slots (slotRun maxBurst sl.offset (sl :: rest))
  | [] =>
    match (passRecords p.kind).filter fun r => p.next ≤ r.offset with
    | r :: _ => .record r
    | [] => .done

/-- The offset after a run of slots. -/
def runEnd : List Slot → Nat
  | [] => 0
  | [sl] => sl.offset + 2
  | _ :: rest => runEnd rest

/-- The offset at which a run of slots starts. -/
def runStart (run : List Slot) : Nat := (run.head?.map Slot.offset).getD 0

/-- A record's burst, whose mark is cleared (R16, R23). -/
def recordBurst (owner : BurstOwner) (r : Rec) (s : State) : State :=
  writeBurst owner (s.apertureBase + r.offset) (recWords s r) { s with dirty := s.dirty.filter fun x => x != r }

/-- A restore burst (R21, R23). -/
def restoreBurst (p : RestorePass) (s : State) : State :=
  match restorePiece p with
  | .slots run =>
    writeBurst .restore (s.apertureBase + runStart run) (run.map (restoreValue s))
      (updAgent (fun g =>
        { g with restore := some ⟨p.kind, runEnd run⟩, queue := g.queue.filter fun sl => sl ∉ run }) s)
  | .record r =>
    recordBurst .restore r (updAgent (fun g => { g with restore := some ⟨p.kind, r.offset + 2⟩ }) s)
  | .done => s

/-- The entries that extend a write-back burst after a slot, at most `n` (R11). -/
def writeBackTail : Nat → Slot → List Slot → List Slot
  | 0, _, _ => []
  | n + 1, last, q =>
    match q.find? fun sl => sl.offset == last.offset + 2 with
    | some sl => sl :: writeBackTail n sl q
    | none => []

/-- The entries of a write-back burst (R11). -/
def writeBackRun : List Slot → List Slot
  | [] => []
  | head :: rest => head :: writeBackTail (maxBurst - 1) head rest

/-- A write-back burst (R11). -/
def writeBackBurst (s : State) : State :=
  let run := writeBackRun s.agent.queue
  writeBurst .writeBack (s.apertureBase + runStart run) (run.map (slotValue s))
    (updAgent (fun g => { g with queue := g.queue.filter fun sl => sl ∉ run }) s)

/-- The address of a preset record (R169). -/
def presetAddr (s : State) (n : Nat) : Nat := s.apertureBase + 0x1000 + 64 * n

/-- One of the four bursts of a STORE: word offset and words (R170). -/
def storePiece (snap : List Word) : Nat → Nat × List Word
  | 0 => (0, snap.take 1)
  | 1 => (1, (snap.drop 1).take 16)
  | 2 => (17, (snap.drop 17).take 1)
  | _ => (0, [snap.getD 0 0 ||| 1#16])

/-- A STORE burst; the last one reports STORED and ends the transfer (R170). -/
def storeBurst (n k : Nat) (snap : List Word) (s : State) : State :=
  let piece := storePiece snap k
  let s1 := writeBurst (.store n) (presetAddr s n + 2 * piece.1) piece.2 s
  if k < 3 then updTun (fun t => { t with transfer := .storing n (k + 1) snap }) s1
  else longOutcome .stored (updTun (fun t => { t with transfer := .none }) s1)

/-- A preset transfer's burst (R169, R170). -/
def presetBurst (s : State) : State :=
  match s.tun.transfer with
  | .none => s
  | .recalling n got =>
    if got.isEmpty then readBurst (.recall n) (presetAddr s n) 16 s
    else readBurst (.recall n) (presetAddr s n + 32) 2 s
  | .storing n k snap => storeBurst n k snap s

/-- A stream fetch burst (R41). -/
def fetchBurst (m : StreamId) (s : State) : State :=
  let r := s.ms.get m
  readBurst (.fetch m r.burstFrames) r.fetchAddr (r.burstFrames * r.frameWords) s

/-- Issues the burst of a request (R13, R14). -/
def issue (q : Request) (s : State) : State :=
  match q with
  | .restore => (match s.agent.restore with | some p => restoreBurst p s | none => s)
  | .fetch m => fetchBurst m s
  | .writeBack => writeBackBurst s
  | .preset => presetBurst s
  | .report r => recordBurst (.report r) r s

/-! ### Turns of the port -/

/-- A host access takes the port; a whole one ends in the same step (R12; log 2). -/
def takePort (a : HostAccess) (whole : Bool) (s : State) : State :=
  if whole then updAgent (fun g => { g with port := .free, lastPart := false }) (hostCarry a s)
  else hostCarry a (setPort .host s)

/-- Carries a held access that may go, as WAITN returns high (R12). -/
def carryHeld (s : State) : State :=
  match s.agent.held with
  | some h =>
    if restoreHolds s h.access then s
    else takePort h.access h.whole (updAgent (fun g => { g with held := none }) s)
  | none => s

/-- A held access that may go. -/
def heldMayGo (s : State) : Bool :=
  match s.agent.held with
  | some h => !restoreHolds s h.access
  | none => false

/-- Holds an access on WAITN (R12). -/
def holdAccess (a : HostAccess) (whole : Bool) (s : State) : State :=
  updAgent (fun g => { g with held := some ⟨a, whole⟩ }) s

/-- The part has a waiting request and its turn has come (R12; log 8). -/
def partsTurn (s : State) : Bool := !s.agent.lastPart && (nextRequest s).isSome

/-- A host access, which goes at a free port unless it is the part's turn, and is held on WAITN else
(R12, R21; with an access of the host already there, log 9). -/
def offerAccess (a : HostAccess) (whole : Bool) (s : State) : State :=
  if hostBusy s then s
  else if s.rstnLow then takePort a whole s
  else if restoreHolds s a then holdAccess a whole s
  else
    match s.agent.port with
    | .part _ => holdAccess a whole s
    | .host | .free => if partsTurn s then holdAccess a whole s else takePort a whole s

/-- A host access begins (R12, R21). -/
def beginAccess (a : HostAccess) (s : State) : State := offerAccess a false s

/-- A host access ends (R12). -/
def endAccess (s : State) : State :=
  match s.agent.port with
  | .host => updAgent (fun g => { g with port := .free, lastPart := false }) s
  | _ => s

/-- The access of a host write at an aperture offset. -/
def slotAccess (s : State) (off : Nat) (lanes : Lanes) (v : Word) : HostAccess :=
  { addr := BitVec.ofNat 24 (s.apertureBase + off), isWrite := true, lanes := lanes, data := v }

/-- A host write row: one whole write, begun and ended in one step, or held as any access is (R5, R12,
R21; log 2). -/
def hostWrite (off : Nat) (lanes : Lanes) (v : Word) (s : State) : State :=
  offerAccess (slotAccess s off lanes v) true s

/-- The part's turn at a free port (R12, R14). -/
def partTurn (s : State) : State :=
  match s.agent.port with
  | .free =>
    if s.agent.lastPart && heldMayGo s then carryHeld s
    else
      (match nextRequest s with
       | some q => issue q s
       | none => carryHeld s)
  | _ => s

/-! ### Starting, stopping and resuming the audio blocks -/

/-- A reader in RUNNING goes on with its converter empty (R43). -/
def resumeReader (r : Reader) : Reader := if r.state = .running then { r with conv := .empty } else r

/-- A new steering window: its sums are discarded (R72, R78). -/
def Decoder.newWindow (d : Decoder) : Decoder := { d with sums := .zero, frames := 0 }

/-- The four SA lines run again (R35). -/
def resumeLines (s : State) : State :=
  resumeLine .sa4 (resumeLine .sa3 (resumeLine .sa2 (resumeLine .sa1 s)))

/-- The audio blocks run from now on: at their first start and after master clock failure (R135; R35,
R43, R65, R78, R88, R110, R122): the SA lines resume before the zones (log 59), zone 1 before zone 2
(log 50), and the delay pool recomputes last (log 52). -/
def resumeAudio (s : State) : State :=
  let s1 := { resumeLines s with clock := .good, audioStarted := true }
  let s2 := resumeZone .z2 (resumeZone .z1 s1)
  let s3 :=
    { s2 with
      ms := .ofFn fun m => resumeReader (s2.ms.get m)
      dec := s2.dec.newWindow
      knob := s2.knob.resume
      pool := { s2.pool with presence := s2.bass.staged.presence } }
  recompute s3

/-- A full restore pass is running (R135). -/
def fullPass (s : State) : Bool :=
  match s.agent.restore with
  | some p => p.kind == .full
  | none => false

/-- The clock has been present for 1 ms (R135, R127). -/
def clockProven (s : State) : State :=
  if s.clock = .good then s
  else startModules (if fullPass s then { s with clock := .good } else resumeAudio s)

/-- What stops with the audio blocks at a master clock failure (R24, R78, R124). -/
def stopAudio (s : State) : State :=
  let s1 := discardFetch .ms2 (discardFetch .ms1 s)
  { s1 with clock := .failed, dec := s1.dec.newWindow, links := .all 0 }

/-- An absence of the clock (R135). -/
def clockAbsence (s : State) : State :=
  if s.clock = .good then
    raise .clock (trip .c .clock 0 (trip .b .clock 0 (trip .a .clock 0 (stopAudio s))))
  else s

/-- A restore pass ends (R23, R17, R135). -/
def passEnd (p : RestorePass) (s : State) : State :=
  let s1 := raise .restoreDone { updAgent (fun g => { g with restore := none }) s with meterTimer := true }
  if (p.kind == .full) && (s1.clock == .good) then resumeAudio s1 else s1

/-- What a finished burst's requester does with it (R15, R23, R42, R169). -/
def burstResult (b : Burst) (s : State) : State :=
  match b.owner with
  | .restore =>
    (match s.agent.restore with
     | some p => if restorePiece p = .done then passEnd p s else s
     | none => s)
  | .fetch m frames => if b.discard || !s.audioRuns then s else fetchDone m frames b.words s
  | .recall _ => if b.discard then s else recallDone b.words s
  | .writeBack | .store _ | .report _ => s

/-- The last word cycle of a part burst ends: the port is free, and the requester takes up the burst's
result (R12). -/
def burstDone (b : Burst) (s : State) : State :=
  burstResult b (updAgent (fun g => { g with port := .free, lastPart := true }) s)

/-! ### The reset pin -/

/-- The word cycles of a burst that have run when RSTN falls: a free value from 1 to its length (R2;
log 7). -/
def cyclesRun (draw len : Nat) : Nat := clampNat 1 len (Config.cyclesAtFall draw)

/-- A burst in flight ends at the word cycle then running: the words after it are not written (R2). -/
def cutBurst (s : State) : State :=
  match s.agent.port with
  | .part b =>
    let k := cyclesRun s.free b.words.length
    let mem := if b.isWrite then s.mem.writeWords (b.addr + 2 * k) (b.replaced.drop k) else s.mem
    setPort .free { s with mem := mem, free := s.free + 1 }
  | _ => s

/-- A held access is released and carried unchanged (R2). -/
def releaseHeld (s : State) : State :=
  match s.agent.held with
  | some h => takePort h.access h.whole (updAgent (fun g => { g with held := none }) s)
  | none => s

/-- RSTN falls (R2). -/
def resetFall (s : State) : State := releaseHeld { cutBurst s with rstnLow := true }

/-- RSTN rises: every block in its reset state, with what lies outside the part kept (R21; log 3), and
the device record marked by the measurement unit (R150; log 53). -/
def resetRise (aps1 aps0 : Bool) (s : State) : State :=
  { State.reset with
    pending := s.pending
    strap := (aps1, aps0)
    mem := s.mem
    readData := s.readData
    agent := { State.reset.agent with port := if s.agent.port = .host then .host else .free }
    sa := .ofFn fun l => SaState.restart (s.sa.get l).npcmPin
    knob := Knob.reset s.knob.a.pin s.knob.b.pin
    mods := .ofFn fun m => ModuleRec.reset (s.mods.get m).fltPin
    free := s.free }

/-! ### How a command's effect becomes its outcome -/

/-- The outcome of a command of the part's own: with RSTN low it changes nothing (log 46), else its
effect with the dirty marks of what it changed (R16). -/
def act (f : State → State) (s : State) : Host.Outcome State Fault Refusal :=
  .next (if s.rstnLow then s else publish s (f s))

/-- The outcome of a command of the part's own with two acts, the second after the first: each marks what
it changes, so that a change the second takes back has its mark (R16). -/
def actTwice (f g : State → State) (s : State) : Host.Outcome State Fault Refusal :=
  .next (if s.rstnLow then s else
    let m := publish s (f s)
    publish m (g m))

/-- The outcome of a host access, which is carried with RSTN low as well (R2). -/
def access (f : State → State) (s : State) : Host.Outcome State Fault Refusal :=
  .next (if s.rstnLow then f s else publish s (f s))

/-- The outcome of a pin's change of level, which no record shows; pins change with RSTN low too. -/
def pinChange (f : State → State) (s : State) : Host.Outcome State Fault Refusal := .next (f s)

/-- A host write row of a slot (R5). -/
def slotRow (sl : Slot) (lanes : Lanes) (v : Word) (s : State) : Host.Outcome State Fault Refusal :=
  access (hostWrite sl.offset lanes v) s

end Sys2Proof.Machine
end

