-- ==== Sys2Proof/Machine/GainCommands.lean ====
section
/-! DEFINITION. The commands of the gain stage and the panel knob (05). -/

set_option autoImplicit false

namespace Sys2Proof.Machine

/-- AUDIO_FRAME (R97), with the pair in the first 24 bits of TA's two slots (R44). -/
def execAudioFrame (quiet : List SaLine) (ta : BitVec 32 × BitVec 32) (s : State) :
    Host.Outcome State Fault Refusal :=
  act (audioFrameStep quiet (slotSample ta.1) (slotSample ta.2)) s

/-- VOLUME_WRITE (R99). -/
def execVolumeWrite (z : Zone) (lanes : Lanes) (v : Word) (s : State) : Host.Outcome State Fault Refusal :=
  slotRow (.volume z) lanes v s

/-- MUTE_WRITE (R100). -/
def execMuteWrite (z : Zone) (lanes : Lanes) (v : Word) (s : State) : Host.Outcome State Fault Refusal :=
  slotRow (.mute z) lanes v s

/-- MAX_VOLUME_WRITE (R101). -/
def execMaxVolumeWrite (z : Zone) (lanes : Lanes) (v : Word) (s : State) : Host.Outcome State Fault Refusal :=
  slotRow (.maxVolume z) lanes v s

/-- SLEW_TIMER_EXPIRY (R94). -/
def execSlewTimerExpiry (s : State) : Host.Outcome State Fault Refusal :=
  act slewExpiry s

/-- KNOB_PIN_CHANGE (R104). -/
def execKnobPinChange (p : KnobPin) (level : Bool) (s : State) : Host.Outcome State Fault Refusal :=
  pinChange (knobChange p level) s

/-- KNOB_FILTER_EXPIRY (R104). -/
def execKnobFilterExpiry (ps : KnobPins) (s : State) : Host.Outcome State Fault Refusal :=
  act (knobExpiry ps) s

end Sys2Proof.Machine
end

