-- ==== Sys2Proof/Machine/InputCommands.lean ====
section
/-! DEFINITION. The commands of the serial audio lines and the memory streams (02). -/

set_option autoImplicit false

namespace Sys2Proof.Machine

/-- SA_WINDOW_END (R29). -/
def execSaWindowEnd (l : SaLine) (s : State) : Host.Outcome State Fault Refusal :=
  act (fun t => if t.audioRuns then lineStepWith l SaState.windowEnd t else t) s

/-- SA_FRAME (R27). -/
def execSaFrame (l : SaLine) (slots : List (BitVec 32)) (s : State) : Host.Outcome State Fault Refusal :=
  act (fun t => if t.audioRuns then updLine l (fun x => x.frame slots) t else t) s

/-- NPCM_CHANGE (R33). -/
def execNpcmChange (l : SaLine) (level : Bool) (s : State) : Host.Outcome State Fault Refusal :=
  pinChange (npcmPinChange l level) s

/-- NPCM_STABLE (R33). -/
def execNpcmStable (l : SaLine) (s : State) : Host.Outcome State Fault Refusal :=
  act (npcmStable l) s

/-- FORMAT_WRITE (R28). -/
def execFormatWrite (l : SaLine) (lanes : Lanes) (v : Word) (s : State) : Host.Outcome State Fault Refusal :=
  slotRow (.format l) lanes v s

/-- STREAM_DESCRIPTOR_WRITE (R36). -/
def execStreamDescriptorWrite (m : StreamId) (d : DescSlot) (lanes : Lanes) (v : Word) (s : State) :
    Host.Outcome State Fault Refusal :=
  slotRow (.desc m d) lanes v s

/-- FILL_WRITE (R37). -/
def execFillWrite (m : StreamId) (lanes : Lanes) (v : Word) (s : State) : Host.Outcome State Fault Refusal :=
  slotRow (.fill m) lanes v s

/-- STREAM_START (R38). -/
def execStreamStart (m : StreamId) (lanes : Lanes) (s : State) : Host.Outcome State Fault Refusal :=
  slotRow (.streamCmd m) lanes 0x0001#16 s

/-- STREAM_STOP (R39). -/
def execStreamStop (m : StreamId) (lanes : Lanes) (s : State) : Host.Outcome State Fault Refusal :=
  slotRow (.streamCmd m) lanes 0x0002#16 s

/-- STREAM_FRAME_INSTANT (R40). -/
def execStreamFrameInstant (m : StreamId) (s : State) : Host.Outcome State Fault Refusal :=
  act (frameInstant m) s

end Sys2Proof.Machine
end

