-- ==== Sys2Proof/Machine/MeasureCommands.lean ====
section
/-! DEFINITION. The commands of the measurement unit (08). -/

set_option autoImplicit false

namespace Sys2Proof.Machine

/-- One expiry of the converter's timer, with the tuner's code delivered after the choice (R140,
R144, R145). -/
def converterStep (microvolts : Int) (s : State) : State :=
  let s1 := converterExpiry microvolts s
  normWeak (match completedRssi microvolts s with | some code => deliverRssi code s1 | none => s1)

/-- SEQ_LEN_WRITE (R142). -/
def execSeqLenWrite (lanes : Lanes) (v : Word) (s : State) : Host.Outcome State Fault Refusal :=
  slotRow .seqLen lanes v s

/-- ENTRY_WRITE (R142). -/
def execEntryWrite (n : Fin 16) (w : Fin 4) (lanes : Lanes) (v : Word) (s : State) :
    Host.Outcome State Fault Refusal :=
  slotRow (.entry n w) lanes v s

/-- MEASURE (R146): 0x1000 plus 16 times the input number plus the divider. -/
def execMeasure (input : BitVec 8) (divider : BitVec 4) (lanes : Lanes) (s : State) :
    Host.Outcome State Fault Refusal :=
  slotRow .measureCmd lanes (0x1#4 ++ input ++ divider) s

/-- CONVERTER_TIMER_EXPIRY (R140): completion, choice, then the tuner takes its code (R144). -/
def execConverterTimerExpiry (microvolts : Int) (s : State) : Host.Outcome State Fault Refusal :=
  act (converterStep microvolts) s

end Sys2Proof.Machine
end

