-- ==== Sys2Proof/Machine/ModuleCommands.lean ====
section
/-! DEFINITION. The commands of the amplifier supervisor and the clock supervisor (07). -/

set_option autoImplicit false

namespace Sys2Proof.Machine

/-- The start timer expires: a module in STARTING enters ON (R127). -/
def startExpiry (m : AmpModule) (s : State) : State :=
  if (s.mods.get m).state = .starting then updModule m (fun r => { r with state := .on }) s else s

/-- The stop timer expires: a module in STOPPING enters OFF, and its start conditions are checked
(R129). -/
def stopExpiry (m : AmpModule) (s : State) : State :=
  if (s.mods.get m).state = .stopping then startModule m (updModule m (fun r => { r with state := .off }) s) else s

/-- AMPFLT has been asserted for 50 us while AMPEN is high (R132). -/
def faultLineTrip (m : AmpModule) (s : State) : State :=
  let r := s.mods.get m
  if r.fltPin && ((r.state == .starting) || (r.state == .on)) then trip m .faultLine 0 s else s

/-- MODULE_EN_WRITE (R126). -/
def execModuleEnWrite (m : AmpModule) (lanes : Lanes) (v : Word) (s : State) :
    Host.Outcome State Fault Refusal :=
  slotRow (.moduleEn m) lanes v s

/-- START_TIMER_EXPIRY (R127). -/
def execStartTimerExpiry (m : AmpModule) (s : State) : Host.Outcome State Fault Refusal :=
  act (startExpiry m) s

/-- STOP_TIMER_EXPIRY (R129). -/
def execStopTimerExpiry (m : AmpModule) (s : State) : Host.Outcome State Fault Refusal :=
  act (stopExpiry m) s

/-- AMPFLT_CHANGE (R132). -/
def execAmpfltChange (m : AmpModule) (level : Bool) (s : State) : Host.Outcome State Fault Refusal :=
  pinChange (updModule m fun r => { r with fltPin := level }) s

/-- FAULT_LINE_TRIP (R132). -/
def execFaultLineTrip (m : AmpModule) (s : State) : Host.Outcome State Fault Refusal :=
  act (faultLineTrip m) s

/-- CLEAR_TRIP (R134): 0x0100 plus the module number. -/
def execClearTrip (n : BitVec 8) (lanes : Lanes) (s : State) : Host.Outcome State Fault Refusal :=
  slotRow .moduleCmd lanes (0x01#8 ++ n) s

/-- CLOCK_ABSENCE (R135). -/
def execClockAbsence (s : State) : Host.Outcome State Fault Refusal :=
  act clockAbsence s

/-- CLOCK_PROVEN (R135). -/
def execClockProven (s : State) : Host.Outcome State Fault Refusal :=
  act clockProven s

end Sys2Proof.Machine
end

