-- ==== Sys2Proof/Machine/PortCommands.lean ====
section
/-! DEFINITION. The commands of the reset pin, the port, the meter timer and the system slots (01). -/

set_option autoImplicit false

namespace Sys2Proof.Machine

/-- RSTN_FALL (R2). -/
def execRstnFall (s : State) : Host.Outcome State Fault Refusal :=
  pinChange resetFall s

/-- RSTN_RISE (R21). -/
def execRstnRise (aps1 aps0 : Bool) (s : State) : Host.Outcome State Fault Refusal :=
  pinChange (resetRise aps1 aps0) s

/-- HOST_ACCESS_BEGIN (R12). -/
def execHostAccessBegin (a : HostAccess) (s : State) : Host.Outcome State Fault Refusal :=
  access (beginAccess a) s

/-- HOST_ACCESS_END (R12). -/
def execHostAccessEnd (s : State) : Host.Outcome State Fault Refusal :=
  access endAccess s

/-- SLOT_WRITE (R5). -/
def execSlotWrite (off : BitVec 16) (lanes : Lanes) (v : Word) (s : State) :
    Host.Outcome State Fault Refusal :=
  access (hostWrite off.toNat lanes v) s

/-- ATTN_ENABLE_WRITE (R19). -/
def execAttnEnableWrite (lanes : Lanes) (v : Word) (s : State) : Host.Outcome State Fault Refusal :=
  slotRow .attnEnable lanes v s

/-- ATTN_ACK_WRITE (R19). -/
def execAttnAckWrite (lanes : Lanes) (v : Word) (s : State) : Host.Outcome State Fault Refusal :=
  slotRow .attnAck lanes v s

/-- SETUP_LOCK_WRITE (R137). -/
def execSetupLockWrite (lanes : Lanes) (v : Word) (s : State) : Host.Outcome State Fault Refusal :=
  slotRow .setupLock lanes v s

/-- RESTART_AUDIO (R22). -/
def execRestartAudio (lanes : Lanes) (s : State) : Host.Outcome State Fault Refusal :=
  slotRow .systemCmd lanes 0x0001#16 s

/-- SELF_RECHECK (R151). -/
def execSelfRecheck (lanes : Lanes) (s : State) : Host.Outcome State Fault Refusal :=
  slotRow .systemCmd lanes 0x0002#16 s

/-- PART_BURST_ISSUE (R14). -/
def execPartBurstIssue (s : State) : Host.Outcome State Fault Refusal :=
  act partTurn s

/-- PART_BURST_END (R12): the requester takes up the burst's result, and then a held host access is carried
(log 57). -/
def execPartBurstEnd (s : State) : Host.Outcome State Fault Refusal :=
  match s.agent.port with
  | .part b => actTwice (burstDone b) carryHeld s
  | _ => .next s

/-- METER_TIMER_EXPIRY (R17). -/
def execMeterTimerExpiry (s : State) : Host.Outcome State Fault Refusal :=
  act meterExpiry s

end Sys2Proof.Machine
end

