-- ==== Sys2Proof/Machine/StationCommands.lean ====
section
/-! DEFINITION. The commands of the station data decoder (10). -/

set_option autoImplicit false

namespace Sys2Proof.Machine

/-- The 24 bits of a block, first bit first, with the marks of what each of them changes (R180, R189;
log 32, log 35). -/
def takeBlock (block : BitVec 24) (s : State) : State :=
  (bitsOf blockBits block.toNat).foldl (fun t b => publish t (takeBit b t)) s

/-- STATION_BLOCK (R181). -/
def execStationBlock (block : BitVec 24) (s : State) : Host.Outcome State Fault Refusal :=
  act (fun t => normWeak (takeBlock block t)) s

/-- GAP_TIMER_EXPIRY (R178). -/
def execGapTimerExpiry (s : State) : Host.Outcome State Fault Refusal :=
  act gapExpiry s

/-- STATION_DATA_BIT (R180). -/
def execStationDataBit (bit : Bool) (s : State) : Host.Outcome State Fault Refusal :=
  act (fun t => normWeak (takeBit bit t)) s

end Sys2Proof.Machine
end

