-- ==== Sys2Proof/Machine/TunerCommands.lean ====
section
/-! DEFINITION. The commands of the front-end line and the tuner controller (09). -/

set_option autoImplicit false

namespace Sys2Proof.Machine

/-- FE_DIVISOR_WRITE (R155). -/
def execFeDivisorWrite (lanes : Lanes) (v : Word) (s : State) : Host.Outcome State Fault Refusal :=
  slotRow .feDivisor lanes v s

/-- DIVISOR_TAKE_UP (R155). -/
def execDivisorTakeUp (s : State) : Host.Outcome State Fault Refusal :=
  act (updFe FrontEnd.takeUp) s

/-- FRAME_SENT (R156). -/
def execFrameSent (s : State) : Host.Outcome State Fault Refusal :=
  act (updFe FrontEnd.frameSent) s

/-- CHARACTER_RECEIVED (R157). -/
def execCharacterReceived (data : Byte) (parity stop : Bool) (idle : Nat) (s : State) :
    Host.Outcome State Fault Refusal :=
  act (updFe fun f => f.receive data parity stop idle) s

/-- ASSEMBLER_TIMER_EXPIRY (R158). -/
def execAssemblerTimerExpiry (s : State) : Host.Outcome State Fault Refusal :=
  act (fun t => normWeak (assemblerExpiry t)) s

/-- RESPONSE_TIMER_EXPIRY (R160). -/
def execResponseTimerExpiry (s : State) : Host.Outcome State Fault Refusal :=
  act (fun t => normWeak (responseExpiry t)) s

/-- REGION_WRITE (R162). -/
def execRegionWrite (lanes : Lanes) (v : Word) (s : State) : Host.Outcome State Fault Refusal :=
  slotRow .region lanes v s

/-- BAND_WRITE (R162). -/
def execBandWrite (lanes : Lanes) (v : Word) (s : State) : Host.Outcome State Fault Refusal :=
  slotRow .band lanes v s

/-- CODE_WRITE (R162). -/
def execCodeWrite (lanes : Lanes) (v : Word) (s : State) : Host.Outcome State Fault Refusal :=
  slotRow .code lanes v s

/-- TUNE (R166). -/
def execTune (lanes : Lanes) (s : State) : Host.Outcome State Fault Refusal :=
  slotRow .tunerCmd lanes 0x0001#16 s

/-- SEEK_UP (R167). -/
def execSeekUp (lanes : Lanes) (s : State) : Host.Outcome State Fault Refusal :=
  slotRow .tunerCmd lanes 0x0002#16 s

/-- SEEK_DOWN (R167). -/
def execSeekDown (lanes : Lanes) (s : State) : Host.Outcome State Fault Refusal :=
  slotRow .tunerCmd lanes 0x0003#16 s

/-- TUNER_STOP (R168). -/
def execTunerStop (lanes : Lanes) (s : State) : Host.Outcome State Fault Refusal :=
  slotRow .tunerCmd lanes 0x0004#16 s

/-- TUNER_OFF (R171). -/
def execTunerOff (lanes : Lanes) (s : State) : Host.Outcome State Fault Refusal :=
  slotRow .tunerCmd lanes 0x0005#16 s

/-- RECALL (R169): 0x0100 + n. -/
def execRecall (n : BitVec 8) (lanes : Lanes) (s : State) : Host.Outcome State Fault Refusal :=
  slotRow .tunerCmd lanes (0x01#8 ++ n) s

/-- STORE (R170): 0x0200 + n. -/
def execStore (n : BitVec 8) (lanes : Lanes) (s : State) : Host.Outcome State Fault Refusal :=
  slotRow .tunerCmd lanes (0x02#8 ++ n) s

/-- SETTLE_TIMER_EXPIRY (R164). -/
def execSettleTimerExpiry (s : State) : Host.Outcome State Fault Refusal :=
  act (fun t => normWeak (settleExpiry t)) s

/-- READING_TIMER_EXPIRY (R172). -/
def execReadingTimerExpiry (s : State) : Host.Outcome State Fault Refusal :=
  act readingExpiry s

/-- QUERY_TIMER_EXPIRY (R172). -/
def execQueryTimerExpiry (s : State) : Host.Outcome State Fault Refusal :=
  act queryExpiry s

/-- VERIFY_TIMER_EXPIRY (R175). -/
def execVerifyTimerExpiry (s : State) : Host.Outcome State Fault Refusal :=
  act (fun t => normWeak (verifyExpiry t)) s

/-- BACKOFF_TIMER_EXPIRY (R173). -/
def execBackoffTimerExpiry (s : State) : Host.Outcome State Fault Refusal :=
  act (updTun fun t => { t with backoff := false }) s

end Sys2Proof.Machine
end

