-- ==== Sys2Proof/Machine/ZoneCommands.lean ====
section
/-! DEFINITION. The commands of the zone switch, the surround decoder, the bass manager and the delay pool (03, 04,
06). -/

set_option autoImplicit false

namespace Sys2Proof.Machine

/-- SOURCE_WRITE (R51). -/
def execSourceWrite (z : Zone) (lanes : Lanes) (v : Word) (s : State) : Host.Outcome State Fault Refusal :=
  slotRow (.source z) lanes v s

/-- FADE_RATE_WRITE (R54). -/
def execFadeRateWrite (z : Zone) (lanes : Lanes) (v : Word) (s : State) : Host.Outcome State Fault Refusal :=
  slotRow (.fadeRate z) lanes v s

/-- WAIT_LIMIT_WRITE (R59). -/
def execWaitLimitWrite (z : Zone) (lanes : Lanes) (v : Word) (s : State) : Host.Outcome State Fault Refusal :=
  slotRow (.waitLimit z) lanes v s

/-- FADE_TIMER_EXPIRY (R54). -/
def execFadeTimerExpiry (z : Zone) (s : State) : Host.Outcome State Fault Refusal :=
  act (fun t => if t.restartTimersRun then fadeStep z t else t) s

/-- WAIT_TIMER_EXPIRY (R59). -/
def execWaitTimerExpiry (z : Zone) (s : State) : Host.Outcome State Fault Refusal :=
  act (fun t => if t.restartTimersRun then waitTick z t else t) s

/-- DECODE_MODE_WRITE (R67). -/
def execDecodeModeWrite (lanes : Lanes) (v : Word) (s : State) : Host.Outcome State Fault Refusal :=
  slotRow .decodeMode lanes v s

/-- STEER_SPEED_WRITE (R67). -/
def execSteerSpeedWrite (lanes : Lanes) (v : Word) (s : State) : Host.Outcome State Fault Refusal :=
  slotRow .steerSpeed lanes v s

/-- STEER_WINDOW_END (R72). -/
def execSteerWindowEnd (s : State) : Host.Outcome State Fault Refusal :=
  act steerWindow s

/-- SPEAKER_CONFIG_WRITE (R82). -/
def execSpeakerConfigWrite (p : SpeakerSlot) (lanes : Lanes) (v : Word) (s : State) :
    Host.Outcome State Fault Refusal :=
  slotRow (.speaker p) lanes v s

/-- DIST_WRITE (R112). -/
def execDistWrite (ch : MainChan) (lanes : Lanes) (v : Word) (s : State) : Host.Outcome State Fault Refusal :=
  slotRow (.dist ch) lanes v s

/-- LIPSYNC_WRITE (R112). -/
def execLipsyncWrite (z : Zone) (lanes : Lanes) (v : Word) (s : State) : Host.Outcome State Fault Refusal :=
  slotRow (.lipsync z) lanes v s

end Sys2Proof.Machine
end

