-- ==== Sys2Proof/Machine/Dispatch.lean ====
section
/-! DEFINITION. The one match from commands to their meanings, one arm per row of the table. -/

namespace Sys2Proof.Machine

def exec (i : Instr) (s : State) : Host.Outcome State Fault Refusal :=
  match i with
  | .rstnFall => Sys2Proof.Machine.execRstnFall s
  | .rstnRise aps1 aps0 => Sys2Proof.Machine.execRstnRise aps1 aps0 s
  | .hostAccessBegin a => Sys2Proof.Machine.execHostAccessBegin a s
  | .hostAccessEnd => Sys2Proof.Machine.execHostAccessEnd s
  | .slotWrite off lanes v => Sys2Proof.Machine.execSlotWrite off lanes v s
  | .attnEnableWrite lanes v => Sys2Proof.Machine.execAttnEnableWrite lanes v s
  | .attnAckWrite lanes v => Sys2Proof.Machine.execAttnAckWrite lanes v s
  | .setupLockWrite lanes v => Sys2Proof.Machine.execSetupLockWrite lanes v s
  | .restartAudio lanes => Sys2Proof.Machine.execRestartAudio lanes s
  | .selfRecheck lanes => Sys2Proof.Machine.execSelfRecheck lanes s
  | .partBurstIssue => Sys2Proof.Machine.execPartBurstIssue s
  | .partBurstEnd => Sys2Proof.Machine.execPartBurstEnd s
  | .meterTimerExpiry => Sys2Proof.Machine.execMeterTimerExpiry s
  | .saWindowEnd l => Sys2Proof.Machine.execSaWindowEnd l s
  | .saFrame l slots => Sys2Proof.Machine.execSaFrame l slots s
  | .npcmChange l level => Sys2Proof.Machine.execNpcmChange l level s
  | .npcmStable l => Sys2Proof.Machine.execNpcmStable l s
  | .formatWrite l lanes v => Sys2Proof.Machine.execFormatWrite l lanes v s
  | .streamDescriptorWrite m d lanes v => Sys2Proof.Machine.execStreamDescriptorWrite m d lanes v s
  | .fillWrite m lanes v => Sys2Proof.Machine.execFillWrite m lanes v s
  | .streamStart m lanes => Sys2Proof.Machine.execStreamStart m lanes s
  | .streamStop m lanes => Sys2Proof.Machine.execStreamStop m lanes s
  | .streamFrameInstant m => Sys2Proof.Machine.execStreamFrameInstant m s
  | .sourceWrite z lanes v => Sys2Proof.Machine.execSourceWrite z lanes v s
  | .fadeRateWrite z lanes v => Sys2Proof.Machine.execFadeRateWrite z lanes v s
  | .waitLimitWrite z lanes v => Sys2Proof.Machine.execWaitLimitWrite z lanes v s
  | .fadeTimerExpiry z => Sys2Proof.Machine.execFadeTimerExpiry z s
  | .waitTimerExpiry z => Sys2Proof.Machine.execWaitTimerExpiry z s
  | .decodeModeWrite lanes v => Sys2Proof.Machine.execDecodeModeWrite lanes v s
  | .steerSpeedWrite lanes v => Sys2Proof.Machine.execSteerSpeedWrite lanes v s
  | .steerWindowEnd => Sys2Proof.Machine.execSteerWindowEnd s
  | .speakerConfigWrite p lanes v => Sys2Proof.Machine.execSpeakerConfigWrite p lanes v s
  | .audioFrame quiet ta => Sys2Proof.Machine.execAudioFrame quiet ta s
  | .volumeWrite z lanes v => Sys2Proof.Machine.execVolumeWrite z lanes v s
  | .muteWrite z lanes v => Sys2Proof.Machine.execMuteWrite z lanes v s
  | .maxVolumeWrite z lanes v => Sys2Proof.Machine.execMaxVolumeWrite z lanes v s
  | .slewTimerExpiry => Sys2Proof.Machine.execSlewTimerExpiry s
  | .knobPinChange p level => Sys2Proof.Machine.execKnobPinChange p level s
  | .knobFilterExpiry ps => Sys2Proof.Machine.execKnobFilterExpiry ps s
  | .distWrite ch lanes v => Sys2Proof.Machine.execDistWrite ch lanes v s
  | .lipsyncWrite z lanes v => Sys2Proof.Machine.execLipsyncWrite z lanes v s
  | .moduleEnWrite m lanes v => Sys2Proof.Machine.execModuleEnWrite m lanes v s
  | .startTimerExpiry m => Sys2Proof.Machine.execStartTimerExpiry m s
  | .stopTimerExpiry m => Sys2Proof.Machine.execStopTimerExpiry m s
  | .ampfltChange m level => Sys2Proof.Machine.execAmpfltChange m level s
  | .faultLineTrip m => Sys2Proof.Machine.execFaultLineTrip m s
  | .clearTrip n lanes => Sys2Proof.Machine.execClearTrip n lanes s
  | .clockAbsence => Sys2Proof.Machine.execClockAbsence s
  | .clockProven => Sys2Proof.Machine.execClockProven s
  | .seqLenWrite lanes v => Sys2Proof.Machine.execSeqLenWrite lanes v s
  | .entryWrite n w lanes v => Sys2Proof.Machine.execEntryWrite n w lanes v s
  | .measure input divider lanes => Sys2Proof.Machine.execMeasure input divider lanes s
  | .converterTimerExpiry microvolts => Sys2Proof.Machine.execConverterTimerExpiry microvolts s
  | .feDivisorWrite lanes v => Sys2Proof.Machine.execFeDivisorWrite lanes v s
  | .divisorTakeUp => Sys2Proof.Machine.execDivisorTakeUp s
  | .frameSent => Sys2Proof.Machine.execFrameSent s
  | .characterReceived data parity stop idle => Sys2Proof.Machine.execCharacterReceived data parity stop idle s
  | .assemblerTimerExpiry => Sys2Proof.Machine.execAssemblerTimerExpiry s
  | .responseTimerExpiry => Sys2Proof.Machine.execResponseTimerExpiry s
  | .regionWrite lanes v => Sys2Proof.Machine.execRegionWrite lanes v s
  | .bandWrite lanes v => Sys2Proof.Machine.execBandWrite lanes v s
  | .codeWrite lanes v => Sys2Proof.Machine.execCodeWrite lanes v s
  | .tune lanes => Sys2Proof.Machine.execTune lanes s
  | .seekUp lanes => Sys2Proof.Machine.execSeekUp lanes s
  | .seekDown lanes => Sys2Proof.Machine.execSeekDown lanes s
  | .tunerStop lanes => Sys2Proof.Machine.execTunerStop lanes s
  | .tunerOff lanes => Sys2Proof.Machine.execTunerOff lanes s
  | .recall n lanes => Sys2Proof.Machine.execRecall n lanes s
  | .store n lanes => Sys2Proof.Machine.execStore n lanes s
  | .settleTimerExpiry => Sys2Proof.Machine.execSettleTimerExpiry s
  | .readingTimerExpiry => Sys2Proof.Machine.execReadingTimerExpiry s
  | .queryTimerExpiry => Sys2Proof.Machine.execQueryTimerExpiry s
  | .verifyTimerExpiry => Sys2Proof.Machine.execVerifyTimerExpiry s
  | .backoffTimerExpiry => Sys2Proof.Machine.execBackoffTimerExpiry s
  | .stationBlock block => Sys2Proof.Machine.execStationBlock block s
  | .gapTimerExpiry => Sys2Proof.Machine.execGapTimerExpiry s
  | .stationDataBit bit => Sys2Proof.Machine.execStationDataBit bit s

end Sys2Proof.Machine
end

