-- ==== Sys2Proof/Machine/Flags.lean ====
section
/-! DEFINITION. The output pins as views of the state: ATTNN, WAITN, AMPEN, the output links, FTX and
the clocks of TA (R12, R18, R44, R123 to R125, R155, R156, R161). -/

set_option autoImplicit false

namespace Sys2Proof.Machine

/-- ATTNN is driven low: some pending cause is enabled (R18); released while RSTN is low. -/
def attentionLow (s : State) : Bool := !s.rstnLow && (s.att.pending &&& s.att.enable != 0)

/-- WAITN is driven low: a host access is held (R12); released while RSTN is low (R2). -/
def waitLow (s : State) : Bool := !s.rstnLow && s.agent.held.isSome

/-- BCK and FCK of the tuner audio line run: from the first start of the audio blocks' timers on, except while
the master clock fails and while RSTN is low (R44; log 46). -/
def taClocksRun (s : State) : Bool := !s.rstnLow && s.audioRuns

/-- AMPEN of a module is high: STARTING or ON, and RSTN high (R125). -/
def ampEnabled (s : State) (m : AmpModule) : Bool :=
  !s.rstnLow && (((s.mods.get m).state == .starting) || ((s.mods.get m).state == .on))

/-- The links are held low: the clock state is not GOOD, or RSTN is low (R124). -/
def linksLow (s : State) : Bool := s.rstnLow || (s.clock != .good)

/-- The 32 bits of a link slot: the sample word, then eight zeros (11.8). -/
def linkSlot (x : Sample) : BitVec 32 := x ++ 0#8

/-- What a channel's link slot carries in the present frame: zeros while the links are low (R123,
R124). -/
def linkOut (s : State) (ch : Chan) : BitVec 32 := if linksLow s then 0 else linkSlot (s.links.get ch)

/-- The four channels of a module's link, slot 0 first (R123). -/
def linkSlots : AmpModule → List Chan
  | .a => [.main .fl, .main .fr, .main .c, .main .sw]
  | .b => [.main .sl, .main .sr, .main .bl, .main .br]
  | .c => [.main .tl, .main .tr, .zl, .zr]

/-- The level of FTX in a bit time, counted from the start bit of the frame at the head of the transmit
queue: high while the queue is empty and while RSTN is low (R155, R156, R161; log 47). -/
def ftxLevel (s : State) (bitTime : Nat) : Bool :=
  if s.rstnLow then true
  else
    match s.fe.txFrames with
    | [] => true
    | frame :: _ => (frameLevels frame).getD bitTime true

end Sys2Proof.Machine
end

