-- ==== Sys2Proof/Safety.lean ====
section
/-! DEFINITION. What a safe run is, in the terms claims use: the invariants of the part, what a step may
mark, what the steps of the zone switch make of the state, where the slots and the records lie and what they hold,
what the audio blocks' start and a station block make of the state, and what a host write that passes the filter
changes apart from its owner. -/

set_option autoImplicit false

namespace Sys2Proof

open Sys2Proof.Machine

/-! ### Invariants -/

/-- A step from a state answers a next state. -/
def StepsOn (s : State) : Prop := ∃ t, step s = .next t

/-- Memory is in its canonical form. -/
def MemoryCanonical (s : State) : Prop := s.mem.wf = true

/-- The write-back queue holds each slot at most once, and only slots that take write-backs (R10). -/
def WriteBackQueueLaw (s : State) : Prop :=
  s.agent.queue.Nodup ∧ ∀ sl ∈ s.agent.queue, sl.takesWriteBack = true

/-- The marks stand in the order of their records' offsets, each record's once (R14, R16). -/
def MarksInOrder (s : State) : Prop := s.dirty.Pairwise fun a b => a.offset < b.offset

/-- While a module is in any state other than ON, the applied gain of each of its channels is -320
(R125). -/
def ModulesSilent (s : State) : Prop :=
  ∀ ch, (s.mods.get (chanModule ch)).state ≠ .on → (s.gain.chans.get ch).applied = gainFloor

/-- A module is in STARTING or ON only while the self-check result is PASS and the clock is good
(R125). -/
def ModulesPowered (s : State) : Prop :=
  ∀ m, (s.mods.get m).state = .starting ∨ (s.mods.get m).state = .on →
    s.meas.result = .pass ∧ s.clock = .good

/-- A wind-down order stands only for a module that is ON (R128). -/
def OrdersOnlyWhileOn (s : State) : Prop := ∀ m, (s.mods.get m).order = true → (s.mods.get m).state = .on

/-- The two zones' active totals fit the pool together, and each line holds exactly as many words as
its active length (R111, R118). -/
def PoolLaw (p : Pool) : Prop :=
  p.active.total .z1 + p.active.total .z2 ≤ poolWords
    ∧ ∀ ch, (p.lines.get ch).length = p.active.len.get ch

/-- The AF list holds at most 12 codes, no code twice, and never the CODE slot's (R187). -/
def AfListLaw (s : State) : Prop :=
  s.sd.af.length ≤ afLimit ∧ s.sd.af.Nodup ∧ s.tun.code ∉ s.sd.af

/-- What a zone's state says of its gate, its fade and its sources (R50, R51). -/
structure ZoneLaw (r : ZoneRec) : Prop where
  gate : r.gateOpen = true ↔ r.state ≠ .silent ∧ r.state ≠ .waiting
  closed : r.state = .silent ∨ r.state = .waiting → r.fade = gainFloor
  playing : r.state = .playing → r.fade = 0
  range : gainFloor ≤ r.fade ∧ r.fade ≤ 0
  silent : r.state = .silent ↔ r.connected = none
  pending : r.state ≠ .fadingOut → r.pending = r.connected
  flag : r.noSignal = true → r.state = .waiting

/-- Both zones keep their law. -/
def ZonesLaw (s : State) : Prop := ∀ z, ZoneLaw (s.zones.get z)

/-- Each zone's wait limit lies in its slot's range (R47, R59). -/
def WaitLimitsInRange (s : State) : Prop :=
  ∀ z, 500 ≤ (s.zones.get z).waitLimit ∧ (s.zones.get z).waitLimit ≤ 10000

/-- Every applied gain lies from -320 to +32 (R95). -/
def GainsInRange (s : State) : Prop :=
  ∀ ch, gainFloor ≤ (s.gain.chans.get ch).applied ∧ (s.gain.chans.get ch).applied ≤ gainCeiling

/-! ### Marks (R16) -/

/-- After a step a record is marked exactly when it was marked before, is one of those the step marks
whatever its content, or is no stream record and has changed its content. -/
def MarksExactly (always : List Rec) (s t : State) : Prop :=
  ∀ r, r ∈ t.dirty ↔ r ∈ s.dirty ∨ r ∈ always ∨ (r.isStream = false ∧ recWords s r ≠ recWords t r)

/-- After a step every mark that stood stands, each record of `always` is marked, and a record whose content the
step has changed is marked, the stream records apart (R16, R18); beside these only records of `perhaps` are
newly marked, which the step's course may mark with their content as it was. -/
structure MarksBetween (always perhaps : List Rec) (s t : State) : Prop where
  least : ∀ r, (r ∈ s.dirty ∨ r ∈ always ∨ (r.isStream = false ∧ recWords s r ≠ recWords t r)) → r ∈ t.dirty
  most : ∀ r ∈ t.dirty,
    r ∈ s.dirty ∨ r ∈ always ∨ r ∈ perhaps ∨ (r.isStream = false ∧ recWords s r ≠ recWords t r)

/-- The records that a zone's moves and its applied changes may mark without changing them (R59, R77, R118). -/
def pathRecords : List Rec := [.zone .z1, .zone .z2, .delay]

/-- The record that a change of a source's carrying status from `was` to `now` marks (R26). -/
def carryingMarks (src : Source) (was now : Bool) : List Rec := if was = now then [] else [.source src]

/-- The records that a change of carrying status may mark besides, by the zones that it moves while the audio
blocks run (R48, R57, R58). -/
def pathMarks (was now : Bool) (s : State) : List Rec :=
  if was ≠ now ∧ s.audioRuns = true then pathRecords else []

/-! ### Where the slots and the records lie (R192, R194) -/

/-- Slots stand at consecutive words from an offset, in the order named. -/
def StandFrom (off : Nat) (sls : List Slot) : Prop := ∀ i sl, sls[i]? = some sl → sl.offset = off + 2 * i

/-- The table of the control region (R192): every slot at its offset, each word that no slot has unassigned, and
the kinds and marks of the columns. -/
structure SlotTable : Prop where
  system : StandFrom 0x0000 [.systemCmd, .attnEnable, .attnAck, .setupLock, .knobZone, .knobStep]
  zone : ∀ z off, (z, off) ∈ [(Zone.z1, 0x0020), (.z2, 0x0040)] →
    StandFrom off [.source z, .volume z, .mute z, .fadeRate z, .waitLimit z, .lipsync z]
  decode : StandFrom 0x002C [.decodeMode, .steerSpeed]
  format : StandFrom 0x0060 [.format .sa1, .format .sa2, .format .sa3, .format .sa4]
  srcTrim : StandFrom 0x0070
    [.srcTrim (.sa .sa1), .srcTrim (.sa .sa2), .srcTrim (.sa .sa3), .srcTrim (.sa .sa4), .srcTrim (.ms .ms1),
      .srcTrim (.ms .ms2), .srcTrim .tuner]
  stream : ∀ m off, (m, off) ∈ [(StreamId.ms1, 0x0080), (.ms2, 0x00A0)] →
    StandFrom off [.desc m .baseLo, .desc m .baseHi, .desc m .size, .desc m .channels, .desc m .width,
      .desc m .rate, .fill m, .streamCmd m]
  speaker : StandFrom 0x00C0 [.speaker .frontSize, .speaker .center, .speaker .surround, .speaker .back,
    .speaker .top, .speaker .sub, .speaker .crossover]
  maxVolume : StandFrom 0x00D0 [.maxVolume .z1, .maxVolume .z2]
  moduleEn : StandFrom 0x00D8 [.moduleEn .a, .moduleEn .b, .moduleEn .c]
  trim : StandFrom 0x00E0
    [.trim (.main .fl), .trim (.main .fr), .trim (.main .c), .trim (.main .sw), .trim (.main .sl),
      .trim (.main .sr), .trim (.main .bl), .trim (.main .br), .trim (.main .tl), .trim (.main .tr), .trim .zl,
      .trim .zr]
  dist : StandFrom 0x0100 [.dist .fl, .dist .fr, .dist .c, .dist .sw, .dist .sl, .dist .sr, .dist .bl, .dist .br,
    .dist .tl, .dist .tr]
  moduleCmd : StandFrom 0x0120 [.moduleCmd]
  measure : StandFrom 0x0140 [.seqLen, .measureCmd]
  entry : ∀ n : Fin 16, StandFrom (0x0160 + 8 * n.val) [.entry n 0, .entry n 1, .entry n 2, .entry n 3]
  tuner : StandFrom 0x0200
    [.region, .band, .code, .tunerCmd, .seekThr, .blendThr, .afThr, .afFollow, .feDivisor]
  found : ∀ off sl, slotAt off = some sl ↔ sl.offset = off
  lockable : ∀ sl : Slot, sl.isLockable = true ↔
    (∃ p, sl = .speaker p) ∨ (∃ z, sl = .maxVolume z) ∨ (∃ m, sl = .moduleEn m) ∨ sl = .seqLen ∨ ∃ n k, sl = .entry n k
  command : ∀ sl : Slot, sl.isCommand = true ↔
    sl ∈ [Slot.systemCmd, .streamCmd .ms1, .streamCmd .ms2, .moduleCmd, .measureCmd, .tunerCmd]
  audio : ∀ sl : Slot, sl.isAudio = true ↔
    (0x0020 ≤ sl.offset ∧ sl.offset ≤ 0x00AE) ∨ (0x00E0 ≤ sl.offset ∧ sl.offset ≤ 0x0112)
  writeBack : ∀ sl : Slot, sl.takesWriteBack = true ↔
    sl ∈ [Slot.systemCmd, .attnAck, .setupLock, .volume .z1, .volume .z2, .mute .z1, .mute .z2, .streamCmd .ms1,
      .streamCmd .ms2, .speaker .frontSize, .speaker .back, .moduleCmd, .measureCmd, .band, .code, .tunerCmd]

/-- The table of the report area (R194): every record at its offset, the records of the partial restore pass
(R22) and the decoder's five (R189). -/
structure RecordTable : Prop where
  order : ∀ i r,
    [Rec.device, .attention, .zone .z1, .zone .z2, .source (.sa .sa1), .source (.sa .sa2), .source (.sa .sa3),
      .source (.sa .sa4), .source (.ms .ms1), .source (.ms .ms2), .source .tuner, .stream .ms1, .stream .ms2,
      .meter (.main .fl), .meter (.main .fr), .meter (.main .c), .meter (.main .sw), .meter (.main .sl),
      .meter (.main .sr), .meter (.main .bl), .meter (.main .br), .meter (.main .tl), .meter (.main .tr),
      .meter .zl, .meter .zr, .module .a, .module .b, .module .c, .entries, .onDemand, .tuner, .summary, .name,
      .text1, .text2, .af, .delay][i]? = some r → r.offset = 0x0400 + 0x20 * i
  audio : ∀ r : Rec, r.isAudio = true ↔
    (∃ z, r = .zone z) ∨ (∃ src, r = .source src) ∨ (∃ m, r = .stream m) ∨ (∃ ch, r = .meter ch) ∨ r = .delay
  station : ∀ r : Rec, r.isStation = true ↔ r ∈ [Rec.summary, .name, .text1, .text2, .af]

/-! ### What the records hold (R190, R193, R194) -/

/-- A name's code: its place in the list that R193 gives, counted from 0. -/
def placeIn {α : Type} [DecidableEq α] (names : List α) (x : α) : Nat := names.idxOf x

/-- The flags that are set, each at its bit. -/
def flagBits (fs : List (Bool × Nat)) : Nat := (fs.map fun f => if f.1 then 2 ^ f.2 else 0).sum

/-- The sources in the order of their codes (R47, R193). -/
def sourceNames : List (Option Source) :=
  [none, some (.sa .sa1), some (.sa .sa2), some (.sa .sa3), some (.sa .sa4), some (.ms .ms1), some (.ms .ms2),
    some .tuner]

/-- The stream states in the order of their codes (R193). -/
def streamNames : List StreamState := [.stopped, .priming, .running, .starved]

/-- The words of the report records, each field at its word and bits with its code (section 11.4): `num`
is an unsigned word and `lev` a level word (R190); a field that is not held reads as 0. -/
structure RecordsHold (s : State) (num : Nat → Word) (lev : Int → Word) : Prop where
  device : recWords s .device =
    [0x4410#16, 0x0001#16, num (flagBits [(s.strap.2, 0), (s.strap.1, 1)]),
      num (placeIn [.running, .pass, .fail] s.meas.result), num (placeIn [.unproven, .good, .failed] s.clock),
      num (placeIn [.unlocked, .locked, .pending] s.lock)]
  attention : recWords s .attention =
    [s.att.pending, s.att.blockOffset,
      num (placeIn [.none, .partialWrite, .partOwned, .locked, .state, .value] s.att.blockReason)]
  zone : ∀ z, let r := s.zones.get z
    recWords s (.zone z) =
      [num (placeIn [.silent, .fadingOut, .waiting, .fadingIn, .playing, .reconfiguring] r.state
          + flagBits [(r.gateOpen, 4), (r.noSignal, 5), (r.held.decode, 8), (r.held.speakers, 9), (r.held.delay, 10)]),
        num (placeIn sourceNames r.connected + 0x100 * placeIn sourceNames r.pending),
        lev r.fade, num r.fadeRate, num r.waitLimit, lev (s.gain.zones.get z).volume,
        num (flagBits [((s.gain.zones.get z).mute, 0)]), lev (s.gain.zones.get z).maxVolume,
        num (s.pool.lipsync.get z), num (s.pool.active.grant.get z / 48),
        if z = .z1 then num (placeIn [.direct, .matrix, .stereo] s.dec.active) else 0,
        if z = .z1 then num (placeIn [.fast, .normal, .slow] s.dec.speed) else 0]
  line : ∀ l, let x := s.sa.get l
    recWords s (.source (.sa l)) =
      [num (flagBits [(x.carries, 0)] + 0x10 * placeIn [.noClock, .measuring, .locked, .unsupported] x.lock),
        num (placeIn [none, some .k32, some .k44, some .k48, some .k88, some .k96] x.lockedClass),
        num (placeIn [.stereo, .tdm8] x.format), num (flagBits [(x.npcmTaken, 0)])]
  stream : ∀ m, let x := s.ms.get m
    recWords s (.source (.ms m)) =
        [num (if x.state = .running then 1 else 0), num (placeIn streamNames x.state), 0, 0]
      ∧ recWords s (.stream m) =
        [num (placeIn streamNames x.state), num x.drain, num x.buffer.length, num x.starvations]
  radio : recWords s (.source .tuner) =
    [num (if s.tun.state ∈ [.listening, .verifying] then 1 else 0), num (if s.tun.stereo then 0 else 1), 0, 0]
  meter : ∀ ch, let c := s.gain.chans.get ch
    recWords s (.meter ch) = [lev c.closedPeak, num (flagBits [(c.closedClip, 0)])]
  module : ∀ m, let r := s.mods.get m
    let naming := (List.range s.meas.entries.length).filter fun n => (s.meas.entry n).module = some m
    recWords s (.module m) =
      [num (placeIn [.off, .starting, .on, .stopping, .tripped] r.state + flagBits [(r.enable, 4), (r.order, 5)]),
        num (placeIn [.none, .faultLine, .measure, .clock] r.cause + 0x100 * r.tripEntry), lev r.derate]
      ++ (List.range 8).map fun k =>
        match naming[k]? with
        | none => 0
        | some n => num (0x1000 * n + flagBits [(true, 11), ((s.meas.entry n).code.isSome, 10)]
            + (s.meas.entry n).code.getD 0)
  entries : recWords s .entries = (List.range 16).map fun n =>
    num (flagBits [((s.meas.entry n).code.isSome, 15), ((s.meas.entry n).violation, 14)]
      + (s.meas.entry n).code.getD 0)
  onDemand : recWords s .onDemand =
    [num ((List.range 3).map fun k => 4 ^ k * match s.meas.queue[k]? with
          | none => 0
          | some (.tuner _) => 1
          | some .host => 2
          | some (.selfCheck _) => 3).sum,
      num (placeIn [.none, .waiting, .converting, .done] s.meas.hostStatus), num s.meas.hostInput,
      num s.meas.hostDivider, num s.meas.hostCode, num s.meas.hostCount, num s.meas.refCode, num s.meas.halfRefCode]
  tuner : recWords s .tuner =
    [num (placeIn [.off, .tuning, .settling, .listening, .seeking, .probing, .verifying, .fault] s.tun.state
        + flagBits [(s.tun.tunedBand = .am, 4), (s.tun.stereo, 5), (s.tun.pilot, 6), (s.tun.backoff, 7),
          (s.tun.expected.isSome, 8)]),
      num s.tun.tunedCode, num s.tun.lastRssi, s.tun.expected.getD 0,
      match s.tun.transfer with
      | .none => 0
      | .recalling n _ => num (0x4000 + n)
      | .storing n _ _ => num (0x8000 + n),
      num (placeIn [.none, .tuned, .seekFound, .seekNone, .seekStopped, .recalled, .stored, .afSwitched,
        .afReturned, .afStayed, .invalid, .feFault] s.tun.outcome),
      num s.tun.outcomeCount]
  summary : let c := s.sd.confirmed
    recWords s .summary =
      [num (placeIn [.idle, .search, .acquiring, .synced] s.sd.sync
          + flagBits [(c.code.isSome, 4), (c.category.isSome, 5), (s.sd.traffic, 6), (s.sd.speech, 7),
            (s.sd.toggleRef.isSome, 8), (s.sd.toggleRef.getD false, 9), (c.names.all Option.isSome, 10)]),
        c.code.getD 0, num (c.category.getD 0), num (flagBits (c.names.mapIdx fun i x => (x.isSome, i))),
        num (flagBits (c.texts.mapIdx fun i x => (x.isSome, i)))]
  name : recWords s .name = s.sd.confirmed.names.map fun x => x.getD 0
  text : ∀ i x, s.sd.confirmed.texts[i]? = some x → i < 12 →
    let held := if i < 6 then recWords s .text1 else recWords s .text2
    held[2 * (i % 6)]? = some (x.getD (0, 0)).1 ∧ held[2 * (i % 6) + 1]? = some (x.getD (0, 0)).2
  af : s.sd.af.length ≤ 12 →
    recWords s .af = num s.sd.af.length :: (List.range 12).map fun i => num (s.sd.af.getD i 0)
  delay : recWords s .delay =
    [.main .fl, .main .fr, .main .c, .main .sw, .main .sl, .main .sr, .main .bl, .main .br, .main .tl, .main .tr,
        .zl, .zr].map (fun ch => num (s.pool.active.len.get ch))
      ++ [num s.pool.staged.grant.z1, num s.pool.staged.grant.z2,
        num (placeIn [.settled, .requested, .waitingRoom] s.pool.alloc.z1
          + 0x10 * placeIn [.settled, .requested, .waitingRoom] s.pool.alloc.z2)]

/-- The owner's value of each state slot as a word (R11, R190, R192): `num` is an unsigned word and `lev` a level
word; a slot whose changes the owner stages has its staged value (R67, R79), and a SOURCE slot the kept arrival
of a stop of the audio blocks, else the pending source, which outside FADING_OUT is the connected one (R47,
R65). A command slot has its latest outcome (R9). -/
structure SlotsHold (s : State) (num : Nat → Word) (lev : Int → Word) : Prop where
  system : slotValue s .attnEnable = s.att.enable ∧ slotValue s .attnAck = 0
    ∧ slotValue s .setupLock = num (placeIn [.unlocked, .locked, .pending] s.lock)
    ∧ slotValue s .knobZone = num (if s.knob.zone = .z1 then 1 else 2) ∧ slotValue s .knobStep = num s.knob.step
  zone : ∀ z, let r := s.zones.get z
    let g := s.gain.zones.get z
    slotValue s (.source z) = num (placeIn sourceNames (r.kept.getD r.pending))
      ∧ slotValue s (.volume z) = lev g.volume ∧ slotValue s (.mute z) = num (if g.mute = true then 1 else 0)
      ∧ slotValue s (.fadeRate z) = num r.fadeRate ∧ slotValue s (.waitLimit z) = num r.waitLimit
      ∧ slotValue s (.lipsync z) = num (s.pool.lipsync.get z) ∧ slotValue s (.maxVolume z) = lev g.maxVolume
  decode : slotValue s .decodeMode = num (placeIn [.direct, .matrix, .stereo] s.dec.staged)
    ∧ slotValue s .steerSpeed = num (placeIn [.fast, .normal, .slow] s.dec.speed)
  inputs : (∀ l, slotValue s (.format l) = num (placeIn [.stereo, .tdm8] (s.sa.get l).format))
    ∧ ∀ src, slotValue s (.srcTrim src) = lev (s.gain.srcTrims.get src)
  stream : ∀ m, let x := s.ms.get m
    slotValue s (.desc m .baseLo) = x.baseLo ∧ slotValue s (.desc m .baseHi) = x.baseHi
      ∧ slotValue s (.desc m .size) = num x.size ∧ slotValue s (.desc m .channels) = num x.channels
      ∧ slotValue s (.desc m .width) = num x.width ∧ slotValue s (.desc m .rate) = num x.rate
      ∧ slotValue s (.fill m) = num x.fill
  speaker : let c := s.bass.staged
    let size := placeIn [SpeakerSize.large, .small, .absent]
    slotValue s (.speaker .frontSize) = num (if c.front = .large then 0 else 1)
      ∧ slotValue s (.speaker .center) = num (size c.center)
      ∧ slotValue s (.speaker .surround) = num (size c.surround)
      ∧ slotValue s (.speaker .back) = num (size c.back) ∧ slotValue s (.speaker .top) = num (size c.top)
      ∧ slotValue s (.speaker .sub) = num (if c.subPresent = true then 0 else 1)
      ∧ slotValue s (.speaker .crossover) = num c.crossover
  channels : (∀ ch, slotValue s (.trim ch) = lev (s.gain.trims.get ch))
    ∧ ∀ ch, slotValue s (.dist ch) = num (s.pool.dist.get ch)
  modules : ∀ m, slotValue s (.moduleEn m) = num (if (s.mods.get m).enable = true then 1 else 0)
  measure : slotValue s .seqLen = num s.meas.seqLen
    ∧ ∀ n : Fin 16, let e := s.meas.entry n.val
      slotValue s (.entry n 0) = e.w0 ∧ slotValue s (.entry n 1) = e.w1 ∧ slotValue s (.entry n 2) = e.w2
        ∧ slotValue s (.entry n 3) = e.w3
  tuner : let x := s.tun
    slotValue s .region = num (if x.region = .a then 0 else 1) ∧ slotValue s .band = num (if x.band = .fm then 0 else 1)
      ∧ slotValue s .code = num x.code ∧ slotValue s .seekThr = num x.seekThr
      ∧ slotValue s .blendThr = num x.blendThr ∧ slotValue s .afThr = num x.afThr
      ∧ slotValue s .afFollow = num (if x.afFollow = true then 1 else 0)
      ∧ slotValue s .feDivisor = num s.fe.divisorSetting
  outcomes : ∀ a w, (a, w) ∈ [(Answer.taken, 0x0000#16), (.busy, 0x8001#16), (.range, 0x8002#16),
      (.notAllowed, 0x8003#16), (.invalid, 0x8004#16)] →
    (s.answers.system = a → slotValue s .systemCmd = w)
      ∧ (∀ m, s.answers.stream.get m = a → slotValue s (.streamCmd m) = w)
      ∧ (s.answers.module = a → slotValue s .moduleCmd = w)
      ∧ (s.answers.measure = a → slotValue s .measureCmd = w)
      ∧ (s.answers.tuner = a → slotValue s .tunerCmd = w)

/-- The reset values of the control region's table (R141, R192). -/
def resetWord : Slot → Word
  | .setupLock | .knobZone => 1
  | .knobStep | .desc _ .channels | .desc _ .rate | .speaker .crossover => 2
  | .volume _ => BitVec.ofInt 16 (-120)
  | .fadeRate _ => 4
  | .waitLimit _ => 3000
  | .steerSpeed | .speaker .frontSize | .speaker .center | .speaker .surround | .moduleEn _ | .afFollow => 1
  | .desc _ .size => 64
  | .desc _ .width => 16
  | .speaker .back | .speaker .top => 2
  | .dist _ => 300
  | .seqLen => 12
  | .entry n 0 =>
    if n < 3 then 0x0100 + BitVec.ofNat 16 n.val else if n < 12 then 0x0100 + BitVec.ofNat 16 (n.val - 3) else 0x010A
  | .entry n 1 => if 6 ≤ n ∧ n ≤ 8 then 300 else 0
  | .entry n 2 => if n < 3 then 640 else if n < 6 then 760 else if n < 9 then 900 else if n < 12 then 850 else 1023
  | .entry n 3 =>
    let named := BitVec.ofNat 16 (0x10 * (n.val % 3 + 1))
    if n < 3 then 0x0201 + named else if n < 6 then 0x0202 + named else if n < 9 then 0x0402 + named
    else if n < 12 then 0x0102 + named else 0x0100
  | .seekThr => 420
  | .blendThr => 360
  | .afThr => 300
  | .feDivisor => 40
  | _ => 0

/-- A host read within the memory fitted has gone at a free port (R1, R12): the port is the host's, each enabled lane
returns its byte of memory and both together the word, and with a lane disabled only the counter of free values has
moved besides (log 64). -/
structure HostReads (a : HostAccess) (s t : State) : Prop where
  rest : t = { s with readData := t.readData, free := t.free, agent := { s.agent with port := .host } }
  low : a.lanes.lo = true → t.readData.extractLsb' 0 8 = s.mem.read (accessAddr a)
  high : a.lanes.hi = true → t.readData.extractLsb' 8 8 = s.mem.read (accessAddr a + 1)
  both : a.lanes = .full → t.readData = s.mem.readWord (accessAddr a) ∧ t.free = s.free

/-! ### The part's own commands -/

/-- RSTN is high and the audio blocks run (R135). -/
def AudioRuns (s : State) : Prop := s.rstnLow = false ∧ s.audioRuns = true

/-- RSTN is high, the audio blocks run, and no partial restore pass stops the zone, slew and steering
timers (R64, R72, R94). -/
def AudioTimersRun (s : State) : Prop := s.rstnLow = false ∧ s.restartTimersRun = true

/-- A command of the part's own that changes the state into `u` leaves `u` with its marks, and every
byte of memory as it was. -/
structure OwnStep (always : List Rec) (s u t : State) : Prop where
  rest : t = { u with dirty := t.dirty }
  marks : MarksExactly always s t
  bytes : ∀ a, t.mem.read a = s.mem.read a

/-- The gain stage with some channels set to -320 at once (R95). -/
def flooredChans (p : Chan → Bool) (g : Gain) : Gain :=
  { g with
    chans := .ofFn fun ch => if p ch then { g.chans.get ch with applied := gainFloor } else g.chans.get ch }

/-- The gain stage with a module's four channels set to -320 at once (R95). -/
def flooredModule (m : AmpModule) (g : Gain) : Gain := flooredChans (fun ch => chanModule ch == m) g

/-- The gain stage with a zone's channels set to -320 at once (R49, R95). -/
def flooredZone (z : Zone) (g : Gain) : Gain := flooredChans (fun ch => chanZone ch == z) g

/-! ### The steps of the zone switch

Each relation below fixes everything but the marks, which the statements say apart. -/

/-- The modules after gains have reached `t`: one that is ON under a wind-down order and whose four
channels all stand at -320 goes to STOPPING, its order done; every other is as it was (R93, R128). -/
def WindDowns (s t : State) : Prop :=
  ∀ m,
    let r := s.mods.get m
    let due := r.order = true ∧ r.state = .on
      ∧ ∀ ch, chanModule ch = m → (t.gain.chans.get ch).applied = gainFloor
    (due → t.mods.get m = { r with state := .stopping, order := false }) ∧ (¬due → t.mods.get m = r)

/-- A zone's gate closes: its record reads CLOSED, its channels stand at -320 at once (R49, R95), and the modules
that have wound down by it stop (R93). -/
structure GateClosed (z : Zone) (s t : State) : Prop where
  rest : t = { s with
    zones := s.zones.set z { s.zones.get z with gateOpen := false },
    gain := flooredZone z s.gain, mods := t.mods, dirty := t.dirty }
  mods : WindDowns s t

/-- One zone's record is changed, and beside the marks nothing else. -/
def ZoneMoved (z : Zone) (f : ZoneRec → ZoneRec) (s t : State) : Prop :=
  t = { s with zones := s.zones.set z (f (s.zones.get z)), dirty := t.dirty }

/-- A zone's record as it enters FADING_IN with F = -320 (R53, R58, R61; its waiting time by log 65). -/
def fadedIn (r : ZoneRec) : ZoneRec :=
  { r with state := .fadingIn, fade := gainFloor, gateOpen := true, waited := 0, noSignal := false }

/-- A zone's record as it enters WAITING on a new stay (R57, R59). -/
def waitsAnew (r : ZoneRec) : ZoneRec :=
  { r with state := .waiting, fade := gainFloor, waited := 0, noSignal := false }

/-- A zone's record after the connection step, by the carrying view (R53; the waiting time of a stay that ends by
log 65). -/
def connectedTo (view : PerSource Bool) (src : Option Source) (r : ZoneRec) : ZoneRec :=
  let r' := { r with connected := src, pending := src }
  match src with
  | none => { r' with state := .silent, fade := gainFloor, waited := 0, noSignal := false }
  | some x => if view.get x = true then fadedIn r' else waitsAnew r'

/-- What a DELAY apply notice of a zone makes of the pool before the examination (R118, steps 1 to 4): where the
room test passes, the zone's staged lengths and grant are active and its lines are zeros at the new lengths; else
they stay and the lines are cleared. The other zone keeps its lines. -/
structure DelayTaken (z : Zone) (p q : Pool) : Prop where
  rest : q = { p with active := q.active, alloc := p.alloc.set z .settled, lines := q.lines }
  other : ∀ ch, chanZone ch ≠ z →
    q.active.len.get ch = p.active.len.get ch ∧ q.lines.get ch = p.lines.get ch
  otherGrant : q.active.grant.get (otherZone z) = p.active.grant.get (otherZone z)
  room : p.staged.total z + p.active.total (otherZone z) ≤ 65536 →
    q.active.grant.get z = p.staged.grant.get z
      ∧ ∀ ch, chanZone ch = z → q.active.len.get ch = p.staged.len.get ch
        ∧ q.lines.get ch = List.replicate (p.staged.len.get ch) 0
  noRoom : 65536 < p.staged.total z + p.active.total (otherZone z) →
    q.active.grant.get z = p.active.grant.get z
      ∧ ∀ ch, chanZone ch = z → q.active.len.get ch = p.active.len.get ch
        ∧ q.lines.get ch = List.replicate (p.active.len.get ch) 0

/-- The apply notices of a zone's held changes, which empty its set (R61): the decoder takes its staged mode with
window, envelopes and terms anew (R77; the channel set of NONE by log 18), the bass manager its staged
configuration with its filters at zero (R83), and the delay pool acts as `DelayTaken` says; the block of a kind
that is not held keeps what it has. -/
structure ChangesApplied (z : Zone) (s t : State) : Prop where
  rest : t = { s with
    zones := s.zones.set z { s.zones.get z with held := .empty },
    dec := t.dec, bass := t.bass, pool := t.pool, dirty := t.dirty }
  decode : (s.zones.get z).held.decode = true →
    t.dec = { s.dec with
      active := s.dec.staged, sums := .zero, frames := 0, env := .zero,
      stagedTerms := termSet s.dec.staged (zoneSet s .z1) .zero,
      activeTerms := termSet s.dec.staged (zoneSet s .z1) .zero }
  noDecode : (s.zones.get z).held.decode = false → t.dec = s.dec
  speakers : (s.zones.get z).held.speakers = true →
    t.bass = { s.bass with active := s.bass.staged, filters := .all .zero }
  noSpeakers : (s.zones.get z).held.speakers = false → t.bass = s.bass
  delay : (s.zones.get z).held.delay = true → DelayTaken z s.pool t.pool
  noDelay : (s.zones.get z).held.delay = false → t.pool = s.pool

/-- A zone that is WAITING or SILENT while the audio blocks run, which applies a change at once (R60). -/
def AppliesAtOnce (s : State) (z : Zone) : Prop :=
  s.audioRuns = true ∧ (s.zones.get z).state ∈ [ZoneState.waiting, .silent]

/-- The room test of a zone as the examination of both finds it (R117): at the end of it, or, for zone 1, which is
examined first, at its start. -/
def RoomFound (s t : State) (z : Zone) : Prop :=
  t.pool.hasRoom z = true ∨ (z = .z1 ∧ s.pool.hasRoom .z1 = true)

/-- A zone keeps its active lengths, its grant and the words of its lines. -/
def LinesKept (z : Zone) (p q : Pool) : Prop :=
  q.active.grant.get z = p.active.grant.get z
    ∧ ∀ ch, chanZone ch = z → q.active.len.get ch = p.active.len.get ch ∧ q.lines.get ch = p.lines.get ch

/-- The delay pool has examined both zones, again after each change applied at once (R117, R118): a zone in
REQUESTED stays so; one whose sets agree is SETTLED; one that differs without room is WAITING_ROOM; one that
differs with room asks for a DELAY change, which a WAITING or SILENT zone takes at once, its lines zeros, and any
other zone holds, as it reconfigures from PLAYING or FADING_IN (R60). -/
structure Examined (s t : State) : Prop where
  rest : t = { s with
    zones := t.zones, dirty := t.dirty,
    pool := { s.pool with active := t.pool.active, alloc := t.pool.alloc, lines := t.pool.lines } }
  asked : ∀ z, s.pool.alloc.get z = .requested →
    t.pool.alloc.get z = .requested ∧ t.zones.get z = s.zones.get z ∧ LinesKept z s.pool t.pool
  same : ∀ z, s.pool.alloc.get z ≠ .requested → s.pool.sameSet z = true →
    t.pool.alloc.get z = .settled ∧ t.zones.get z = s.zones.get z ∧ LinesKept z s.pool t.pool
  noRoom : ∀ z, s.pool.alloc.get z ≠ .requested → s.pool.sameSet z = false → ¬RoomFound s t z →
    t.pool.alloc.get z = .waitingRoom ∧ t.zones.get z = s.zones.get z ∧ LinesKept z s.pool t.pool
  request : ∀ z, s.pool.alloc.get z ≠ .requested → s.pool.sameSet z = false → RoomFound s t z →
    ¬AppliesAtOnce s z →
    t.pool.alloc.get z = .requested ∧ LinesKept z s.pool t.pool
      ∧ t.zones.get z = { s.zones.get z with
          held := { (s.zones.get z).held with delay := true }
          state := if s.audioRuns = true ∧ (s.zones.get z).state ∈ [ZoneState.playing, .fadingIn]
            then .reconfiguring else (s.zones.get z).state }
  atOnce : ∀ z, s.pool.alloc.get z ≠ .requested → s.pool.sameSet z = false → RoomFound s t z →
    AppliesAtOnce s z →
    t.pool.alloc.get z = .settled ∧ t.zones.get z = s.zones.get z
      ∧ t.pool.active.grant.get z = s.pool.staged.grant.get z
      ∧ ∀ ch, chanZone ch = z → t.pool.active.len.get ch = s.pool.staged.len.get ch
        ∧ t.pool.lines.get ch = List.replicate (s.pool.staged.len.get ch) 0

/-- After a zone's step the pool examines both zones if the step has sent a DELAY apply notice (R118; log 19);
beside that and the marks nothing changes. -/
def ExaminedFor (held : HeldChanges) (s t : State) : Prop :=
  (held.delay = true → Examined s t) ∧ (held.delay = false → t = { s with dirty := t.dirty })

/-- A fade-out ends (R55): the gate closes, the held changes are applied, the pending source is connected, and
the pool examines the zones if it had a notice. -/
def FadeEnded (z : Zone) (s t : State) : Prop :=
  ∃ a b c, GateClosed z s a ∧ ChangesApplied z a b
    ∧ ZoneMoved z (connectedTo s.view (s.zones.get z).pending) b c ∧ ExaminedFor (s.zones.get z).held c t

/-- A reconfiguring fade ends (R61): the gate closes, the held changes are applied and the zone fades in again. -/
def ReconfiguringEnded (z : Zone) (s t : State) : Prop :=
  ∃ a b c, GateClosed z s a ∧ ChangesApplied z a b ∧ ZoneMoved z fadedIn b c
    ∧ ExaminedFor (s.zones.get z).held c t

/-- A zone's connected source has stopped carrying (R57): from PLAYING and FADING_IN the gate closes and the zone
waits; a fade-out ends at once; a reconfiguring fade ends with its held changes applied and the zone waits. -/
structure ZoneLost (z : Zone) (s t : State) : Prop where
  closed : (s.zones.get z).state ∈ [ZoneState.waiting, .silent] → t = { s with dirty := t.dirty }
  played : (s.zones.get z).state ∈ [ZoneState.playing, .fadingIn] →
    ∃ a, GateClosed z s a ∧ ZoneMoved z waitsAnew a t
  faded : (s.zones.get z).state = .fadingOut → FadeEnded z s t
  reconfigured : (s.zones.get z).state = .reconfiguring →
    ∃ a b c, GateClosed z s a ∧ ChangesApplied z a b ∧ ZoneMoved z waitsAnew b c
      ∧ ExaminedFor (s.zones.get z).held c t

/-- A zone takes the loss of a source: it acts if the source is the connected one (R48, R57). -/
def LossTaken (src : Source) (z : Zone) (s t : State) : Prop :=
  ((s.zones.get z).connected = some src → ZoneLost z s t)
    ∧ ((s.zones.get z).connected ≠ some src → t = { s with dirty := t.dirty })

/-- A SOURCE value acts on a zone by its state (R51 to R53). -/
structure SourceTaken (z : Zone) (src : Option Source) (s t : State) : Prop where
  same : (s.zones.get z).state ∈ [ZoneState.playing, .fadingIn, .reconfiguring] →
    src = (s.zones.get z).connected → t = { s with dirty := t.dirty }
  other : (s.zones.get z).state ∈ [ZoneState.playing, .fadingIn, .reconfiguring] →
    src ≠ (s.zones.get z).connected → ZoneMoved z (fun r => { r with pending := src, state := .fadingOut }) s t
  fading : (s.zones.get z).state = .fadingOut → ZoneMoved z (fun r => { r with pending := src }) s t
  closed : (s.zones.get z).state ∈ [ZoneState.waiting, .silent] → ZoneMoved z (connectedTo s.view src) s t

/-- The held changes of a zone have been applied (R61): a held decode mode and a held speaker
configuration are active with their windows, envelopes and filters cleared; a held delay change has
cleared the zone's lines, and has made the zone's staged lengths and grant active where the room test
passes (R118), while without room they stay, as long as the other zone applies nothing at once; and what
was not held is as it was. -/
structure HeldApplied (z : Zone) (s t : State) : Prop where
  decode : (s.zones.get z).held.decode = true →
    t.dec.active = s.dec.staged ∧ t.dec.env = .zero ∧ t.dec.sums = .zero ∧ t.dec.frames = 0
  noDecode : (s.zones.get z).held.decode = false → t.dec = s.dec
  speakers : (s.zones.get z).held.speakers = true →
    t.bass.active = s.bass.staged ∧ t.bass.filters = .all .zero ∧ t.bass.staged = s.bass.staged
  noSpeakers : (s.zones.get z).held.speakers = false → t.bass = s.bass
  delay : (s.zones.get z).held.delay = true → t.pool.staged = s.pool.staged
    ∧ ∀ ch, chanZone ch = z → ∀ x ∈ t.pool.lines.get ch, x = 0
  room : (s.zones.get z).held.delay = true → s.pool.staged.total z + s.pool.active.total (otherZone z) ≤ 65536 →
    t.pool.active.grant.get z = s.pool.staged.grant.get z ∧ t.pool.alloc.get z = .settled
      ∧ ∀ ch, chanZone ch = z → t.pool.active.len.get ch = s.pool.staged.len.get ch
          ∧ t.pool.lines.get ch = List.replicate (s.pool.staged.len.get ch) 0
  noRoom : (s.zones.get z).held.delay = true → 65536 < s.pool.staged.total z + s.pool.active.total (otherZone z) →
    (s.zones.get (otherZone z)).state ∉ [ZoneState.waiting, .silent] →
    t.pool.active.grant.get z = s.pool.active.grant.get z
      ∧ ∀ ch, chanZone ch = z → t.pool.active.len.get ch = s.pool.active.len.get ch
  noDelay : (s.zones.get z).held.delay = false → t.pool = s.pool
  taken : (t.zones.get z).held.decode = false ∧ (t.zones.get z).held.speakers = false

/-- A held delay change that finds room has marked the delay record and the zone's (R118). -/
def DelayMarked (z : Zone) (s t : State) : Prop :=
  (s.zones.get z).held.delay = true → s.pool.staged.total z + s.pool.active.total (otherZone z) ≤ 65536 →
    Rec.delay ∈ t.dirty ∧ Rec.zone z ∈ t.dirty

/-- The staged speaker configuration goes to `c` (R60, R82, R83), before the delay pool takes a changed presence set:
unchanged, it does nothing; a running zone 1 that is WAITING or SILENT makes it active with its filters at zero; else
zone 1 holds a SPEAKERS change, as it reconfigures from PLAYING or FADING_IN while the audio blocks run. -/
def speakersRequested (c : SpeakerConfig) (s : State) : State :=
  let r := s.zones.z1
  if c = s.bass.staged then s
  else if s.audioRuns = true ∧ r.state ∈ [ZoneState.waiting, .silent] then
    { s with bass := { s.bass with staged := c, active := c, filters := .all .zero } }
  else
    { s with
      bass := { s.bass with staged := c }
      zones := s.zones.set .z1 { r with
        held := { r.held with speakers := true }
        state := if s.audioRuns = true ∧ r.state ∈ [ZoneState.playing, .fadingIn] then .reconfiguring else r.state } }

/-! ### Carrying events (R26, R48, R57, R58) -/

/-- The zones and the blocks behind them are as they were. -/
structure SamePaths (s t : State) : Prop where
  zones : t.zones = s.zones
  gain : t.gain = s.gain
  mods : t.mods = s.mods
  dec : t.dec = s.dec
  bass : t.bass = s.bass
  pool : t.pool = s.pool

/-- The loss of a source closes a zone's gate: the zone is connected to it and its gate is open (R50, R57). -/
def Loses (src : Source) (s : State) (z : Zone) : Prop :=
  (s.zones.get z).connected = some src ∧ (s.zones.get z).state ∉ [ZoneState.waiting, .silent]

/-- The loss of a source makes a zone apply its held changes (R57): it loses the source in FADING_OUT or
RECONFIGURING and holds some. -/
def AppliesOnLoss (src : Source) (s : State) (z : Zone) : Prop :=
  (s.zones.get z).connected = some src ∧ (s.zones.get z).state ∈ [ZoneState.fadingOut, .reconfiguring]
    ∧ (s.zones.get z).held ≠ .empty

/-- A source has lost its carrying status: the zone switch's view follows. A zone that played the source
waits for it, a zone that was fading out from it connects to its goal, both with the fade at -320 and the
zone's channels at -320; a zone connected elsewhere keeps its source, its gate, its fade and its gains.
`course` says all of it: zone 1 takes the loss, then zone 2 (the order is log 49's, an examination comes after the
zone's step by log 19), and beside the zones, the channels' gains, the modules that have wound down and the held
changes applied nothing behind the zones changes. The other fields say what this comes to. -/
structure CarryingLost (src : Source) (s t : State) : Prop where
  view : t.view = s.view.set src false
  course : ∃ a b, LossTaken src .z1 { s with view := s.view.set src false, att := t.att } a ∧ LossTaken src .z2 a b
    ∧ SamePaths b t
  played : ∀ z, (s.zones.get z).connected = some src →
    (s.zones.get z).state ∈ [ZoneState.playing, .fadingIn, .reconfiguring] →
    (t.zones.get z).state = .waiting ∧ (t.zones.get z).connected = some src
      ∧ (t.zones.get z).gateOpen = false ∧ (t.zones.get z).fade = gainFloor
  faded : ∀ z, (s.zones.get z).connected = some src → (s.zones.get z).state = .fadingOut →
    (t.zones.get z).connected = (s.zones.get z).pending ∧ (t.zones.get z).fade = gainFloor
      ∧ ((t.zones.get z).gateOpen = true ↔ ∃ x, (s.zones.get z).pending = some x ∧ t.view.get x = true)
  floored : ∀ z, Loses src s z → ∀ ch, chanZone ch = z → (t.gain.chans.get ch).applied = gainFloor
  others : ∀ z, (s.zones.get z).connected ≠ some src →
    (t.zones.get z).connected = (s.zones.get z).connected
      ∧ (t.zones.get z).gateOpen = (s.zones.get z).gateOpen ∧ (t.zones.get z).fade = (s.zones.get z).fade
      ∧ ∀ ch, chanZone ch = z → t.gain.chans.get ch = s.gain.chans.get ch
  gain : t.gain.zones = s.gain.zones ∧ t.gain.trims = s.gain.trims ∧ t.gain.srcTrims = s.gain.srcTrims
  nobody : (∀ z, ¬Loses src s z) → SamePaths s t
  windDowns : (∃ z, Loses src s z) → WindDowns s t
  unapplied : (∀ z, ¬AppliesOnLoss src s z) →
    t.dec = s.dec ∧ t.bass = s.bass ∧ t.pool = s.pool
      ∧ ∀ z, ¬Loses src s z → t.zones.get z = s.zones.get z
  applied : ∀ z, AppliesOnLoss src s z → ¬Loses src s (otherZone z) → HeldApplied z s t

/-- A source has gained carrying status: the view follows, and every zone that waits for the source opens
its gate and fades in from -320 (its waiting time by log 65); every other zone is as it was. -/
structure CarryingGained (src : Source) (s t : State) : Prop where
  view : t.view = s.view.set src true
  zones : ∀ z, (s.zones.get z).connected = some src → (s.zones.get z).state = .waiting →
    t.zones.get z = { s.zones.get z with
      state := .fadingIn, fade := gainFloor, gateOpen := true, waited := 0, noSignal := false }
  others : ∀ z, (s.zones.get z).connected ≠ some src ∨ (s.zones.get z).state ≠ .waiting →
    t.zones.get z = s.zones.get z

/-- The state `u` with what a carrying event may change taken from `t`. -/
def afterCarrying (u t : State) : State :=
  { u with
    view := t.view, att := t.att, zones := t.zones, gain := t.gain, mods := t.mods, dec := t.dec, bass := t.bass,
    pool := t.pool, dirty := t.dirty }

/-- The carrying status of a source goes from `was` to `now`: nothing for an unchanged one, and while the
audio blocks are stopped the view alone follows (R26, R48, R65). -/
structure CarryingChange (src : Source) (was now : Bool) (s t : State) : Prop where
  same : was = now → t.view = s.view ∧ SamePaths s t
  stopped : was ≠ now → s.audioRuns = false → t.view = s.view.set src now ∧ SamePaths s t
  lost : was = true → now = false → s.audioRuns = true → CarryingLost src s t
  gained : was = false → now = true → s.audioRuns = true →
    CarryingGained src s t ∧ SamePaths { s with zones := t.zones } t

/-- The attention state after a change of carrying status: SOURCE joins the pending causes (R26). -/
def sourceNotice (was now : Bool) (a : Attention) : Attention :=
  if was = now then a else { a with pending := a.pending ||| 0x0002#16 }

/-- A command of the part's own that changes the state into `u`, always marks `always`, and brings about a change
of a source's carrying status: beside `u` only what that change reaches is another, SOURCE is pending and the
source's record is marked (R26). -/
structure CarryingStep (always : List Rec) (src : Source) (was now : Bool) (s u t : State) : Prop where
  rest : t = afterCarrying u t
  att : t.att = sourceNotice was now u.att
  change : CarryingChange src was now s t
  marks : MarksBetween (always ++ carryingMarks src was now) (pathMarks was now s) s t

/-- The attention state after a command that leaves it at `base` and may change station content: STATION
joins the pending causes exactly when one of the five station records has changed, at the end of the
command or, for those of `within`, in its course (R189; log 35). -/
structure StationNotice (within : List Rec) (s : State) (base : Attention) (t : State) : Prop where
  rest : t.att = { base with pending := t.att.pending }
  changed : (∃ r, r.isStation = true ∧ (r ∈ within ∨ recWords s r ≠ recWords t r)) →
    t.att.pending = base.pending ||| 0x0200#16
  same : (∀ r, r.isStation = true → r ∉ within ∧ recWords s r = recWords t r) →
    t.att.pending = base.pending

/-! ### The front-end line and the converter, as the tuner's operations change them -/

/-- A command is sent on the line: outstanding at once when no command is, else into the pending slot;
the outstanding command is abandoned if `p` holds of it (R160). -/
structure SentOnLine (p : FeCommand → Bool) (c : FeCommand) (f f' : FrontEnd) : Prop where
  rest : f' = { f with
    outstanding := f'.outstanding, pending := f'.pending, txFrames := f'.txFrames,
    responseTimer := f'.responseTimer }
  idle : f.outstanding = none →
    f'.outstanding = some ⟨c, false, false⟩ ∧ f'.pending = f.pending ∧ f'.txFrames = f.txFrames ++ [c.frame]
      ∧ f'.responseTimer = false
  busy : ∀ o, f.outstanding = some o →
    f'.outstanding = some { o with abandoned := o.abandoned || p o.cmd } ∧ f'.pending = some c
      ∧ f'.txFrames = f.txFrames ∧ f'.responseTimer = f.responseTimer

/-- The commands that a new tuner operation abandons: a TUNE, and a QUERY when the tuner leaves LISTENING
or VERIFYING (R160, R163). -/
def abandonsOf (left : Bool) : FeCommand → Bool
  | .tune _ _ _ _ => true
  | .query => left
  | .standby => false

/-- The measurement unit after the tuner has abandoned its reading (R144). -/
def readingAbandoned (m : Meas) : Meas :=
  { m with
    queue := m.queue.map fun q =>
      match q with
      | .tuner _ => .tuner true
      | q => q
    conv := m.conv.map fun c =>
      match c.owner with
      | .tuner _ => { c with owner := .tuner true }
      | _ => c }

/-- The preset transfer after a command that discards a recall fetch: a STORE goes on (R166, R169). -/
def storeOnly : Transfer → Transfer
  | .recalling _ _ => .none
  | x => x

/-- The decoder after a state of the tuner in which it takes no bits (R178). -/
def bitsStopped (taking : Bool) (d : Station) : Station :=
  if taking then { d with sync := .idle, gapTimer := false } else d

/-- The decoder as the tuner's taking of bits goes from `was` to `now` (R178): a start empties the window,
the candidates and the group in progress and enters SEARCH, an end enters IDLE. -/
def bitsMoved (was now : Bool) (d : Station) : Station :=
  if was = now then d
  else if now = true then
    { d with sync := .search, window := [], candidate := .empty, group := .empty, gapTimer := false }
  else { d with sync := .idle, gapTimer := false }

/-- A step that changes the state into `u` and may change station content: beside `u` only the STATION
cause and the marks of the records that have changed are new. -/
structure StationStep (s u t : State) : Prop where
  rest : t = { u with att := t.att, dirty := t.dirty }
  notice : StationNotice [] s u.att t
  marks : MarksExactly [] s t

/-- A step of the tuner that changes the state into `u`, may change station content, and brings about a
change of TUNER's carrying status (R163), which marks TUNER's source record (R26). -/
structure TunerStep (was now : Bool) (s u t : State) : Prop where
  rest : t = afterCarrying u t
  change : CarryingChange .tuner was now s t
  notice : StationNotice [] s (sourceNotice was now u.att) t
  marks : MarksBetween (carryingMarks .tuner was now) (pathMarks was now s) s t

/-- The weak count after a step that leaves AF follow as it is: 0 while it is not active (R173). -/
def weakKept (s : State) : Nat := if afActive s = true then s.tun.weak else 0

/-- The measurement unit after the tuner has asked for a reading: its request takes the place of one of
its own that is still queued, or joins the tail (R144). -/
def readingAsked (m : Meas) : Meas :=
  { m with
    queue :=
      if OnDemand.tuner true ∈ m.queue ∨ OnDemand.tuner false ∈ m.queue then
        m.queue.map fun q =>
          match q with
          | .tuner _ => .tuner false
          | q => q
      else m.queue ++ [.tuner false] }

/-- The converter's choice of its next conversion (R145; log 26): the queue's head while fewer than two
on-demand conversions have started since the last entry's, or while no entry can be converted; else the
next entry; else none. -/
structure ConversionChosen (m m' : Meas) : Prop where
  idle : m.queue = [] → m.roundRobin = false ∨ m.seqLen = 0 → m' = m
  entry : m.queue = [] ∨ 2 ≤ m.onDemandCount → m.roundRobin = true → m.seqLen ≠ 0 →
    let e := m.entry m.position
    m' = { m with
      conv := some ⟨.entry m.position false, e.w0.toNat % 16, e.w0.toNat / 256 % 8⟩
      position := if m.position + 1 < m.seqLen then m.position + 1 else 0
      onDemandCount := 0 }
  demand : ∀ q rest, m.queue = q :: rest →
    m.onDemandCount < 2 ∨ m.roundRobin = false ∨ m.seqLen = 0 →
    m' = { m with
      queue := if q = .selfCheck false then .selfCheck true :: rest else rest
      onDemandCount := if m.onDemandCount < 2 then m.onDemandCount + 1 else m.onDemandCount
      hostStatus := if q = .host then .converting else m.hostStatus
      conv := some (match q with
        | .tuner x => ⟨.tuner x, 9, 1⟩
        | .host => ⟨.host, m.hostInput, m.hostDivider⟩
        | .selfCheck false => ⟨.ref, 10, 1⟩
        | .selfCheck true => ⟨.halfRef, 11, 1⟩) }

/-- The code of a conversion of a voltage in microvolts (R140; log 25). -/
def codeOf (microvolts : Int) (c : Conversion) : Nat :=
  if microvolts < 0 then 0 else min 1023 (1024 * microvolts.toNat * c.divider / 2500000)

/-- The exchange ends (R160): the pending command, if any, becomes outstanding. -/
def exchangeOver (f : FrontEnd) : FrontEnd :=
  match f.pending with
  | none => { f with outstanding := none, responseTimer := false }
  | some c => { f with
      outstanding := some ⟨c, false, false⟩, pending := none, txFrames := f.txFrames ++ [c.frame],
      responseTimer := false }

/-- A body answers a command (R159): the response's code and LEN, and for a TUNE the echoed code. -/
def answersTo (c : FeCommand) (body : List Byte) : Prop :=
  match c with
  | .tune _ _ code _ => ∃ st, body = [0x90#8, st, BitVec.ofNat 8 (code / 256), BitVec.ofNat 8 code]
  | .query => ∃ st, body = [0x91#8, st]
  | .standby => ∃ st, body = [0x92#8, st]

/-- The assembler's next character is the CHK that completes a frame with this body, and the rest of the
receive queue is `rest` (R158). -/
def FrameCompletes (f : FrontEnd) (body : List Byte) (rest : List RxChar) : Prop :=
  ∃ c len, f.rxQueue = c :: rest ∧ f.assembler = .body len body ∧ len ≤ body.length ∧ c.gap = false
    ∧ c.brk = false ∧ c.parityError = false ∧ c.framingError = false ∧ c.overrun = false
    ∧ (len + (body.map BitVec.toNat).sum + c.data.toNat) % 256 = 0

/-- The tuner after the pilot bit of an accepted response: a pilot that clears sets mono (R172). -/
def pilotTaken (on : Bool) (x : Tuner) : Tuner :=
  { x with pilot := on, stereo := if x.pilot = true ∧ on = false then false else x.stereo }

/-- The exchange after a first failure: the same frame again (R160). -/
def resentOnce (o : Outstanding) (f : FrontEnd) : FrontEnd :=
  { f with
    outstanding := some { o with resent := true }, txFrames := f.txFrames ++ [o.cmd.frame],
    responseTimer := false }

/-- Commands that leaving LISTENING or VERIFYING abandons: a QUERY and a re-tune (R160, R161). -/
def endsWithListening : FeCommand → Bool
  | .query => true
  | .tune _ _ _ .retune => true
  | _ => false

/-! ### The port and the part's bursts -/

/-- A host access is not held back by a restore pass: none runs, or the access is outside the control
region and the report area (R21, R22). -/
def MayGo (s : State) (a : HostAccess) : Prop :=
  s.agent.restore = none ∨ ∀ off, accessOffset s a = some off → 0x1000 ≤ off

/-- The words of a frame of a ring (R37). -/
def wordsOfFrame (r : Reader) : Nat := r.channels * if r.width = 24 then 2 else 1

/-- The frames available in a ring (R37). -/
def framesAvailable (r : Reader) : Nat := (((r.fill : Int) - r.drain) % r.size).toNat

/-- A reader asks for a fetch while none of its bursts is in flight (R41). -/
structure FetchDue (s : State) (m : StreamId) : Prop where
  runs : s.audioRuns = true
  active : (s.ms.get m).state ≠ .stopped
  frames : 0 < framesAvailable (s.ms.get m)
  room : (s.ms.get m).buffer.length + 16 / wordsOfFrame (s.ms.get m) ≤ 512

/-- A fetch burst is issued (R41): it reads the least of a full burst, the frames available and the
frames to the ring's end, from frame DRAIN, and holds the words of memory there. -/
def FetchIssued (m : StreamId) (s t : State) : Prop :=
  let r := s.ms.get m
  let n := min (16 / wordsOfFrame r) (min (framesAvailable r) (r.size - r.drain))
  let addr := r.baseHi.toNat * 0x10000 + r.baseLo.toNat + r.drain * wordsOfFrame r * 2
  ∃ ws : List Word, ws.length = n * wordsOfFrame r
    ∧ (∀ i, i < ws.length → ws[i]? = some (s.mem.readWord (addr + 2 * i)))
    ∧ t = { s with agent := { s.agent with port := .part ⟨.fetch m n, addr, false, ws, [], false⟩ } }

/-- A write burst of given words is issued beside a change into `u` (R13): memory holds the words from
its address on, every other byte is as before, and the burst keeps the words it has replaced. -/
structure BurstWritten (owner : BurstOwner) (addr : Nat) (words : List Word) (s u t : State) : Prop where
  rest : ∃ old : List Word, old.length = words.length
    ∧ (∀ i, i < words.length → old[i]? = some (s.mem.readWord (addr + 2 * i)))
    ∧ t = { u with
        mem := t.mem, agent := { u.agent with port := .part ⟨owner, addr, true, words, old, false⟩ } }
  written : ∀ i w, words[i]? = some w → t.mem.readWord (addr + 2 * i) = w
  bytes : ∀ a, a < addr ∨ addr + 2 * words.length ≤ a → t.mem.read a = s.mem.read a

/-- The entries that a write-back burst takes (R11): the head of the queue, then each queued slot at the
next word above the last one taken, up to 16. -/
structure WriteBackTaken (q run : List Slot) : Prop where
  head : run.head? = q.head?
  queued : ∀ sl ∈ run, sl ∈ q
  size : run.length ≤ 16
  steps : ∀ i a b, run[i]? = some a → run[i + 1]? = some b → b.offset = a.offset + 2
  whole : run.length < 16 → ∀ a, run.getLast? = some a → ∀ b ∈ q, b.offset ≠ a.offset + 2

/-- The value a restore pass writes into a slot (R21): 0 into a command slot and ATTN_ACK, LOCKED into
SETUP_LOCK, else the owner's value. -/
def passWord (s : State) (sl : Slot) : Word :=
  if sl.isCommand = true ∨ sl = .attnAck then 0 else if sl = .setupLock then 1 else slotValue s sl

/-- A slot is in the range of a restore pass (R21, R22). -/
def inPass (k : PassKind) (sl : Slot) : Prop := k = .full ∨ sl.isAudio = true

/-- A record is in the range of a restore pass (R21, R22). -/
def recInPass (k : PassKind) (r : Rec) : Prop := k = .full ∨ r.isAudio = true

/-- The run of slots that a restore pass at offset `next` writes (R21): from the first slot of its range
on, consecutive words, ended by 16 words or a gap. -/
structure PassRun (p : RestorePass) (run : List Slot) : Prop where
  range : ∀ sl ∈ run, inPass p.kind sl ∧ p.next ≤ sl.offset
  first : ∃ a, run.head? = some a ∧ ∀ sl, inPass p.kind sl → p.next ≤ sl.offset → a.offset ≤ sl.offset
  size : run.length ≤ 16
  steps : ∀ i a b, run[i]? = some a → run[i + 1]? = some b → b.offset = a.offset + 2
  whole : run.length < 16 → ∀ a, run.getLast? = some a → ∀ b, inPass p.kind b → b.offset ≠ a.offset + 2

/-- What is left to write of a restore pass: a slot or a record of its range at its offset or above. -/
def PassGoesOn (p : RestorePass) : Prop :=
  (∃ sl, inPass p.kind sl ∧ p.next ≤ sl.offset) ∨ ∃ r, recInPass p.kind r ∧ p.next ≤ r.offset

/-- The kept format change of a line takes effect as R28 gives (R35; log 16). -/
def lineResumed (x : SaState) : SaState :=
  let y := { x with edges := 0, npcmTimer := true }
  if x.formatKept = true then
    match x.lock with
    | .locked => { y with
        formatKept := false, lock := .measuring, lockedClass := none, misses := 0, conv := .empty,
        runClass := none, runCount := 0, otherRun := 0 }
    | .measuring => { y with formatKept := false, runClass := none, runCount := 0, otherRun := 0 }
    | _ => { y with formatKept := false }
  else y

/-- The carrying status of a source, as the view holds it, has changed since the zone last acted on it
(R65, step 1). -/
def zoneBehind (s : State) (z : Zone) : Prop :=
  ∃ x, (s.zones.get z).connected = some x ∧ ((s.zones.get z).state = .waiting ↔ s.view.get x = true)

/-- A line that its kept change of format takes out of LOCKED while it carries (R28, R35). -/
def LineDropped (x : SaState) : Prop := x.formatKept = true ∧ x.lock = .locked ∧ x.npcmTaken = false

/-- The attention state as the audio blocks run again from `s`: the causes that were pending stay, SOURCE joins
them where a kept change of format takes a carrying line out of LOCKED (R26, R35), ZONE_NOSIGNAL where a zone's
no-signal flag goes from clear to set (R59; log 17), and nothing else changes. -/
def ResumedNotice (s t : State) : Prop :=
  let shown := fun z => (s.zones.get z).noSignal = false ∧ (t.zones.get z).noSignal = true
  ∃ source noSignal : Word, noSignal ∈ [0x0000#16, 0x0008#16]
    ∧ t.att = { s.att with pending := s.att.pending ||| source ||| noSignal }
    ∧ ((∃ l, LineDropped (s.sa.get l)) → source = 0x0002#16)
    ∧ ((∀ l, ¬LineDropped (s.sa.get l)) → source = 0)
    ∧ ((∃ z, shown z) → noSignal = 0x0008#16)
    ∧ (WaitLimitsInRange s → (∀ z, ¬shown z) → noSignal = 0)

/-- The first step of R65: a zone whose connected source has changed its carrying status since the zone last acted
on it acts as on that carrying event (R57, R58). -/
structure StatusTaken (z : Zone) (s t : State) : Prop where
  lost : ∀ x, (s.zones.get z).connected = some x → s.view.get x = false → (s.zones.get z).state ≠ .waiting →
    ZoneLost z s t
  gained : ∀ x, (s.zones.get z).connected = some x → s.view.get x = true → (s.zones.get z).state = .waiting →
    ZoneMoved z fadedIn s t
  still : ¬zoneBehind s z → t = { s with dirty := t.dirty }

/-- The second step of R65: a SOURCE value kept from the stop acts (R51 to R53) and is kept no longer. -/
structure KeptTaken (z : Zone) (s t : State) : Prop where
  taken : ∀ src, (s.zones.get z).kept = some src →
    SourceTaken z src { s with zones := s.zones.set z { s.zones.get z with kept := none } } t
  none : (s.zones.get z).kept = none → t = { s with dirty := t.dirty }

/-- The third step of R65: a zone in PLAYING or FADING_IN with held changes enters RECONFIGURING; one in WAITING or
SILENT applies them at once; any other zone, and one without held changes, goes on as it is. -/
structure HeldTaken (z : Zone) (s t : State) : Prop where
  reconfigures : (s.zones.get z).held ≠ .empty → (s.zones.get z).state ∈ [ZoneState.playing, .fadingIn] →
    ZoneMoved z (fun r => { r with state := .reconfiguring }) s t
  applies : (s.zones.get z).held ≠ .empty → (s.zones.get z).state ∈ [ZoneState.waiting, .silent] →
    ∃ a, ChangesApplied z s a ∧ ExaminedFor (s.zones.get z).held a t
  waits : (s.zones.get z).held = .empty ∨ (s.zones.get z).state ∈ [ZoneState.fadingOut, .reconfiguring] →
    t = { s with dirty := t.dirty }

/-- A zone's wait limit after the steps of R65 (R59; log 17): a stay whose flag is clear and whose waiting time has
reached the limit shows no signal, with ZONE_NOSIGNAL pending. -/
def LimitTaken (z : Zone) (s t : State) : Prop :=
  let r := s.zones.get z
  let reached := r.state = .waiting ∧ r.noSignal = false ∧ r.waitLimit ≤ r.waited
  (reached → t = { s with
      zones := s.zones.set z { r with noSignal := true }, dirty := t.dirty,
      att := { s.att with pending := s.att.pending ||| 0x0008#16 } })
    ∧ (¬reached → t = { s with dirty := t.dirty })

/-- A zone acts on what it kept when the master clock is good again: the three steps of R65 in their order, and its
wait limit after them (log 17). -/
def ZoneResumed (z : Zone) (s t : State) : Prop :=
  ∃ a b c, StatusTaken z s a ∧ KeptTaken z a b ∧ HeldTaken z b c ∧ LimitTaken z c t

/-- The audio blocks run again from the state they kept (R135): windows, filters and converters start
anew (R35, R43, R72, R110), the delay pool takes the presence set and its staged set (R122), and each
zone acts on what it kept (R65). `course` says all of it: from the lines run again, with SOURCE pending where one
of them has lost its carrying status (R26), zone 1 resumes and then zone 2 (log 50), and at last the pool recomputes
and examines both zones (R122; log 52). The other fields say what this comes to. -/
structure Resumed (s t : State) : Prop where
  rest : t = { s with
    clock := .good, audioStarted := true, dirty := t.dirty, att := t.att, view := t.view, sa := t.sa,
    ms := t.ms, zones := t.zones, dec := t.dec, bass := t.bass, gain := t.gain, knob := t.knob,
    pool := t.pool, mods := t.mods }
  att : ResumedNotice s t
  course : ∃ (notice : Attention) (a b : State),
    ((∃ l, LineDropped (s.sa.get l)) → notice = { s.att with pending := s.att.pending ||| 0x0002#16 })
    ∧ ((∀ l, ¬LineDropped (s.sa.get l)) → notice = s.att)
    ∧ ZoneResumed .z1
        { s with clock := .good, audioStarted := true, att := notice, view := t.view, sa := t.sa } a
    ∧ ZoneResumed .z2 a b
    ∧ Examined
        { b with
          ms := t.ms, knob := t.knob, dec := { b.dec with sums := .zero, frames := 0 }
          pool := { b.pool with
            presence := b.bass.staged.presence
            staged := computeSet b.bass.staged.presence b.pool.dist b.pool.lipsync } } t
  lines : ∀ l, t.sa.get l = lineResumed (s.sa.get l)
  streams : ∀ m, t.ms.get m =
    if (s.ms.get m).state = .running then { s.ms.get m with conv := .empty } else s.ms.get m
  view : ∀ src, t.view.get src =
    match src with
    | .sa l =>
      if (s.sa.get l).formatKept = true ∧ (s.sa.get l).lock = .locked ∧ (s.sa.get l).npcmTaken = false then false
      else s.view.get (.sa l)
    | _ => s.view.get src
  window : t.dec.sums = .zero ∧ t.dec.frames = 0
  contacts : t.knob = { s.knob with
    a := { s.knob.a with taken := none, timer := true }
    b := { s.knob.b with taken := none, timer := true }
    reference := none }
  pool : t.pool.dist = s.pool.dist ∧ t.pool.lipsync = s.pool.lipsync
    ∧ t.pool.presence = s.bass.staged.presence
    ∧ t.pool.staged = computeSet s.bass.staged.presence s.pool.dist s.pool.lipsync
  kept : ∀ z, (t.zones.get z).kept = none
  still : ∀ z, (s.zones.get z).kept = none → ¬zoneBehind { s with view := t.view } z →
    (t.zones.get z).connected = (s.zones.get z).connected ∧ (t.zones.get z).gateOpen = (s.zones.get z).gateOpen
      ∧ (t.zones.get z).fade = (s.zones.get z).fade ∧ (t.zones.get z).waited = (s.zones.get z).waited
  held : ∀ z, (s.zones.get z).kept = none → ¬zoneBehind { s with view := t.view } z →
    (s.zones.get z).held ≠ .empty → (s.zones.get z).state ∈ [ZoneState.playing, .fadingIn] →
    (t.zones.get z).state = .reconfiguring
  unchanged : (∀ z, (s.zones.get z).kept = none ∧ ¬zoneBehind { s with view := t.view } z
      ∧ (s.zones.get z).held = .empty) →
    t.gain = s.gain ∧ t.mods = s.mods ∧ t.bass = s.bass
      ∧ t.dec = { s.dec with sums := .zero, frames := 0 }
  lost : ∀ z x, (s.zones.get z).connected = some x → t.view.get x = false → (s.zones.get z).kept = none →
    (s.zones.get z).state = .playing ∨ (s.zones.get z).state = .fadingIn →
    (t.zones.get z).state = .waiting ∧ (t.zones.get z).gateOpen = false ∧ (t.zones.get z).fade = gainFloor
  gained : ∀ z x, (s.zones.get z).connected = some x → t.view.get x = true → (s.zones.get z).kept = none →
    (s.zones.get z).state = .waiting →
    (t.zones.get z).gateOpen = true ∧ (t.zones.get z).fade = gainFloor ∧ (t.zones.get z).connected = some x
  chosen : ∀ z src, (s.zones.get z).kept = some src → ¬zoneBehind { s with view := t.view } z →
    (s.zones.get z).state = .waiting ∨ (s.zones.get z).state = .silent →
    (t.zones.get z).connected = src

/-- The buses after the fold of the absent channels (R84): BACK into SURROUND, then SURROUND, CENTER and TOP
into the fronts, each at k and saturated; an absent channel's bus is zero. -/
def foldedBus (c : SpeakerConfig) (x : PerMain Int) : MainChan → Int :=
  let joins := fun (absent : Prop) [Decidable absent] (a b : Int) =>
    if absent then clampInt (-8388608) 8388607 (a + (b * 23170 + 16384) / 32768) else a
  let sl := joins (c.back = .absent) x.sl x.bl
  let sr := joins (c.back = .absent) x.sr x.br
  let fl := joins (c.top = .absent) (joins (c.center = .absent) (joins (c.surround = .absent) x.fl sl) x.c) x.tl
  let fr := joins (c.top = .absent) (joins (c.center = .absent) (joins (c.surround = .absent) x.fr sr) x.c) x.tr
  fun ch => match ch with
    | .fl => fl
    | .fr => fr
    | .c => if c.center = .absent then 0 else x.c
    | .sw => if c.subPresent = true then x.sw else 0
    | .sl => if c.surround = .absent then 0 else sl
    | .sr => if c.surround = .absent then 0 else sr
    | .bl => if c.back = .absent then 0 else x.bl
    | .br => if c.back = .absent then 0 else x.br
    | .tl => if c.top = .absent then 0 else x.tl
    | .tr => if c.top = .absent then 0 else x.tr

/-- A channel is SMALL by its slot of the configuration (R85). -/
def smallChan (c : SpeakerConfig) : MainChan → Prop
  | .fl | .fr => c.front = .small
  | .c => c.center = .small
  | .sl | .sr => c.surround = .small
  | .bl | .br => c.back = .small
  | .tl | .tr => c.top = .small
  | .sw => False

/-- Two sections in cascade, each output saturated (R85; log 22): from the sections' states and the input,
the output and the new states. -/
def CascadeOf (sec : FilterSection → Int → Int × FilterSection) (a b : FilterSection) (x y : Int)
    (a' b' : FilterSection) : Prop :=
  let lim := clampInt (-8388608) 8388607
  a' = (sec a x).2 ∧ b' = (sec b (lim (sec a x).1)).2 ∧ y = lim (sec b (lim (sec a x).1)).1

/-- The split of one bus `x` into its high part and its low part, with the channel's filters (R85): a SMALL
channel goes through its two filters at the CROSSOVER code, every other passes whole. -/
structure SplitOf (code : Nat) (small : Prop) (fb : FilterBank) (x hi lo : Int) (fb' : FilterBank) : Prop where
  large : ¬small → hi = x ∧ lo = 0 ∧ fb' = fb
  high : small → CascadeOf (Config.highPassSection code) fb.hp1 fb.hp2 x hi fb'.hp1 fb'.hp2
  low : small → CascadeOf (Config.lowPassSection code) fb.lp1 fb.lp2 x lo fb'.lp1 fb'.lp2

/-- What the bass manager makes of the buses of a frame (R84 to R87): the folded buses are split, the low
parts sum to B, and with SUB present SW is B with the LFE at +27 steps, else both go to the fronts. -/
structure BassManaged (b : Bass) (x : Buses) (out : PerMain Int) (filters : PerMain FilterBank)
    (hi lo : PerMain Int) : Prop where
  split : ∀ ch, SplitOf b.active.crossover (smallChan b.active ch) (b.filters.get ch)
    (foldedBus b.active x.ch ch) (hi.get ch) (lo.get ch) (filters.get ch)
  present : b.active.subPresent = true →
    let lim := clampInt (-8388608) 8388607
    let sum := lo.fl + lo.fr + lo.c + lo.sl + lo.sr + lo.bl + lo.br + lo.tl + lo.tr
    out.sw = lim (lim sum + (x.lfe * 3458531328 + 2 ^ 29) / 2 ^ 30) ∧ ∀ ch, ch ≠ .sw → out.get ch = hi.get ch
  absent : b.active.subPresent = false →
    let lim := clampInt (-8388608) 8388607
    let sum := lo.fl + lo.fr + lo.c + lo.sl + lo.sr + lo.bl + lo.br + lo.tl + lo.tr
    let q := lim (lim sum + x.lfe)
    let add := fun (y : Int) => lim (y + (q * 23170 + 16384) / 32768)
    out.fl = add hi.fl ∧ out.fr = add hi.fr ∧ out.sw = 0
      ∧ ∀ ch, ch ≠ .fl → ch ≠ .fr → ch ≠ .sw → out.get ch = hi.get ch

/-- Frame `i` of the words a fetch burst has read (R25, R37). -/
def ringFrame (r : Reader) (ws : List Word) (i : Nat) : SrcFrame :=
  let x := fun k =>
    if r.width = 24 then
      ws.getD (2 * (i * r.channels + k)) 0 ++ (ws.getD (2 * (i * r.channels + k) + 1) 0).extractLsb' 0 8
    else ws.getD (i * r.channels + k) 0 ++ 0#8
  if r.channels = 8 then .eight (x 0) (x 1) (x 2) (x 3) (x 4) (x 5) (x 6) (x 7) else .stereo (x 0) (x 1)

/-! ### Host writes -/

/-- A host write goes to memory at once: RSTN is high, nothing holds the port, no access is held, no
restore pass runs, and no request of the part waits for its turn (R5, R12, R21). -/
structure PortOpen (s : State) : Prop where
  high : s.rstnLow = false
  free : s.agent.port = .free
  noHeld : s.agent.held = none
  noRestore : s.agent.restore = none
  turn : partsTurn s = false

/-- The memory address of a slot (R2, R192). -/
def slotAddr (s : State) (sl : Slot) : Nat := s.apertureBase + sl.offset

/-- A queue after write-back requests: each joins the tail unless the queue holds it (R10). -/
def queueWith (q : List Slot) (sls : List Slot) : List Slot :=
  sls.foldl (fun q sl => if sl ∈ q then q else q ++ [sl]) q

/-- The lock after a write whose owner leaves it at `l`: a write to the control region other than to
SETUP_LOCK returns a PENDING lock to LOCKED (R138). -/
def lockAfter (s : State) (sl : Slot) (l : SetupLock) : SetupLock :=
  if s.lock = .pending ∧ sl ≠ .setupLock then .locked else l

/-- The write-backs of a write that asks for those of `reqs`: SETUP_LOCK's joins when the write relocks
(R8, R138), before them, which is the model's choice in log 10. -/
def queueAfter (s : State) (sl : Slot) (reqs : List Slot) : List Slot :=
  queueWith s.agent.queue ((if s.lock = .pending ∧ sl ≠ .setupLock then [.setupLock] else []) ++ reqs)

/-- A write to a slot that passes the filter with the word `w`, whose owner's action changes the state
into `u`, asks for the write-backs `reqs` and always marks `always`: the slot's word holds `w`, every
byte outside it is as before, and beside `u` only the port's turn, the lock's return to LOCKED and the
marks change. -/
structure WriteTaken (sl : Slot) (w : Word) (reqs : List Slot) (always : List Rec) (s u t : State) : Prop where
  rest : t = { u with
    mem := t.mem, dirty := t.dirty, lock := lockAfter s sl u.lock,
    agent := { u.agent with lastPart := false, queue := queueAfter s sl reqs } }
  marks : MarksExactly always s t
  word : t.mem.readWord (slotAddr s sl) = w
  bytes : ∀ a, a ≠ slotAddr s sl → a ≠ slotAddr s sl + 1 → t.mem.read a = s.mem.read a

/-- As `WriteTaken`, for an action in whose course records of `perhaps` may be marked besides. -/
structure WriteDone (sl : Slot) (w : Word) (reqs : List Slot) (always perhaps : List Rec) (s u t : State) :
    Prop where
  rest : t = { u with
    mem := t.mem, dirty := t.dirty, lock := lockAfter s sl u.lock,
    agent := { u.agent with lastPart := false, queue := queueAfter s sl reqs } }
  marks : MarksBetween always perhaps s t
  word : t.mem.readWord (slotAddr s sl) = w
  bytes : ∀ a, a ≠ slotAddr s sl → a ≠ slotAddr s sl + 1 → t.mem.read a = s.mem.read a

/-- A write to a slot that the filter blocks with a reason (R7): memory keeps every byte, and the
attention record holds the offset and the reason. -/
structure WriteBlocked (sl : Slot) (r : BlockReason) (s t : State) : Prop where
  rest : t = { s with
    dirty := t.dirty, lock := lockAfter s sl s.lock,
    agent := { s.agent with lastPart := false, queue := queueAfter s sl [] },
    att := { s.att with
      pending := s.att.pending ||| 0x0001#16, blockOffset := numWord sl.offset, blockReason := r } }
  marks : MarksExactly [.attention] s t
  bytes : ∀ a, t.mem.read a = s.mem.read a

/-- The words that a slot's write is blocked for with reason VALUE (R19, R36, R191, R192). -/
def valueBlocked (s : State) : Slot → Word → Prop
  | .attnEnable, v | .attnAck, v => v &&& 0xF800#16 ≠ 0
  | .knobZone, v => v.toNat ≠ 1 ∧ v.toNat ≠ 2
  | .source _, v => 7 < v.toNat
  | .mute _, v | .moduleEn _, v | .format _, v | .region, v | .band, v | .afFollow, v
  | .speaker .frontSize, v | .speaker .sub, v => 1 < v.toNat
  | .fadeRate _, v => v.toNat ≠ 2 ∧ v.toNat ≠ 4 ∧ v.toNat ≠ 8 ∧ v.toNat ≠ 16
  | .decodeMode, v | .steerSpeed, v | .desc _ .rate, v | .speaker .center, v | .speaker .surround, v
  | .speaker .back, v | .speaker .top, v => 2 < v.toNat
  | .speaker .crossover, v => 5 < v.toNat
  | .desc _ .baseLo, v => v.getLsbD 0 = true
  | .desc _ .baseHi, v => 0xFF < v.toNat
  | .desc _ .channels, v => v.toNat ≠ 2 ∧ v.toNat ≠ 8
  | .desc _ .width, v => v.toNat ≠ 16 ∧ v.toNat ≠ 24
  | .fill m, v => (s.ms.get m).size ≤ v.toNat
  | .entry _ 0, v =>
    v &&& 0xF8F0#16 ≠ 0 ∨ 11 < v.toNat % 16 ∨ v.toNat / 256 % 8 = 0 ∨ 4 < v.toNat / 256 % 8
  | .entry _ 3, v =>
    v &&& 0xF0CC#16 ≠ 0 ∨ v.toNat % 4 = 3 ∨ v.toNat / 256 % 16 = 0 ∨ 8 < v.toNat / 256 % 16
  | _, _ => False

/-- The word that the filter carries of a full write that no check blocks (R6, R80, R81, R190, R192): the nearer
bound of a numeric slot's range, FRONT_SIZE as LARGE while SUB is ABSENT, BACK as ABSENT while SURROUND is
ABSENT, and every other word as written. -/
def carriedWord (s : State) (sl : Slot) (v : Word) : Word :=
  let num := fun lo hi => BitVec.ofNat 16 (max lo (min hi v.toNat))
  let lev := fun lo hi => BitVec.ofInt 16 (max lo (min hi v.toInt))
  match sl with
  | .knobStep => num 1 8
  | .volume z => lev (-320) (s.gain.zones.get z).maxVolume
  | .waitLimit _ => num 500 10000
  | .lipsync _ => num 0 200
  | .srcTrim _ | .trim _ => lev (-48) 48
  | .desc _ .size => num 64 65535
  | .speaker .frontSize => if s.bass.staged.subPresent = false then 0 else v
  | .speaker .back => if s.bass.staged.surround = .absent then 2 else v
  | .maxVolume _ => lev (-320) 32
  | .dist _ => num 0 1500
  | .seqLen => num 0 16
  | .entry _ 1 | .entry _ 2 | .seekThr | .blendThr | .afThr => num 0 1023
  | .code => num 0 (topCode s.tun.region s.tun.band)
  | .feDivisor => num 2 65535
  | _ => v

/-- The slots whose word the owner's present state forbids to write: a descriptor of a stream that is
not STOPPED, and REGION unless the tuner is OFF (R36, R162). -/
def stateBlocked (s : State) : Slot → Prop
  | .desc m _ => (s.ms.get m).state ≠ .stopped
  | .region => s.tun.state ≠ .off
  | _ => False

/-- The slot, the lanes and the word of a command that is a host write to an assigned slot (R192). -/
def writeRow : Instr → Option (Slot × Lanes × Word)
  | .slotWrite off l v => (slotAt off.toNat).map fun sl => (sl, l, v)
  | .attnEnableWrite l v => some (.attnEnable, l, v)
  | .attnAckWrite l v => some (.attnAck, l, v)
  | .setupLockWrite l v => some (.setupLock, l, v)
  | .restartAudio l => some (.systemCmd, l, 0x0001#16)
  | .selfRecheck l => some (.systemCmd, l, 0x0002#16)
  | .formatWrite n l v => some (.format n, l, v)
  | .streamDescriptorWrite m d l v => some (.desc m d, l, v)
  | .fillWrite m l v => some (.fill m, l, v)
  | .streamStart m l => some (.streamCmd m, l, 0x0001#16)
  | .streamStop m l => some (.streamCmd m, l, 0x0002#16)
  | .sourceWrite z l v => some (.source z, l, v)
  | .fadeRateWrite z l v => some (.fadeRate z, l, v)
  | .waitLimitWrite z l v => some (.waitLimit z, l, v)
  | .decodeModeWrite l v => some (.decodeMode, l, v)
  | .steerSpeedWrite l v => some (.steerSpeed, l, v)
  | .speakerConfigWrite p l v => some (.speaker p, l, v)
  | .volumeWrite z l v => some (.volume z, l, v)
  | .muteWrite z l v => some (.mute z, l, v)
  | .maxVolumeWrite z l v => some (.maxVolume z, l, v)
  | .distWrite ch l v => some (.dist ch, l, v)
  | .lipsyncWrite z l v => some (.lipsync z, l, v)
  | .moduleEnWrite m l v => some (.moduleEn m, l, v)
  | .clearTrip n l => some (.moduleCmd, l, 0x01#8 ++ n)
  | .seqLenWrite l v => some (.seqLen, l, v)
  | .entryWrite n w l v => some (.entry n w, l, v)
  | .measure x d l => some (.measureCmd, l, 0x1#4 ++ x ++ d)
  | .feDivisorWrite l v => some (.feDivisor, l, v)
  | .regionWrite l v => some (.region, l, v)
  | .bandWrite l v => some (.band, l, v)
  | .codeWrite l v => some (.code, l, v)
  | .tune l => some (.tunerCmd, l, 0x0001#16)
  | .seekUp l => some (.tunerCmd, l, 0x0002#16)
  | .seekDown l => some (.tunerCmd, l, 0x0003#16)
  | .tunerStop l => some (.tunerCmd, l, 0x0004#16)
  | .tunerOff l => some (.tunerCmd, l, 0x0005#16)
  | .recall n l => some (.tunerCmd, l, 0x01#8 ++ n)
  | .store n l => some (.tunerCmd, l, 0x02#8 ++ n)
  | _ => none

/-! ### A block handed over (R175, R182 to R188) -/

/-- A command takes the decoder to `d`, and beside the weak count, the STATION cause and the marks that follow it
changes nothing else. -/
def DecoderTaken (i : Instr) (s : State) (d : Station) : Prop :=
  ∃ t, exec i s = .next t
    ∧ StationStep s { s with sd := d, tun := { s.tun with weak := t.tun.weak } } t
    ∧ t.tun.weak = weakKept { s with sd := d }

/-- What a command that hands over a block of information word `w`, valid at position `p`, makes of the decoder,
which is `e` once it has judged the block. In LISTENING a code (R183), a category (R184) and a name or text
segment (R185) received twice running are confirmed, a code of another station clears what belonged to the old
one, the flags are taken, a turned text-toggle flag clears the text, and an AF value offers its code (R187). A P2
or P3 without its P1 is discarded (R182). In VERIFYING only a code is taken, and the first one that would be
confirmed ends the verification (R175, R188). -/
structure BlockHanded (i : Instr) (w : Word) (p : Nat) (e : Station) (s : State) : Prop where
  codeNew : p = 0 → e.candidate.code ≠ some w →
    DecoderTaken i s { e with
      group := ⟨some w, none, none, none⟩, candidate := { e.candidate with code := some w } }
  codeAgain : p = 0 → e.candidate.code = some w → s.tun.state = .listening →
    let fresh := { e with group := ⟨some w, none, none, none⟩ }
    let other := (∃ h, e.confirmed.code = some h ∧ h ≠ w)
      ∨ (e.confirmed.code = none ∧ ∃ h, s.tun.expected = some h ∧ h ≠ w)
    let bare := fun (c : Content) => { c with names := List.replicate 6 none, texts := List.replicate 12 none }
    (¬other → DecoderTaken i s { fresh with confirmed := { e.confirmed with code := some w } })
    ∧ (other → DecoderTaken i s { fresh with
        candidate := bare e.candidate, confirmed := { bare e.confirmed with code := some w }
        toggleRef := none, af := [] })
  verified : p = 0 → e.candidate.code = some w → s.tun.state = .verifying → w = s.tun.probe.verifyCode →
    let x := s.tun
    let pr := x.probe
    ∃ t, exec i s = .next t ∧ StationStep s
      { s with
        sd := { e with
          group := ⟨some w, none, none, none⟩
          af := if x.tunedCode ∈ e.af then
              (if pr.original ∈ e.af then e.af.filter fun y => y != x.tunedCode
                else e.af.map fun y => if y = x.tunedCode then pr.original else y)
            else if e.af.length < 12 ∧ pr.original ≠ x.tunedCode ∧ pr.original ∉ e.af then e.af ++ [pr.original]
            else e.af }
        agent := { s.agent with
          queue := queueWith s.agent.queue
            ((if pr.band = x.band then [] else [.band]) ++ if x.tunedCode = x.code then [] else [.code]) }
        att := { s.att with pending := s.att.pending ||| 0x0100#16 }
        tun := { x with
          state := .listening, band := pr.band, code := x.tunedCode, verifyTimer := false, weak := 0,
          outcome := .afSwitched, outcomeCount := (x.outcomeCount + 1) % 65536 } } t
  refuted : p = 0 → e.candidate.code = some w → s.tun.state = .verifying → w ≠ s.tun.probe.verifyCode →
    let x := s.tun
    let pr := x.probe
    ∃ t, exec i s = .next t
      ∧ TunerStep true false s
          { s with
            fe := t.fe, meas := readingAbandoned s.meas
            sd := bitsStopped true { e with group := ⟨some w, none, none, none⟩ }
            tun := { x with
              state := .tuning, reason := .verifyFailed, backoff := true, weak := 0, settleTimer := false,
              readingTimer := false, queryTimer := false, verifyTimer := false } } t
      ∧ SentOnLine (abandonsOf true) (.tune pr.band x.region pr.original .plain) s.fe t.fe
  ignored : 1 ≤ p → s.tun.state = .verifying → DecoderTaken i s e
  first : p = 1 → s.tun.state = .listening →
    let n := w.toNat
    let cat := n / 8 % 32
    let toggle := decide (n % 2 = 1)
    let turned := e.toggleRef = some (!toggle)
    let bare := fun (c : Content) => if turned then { c with texts := List.replicate 12 none } else c
    DecoderTaken i s { e with
      group := { e.group with p1 := some w }
      traffic := decide (n / 4 % 2 = 1), speech := decide (n / 2 % 2 = 1), toggle := toggle
      toggleRef := some toggle
      candidate := bare { e.candidate with category := some cat }
      confirmed := bare
        (if e.candidate.category = some cat then { e.confirmed with category := some cat } else e.confirmed) }
  orphan : 2 ≤ p → e.group.p1 = none → DecoderTaken i s e
  second : 2 ≤ p → s.tun.state = .listening → ∀ k, e.group.p1 = some k →
    let n := w.toNat
    let g := { e with
      group := if p = 2 then { e.group with p2 := some w } else { e.group with p3 := some w } }
    let kind := k.toNat / 4096
    let seg := k.toNat / 256 % 16
    (kind = 0 →
      let offers := 1 ≤ n ∧ n ≤ 206 ∧ e.af.length < 12 ∧ n - 1 ∉ e.af ∧ n - 1 ≠ s.tun.code
      DecoderTaken i s { g with af := if offers then e.af ++ [n - 1] else e.af })
    ∧ (kind = 1 → p = 2 → seg ≤ 5 →
        let known := e.candidate.names.getD seg none = some w
        DecoderTaken i s { g with
          candidate := if known then e.candidate else
            { e.candidate with names := e.candidate.names.set seg (some w) }
          confirmed := if known then
            { e.confirmed with names := e.confirmed.names.set seg (some w) } else e.confirmed })
    ∧ (kind = 2 → p = 2 → DecoderTaken i s g)
    ∧ (kind = 2 → p = 3 → seg ≤ 11 → ∀ q, e.group.p2 = some q →
        let known := e.candidate.texts.getD seg none = some (q, w)
        DecoderTaken i s { g with
          candidate := if known then e.candidate else
            { e.candidate with texts := e.candidate.texts.set seg (some (q, w)) }
          confirmed := if known then
            { e.confirmed with texts := e.confirmed.texts.set seg (some (q, w)) } else e.confirmed })
    ∧ (3 ≤ kind ∨ (kind = 1 ∧ (p = 3 ∨ 5 < seg)) ∨ (kind = 2 ∧ p = 3 ∧ (e.group.p2 = none ∨ 11 < seg)) →
        DecoderTaken i s g)

end Sys2Proof
end

