-- ==== Sys2Proof/Certificates/Slice0/Obligations.lean ====
section
/-! DEFINITION. The statements for the provers, from the numbered rules of spec/. -/

set_option autoImplicit false

open Sys2Proof Sys2Proof.Machine

/-! ### The queue of commands and the reset pin -/

/-- A step takes the command at the front of the queue and runs it with the queue's rest. -/
def Obligations.StepTakesFrontCommand : Prop :=
  ∀ (c : Instr) (rest : List Instr) (s : State),
    step { s with pending := c :: rest } = exec c { s with pending := rest }

/-- The values that the spec gives for pin reset: the memory agent, the attention state and the lock (R19, R21,
R138), the SA lines and the streams (R35, R43), the zones and the carrying view (R48, R64), the decoder (R78), the
bass manager (R88), the gain stage (R108), the knob decoder (R109), the delay pool (R121), the modules and the clock
(R125, R135), the measurement unit (R154), the front-end line (R161), the tuner (R177) and the station decoder
(R186), and in each slot the reset word of its row (R141, R192). Values that the spec does not give are not said here.
Rests on the model's choice in log 53 (the mark of the device record, which the measurement unit sets as RSTN
rises). -/
def Obligations.ResetStateHoldsStatedValues : Prop :=
  let s := State.reset
  s.agent.port = .free ∧ s.agent.held = none ∧ s.agent.queue = [] ∧ s.agent.restore = some ⟨.full, 0⟩
    ∧ s.att = ⟨0, 0, 0, .none⟩ ∧ s.dirty = [.device] ∧ s.lock = .locked ∧ s.clock = .unproven
    ∧ s.audioStarted = false ∧ s.meterTimer = false
    ∧ (∀ l, let x := s.sa.get l
        x.lock = .noClock ∧ x.runClass = none ∧ x.runCount = 0 ∧ x.otherRun = 0 ∧ x.misses = 0
          ∧ x.lockedClass = none ∧ x.npcmTaken = false ∧ x.npcmTimer = true ∧ x.conv = .empty
          ∧ x.format = .stereo ∧ x.edges = 0)
    ∧ (∀ m, let x := s.ms.get m
        x.state = .stopped ∧ x.drain = 0 ∧ x.buffer = [] ∧ x.starvations = 0 ∧ x.conv = .empty
          ∧ x.baseLo = 0 ∧ x.baseHi = 0 ∧ x.size = 64 ∧ x.channels = 2 ∧ x.width = 16 ∧ x.rate = 2 ∧ x.fill = 0)
    ∧ (∀ z, let r := s.zones.get z
        r.state = .silent ∧ r.connected = none ∧ r.pending = none ∧ r.fade = -320 ∧ r.gateOpen = false
          ∧ r.held.decode = false ∧ r.held.speakers = false ∧ r.held.delay = false ∧ r.fadeRate = 4
          ∧ r.waitLimit = 3000 ∧ r.waited = 0 ∧ r.noSignal = false)
    ∧ (∀ src, s.view.get src = false)
    ∧ s.dec.active = .direct ∧ s.dec.staged = .direct ∧ s.dec.speed = .normal ∧ s.dec.env = ⟨0, 0, 0, 0⟩
    ∧ s.dec.sums = ⟨0, 0, 0, 0⟩ ∧ s.dec.frames = 0
    ∧ (∀ ch, s.dec.stagedTerms.get ch = 0 ∧ s.dec.activeTerms.get ch = 0)
    ∧ s.bass.staged = ⟨.small, .small, .small, .absent, .absent, true, 2⟩ ∧ s.bass.active = s.bass.staged
    ∧ (∀ ch, s.bass.filters.get ch = .zero)
    ∧ (∀ z, (s.gain.zones.get z).volume = -120 ∧ (s.gain.zones.get z).mute = false
        ∧ (s.gain.zones.get z).maxVolume = 0)
    ∧ (∀ ch, (s.gain.chans.get ch).applied = -320 ∧ coeff (s.gain.chans.get ch).applied = 0
        ∧ (s.gain.chans.get ch).peak = 0 ∧ (s.gain.chans.get ch).clip = false ∧ s.gain.trims.get ch = 0)
    ∧ (∀ src, s.gain.srcTrims.get src = 0)
    ∧ s.knob.a.taken = none ∧ s.knob.b.taken = none ∧ s.knob.reference = none
    ∧ s.knob.zone = .z1 ∧ s.knob.step = 2 ∧ s.knob.acc = 0
    ∧ (∀ ch, s.pool.dist.get ch = 300)
    ∧ s.pool.presence = ⟨true, true, true, true, true, true, false, false, false, false⟩
    ∧ (∀ ch, s.pool.active.len.get ch = 0 ∧ s.pool.staged.len.get ch = 0 ∧ s.pool.lines.get ch = [])
    ∧ (∀ z, s.pool.lipsync.get z = 0 ∧ s.pool.active.grant.get z = 0 ∧ s.pool.staged.grant.get z = 0
        ∧ s.pool.alloc.get z = .settled)
    ∧ (∀ m, (s.mods.get m).state = .off ∧ (s.mods.get m).enable = true ∧ (s.mods.get m).order = false
        ∧ (s.mods.get m).cause = .none ∧ (s.mods.get m).tripEntry = 0 ∧ (s.mods.get m).derate = 0)
    ∧ s.meas.seqLen = 12 ∧ s.meas.entries.length = 16
    ∧ (∀ e ∈ s.meas.entries, e.code = none ∧ e.count = 0 ∧ e.violation = false)
    ∧ s.meas.roundRobin = false ∧ s.meas.position = 0 ∧ s.meas.queue = [.selfCheck false]
    ∧ s.meas.onDemandCount = 0 ∧ s.meas.hostStatus = .none ∧ s.meas.hostInput = 0 ∧ s.meas.hostDivider = 1
    ∧ s.meas.hostCode = 0 ∧ s.meas.hostCount = 0 ∧ s.meas.result = .running ∧ s.meas.refCode = 0
    ∧ s.meas.halfRefCode = 0 ∧ s.meas.conv = none
    ∧ s.fe.txFrames = [] ∧ s.fe.rxQueue = [] ∧ s.fe.assembler = .hunt ∧ s.fe.outstanding = none
    ∧ s.fe.pending = none ∧ s.fe.responseTimer = false ∧ s.fe.divisor = 40 ∧ s.fe.divisorSetting = 40
    ∧ s.tun.state = .off ∧ s.tun.settleTimer = false ∧ s.tun.readingTimer = false ∧ s.tun.queryTimer = false
    ∧ s.tun.verifyTimer = false ∧ s.tun.backoff = false ∧ s.tun.expected = none ∧ s.tun.stereo = true
    ∧ s.tun.lowRun = 0 ∧ s.tun.highRun = 0 ∧ s.tun.pilot = false ∧ s.tun.weak = 0 ∧ s.tun.transfer = .none
    ∧ s.tun.seekThr = 420 ∧ s.tun.blendThr = 360 ∧ s.tun.afThr = 300 ∧ s.tun.afFollow = true
    ∧ s.tun.tunedBand = .fm ∧ s.tun.tunedCode = 0 ∧ s.tun.outcome = .none ∧ s.tun.outcomeCount = 0
    ∧ s.sd.sync = .idle ∧ s.sd.window = [] ∧ s.sd.validCount = 0 ∧ s.sd.badCount = 0
    ∧ s.sd.group = ⟨none, none, none, none⟩ ∧ s.sd.gapTimer = false ∧ s.sd.candidate = .empty
    ∧ s.sd.confirmed = .empty ∧ s.sd.traffic = false ∧ s.sd.speech = false ∧ s.sd.toggleRef = none ∧ s.sd.af = []
    ∧ Content.empty = ⟨none, none, List.replicate 6 none, List.replicate 12 none⟩
    ∧ ∀ sl, slotValue s sl = resetWord sl

/-- The invariants hold at the state after reset. -/
def Obligations.ResetStateMeetsInvariants : Prop :=
  MemoryCanonical State.reset ∧ WriteBackQueueLaw State.reset ∧ MarksInOrder State.reset ∧ ModulesSilent State.reset
    ∧ ModulesPowered State.reset ∧ OrdersOnlyWhileOn State.reset ∧ PoolLaw State.reset.pool
    ∧ AfListLaw State.reset ∧ ZonesLaw State.reset ∧ WaitLimitsInRange State.reset ∧ GainsInRange State.reset

/-- RSTN falls (R2): the outputs are released at once, FTX is high (R161), the port is the host's or free, a
write burst in flight ends at a word cycle `k`, where the words before it stay and those after it are not
written, and a held access is then carried unchanged: a read returns on each enabled lane the byte that memory holds
then, a write changes the enabled lanes alone, and above the memory fitted no byte (log 5). A read burst in flight
leaves memory as it was, with a held access or without. Rests on the model's choices in logs 2, 5, 6, 7, 47 and 64. -/
def Obligations.ResetPinFallsCutsBurst : Prop :=
  ∀ s : State, MemoryCanonical s →
    ∃ t, exec .rstnFall s = .next t
      ∧ t.rstnLow = true ∧ (∀ m, ampEnabled t m = false) ∧ (∀ ch, linkOut t ch = 0)
      ∧ attentionLow t = false ∧ waitLow t = false ∧ (∀ n, ftxLevel t n = true)
      ∧ (s.agent.held = none →
          t = { s with
                rstnLow := true, mem := t.mem, free := t.free,
                agent := { s.agent with port := if s.agent.port = .host then .host else .free } }
            ∧ ((∀ b, s.agent.port = .part b → b.isWrite = false) → ∀ a, t.mem.read a = s.mem.read a)
            ∧ (∀ b, s.agent.port = .part b → b.isWrite = true → b.words ≠ [] →
                b.replaced.length = b.words.length →
                ∃ k, 1 ≤ k ∧ k ≤ b.words.length
                  ∧ (∀ i w, k ≤ i → b.replaced[i]? = some w → t.mem.readWord (b.addr + 2 * i) = w)
                  ∧ (∀ a, a < b.addr + 2 * k ∨ b.addr + 2 * b.words.length ≤ a →
                      t.mem.read a = s.mem.read a)))
      ∧ ∀ h, s.agent.held = some h →
          (∀ b, s.agent.port = .part b → b.isWrite = true → b.replaced.length = b.words.length) →
          t = { s with
              rstnLow := true, mem := t.mem, free := t.free, readData := t.readData,
              agent := { s.agent with
                port := if h.whole = true then .free else .host, held := none,
                lastPart := if h.whole = true then false else s.agent.lastPart } }
          ∧ ∃ cut : Nat → Byte,
              ((∀ b, s.agent.port = .part b → b.isWrite = false) → ∀ a, cut a = s.mem.read a)
              ∧ (∀ b, s.agent.port = .part b → b.isWrite = true → b.words ≠ [] →
                  ∃ k, 1 ≤ k ∧ k ≤ b.words.length
                    ∧ (∀ i w, k ≤ i → b.replaced[i]? = some w →
                        cut (b.addr + 2 * i) = w.extractLsb' 0 8 ∧ cut (b.addr + 2 * i + 1) = w.extractLsb' 8 8)
                    ∧ ∀ a, a < b.addr + 2 * k ∨ b.addr + 2 * b.words.length ≤ a → cut a = s.mem.read a)
              ∧ (h.access.isWrite = false → (∀ a, t.mem.read a = cut a)
                  ∧ (accessAddr h.access < fittedBytes s.strap →
                      (h.access.lanes.lo = true → t.readData.extractLsb' 0 8 = cut (accessAddr h.access))
                        ∧ (h.access.lanes.hi = true → t.readData.extractLsb' 8 8 = cut (accessAddr h.access + 1))))
              ∧ (h.access.isWrite = true → t.readData = s.readData
                  ∧ (fittedBytes s.strap ≤ accessAddr h.access → ∀ a, t.mem.read a = cut a)
                  ∧ (accessAddr h.access < fittedBytes s.strap → ∀ a, t.mem.read a =
                      if h.access.lanes.lo = true ∧ a = accessAddr h.access then h.access.data.extractLsb' 0 8
                      else if h.access.lanes.hi = true ∧ a = accessAddr h.access + 1 then
                        h.access.data.extractLsb' 8 8
                      else cut a))

/-- RSTN rises (R21): every block takes its reset state, the straps are sampled, and what lies outside the
part stays: memory, the levels of the input pins, and a host access on the port. Rests on the model's choices
in logs 3, 8, 23, 39, 40, 53 and 56. -/
def Obligations.ResetPinRisesRestoresReset : Prop :=
  ∀ (aps1 aps0 : Bool) (s : State), ∃ t, exec (.rstnRise aps1 aps0) s = .next t
    ∧ t = { State.reset with
        pending := s.pending, strap := (aps1, aps0), mem := s.mem, readData := s.readData,
        agent := { State.reset.agent with port := if s.agent.port = .host then .host else .free },
        sa := t.sa, knob := t.knob, mods := t.mods, free := s.free }
    ∧ (∀ l, t.sa.get l = { State.reset.sa.get l with npcmPin := (s.sa.get l).npcmPin })
    ∧ t.knob = { State.reset.knob with
        a := { State.reset.knob.a with pin := s.knob.a.pin }
        b := { State.reset.knob.b with pin := s.knob.b.pin } }
    ∧ (∀ m, t.mods.get m = { State.reset.mods.get m with fltPin := (s.mods.get m).fltPin })
    ∧ (∀ a, t.mem.read a = s.mem.read a)

/-! ### Host accesses and the write filter -/

/-- The straps place the aperture, whose offsets count from its base to 0xFFFF (R2). A host access that finds the
port free, no request of the part whose turn it is, and no restore pass
that holds it, goes at once (R1, R12): a read returns on each enabled lane the byte memory holds, and with both
lanes the word, a write outside the control region and the report area changes the enabled lanes alone, a write inside
them does what the write row of its offset, lanes and word does (R5 to R8, R138), with the port left in the host's
hands, and its end frees the port. With RSTN low every access is carried unchanged and nothing is filtered (R2). Rests
on the model's choices in logs 2, 6, 8 and 64. -/
def Obligations.HostAccessGoesAtFreePort : Prop :=
  (∀ s : State, (s.strap, s.apertureBase) ∈
    [((false, false), 0xFF0000), ((false, true), 0x7F0000), ((true, false), 0x3F0000), ((true, true), 0x1F0000)])
  ∧ (∀ (a : HostAccess) (s : State) (off : Nat), accessOffset s a = some off ↔
      off ≤ 0xFFFF ∧ accessAddr a = s.apertureBase + off)
  ∧ (∀ (a : HostAccess) (s : State), MemoryCanonical s → s.rstnLow = false → s.agent.port = .free →
    s.agent.held = none → partsTurn s = false → accessAddr a < fittedBytes s.strap →
    (s.agent.restore = none ∨ ∀ off, accessOffset s a = some off → 0x1000 ≤ off) →
    (a.isWrite = false → ∃ t, exec (.hostAccessBegin a) s = .next t ∧ HostReads a s t)
    ∧ (a.isWrite = true → (∀ off, accessOffset s a = some off → 0x1000 ≤ off) →
      ∃ t, exec (.hostAccessBegin a) s = .next t
        ∧ t = { s with mem := t.mem, agent := { s.agent with port := .host } }
        ∧ ∀ x, t.mem.read x =
            if a.lanes.lo = true ∧ x = accessAddr a then a.data.extractLsb' 0 8
            else if a.lanes.hi = true ∧ x = accessAddr a + 1 then a.data.extractLsb' 8 8
            else s.mem.read x))
  ∧ (∀ (a : HostAccess) (off : BitVec 16) (s : State), PortOpen s → a.isWrite = true →
      accessOffset s a = some off.toNat → off.toNat < 0x1000 →
      ∃ t, exec (.slotWrite off a.lanes a.data) s = .next t
        ∧ exec (.hostAccessBegin a) s =
          .next { t with agent := { t.agent with port := .host, lastPart := s.agent.lastPart } })
  ∧ (∀ (a : HostAccess) (s : State), MemoryCanonical s → s.rstnLow = true → s.agent.port = .free →
      s.agent.held = none → accessAddr a < fittedBytes s.strap →
      (a.isWrite = false → ∃ t, exec (.hostAccessBegin a) s = .next t ∧ HostReads a s t)
      ∧ (a.isWrite = true → ∃ t, exec (.hostAccessBegin a) s = .next t
          ∧ t = { s with mem := t.mem, agent := { s.agent with port := .host } }
          ∧ ∀ x, t.mem.read x =
              if a.lanes.lo = true ∧ x = accessAddr a then a.data.extractLsb' 0 8
              else if a.lanes.hi = true ∧ x = accessAddr a + 1 then a.data.extractLsb' 8 8
              else s.mem.read x))
  ∧ (∀ (i : Instr) (sl : Slot) (lanes : Lanes) (v : Word) (s : State), writeRow i = some (sl, lanes, v) →
      MemoryCanonical s → s.rstnLow = true → s.agent.port = .free → s.agent.held = none →
      ∃ t, exec i s = .next t
        ∧ t = { s with mem := t.mem, agent := { s.agent with lastPart := false } }
        ∧ ∀ x, t.mem.read x =
            if lanes.lo = true ∧ x = slotAddr s sl then v.extractLsb' 0 8
            else if lanes.hi = true ∧ x = slotAddr s sl + 1 then v.extractLsb' 8 8
            else s.mem.read x)
  ∧ (∀ s : State, s.agent.port = .host →
      exec .hostAccessEnd s = .next { s with agent := { s.agent with port := .free, lastPart := false } })

/-- A host access that meets a part burst, or a restore pass that holds it, or a free port while the part
has a request and it is its turn, is held on WAITN (R12, R21). Rests on the model's choices in logs 2 and
8. -/
def Obligations.HostAccessHeldOnWait : Prop :=
  (∀ (i : Instr) (sl : Slot) (lanes : Lanes) (v : Word) (s : State), writeRow i = some (sl, lanes, v) →
    s.rstnLow = false → s.agent.held = none →
    (∃ b, s.agent.port = .part b)
      ∨ (s.agent.port = .free ∧ (s.agent.restore.isSome = true ∨ partsTurn s = true)) →
    ∃ t, exec i s = .next t ∧ waitLow t = true
      ∧ t = { s with agent := { s.agent with held := some ⟨slotAccess s sl.offset lanes v, true⟩ } })
  ∧ (∀ (a : HostAccess) (s : State), s.rstnLow = false → s.agent.held = none →
    (∃ b, s.agent.port = .part b)
      ∨ (s.agent.port = .free
          ∧ ((s.agent.restore.isSome = true ∧ ∃ off, accessOffset s a = some off ∧ off < 0x1000)
              ∨ partsTurn s = true)) →
    ∃ t, exec (.hostAccessBegin a) s = .next t ∧ waitLow t = true
      ∧ t = { s with agent := { s.agent with held := some ⟨a, false⟩ } })

/-- A host write to a word of the control region that no slot has is carried unchanged, with its lane
enables; like every such write it relocks a PENDING lock (R3, R138). Rests on the model's choices in logs 2,
6 and 35. -/
def Obligations.UnassignedWordWriteCarried : Prop :=
  ∀ (off : BitVec 16) (lanes : Lanes) (v : Word) (s : State), PortOpen s → MemoryCanonical s →
    off.toNat < 0x400 → off.toNat % 2 = 0 → slotAt off.toNat = none →
    ∃ t, exec (.slotWrite off lanes v) s = .next t
      ∧ t = { s with
          mem := t.mem, dirty := t.dirty,
          lock := if s.lock = .pending then .locked else s.lock,
          agent := { s.agent with
            lastPart := false
            queue := queueWith s.agent.queue (if s.lock = .pending then [.setupLock] else []) } }
      ∧ MarksExactly [] s t
      ∧ ∀ a, t.mem.read a =
          if lanes.lo = true ∧ a = s.apertureBase + off.toNat then v.extractLsb' 0 8
          else if lanes.hi = true ∧ a = s.apertureBase + off.toNat + 1 then v.extractLsb' 8 8
          else s.mem.read a

/-- The write filter's order of checks (R5, R7): a partial write is blocked PARTIAL; else a lockable slot
while the lock is not UNLOCKED, LOCKED; else a slot the owner's state forbids, STATE; else a word outside
the slot's values, VALUE. A full or partial write to the report area is blocked PART_OWNED. Every blocked
write leaves every byte of memory as it was. Rests on the model's choices in logs 2 and 35. -/
def Obligations.FilterBlocksInOrder : Prop :=
  (∀ (i : Instr) (sl : Slot) (lanes : Lanes) (v : Word) (s : State), writeRow i = some (sl, lanes, v) →
    PortOpen s →
    (lanes ≠ .full → ∃ t, exec i s = .next t ∧ WriteBlocked sl .partialWrite s t)
    ∧ (lanes = .full → sl.isLockable = true → s.lock ≠ .unlocked →
        ∃ t, exec i s = .next t ∧ WriteBlocked sl .locked s t)
    ∧ (lanes = .full → stateBlocked s sl → ∃ t, exec i s = .next t ∧ WriteBlocked sl .state s t)
    ∧ (lanes = .full → (sl.isLockable = true → s.lock = .unlocked) → ¬stateBlocked s sl → valueBlocked s sl v →
        ∃ t, exec i s = .next t ∧ WriteBlocked sl .value s t))
  ∧ (∀ (off : BitVec 16) (lanes : Lanes) (v : Word) (s : State), PortOpen s → 0x400 ≤ off.toNat →
      off.toNat < 0x1000 → off.toNat % 2 = 0 →
      ∃ t, exec (.slotWrite off lanes v) s = .next t
        ∧ t = { s with
            dirty := t.dirty, agent := { s.agent with lastPart := false },
            att := { s.att with
              pending := s.att.pending ||| 0x0001#16, blockOffset := off, blockReason := .partOwned } }
        ∧ MarksExactly [.attention] s t
        ∧ ∀ a, t.mem.read a = s.mem.read a)

/-- The slots stand at the offsets of section 11.2, every other word unassigned, with the kinds and marks of its
table (R4, R192), and each shows its owner's value (R11, R190). A write to a state slot that no check blocks leaves
the carried word (R6, R80, R81, R190) in memory and in its owner alike (R8, R11): the slot reads as the owner
holds it, and no other byte changes. ATTN_ACK, SETUP_LOCK and the command slots have write-backs of their own; an
entry is one of the sixteen, and a SOURCE arrival meets a zone that keeps the zones' law. Rests on the model's
choices in log 2. -/
def Obligations.TakenSlotWordIsOwnersValue : Prop :=
  SlotTable
  ∧ (∀ s : State, SlotsHold s (BitVec.ofNat 16) (BitVec.ofInt 16))
  ∧ ∀ (i : Instr) (sl : Slot) (v : Word) (s : State), writeRow i = some (sl, .full, v) → PortOpen s →
    MemoryCanonical s → sl.isCommand = false → sl ≠ .attnAck → sl ≠ .setupLock →
    (sl.isLockable = true → s.lock = .unlocked) → ¬stateBlocked s sl → ¬valueBlocked s sl v →
    s.meas.entries.length = 16 → (∀ z, gainFloor ≤ (s.gain.zones.get z).maxVolume) →
    (∀ z, (s.gain.zones.get z).maxVolume ≤ gainCeiling) → ZonesLaw s →
    (s.audioRuns = true → ∀ z, (s.zones.get z).kept = none) →
    ∃ t, exec i s = .next t ∧ t.mem.readWord (slotAddr s sl) = carriedWord s sl v
      ∧ slotValue t sl = carriedWord s sl v
      ∧ ∀ a, a ≠ slotAddr s sl → a ≠ slotAddr s sl + 1 → t.mem.read a = s.mem.read a

/-- ATTN_ACK removes the named causes from the pending set and asks for its write-back (R19). SETUP_LOCK
(R137): 0 takes LOCKED to PENDING and PENDING and UNLOCKED to UNLOCKED, any other word locks, and a
write-back is asked for when the word is not the new state's. ATTNN is low exactly while a pending cause is
enabled and RSTN is high (R18). Rests on the model's choices in logs 2, 10 and 35. -/
def Obligations.AckAndLockWritesFollowTheirRules : Prop :=
  (∀ s : State, attentionLow s = true ↔
    s.rstnLow = false ∧ ∃ k, k < 16 ∧ s.att.pending.getLsbD k = true ∧ s.att.enable.getLsbD k = true)
  ∧ ∀ (v : Word) (s : State), PortOpen s → MemoryCanonical s →
    (v &&& 0xF800#16 = 0 → ∃ t, exec (.attnAckWrite .full v) s = .next t
      ∧ WriteTaken .attnAck v [.attnAck] [] s
          { s with att := { s.att with pending := s.att.pending &&& ~~~v } } t)
    ∧ (v = 0 → s.lock = .locked → ∃ t, exec (.setupLockWrite .full v) s = .next t
      ∧ WriteTaken .setupLock v [.setupLock] [] s { s with lock := .pending } t)
    ∧ (v = 0 → s.lock ≠ .locked → ∃ t, exec (.setupLockWrite .full v) s = .next t
      ∧ WriteTaken .setupLock v [] [] s { s with lock := .unlocked } t)
    ∧ (v = 1 → ∃ t, exec (.setupLockWrite .full v) s = .next t
      ∧ WriteTaken .setupLock v [] [] s { s with lock := .locked } t)
    ∧ (v ≠ 0 → v ≠ 1 → ∃ t, exec (.setupLockWrite .full v) s = .next t
      ∧ WriteTaken .setupLock v [.setupLock] [] s { s with lock := .locked } t)

/-- The slots that hold a setting and act on nothing else take the carried word, clamped where the slot has
a range (R19, R36, R37, R54, R67, R90, R100, R107, R155, R172); the divisor is taken up later. Rests on the
model's choices in logs 2, 31 and 35. -/
def Obligations.SettingWritesTakeTheWord : Prop :=
  ∀ (v : Word) (s : State), PortOpen s → MemoryCanonical s →
    (v &&& 0xF800#16 = 0 → ∃ t, exec (.attnEnableWrite .full v) s = .next t
      ∧ WriteTaken .attnEnable v [] [] s { s with att := { s.att with enable := v } } t)
    ∧ (∀ z, v.toNat ∈ [2, 4, 8, 16] → ∃ t, exec (.fadeRateWrite z .full v) s = .next t
      ∧ WriteTaken (.fadeRate z) v [] [] s
          { s with zones := s.zones.set z { s.zones.get z with fadeRate := v.toNat } } t)
    ∧ (∀ sp, (v, sp) ∈ [(0#16, SteerSpeed.fast), (1#16, .normal), (2#16, .slow)] →
      ∃ t, exec (.steerSpeedWrite .full v) s = .next t
        ∧ WriteTaken .steerSpeed v [] [] s { s with dec := { s.dec with speed := sp } } t)
    ∧ (∀ z on, (v, on) ∈ [(0#16, false), (1#16, true)] → ∃ t, exec (.muteWrite z .full v) s = .next t
      ∧ WriteTaken (.mute z) v [] [] s
          { s with gain :=
            { s.gain with zones := s.gain.zones.set z { s.gain.zones.get z with mute := on } } } t)
    ∧ (∀ m, v.toNat < (s.ms.get m).size → ∃ t, exec (.fillWrite m .full v) s = .next t
      ∧ WriteTaken (.fill m) v [] [] s { s with ms := s.ms.set m { s.ms.get m with fill := v.toNat } } t)
    ∧ (∃ t, exec (.feDivisorWrite .full v) s = .next t
      ∧ WriteTaken .feDivisor (numWord (max 2 v.toNat)) [] [] s
          { s with fe := { s.fe with divisorSetting := max 2 v.toNat, divisorWaiting := true } } t)
    ∧ (∀ z, (v, z) ∈ [(1#16, Zone.z1), (2#16, .z2)] → ∃ t, exec (.slotWrite 0x0008#16 .full v) s = .next t
      ∧ WriteTaken .knobZone v [] [] s { s with knob := { s.knob with zone := z } } t)
    ∧ (∃ t, exec (.slotWrite 0x000A#16 .full v) s = .next t
      ∧ WriteTaken .knobStep (numWord (clampNat 1 8 v.toNat)) [] [] s
          { s with knob := { s.knob with step := clampNat 1 8 v.toNat } } t)
    ∧ (∀ src off, writeRow (.slotWrite off .full v) = some (.srcTrim src, .full, v) →
      ∃ t, exec (.slotWrite off .full v) s = .next t
        ∧ WriteTaken (.srcTrim src) (levelWord (clampInt (-48) 48 v.toInt)) [] [] s
            { s with gain := { s.gain with srcTrims := s.gain.srcTrims.set src (clampInt (-48) 48 v.toInt) } } t)
    ∧ (∀ ch off, writeRow (.slotWrite off .full v) = some (.trim ch, .full, v) →
      ∃ t, exec (.slotWrite off .full v) s = .next t
        ∧ WriteTaken (.trim ch) (levelWord (clampInt (-48) 48 v.toInt)) [] [] s
            { s with gain := { s.gain with trims := s.gain.trims.set ch (clampInt (-48) 48 v.toInt) } } t)
    ∧ (∃ t, exec (.slotWrite 0x0208#16 .full v) s = .next t
      ∧ WriteTaken .seekThr (numWord (min 1023 v.toNat)) [] [] s
          { s with tun := { s.tun with seekThr := min 1023 v.toNat } } t)
    ∧ (∃ t, exec (.slotWrite 0x020A#16 .full v) s = .next t
      ∧ WriteTaken .blendThr (numWord (min 1023 v.toNat)) [] [] s
          { s with tun := { s.tun with blendThr := min 1023 v.toNat } } t)
    ∧ (∃ t, exec (.slotWrite 0x020C#16 .full v) s = .next t
      ∧ WriteTaken .afThr (numWord (min 1023 v.toNat)) [] [] s
          { s with tun := { s.tun with afThr := min 1023 v.toNat } } t)

/-- A descriptor slot of a STOPPED stream takes the carried word: an even low half, a high half of one byte,
a SIZE of at least 64, 2 or 8 channels, 16 or 24 bits, rates 0 to 2 (R36). Rests on the model's choices in
logs 2 and 35. -/
def Obligations.StreamDescriptorTakesTheWord : Prop :=
  ∀ (m : StreamId) (v : Word) (s : State), PortOpen s → MemoryCanonical s → (s.ms.get m).state = .stopped →
    (v.getLsbD 0 = false → ∃ t, exec (.streamDescriptorWrite m .baseLo .full v) s = .next t
      ∧ WriteTaken (.desc m .baseLo) v [] [] s { s with ms := s.ms.set m { s.ms.get m with baseLo := v } } t)
    ∧ (v.toNat ≤ 0xFF → ∃ t, exec (.streamDescriptorWrite m .baseHi .full v) s = .next t
      ∧ WriteTaken (.desc m .baseHi) v [] [] s { s with ms := s.ms.set m { s.ms.get m with baseHi := v } } t)
    ∧ (∃ t, exec (.streamDescriptorWrite m .size .full v) s = .next t
      ∧ WriteTaken (.desc m .size) (numWord (max 64 v.toNat)) [] [] s
          { s with ms := s.ms.set m { s.ms.get m with size := max 64 v.toNat } } t)
    ∧ (v.toNat ∈ [2, 8] → ∃ t, exec (.streamDescriptorWrite m .channels .full v) s = .next t
      ∧ WriteTaken (.desc m .channels) v [] [] s
          { s with ms := s.ms.set m { s.ms.get m with channels := v.toNat } } t)
    ∧ (v.toNat ∈ [16, 24] → ∃ t, exec (.streamDescriptorWrite m .width .full v) s = .next t
      ∧ WriteTaken (.desc m .width) v [] [] s { s with ms := s.ms.set m { s.ms.get m with width := v.toNat } } t)
    ∧ (v.toNat ≤ 2 → ∃ t, exec (.streamDescriptorWrite m .rate .full v) s = .next t
      ∧ WriteTaken (.desc m .rate) v [] [] s { s with ms := s.ms.set m { s.ms.get m with rate := v.toNat } } t)

/-! ### What the arrivals of the zone switch, the decoder and the bass manager do -/

/-- SOURCE (R51 to R53, R65): a playing zone fades out toward another source, a fading zone changes its
goal, a closed zone connects at once, and while the audio blocks are stopped the arrival is kept. Each stay
in WAITING that begins marks the zone record (R59). Rests on the model's choices in logs 2, 35 and 65. -/
def Obligations.SourceWriteMovesTheZone : Prop :=
  ∀ (z : Zone) (v : Word) (src : Option Source) (s : State), PortOpen s → MemoryCanonical s →
    (v, src) ∈ [(0#16, none), (1#16, some (Source.sa .sa1)), (2#16, some (.sa .sa2)), (3#16, some (.sa .sa3)),
      (4#16, some (.sa .sa4)), (5#16, some (.ms .ms1)), (6#16, some (.ms .ms2)), (7#16, some .tuner)] →
    let r := s.zones.get z
    let marked := fun (always : List Rec) (r' : ZoneRec) => ∃ t, exec (.sourceWrite z .full v) s = .next t
      ∧ WriteTaken (.source z) v [] always s { s with zones := s.zones.set z r' } t
    let into := marked []
    (s.audioRuns = false → into { r with kept := some src })
    ∧ (s.audioRuns = true → r.state ∈ [ZoneState.playing, .fadingIn, .reconfiguring] →
        (src = r.connected → into r)
        ∧ (src ≠ r.connected → into { r with pending := src, state := .fadingOut }))
    ∧ (s.audioRuns = true → r.state = .fadingOut → into { r with pending := src })
    ∧ (s.audioRuns = true → r.state ∈ [ZoneState.waiting, .silent] →
        (src = none → into { r with
          connected := none, pending := none, state := .silent, fade := gainFloor, waited := 0,
          noSignal := false })
        ∧ (∀ x, src = some x → s.view.get x = true → into { r with
            connected := some x, pending := some x, state := .fadingIn, fade := gainFloor, gateOpen := true,
            waited := 0, noSignal := false })
        ∧ (∀ x, src = some x → s.view.get x = false → marked [.zone z] { r with
            connected := some x, pending := some x, state := .waiting, fade := gainFloor, waited := 0,
            noSignal := false }))

/-- DECODE_MODE (R60, R67, R77): the mode is staged; a change is applied at once in a running zone 1 that is
WAITING or SILENT, with envelopes and window cleared, and is held otherwise. Rests on the model's choices in
logs 2, 18 and 35. -/
def Obligations.DecodeModeWriteStagesOrApplies : Prop :=
  ∀ (v : Word) (m : DecodeMode) (s : State), PortOpen s → MemoryCanonical s →
    (v, m) ∈ [(0#16, DecodeMode.direct), (1#16, .matrix), (2#16, .stereo)] →
    let r := s.zones.z1
    let into := fun (marks : List Rec) (u : State) => ∃ t, exec (.decodeModeWrite .full v) s = .next t
      ∧ WriteTaken .decodeMode v [] marks s u t
    (m = s.dec.staged → into [] s)
    ∧ (m ≠ s.dec.staged → s.audioRuns = true → r.state ∈ [ZoneState.waiting, .silent] →
        into [.zone .z1] { s with dec := { s.dec with
          staged := m, active := m, sums := .zero, frames := 0, env := .zero,
          stagedTerms := termSet m (zoneSet s .z1) .zero, activeTerms := termSet m (zoneSet s .z1) .zero } })
    ∧ (m ≠ s.dec.staged → (s.audioRuns = true → r.state ∉ [ZoneState.waiting, .silent]) →
        into [] { s with
          dec := { s.dec with staged := m }
          zones := s.zones.set .z1 { r with
            held := { r.held with decode := true }
            state := if s.audioRuns = true ∧ r.state ∈ [ZoneState.playing, .fadingIn] then .reconfiguring
              else r.state } })

/-- A speaker slot (R79 to R83): the word is staged, where the filter carries FRONT_SIZE as LARGE while SUB is
ABSENT and BACK as ABSENT while SURROUND is ABSENT (R80, R81); SUB absent forces a SMALL front pair LARGE and
SURROUND absent a present back pair ABSENT, each with its write-back; a change is applied at once in a running zone 1
that is WAITING or SILENT and is held otherwise, and a changed presence set is given to the running delay
pool. The front pair is in every presence set, SW with SUB and the other channels where their slot is not
ABSENT. Beside that the zones and the delay pool stay, and while the audio blocks stand the pool keeps even its
presence set (R122); a changed presence set makes the running pool compute its staged set anew and examine both
zones, as `Examined` says (R116 to R118). Only a change of the presence set can mark a record whose content stays, a
zone's or the delay record, in an apply (R118). Rests on the model's choices in logs 2 and 35. -/
def Obligations.SpeakerWriteStagesConfiguration : Prop :=
  (∀ (c : SpeakerConfig) (ch : MainChan), c.presence.get ch = true ↔
    match ch with
    | .fl | .fr => True
    | .c => c.center ≠ .absent
    | .sw => c.subPresent = true
    | .sl | .sr => c.surround ≠ .absent
    | .bl | .br => c.back ≠ .absent
    | .tl | .tr => c.top ≠ .absent)
  ∧ ∀ (p : SpeakerSlot) (v : Word) (s : State), PortOpen s → MemoryCanonical s → s.lock = .unlocked →
    ¬valueBlocked s (.speaker p) v →
    let old := s.bass.staged
    let w : Word :=
      if p = .frontSize ∧ old.subPresent = false then 0
      else if p = .back ∧ old.surround = .absent then 2
      else v
    ∃ t, exec (.speakerConfigWrite p .full v) s = .next t
      ∧ t = { s with
          mem := t.mem, dirty := t.dirty, bass := t.bass, zones := t.zones, pool := t.pool,
          agent := { s.agent with
            lastPart := false
            queue := queueWith s.agent.queue
              (if p = .sub ∧ w = 1 ∧ old.word .frontSize = 1 then [.speaker .frontSize]
               else if p = .surround ∧ w = 2 ∧ old.word .back ≠ 2 then [.speaker .back] else []) } }
      ∧ t.mem.readWord (slotAddr s (.speaker p)) = w
      ∧ (∀ a, a ≠ slotAddr s (.speaker p) → a ≠ slotAddr s (.speaker p) + 1 → t.mem.read a = s.mem.read a)
      ∧ (∀ q, t.bass.staged.word q =
          if q = p then w
          else if p = .sub ∧ w = 1 ∧ q = .frontSize then 0
          else if p = .surround ∧ w = 2 ∧ q = .back then 2
          else old.word q)
      ∧ (t.bass.staged = old → t.bass = s.bass ∧ t.zones = s.zones ∧ t.pool = s.pool)
      ∧ (t.bass.staged ≠ old → s.audioRuns = true → s.zones.z1.state ∈ [ZoneState.waiting, .silent] →
          t.bass.active = t.bass.staged ∧ t.bass.filters = .all .zero)
      ∧ (t.bass.staged ≠ old → (s.audioRuns = true → s.zones.z1.state ∉ [ZoneState.waiting, .silent]) →
          t.bass.active = s.bass.active ∧ t.bass.filters = s.bass.filters ∧ t.zones.z1.held.speakers = true
            ∧ (s.audioRuns = true → s.zones.z1.state ∈ [ZoneState.playing, .fadingIn] →
                t.zones.z1.state = .reconfiguring))
      ∧ (t.bass.staged.presence = old.presence → t.pool = s.pool)
      ∧ (t.bass.staged.presence ≠ old.presence → s.audioRuns = true →
          t.pool.presence = t.bass.staged.presence
            ∧ t.pool.staged = computeSet t.bass.staged.presence s.pool.dist s.pool.lipsync)
      ∧ (let a := speakersRequested t.bass.staged s
        t.bass = a.bass
        ∧ (t.bass.staged.presence = old.presence ∨ s.audioRuns = false → t.zones = a.zones ∧ t.pool = s.pool)
        ∧ (t.bass.staged.presence ≠ old.presence → s.audioRuns = true → ∃ e,
            Examined { a with pool := { s.pool with
              presence := t.bass.staged.presence
              staged := computeSet t.bass.staged.presence s.pool.dist s.pool.lipsync } } e
            ∧ t.zones = e.zones ∧ t.pool = e.pool))
      ∧ (∀ z, t.zones.get z =
          { s.zones.get z with state := (t.zones.get z).state, held := (t.zones.get z).held })
      ∧ MarksBetween [] pathRecords s t
      ∧ (t.bass.staged.presence = old.presence → MarksExactly [] s t)

/-! ### What the arrivals of the gain stage, the delay pool and the supervisor do -/

/-- VOLUME sets V, which the filter keeps at the max volume or below; MAX_VOLUME sets the ceiling and lowers
a V above it, with a write-back of VOLUME (R90, R99, R101). Rests on the model's choices in logs 2 and 35.
-/
def Obligations.VolumeWritesKeepTheCeiling : Prop :=
  ∀ (z : Zone) (v : Word) (s : State), PortOpen s → MemoryCanonical s →
    let g := s.gain.zones.get z
    (gainFloor ≤ g.maxVolume → g.maxVolume ≤ gainCeiling →
      ∃ t, exec (.volumeWrite z .full v) s = .next t
        ∧ WriteTaken (.volume z) (levelWord (clampInt gainFloor g.maxVolume v.toInt)) [] [] s
            { s with gain := { s.gain with
              zones := s.gain.zones.set z { g with volume := clampInt gainFloor g.maxVolume v.toInt } } } t)
    ∧ (s.lock = .unlocked → ∀ n, n = clampInt gainFloor gainCeiling v.toInt →
      ∃ t, exec (.maxVolumeWrite z .full v) s = .next t
        ∧ WriteTaken (.maxVolume z) (levelWord n) (if n < g.volume then [.volume z] else []) [] s
            { s with gain := { s.gain with
              zones := s.gain.zones.set z { g with maxVolume := n, volume := min g.volume n } } } t)

/-- WAIT_LIMIT takes the clamped word, and a zone that has waited that long shows no signal at once; each
expiry of a waiting zone's timer counts, and reaching the limit makes ZONE_NOSIGNAL pending (R59). While the zone
timers stand, with the audio blocks or in a partial restore pass, the expiry changes nothing (R64, R65). Rests on
the model's choices in logs 2 and 35. -/
def Obligations.WaitLimitRaisesNoSignal : Prop :=
  ∀ (z : Zone) (s : State),
    let r := s.zones.get z
    (∀ v n, PortOpen s → MemoryCanonical s → n = clampNat 500 10000 v.toNat →
      let reached := s.audioRuns = true ∧ r.state = .waiting ∧ r.noSignal = false ∧ n ≤ r.waited
      (¬reached → ∃ t, exec (.waitLimitWrite z .full v) s = .next t
        ∧ WriteTaken (.waitLimit z) (numWord n) [] [] s
            { s with zones := s.zones.set z { r with waitLimit := n } } t)
      ∧ (reached → ∃ t, exec (.waitLimitWrite z .full v) s = .next t
        ∧ WriteTaken (.waitLimit z) (numWord n) [] [] s
            { s with
              zones := s.zones.set z { r with waitLimit := n, noSignal := true }
              att := { s.att with pending := s.att.pending ||| 0x0008#16 } } t))
    ∧ (AudioTimersRun s → r.state = .waiting → r.noSignal = false →
        (r.waited + 1 < r.waitLimit → ∃ t, exec (.waitTimerExpiry z) s = .next t
          ∧ OwnStep [] s { s with zones := s.zones.set z { r with waited := r.waited + 1 } } t)
        ∧ (r.waitLimit ≤ r.waited + 1 → ∃ t, exec (.waitTimerExpiry z) s = .next t
          ∧ OwnStep [] s
              { s with
                zones := s.zones.set z { r with waited := r.waited + 1, noSignal := true }
                att := { s.att with pending := s.att.pending ||| 0x0008#16 } } t))
    ∧ (AudioTimersRun s → r.state ≠ .waiting ∨ r.noSignal = true →
        ∃ t, exec (.waitTimerExpiry z) s = .next t ∧ OwnStep [] s s t)
    ∧ (s.rstnLow = false → s.restartTimersRun = false → exec (.waitTimerExpiry z) s = .next s)

/-- DIST and LIPSYNC (R111, R112, R114, R116 to R118, R122): the request is taken and, while the audio blocks
run, the whole staged set is computed anew and both zones are examined. A zone whose staged set differs and has
no room beside the other zone's active lengths is WAITING_ROOM. A zone that is neither WAITING nor SILENT keeps
its active lengths, its lines and their places in the pool, and asks for a DELAY change where its staged set
differs and there is room; a WAITING or SILENT zone takes its staged set at once, its lines zeros, and the delay
record and its own are marked (R118). Rests on the model's choices in logs 2 and 35. -/
def Obligations.DelayWritesRecomputeTheStagedSet : Prop :=
  (∀ c : PoolSet, c.total .z1 = (mainChans.map fun ch => c.len.get (.main ch)).sum
    ∧ c.total .z2 = c.len.get .zl + c.len.get .zr)
  ∧ (∀ p : Pool,
      (p.hasRoom .z1 = true ↔ p.staged.total .z1 + p.active.total .z2 ≤ 65536)
      ∧ (p.hasRoom .z2 = true ↔ p.staged.total .z2 + p.active.total .z1 ≤ 65536)
      ∧ ∀ z, p.sameSet z = true ↔
        (∀ ch, chanZone ch = z → p.staged.len.get ch = p.active.len.get ch)
          ∧ p.staged.grant.get z = p.active.grant.get z)
  ∧ ∀ (i : Instr) (sl : Slot) (v w : Word) (d : PerMain Nat) (l : PerZone Nat) (s : State), PortOpen s →
    MemoryCanonical s →
    ((∃ ch, i = .distWrite ch .full v ∧ sl = .dist ch ∧ w = numWord (min 1500 v.toNat)
        ∧ d = s.pool.dist.set ch (min 1500 v.toNat) ∧ l = s.pool.lipsync)
      ∨ (∃ z, i = .lipsyncWrite z .full v ∧ sl = .lipsync z ∧ w = numWord (min 200 v.toNat)
        ∧ d = s.pool.dist ∧ l = s.pool.lipsync.set z (min 200 v.toNat))) →
    (s.audioRuns = false → ∃ t, exec i s = .next t
      ∧ WriteTaken sl w [] [] s { s with pool := { s.pool with dist := d, lipsync := l } } t)
    ∧ (s.audioRuns = true → ∃ t, exec i s = .next t
      ∧ t = { s with
          mem := t.mem, dirty := t.dirty, pool := t.pool, zones := t.zones,
          lock := lockAfter s sl s.lock,
          agent := { s.agent with lastPart := false, queue := queueAfter s sl [] } }
      ∧ t.mem.readWord (slotAddr s sl) = w
      ∧ (∀ a, a ≠ slotAddr s sl → a ≠ slotAddr s sl + 1 → t.mem.read a = s.mem.read a)
      ∧ t.pool.dist = d ∧ t.pool.lipsync = l ∧ t.pool.presence = s.pool.presence
      ∧ t.pool.staged = computeSet s.pool.presence d l
      ∧ MarksBetween [] pathRecords s t
      ∧ (∀ z, t.zones.get z =
          { s.zones.get z with state := (t.zones.get z).state, held := (t.zones.get z).held })
      ∧ ∀ z,
          let quiet := (s.zones.get z).state ∈ [ZoneState.waiting, .silent]
          let asked := s.pool.alloc.get z = .requested
          let stays := (∀ ch, chanZone ch = z → t.pool.active.len.get ch = s.pool.active.len.get ch
              ∧ lineStart t.pool.active ch = lineStart s.pool.active ch
              ∧ t.pool.lines.get ch = s.pool.lines.get ch)
            ∧ t.pool.active.grant.get z = s.pool.active.grant.get z
          (asked → t.pool.alloc.get z = .requested ∧ t.zones.get z = s.zones.get z ∧ stays)
          ∧ (¬asked → ({ s.pool with staged := t.pool.staged } : Pool).sameSet z = true →
              t.pool.alloc.get z = .settled ∧ t.zones.get z = s.zones.get z ∧ stays)
          ∧ (¬asked → ({ s.pool with staged := t.pool.staged } : Pool).sameSet z = false →
              (t.pool.hasRoom z = false →
                t.pool.alloc.get z = .waitingRoom ∧ t.zones.get z = s.zones.get z ∧ stays)
              ∧ (t.pool.hasRoom z = true → ¬quiet →
                t.pool.alloc.get z = .requested ∧ stays ∧ (t.zones.get z).held.delay = true
                  ∧ (t.zones.get z).state =
                    if (s.zones.get z).state ∈ [ZoneState.playing, .fadingIn] then .reconfiguring
                    else (s.zones.get z).state)
              ∧ (t.pool.hasRoom z = true → quiet →
                t.pool.alloc.get z = .settled ∧ t.zones.get z = s.zones.get z
                  ∧ Rec.delay ∈ t.dirty ∧ Rec.zone z ∈ t.dirty
                  ∧ t.pool.active.grant.get z = t.pool.staged.grant.get z
                  ∧ ∀ ch, chanZone ch = z → t.pool.active.len.get ch = t.pool.staged.len.get ch
                    ∧ t.pool.lines.get ch = List.replicate (t.pool.staged.len.get ch) 0)))

/-- The staged set (R113, R114, R115): zone 1's grant is served from what the distance delays leave, zone
2's from what zone 1 leaves; every present zone 1 channel has its distance delay and the grant, an absent
one 0, and both totals together fit the pool. -/
def Obligations.StagedSetServesZoneOneFirst : Prop :=
  ∀ (p : PerMain Bool) (dist : PerMain Nat) (lipsync : PerZone Nat), p.fl = true → p.fr = true →
    (∀ ch, dist.get ch ≤ 1500) →
    let c := computeSet p dist lipsync
    let n := (presentChans p).length
    (∃ far, p.get far = true ∧ (∀ ch, p.get ch = true → dist.get ch ≤ dist.get far)
        ∧ ∀ ch, distanceDelay p dist ch =
            if p.get ch = true then (dist.get far - dist.get ch) * 480 / 343 else 0)
    ∧ delaySum p dist = (mainChans.map (distanceDelay p dist)).sum ∧ delaySum p dist ≤ 18891
    ∧ c.grant.z1 = min (48 * lipsync.z1) ((65536 - delaySum p dist) / n)
    ∧ c.grant.z2 = min (48 * lipsync.z2) ((65536 - delaySum p dist - n * c.grant.z1) / 2)
    ∧ (∀ ch, p.get ch = true → c.len.get (.main ch) = distanceDelay p dist ch + c.grant.z1)
    ∧ (∀ ch, p.get ch = false → c.len.get (.main ch) = 0)
    ∧ c.len.get .zl = c.grant.z2 ∧ c.len.get .zr = c.grant.z2
    ∧ c.total .z1 = delaySum p dist + n * c.grant.z1 ∧ c.total .z2 = 2 * c.grant.z2
    ∧ c.total .z1 + c.total .z2 ≤ 65536

/-- MODULE_EN (R126 to R128): the setting is taken; it starts a module in OFF whose other conditions hold,
stops one in STARTING, lifts an order, and places one on a module in ON, which brings the module to STOPPING
at once where its four channels stand at -320 already. Rests on the model's choices in logs 2 and 35. -/
def Obligations.ModuleEnableStartsAndWindsDown : Prop :=
  ∀ (m : AmpModule) (v : Word) (on : Bool) (s : State), PortOpen s → MemoryCanonical s → s.lock = .unlocked →
    (v, on) ∈ [(0#16, false), (1#16, true)] →
    let r := s.mods.get m
    let floored := flooredModule m s.gain
    let atFloor := ∀ ch, chanModule ch = m → (s.gain.chans.get ch).applied = gainFloor
    let into := fun (r' : ModuleRec) (g : Gain) => ∃ t, exec (.moduleEnWrite m .full v) s = .next t
      ∧ WriteTaken (.moduleEn m) v [] [] s { s with mods := s.mods.set m r', gain := g } t
    (on = r.enable → into r s.gain)
    ∧ (on = true → r.enable = false →
        (r.state = .off → s.meas.result = .pass → s.clock = .good →
          into { r with enable := true, state := .starting } s.gain)
        ∧ (r.state = .off → s.meas.result ≠ .pass ∨ s.clock ≠ .good → into { r with enable := true } s.gain)
        ∧ (r.state = .on → into { r with enable := true, order := false } s.gain)
        ∧ (r.state ∈ [ModuleState.starting, .stopping, .tripped] → into { r with enable := true } s.gain))
    ∧ (on = false → r.enable = true →
        (r.state = .starting → into { r with enable := false, state := .stopping, order := false } floored)
        ∧ (r.state = .on → atFloor → into { r with enable := false, state := .stopping, order := false } floored)
        ∧ (r.state = .on → ¬atFloor → into { r with enable := false, order := true } s.gain)
        ∧ (r.state ∈ [ModuleState.off, .stopping, .tripped] → into { r with enable := false } s.gain))

/-- SEQ_LEN and the entry words (R142): the entries made inactive, or the entry written, hold no code, no
violation and count 0; SEQ_LEN restarts the pass from entry 0; the code of a conversion in progress for any
entry, or for that entry, is to be discarded. Rests on the model's choices in logs 2, 27 and 35. -/
def Obligations.SequenceWritesResetEntries : Prop :=
  ∀ (v : Word) (s : State), PortOpen s → MemoryCanonical s → s.lock = .unlocked →
    (∀ n, n = min 16 v.toNat → ∃ t, exec (.seqLenWrite .full v) s = .next t
      ∧ WriteTaken .seqLen (numWord n) [] (if n < s.meas.seqLen then [.entries] else []) s
          { s with meas := { s.meas with
            seqLen := n, position := 0,
            entries := s.meas.entries.mapIdx fun i e =>
              if n ≤ i then { e with code := none, count := 0, violation := false } else e
            conv := s.meas.conv.map fun c =>
              match c.owner with
              | .entry i _ => { c with owner := .entry i true }
              | _ => c } } t)
    ∧ (∀ (n : Fin 16) (k : Fin 4) (w : Word), ¬valueBlocked s (.entry n k) v →
        w = (if k = 1 ∨ k = 2 then numWord (min 1023 v.toNat) else v) →
        ∃ t, exec (.entryWrite n k .full v) s = .next t
          ∧ WriteTaken (.entry n k) w [] [.entries] s
              { s with meas := { s.meas with
                entries := s.meas.entries.set n.val
                  { s.meas.entry n.val with
                    code := none, count := 0, violation := false,
                    w0 := if k = 0 then w else (s.meas.entry n.val).w0
                    w1 := if k = 1 then w else (s.meas.entry n.val).w1
                    w2 := if k = 2 then w else (s.meas.entry n.val).w2
                    w3 := if k = 3 then w else (s.meas.entry n.val).w3 }
                conv := s.meas.conv.map fun c =>
                  match c.owner with
                  | .entry i d => { c with owner := .entry i (d || i == n.val) }
                  | _ => c } } t)

/-- The top code of each band and region (R162), and when AF follow is active (R173). REGION, BAND, CODE and
AF_FOLLOW (R162, R173, R188): the target takes the word, CODE is lowered to the new
top code with its write-back, a changed CODE leaves the AF list, and the weak count is 0 while AF follow is
not active; nothing is tuned. Rests on the model's choices in logs 2, 10, 35 and 44. -/
def Obligations.TunerTargetWritesTuneNothing : Prop :=
  (topCode .a .fm = 205 ∧ topCode .a .am = 119 ∧ topCode .b .fm = 101 ∧ topCode .b .am = 118)
  ∧ (∀ s : State,
      stationCode s = (match s.sd.confirmed.code with | some c => some c | none => s.tun.expected)
      ∧ (afActive s = true ↔
          s.tun.afFollow = true ∧ s.tun.tunedBand = .fm ∧ s.tun.band = .fm ∧ stationCode s ≠ none ∧ s.sd.af ≠ []
            ∧ s.tun.backoff = false))
  ∧ ∀ (i : Instr) (sl : Slot) (v w : Word) (f : Tuner → Tuner) (code : Nat) (s : State), PortOpen s →
    MemoryCanonical s →
    ((∃ r, (v, r) ∈ [(0#16, Region.a), (1#16, .b)] ∧ s.tun.state = .off ∧ i = .regionWrite .full v
        ∧ sl = .region ∧ w = v ∧ code = min s.tun.code (topCode r s.tun.band)
        ∧ f = fun t => { t with region := r, code := code })
      ∨ (∃ b, (v, b) ∈ [(0#16, Band.fm), (1#16, .am)] ∧ i = .bandWrite .full v ∧ sl = .band ∧ w = v
        ∧ code = min s.tun.code (topCode s.tun.region b) ∧ f = fun t => { t with band := b, code := code })
      ∨ (i = .codeWrite .full v ∧ sl = .code ∧ w = numWord code
        ∧ code = min v.toNat (topCode s.tun.region s.tun.band) ∧ f = fun t => { t with code := code })
      ∨ (∃ on, (v, on) ∈ [(0#16, false), (1#16, true)] ∧ i = .slotWrite 0x020E#16 .full v ∧ sl = .afFollow
        ∧ w = v ∧ code = s.tun.code ∧ f = fun t => { t with afFollow := on })) →
    ∃ t, exec i s = .next t
      ∧ WriteTaken sl w (if (sl = .region ∨ sl = .band) ∧ code ≠ s.tun.code then [.code] else []) [] s
          { s with
            tun := { f s.tun with weak := t.tun.weak }
            sd := { s.sd with af := if code = s.tun.code then s.sd.af else s.sd.af.filter fun x => x != code }
            att := t.att } t
      ∧ t.att = { s.att with
          pending := if t.sd.af = s.sd.af then s.att.pending else s.att.pending ||| 0x0200#16 }
      ∧ t.tun.weak = if afActive t = true then s.tun.weak else 0

/-- FORMAT (R28, R31, R35): the line takes the format; a running LOCKED line goes to MEASURING with both runs at zero
and its converter cleared, losing its carrying status, which marks its source record (R26), a MEASURING line starts
its runs again, and the lock state stays otherwise; stopped, the change acts when the line runs again. Rests on the
model's choices in logs 2, 16, 18, 19, 35, 49 and 65. -/
def Obligations.FormatWriteUnlocksTheLine : Prop :=
  ∀ (l : SaLine) (v : Word) (f : Format) (s : State), PortOpen s → MemoryCanonical s →
    (v, f) ∈ [(0#16, Format.stereo), (1#16, .tdm8)] →
    let x := s.sa.get l
    let into := fun (x' : SaState) => ∃ t, exec (.formatWrite l .full v) s = .next t
      ∧ WriteTaken (.format l) v [] [] s { s with sa := s.sa.set l x' } t
    (f = x.format → into x)
    ∧ (f ≠ x.format → s.audioRuns = false → into { x with format := f, formatKept := true })
    ∧ (f ≠ x.format → s.audioRuns = true →
        (x.lock ∈ [LockState.noClock, .unsupported] → into { x with format := f })
        ∧ (x.lock = .measuring → into { x with format := f, runClass := none, runCount := 0, otherRun := 0 })
        ∧ (x.lock = .locked → x.npcmTaken = true → into { x with
            format := f, lock := .measuring, lockedClass := none, misses := 0, conv := .empty,
            runClass := none, runCount := 0, otherRun := 0 })
        ∧ (x.lock = .locked → x.npcmTaken = false →
            let u := { s with sa := s.sa.set l { x with
              format := f, lock := .measuring, lockedClass := none, misses := 0, conv := .empty,
              runClass := none, runCount := 0, otherRun := 0 } }
            ∃ t, exec (.formatWrite l .full v) s = .next t
              ∧ WriteDone (.format l) v [] (carryingMarks (.sa l) true false) (pathMarks true false s) s
                (afterCarrying u t) t
              ∧ t.att = sourceNotice true false s.att
              ∧ CarryingLost (.sa l) u t))

/-! ### What the commands of the command slots do (R9) -/

/-- RESTART_AUDIO (R22, R35, R43, R64, R78, R88, R103, R108, R121): the audio blocks take their restart
states, every module that has wound down stops, the outcome is TAKEN, and the partial pass is requested; the
setup group, the speaker configuration and the other blocks keep their state. A stream record that the restart
changes is marked (R16, R43). Rests on the model's choices in logs 2, 10, 24 and 35. -/
def Obligations.RestartAudioRestartsTheBlocks : Prop :=
  ∀ s : State, PortOpen s → MemoryCanonical s → ∃ t, exec (.restartAudio .full) s = .next t
    ∧ WriteTaken .systemCmd 0x0001#16 [.systemCmd]
        ([Rec.stream .ms1, .stream .ms2].filter fun r => recWords s r ≠ recWords State.reset r) s
        { s with
          answers := { s.answers with system := .taken }
          agent := { s.agent with restore := some ⟨.audio, 0⟩ }
          meterTimer := false, sa := t.sa, ms := t.ms, zones := t.zones, view := t.view, dec := State.reset.dec,
          bass := { s.bass with active := s.bass.staged, filters := State.reset.bass.filters },
          gain := t.gain, pool := t.pool, mods := t.mods } t
    ∧ (∀ l, t.sa.get l = { State.reset.sa.get l with npcmPin := (s.sa.get l).npcmPin })
    ∧ (∀ m, t.ms.get m = State.reset.ms.get m) ∧ (∀ z, t.zones.get z = State.reset.zones.get z)
    ∧ (∀ src, t.view.get src = (decide (src = .tuner) && s.view.get .tuner))
    ∧ (∀ ch, t.gain.chans.get ch = State.reset.gain.chans.get ch ∧ t.gain.trims.get ch = 0)
    ∧ (∀ src, t.gain.srcTrims.get src = 0)
    ∧ (∀ z, t.gain.zones.get z =
        { s.gain.zones.get z with volume := min (-120) (s.gain.zones.get z).maxVolume, mute := false })
    ∧ t.pool = { State.reset.pool with presence := s.bass.staged.presence }
    ∧ ∀ m, t.mods.get m =
        if (s.mods.get m).order = true ∧ (s.mods.get m).state = .on then
          { s.mods.get m with state := .stopping, order := false }
        else s.mods.get m

/-- SELF_RECHECK and MEASURE join the on-demand queue (R130, R144, R146, R151): a recheck sets the result to
RUNNING and stops every module in STARTING or ON, and the host's conversion is shown WAITING. Rests on the
model's choices in logs 2, 10 and 35. -/
def Obligations.RequestsJoinTheConverterQueue : Prop :=
  ∀ s : State, PortOpen s → MemoryCanonical s →
    (s.meas.result ≠ .running →
      let stops := fun m => decide ((s.mods.get m).state = .starting ∨ (s.mods.get m).state = .on)
      ∃ t, exec (.selfRecheck .full) s = .next t
        ∧ WriteTaken .systemCmd 0x0002#16 [.systemCmd] [] s
            { s with
              answers := { s.answers with system := .taken }
              meas := { s.meas with result := .running, queue := s.meas.queue ++ [.selfCheck false] }
              mods := .ofFn fun m =>
                if stops m then { s.mods.get m with state := .stopping, order := false } else s.mods.get m
              gain := flooredChans (fun ch => stops (chanModule ch)) s.gain } t)
    ∧ (∀ (x : BitVec 8) (d : BitVec 4), x.toNat ≤ 11 → 1 ≤ d.toNat → d.toNat ≤ 4 →
        OnDemand.host ∉ s.meas.queue → (∀ c, s.meas.conv = some c → c.owner ≠ .host) →
        ∃ t, exec (.measure x d .full) s = .next t
          ∧ WriteTaken .measureCmd (numWord (0x1000 + 16 * x.toNat + d.toNat)) [.measureCmd] [] s
              { s with
                answers := { s.answers with measure := .taken }
                meas := { s.meas with
                  queue := s.meas.queue ++ [.host], hostStatus := .waiting, hostInput := x.toNat,
                  hostDivider := d.toNat } } t)

/-- START and STOP (R38, R39): a STOPPED stream whose ring passes the checks enters PRIMING with DRAIN, the level and
the starvation count at 0; STOP empties the buffer and keeps DRAIN, and a RUNNING stream loses its carrying status.
Each move marks the stream record (R43), a loss of the carrying status the source's (R26). Rests on the model's
choices in logs 2, 10, 18, 19, 35, 49 and 65. -/
def Obligations.StreamCommandsStartAndStop : Prop :=
  ∀ (m : StreamId) (s : State), PortOpen s → MemoryCanonical s → s.audioRuns = true →
    let r := s.ms.get m
    let base := r.baseHi.toNat * 0x10000 + r.baseLo.toNat
    let past := base + r.size * (r.channels * if r.width = 24 then 2 else 1) * 2
    let ok := { s.answers with stream := s.answers.stream.set m .taken }
    let stopped := { s with
      answers := ok, ms := s.ms.set m { r with state := .stopped, buffer := [], conv := .empty } }
    (r.state = .stopped → r.fill < r.size → past ≤ s.apertureBase + 0x10000 →
      past ≤ s.apertureBase ∨ s.apertureBase + 0x1A00 ≤ base →
      ∃ t, exec (.streamStart m .full) s = .next t
        ∧ WriteTaken (.streamCmd m) 0x0001#16 [.streamCmd m] [.stream m] s
            { s with
              answers := ok
              ms := s.ms.set m
                { r with state := .priming, drain := 0, buffer := [], starvations := 0, conv := .empty } } t)
    ∧ (r.state = .stopped → ∃ t, exec (.streamStop m .full) s = .next t
        ∧ WriteTaken (.streamCmd m) 0x0002#16 [.streamCmd m] [] s { s with answers := ok } t)
    ∧ (r.state ∈ [StreamState.priming, .starved] → ∃ t, exec (.streamStop m .full) s = .next t
        ∧ WriteTaken (.streamCmd m) 0x0002#16 [.streamCmd m] [.stream m] s stopped t)
    ∧ (r.state = .running → ∃ t, exec (.streamStop m .full) s = .next t
        ∧ WriteDone (.streamCmd m) 0x0002#16 [.streamCmd m] (.stream m :: carryingMarks (.ms m) true false)
            (pathMarks true false s) s (afterCarrying stopped t) t
        ∧ t.att = sourceNotice true false s.att ∧ CarryingLost (.ms m) s t)

/-- CLEAR_TRIP (R127, R134): taken for a module not TRIPPED with no effect; refused NOT_ALLOWED while the
module's fault line, a TRIP entry in violation, the clock or the self-check stands against it; else the module
goes to OFF with its cause cleared, and on to STARTING if its enable is ON. Rests on the model's choices in
logs 2, 10 and 35. -/
def Obligations.ClearTripFollowsItsSteps : Prop :=
  ∀ (m : AmpModule) (n : BitVec 8) (s : State), PortOpen s → MemoryCanonical s →
    (m, n) ∈ [(AmpModule.a, 1#8), (.b, 2#8), (.c, 3#8)] →
    let r := s.mods.get m
    let against := r.fltPin = true ∨ s.clock ≠ .good ∨ s.meas.result ≠ .pass
      ∨ ∃ e ∈ s.meas.entries, e.violation = true ∧ e.action = .trip ∧ e.module = some m
    let into := fun (a : Answer) (r' : ModuleRec) => ∃ t, exec (.clearTrip n .full) s = .next t
      ∧ WriteTaken .moduleCmd (numWord (0x0100 + n.toNat)) [.moduleCmd] [] s
          { s with answers := { s.answers with module := a }, mods := s.mods.set m r' } t
    (r.state ≠ .tripped → into .taken r)
    ∧ (r.state = .tripped → against → into .notAllowed r)
    ∧ (r.state = .tripped → ¬against →
        into .taken { r with
          cause := .none, tripEntry := 0, state := if r.enable = true then .starting else .off })

/-- TUNE (R160, R164, R166): whatever the tuner was doing is abandoned, a STORE apart; the expected code, the backoff
timer and the station content are cleared, and a plain tune of the target starts with its TUNE on the line. Leaving
LISTENING or VERIFYING marks TUNER's source record (R26). Rests on the model's choices in logs 2, 10, 18, 19, 35, 44,
49, 55 and 65. -/
def Obligations.TuneStartsAPlainTune : Prop :=
  ∀ s : State, PortOpen s → MemoryCanonical s →
    let out := decide (s.tun.state = .listening ∨ s.tun.state = .verifying)
    ∃ t, exec (.tune .full) s = .next t
      ∧ WriteDone .tunerCmd 0x0001#16 [.tunerCmd] (carryingMarks .tuner out false) (pathMarks out false s) s
          (afterCarrying
            { s with
              answers := { s.answers with tuner := .taken }
              tun := { s.tun with
                state := .tuning, expected := none, backoff := false, reason := .hostTune, weak := 0,
                settleTimer := false, verifyTimer := false, readingTimer := s.tun.readingTimer && !out,
                queryTimer := s.tun.queryTimer && !out, transfer := storeOnly s.tun.transfer }
              fe := t.fe, meas := readingAbandoned s.meas,
              sd := bitsStopped (takingBits s.tun) s.sd.clearContent } t) t
      ∧ SentOnLine (abandonsOf out) (.tune s.tun.band s.tun.region s.tun.code .plain) s.fe t.fe
      ∧ CarryingChange .tuner out false s t
      ∧ StationNotice [] s (sourceNotice out false s.att) t

/-- SEEK_UP and SEEK_DOWN (R167): a seek starts from the target, or turns from its step code; the next step's code
wraps at the ends of the band, and its TUNE goes on the line. Leaving LISTENING or VERIFYING marks TUNER's source
record (R26). Rests on the model's choices in logs 2, 10, 18, 19, 35, 44, 49 and 65. -/
def Obligations.SeekCommandsStepTheCode : Prop :=
  ∀ (i : Instr) (up : Bool) (v : Word) (s : State), PortOpen s → MemoryCanonical s →
    (i, up, v) ∈ [(Instr.seekUp .full, true, 0x0002#16), (.seekDown .full, false, 0x0003#16)] →
    let out := decide (s.tun.state = .listening ∨ s.tun.state = .verifying)
    let k : Seek := if s.tun.state = .seeking then s.tun.seek
      else ⟨s.tun.band, s.tun.region, s.tun.code, s.tun.code, up⟩
    let top := topCode k.region k.band
    let next := if up = true then (if k.step < top then k.step + 1 else 0)
      else if k.step = 0 then top else k.step - 1
    ∃ t, exec i s = .next t
      ∧ WriteDone .tunerCmd v [.tunerCmd] (carryingMarks .tuner out false) (pathMarks out false s) s
          (afterCarrying
            { s with
              answers := { s.answers with tuner := .taken }
              tun := { s.tun with
                state := .seeking, phase := .exchange
                seek := { k with up := up, start := k.step, step := next }
                expected := if s.tun.state = .seeking then s.tun.expected else none
                backoff := if s.tun.state = .seeking then s.tun.backoff else false
                weak := if afActive t = true then s.tun.weak else 0
                settleTimer := false, verifyTimer := false, readingTimer := s.tun.readingTimer && !out
                queryTimer := s.tun.queryTimer && !out, transfer := storeOnly s.tun.transfer }
              fe := t.fe, meas := readingAbandoned s.meas, sd := bitsStopped (takingBits s.tun) s.sd } t) t
      ∧ SentOnLine (abandonsOf out) (.tune k.band k.region next .seekStep) s.fe t.fe
      ∧ CarryingChange .tuner out false s t
      ∧ StationNotice [] s (sourceNotice out false s.att) t

/-- STOP (R168): a seek's step code becomes the target and its exchange or its settling goes on as a plain
tune; a probe gives way to a plain tune of its original code; in any other state nothing changes. A step's TUNE that
still waits in the pending slot goes on as a plain tune too, as log 66 chooses. Rests on the model's choices in logs
2, 10, 34, 35, 44, 55, 62 and 66. -/
def Obligations.StopEndsSeekOrProbe : Prop :=
  ∀ s : State, PortOpen s → MemoryCanonical s →
    let ok := { s.answers with tuner := .taken }
    let code := s.tun.seek.step
    let reqs := if code = s.tun.code then [Slot.tunerCmd] else [.tunerCmd, .code]
    let found : Tuner := { s.tun with code := code, reason := .seekStopped, weak := 0 }
    (s.tun.state ∉ [TunerState.seeking, .probing] → ∃ t, exec (.tunerStop .full) s = .next t
      ∧ WriteTaken .tunerCmd 0x0004#16 [.tunerCmd] [] s
          { s with
            answers := ok, tun := { s.tun with weak := if afActive s = true then s.tun.weak else 0 } } t)
    ∧ (s.tun.state = .seeking → s.tun.phase = .exchange → ∃ t, exec (.tunerStop .full) s = .next t
      ∧ WriteTaken .tunerCmd 0x0004#16 reqs [] s
          { s with
            answers := ok, att := t.att, tun := { found with state := .tuning }, sd := s.sd.clearContent
            fe := { s.fe with
              outstanding := s.fe.outstanding.map fun o =>
                match o.cmd with
                | .tune b r c .seekStep =>
                  if o.abandoned = true then o else { o with cmd := .tune b r c .plain }
                | _ => o
              pending := s.fe.pending.map fun c =>
                match c with
                | .tune b r c .seekStep => .tune b r c .plain
                | c => c } } t
      ∧ StationNotice [] s s.att t)
    ∧ (s.tun.state = .seeking → s.tun.phase ≠ .exchange → ∃ t, exec (.tunerStop .full) s = .next t
      ∧ WriteTaken .tunerCmd 0x0004#16 reqs [] s
          { s with
            answers := ok, att := t.att, tun := { found with state := .settling, settleTimer := true }
            sd := s.sd.clearContent, meas := readingAbandoned s.meas } t
      ∧ StationNotice [] s s.att t)
    ∧ (s.tun.state = .probing → ∃ t, exec (.tunerStop .full) s = .next t
      ∧ WriteTaken .tunerCmd 0x0004#16 [.tunerCmd] [] s
          { s with
            answers := ok, fe := t.fe, meas := readingAbandoned s.meas
            tun := { s.tun with
              state := .tuning, backoff := true, reason := .noSwitch, weak := 0, settleTimer := false,
              verifyTimer := false } } t
      ∧ SentOnLine (abandonsOf false) (.tune s.tun.probe.band s.tun.region s.tun.probe.original .plain)
          s.fe t.fe)

/-- OFF (R160, R171): the operation is abandoned, the expected code and the station content are cleared, the backoff,
reading and query timers stop, and STANDBY is sent. Leaving LISTENING or VERIFYING marks TUNER's source record (R26).
Rests on the model's choices in logs 2, 10, 18, 19, 35, 44, 49, 55 and 65. -/
def Obligations.TunerOffSendsStandby : Prop :=
  ∀ s : State, PortOpen s → MemoryCanonical s →
    let out := decide (s.tun.state = .listening ∨ s.tun.state = .verifying)
    ∃ t, exec (.tunerOff .full) s = .next t
      ∧ WriteDone .tunerCmd 0x0005#16 [.tunerCmd] (carryingMarks .tuner out false) (pathMarks out false s) s
          (afterCarrying
            { s with
              answers := { s.answers with tuner := .taken }
              tun := { s.tun with
                state := .off, expected := none, backoff := false, weak := 0, settleTimer := false,
                verifyTimer := false, readingTimer := false, queryTimer := false,
                transfer := storeOnly s.tun.transfer }
              fe := t.fe, meas := readingAbandoned s.meas,
              sd := bitsStopped (takingBits s.tun) s.sd.clearContent } t) t
      ∧ SentOnLine (abandonsOf out) .standby s.fe t.fe
      ∧ CarryingChange .tuner out false s t
      ∧ StationNotice [] s (sourceNotice out false s.att) t

/-- RECALL n and STORE n, n at most 39 (R169, R170): the fetch is placed, or the snapshot of eighteen words is
taken, its valid flag clear: the band, the station's code, the confirmed code, the whole name and the first
eight AF codes. Rests on the model's choices in logs 2, 10, 35 and 44. -/
def Obligations.PresetCommandsStartTransfers : Prop :=
  ∀ (n : BitVec 8) (s : State), PortOpen s → MemoryCanonical s → n.toNat ≤ 39 →
    let into := fun (i : Instr) (v : Word) (x : Transfer) => ∃ t, exec i s = .next t
      ∧ WriteTaken .tunerCmd v [.tunerCmd] [] s
          { s with
            answers := { s.answers with tuner := .taken }
            tun := { s.tun with transfer := x, weak := if afActive s = true then s.tun.weak else 0 } } t
    ((∀ k j w, s.tun.transfer ≠ .storing k j w) →
      into (.recall n .full) (numWord (0x0100 + n.toNat)) (.recalling n.toNat []))
    ∧ (s.tun.transfer = .none → s.tun.state ∈ [TunerState.listening, .verifying] →
        let d := s.sd.confirmed
        let whole := d.names.all Option.isSome
        let flags := (if s.tun.tunedBand = .am then 0x10 else 0) + (if whole = true then 0x40 else 0)
          + (if d.code.isSome = true then 0x80 else 0)
        let code := if s.tun.state = .verifying then s.tun.probe.original else s.tun.tunedCode
        let name := if whole = true then d.names.map fun x => x.getD 0 else [0, 0, 0, 0, 0, 0]
        let af := s.sd.af.take 8
        into (.store n .full) (numWord (0x0200 + n.toNat)) (.storing n.toNat 0
          ([numWord flags, numWord code, d.code.getD 0] ++ name ++ [numWord af.length] ++ af.map numWord
            ++ List.replicate (8 - af.length) 0)))

/-- A refused command changes nothing but its outcome (R9, R22, R38, R134, R146, R151, R165): the cases that
the rules refuse BUSY, RANGE, NOT_ALLOWED and INVALID. Rests on the model's choices in logs 2, 10 and 35. -/
def Obligations.RefusedCommandsChangeTheOutcomeAlone : Prop :=
  ∀ (i : Instr) (sl : Slot) (v : Word) (s : State), PortOpen s → MemoryCanonical s →
    writeRow i = some (sl, .full, v) →
    let refused := fun (ans : Answers) => ∃ t, exec i s = .next t
      ∧ WriteTaken sl v [sl] [] s { s with answers := ans } t
    let n := v.toNat % 256
    let isRecall := v.toNat / 256 = 1
    let isStore := v.toNat / 256 = 2
    (sl = .systemCmd →
      (v ≠ 1 → v ≠ 2 → refused { s.answers with system := .invalid })
      ∧ (v = 2 → s.meas.result = .running → refused { s.answers with system := .busy }))
    ∧ (∀ m, sl = .streamCmd m →
        let r := s.ms.get m
        let base := r.baseHi.toNat * 0x10000 + r.baseLo.toNat
        let past := base + r.size * (r.channels * if r.width = 24 then 2 else 1) * 2
        let with' := fun a => refused { s.answers with stream := s.answers.stream.set m a }
        (s.audioRuns = false → with' .notAllowed)
        ∧ (s.audioRuns = true → v = 1 → r.state ≠ .stopped → with' .notAllowed)
        ∧ (s.audioRuns = true → v = 1 → r.state = .stopped →
            r.size ≤ r.fill ∨ s.apertureBase + 0x10000 < past
              ∨ (s.apertureBase < past ∧ base < s.apertureBase + 0x1A00) → with' .invalid)
        ∧ (s.audioRuns = true → v ≠ 1 → v ≠ 2 → with' .invalid))
    ∧ (sl = .moduleCmd →
        (v.toNat / 256 ≠ 1 → refused { s.answers with module := .invalid })
        ∧ (v.toNat / 256 = 1 → n = 0 ∨ 3 < n → refused { s.answers with module := .range }))
    ∧ (sl = .measureCmd →
        let inside := v.toNat / 0x1000 = 1
        let good := v.toNat / 16 % 256 ≤ 11 ∧ 1 ≤ v.toNat % 16 ∧ v.toNat % 16 ≤ 4
        (¬inside → refused { s.answers with measure := .invalid })
        ∧ (inside → ¬good → refused { s.answers with measure := .range })
        ∧ (inside → good → (OnDemand.host ∈ s.meas.queue ∨ ∃ c, s.meas.conv = some c ∧ c.owner = .host) →
            refused { s.answers with measure := .busy }))
    ∧ (sl = .tunerCmd →
        (5 < v.toNat ∨ v = 0 → ¬isRecall → ¬isStore → refused { s.answers with tuner := .invalid })
        ∧ (isRecall ∨ isStore → 39 < n → refused { s.answers with tuner := .range })
        ∧ (isRecall → n ≤ 39 → (∃ k j w, s.tun.transfer = .storing k j w) →
            refused { s.answers with tuner := .busy })
        ∧ (isStore → n ≤ 39 → s.tun.transfer ≠ .none → refused { s.answers with tuner := .busy })
        ∧ (isStore → n ≤ 39 → s.tun.transfer = .none → s.tun.state ∉ [TunerState.listening, .verifying] →
            refused { s.answers with tuner := .notAllowed }))

/-! ### The port's turns and the part's bursts -/

/-- The part's turn at a free port (R12 to R16, R41): the bursts by rank, each with the address and the words it
has when it is issued; with no request nothing happens. A report burst carries its record's words, every field
at the word and the bits of section 11.4, in the codes of section 11.3, and the records stand at the offsets of
section 11.4 (R194). The marks stand in the order of those offsets. Rests on the model's choices in logs 7, 35
and 37. -/
def Obligations.PartTakesItsTurnByRank : Prop :=
  RecordTable ∧ ∀ s : State, MemoryCanonical s → MarksInOrder s → s.rstnLow = false →
    let urgent := fun m => FetchDue s m ∧ (s.ms.get m).buffer.length < 128
    let issues := fun (P : State → Prop) => ∃ t, exec .partBurstIssue s = .next t ∧ P t
    let ours := s.agent.port = .free ∧ s.agent.restore = none ∧ ¬urgent .ms1 ∧ ¬urgent .ms2
      ∧ ¬(s.agent.lastPart = true ∧ ∃ h, s.agent.held = some h ∧ MayGo s h.access)
    RecordsHold s (BitVec.ofNat 16) (BitVec.ofInt 16)
    ∧ (s.agent.port ≠ .free → issues fun t => t = s)
    ∧ (s.agent.port = .free → s.agent.restore = none →
        ¬(s.agent.lastPart = true ∧ ∃ h, s.agent.held = some h ∧ MayGo s h.access) →
        (urgent .ms1 → issues (FetchIssued .ms1 s)) ∧ (¬urgent .ms1 → urgent .ms2 → issues (FetchIssued .ms2 s)))
    ∧ (ours → s.agent.queue ≠ [] → issues fun t => ∃ run a, WriteBackTaken s.agent.queue run ∧ run.head? = some a
        ∧ BurstWritten .writeBack (slotAddr s a) (run.map (slotValue s)) s
            { s with agent := { s.agent with queue := s.agent.queue.filter fun sl => sl ∉ run } } t)
    ∧ (ours → s.agent.queue = [] →
        (∀ n, s.tun.transfer = .recalling n [] → issues fun t => ∃ ws : List Word, ws.length = 16
          ∧ (∀ i, i < 16 → ws[i]? = some (s.mem.readWord (s.apertureBase + 0x1000 + 64 * n + 2 * i)))
          ∧ t = { s with agent := { s.agent with
              port := .part ⟨.recall n, s.apertureBase + 0x1000 + 64 * n, false, ws, [], false⟩ } })
        ∧ (∀ n w got, s.tun.transfer = .recalling n (w :: got) → issues fun t => ∃ ws : List Word, ws.length = 2
          ∧ (∀ i, i < 2 → ws[i]? = some (s.mem.readWord (s.apertureBase + 0x1000 + 64 * n + 32 + 2 * i)))
          ∧ t = { s with agent := { s.agent with
              port := .part ⟨.recall n, s.apertureBase + 0x1000 + 64 * n + 32, false, ws, [], false⟩ } })
        ∧ (∀ n k snap, s.tun.transfer = .storing n k snap → snap.length = 18 → k < 4 →
            let at' := s.apertureBase + 0x1000 + 64 * n
            let flags := snap.getD 0 0
            let piece := [(at', [flags]), (at' + 2, (snap.drop 1).take 16), (at' + 34, [snap.getD 17 0]),
              (at', [flags ||| 1])]
            ∀ addr ws, piece[k]? = some (addr, ws) → issues fun t =>
              (k < 3 → BurstWritten (.store n) addr ws s
                { s with tun := { s.tun with transfer := .storing n (k + 1) snap } } t)
              ∧ (k = 3 → MarksExactly [] s t ∧ BurstWritten (.store n) addr ws s
                { s with
                  tun := { s.tun with
                    transfer := .none, outcome := .stored, outcomeCount := (s.tun.outcomeCount + 1) % 65536 }
                  att := { s.att with pending := s.att.pending ||| 0x0100#16 }
                  dirty := t.dirty } t)))
    ∧ (ours → s.agent.queue = [] → s.tun.transfer = .none →
        (∀ r, r ∈ s.dirty → (∀ x ∈ s.dirty, r.offset ≤ x.offset) → issues fun t =>
          BurstWritten (.report r) (s.apertureBase + r.offset) (recWords s r) s
            { s with dirty := s.dirty.filter fun x => x ≠ r } t)
        ∧ (s.dirty = [] →
            (FetchDue s .ms1 → issues (FetchIssued .ms1 s))
            ∧ (¬FetchDue s .ms1 → FetchDue s .ms2 → issues (FetchIssued .ms2 s))
            ∧ (¬FetchDue s .ms1 → ¬FetchDue s .ms2 → s.agent.held = none → issues fun t => t = s)))

/-- A restore pass (R21 to R23, R17): each turn writes the next run of its slots, and after them the next of its
records, at the owners' values; an entry it rewrites leaves the write-back queue and a record it writes loses its
mark. After its last burst the pass ends: RESTORE_DONE is pending, the meter timer runs, and after a full pass with
the clock good the audio blocks run, at the normal start-up. There SOURCE is pending beside RESTORE_DONE where a kept
change of format takes a line that carries out of LOCKED (R26, R35), and ZONE_NOSIGNAL where a waiting zone is found
to have reached its limit (R59), there alone while the wait limits lie in their range; no other cause is new. The last
clauses are for a burst with no access held; with one, the burst's end does this first and the held access goes as
BurstEndFreesThePort says. Rests on the model's choices in logs 7, 16, 17, 18, 19, 35, 42, 50, 52, 58, 59 and 65. -/
def Obligations.RestorePassWritesItsRange : Prop :=
  ∀ (s : State) (p : RestorePass), MemoryCanonical s → s.rstnLow = false → s.agent.restore = some p →
    (s.agent.port = .free → s.agent.lastPart = false ∨ (∀ h, s.agent.held = some h → ¬MayGo s h.access) →
      ((∃ sl, inPass p.kind sl ∧ p.next ≤ sl.offset) → ∃ t, exec .partBurstIssue s = .next t
        ∧ ∃ run a b, PassRun p run ∧ run.head? = some a ∧ run.getLast? = some b
          ∧ BurstWritten .restore (slotAddr s a) (run.map (passWord s)) s
              { s with agent := { s.agent with
                restore := some ⟨p.kind, b.offset + 2⟩
                queue := s.agent.queue.filter fun sl => sl ∉ run } } t)
      ∧ ((∀ sl, inPass p.kind sl → sl.offset < p.next) → ∀ r, recInPass p.kind r → p.next ≤ r.offset →
          (∀ x, recInPass p.kind x → p.next ≤ x.offset → r.offset ≤ x.offset) →
          ∃ t, exec .partBurstIssue s = .next t
            ∧ BurstWritten .restore (s.apertureBase + r.offset) (recWords s r) s
                { s with
                  dirty := s.dirty.filter fun x => x ≠ r
                  agent := { s.agent with restore := some ⟨p.kind, r.offset + 2⟩ } } t))
    ∧ (∀ b, s.agent.port = .part b → b.owner = .restore → s.agent.held = none →
        (PassGoesOn p →
          exec .partBurstEnd s = .next { s with agent := { s.agent with port := .free, lastPart := true } })
        ∧ (¬PassGoesOn p →
            let u := { s with
              agent := { s.agent with port := .free, lastPart := true, restore := none }
              meterTimer := true
              att := { s.att with pending := s.att.pending ||| 0x0400#16 } }
            (p.kind = .audio ∨ s.clock ≠ .good → ∃ t, exec .partBurstEnd s = .next t ∧ OwnStep [] s u t)
            ∧ (p.kind = .full → s.clock = .good → s.audioStarted = false →
                ∃ t, exec .partBurstEnd s = .next t ∧ Resumed u t ∧ MarksBetween [] pathRecords s t)))

/-- The end of a part burst (R12, R15, R169, R176): the port is free and the part held it last; a write-back, report
or store burst and a burst whose words nobody wants change nothing else; a held access goes as if it began then. At
the end of any burst, a restore pass's, a stream's and a recall's among them, its requester takes up the result as
with no access held, and then the held access goes from the state that this gives, or stays held where a restore pass
goes on that holds it back (R21; the order is log 57's). A recall keeps its words; with all eighteen, an invalid
record reports INVALID and a valid one tunes the preset, clears the content, which marks an AF list that it empties,
and preloads the record's AF codes; where it leaves LISTENING or VERIFYING, TUNER's source record is marked (R26).
Rests on the model's choices in logs 2, 18, 19, 35, 43, 44, 48, 49, 55, 57, 62 and 65. -/
def Obligations.BurstEndFreesThePort : Prop :=
  ∀ s : State, s.rstnLow = false →
    let freed := { s with agent := { s.agent with port := .free, lastPart := true } }
    let plain := fun (b : Burst) => (∃ n r, b.owner ∈ [BurstOwner.writeBack, .store n, .report r])
      ∨ (∃ m n, b.owner = .fetch m n ∧ (b.discard = true ∨ s.audioRuns = false))
      ∨ (∃ n, b.owner = .recall n ∧ b.discard = true)
    let idle := s.agent.restore = none ∧ s.agent.queue = [] ∧ s.tun.transfer = .none ∧ s.dirty = []
      ∧ ∀ m, ¬FetchDue s m
    ((∀ b, s.agent.port ≠ .part b) → exec .partBurstEnd s = .next s)
    ∧ (∀ b, s.agent.port = .part b → plain b → s.agent.held = none → exec .partBurstEnd s = .next freed)
    ∧ (∀ (i : Instr) (h : HeldAccess) (last : Bool), s.agent.held = some h → MayGo s h.access →
        (i = .partBurstEnd ∧ last = true ∧ ∃ b, s.agent.port = .part b ∧ plain b)
          ∨ (i = .partBurstIssue ∧ last = s.agent.lastPart ∧ s.agent.port = .free
              ∧ (s.agent.lastPart = true ∨ idle)) →
        let s' := { s with agent := { s.agent with port := .free, lastPart := last, held := none } }
        (h.whole = false → exec i s = exec (.hostAccessBegin h.access) s')
        ∧ (h.whole = true → ∀ (off : BitVec 16) (l : Lanes) (v : Word), h.access = slotAccess s off.toNat l v →
            exec i s = exec (.slotWrite off l v) s'))
    ∧ (∀ b h, s.agent.port = .part b → s.agent.held = some h →
        ∃ t, exec .partBurstEnd { s with agent := { s.agent with held := none } } = .next t
          ∧ t.agent.port = .free ∧ t.agent.lastPart = true ∧ t.agent.held = none
          ∧ (MayGo t h.access →
              (h.whole = false → exec .partBurstEnd s = exec (.hostAccessBegin h.access) t)
              ∧ (h.whole = true → ∀ (off : BitVec 16) (l : Lanes) (v : Word), h.access = slotAccess t off.toNat l v →
                  exec .partBurstEnd s = exec (.slotWrite off l v) t))
          ∧ (¬MayGo t h.access →
              exec .partBurstEnd s = .next { t with agent := { t.agent with held := some h } }))
    ∧ (∀ b n m got, s.agent.port = .part b → b.owner = .recall m → b.discard = false → s.agent.held = none →
        s.tun.transfer = .recalling n got →
        let all := got ++ b.words
        let w := fun i => all.getD i 0
        let band := if (w 0).toNat / 16 % 4 = 0 then Band.fm else .am
        let code := (w 1).toNat
        let valid := (w 0).getLsbD 0 = true ∧ (w 0).toNat / 16 % 4 ≤ 1 ∧ code ≤ topCode s.tun.region band
        let out := decide (s.tun.state = .listening ∨ s.tun.state = .verifying)
        let reqs := (if band = s.tun.band then [] else [Slot.band]) ++ if code = s.tun.code then [] else [.code]
        (all.length < 18 →
          exec .partBurstEnd s = .next { freed with tun := { s.tun with transfer := .recalling n all } })
        ∧ (18 ≤ all.length → ¬valid → ∃ t, exec .partBurstEnd s = .next t
          ∧ OwnStep [] s
              { freed with
                tun := { s.tun with
                  transfer := .none, outcome := .invalid, outcomeCount := (s.tun.outcomeCount + 1) % 65536
                  weak := if afActive s = true then s.tun.weak else 0 }
                att := { s.att with pending := s.att.pending ||| 0x0100#16 } } t)
        ∧ (18 ≤ all.length → valid → ∃ t, exec .partBurstEnd s = .next t
          ∧ t = afterCarrying
              { freed with
                agent := { freed.agent with queue := queueWith s.agent.queue reqs }
                tun := { s.tun with
                  state := .tuning, band := band, code := code, reason := .recall, backoff := false
                  expected := if (w 0).getLsbD 7 = true then some (w 2) else none
                  weak := if afActive t = true then s.tun.weak else 0
                  settleTimer := false, verifyTimer := false, readingTimer := s.tun.readingTimer && !out
                  queryTimer := s.tun.queryTimer && !out, transfer := .none }
                fe := t.fe, meas := readingAbandoned s.meas
                sd := bitsStopped (takingBits s.tun) { s.sd.clearContent with
                  af := (((all.drop 10).take (min 8 (w 9).toNat)).map BitVec.toNat).foldl
                    (fun af c => if c ≤ 205 ∧ c ∉ af ∧ c ≠ code then af ++ [c] else af) [] } } t
          ∧ SentOnLine (abandonsOf out) (.tune band s.tun.region code .plain) s.fe t.fe
          ∧ CarryingChange .tuner out false s t
          ∧ MarksBetween (carryingMarks .tuner out false ++ if s.sd.af = [] then [] else [.af])
              (pathMarks out false s) s t
          ∧ StationNotice (if s.sd.af = [] then [] else [.af]) s (sourceNotice out false s.att) t))

/-! ### Serial audio lines and memory streams -/

/-- The end of a window (R29 to R32): the count of FCK edges gives the window's class and the runs, and the lock state
follows its table; entry to LOCKED takes the run's class, the third miss in a row leaves it, and the carrying status
goes with it unless NPCM is taken, with the mark of the line's source record (R26). The count starts again, and after
a NONE window the line is known to stand without frames. Rests on the model's choices in logs 14, 18, 19, 35, 49 and
65. -/
def Obligations.SaWindowEndFollowsLockTable : Prop :=
  ∀ (l : SaLine) (s : State), s.rstnLow = false →
    let x := s.sa.get l
    let n := x.edges
    let cls : Option RateClass :=
      if 31 ≤ n ∧ n ≤ 33 then some .k32 else if 43 ≤ n ∧ n ≤ 46 then some .k44
      else if 47 ≤ n ∧ n ≤ 49 then some .k48 else if 87 ≤ n ∧ n ≤ 90 then some .k88
      else if 94 ≤ n ∧ n ≤ 98 then some .k96 else none
    let rates := if cls = none then 0 else if x.runClass = cls then x.runCount + 1 else 1
    let others := if n = 0 ∨ cls ≠ none then 0 else x.otherRun + 1
    let y : SaState := { x with
      edges := 0, runClass := cls, runCount := rates, otherRun := others, afterSilence := decide (n = 0) }
    let lockedY : SaState := { y with lock := .locked, lockedClass := cls, misses := 0, conv := .empty }
    let into := fun (y' : SaState) => ∃ t, exec (.saWindowEnd l) s = .next t
      ∧ OwnStep [] s { s with sa := s.sa.set l y' } t
    let moves := fun (now : Bool) (y' : SaState) => ∃ t, exec (.saWindowEnd l) s = .next t
      ∧ CarryingStep [] (.sa l) (!now) now s { s with sa := s.sa.set l y' } t
    (s.audioRuns = false → exec (.saWindowEnd l) s = .next s)
    ∧ (s.audioRuns = true →
        (x.lock = .noClock →
          (n = 0 → into y) ∧ (n ≠ 0 → into { y with lock := .measuring }))
        ∧ (x.lock ∈ [LockState.measuring, .unsupported] →
          (n = 0 → into { y with lock := .noClock })
          ∧ (4 ≤ rates → x.npcmTaken = true → into lockedY)
          ∧ (4 ≤ rates → x.npcmTaken = false → moves true lockedY)
          ∧ (n ≠ 0 → rates < 4 → 4 ≤ others → into { y with lock := .unsupported })
          ∧ (n ≠ 0 → rates < 4 → others < 4 → into y))
        ∧ (x.lock = .locked →
          let out : SaState := { y with
            lock := if n = 0 then .noClock else .measuring, lockedClass := none, misses := 0, conv := .empty }
          (cls ≠ none → x.lockedClass = cls → into { y with misses := 0 })
          ∧ (cls = none ∨ x.lockedClass ≠ cls → x.misses + 1 < 3 → into { y with misses := x.misses + 1 })
          ∧ (cls = none ∨ x.lockedClass ≠ cls → 3 ≤ x.misses + 1 → x.npcmTaken = true → into out)
          ∧ (cls = none ∨ x.lockedClass ≠ cls → 3 ≤ x.misses + 1 → x.npcmTaken = false → moves false out)))

/-- A frame of a line and its NPCM pin (R27, R33, R34, R35): an FCK edge counts, and a line that carries hands the
first 24 bits of each slot to its converter; frames have arrived again (R31); a change of the pin starts the filter
again, and 2 ms later the level is taken, which moves the carrying status of a LOCKED line and marks its source record
(R26). Rests on the model's choices in logs 12, 13, 14, 15, 18, 19, 35, 49 and 65. -/
def Obligations.SaFramesAndNpcmFollowTheLine : Prop :=
  (∀ (l : SaLine) (slots : List (BitVec 32)) (s : State), AudioRuns s →
    let x := s.sa.get l
    let w := fun i => (slots.getD i 0).extractLsb' 8 24
    let f : SrcFrame := match x.format with
      | .stereo => .stereo (w 0) (w 1)
      | .tdm8 => .eight (w 0) (w 1) (w 2) (w 3) (w 4) (w 5) (w 6) (w 7)
    let y : SaState := { x with edges := x.edges + 1, afterSilence := false }
    (x.lock = .locked → x.npcmTaken = false → exec (.saFrame l slots) s =
      .next { s with
        sa := s.sa.set l { y with conv := { x.conv with frames := (f :: x.conv.frames).take 98 } } })
    ∧ (x.lock ≠ .locked ∨ x.npcmTaken = true →
      exec (.saFrame l slots) s = .next { s with sa := s.sa.set l y }))
  ∧ (∀ (l : SaLine) (level : Bool) (s : State),
    let x := s.sa.get l
    (level = x.npcmPin → exec (.npcmChange l level) s = .next s)
    ∧ (level ≠ x.npcmPin → exec (.npcmChange l level) s =
        .next { s with sa := s.sa.set l { x with npcmPin := level, npcmTimer := s.audioRuns } }))
  ∧ ∀ (l : SaLine) (s : State), AudioRuns s →
    let x := s.sa.get l
    let u := { s with sa := s.sa.set l { x with npcmTimer := false, npcmTaken := x.npcmPin, conv := .empty } }
    (x.npcmTimer = false → exec (.npcmStable l) s = .next s)
    ∧ (x.npcmTimer = true → x.npcmTaken = x.npcmPin →
        exec (.npcmStable l) s = .next { s with sa := s.sa.set l { x with npcmTimer := false } })
    ∧ (x.npcmTimer = true → x.npcmTaken ≠ x.npcmPin → x.lock ≠ .locked →
        ∃ t, exec (.npcmStable l) s = .next t ∧ OwnStep [.source (.sa l)] s u t)
    ∧ (x.npcmTimer = true → x.npcmTaken ≠ x.npcmPin → x.lock = .locked →
        ∃ t, exec (.npcmStable l) s = .next t ∧ CarryingStep [] (.sa l) (!x.npcmTaken) (!x.npcmPin) s u t)

/-- A stream's frame instants and its fetches (R40 to R42): a RUNNING stream hands its oldest frame to the converter
and starves on an empty buffer; a fetch burst's frames join the buffer, DRAIN moves on round the ring, and at 256
frames in PRIMING or 64 in STARVED the stream runs. Starving and running mark the stream record (R43) and the source's
(R26). A fetch burst that ends with an access held does this first, and the held access goes as BurstEndFreesThePort
says. Rests on the model's choices in logs 7, 13, 15, 18, 19, 35, 49 and 65. -/
def Obligations.StreamsTakeAndGiveFrames : Prop :=
  (∀ (m : StreamId) (s : State), s.rstnLow = false →
    let r := s.ms.get m
    (s.audioRuns = false ∨ r.state ≠ .running → exec (.streamFrameInstant m) s = .next s)
    ∧ (s.audioRuns = true → r.state = .running →
        (∀ f rest, r.buffer = f :: rest → exec (.streamFrameInstant m) s = .next { s with
          ms := s.ms.set m
            { r with buffer := rest, conv := { r.conv with frames := (f :: r.conv.frames).take 98 } } })
        ∧ (r.buffer = [] → ∃ t, exec (.streamFrameInstant m) s = .next t
          ∧ CarryingStep [.stream m] (.ms m) true false s
              { s with
                ms := s.ms.set m
                  { r with state := .starved, starvations := (r.starvations + 1) % 65536, conv := .empty }
                att := { s.att with pending := s.att.pending ||| 0x0004#16 } } t)))
  ∧ ∀ (m : StreamId) (n : Nat) (b : Burst) (s : State), AudioRuns s → s.agent.port = .part b →
    b.owner = .fetch m n → b.discard = false → s.agent.held = none →
    let r := s.ms.get m
    r.channels ∈ [2, 8] → b.words.length = n * wordsOfFrame r →
    let freed := { s with agent := { s.agent with port := .free, lastPart := true } }
    let r' := { r with
      buffer := r.buffer ++ (List.range n).map (ringFrame r b.words), drain := (r.drain + n) % r.size }
    let full := r.buffer.length + n
    let runs := (r.state = .priming ∧ 256 ≤ full) ∨ (r.state = .starved ∧ 64 ≤ full)
    (¬runs → ∃ t, exec .partBurstEnd s = .next t
      ∧ OwnStep [.stream m] s { freed with ms := s.ms.set m r' } t)
    ∧ (runs → ∃ t, exec .partBurstEnd s = .next t
      ∧ CarryingStep [.stream m] (.ms m) false true s
          { freed with ms := s.ms.set m { r' with state := .running, conv := .empty } } t)

/-! ### The zone switch's fades -/

/-- An expiry of a zone's fade timer (R54 to R56, R61): F rises to 0 and the zone plays, or falls to -320,
where the gate closes, the zone's gains drop to -320, held changes are applied, and the zone connects to its
pending source or fades in again, by the steps of `FadeEnded` and `ReconfiguringEnded`: what was not held stays,
modules that wind down by it stop, and the other zone keeps its gains, and its record unless the delay pool had a
notice and examines it (R117, R118). A held DELAY that finds room marks the delay record and the zone's (R118). Rests
on the model's choices in logs 18, 19, 35 and 65. -/
def Obligations.FadeTimerMovesTheFade : Prop :=
  ∀ (z : Zone) (s : State), s.rstnLow = false →
    let r := s.zones.get z
    let up := min 0 (r.fade + r.fadeRate)
    let down := max gainFloor (r.fade - r.fadeRate)
    let into := fun (u : State) => ∃ t, exec (.fadeTimerExpiry z) s = .next t ∧ OwnStep [] s u t
    let closes := fun (r' : ZoneRec) => ∃ t, exec (.fadeTimerExpiry z) s = .next t
      ∧ OwnStep [] s { s with zones := s.zones.set z r', gain := flooredZone z s.gain, mods := t.mods } t
      ∧ WindDowns s t
    let ends := fun (x : Option Source) (isOpen : Prop) => ∃ t, exec (.fadeTimerExpiry z) s = .next t
      ∧ t = { s with
          zones := t.zones, gain := t.gain, mods := t.mods, dec := t.dec, bass := t.bass, pool := t.pool,
          dirty := t.dirty }
      ∧ (t.zones.get z).connected = x ∧ (t.zones.get z).fade = gainFloor
      ∧ ((t.zones.get z).gateOpen = true ↔ isOpen)
      ∧ (∀ ch, chanZone ch = z → (t.gain.chans.get ch).applied = gainFloor) ∧ HeldApplied z s t
      ∧ DelayMarked z s t ∧ t.gain = flooredZone z s.gain ∧ WindDowns s t
      ∧ (r.held.delay = false → t.zones.get (otherZone z) = s.zones.get (otherZone z))
      ∧ (r.state = .fadingOut → FadeEnded z s t) ∧ (r.state = .reconfiguring → ReconfiguringEnded z s t)
      ∧ MarksBetween [] pathRecords s t
    (s.restartTimersRun = false → exec (.fadeTimerExpiry z) s = .next s)
    ∧ (s.restartTimersRun = true →
        (r.state ∈ [ZoneState.silent, .waiting, .playing] → exec (.fadeTimerExpiry z) s = .next s)
        ∧ (r.state = .fadingIn → into { s with
            zones := s.zones.set z { r with fade := up, state := if up = 0 then .playing else .fadingIn } })
        ∧ (r.state ∈ [ZoneState.fadingOut, .reconfiguring] → down ≠ gainFloor →
            into { s with zones := s.zones.set z { r with fade := down } })
        ∧ (r.state = .fadingOut → down = gainFloor → r.held = .empty →
            (r.pending = none → closes { r with
              state := .silent, connected := none, fade := gainFloor, gateOpen := false, waited := 0,
              noSignal := false })
            ∧ (∀ x, r.pending = some x → s.view.get x = true → closes { r with
                state := .fadingIn, connected := some x, fade := gainFloor, gateOpen := true, waited := 0,
                noSignal := false })
            ∧ (∀ x, r.pending = some x → s.view.get x = false → closes { r with
                state := .waiting, connected := some x, fade := gainFloor, gateOpen := false, waited := 0,
                noSignal := false }))
        ∧ (r.state = .reconfiguring → down = gainFloor → r.held = .empty → closes { r with
            state := .fadingIn, fade := gainFloor, gateOpen := true, waited := 0, noSignal := false })
        ∧ (r.state = .fadingOut → down = gainFloor →
            ends r.pending (∃ x, r.pending = some x ∧ s.view.get x = true))
        ∧ (r.state = .reconfiguring → down = gainFloor → ends r.connected True))

/-! ### The surround decoder, the bass manager and one audio frame -/

/-- The level function L2 (R74) and the coefficient K (R96), with the mantissa table that both use: L2 is 16
times the position of the highest set bit plus the largest index whose mantissa is at most the scaled value,
and K is 0 at -320 and else the mantissa of the gain's remainder by 16, shifted by the quotient. -/
def Obligations.LevelsAndCoefficientsFollowTheTable : Prop :=
  (List.range 16).map mantissa = [32768, 34219, 35734, 37316, 38968, 40693, 42495, 44376, 46341, 48393, 50535,
      52773, 55109, 57549, 60097, 62757]
  ∧ (∀ (x x' e m : Nat), x' = max x 1 → 2 ^ e ≤ x' → x' < 2 ^ (e + 1) → m = x' * 32768 / 2 ^ e →
      32768 ≤ m ∧ m ≤ 65535
        ∧ ∃ r, r ≤ 15 ∧ mantissa r ≤ m ∧ (∀ q, q ≤ 15 → mantissa q ≤ m → q ≤ r) ∧ level2 x = 16 * e + r)
  ∧ level2 0 = 0 ∧ level2 805306368 = 473
  ∧ coeff (-320) = 0
  ∧ (∀ (g e : Int) (r : Nat), -319 ≤ g → g ≤ 32 → g = 16 * e + r → r ≤ 15 →
      -20 ≤ e ∧ e ≤ 2
        ∧ (0 ≤ 15 + e → coeff g = mantissa r * 2 ^ (15 + e).toNat)
        ∧ (15 + e < 0 → coeff g = mantissa r >>> (-(15 + e)).toNat)
        ∧ 1069 ≤ coeff g ∧ coeff g ≤ 2 ^ 32)
  ∧ coeff 32 = 2 ^ 32 ∧ coeff (-319) = 1069 ∧ coeff 0 = 2 ^ 30

/-- The end of a steering window (R72, R73, R75, R76): each envelope moves toward its window sum by the part
that the speed gives, the staged terms become active, and the new terms, from the new envelopes, are staged. A zone's
channel set is its connected source's, eight channels for a TDM8 line and an eight-channel stream (R25, R49).
Rests on the model's choices in logs 18, 20 and 35. -/
def Obligations.SteeringWindowStagesTerms : Prop :=
  (∀ (s : State) (z : Zone), zoneSet s z = .eight ↔
    (∃ l, (s.zones.get z).connected = some (.sa l) ∧ (s.sa.get l).format = .tdm8)
      ∨ ∃ m, (s.zones.get z).connected = some (.ms m) ∧ (s.ms.get m).channels = 8)
  ∧ ∀ s : State, s.rstnLow = false →
    let d := s.dec
    let k := match d.speed with | .fast => 8 | .normal => 32 | .slow => 128
    let moved := fun (e a : Nat) => ((e : Int) + ((a : Int) - e) / k).toNat
    let env : Quad :=
      ⟨moved d.env.l d.sums.l, moved d.env.r d.sums.r, moved d.env.s d.sums.s, moved d.env.d d.sums.d⟩
    let lr := clampInt (-48) 48 ((level2 env.l : Int) - level2 env.r)
    let cs := clampInt (-48) 48 ((level2 env.s : Int) - level2 env.d)
    let f := max 0 cs
    let b := max 0 (-cs)
    let ld := max 0 lr
    let rd := max 0 (-lr)
    let low := fun (x : Int) => clampInt (-48) 0 x
    let staged : PerMain Int :=
      if d.active ≠ .matrix then .all 0
      else match zoneSet s .z1 with
        | .eight => { PerMain.all 0 with tl := -8, tr := -8 }
        | .stereo =>
          { fl := low (-(f / 2) - rd), fr := low (-(f / 2) - ld), c := low (-b - (ld + rd) / 2), sw := 0
            sl := low (-f - rd), sr := low (-f - ld), bl := low (-f - (ld + rd) / 2)
            br := low (-f - (ld + rd) / 2), tl := low (-8 - f - rd), tr := low (-8 - f - ld) }
    (s.restartTimersRun = false → exec .steerWindowEnd s = .next s)
    ∧ (s.restartTimersRun = true → ∃ t, exec .steerWindowEnd s = .next t
        ∧ OwnStep [] s { s with dec := { d with
            env := env, activeTerms := d.stagedTerms, stagedTerms := staged, sums := .zero, frames := 0 } } t)

/-- What a zone's path takes and makes of a frame (R25, R31, R34, R40, R44, R49, R68 to R71, R84 to R87): a
closed gate, a source that does not carry, a line in a NONE window or without a frame since one, and a
converter in its first 48 frames give zeros; TUNER gives its pair or the mean, and else the frame is the
converter's; the decode modes form the buses, an eight-channel frame is downmixed for STEREO and for zone 2,
and the bass manager folds, splits and sums the buses. Rests on the model's choices in logs 13, 14 and 22. -/
def Obligations.FramesFormTheBuses : Prop :=
  (∀ (s : State) (quiet : List SaLine) (taL taR : Sample) (z : Zone),
    let r := s.zones.get z
    let zeros := fun f => f = SrcFrame.stereo 0 0 ∨ f = .eight 0 0 0 0 0 0 0 0
    let mean := BitVec.ofInt 24 ((taL.toInt + taR.toInt) / 2)
    (r.gateOpen = false ∨ r.connected = none → zeros (zoneFrame s quiet taL taR z))
    ∧ (r.gateOpen = true → r.connected = some .tuner →
        (s.tun.state ∉ [TunerState.listening, .verifying] → zoneFrame s quiet taL taR z = .stereo 0 0)
        ∧ (s.tun.state ∈ [TunerState.listening, .verifying] →
            zoneFrame s quiet taL taR z = if s.tun.stereo = true then .stereo taL taR else .stereo mean mean))
    ∧ (∀ l, r.gateOpen = true → r.connected = some (.sa l) →
        let x := s.sa.get l
        let off := x.lock ≠ .locked ∨ x.npcmTaken = true ∨ x.afterSilence = true ∨ (x.edges = 0 ∧ l ∈ quiet)
          ∨ x.conv.age < 48
        (off → zeros (zoneFrame s quiet taL taR z))
        ∧ (¬off → zoneFrame s quiet taL taR z = convertedFrame s.free (sourceIndex (.sa l)) (zoneSet s z)))
    ∧ (∀ m, r.gateOpen = true → r.connected = some (.ms m) →
        let off := (s.ms.get m).state ≠ .running ∨ (s.ms.get m).conv.age < 48
        (off → zeros (zoneFrame s quiet taL taR z))
        ∧ (¬off → zoneFrame s quiet taL taR z = convertedFrame s.free (sourceIndex (.ms m)) (zoneSet s z))))
  ∧ (∀ l r : Sample,
    let a := l.toInt
    let b := r.toInt
    let pair : PerMain Int := { PerMain.all 0 with fl := a, fr := b }
    formBuses .direct (.stereo l r) = ⟨pair, 0⟩ ∧ formBuses .stereo (.stereo l r) = ⟨pair, 0⟩
    ∧ downmix (.stereo l r) = (a, b)
    ∧ formBuses .matrix (.stereo l r) =
        ⟨{ fl := a, fr := b, c := (a + b) / 2, sw := 0, sl := (a - b) / 2, sr := (b - a) / 2
           bl := (a - b) / 2, br := (b - a) / 2, tl := (a - b) / 2, tr := (b - a) / 2 }, 0⟩)
  ∧ (∀ (b : Bass) (x : Buses), ∃ hi lo,
      BassManaged b x (b.process x).1 (b.process x).2 hi lo)
  ∧ ∀ fl fr c lfe sl sr bl br : Sample,
    let f := SrcFrame.eight fl fr c lfe sl sr bl br
    let k := fun (x : Sample) => (x.toInt * 23170 + 16384) / 32768
    let lim := fun (x : Int) => clampInt (-8388608) 8388607 x
    let eight : PerMain Int :=
      { fl := fl.toInt, fr := fr.toInt, c := c.toInt, sw := 0, sl := sl.toInt, sr := sr.toInt, bl := bl.toInt
        br := br.toInt, tl := 0, tr := 0 }
    let lo := lim (fl.toInt + k c + k sl + k bl)
    let ro := lim (fr.toInt + k c + k sr + k br)
    formBuses .direct f = ⟨eight, lfe.toInt⟩
    ∧ formBuses .matrix f =
        ⟨{ eight with tl := (sl.toInt + bl.toInt) / 2, tr := (sr.toInt + br.toInt) / 2 }, lfe.toInt⟩
    ∧ formBuses .stereo f = ⟨{ PerMain.all 0 with fl := lo, fr := ro }, 0⟩ ∧ downmix f = (lo, ro)

/-- One 48 kHz frame (R34, R72, R97, R98, R111, R123): each channel's word enters its delay line, the word
that leaves it is multiplied by the channel's coefficient and saturated, magnitude and clip are noted, and
the link carries the result in the channel's slot, 24 bits and eight zeros; zone 1's frame joins the
steering window and each running converter ages. The tuner's pair is the first 24 bits of TA's two 32-bit slots, and
TA's clocks run while the audio blocks do, with RSTN high (R44). Rests on the model's choices in logs 13, 14, 15, 21,
22 and 46. -/
def Obligations.AudioFrameRunsThePaths : Prop :=
  linkSlots .a = [.main .fl, .main .fr, .main .c, .main .sw]
  ∧ linkSlots .b = [.main .sl, .main .sr, .main .bl, .main .br]
  ∧ linkSlots .c = [.main .tl, .main .tr, .zl, .zr]
  ∧ (∀ ch m, chanModule ch = m ↔ ch ∈ linkSlots m)
  ∧ (∀ ch, chanZone ch = .z2 ↔ ch = .zl ∨ ch = .zr)
  ∧ (∀ (s : State) (ch : Chan),
      (s.rstnLow = true ∨ s.clock ≠ .good → linkOut s ch = 0)
      ∧ (s.rstnLow = false → s.clock = .good →
          (linkOut s ch).extractLsb' 8 24 = s.links.get ch ∧ (linkOut s ch).extractLsb' 0 8 = 0))
  ∧ (∀ s : State, taClocksRun s = true ↔ s.rstnLow = false ∧ s.audioStarted = true ∧ s.clock = .good)
  ∧ ∀ (quiet : List SaLine) (ta : BitVec 32 × BitVec 32) (s : State), s.rstnLow = false →
    let taL : Sample := ta.1.extractLsb' 8 24
    let taR : Sample := ta.2.extractLsb' 8 24
    let f := zoneFrame s quiet taL taR .z1
    let p := s.bass.process (formBuses s.dec.active f)
    let mix := downmix (zoneFrame s quiet taL taR .z2)
    let entering : Chan → Sample
      | .main ch => BitVec.ofInt 24 (p.1.get ch)
      | .zl => BitVec.ofInt 24 mix.1
      | .zr => BitVec.ofInt 24 mix.2
    let pair := match f with
      | .stereo l r => (l.toInt, r.toInt)
      | .eight _ _ _ _ _ _ _ _ => (0, 0)
    let q := s.dec.sums
    (s.audioRuns = false → exec (.audioFrame quiet ta) s = .next s)
    ∧ (s.audioRuns = true → ∃ t, exec (.audioFrame quiet ta) s = .next t
        ∧ t = { s with
            pool := { s.pool with lines := t.pool.lines }, gain := { s.gain with chans := t.gain.chans }
            links := t.links, bass := { s.bass with filters := p.2 }, dec := t.dec, sa := t.sa, ms := t.ms
            free := s.free + 1 }
        ∧ (∀ ch,
            let line := s.pool.lines.get ch
            let g := s.gain.chans.get ch
            let x : Sample := if line = [] then entering ch else line.getLastD 0
            let y := (x.toInt * coeff g.applied + 2 ^ 29) / 2 ^ 30
            let z := clampInt (-8388608) 8388607 y
            t.pool.lines.get ch = (entering ch :: line).dropLast
            ∧ t.links.get ch = BitVec.ofInt 24 z
            ∧ t.gain.chans.get ch =
                { g with peak := max g.peak z.natAbs, clip := g.clip || decide (y ≠ z) })
        ∧ t.dec =
            (if s.restartTimersRun = true ∧ s.dec.frames < 48 then { s.dec with
              frames := s.dec.frames + 1
              sums := ⟨q.l + pair.1.natAbs, q.r + pair.2.natAbs, q.s + (pair.1 + pair.2).natAbs,
                q.d + (pair.1 - pair.2).natAbs⟩ }
            else s.dec)
        ∧ (∀ l,
            let x := s.sa.get l
            t.sa.get l = if x.lock = .locked ∧ x.npcmTaken = false then
              { x with conv := { x.conv with age := x.conv.age + 1 } } else x)
        ∧ ∀ m,
            let x := s.ms.get m
            t.ms.get m = if x.state = .running then
              { x with conv := { x.conv with age := x.conv.age + 1 } } else x)

/-! ### The gain stage's timers and the panel knob -/

/-- An expiry of the slew timer moves each applied gain toward its target by at most 8 and reports the
modules that have wound down (R92 to R94); an expiry of the meter timer closes the period of the twelve
channels and marks their records (R17, R98). Rests on the model's choices in logs 24 and 35. -/
def Obligations.SlewAndMeterTimersServeTheChannels : Prop :=
  (∀ s : State, s.audioRuns = true ↔ s.audioStarted = true ∧ s.clock = .good)
  ∧ (∀ s : State, s.restartTimersRun = true ↔
      s.audioRuns = true ∧ ∀ n, s.agent.restore ≠ some ⟨.audio, n⟩)
  ∧ (∀ r, r ∈ meterRecords ↔ ∃ ch, r = .meter ch)
  ∧ (∀ s : State, s.rstnLow = false →
    let goal := fun (ch : Chan) =>
      let z := chanZone ch
      let r := s.zones.get z
      let m := s.mods.get (chanModule ch)
      let here := match ch with | .main x => s.bass.active.presence.get x | .zl => true | .zr => true
      let steer := match ch with | .main x => s.dec.activeTerms.get x | .zl => 0 | .zr => 0
      let trim := match r.connected with | some x => s.gain.srcTrims.get x | none => 0
      if (s.gain.zones.get z).mute = true ∨ here = false ∨ r.gateOpen = false ∨ r.fade = -320 ∨ m.state ≠ .on
          ∨ m.order = true then -320
      else clampInt (-320) 32
        ((s.gain.zones.get z).volume + s.gain.trims.get ch + trim + steer + m.derate + r.fade)
    (s.restartTimersRun = false → exec .slewTimerExpiry s = .next s)
    ∧ (s.restartTimersRun = true → ∃ t, exec .slewTimerExpiry s = .next t
        ∧ OwnStep [] s
            { s with gain := { s.gain with chans := t.gain.chans }, mods := t.mods } t
        ∧ (∀ ch,
            let g := s.gain.chans.get ch
            t.gain.chans.get ch = { g with
              applied :=
                if g.applied + 8 < goal ch then g.applied + 8
                else if goal ch + 8 < g.applied then g.applied - 8
                else goal ch })
        ∧ WindDowns s t))
  ∧ ∀ s : State, s.rstnLow = false →
    (s.meterTimer = false → exec .meterTimerExpiry s = .next s)
    ∧ (s.meterTimer = true → ∃ t, exec .meterTimerExpiry s = .next t
        ∧ OwnStep meterRecords s
            { s with gain := { s.gain with
              chans := .ofFn fun ch =>
                let g := s.gain.chans.get ch
                { g with
                  peak := 0, clip := false, closedPeak := (level2 g.peak : Int) - 368, closedClip := g.clip } } }
            t)

/-- The knob's pins and filters (R104): a change of a pin starts its filter's 1 ms again, and a filter that
runs out takes the pin's level; until both pins have a level there is no pair, and the first pair becomes
the reference pair without a count. -/
def Obligations.KnobFiltersTakeTheFirstPair : Prop :=
  (∀ (level : Bool) (s : State),
    let a := s.knob.a
    let b := s.knob.b
    (level = a.pin → exec (.knobPinChange .kna level) s = .next s)
    ∧ (level = b.pin → exec (.knobPinChange .knb level) s = .next s)
    ∧ (level ≠ a.pin → exec (.knobPinChange .kna level) s =
        .next { s with knob := { s.knob with a := { a with pin := level, timer := s.audioRuns } } })
    ∧ (level ≠ b.pin → exec (.knobPinChange .knb level) s =
        .next { s with knob := { s.knob with b := { b with pin := level, timer := s.audioRuns } } }))
  ∧ ∀ (ps : KnobPins) (s : State), s.rstnLow = false →
    let a := s.knob.a
    let b := s.knob.b
    let a' := if ps ≠ .knb ∧ a.timer = true then { a with timer := false, taken := some a.pin } else a
    let b' := if ps ≠ .kna ∧ b.timer = true then { b with timer := false, taken := some b.pin } else b
    (s.audioRuns = false → exec (.knobFilterExpiry ps) s = .next s)
    ∧ (s.audioRuns = true → a'.taken = none ∨ b'.taken = none →
        exec (.knobFilterExpiry ps) s = .next { s with knob := { s.knob with a := a', b := b' } })
    ∧ (s.audioRuns = true → s.knob.reference = none → ∀ x y, a'.taken = some x → b'.taken = some y →
        exec (.knobFilterExpiry ps) s =
          .next { s with knob := { s.knob with a := a', b := b', reference := some (x, y) } })

/-- A knob step (R105, R106, R102): the new pair is compared with the reference pair and becomes it; the next
pair of the forward cycle counts +1, the previous one -1, a double change nothing. A count that brings the
accumulator to +4 or -4 sets it to 0 and produces a detent for the zone KNOB_ZONE names. Rests on the model's
choices in logs 35 and 51. -/
def Obligations.KnobStepCountsAgainstReference : Prop :=
  ∀ (ps : KnobPins) (old : Bool × Bool) (x y : Bool) (s : State), AudioRuns s →
    s.knob.reference = some old →
    let a := s.knob.a
    let b := s.knob.b
    let a' := if ps ≠ .knb ∧ a.timer = true then { a with timer := false, taken := some a.pin } else a
    let b' := if ps ≠ .kna ∧ b.timer = true then { b with timer := false, taken := some b.pin } else b
    let cycle := [((false, false), (false, true)), ((false, true), (true, true)), ((true, true), (true, false)),
      ((true, false), (false, false))]
    let count : Int := if (old, (x, y)) ∈ cycle then 1 else if ((x, y), old) ∈ cycle then -1 else 0
    let sum := s.knob.acc + count
    let k := fun (acc : Int) => { s.knob with a := a', b := b', reference := some (x, y), acc := acc }
    let z := s.knob.zone
    let g := s.gain.zones.get z
    let into := fun (g' : ZoneGain) (reqs : List Slot) => ∃ t, exec (.knobFilterExpiry ps) s = .next t
      ∧ t = { s with
          knob := k 0, gain := { s.gain with zones := s.gain.zones.set z g' }
          agent := { s.agent with queue := queueWith s.agent.queue reqs }, dirty := t.dirty }
      ∧ MarksExactly [] s t
    let level := fun (v : Int) => into { g with volume := v } (if v = g.volume then [] else [.volume z])
    a'.taken = some x → b'.taken = some y →
    (-4 < sum → sum < 4 → exec (.knobFilterExpiry ps) s = .next { s with knob := k sum })
    ∧ (4 ≤ sum → g.mute = true → into { g with mute := false } [.mute z])
    ∧ (4 ≤ sum → g.mute = false → level (min (g.volume + s.knob.step) g.maxVolume))
    ∧ (sum ≤ -4 → level (max (g.volume - s.knob.step) (-320)))

/-! ### The amplifier supervisor's and the clock supervisor's own events -/

/-- The start and stop timers and the fault lines (R127, R129, R131, R132): a module in STARTING goes to ON,
one in STOPPING to OFF and on to STARTING if its start conditions hold, and one whose AMPFLT stays asserted
while AMPEN is high is TRIPPED, its channels at -320, with FAULT_LINE and MODULE. AMPEN is high exactly in
STARTING and ON, with RSTN high (R125). Rests on the model's choices in log 35. -/
def Obligations.ModuleTimersAndFaultLines : Prop :=
  ∀ (m : AmpModule) (s : State),
    let r := s.mods.get m
    (ampEnabled s m = true ↔ s.rstnLow = false ∧ r.state ∈ [ModuleState.starting, .on])
    ∧ (∀ level, exec (.ampfltChange m level) s =
      .next { s with mods := s.mods.set m { r with fltPin := level } })
    ∧ (s.rstnLow = false →
        (r.state ≠ .starting → exec (.startTimerExpiry m) s = .next s)
        ∧ (r.state = .starting → ∃ t, exec (.startTimerExpiry m) s = .next t
            ∧ OwnStep [] s { s with mods := s.mods.set m { r with state := .on } } t)
        ∧ (r.state ≠ .stopping → exec (.stopTimerExpiry m) s = .next s)
        ∧ (r.state = .stopping → ∃ t, exec (.stopTimerExpiry m) s = .next t
            ∧ OwnStep [] s
                { s with mods := s.mods.set m { r with
                  state :=
                    if r.enable = true ∧ s.meas.result = .pass ∧ s.clock = .good then .starting else .off } } t)
        ∧ (r.fltPin = false ∨ r.state ∉ [ModuleState.starting, .on] →
            exec (.faultLineTrip m) s = .next s)
        ∧ (r.fltPin = true → r.state ∈ [ModuleState.starting, .on] →
            ∃ t, exec (.faultLineTrip m) s = .next t
              ∧ OwnStep [] s
                  { s with
                    mods := s.mods.set m
                      { r with state := .tripped, order := false, cause := .faultLine, tripEntry := 0 }
                    gain := flooredModule m s.gain
                    att := { s.att with pending := s.att.pending ||| 0x0010#16 } } t))

/-- The clock supervisor (R135, R124, R127): an absence in GOOD trips every module with CLOCK, floors all channels,
stops the links and discards the fetch in flight; a proven clock becomes GOOD, the audio blocks run again unless the
full restore pass runs, and each module in OFF whose enable is ON and whose check has passed starts. Where they run
again SOURCE and ZONE_NOSIGNAL alone may be new causes, as at the end of a full restore pass (R26, R35, R59). Rests on
the model's choices in logs 16, 17, 18, 19, 35, 42, 50, 52, 58, 59 and 65. -/
def Obligations.ClockAbsenceTripsAndProvenClockResumes : Prop :=
  (∀ s : State, s.rstnLow = false →
    (s.clock ≠ .good → exec .clockAbsence s = .next s)
    ∧ (s.clock = .good → ∃ t, exec .clockAbsence s = .next t
        ∧ OwnStep [] s
            { s with
              clock := .failed, links := .all 0, dec := { s.dec with sums := .zero, frames := 0 }
              gain := flooredChans (fun _ => true) s.gain
              mods := .ofFn fun m =>
                let r := s.mods.get m
                if r.state = .tripped then r
                else { r with state := .tripped, order := false, cause := .clock, tripEntry := 0 }
              agent := { s.agent with
                port := match s.agent.port with
                  | .part b => (match b.owner with
                    | .fetch _ _ => .part { b with discard := true }
                    | _ => .part b)
                  | p => p }
              att := { s.att with
                pending := s.att.pending ||| 0x0020#16
                  ||| if (s.mods.get .a).state = .tripped ∧ (s.mods.get .b).state = .tripped
                      ∧ (s.mods.get .c).state = .tripped then 0 else 0x0010#16 } } t))
  ∧ ∀ s : State, s.rstnLow = false →
    let started := fun m =>
      let r := s.mods.get m
      if r.state = .off ∧ r.enable = true ∧ s.meas.result = .pass then { r with state := .starting } else r
    (s.clock = .good → exec .clockProven s = .next s)
    ∧ (s.clock ≠ .good → (∃ n, s.agent.restore = some ⟨.full, n⟩) →
        ∃ t, exec .clockProven s = .next t
          ∧ OwnStep [] s { s with clock := .good, mods := .ofFn started } t)
    ∧ (s.clock ≠ .good → (∀ n, s.agent.restore ≠ some ⟨.full, n⟩) → ModulesPowered s →
        ∃ t, exec .clockProven s = .next t ∧ (∀ m, t.mods.get m = started m)
          ∧ MarksBetween [] pathRecords s t
          ∧ ∃ u, Resumed s u ∧ t = { u with mods := t.mods, dirty := t.dirty })

/-! ### The measurement unit's converter -/

/-- An expiry of the converter's timer (R140, R143 to R146, R150): the conversion in progress completes and
hands its code to its owner, an abandoned or discarded one to nobody; the host's result, the check's first
code and its verdict, which marks the device record and the on-demand result record, follow; then the next
conversion is chosen. Rests on the model's choices in logs 25, 26, 35 and 44. -/
def Obligations.ConverterServesItsRequesters : Prop :=
  ∀ (v : Int) (s : State), s.rstnLow = false →
    let m := { s.meas with conv := none }
    let b := { s with tun := { s.tun with weak := weakKept s } }
    let marked := fun (always : List Rec) (u : State) => ∃ t, exec (.converterTimerExpiry v) s = .next t
      ∧ ConversionChosen u.meas t.meas ∧ OwnStep always s { u with meas := t.meas } t
    let into := marked []
    (s.meas.conv = none → into b)
    ∧ ∀ c, s.meas.conv = some c →
      let code := codeOf v c
      let pass := 500 ≤ s.meas.checkRef ∧ s.meas.checkRef ≤ 524 ∧ 248 ≤ code ∧ code ≤ 264
      let done := { m with
        refCode := s.meas.checkRef, halfRefCode := code, result := if pass then .pass else .fail
        position := if s.meas.roundRobin = true then s.meas.position else 0, roundRobin := true }
      let stops := fun x => decide ((s.mods.get x).state = .starting ∨ (s.mods.get x).state = .on)
      (c.owner = .tuner true → into { b with meas := m })
      ∧ (∀ n, c.owner = .entry n true → into { b with meas := m })
      ∧ (c.owner = .host → into { b with
          meas := { m with hostStatus := .done, hostCode := code, hostCount := (m.hostCount + 1) % 65536 } })
      ∧ (c.owner = .ref → into { b with meas := { m with checkRef := code } })
      ∧ (c.owner = .halfRef → pass → marked [.device, .onDemand] { b with
          meas := done
          mods := .ofFn fun x =>
            let r := s.mods.get x
            if r.state = .off ∧ r.enable = true ∧ s.clock = .good then { r with state := .starting } else r })
      ∧ (c.owner = .halfRef → ¬pass → marked [.device, .onDemand] { b with
          meas := done
          mods := .ofFn fun x =>
            let r := s.mods.get x
            if stops x = true then { r with state := .stopping, order := false } else r
          gain := flooredChans (fun ch => stops (chanModule ch)) s.gain
          att := { s.att with pending := s.att.pending ||| 0x0080#16 } })

/-- A kept code of a round-robin entry (R143, R147 to R149, R131, R133): the entry takes the code, its count
and its violation state follow the limits and the debounce; entering violation fires REPORT or TRIP, an
entry of action DERATE in violation lowers its module's P by 2, and the end of a pass raises by 1 the P of
every module that no active DERATE entry in violation names. Rests on the model's choices in logs 25, 26, 35
and 44. -/
def Obligations.EntryCodesDriveTheirActions : Prop :=
  ∀ (v : Int) (c : Conversion) (n : Nat) (s : State), s.rstnLow = false → s.meas.conv = some c →
    c.owner = .entry n false → n < s.meas.entries.length →
    let code := codeOf v c
    let e := s.meas.entry n
    let debounce := e.w3.toNat / 256 % 16
    let out := decide (code < e.w1.toNat ∨ e.w2.toNat < code)
    let turns := out ≠ e.violation ∧ debounce ≤ e.count + 1
    let e' := { e with
      code := some code
      count := if out = e.violation ∨ debounce ≤ e.count + 1 then 0 else e.count + 1
      violation := if turns then out else e.violation }
    let entered := turns ∧ out = true
    let action := e.w3.toNat % 4
    let named := fun (x : AmpModule) => e.w3.toNat / 16 % 4 = match x with | .a => 1 | .b => 2 | .c => 3
    let m := { s.meas with conv := none, entries := s.meas.entries.set n e' }
    let hit := fun x => entered ∧ 2 ≤ action ∧ named x
    let derated := fun x => ∃ k ∈ m.entries.take m.seqLen,
      k.violation = true ∧ k.action = .derate ∧ k.module = some x
    let nobody := e.w3.toNat / 16 % 4 = 0
    ∃ t, exec (.converterTimerExpiry v) s = .next t ∧ ConversionChosen m t.meas
      ∧ OwnStep
          (.entries :: (if nobody then [] else [.module (if named .a then .a else if named .b then .b else .c)])) s
          { s with
            meas := t.meas, mods := t.mods, tun := { s.tun with weak := weakKept s }
            gain := if entered ∧ 2 ≤ action then
                flooredChans (fun ch => decide (named (chanModule ch))) s.gain else s.gain
            att := t.att } t
      ∧ (∀ x,
          let r := s.mods.get x
          let r' := t.mods.get x
          (hit x → r.state ≠ .tripped →
            r'.state = .tripped ∧ r'.order = false ∧ r'.cause = .measure ∧ r'.tripEntry = n)
          ∧ (¬hit x ∨ r.state = .tripped →
            r'.state = r.state ∧ r'.order = r.order ∧ r'.cause = r.cause ∧ r'.tripEntry = r.tripEntry)
          ∧ r'.enable = r.enable ∧ r'.fltPin = r.fltPin
          ∧ ∀ p,
            p = (if action = 1 ∧ e'.violation = true ∧ named x then clampInt (-48) 0 (r.derate - 2)
              else r.derate) →
            (n + 1 = s.meas.seqLen → ¬derated x → r'.derate = clampInt (-48) 0 (p + 1))
            ∧ (n + 1 ≠ s.meas.seqLen ∨ derated x → r'.derate = p))
      ∧ t.att = { s.att with pending := t.att.pending }
      ∧ (entered → action = 0 → t.att.pending = s.att.pending ||| 0x0040#16)
      ∧ ((∃ x, hit x ∧ (s.mods.get x).state ≠ .tripped) → t.att.pending = s.att.pending ||| 0x0010#16)
      ∧ (¬(entered ∧ action = 0) → (∀ x, hit x → (s.mods.get x).state = .tripped) →
          t.att.pending = s.att.pending)

/-- A reading for the tuner (R144, R163, R172 to R174, R167): it is the last code; LISTENING and VERIFYING put it
through the blend, LISTENING with AF follow through the weak count too, and ten weak readings start a probe, which
ends at once without a switch where the AF list has no code of the band; a step keeps its first reading and asks
again, and goes by the mean of the two. A probe that starts and a seek that finds move TUNER's carrying status, which
marks its source record (R26). A reading outside LISTENING and VERIFYING leaves the stereo flag on AM as well (log
63). Rests on the model's choices in logs 18, 19, 25, 26, 35, 44, 49, 55, 62, 63 and 65. -/
def Obligations.ReadingsDriveBlendProbeAndSteps : Prop :=
  ∀ (v : Int) (c : Conversion) (s : State), s.rstnLow = false → s.meas.conv = some c →
    c.owner = .tuner false →
    let code := codeOf v c
    let x := s.tun
    let m := { s.meas with conv := none }
    let low := if code < x.blendThr then x.lowRun + 1 else 0
    let high := if x.blendThr + 16 ≤ code then x.highRun + 1 else 0
    let plain := { x with lastRssi := code, weak := weakKept s }
    let blended := { plain with
      lowRun := low, highRun := high
      stereo := if x.tunedBand = .am ∨ 3 ≤ low then false
        else if 3 ≤ high ∧ x.pilot = true then true else x.stereo }
    let w := if code < x.afThr then x.weak + 1 else 0
    let codes := s.sd.af.filter fun k => k ≤ topCode x.region .fm
    let into := fun (tun : Tuner) (f : Meas → Meas) => ∃ t, exec (.converterTimerExpiry v) s = .next t
      ∧ ∃ m', ConversionChosen m m' ∧ OwnStep [] s { s with meas := f m', tun := tun } t
    let sends := fun (cmd : FeCommand) (tun : Tuner) => ∃ t, exec (.converterTimerExpiry v) s = .next t
      ∧ ∃ m', ConversionChosen m m' ∧ OwnStep [] s { s with meas := m', fe := t.fe, tun := tun } t
        ∧ SentOnLine (fun _ => false) cmd s.fe t.fe
    let k := x.seek
    let top := topCode k.region k.band
    let next := if k.up = true then (if k.step < top then k.step + 1 else 0)
      else if k.step = 0 then top else k.step - 1
    (x.state ∈ [TunerState.off, .tuning, .settling, .fault] → into plain id)
    ∧ (x.state = .verifying → into blended id)
    ∧ (x.state = .listening → afActive s = false → into { blended with previous := code } id)
    ∧ (x.state = .listening → afActive s = true → w < 10 →
        into { blended with previous := code, weak := w } id)
    ∧ (x.state = .listening → afActive s = true → 10 ≤ w → ∀ k rest, codes = k :: rest →
        ∃ t, exec (.converterTimerExpiry v) s = .next t ∧ ∃ m', ConversionChosen m m'
          ∧ TunerStep true false s
              { s with
                meas := readingAbandoned m', fe := t.fe, sd := bitsStopped true s.sd
                tun := { blended with
                  state := .probing, phase := .exchange, previous := code, weak := 0, readingTimer := false,
                  queryTimer := false, verifyTimer := false
                  probe :=
                    { band := x.tunedBand, original := x.tunedCode, mean := (x.previous + code) / 2,
                      todo := rest, current := k, best := none, verifyCode := (stationCode s).getD 0,
                      switching := false } } } t
          ∧ SentOnLine endsWithListening (.tune .fm x.region k .probeStep) s.fe t.fe)
    ∧ (x.state = .listening → afActive s = true → 10 ≤ w → codes = [] →
        ∃ t, exec (.converterTimerExpiry v) s = .next t ∧ ∃ m', ConversionChosen m m'
          ∧ TunerStep true false s
              { s with
                meas := readingAbandoned m', fe := t.fe, sd := bitsStopped true s.sd
                tun := { blended with
                  state := .tuning, reason := .noSwitch, backoff := true, previous := code, weak := 0,
                  settleTimer := false, readingTimer := false, queryTimer := false, verifyTimer := false
                  probe :=
                    { band := x.tunedBand, original := x.tunedCode, mean := (x.previous + code) / 2,
                      todo := [], current := 0, best := none, verifyCode := (stationCode s).getD 0,
                      switching := false } } } t
          ∧ SentOnLine (abandonsOf true) (.tune x.tunedBand x.region x.tunedCode .plain) s.fe t.fe)
    ∧ (x.state ∈ [TunerState.seeking, .probing] →
        (x.phase ∈ [StepPhase.exchange, .settling] → into plain id)
        ∧ (x.phase = .firstReading → into { plain with phase := .secondReading code } readingAsked)
        ∧ ∀ first, x.phase = .secondReading first →
          let mean := (first + code) / 2
          let p := x.probe
          let best : Option (Nat × Nat) := match p.best with
            | some (y, n) => if n < mean then some (p.current, mean) else some (y, n)
            | none => some (p.current, mean)
          (x.state = .seeking → mean < x.seekThr → next ≠ k.start →
            sends (.tune k.band k.region next .seekStep)
              { plain with seek := { k with step := next }, phase := .exchange })
          ∧ (x.state = .seeking → mean < x.seekThr → next = k.start →
              ∃ t, exec (.converterTimerExpiry v) s = .next t ∧ ∃ m', ConversionChosen m m'
                ∧ StationStep s
                    { s with
                      meas := readingAbandoned m', fe := t.fe
                      sd := { s.sd with
                        af := if k.start = x.code then s.sd.af else s.sd.af.filter fun y => y != k.start }
                      agent := { s.agent with
                        queue := queueWith s.agent.queue
                          ((if k.band = x.band then [] else [.band])
                            ++ if k.start = x.code then [] else [.code]) }
                      tun := { plain with
                        state := .tuning, band := k.band, code := k.start, reason := .seekWrapped,
                        weak := weakKept t, settleTimer := false, verifyTimer := false } } t
                ∧ SentOnLine (abandonsOf false) (.tune k.band x.region k.start .plain) s.fe t.fe)
          ∧ (x.state = .seeking → x.seekThr ≤ mean →
              ∃ t, exec (.converterTimerExpiry v) s = .next t ∧ ∃ m', ConversionChosen m m'
                ∧ TunerStep false true s
                    { s with
                      meas := m', sd := bitsMoved false (decide (x.tunedBand = .fm)) s.sd.clearContent
                      agent := { s.agent with
                        queue := queueWith s.agent.queue
                          ((if k.band = x.band then [] else [.band])
                            ++ if k.step = x.code then [] else [.code]) }
                      att := { s.att with pending := s.att.pending ||| 0x0100#16 }
                      tun := { plain with
                        state := .listening, band := k.band, code := k.step, weak := 0, stereo := false,
                        lowRun := 0, highRun := 0, readingTimer := true, queryTimer := true,
                        outcome := .seekFound, outcomeCount := (x.outcomeCount + 1) % 65536 } } t)
          ∧ (x.state = .probing → ∀ y rest, p.todo = y :: rest →
              sends (.tune p.band x.region y .probeStep)
                { plain with
                  phase := .exchange, probe := { p with best := best, todo := rest, current := y } })
          ∧ (x.state = .probing → p.todo = [] → ∀ y n, best = some (y, n) → p.mean + 24 ≤ n →
              sends (.tune p.band x.region y .switch)
                { plain with
                  phase := .exchange, probe := { p with best := best, current := y, switching := true } })
          ∧ (x.state = .probing → p.todo = [] → ∀ y n, best = some (y, n) → n < p.mean + 24 →
              ∃ t, exec (.converterTimerExpiry v) s = .next t ∧ ∃ m', ConversionChosen m m'
                ∧ OwnStep [] s
                    { s with
                      meas := readingAbandoned m', fe := t.fe
                      tun := { plain with
                        state := .tuning, reason := .noSwitch, backoff := true, weak := 0,
                        settleTimer := false, verifyTimer := false, probe := { p with best := best } } } t
                ∧ SentOnLine (abandonsOf false) (.tune p.band x.region p.original .plain) s.fe t.fe))

/-! ### The front-end line -/

/-- The frame of each command is SYNC, LEN, the command code, for a TUNE the band byte and the code's two bytes,
the high one first, and the CHK that brings the sum from LEN on to 0 modulo 256 (R159, section 11.6). The line's
own events (R155 to R158): the end of a frame starts the response timer, a character joins
the receive queue with its marks or marks the tail of a full one, the divisor setting is taken up when the
line is quiet, FTX is high while the transmit queue is empty and carries each character of its head frame in
eleven bit times (start bit low, data bits from the least significant, even parity, stop bit high), and the
assembler hunts for SYNC, LEN, body and CHK, dropping error-marked characters. The gap mark
takes the command's idle operand (log 41). Rests on the model's choices in logs 30, 31, 35, 41, 44 and 47. -/
def Obligations.LineMovesFramesAndCharacters : Prop :=
  (∀ c : FeCommand,
    (∀ b r code k, c = .tune b r code k → ∃ band chk : Byte,
      c.frame = [0x7E, 0x04, 0x10, band, BitVec.ofNat 8 (code / 256), BitVec.ofNat 8 (code % 256), chk]
        ∧ band.toNat = (if b = .am then 1 else 0) + if r = .b then 16 else 0)
    ∧ (c = .query → ∃ chk : Byte, c.frame = [0x7E, 0x01, 0x11, chk])
    ∧ (c = .standby → ∃ chk : Byte, c.frame = [0x7E, 0x01, 0x12, chk])
    ∧ ((c.frame.drop 1).map BitVec.toNat).sum % 256 = 0)
  ∧ ∀ s : State, s.rstnLow = false →
    let f := s.fe
    let chars := fun (q : List RxChar) => ({ s with fe := { f with rxQueue := q, rxFirst := false } } : State)
    (f.txFrames = [] → exec .frameSent s = .next s ∧ ∀ n, ftxLevel s n = true)
    ∧ (∀ frame rest, f.txFrames = frame :: rest → ∀ (i : Nat) (d : Byte), frame[i]? = some d →
        ftxLevel s (11 * i) = false ∧ (∀ k, k < 8 → ftxLevel s (11 * i + 1 + k) = d.getLsbD k)
        ∧ (((List.range 8).filter fun k => d.getLsbD k).length
            + if ftxLevel s (11 * i + 9) = true then 1 else 0) % 2 = 0
        ∧ ftxLevel s (11 * i + 10) = true)
    ∧ (∀ x rest, f.txFrames = x :: rest → exec .frameSent s = .next { s with fe := { f with
        txFrames := rest
        responseTimer := if rest = [] ∧ f.outstanding.isSome = true then true else f.responseTimer } })
    ∧ (∀ (data : Byte) (parity stop : Bool) (idle : Nat),
        let ones := ((List.range 8).filter fun i => data.getLsbD i).length + if parity = true then 1 else 0
        let brk := decide (data = 0 ∧ parity = false ∧ stop = false)
        let c : RxChar := ⟨data, brk, decide (ones % 2 = 1), !stop && !brk, decide (4 ≤ idle) || f.rxFirst, false⟩
        (f.rxQueue.length < 16 →
          exec (.characterReceived data parity stop idle) s = .next (chars (f.rxQueue ++ [c])))
        ∧ ∀ init y, 16 ≤ f.rxQueue.length → f.rxQueue = init ++ [y] →
          exec (.characterReceived data parity stop idle) s = .next (chars (init ++ [{ y with overrun := true }])))
    ∧ (let quiet := f.divisorWaiting = true ∧ f.txFrames = [] ∧ f.rxQueue = [] ∧ f.assembler = .hunt
       (quiet → exec .divisorTakeUp s = .next { s with
          fe := { f with divisor := f.divisorSetting, divisorWaiting := false, rxFirst := true } })
       ∧ (¬quiet → exec .divisorTakeUp s = .next s))
    ∧ (let b := { s with tun := { s.tun with weak := weakKept s } }
       let into := fun (u : State) => ∃ t, exec .assemblerTimerExpiry s = .next t ∧ OwnStep [] s u t
       (f.rxQueue = [] → into b)
       ∧ ∀ c rest, f.rxQueue = c :: rest →
         let next := fun (a : Assembler) => into { b with fe := { f with rxQueue := rest, assembler := a } }
         let bad := c.brk = true ∨ c.parityError = true ∨ c.framingError = true ∨ c.overrun = true
         let a := if c.gap = true then Assembler.hunt else f.assembler
         let out := s.tun.state = .listening ∨ s.tun.state = .verifying
         (bad → c.brk = false ∨ ¬out → next .hunt)
         ∧ (c.brk = true → out → ∃ t, exec .assemblerTimerExpiry s = .next t
             ∧ OwnStep [] s { b with fe := t.fe } t
             ∧ SentOnLine (fun _ => false) (.tune s.tun.tunedBand s.tun.region s.tun.tunedCode .retune)
                 { f with rxQueue := rest, assembler := .hunt } t.fe)
         ∧ (¬bad →
             (a = .hunt → next (if c.data = 0x7E#8 then .length else .hunt))
             ∧ (a = .length → 1 ≤ c.data.toNat → c.data.toNat ≤ 12 → next (.body c.data.toNat []))
             ∧ (a = .length → c.data.toNat = 0 ∨ 12 < c.data.toNat → next .hunt)
             ∧ ∀ len got, a = .body len got →
               (got.length < len → next (.body len (got ++ [c.data])))
               ∧ (len ≤ got.length →
                   (len + (got.map BitVec.toNat).sum + c.data.toNat) % 256 ≠ 0 ∨ f.outstanding = none
                     ∨ (∃ o, f.outstanding = some o ∧ ¬answersTo o.cmd got) → next .hunt)))

/-- Responses and timeouts (R159, R160, R163, R164, R167, R174): an accepted response hands over its pilot bit and
ends the exchange or fails it; a locked TUNE sets the tuned band and code and starts the settling of what it was sent
for, an unlocked seek step goes on to the next step or ends at the wrap, an unlocked probe step to the next candidate,
the switch or none; a first failure sends the frame again, and a second one, by the response timer or by a response,
ends an abandoned exchange, is reported for STANDBY, and else brings FAULT, which marks TUNER's source record where it
ends LISTENING or VERIFYING (R26). That a locked response on AM leaves the stereo flag as it stood is the model's
choice in log 63. Rests on the model's choices in logs 18, 19, 28, 29, 35, 44, 49, 54, 61, 62, 63 and 65. -/
def Obligations.ExchangesEndOrFail : Prop :=
  (∀ (o : Outstanding) (body : List Byte) (rest : List RxChar) (s : State), s.rstnLow = false →
    FrameCompletes s.fe body rest → s.fe.outstanding = some o → answersTo o.cmd body →
    let st := body.getD 1 0
    let locked := st.getLsbD 0
    let fault := st.getLsbD 2
    let f := { s.fe with rxQueue := rest, assembler := .hunt, responseTimer := false }
    let x := pilotTaken (st.getLsbD 1) s.tun
    let into := fun (y : Tuner) (fe : FrontEnd) => ∃ t, exec .assemblerTimerExpiry s = .next t
      ∧ OwnStep [] s { s with fe := fe, tun := { y with weak := t.tun.weak } } t
      ∧ t.tun.weak = weakKept { s with tun := { y with weak := s.tun.weak } }
    (o.cmd ∈ [FeCommand.query, .standby] →
      (fault = false → into x (exchangeOver f)) ∧ (fault = true → o.resent = false → into x (resentOnce o f)))
    ∧ ∀ band region code purpose, o.cmd = .tune band region code purpose →
      let y := { x with tunedBand := band, tunedCode := code }
      let settles := { y with phase := .settling, settleTimer := true }
      (o.resent = false → locked = false →
        fault = true ∨ purpose ∈ [TunePurpose.plain, .switch, .retune] → into x (resentOnce o f))
      ∧ (o.resent = false → locked = true → fault = true →
          s.tun.state ∉ [TunerState.listening, .verifying] → into y (resentOnce o f))
      ∧ (fault = false → o.abandoned = true →
          (locked = true → s.tun.state ∉ [TunerState.listening, .verifying] → into y (exchangeOver f))
          ∧ (locked = false → purpose ∈ [TunePurpose.seekStep, .probeStep] → into x (exchangeOver f)))
      ∧ (fault = false → locked = true → o.abandoned = false →
          (purpose = .plain → s.tun.state = .tuning →
            into { y with state := .settling, settleTimer := true } (exchangeOver f))
          ∧ (purpose = .seekStep → s.tun.state = .seeking → into settles (exchangeOver f))
          ∧ (purpose ∈ [TunePurpose.probeStep, .switch] → s.tun.state = .probing →
              into settles (exchangeOver f))
          ∧ (purpose = .retune → s.tun.tunedBand = band → into y (exchangeOver f)))
      ∧ (fault = false → locked = false → o.abandoned = false → purpose = .probeStep →
          s.tun.state = .probing → ∀ k left, s.tun.probe.todo = k :: left →
          ∃ t, exec .assemblerTimerExpiry s = .next t
            ∧ OwnStep [] s
                { s with
                  fe := t.fe
                  tun := { x with
                    phase := .exchange, weak := weakKept s,
                    probe := { x.probe with todo := left, current := k } } } t
            ∧ SentOnLine (fun _ => false) (.tune s.tun.probe.band s.tun.region k .probeStep)
                (exchangeOver f) t.fe)
      ∧ (fault = false → locked = false → o.abandoned = false → purpose = .probeStep →
          s.tun.state = .probing → s.tun.probe.todo = [] →
          let p := x.probe
          (∀ y n, p.best = some (y, n) → p.mean + 24 ≤ n → ∃ t, exec .assemblerTimerExpiry s = .next t
            ∧ OwnStep [] s
                { s with
                  fe := t.fe
                  tun := { x with
                    phase := .exchange, weak := weakKept s,
                    probe := { p with current := y, switching := true } } } t
            ∧ SentOnLine (fun _ => false) (.tune p.band s.tun.region y .switch) (exchangeOver f) t.fe)
          ∧ ((∀ y n, p.best = some (y, n) → n < p.mean + 24) → ∃ t, exec .assemblerTimerExpiry s = .next t
            ∧ OwnStep [] s
                { s with
                  fe := t.fe, meas := readingAbandoned s.meas
                  tun := { x with
                    state := .tuning, reason := .noSwitch, backoff := true, weak := 0, settleTimer := false,
                    verifyTimer := false } } t
            ∧ SentOnLine (abandonsOf false) (.tune p.band s.tun.region p.original .plain)
                (exchangeOver f) t.fe))
      ∧ (fault = false → locked = false → o.abandoned = false → purpose = .seekStep →
          s.tun.state = .seeking →
          let k := x.seek
          let top := topCode k.region k.band
          let step := if k.up = true then (if k.step < top then k.step + 1 else 0)
            else if k.step = 0 then top else k.step - 1
          (step ≠ k.start → ∃ t, exec .assemblerTimerExpiry s = .next t
            ∧ OwnStep [] s
                { s with
                  fe := t.fe
                  tun := { x with phase := .exchange, weak := weakKept s, seek := { k with step := step } } } t
            ∧ SentOnLine (fun _ => false) (.tune k.band k.region step .seekStep) (exchangeOver f) t.fe)
          ∧ (step = k.start → ∃ t, exec .assemblerTimerExpiry s = .next t
            ∧ StationStep s
                { s with
                  fe := t.fe, meas := readingAbandoned s.meas
                  sd := { s.sd with
                    af := if k.start = x.code then s.sd.af else s.sd.af.filter fun y => y != k.start }
                  agent := { s.agent with
                    queue := queueWith s.agent.queue
                      ((if k.band = x.band then [] else [.band]) ++ if k.start = x.code then [] else [.code]) }
                  tun := { x with
                    state := .tuning, band := k.band, code := k.start, reason := .seekWrapped,
                    weak := weakKept t, settleTimer := false, verifyTimer := false } } t
            ∧ SentOnLine (abandonsOf false) (.tune k.band s.tun.region k.start .plain) (exchangeOver f) t.fe)))
  ∧ (∀ (o : Outstanding) (body : List Byte) (rest : List RxChar) (s : State), s.rstnLow = false →
    FrameCompletes s.fe body rest → s.fe.outstanding = some o → answersTo o.cmd body → o.resent = true →
    let st := body.getD 1 0
    let locked := st.getLsbD 0
    let fault := st.getLsbD 2
    let f := { s.fe with rxQueue := rest, assembler := .hunt, responseTimer := false }
    let x := pilotTaken (st.getLsbD 1) s.tun
    let listens := s.tun.state ∈ [TunerState.listening, .verifying]
    let out := decide listens
    let given := { f with outstanding := none, pending := none }
    let told := { s.att with pending := s.att.pending ||| 0x0100#16 }
    ∀ y : Tuner,
      (o.cmd ∈ [FeCommand.query, .standby] ∧ fault = true ∧ y = x)
        ∨ (∃ band region code purpose, o.cmd = .tune band region code purpose
            ∧ ((locked = false ∧ y = x ∧ (fault = true ∨ purpose ∈ [TunePurpose.plain, .switch, .retune]))
              ∨ (locked = true ∧ fault = true ∧ ¬listens
                  ∧ y = { x with tunedBand := band, tunedCode := code }))) →
      let faulted := { y with
        outcome := .feFault, outcomeCount := (s.tun.outcomeCount + 1) % 65536,
        weak := weakKept { s with tun := { y with weak := s.tun.weak } } }
      (o.abandoned = true → ∃ t, exec .assemblerTimerExpiry s = .next t
        ∧ OwnStep [] s { s with fe := exchangeOver f, tun := { y with weak := faulted.weak } } t)
      ∧ (o.abandoned = false → o.cmd = .standby → ∃ t, exec .assemblerTimerExpiry s = .next t
        ∧ OwnStep [] s { s with fe := given, att := told, tun := faulted } t)
      ∧ (o.abandoned = false → o.cmd ≠ .standby → ∃ t, exec .assemblerTimerExpiry s = .next t
        ∧ TunerStep out false s
            { s with
              fe := given, att := told, sd := bitsStopped (takingBits s.tun) s.sd
              meas := if out = true then readingAbandoned s.meas else s.meas
              tun := { faulted with
                state := .fault, settleTimer := false
                readingTimer := s.tun.readingTimer && !out, queryTimer := s.tun.queryTimer && !out
                verifyTimer := s.tun.verifyTimer && !out } } t))
  ∧ ∀ s : State, s.rstnLow = false →
    let f := { s.fe with responseTimer := false }
    let b := { s with tun := { s.tun with weak := weakKept s } }
    let into := fun (u : State) => ∃ t, exec .responseTimerExpiry s = .next t ∧ OwnStep [] s u t
    let faulted := { s.tun with outcome := .feFault, outcomeCount := (s.tun.outcomeCount + 1) % 65536 }
    let given := { f with outstanding := none, pending := none }
    let told := { s.att with pending := s.att.pending ||| 0x0100#16 }
    let out := decide (s.tun.state = .listening ∨ s.tun.state = .verifying)
    (s.fe.responseTimer = false → into b)
    ∧ (s.fe.responseTimer = true → f.outstanding = none → into { b with fe := f })
    ∧ ∀ o, s.fe.responseTimer = true → f.outstanding = some o →
      (o.resent = false → into { b with fe := resentOnce o f })
      ∧ (o.resent = true → o.abandoned = true → into { b with fe := exchangeOver f })
      ∧ (o.resent = true → o.abandoned = false → o.cmd = .standby →
          into { s with fe := given, att := told, tun := { faulted with weak := weakKept s } })
      ∧ (o.resent = true → o.abandoned = false → o.cmd ≠ .standby →
          ∃ t, exec .responseTimerExpiry s = .next t
            ∧ TunerStep out false s
                { s with
                  fe := given, att := told, sd := bitsStopped (takingBits s.tun) s.sd
                  meas := if out = true then readingAbandoned s.meas else s.meas
                  tun := { faulted with
                    state := .fault, weak := weakKept s, settleTimer := false
                    readingTimer := s.tun.readingTimer && !out, queryTimer := s.tun.queryTimer && !out
                    verifyTimer := s.tun.verifyTimer && !out } } t)

/-! ### The tuner's timers and the station data decoder -/

/-- The tuner's timers (R164, R167, R172 to R175): settling ends in LISTENING with the tune's outcome, in a step's
first reading, or in VERIFYING; the reading and query timers ask unless a request is outstanding; the verify timer
returns to the original code; the backoff timer ends the backoff. Entering LISTENING or VERIFYING and leaving them
mark TUNER's source record (R26). Rests on the model's choices in logs 18, 19, 35, 44, 49, 55 and 65. -/
def Obligations.TunerTimersMoveTheTuner : Prop :=
  ∀ s : State, s.rstnLow = false →
    let x := s.tun
    let b := { s with tun := { x with weak := weakKept s } }
    let idle := fun (i : Instr) => ∃ t, exec i s = .next t ∧ OwnStep [] s b t
    let begun := fun (y : Tuner) => { y with
      settleTimer := false, stereo := false, lowRun := 0, highRun := 0, readingTimer := true, queryTimer := true }
    let sd := bitsMoved (takingBits x) (decide (x.tunedBand = .fm))
      (if x.tunedBand = .am then s.sd.clearContent else s.sd)
    let asks := ∃ t, exec .settleTimerExpiry s = .next t
      ∧ OwnStep [] s
          { s with
            meas := readingAsked s.meas
            tun := { x with phase := .firstReading, settleTimer := false, weak := weakKept s } } t
    let waits := OnDemand.tuner false ∈ s.meas.queue ∨ ∃ c, s.meas.conv = some c ∧ c.owner = .tuner false
    (x.settleTimer = false → idle .settleTimerExpiry)
    ∧ (x.settleTimer = true →
        (x.state = .settling → ∃ t, exec .settleTimerExpiry s = .next t
          ∧ TunerStep false true s
              { s with
                att := { s.att with pending := s.att.pending ||| 0x0100#16 }, sd := sd
                tun := { begun x with
                  state := .listening, weak := 0, outcomeCount := (x.outcomeCount + 1) % 65536
                  outcome := match x.reason with
                    | .hostTune => .tuned
                    | .recall => .recalled
                    | .seekStopped => .seekStopped
                    | .seekWrapped => .seekNone
                    | .verifyFailed => .afReturned
                    | .noSwitch => .afStayed } } t)
        ∧ (x.state = .seeking → asks)
        ∧ (x.state = .probing → x.probe.switching = false → asks)
        ∧ (x.state = .probing → x.probe.switching = true → ∃ t, exec .settleTimerExpiry s = .next t
            ∧ TunerStep false true s
                { s with
                  sd := sd, tun := { begun x with state := .verifying, verifyTimer := true, weak := weakKept s } }
                t))
    ∧ (x.readingTimer = true → ¬waits → ∃ t, exec .readingTimerExpiry s = .next t
        ∧ OwnStep [] s { s with meas := readingAsked s.meas } t)
    ∧ (x.readingTimer = false ∨ waits → exec .readingTimerExpiry s = .next s)
    ∧ (x.queryTimer = true → s.fe.outstanding = none → s.fe.pending = none →
        ∃ t, exec .queryTimerExpiry s = .next t ∧ OwnStep [] s { s with fe := t.fe } t
          ∧ SentOnLine (fun _ => false) .query s.fe t.fe)
    ∧ (x.queryTimer = false ∨ s.fe.outstanding ≠ none ∨ s.fe.pending ≠ none →
        exec .queryTimerExpiry s = .next s)
    ∧ (x.verifyTimer = false ∨ x.state ≠ .verifying → idle .verifyTimerExpiry)
    ∧ (x.verifyTimer = true → x.state = .verifying → ∃ t, exec .verifyTimerExpiry s = .next t
        ∧ TunerStep true false s
            { s with
              fe := t.fe, meas := readingAbandoned s.meas, sd := bitsStopped (takingBits x) s.sd
              tun := { x with
                state := .tuning, reason := .verifyFailed, backoff := true, weak := 0, settleTimer := false,
                readingTimer := false, queryTimer := false, verifyTimer := false } } t
        ∧ SentOnLine (abandonsOf true) (.tune x.probe.band x.region x.probe.original .plain) s.fe t.fe)
    ∧ ∃ t, exec .backoffTimerExpiry s = .next t ∧ OwnStep [] s { s with tun := { x with backoff := false } } t

/-- The check byte of an information word is its CRC: with the word before it, it is a multiple of
x^8 + x^2 + x + 1 (R179). Sync (R178, R180, R181): bits are taken in LISTENING and VERIFYING on FM alone; SEARCH
slides its window, a valid block begins the run of ACQUIRING, the fourth valid block brings SYNCED and is handed
over, as each valid one after it is, an invalid one in ACQUIRING SEARCH again with its window, and the gap timer
brings SEARCH from any state. A block handed over in VERIFYING that refutes the code ends the carrying status of
TUNER, which closes the gates of the zones on it, zone 1 first (R57, R62). Rests on the model's choices in logs 18, 19,
32, 33, 35, 44, 49, 60, 62 and 65. -/
def Obligations.StationBitsFindSync : Prop :=
  (∀ w : Word, ∃ q : BitVec 24, q.toNat < 2 ^ 16
    ∧ w ++ crc8 w = (q <<< 8) ^^^ (q <<< 2) ^^^ (q <<< 1) ^^^ q)
  ∧ crc8 0x1234#16 = 0xF1#8
  ∧ (∀ x : Tuner, takingBits x = true ↔ x.state ∈ [TunerState.listening, .verifying] ∧ x.tunedBand = .fm)
  ∧ ∀ (bit : Bool) (s : State), s.rstnLow = false →
    let d := s.sd
    let takes := s.tun.state ∈ [TunerState.listening, .verifying] ∧ s.tun.tunedBand = .fm
    let b := { s with tun := { s.tun with weak := weakKept s } }
    let w := d.window ++ [bit]
    let seen := w.drop (w.length - 24)
    let valid := fun (bits : List Bool) (p : Nat) =>
      let n := numOfBits bits
      BitVec.ofNat 8 n = crc8 (BitVec.ofNat 16 (n / 256)) ^^^
        (match p with | 0 => 0x3C#8 | 1 => 0x5A#8 | 2 => 0x96#8 | _ => 0xE1#8)
    let into := fun (d' : Station) => ∃ t, exec (.stationDataBit bit) s = .next t
      ∧ StationStep s { b with sd := { d' with gapTimer := true } } t
    (¬takes → ∃ t, exec (.stationDataBit bit) s = .next t ∧ OwnStep [] s b t)
    ∧ (takes →
        (d.sync = .search → seen.length < 24 ∨ (∀ p, p ≤ 3 → ¬valid seen p) → into { d with window := seen })
        ∧ (∀ p, p ≤ 3 → d.sync = .search → seen.length = 24 → valid seen p → (∀ q, q < p → ¬valid seen q) →
            into { d with sync := .acquiring, validCount := 1, expected := (p + 1) % 4, window := [] })
        ∧ (d.sync ∈ [SyncState.acquiring, .synced] → w.length < 24 → into { d with window := w })
        ∧ (d.sync = .acquiring → 24 ≤ w.length → ¬valid w d.expected →
            into { d with sync := .search, window := w })
        ∧ (d.sync = .acquiring → 24 ≤ w.length → valid w d.expected → d.validCount + 1 < 4 →
            into { d with
              window := [], validCount := d.validCount + 1, expected := (d.expected + 1) % 4 })
        ∧ (d.sync = .acquiring → 24 ≤ w.length → valid w d.expected → 4 ≤ d.validCount + 1 →
            ∃ t, exec (.stationDataBit bit) s = .next t
              ∧ t.sd.sync = (if takingBits t.tun = true then .synced else .idle) ∧ t.sd.badCount = 0
              ∧ t.sd.expected = (d.expected + 1) % 4)
        ∧ (d.sync = .acquiring → 24 ≤ w.length → valid w d.expected → 4 ≤ d.validCount + 1 →
            BlockHanded (.stationDataBit bit) (BitVec.ofNat 16 (numOfBits w / 256)) d.expected
              { d with
                window := [], validCount := d.validCount + 1, expected := (d.expected + 1) % 4, sync := .synced,
                badCount := 0, gapTimer := true } s)
        ∧ (d.sync = .synced → 24 ≤ w.length → valid w d.expected →
            BlockHanded (.stationDataBit bit) (BitVec.ofNat 16 (numOfBits w / 256)) d.expected
              { d with window := [], expected := (d.expected + 1) % 4, badCount := 0, gapTimer := true } s)
        ∧ (d.sync = .synced → 24 ≤ w.length → ¬valid w d.expected →
            into { d with
              window := [], expected := (d.expected + 1) % 4, badCount := d.badCount + 1
              sync := if 24 ≤ d.badCount + 1 then .search else .synced
              group := if d.expected = 0 then .empty else d.group }))
    ∧ (d.gapTimer = true → takes → ∃ t, exec .gapTimerExpiry s = .next t
        ∧ StationStep s { s with sd := { d with window := [], group := .empty, sync := .search, gapTimer := false } } t)
    ∧ (d.gapTimer = false ∨ ¬takes → exec .gapTimerExpiry s = .next s)

/-- A block of SYNCED (R175, R181 to R185, R187, R188): one valid at the expected position is handed over,
and in LISTENING a code, a category, a name or a text segment received twice running is confirmed, a new code
clears what belonged to the old station, and an AF value offers its code; an invalid one counts. In VERIFYING
only a code is taken, and the confirmed content stays: the first one confirmed ends the verification, in
LISTENING on the tuned code when it is the verify code, else with a plain tune of the original code. A content
clear leaves no candidate and no confirmed item, no toggle reference and no AF code, and its flags clear (R186).
A plain tune of the original code ends the carrying status of TUNER, which closes the gates of the zones on it, zone 1
first (R57, R62). Rests on the model's choices in logs 18, 19, 32, 33, 35, 44, 49, 55, 60, 62 and 65. -/
def Obligations.StationBlocksConfirmOnRepeat : Prop :=
  (∀ d : Station, let empty : Content := ⟨none, none, List.replicate 6 none, List.replicate 12 none⟩
    d.clearContent = { d with
      candidate := empty, confirmed := empty, traffic := false, speech := false, toggle := false
      toggleRef := none, af := [] })
  ∧ ∀ (block : BitVec 24) (s : State), s.rstnLow = false → s.tun.state ∈ [TunerState.listening, .verifying] →
    s.tun.tunedBand = .fm → s.sd.sync = .synced → s.sd.window = [] → s.sd.expected ≤ 3 →
    let w : Word := block.extractLsb' 8 16
    let p := s.sd.expected
    let valid := block.extractLsb' 0 8 = crc8 w ^^^
      (match p with | 0 => 0x3C#8 | 1 => 0x5A#8 | 2 => 0x96#8 | _ => 0xE1#8)
    let d := { s.sd with gapTimer := true, expected := (p + 1) % 4 }
    (¬valid → DecoderTaken (.stationBlock block) s { d with
      badCount := d.badCount + 1, sync := if 24 ≤ d.badCount + 1 then .search else .synced
      group := if p = 0 then .empty else d.group })
    ∧ (valid → BlockHanded (.stationBlock block) w p { d with badCount := 0 } s)

/-! ### Invariants that every step keeps -/

/-- What the memory agent, the gain stage and the amplifier supervisor keep to (R10, R14, R92, R95, R125,
R128): memory in canonical form, the write-back queue and the marks in their form, every applied gain in its
range, a module that is not ON silent, a module in STARTING or ON only with the check passed and the clock
good, and orders on modules that are ON alone. -/
def Obligations.AmplifierLawKeptByEveryStep : Prop :=
  ∀ s t : State,
    MemoryCanonical s ∧ WriteBackQueueLaw s ∧ MarksInOrder s ∧ ModulesSilent s ∧ ModulesPowered s
      ∧ OrdersOnlyWhileOn s ∧ GainsInRange s →
    step s = .next t →
    MemoryCanonical t ∧ WriteBackQueueLaw t ∧ MarksInOrder t ∧ ModulesSilent t ∧ ModulesPowered t
      ∧ OrdersOnlyWhileOn t ∧ GainsInRange t

/-- What the zone switch, the delay pool and the AF list keep to (R47, R50, R51, R59, R111, R118, R187): a
zone's gate, fade, pending source and no-signal flag follow its state, its wait limit lies from 500 to 10000,
the active lengths fit the pool and each line holds as many words as its length, and the AF list holds at most
12 codes, none twice and never the target code. -/
def Obligations.ZonePoolAndAfLawsKeptByEveryStep : Prop :=
  ∀ s t : State, ZonesLaw s ∧ WaitLimitsInRange s ∧ PoolLaw s.pool ∧ AfListLaw s → step s = .next t →
    ZonesLaw t ∧ WaitLimitsInRange t ∧ PoolLaw t.pool ∧ AfListLaw t
end

