-- ==== Sys2Proof/Laws/State.lean ====
section
/-! SUPPORT. One lemma for each field of the state and each primitive update, so that no later proof
unfolds a record update. -/

set_option autoImplicit false

namespace Sys2Proof.Machine

variable (s : State)

/-- Two states that agree in every field are equal. -/
theorem State.ext_fields {s t : State}
    (h_pending : t.pending = s.pending)
    (h_rstnLow : t.rstnLow = s.rstnLow)
    (h_strap : t.strap = s.strap)
    (h_mem : t.mem = s.mem)
    (h_readData : t.readData = s.readData)
    (h_agent : t.agent = s.agent)
    (h_att : t.att = s.att)
    (h_dirty : t.dirty = s.dirty)
    (h_meterTimer : t.meterTimer = s.meterTimer)
    (h_answers : t.answers = s.answers)
    (h_sa : t.sa = s.sa)
    (h_ms : t.ms = s.ms)
    (h_zones : t.zones = s.zones)
    (h_view : t.view = s.view)
    (h_dec : t.dec = s.dec)
    (h_bass : t.bass = s.bass)
    (h_gain : t.gain = s.gain)
    (h_knob : t.knob = s.knob)
    (h_pool : t.pool = s.pool)
    (h_mods : t.mods = s.mods)
    (h_clock : t.clock = s.clock)
    (h_audioStarted : t.audioStarted = s.audioStarted)
    (h_lock : t.lock = s.lock)
    (h_links : t.links = s.links)
    (h_meas : t.meas = s.meas)
    (h_fe : t.fe = s.fe)
    (h_tun : t.tun = s.tun)
    (h_sd : t.sd = s.sd)
    (h_free : t.free = s.free) : t = s := by
  cases s; cases t; simp_all

/-! ### markDirty -/

@[simp] theorem markDirty_pending (r : Rec) : (markDirty r s).pending = s.pending := rfl
@[simp] theorem markDirty_rstnLow (r : Rec) : (markDirty r s).rstnLow = s.rstnLow := rfl
@[simp] theorem markDirty_strap (r : Rec) : (markDirty r s).strap = s.strap := rfl
@[simp] theorem markDirty_mem (r : Rec) : (markDirty r s).mem = s.mem := rfl
@[simp] theorem markDirty_readData (r : Rec) : (markDirty r s).readData = s.readData := rfl
@[simp] theorem markDirty_agent (r : Rec) : (markDirty r s).agent = s.agent := rfl
@[simp] theorem markDirty_att (r : Rec) : (markDirty r s).att = s.att := rfl
@[simp] theorem markDirty_meterTimer (r : Rec) : (markDirty r s).meterTimer = s.meterTimer := rfl
@[simp] theorem markDirty_answers (r : Rec) : (markDirty r s).answers = s.answers := rfl
@[simp] theorem markDirty_sa (r : Rec) : (markDirty r s).sa = s.sa := rfl
@[simp] theorem markDirty_ms (r : Rec) : (markDirty r s).ms = s.ms := rfl
@[simp] theorem markDirty_zones (r : Rec) : (markDirty r s).zones = s.zones := rfl
@[simp] theorem markDirty_view (r : Rec) : (markDirty r s).view = s.view := rfl
@[simp] theorem markDirty_dec (r : Rec) : (markDirty r s).dec = s.dec := rfl
@[simp] theorem markDirty_bass (r : Rec) : (markDirty r s).bass = s.bass := rfl
@[simp] theorem markDirty_gain (r : Rec) : (markDirty r s).gain = s.gain := rfl
@[simp] theorem markDirty_knob (r : Rec) : (markDirty r s).knob = s.knob := rfl
@[simp] theorem markDirty_pool (r : Rec) : (markDirty r s).pool = s.pool := rfl
@[simp] theorem markDirty_mods (r : Rec) : (markDirty r s).mods = s.mods := rfl
@[simp] theorem markDirty_clock (r : Rec) : (markDirty r s).clock = s.clock := rfl
@[simp] theorem markDirty_audioStarted (r : Rec) : (markDirty r s).audioStarted = s.audioStarted := rfl
@[simp] theorem markDirty_lock (r : Rec) : (markDirty r s).lock = s.lock := rfl
@[simp] theorem markDirty_links (r : Rec) : (markDirty r s).links = s.links := rfl
@[simp] theorem markDirty_meas (r : Rec) : (markDirty r s).meas = s.meas := rfl
@[simp] theorem markDirty_fe (r : Rec) : (markDirty r s).fe = s.fe := rfl
@[simp] theorem markDirty_tun (r : Rec) : (markDirty r s).tun = s.tun := rfl
@[simp] theorem markDirty_sd (r : Rec) : (markDirty r s).sd = s.sd := rfl
@[simp] theorem markDirty_free (r : Rec) : (markDirty r s).free = s.free := rfl
@[simp] theorem markDirty_dirty (r : Rec) : (markDirty r s).dirty = insertRec r s.dirty := rfl

/-! ### updLine -/

@[simp] theorem updLine_pending (l : SaLine) (f : SaState → SaState) : (updLine l f s).pending = s.pending := rfl
@[simp] theorem updLine_rstnLow (l : SaLine) (f : SaState → SaState) : (updLine l f s).rstnLow = s.rstnLow := rfl
@[simp] theorem updLine_strap (l : SaLine) (f : SaState → SaState) : (updLine l f s).strap = s.strap := rfl
@[simp] theorem updLine_mem (l : SaLine) (f : SaState → SaState) : (updLine l f s).mem = s.mem := rfl
@[simp] theorem updLine_readData (l : SaLine) (f : SaState → SaState) : (updLine l f s).readData = s.readData := rfl
@[simp] theorem updLine_agent (l : SaLine) (f : SaState → SaState) : (updLine l f s).agent = s.agent := rfl
@[simp] theorem updLine_att (l : SaLine) (f : SaState → SaState) : (updLine l f s).att = s.att := rfl
@[simp] theorem updLine_dirty (l : SaLine) (f : SaState → SaState) : (updLine l f s).dirty = s.dirty := rfl
@[simp] theorem updLine_meterTimer (l : SaLine) (f : SaState → SaState) : (updLine l f s).meterTimer = s.meterTimer := rfl
@[simp] theorem updLine_answers (l : SaLine) (f : SaState → SaState) : (updLine l f s).answers = s.answers := rfl
@[simp] theorem updLine_ms (l : SaLine) (f : SaState → SaState) : (updLine l f s).ms = s.ms := rfl
@[simp] theorem updLine_zones (l : SaLine) (f : SaState → SaState) : (updLine l f s).zones = s.zones := rfl
@[simp] theorem updLine_view (l : SaLine) (f : SaState → SaState) : (updLine l f s).view = s.view := rfl
@[simp] theorem updLine_dec (l : SaLine) (f : SaState → SaState) : (updLine l f s).dec = s.dec := rfl
@[simp] theorem updLine_bass (l : SaLine) (f : SaState → SaState) : (updLine l f s).bass = s.bass := rfl
@[simp] theorem updLine_gain (l : SaLine) (f : SaState → SaState) : (updLine l f s).gain = s.gain := rfl
@[simp] theorem updLine_knob (l : SaLine) (f : SaState → SaState) : (updLine l f s).knob = s.knob := rfl
@[simp] theorem updLine_pool (l : SaLine) (f : SaState → SaState) : (updLine l f s).pool = s.pool := rfl
@[simp] theorem updLine_mods (l : SaLine) (f : SaState → SaState) : (updLine l f s).mods = s.mods := rfl
@[simp] theorem updLine_clock (l : SaLine) (f : SaState → SaState) : (updLine l f s).clock = s.clock := rfl
@[simp] theorem updLine_audioStarted (l : SaLine) (f : SaState → SaState) : (updLine l f s).audioStarted = s.audioStarted := rfl
@[simp] theorem updLine_lock (l : SaLine) (f : SaState → SaState) : (updLine l f s).lock = s.lock := rfl
@[simp] theorem updLine_links (l : SaLine) (f : SaState → SaState) : (updLine l f s).links = s.links := rfl
@[simp] theorem updLine_meas (l : SaLine) (f : SaState → SaState) : (updLine l f s).meas = s.meas := rfl
@[simp] theorem updLine_fe (l : SaLine) (f : SaState → SaState) : (updLine l f s).fe = s.fe := rfl
@[simp] theorem updLine_tun (l : SaLine) (f : SaState → SaState) : (updLine l f s).tun = s.tun := rfl
@[simp] theorem updLine_sd (l : SaLine) (f : SaState → SaState) : (updLine l f s).sd = s.sd := rfl
@[simp] theorem updLine_free (l : SaLine) (f : SaState → SaState) : (updLine l f s).free = s.free := rfl
@[simp] theorem updLine_sa (l : SaLine) (f : SaState → SaState) : (updLine l f s).sa = s.sa.upd l f := rfl

/-! ### updReader -/

@[simp] theorem updReader_pending (m : StreamId) (f : Reader → Reader) : (updReader m f s).pending = s.pending := rfl
@[simp] theorem updReader_rstnLow (m : StreamId) (f : Reader → Reader) : (updReader m f s).rstnLow = s.rstnLow := rfl
@[simp] theorem updReader_strap (m : StreamId) (f : Reader → Reader) : (updReader m f s).strap = s.strap := rfl
@[simp] theorem updReader_mem (m : StreamId) (f : Reader → Reader) : (updReader m f s).mem = s.mem := rfl
@[simp] theorem updReader_readData (m : StreamId) (f : Reader → Reader) : (updReader m f s).readData = s.readData := rfl
@[simp] theorem updReader_agent (m : StreamId) (f : Reader → Reader) : (updReader m f s).agent = s.agent := rfl
@[simp] theorem updReader_att (m : StreamId) (f : Reader → Reader) : (updReader m f s).att = s.att := rfl
@[simp] theorem updReader_dirty (m : StreamId) (f : Reader → Reader) : (updReader m f s).dirty = s.dirty := rfl
@[simp] theorem updReader_meterTimer (m : StreamId) (f : Reader → Reader) : (updReader m f s).meterTimer = s.meterTimer := rfl
@[simp] theorem updReader_answers (m : StreamId) (f : Reader → Reader) : (updReader m f s).answers = s.answers := rfl
@[simp] theorem updReader_sa (m : StreamId) (f : Reader → Reader) : (updReader m f s).sa = s.sa := rfl
@[simp] theorem updReader_zones (m : StreamId) (f : Reader → Reader) : (updReader m f s).zones = s.zones := rfl
@[simp] theorem updReader_view (m : StreamId) (f : Reader → Reader) : (updReader m f s).view = s.view := rfl
@[simp] theorem updReader_dec (m : StreamId) (f : Reader → Reader) : (updReader m f s).dec = s.dec := rfl
@[simp] theorem updReader_bass (m : StreamId) (f : Reader → Reader) : (updReader m f s).bass = s.bass := rfl
@[simp] theorem updReader_gain (m : StreamId) (f : Reader → Reader) : (updReader m f s).gain = s.gain := rfl
@[simp] theorem updReader_knob (m : StreamId) (f : Reader → Reader) : (updReader m f s).knob = s.knob := rfl
@[simp] theorem updReader_pool (m : StreamId) (f : Reader → Reader) : (updReader m f s).pool = s.pool := rfl
@[simp] theorem updReader_mods (m : StreamId) (f : Reader → Reader) : (updReader m f s).mods = s.mods := rfl
@[simp] theorem updReader_clock (m : StreamId) (f : Reader → Reader) : (updReader m f s).clock = s.clock := rfl
@[simp] theorem updReader_audioStarted (m : StreamId) (f : Reader → Reader) : (updReader m f s).audioStarted = s.audioStarted := rfl
@[simp] theorem updReader_lock (m : StreamId) (f : Reader → Reader) : (updReader m f s).lock = s.lock := rfl
@[simp] theorem updReader_links (m : StreamId) (f : Reader → Reader) : (updReader m f s).links = s.links := rfl
@[simp] theorem updReader_meas (m : StreamId) (f : Reader → Reader) : (updReader m f s).meas = s.meas := rfl
@[simp] theorem updReader_fe (m : StreamId) (f : Reader → Reader) : (updReader m f s).fe = s.fe := rfl
@[simp] theorem updReader_tun (m : StreamId) (f : Reader → Reader) : (updReader m f s).tun = s.tun := rfl
@[simp] theorem updReader_sd (m : StreamId) (f : Reader → Reader) : (updReader m f s).sd = s.sd := rfl
@[simp] theorem updReader_free (m : StreamId) (f : Reader → Reader) : (updReader m f s).free = s.free := rfl
@[simp] theorem updReader_ms (m : StreamId) (f : Reader → Reader) : (updReader m f s).ms = s.ms.upd m f := rfl

/-! ### updZone -/

@[simp] theorem updZone_pending (z : Zone) (f : ZoneRec → ZoneRec) : (updZone z f s).pending = s.pending := rfl
@[simp] theorem updZone_rstnLow (z : Zone) (f : ZoneRec → ZoneRec) : (updZone z f s).rstnLow = s.rstnLow := rfl
@[simp] theorem updZone_strap (z : Zone) (f : ZoneRec → ZoneRec) : (updZone z f s).strap = s.strap := rfl
@[simp] theorem updZone_mem (z : Zone) (f : ZoneRec → ZoneRec) : (updZone z f s).mem = s.mem := rfl
@[simp] theorem updZone_readData (z : Zone) (f : ZoneRec → ZoneRec) : (updZone z f s).readData = s.readData := rfl
@[simp] theorem updZone_agent (z : Zone) (f : ZoneRec → ZoneRec) : (updZone z f s).agent = s.agent := rfl
@[simp] theorem updZone_att (z : Zone) (f : ZoneRec → ZoneRec) : (updZone z f s).att = s.att := rfl
@[simp] theorem updZone_dirty (z : Zone) (f : ZoneRec → ZoneRec) : (updZone z f s).dirty = s.dirty := rfl
@[simp] theorem updZone_meterTimer (z : Zone) (f : ZoneRec → ZoneRec) : (updZone z f s).meterTimer = s.meterTimer := rfl
@[simp] theorem updZone_answers (z : Zone) (f : ZoneRec → ZoneRec) : (updZone z f s).answers = s.answers := rfl
@[simp] theorem updZone_sa (z : Zone) (f : ZoneRec → ZoneRec) : (updZone z f s).sa = s.sa := rfl
@[simp] theorem updZone_ms (z : Zone) (f : ZoneRec → ZoneRec) : (updZone z f s).ms = s.ms := rfl
@[simp] theorem updZone_view (z : Zone) (f : ZoneRec → ZoneRec) : (updZone z f s).view = s.view := rfl
@[simp] theorem updZone_dec (z : Zone) (f : ZoneRec → ZoneRec) : (updZone z f s).dec = s.dec := rfl
@[simp] theorem updZone_bass (z : Zone) (f : ZoneRec → ZoneRec) : (updZone z f s).bass = s.bass := rfl
@[simp] theorem updZone_gain (z : Zone) (f : ZoneRec → ZoneRec) : (updZone z f s).gain = s.gain := rfl
@[simp] theorem updZone_knob (z : Zone) (f : ZoneRec → ZoneRec) : (updZone z f s).knob = s.knob := rfl
@[simp] theorem updZone_pool (z : Zone) (f : ZoneRec → ZoneRec) : (updZone z f s).pool = s.pool := rfl
@[simp] theorem updZone_mods (z : Zone) (f : ZoneRec → ZoneRec) : (updZone z f s).mods = s.mods := rfl
@[simp] theorem updZone_clock (z : Zone) (f : ZoneRec → ZoneRec) : (updZone z f s).clock = s.clock := rfl
@[simp] theorem updZone_audioStarted (z : Zone) (f : ZoneRec → ZoneRec) : (updZone z f s).audioStarted = s.audioStarted := rfl
@[simp] theorem updZone_lock (z : Zone) (f : ZoneRec → ZoneRec) : (updZone z f s).lock = s.lock := rfl
@[simp] theorem updZone_links (z : Zone) (f : ZoneRec → ZoneRec) : (updZone z f s).links = s.links := rfl
@[simp] theorem updZone_meas (z : Zone) (f : ZoneRec → ZoneRec) : (updZone z f s).meas = s.meas := rfl
@[simp] theorem updZone_fe (z : Zone) (f : ZoneRec → ZoneRec) : (updZone z f s).fe = s.fe := rfl
@[simp] theorem updZone_tun (z : Zone) (f : ZoneRec → ZoneRec) : (updZone z f s).tun = s.tun := rfl
@[simp] theorem updZone_sd (z : Zone) (f : ZoneRec → ZoneRec) : (updZone z f s).sd = s.sd := rfl
@[simp] theorem updZone_free (z : Zone) (f : ZoneRec → ZoneRec) : (updZone z f s).free = s.free := rfl
@[simp] theorem updZone_zones (z : Zone) (f : ZoneRec → ZoneRec) : (updZone z f s).zones = s.zones.upd z f := rfl

/-! ### updModule -/

@[simp] theorem updModule_pending (m : AmpModule) (f : ModuleRec → ModuleRec) : (updModule m f s).pending = s.pending := rfl
@[simp] theorem updModule_rstnLow (m : AmpModule) (f : ModuleRec → ModuleRec) : (updModule m f s).rstnLow = s.rstnLow := rfl
@[simp] theorem updModule_strap (m : AmpModule) (f : ModuleRec → ModuleRec) : (updModule m f s).strap = s.strap := rfl
@[simp] theorem updModule_mem (m : AmpModule) (f : ModuleRec → ModuleRec) : (updModule m f s).mem = s.mem := rfl
@[simp] theorem updModule_readData (m : AmpModule) (f : ModuleRec → ModuleRec) : (updModule m f s).readData = s.readData := rfl
@[simp] theorem updModule_agent (m : AmpModule) (f : ModuleRec → ModuleRec) : (updModule m f s).agent = s.agent := rfl
@[simp] theorem updModule_att (m : AmpModule) (f : ModuleRec → ModuleRec) : (updModule m f s).att = s.att := rfl
@[simp] theorem updModule_dirty (m : AmpModule) (f : ModuleRec → ModuleRec) : (updModule m f s).dirty = s.dirty := rfl
@[simp] theorem updModule_meterTimer (m : AmpModule) (f : ModuleRec → ModuleRec) : (updModule m f s).meterTimer = s.meterTimer := rfl
@[simp] theorem updModule_answers (m : AmpModule) (f : ModuleRec → ModuleRec) : (updModule m f s).answers = s.answers := rfl
@[simp] theorem updModule_sa (m : AmpModule) (f : ModuleRec → ModuleRec) : (updModule m f s).sa = s.sa := rfl
@[simp] theorem updModule_ms (m : AmpModule) (f : ModuleRec → ModuleRec) : (updModule m f s).ms = s.ms := rfl
@[simp] theorem updModule_zones (m : AmpModule) (f : ModuleRec → ModuleRec) : (updModule m f s).zones = s.zones := rfl
@[simp] theorem updModule_view (m : AmpModule) (f : ModuleRec → ModuleRec) : (updModule m f s).view = s.view := rfl
@[simp] theorem updModule_dec (m : AmpModule) (f : ModuleRec → ModuleRec) : (updModule m f s).dec = s.dec := rfl
@[simp] theorem updModule_bass (m : AmpModule) (f : ModuleRec → ModuleRec) : (updModule m f s).bass = s.bass := rfl
@[simp] theorem updModule_gain (m : AmpModule) (f : ModuleRec → ModuleRec) : (updModule m f s).gain = s.gain := rfl
@[simp] theorem updModule_knob (m : AmpModule) (f : ModuleRec → ModuleRec) : (updModule m f s).knob = s.knob := rfl
@[simp] theorem updModule_pool (m : AmpModule) (f : ModuleRec → ModuleRec) : (updModule m f s).pool = s.pool := rfl
@[simp] theorem updModule_clock (m : AmpModule) (f : ModuleRec → ModuleRec) : (updModule m f s).clock = s.clock := rfl
@[simp] theorem updModule_audioStarted (m : AmpModule) (f : ModuleRec → ModuleRec) : (updModule m f s).audioStarted = s.audioStarted := rfl
@[simp] theorem updModule_lock (m : AmpModule) (f : ModuleRec → ModuleRec) : (updModule m f s).lock = s.lock := rfl
@[simp] theorem updModule_links (m : AmpModule) (f : ModuleRec → ModuleRec) : (updModule m f s).links = s.links := rfl
@[simp] theorem updModule_meas (m : AmpModule) (f : ModuleRec → ModuleRec) : (updModule m f s).meas = s.meas := rfl
@[simp] theorem updModule_fe (m : AmpModule) (f : ModuleRec → ModuleRec) : (updModule m f s).fe = s.fe := rfl
@[simp] theorem updModule_tun (m : AmpModule) (f : ModuleRec → ModuleRec) : (updModule m f s).tun = s.tun := rfl
@[simp] theorem updModule_sd (m : AmpModule) (f : ModuleRec → ModuleRec) : (updModule m f s).sd = s.sd := rfl
@[simp] theorem updModule_free (m : AmpModule) (f : ModuleRec → ModuleRec) : (updModule m f s).free = s.free := rfl
@[simp] theorem updModule_mods (m : AmpModule) (f : ModuleRec → ModuleRec) : (updModule m f s).mods = s.mods.upd m f := rfl

/-! ### updZoneGain -/

@[simp] theorem updZoneGain_pending (z : Zone) (f : ZoneGain → ZoneGain) : (updZoneGain z f s).pending = s.pending := rfl
@[simp] theorem updZoneGain_rstnLow (z : Zone) (f : ZoneGain → ZoneGain) : (updZoneGain z f s).rstnLow = s.rstnLow := rfl
@[simp] theorem updZoneGain_strap (z : Zone) (f : ZoneGain → ZoneGain) : (updZoneGain z f s).strap = s.strap := rfl
@[simp] theorem updZoneGain_mem (z : Zone) (f : ZoneGain → ZoneGain) : (updZoneGain z f s).mem = s.mem := rfl
@[simp] theorem updZoneGain_readData (z : Zone) (f : ZoneGain → ZoneGain) : (updZoneGain z f s).readData = s.readData := rfl
@[simp] theorem updZoneGain_agent (z : Zone) (f : ZoneGain → ZoneGain) : (updZoneGain z f s).agent = s.agent := rfl
@[simp] theorem updZoneGain_att (z : Zone) (f : ZoneGain → ZoneGain) : (updZoneGain z f s).att = s.att := rfl
@[simp] theorem updZoneGain_dirty (z : Zone) (f : ZoneGain → ZoneGain) : (updZoneGain z f s).dirty = s.dirty := rfl
@[simp] theorem updZoneGain_meterTimer (z : Zone) (f : ZoneGain → ZoneGain) : (updZoneGain z f s).meterTimer = s.meterTimer := rfl
@[simp] theorem updZoneGain_answers (z : Zone) (f : ZoneGain → ZoneGain) : (updZoneGain z f s).answers = s.answers := rfl
@[simp] theorem updZoneGain_sa (z : Zone) (f : ZoneGain → ZoneGain) : (updZoneGain z f s).sa = s.sa := rfl
@[simp] theorem updZoneGain_ms (z : Zone) (f : ZoneGain → ZoneGain) : (updZoneGain z f s).ms = s.ms := rfl
@[simp] theorem updZoneGain_zones (z : Zone) (f : ZoneGain → ZoneGain) : (updZoneGain z f s).zones = s.zones := rfl
@[simp] theorem updZoneGain_view (z : Zone) (f : ZoneGain → ZoneGain) : (updZoneGain z f s).view = s.view := rfl
@[simp] theorem updZoneGain_dec (z : Zone) (f : ZoneGain → ZoneGain) : (updZoneGain z f s).dec = s.dec := rfl
@[simp] theorem updZoneGain_bass (z : Zone) (f : ZoneGain → ZoneGain) : (updZoneGain z f s).bass = s.bass := rfl
@[simp] theorem updZoneGain_knob (z : Zone) (f : ZoneGain → ZoneGain) : (updZoneGain z f s).knob = s.knob := rfl
@[simp] theorem updZoneGain_pool (z : Zone) (f : ZoneGain → ZoneGain) : (updZoneGain z f s).pool = s.pool := rfl
@[simp] theorem updZoneGain_mods (z : Zone) (f : ZoneGain → ZoneGain) : (updZoneGain z f s).mods = s.mods := rfl
@[simp] theorem updZoneGain_clock (z : Zone) (f : ZoneGain → ZoneGain) : (updZoneGain z f s).clock = s.clock := rfl
@[simp] theorem updZoneGain_audioStarted (z : Zone) (f : ZoneGain → ZoneGain) : (updZoneGain z f s).audioStarted = s.audioStarted := rfl
@[simp] theorem updZoneGain_lock (z : Zone) (f : ZoneGain → ZoneGain) : (updZoneGain z f s).lock = s.lock := rfl
@[simp] theorem updZoneGain_links (z : Zone) (f : ZoneGain → ZoneGain) : (updZoneGain z f s).links = s.links := rfl
@[simp] theorem updZoneGain_meas (z : Zone) (f : ZoneGain → ZoneGain) : (updZoneGain z f s).meas = s.meas := rfl
@[simp] theorem updZoneGain_fe (z : Zone) (f : ZoneGain → ZoneGain) : (updZoneGain z f s).fe = s.fe := rfl
@[simp] theorem updZoneGain_tun (z : Zone) (f : ZoneGain → ZoneGain) : (updZoneGain z f s).tun = s.tun := rfl
@[simp] theorem updZoneGain_sd (z : Zone) (f : ZoneGain → ZoneGain) : (updZoneGain z f s).sd = s.sd := rfl
@[simp] theorem updZoneGain_free (z : Zone) (f : ZoneGain → ZoneGain) : (updZoneGain z f s).free = s.free := rfl
@[simp] theorem updZoneGain_gain (z : Zone) (f : ZoneGain → ZoneGain) : (updZoneGain z f s).gain = { s.gain with zones := s.gain.zones.upd z f } := rfl

/-! ### mapChans -/

@[simp] theorem mapChans_pending (f : Chan → ChanGain → ChanGain) : (mapChans f s).pending = s.pending := rfl
@[simp] theorem mapChans_rstnLow (f : Chan → ChanGain → ChanGain) : (mapChans f s).rstnLow = s.rstnLow := rfl
@[simp] theorem mapChans_strap (f : Chan → ChanGain → ChanGain) : (mapChans f s).strap = s.strap := rfl
@[simp] theorem mapChans_mem (f : Chan → ChanGain → ChanGain) : (mapChans f s).mem = s.mem := rfl
@[simp] theorem mapChans_readData (f : Chan → ChanGain → ChanGain) : (mapChans f s).readData = s.readData := rfl
@[simp] theorem mapChans_agent (f : Chan → ChanGain → ChanGain) : (mapChans f s).agent = s.agent := rfl
@[simp] theorem mapChans_att (f : Chan → ChanGain → ChanGain) : (mapChans f s).att = s.att := rfl
@[simp] theorem mapChans_dirty (f : Chan → ChanGain → ChanGain) : (mapChans f s).dirty = s.dirty := rfl
@[simp] theorem mapChans_meterTimer (f : Chan → ChanGain → ChanGain) : (mapChans f s).meterTimer = s.meterTimer := rfl
@[simp] theorem mapChans_answers (f : Chan → ChanGain → ChanGain) : (mapChans f s).answers = s.answers := rfl
@[simp] theorem mapChans_sa (f : Chan → ChanGain → ChanGain) : (mapChans f s).sa = s.sa := rfl
@[simp] theorem mapChans_ms (f : Chan → ChanGain → ChanGain) : (mapChans f s).ms = s.ms := rfl
@[simp] theorem mapChans_zones (f : Chan → ChanGain → ChanGain) : (mapChans f s).zones = s.zones := rfl
@[simp] theorem mapChans_view (f : Chan → ChanGain → ChanGain) : (mapChans f s).view = s.view := rfl
@[simp] theorem mapChans_dec (f : Chan → ChanGain → ChanGain) : (mapChans f s).dec = s.dec := rfl
@[simp] theorem mapChans_bass (f : Chan → ChanGain → ChanGain) : (mapChans f s).bass = s.bass := rfl
@[simp] theorem mapChans_knob (f : Chan → ChanGain → ChanGain) : (mapChans f s).knob = s.knob := rfl
@[simp] theorem mapChans_pool (f : Chan → ChanGain → ChanGain) : (mapChans f s).pool = s.pool := rfl
@[simp] theorem mapChans_mods (f : Chan → ChanGain → ChanGain) : (mapChans f s).mods = s.mods := rfl
@[simp] theorem mapChans_clock (f : Chan → ChanGain → ChanGain) : (mapChans f s).clock = s.clock := rfl
@[simp] theorem mapChans_audioStarted (f : Chan → ChanGain → ChanGain) : (mapChans f s).audioStarted = s.audioStarted := rfl
@[simp] theorem mapChans_lock (f : Chan → ChanGain → ChanGain) : (mapChans f s).lock = s.lock := rfl
@[simp] theorem mapChans_links (f : Chan → ChanGain → ChanGain) : (mapChans f s).links = s.links := rfl
@[simp] theorem mapChans_meas (f : Chan → ChanGain → ChanGain) : (mapChans f s).meas = s.meas := rfl
@[simp] theorem mapChans_fe (f : Chan → ChanGain → ChanGain) : (mapChans f s).fe = s.fe := rfl
@[simp] theorem mapChans_tun (f : Chan → ChanGain → ChanGain) : (mapChans f s).tun = s.tun := rfl
@[simp] theorem mapChans_sd (f : Chan → ChanGain → ChanGain) : (mapChans f s).sd = s.sd := rfl
@[simp] theorem mapChans_free (f : Chan → ChanGain → ChanGain) : (mapChans f s).free = s.free := rfl
@[simp] theorem mapChans_gain (f : Chan → ChanGain → ChanGain) : (mapChans f s).gain = { s.gain with chans := .ofFn fun ch => f ch (s.gain.chans.get ch) } := rfl

/-! ### updGain -/

@[simp] theorem updGain_pending (f : Gain → Gain) : (updGain f s).pending = s.pending := rfl
@[simp] theorem updGain_rstnLow (f : Gain → Gain) : (updGain f s).rstnLow = s.rstnLow := rfl
@[simp] theorem updGain_strap (f : Gain → Gain) : (updGain f s).strap = s.strap := rfl
@[simp] theorem updGain_mem (f : Gain → Gain) : (updGain f s).mem = s.mem := rfl
@[simp] theorem updGain_readData (f : Gain → Gain) : (updGain f s).readData = s.readData := rfl
@[simp] theorem updGain_agent (f : Gain → Gain) : (updGain f s).agent = s.agent := rfl
@[simp] theorem updGain_att (f : Gain → Gain) : (updGain f s).att = s.att := rfl
@[simp] theorem updGain_dirty (f : Gain → Gain) : (updGain f s).dirty = s.dirty := rfl
@[simp] theorem updGain_meterTimer (f : Gain → Gain) : (updGain f s).meterTimer = s.meterTimer := rfl
@[simp] theorem updGain_answers (f : Gain → Gain) : (updGain f s).answers = s.answers := rfl
@[simp] theorem updGain_sa (f : Gain → Gain) : (updGain f s).sa = s.sa := rfl
@[simp] theorem updGain_ms (f : Gain → Gain) : (updGain f s).ms = s.ms := rfl
@[simp] theorem updGain_zones (f : Gain → Gain) : (updGain f s).zones = s.zones := rfl
@[simp] theorem updGain_view (f : Gain → Gain) : (updGain f s).view = s.view := rfl
@[simp] theorem updGain_dec (f : Gain → Gain) : (updGain f s).dec = s.dec := rfl
@[simp] theorem updGain_bass (f : Gain → Gain) : (updGain f s).bass = s.bass := rfl
@[simp] theorem updGain_knob (f : Gain → Gain) : (updGain f s).knob = s.knob := rfl
@[simp] theorem updGain_pool (f : Gain → Gain) : (updGain f s).pool = s.pool := rfl
@[simp] theorem updGain_mods (f : Gain → Gain) : (updGain f s).mods = s.mods := rfl
@[simp] theorem updGain_clock (f : Gain → Gain) : (updGain f s).clock = s.clock := rfl
@[simp] theorem updGain_audioStarted (f : Gain → Gain) : (updGain f s).audioStarted = s.audioStarted := rfl
@[simp] theorem updGain_lock (f : Gain → Gain) : (updGain f s).lock = s.lock := rfl
@[simp] theorem updGain_links (f : Gain → Gain) : (updGain f s).links = s.links := rfl
@[simp] theorem updGain_meas (f : Gain → Gain) : (updGain f s).meas = s.meas := rfl
@[simp] theorem updGain_fe (f : Gain → Gain) : (updGain f s).fe = s.fe := rfl
@[simp] theorem updGain_tun (f : Gain → Gain) : (updGain f s).tun = s.tun := rfl
@[simp] theorem updGain_sd (f : Gain → Gain) : (updGain f s).sd = s.sd := rfl
@[simp] theorem updGain_free (f : Gain → Gain) : (updGain f s).free = s.free := rfl
@[simp] theorem updGain_gain (f : Gain → Gain) : (updGain f s).gain = f s.gain := rfl

/-! ### updKnob -/

@[simp] theorem updKnob_pending (f : Knob → Knob) : (updKnob f s).pending = s.pending := rfl
@[simp] theorem updKnob_rstnLow (f : Knob → Knob) : (updKnob f s).rstnLow = s.rstnLow := rfl
@[simp] theorem updKnob_strap (f : Knob → Knob) : (updKnob f s).strap = s.strap := rfl
@[simp] theorem updKnob_mem (f : Knob → Knob) : (updKnob f s).mem = s.mem := rfl
@[simp] theorem updKnob_readData (f : Knob → Knob) : (updKnob f s).readData = s.readData := rfl
@[simp] theorem updKnob_agent (f : Knob → Knob) : (updKnob f s).agent = s.agent := rfl
@[simp] theorem updKnob_att (f : Knob → Knob) : (updKnob f s).att = s.att := rfl
@[simp] theorem updKnob_dirty (f : Knob → Knob) : (updKnob f s).dirty = s.dirty := rfl
@[simp] theorem updKnob_meterTimer (f : Knob → Knob) : (updKnob f s).meterTimer = s.meterTimer := rfl
@[simp] theorem updKnob_answers (f : Knob → Knob) : (updKnob f s).answers = s.answers := rfl
@[simp] theorem updKnob_sa (f : Knob → Knob) : (updKnob f s).sa = s.sa := rfl
@[simp] theorem updKnob_ms (f : Knob → Knob) : (updKnob f s).ms = s.ms := rfl
@[simp] theorem updKnob_zones (f : Knob → Knob) : (updKnob f s).zones = s.zones := rfl
@[simp] theorem updKnob_view (f : Knob → Knob) : (updKnob f s).view = s.view := rfl
@[simp] theorem updKnob_dec (f : Knob → Knob) : (updKnob f s).dec = s.dec := rfl
@[simp] theorem updKnob_bass (f : Knob → Knob) : (updKnob f s).bass = s.bass := rfl
@[simp] theorem updKnob_gain (f : Knob → Knob) : (updKnob f s).gain = s.gain := rfl
@[simp] theorem updKnob_pool (f : Knob → Knob) : (updKnob f s).pool = s.pool := rfl
@[simp] theorem updKnob_mods (f : Knob → Knob) : (updKnob f s).mods = s.mods := rfl
@[simp] theorem updKnob_clock (f : Knob → Knob) : (updKnob f s).clock = s.clock := rfl
@[simp] theorem updKnob_audioStarted (f : Knob → Knob) : (updKnob f s).audioStarted = s.audioStarted := rfl
@[simp] theorem updKnob_lock (f : Knob → Knob) : (updKnob f s).lock = s.lock := rfl
@[simp] theorem updKnob_links (f : Knob → Knob) : (updKnob f s).links = s.links := rfl
@[simp] theorem updKnob_meas (f : Knob → Knob) : (updKnob f s).meas = s.meas := rfl
@[simp] theorem updKnob_fe (f : Knob → Knob) : (updKnob f s).fe = s.fe := rfl
@[simp] theorem updKnob_tun (f : Knob → Knob) : (updKnob f s).tun = s.tun := rfl
@[simp] theorem updKnob_sd (f : Knob → Knob) : (updKnob f s).sd = s.sd := rfl
@[simp] theorem updKnob_free (f : Knob → Knob) : (updKnob f s).free = s.free := rfl
@[simp] theorem updKnob_knob (f : Knob → Knob) : (updKnob f s).knob = f s.knob := rfl

/-! ### updAgent -/

@[simp] theorem updAgent_pending (f : Agent → Agent) : (updAgent f s).pending = s.pending := rfl
@[simp] theorem updAgent_rstnLow (f : Agent → Agent) : (updAgent f s).rstnLow = s.rstnLow := rfl
@[simp] theorem updAgent_strap (f : Agent → Agent) : (updAgent f s).strap = s.strap := rfl
@[simp] theorem updAgent_mem (f : Agent → Agent) : (updAgent f s).mem = s.mem := rfl
@[simp] theorem updAgent_readData (f : Agent → Agent) : (updAgent f s).readData = s.readData := rfl
@[simp] theorem updAgent_att (f : Agent → Agent) : (updAgent f s).att = s.att := rfl
@[simp] theorem updAgent_dirty (f : Agent → Agent) : (updAgent f s).dirty = s.dirty := rfl
@[simp] theorem updAgent_meterTimer (f : Agent → Agent) : (updAgent f s).meterTimer = s.meterTimer := rfl
@[simp] theorem updAgent_answers (f : Agent → Agent) : (updAgent f s).answers = s.answers := rfl
@[simp] theorem updAgent_sa (f : Agent → Agent) : (updAgent f s).sa = s.sa := rfl
@[simp] theorem updAgent_ms (f : Agent → Agent) : (updAgent f s).ms = s.ms := rfl
@[simp] theorem updAgent_zones (f : Agent → Agent) : (updAgent f s).zones = s.zones := rfl
@[simp] theorem updAgent_view (f : Agent → Agent) : (updAgent f s).view = s.view := rfl
@[simp] theorem updAgent_dec (f : Agent → Agent) : (updAgent f s).dec = s.dec := rfl
@[simp] theorem updAgent_bass (f : Agent → Agent) : (updAgent f s).bass = s.bass := rfl
@[simp] theorem updAgent_gain (f : Agent → Agent) : (updAgent f s).gain = s.gain := rfl
@[simp] theorem updAgent_knob (f : Agent → Agent) : (updAgent f s).knob = s.knob := rfl
@[simp] theorem updAgent_pool (f : Agent → Agent) : (updAgent f s).pool = s.pool := rfl
@[simp] theorem updAgent_mods (f : Agent → Agent) : (updAgent f s).mods = s.mods := rfl
@[simp] theorem updAgent_clock (f : Agent → Agent) : (updAgent f s).clock = s.clock := rfl
@[simp] theorem updAgent_audioStarted (f : Agent → Agent) : (updAgent f s).audioStarted = s.audioStarted := rfl
@[simp] theorem updAgent_lock (f : Agent → Agent) : (updAgent f s).lock = s.lock := rfl
@[simp] theorem updAgent_links (f : Agent → Agent) : (updAgent f s).links = s.links := rfl
@[simp] theorem updAgent_meas (f : Agent → Agent) : (updAgent f s).meas = s.meas := rfl
@[simp] theorem updAgent_fe (f : Agent → Agent) : (updAgent f s).fe = s.fe := rfl
@[simp] theorem updAgent_tun (f : Agent → Agent) : (updAgent f s).tun = s.tun := rfl
@[simp] theorem updAgent_sd (f : Agent → Agent) : (updAgent f s).sd = s.sd := rfl
@[simp] theorem updAgent_free (f : Agent → Agent) : (updAgent f s).free = s.free := rfl
@[simp] theorem updAgent_agent (f : Agent → Agent) : (updAgent f s).agent = f s.agent := rfl

/-! ### setPort -/

@[simp] theorem setPort_pending (p : Port) : (setPort p s).pending = s.pending := rfl
@[simp] theorem setPort_rstnLow (p : Port) : (setPort p s).rstnLow = s.rstnLow := rfl
@[simp] theorem setPort_strap (p : Port) : (setPort p s).strap = s.strap := rfl
@[simp] theorem setPort_mem (p : Port) : (setPort p s).mem = s.mem := rfl
@[simp] theorem setPort_readData (p : Port) : (setPort p s).readData = s.readData := rfl
@[simp] theorem setPort_att (p : Port) : (setPort p s).att = s.att := rfl
@[simp] theorem setPort_dirty (p : Port) : (setPort p s).dirty = s.dirty := rfl
@[simp] theorem setPort_meterTimer (p : Port) : (setPort p s).meterTimer = s.meterTimer := rfl
@[simp] theorem setPort_answers (p : Port) : (setPort p s).answers = s.answers := rfl
@[simp] theorem setPort_sa (p : Port) : (setPort p s).sa = s.sa := rfl
@[simp] theorem setPort_ms (p : Port) : (setPort p s).ms = s.ms := rfl
@[simp] theorem setPort_zones (p : Port) : (setPort p s).zones = s.zones := rfl
@[simp] theorem setPort_view (p : Port) : (setPort p s).view = s.view := rfl
@[simp] theorem setPort_dec (p : Port) : (setPort p s).dec = s.dec := rfl
@[simp] theorem setPort_bass (p : Port) : (setPort p s).bass = s.bass := rfl
@[simp] theorem setPort_gain (p : Port) : (setPort p s).gain = s.gain := rfl
@[simp] theorem setPort_knob (p : Port) : (setPort p s).knob = s.knob := rfl
@[simp] theorem setPort_pool (p : Port) : (setPort p s).pool = s.pool := rfl
@[simp] theorem setPort_mods (p : Port) : (setPort p s).mods = s.mods := rfl
@[simp] theorem setPort_clock (p : Port) : (setPort p s).clock = s.clock := rfl
@[simp] theorem setPort_audioStarted (p : Port) : (setPort p s).audioStarted = s.audioStarted := rfl
@[simp] theorem setPort_lock (p : Port) : (setPort p s).lock = s.lock := rfl
@[simp] theorem setPort_links (p : Port) : (setPort p s).links = s.links := rfl
@[simp] theorem setPort_meas (p : Port) : (setPort p s).meas = s.meas := rfl
@[simp] theorem setPort_fe (p : Port) : (setPort p s).fe = s.fe := rfl
@[simp] theorem setPort_tun (p : Port) : (setPort p s).tun = s.tun := rfl
@[simp] theorem setPort_sd (p : Port) : (setPort p s).sd = s.sd := rfl
@[simp] theorem setPort_free (p : Port) : (setPort p s).free = s.free := rfl
@[simp] theorem setPort_agent (p : Port) : (setPort p s).agent = { s.agent with port := p } := rfl

/-! ### updMeas -/

@[simp] theorem updMeas_pending (f : Meas → Meas) : (updMeas f s).pending = s.pending := rfl
@[simp] theorem updMeas_rstnLow (f : Meas → Meas) : (updMeas f s).rstnLow = s.rstnLow := rfl
@[simp] theorem updMeas_strap (f : Meas → Meas) : (updMeas f s).strap = s.strap := rfl
@[simp] theorem updMeas_mem (f : Meas → Meas) : (updMeas f s).mem = s.mem := rfl
@[simp] theorem updMeas_readData (f : Meas → Meas) : (updMeas f s).readData = s.readData := rfl
@[simp] theorem updMeas_agent (f : Meas → Meas) : (updMeas f s).agent = s.agent := rfl
@[simp] theorem updMeas_att (f : Meas → Meas) : (updMeas f s).att = s.att := rfl
@[simp] theorem updMeas_dirty (f : Meas → Meas) : (updMeas f s).dirty = s.dirty := rfl
@[simp] theorem updMeas_meterTimer (f : Meas → Meas) : (updMeas f s).meterTimer = s.meterTimer := rfl
@[simp] theorem updMeas_answers (f : Meas → Meas) : (updMeas f s).answers = s.answers := rfl
@[simp] theorem updMeas_sa (f : Meas → Meas) : (updMeas f s).sa = s.sa := rfl
@[simp] theorem updMeas_ms (f : Meas → Meas) : (updMeas f s).ms = s.ms := rfl
@[simp] theorem updMeas_zones (f : Meas → Meas) : (updMeas f s).zones = s.zones := rfl
@[simp] theorem updMeas_view (f : Meas → Meas) : (updMeas f s).view = s.view := rfl
@[simp] theorem updMeas_dec (f : Meas → Meas) : (updMeas f s).dec = s.dec := rfl
@[simp] theorem updMeas_bass (f : Meas → Meas) : (updMeas f s).bass = s.bass := rfl
@[simp] theorem updMeas_gain (f : Meas → Meas) : (updMeas f s).gain = s.gain := rfl
@[simp] theorem updMeas_knob (f : Meas → Meas) : (updMeas f s).knob = s.knob := rfl
@[simp] theorem updMeas_pool (f : Meas → Meas) : (updMeas f s).pool = s.pool := rfl
@[simp] theorem updMeas_mods (f : Meas → Meas) : (updMeas f s).mods = s.mods := rfl
@[simp] theorem updMeas_clock (f : Meas → Meas) : (updMeas f s).clock = s.clock := rfl
@[simp] theorem updMeas_audioStarted (f : Meas → Meas) : (updMeas f s).audioStarted = s.audioStarted := rfl
@[simp] theorem updMeas_lock (f : Meas → Meas) : (updMeas f s).lock = s.lock := rfl
@[simp] theorem updMeas_links (f : Meas → Meas) : (updMeas f s).links = s.links := rfl
@[simp] theorem updMeas_fe (f : Meas → Meas) : (updMeas f s).fe = s.fe := rfl
@[simp] theorem updMeas_tun (f : Meas → Meas) : (updMeas f s).tun = s.tun := rfl
@[simp] theorem updMeas_sd (f : Meas → Meas) : (updMeas f s).sd = s.sd := rfl
@[simp] theorem updMeas_free (f : Meas → Meas) : (updMeas f s).free = s.free := rfl
@[simp] theorem updMeas_meas (f : Meas → Meas) : (updMeas f s).meas = f s.meas := rfl

/-! ### updFe -/

@[simp] theorem updFe_pending (f : FrontEnd → FrontEnd) : (updFe f s).pending = s.pending := rfl
@[simp] theorem updFe_rstnLow (f : FrontEnd → FrontEnd) : (updFe f s).rstnLow = s.rstnLow := rfl
@[simp] theorem updFe_strap (f : FrontEnd → FrontEnd) : (updFe f s).strap = s.strap := rfl
@[simp] theorem updFe_mem (f : FrontEnd → FrontEnd) : (updFe f s).mem = s.mem := rfl
@[simp] theorem updFe_readData (f : FrontEnd → FrontEnd) : (updFe f s).readData = s.readData := rfl
@[simp] theorem updFe_agent (f : FrontEnd → FrontEnd) : (updFe f s).agent = s.agent := rfl
@[simp] theorem updFe_att (f : FrontEnd → FrontEnd) : (updFe f s).att = s.att := rfl
@[simp] theorem updFe_dirty (f : FrontEnd → FrontEnd) : (updFe f s).dirty = s.dirty := rfl
@[simp] theorem updFe_meterTimer (f : FrontEnd → FrontEnd) : (updFe f s).meterTimer = s.meterTimer := rfl
@[simp] theorem updFe_answers (f : FrontEnd → FrontEnd) : (updFe f s).answers = s.answers := rfl
@[simp] theorem updFe_sa (f : FrontEnd → FrontEnd) : (updFe f s).sa = s.sa := rfl
@[simp] theorem updFe_ms (f : FrontEnd → FrontEnd) : (updFe f s).ms = s.ms := rfl
@[simp] theorem updFe_zones (f : FrontEnd → FrontEnd) : (updFe f s).zones = s.zones := rfl
@[simp] theorem updFe_view (f : FrontEnd → FrontEnd) : (updFe f s).view = s.view := rfl
@[simp] theorem updFe_dec (f : FrontEnd → FrontEnd) : (updFe f s).dec = s.dec := rfl
@[simp] theorem updFe_bass (f : FrontEnd → FrontEnd) : (updFe f s).bass = s.bass := rfl
@[simp] theorem updFe_gain (f : FrontEnd → FrontEnd) : (updFe f s).gain = s.gain := rfl
@[simp] theorem updFe_knob (f : FrontEnd → FrontEnd) : (updFe f s).knob = s.knob := rfl
@[simp] theorem updFe_pool (f : FrontEnd → FrontEnd) : (updFe f s).pool = s.pool := rfl
@[simp] theorem updFe_mods (f : FrontEnd → FrontEnd) : (updFe f s).mods = s.mods := rfl
@[simp] theorem updFe_clock (f : FrontEnd → FrontEnd) : (updFe f s).clock = s.clock := rfl
@[simp] theorem updFe_audioStarted (f : FrontEnd → FrontEnd) : (updFe f s).audioStarted = s.audioStarted := rfl
@[simp] theorem updFe_lock (f : FrontEnd → FrontEnd) : (updFe f s).lock = s.lock := rfl
@[simp] theorem updFe_links (f : FrontEnd → FrontEnd) : (updFe f s).links = s.links := rfl
@[simp] theorem updFe_meas (f : FrontEnd → FrontEnd) : (updFe f s).meas = s.meas := rfl
@[simp] theorem updFe_tun (f : FrontEnd → FrontEnd) : (updFe f s).tun = s.tun := rfl
@[simp] theorem updFe_sd (f : FrontEnd → FrontEnd) : (updFe f s).sd = s.sd := rfl
@[simp] theorem updFe_free (f : FrontEnd → FrontEnd) : (updFe f s).free = s.free := rfl
@[simp] theorem updFe_fe (f : FrontEnd → FrontEnd) : (updFe f s).fe = f s.fe := rfl

/-! ### updTun -/

@[simp] theorem updTun_pending (f : Tuner → Tuner) : (updTun f s).pending = s.pending := rfl
@[simp] theorem updTun_rstnLow (f : Tuner → Tuner) : (updTun f s).rstnLow = s.rstnLow := rfl
@[simp] theorem updTun_strap (f : Tuner → Tuner) : (updTun f s).strap = s.strap := rfl
@[simp] theorem updTun_mem (f : Tuner → Tuner) : (updTun f s).mem = s.mem := rfl
@[simp] theorem updTun_readData (f : Tuner → Tuner) : (updTun f s).readData = s.readData := rfl
@[simp] theorem updTun_agent (f : Tuner → Tuner) : (updTun f s).agent = s.agent := rfl
@[simp] theorem updTun_att (f : Tuner → Tuner) : (updTun f s).att = s.att := rfl
@[simp] theorem updTun_dirty (f : Tuner → Tuner) : (updTun f s).dirty = s.dirty := rfl
@[simp] theorem updTun_meterTimer (f : Tuner → Tuner) : (updTun f s).meterTimer = s.meterTimer := rfl
@[simp] theorem updTun_answers (f : Tuner → Tuner) : (updTun f s).answers = s.answers := rfl
@[simp] theorem updTun_sa (f : Tuner → Tuner) : (updTun f s).sa = s.sa := rfl
@[simp] theorem updTun_ms (f : Tuner → Tuner) : (updTun f s).ms = s.ms := rfl
@[simp] theorem updTun_zones (f : Tuner → Tuner) : (updTun f s).zones = s.zones := rfl
@[simp] theorem updTun_view (f : Tuner → Tuner) : (updTun f s).view = s.view := rfl
@[simp] theorem updTun_dec (f : Tuner → Tuner) : (updTun f s).dec = s.dec := rfl
@[simp] theorem updTun_bass (f : Tuner → Tuner) : (updTun f s).bass = s.bass := rfl
@[simp] theorem updTun_gain (f : Tuner → Tuner) : (updTun f s).gain = s.gain := rfl
@[simp] theorem updTun_knob (f : Tuner → Tuner) : (updTun f s).knob = s.knob := rfl
@[simp] theorem updTun_pool (f : Tuner → Tuner) : (updTun f s).pool = s.pool := rfl
@[simp] theorem updTun_mods (f : Tuner → Tuner) : (updTun f s).mods = s.mods := rfl
@[simp] theorem updTun_clock (f : Tuner → Tuner) : (updTun f s).clock = s.clock := rfl
@[simp] theorem updTun_audioStarted (f : Tuner → Tuner) : (updTun f s).audioStarted = s.audioStarted := rfl
@[simp] theorem updTun_lock (f : Tuner → Tuner) : (updTun f s).lock = s.lock := rfl
@[simp] theorem updTun_links (f : Tuner → Tuner) : (updTun f s).links = s.links := rfl
@[simp] theorem updTun_meas (f : Tuner → Tuner) : (updTun f s).meas = s.meas := rfl
@[simp] theorem updTun_fe (f : Tuner → Tuner) : (updTun f s).fe = s.fe := rfl
@[simp] theorem updTun_sd (f : Tuner → Tuner) : (updTun f s).sd = s.sd := rfl
@[simp] theorem updTun_free (f : Tuner → Tuner) : (updTun f s).free = s.free := rfl
@[simp] theorem updTun_tun (f : Tuner → Tuner) : (updTun f s).tun = f s.tun := rfl

/-! ### updSd -/

@[simp] theorem updSd_pending (f : Station → Station) : (updSd f s).pending = s.pending := rfl
@[simp] theorem updSd_rstnLow (f : Station → Station) : (updSd f s).rstnLow = s.rstnLow := rfl
@[simp] theorem updSd_strap (f : Station → Station) : (updSd f s).strap = s.strap := rfl
@[simp] theorem updSd_mem (f : Station → Station) : (updSd f s).mem = s.mem := rfl
@[simp] theorem updSd_readData (f : Station → Station) : (updSd f s).readData = s.readData := rfl
@[simp] theorem updSd_agent (f : Station → Station) : (updSd f s).agent = s.agent := rfl
@[simp] theorem updSd_att (f : Station → Station) : (updSd f s).att = s.att := rfl
@[simp] theorem updSd_dirty (f : Station → Station) : (updSd f s).dirty = s.dirty := rfl
@[simp] theorem updSd_meterTimer (f : Station → Station) : (updSd f s).meterTimer = s.meterTimer := rfl
@[simp] theorem updSd_answers (f : Station → Station) : (updSd f s).answers = s.answers := rfl
@[simp] theorem updSd_sa (f : Station → Station) : (updSd f s).sa = s.sa := rfl
@[simp] theorem updSd_ms (f : Station → Station) : (updSd f s).ms = s.ms := rfl
@[simp] theorem updSd_zones (f : Station → Station) : (updSd f s).zones = s.zones := rfl
@[simp] theorem updSd_view (f : Station → Station) : (updSd f s).view = s.view := rfl
@[simp] theorem updSd_dec (f : Station → Station) : (updSd f s).dec = s.dec := rfl
@[simp] theorem updSd_bass (f : Station → Station) : (updSd f s).bass = s.bass := rfl
@[simp] theorem updSd_gain (f : Station → Station) : (updSd f s).gain = s.gain := rfl
@[simp] theorem updSd_knob (f : Station → Station) : (updSd f s).knob = s.knob := rfl
@[simp] theorem updSd_pool (f : Station → Station) : (updSd f s).pool = s.pool := rfl
@[simp] theorem updSd_mods (f : Station → Station) : (updSd f s).mods = s.mods := rfl
@[simp] theorem updSd_clock (f : Station → Station) : (updSd f s).clock = s.clock := rfl
@[simp] theorem updSd_audioStarted (f : Station → Station) : (updSd f s).audioStarted = s.audioStarted := rfl
@[simp] theorem updSd_lock (f : Station → Station) : (updSd f s).lock = s.lock := rfl
@[simp] theorem updSd_links (f : Station → Station) : (updSd f s).links = s.links := rfl
@[simp] theorem updSd_meas (f : Station → Station) : (updSd f s).meas = s.meas := rfl
@[simp] theorem updSd_fe (f : Station → Station) : (updSd f s).fe = s.fe := rfl
@[simp] theorem updSd_tun (f : Station → Station) : (updSd f s).tun = s.tun := rfl
@[simp] theorem updSd_free (f : Station → Station) : (updSd f s).free = s.free := rfl
@[simp] theorem updSd_sd (f : Station → Station) : (updSd f s).sd = f s.sd := rfl

/-! ### raise -/

@[simp] theorem raise_pending (c : Cause) : (raise c s).pending = s.pending := by unfold raise; split <;> rfl
@[simp] theorem raise_rstnLow (c : Cause) : (raise c s).rstnLow = s.rstnLow := by unfold raise; split <;> rfl
@[simp] theorem raise_strap (c : Cause) : (raise c s).strap = s.strap := by unfold raise; split <;> rfl
@[simp] theorem raise_mem (c : Cause) : (raise c s).mem = s.mem := by unfold raise; split <;> rfl
@[simp] theorem raise_readData (c : Cause) : (raise c s).readData = s.readData := by unfold raise; split <;> rfl
@[simp] theorem raise_agent (c : Cause) : (raise c s).agent = s.agent := by unfold raise; split <;> rfl
@[simp] theorem raise_meterTimer (c : Cause) : (raise c s).meterTimer = s.meterTimer := by unfold raise; split <;> rfl
@[simp] theorem raise_answers (c : Cause) : (raise c s).answers = s.answers := by unfold raise; split <;> rfl
@[simp] theorem raise_sa (c : Cause) : (raise c s).sa = s.sa := by unfold raise; split <;> rfl
@[simp] theorem raise_ms (c : Cause) : (raise c s).ms = s.ms := by unfold raise; split <;> rfl
@[simp] theorem raise_zones (c : Cause) : (raise c s).zones = s.zones := by unfold raise; split <;> rfl
@[simp] theorem raise_view (c : Cause) : (raise c s).view = s.view := by unfold raise; split <;> rfl
@[simp] theorem raise_dec (c : Cause) : (raise c s).dec = s.dec := by unfold raise; split <;> rfl
@[simp] theorem raise_bass (c : Cause) : (raise c s).bass = s.bass := by unfold raise; split <;> rfl
@[simp] theorem raise_gain (c : Cause) : (raise c s).gain = s.gain := by unfold raise; split <;> rfl
@[simp] theorem raise_knob (c : Cause) : (raise c s).knob = s.knob := by unfold raise; split <;> rfl
@[simp] theorem raise_pool (c : Cause) : (raise c s).pool = s.pool := by unfold raise; split <;> rfl
@[simp] theorem raise_mods (c : Cause) : (raise c s).mods = s.mods := by unfold raise; split <;> rfl
@[simp] theorem raise_clock (c : Cause) : (raise c s).clock = s.clock := by unfold raise; split <;> rfl
@[simp] theorem raise_audioStarted (c : Cause) : (raise c s).audioStarted = s.audioStarted := by unfold raise; split <;> rfl
@[simp] theorem raise_lock (c : Cause) : (raise c s).lock = s.lock := by unfold raise; split <;> rfl
@[simp] theorem raise_links (c : Cause) : (raise c s).links = s.links := by unfold raise; split <;> rfl
@[simp] theorem raise_meas (c : Cause) : (raise c s).meas = s.meas := by unfold raise; split <;> rfl
@[simp] theorem raise_fe (c : Cause) : (raise c s).fe = s.fe := by unfold raise; split <;> rfl
@[simp] theorem raise_tun (c : Cause) : (raise c s).tun = s.tun := by unfold raise; split <;> rfl
@[simp] theorem raise_sd (c : Cause) : (raise c s).sd = s.sd := by unfold raise; split <;> rfl
@[simp] theorem raise_free (c : Cause) : (raise c s).free = s.free := by unfold raise; split <;> rfl

/-! ### requestWriteBack -/

@[simp] theorem requestWriteBack_pending (sl : Slot) : (requestWriteBack sl s).pending = s.pending := by unfold requestWriteBack; split <;> rfl
@[simp] theorem requestWriteBack_rstnLow (sl : Slot) : (requestWriteBack sl s).rstnLow = s.rstnLow := by unfold requestWriteBack; split <;> rfl
@[simp] theorem requestWriteBack_strap (sl : Slot) : (requestWriteBack sl s).strap = s.strap := by unfold requestWriteBack; split <;> rfl
@[simp] theorem requestWriteBack_mem (sl : Slot) : (requestWriteBack sl s).mem = s.mem := by unfold requestWriteBack; split <;> rfl
@[simp] theorem requestWriteBack_readData (sl : Slot) : (requestWriteBack sl s).readData = s.readData := by unfold requestWriteBack; split <;> rfl
@[simp] theorem requestWriteBack_att (sl : Slot) : (requestWriteBack sl s).att = s.att := by unfold requestWriteBack; split <;> rfl
@[simp] theorem requestWriteBack_dirty (sl : Slot) : (requestWriteBack sl s).dirty = s.dirty := by unfold requestWriteBack; split <;> rfl
@[simp] theorem requestWriteBack_meterTimer (sl : Slot) : (requestWriteBack sl s).meterTimer = s.meterTimer := by unfold requestWriteBack; split <;> rfl
@[simp] theorem requestWriteBack_answers (sl : Slot) : (requestWriteBack sl s).answers = s.answers := by unfold requestWriteBack; split <;> rfl
@[simp] theorem requestWriteBack_sa (sl : Slot) : (requestWriteBack sl s).sa = s.sa := by unfold requestWriteBack; split <;> rfl
@[simp] theorem requestWriteBack_ms (sl : Slot) : (requestWriteBack sl s).ms = s.ms := by unfold requestWriteBack; split <;> rfl
@[simp] theorem requestWriteBack_zones (sl : Slot) : (requestWriteBack sl s).zones = s.zones := by unfold requestWriteBack; split <;> rfl
@[simp] theorem requestWriteBack_view (sl : Slot) : (requestWriteBack sl s).view = s.view := by unfold requestWriteBack; split <;> rfl
@[simp] theorem requestWriteBack_dec (sl : Slot) : (requestWriteBack sl s).dec = s.dec := by unfold requestWriteBack; split <;> rfl
@[simp] theorem requestWriteBack_bass (sl : Slot) : (requestWriteBack sl s).bass = s.bass := by unfold requestWriteBack; split <;> rfl
@[simp] theorem requestWriteBack_gain (sl : Slot) : (requestWriteBack sl s).gain = s.gain := by unfold requestWriteBack; split <;> rfl
@[simp] theorem requestWriteBack_knob (sl : Slot) : (requestWriteBack sl s).knob = s.knob := by unfold requestWriteBack; split <;> rfl
@[simp] theorem requestWriteBack_pool (sl : Slot) : (requestWriteBack sl s).pool = s.pool := by unfold requestWriteBack; split <;> rfl
@[simp] theorem requestWriteBack_mods (sl : Slot) : (requestWriteBack sl s).mods = s.mods := by unfold requestWriteBack; split <;> rfl
@[simp] theorem requestWriteBack_clock (sl : Slot) : (requestWriteBack sl s).clock = s.clock := by unfold requestWriteBack; split <;> rfl
@[simp] theorem requestWriteBack_audioStarted (sl : Slot) : (requestWriteBack sl s).audioStarted = s.audioStarted := by unfold requestWriteBack; split <;> rfl
@[simp] theorem requestWriteBack_lock (sl : Slot) : (requestWriteBack sl s).lock = s.lock := by unfold requestWriteBack; split <;> rfl
@[simp] theorem requestWriteBack_links (sl : Slot) : (requestWriteBack sl s).links = s.links := by unfold requestWriteBack; split <;> rfl
@[simp] theorem requestWriteBack_meas (sl : Slot) : (requestWriteBack sl s).meas = s.meas := by unfold requestWriteBack; split <;> rfl
@[simp] theorem requestWriteBack_fe (sl : Slot) : (requestWriteBack sl s).fe = s.fe := by unfold requestWriteBack; split <;> rfl
@[simp] theorem requestWriteBack_tun (sl : Slot) : (requestWriteBack sl s).tun = s.tun := by unfold requestWriteBack; split <;> rfl
@[simp] theorem requestWriteBack_sd (sl : Slot) : (requestWriteBack sl s).sd = s.sd := by unfold requestWriteBack; split <;> rfl
@[simp] theorem requestWriteBack_free (sl : Slot) : (requestWriteBack sl s).free = s.free := by unfold requestWriteBack; split <;> rfl


end Sys2Proof.Machine
end

