-- ==== Sys2Proof/Laws/Tables.lean ====
section
/-! SUPPORT. The laws of the tables: what `get` reads after `ofFn`, `set`, `upd` and `all`, and that a
table is the items it gives. -/

set_option autoImplicit false

namespace Sys2Proof.Machine

variable {α : Type}

/-! ### PerZone -/

@[simp] theorem PerZone.get_ofFn (f : Zone → α) (i : Zone) : (PerZone.ofFn f).get i = f i := by
  cases i <;> rfl

@[simp] theorem PerZone.get_all (x : α) (i : Zone) : (PerZone.all x).get i = x := by
  simp [PerZone.all]

theorem PerZone.get_set (t : PerZone α) (i j : Zone) (x : α) :
    (t.set i x).get j = if j = i then x else t.get j := by
  simp [PerZone.set]

@[simp] theorem PerZone.get_set_self (t : PerZone α) (i : Zone) (x : α) : (t.set i x).get i = x := by
  simp [PerZone.set]

theorem PerZone.get_set_ne (t : PerZone α) (i j : Zone) (x : α) (h : j ≠ i) :
    (t.set i x).get j = t.get j := by
  simp [PerZone.set, h]

theorem PerZone.get_upd (t : PerZone α) (i j : Zone) (f : α → α) :
    (t.upd i f).get j = if j = i then f (t.get i) else t.get j := by
  simp [PerZone.upd, PerZone.set]

@[simp] theorem PerZone.get_upd_self (t : PerZone α) (i : Zone) (f : α → α) : (t.upd i f).get i = f (t.get i) := by
  simp [PerZone.upd]

theorem PerZone.get_upd_ne (t : PerZone α) (i j : Zone) (f : α → α) (h : j ≠ i) :
    (t.upd i f).get j = t.get j := by
  simp [PerZone.upd, PerZone.set, h]

/-- A table is the items it gives. -/
theorem PerZone.ext_get (t u : PerZone α) (h : ∀ i, t.get i = u.get i) : t = u := by
  cases t
  cases u
  simp only [PerZone.mk.injEq]
  exact ⟨h .z1, h .z2⟩

@[simp] theorem PerZone.set_get (t : PerZone α) (i : Zone) : t.set i (t.get i) = t := by
  apply PerZone.ext_get
  intro j
  by_cases h : j = i <;> simp [PerZone.get_set, h]

/-! ### PerLine -/

@[simp] theorem PerLine.get_ofFn (f : SaLine → α) (i : SaLine) : (PerLine.ofFn f).get i = f i := by
  cases i <;> rfl

@[simp] theorem PerLine.get_all (x : α) (i : SaLine) : (PerLine.all x).get i = x := by
  simp [PerLine.all]

theorem PerLine.get_set (t : PerLine α) (i j : SaLine) (x : α) :
    (t.set i x).get j = if j = i then x else t.get j := by
  simp [PerLine.set]

@[simp] theorem PerLine.get_set_self (t : PerLine α) (i : SaLine) (x : α) : (t.set i x).get i = x := by
  simp [PerLine.set]

theorem PerLine.get_set_ne (t : PerLine α) (i j : SaLine) (x : α) (h : j ≠ i) :
    (t.set i x).get j = t.get j := by
  simp [PerLine.set, h]

theorem PerLine.get_upd (t : PerLine α) (i j : SaLine) (f : α → α) :
    (t.upd i f).get j = if j = i then f (t.get i) else t.get j := by
  simp [PerLine.upd, PerLine.set]

@[simp] theorem PerLine.get_upd_self (t : PerLine α) (i : SaLine) (f : α → α) : (t.upd i f).get i = f (t.get i) := by
  simp [PerLine.upd]

theorem PerLine.get_upd_ne (t : PerLine α) (i j : SaLine) (f : α → α) (h : j ≠ i) :
    (t.upd i f).get j = t.get j := by
  simp [PerLine.upd, PerLine.set, h]

/-- A table is the items it gives. -/
theorem PerLine.ext_get (t u : PerLine α) (h : ∀ i, t.get i = u.get i) : t = u := by
  cases t
  cases u
  simp only [PerLine.mk.injEq]
  exact ⟨h .sa1, h .sa2, h .sa3, h .sa4⟩

@[simp] theorem PerLine.set_get (t : PerLine α) (i : SaLine) : t.set i (t.get i) = t := by
  apply PerLine.ext_get
  intro j
  by_cases h : j = i <;> simp [PerLine.get_set, h]

/-! ### PerStream -/

@[simp] theorem PerStream.get_ofFn (f : StreamId → α) (i : StreamId) : (PerStream.ofFn f).get i = f i := by
  cases i <;> rfl

@[simp] theorem PerStream.get_all (x : α) (i : StreamId) : (PerStream.all x).get i = x := by
  simp [PerStream.all]

theorem PerStream.get_set (t : PerStream α) (i j : StreamId) (x : α) :
    (t.set i x).get j = if j = i then x else t.get j := by
  simp [PerStream.set]

@[simp] theorem PerStream.get_set_self (t : PerStream α) (i : StreamId) (x : α) : (t.set i x).get i = x := by
  simp [PerStream.set]

theorem PerStream.get_set_ne (t : PerStream α) (i j : StreamId) (x : α) (h : j ≠ i) :
    (t.set i x).get j = t.get j := by
  simp [PerStream.set, h]

theorem PerStream.get_upd (t : PerStream α) (i j : StreamId) (f : α → α) :
    (t.upd i f).get j = if j = i then f (t.get i) else t.get j := by
  simp [PerStream.upd, PerStream.set]

@[simp] theorem PerStream.get_upd_self (t : PerStream α) (i : StreamId) (f : α → α) : (t.upd i f).get i = f (t.get i) := by
  simp [PerStream.upd]

theorem PerStream.get_upd_ne (t : PerStream α) (i j : StreamId) (f : α → α) (h : j ≠ i) :
    (t.upd i f).get j = t.get j := by
  simp [PerStream.upd, PerStream.set, h]

/-- A table is the items it gives. -/
theorem PerStream.ext_get (t u : PerStream α) (h : ∀ i, t.get i = u.get i) : t = u := by
  cases t
  cases u
  simp only [PerStream.mk.injEq]
  exact ⟨h .ms1, h .ms2⟩

@[simp] theorem PerStream.set_get (t : PerStream α) (i : StreamId) : t.set i (t.get i) = t := by
  apply PerStream.ext_get
  intro j
  by_cases h : j = i <;> simp [PerStream.get_set, h]

/-! ### PerModule -/

@[simp] theorem PerModule.get_ofFn (f : AmpModule → α) (i : AmpModule) : (PerModule.ofFn f).get i = f i := by
  cases i <;> rfl

@[simp] theorem PerModule.get_all (x : α) (i : AmpModule) : (PerModule.all x).get i = x := by
  simp [PerModule.all]

theorem PerModule.get_set (t : PerModule α) (i j : AmpModule) (x : α) :
    (t.set i x).get j = if j = i then x else t.get j := by
  simp [PerModule.set]

@[simp] theorem PerModule.get_set_self (t : PerModule α) (i : AmpModule) (x : α) : (t.set i x).get i = x := by
  simp [PerModule.set]

theorem PerModule.get_set_ne (t : PerModule α) (i j : AmpModule) (x : α) (h : j ≠ i) :
    (t.set i x).get j = t.get j := by
  simp [PerModule.set, h]

theorem PerModule.get_upd (t : PerModule α) (i j : AmpModule) (f : α → α) :
    (t.upd i f).get j = if j = i then f (t.get i) else t.get j := by
  simp [PerModule.upd, PerModule.set]

@[simp] theorem PerModule.get_upd_self (t : PerModule α) (i : AmpModule) (f : α → α) : (t.upd i f).get i = f (t.get i) := by
  simp [PerModule.upd]

theorem PerModule.get_upd_ne (t : PerModule α) (i j : AmpModule) (f : α → α) (h : j ≠ i) :
    (t.upd i f).get j = t.get j := by
  simp [PerModule.upd, PerModule.set, h]

/-- A table is the items it gives. -/
theorem PerModule.ext_get (t u : PerModule α) (h : ∀ i, t.get i = u.get i) : t = u := by
  cases t
  cases u
  simp only [PerModule.mk.injEq]
  exact ⟨h .a, h .b, h .c⟩

@[simp] theorem PerModule.set_get (t : PerModule α) (i : AmpModule) : t.set i (t.get i) = t := by
  apply PerModule.ext_get
  intro j
  by_cases h : j = i <;> simp [PerModule.get_set, h]

/-! ### PerMain -/

@[simp] theorem PerMain.get_ofFn (f : MainChan → α) (i : MainChan) : (PerMain.ofFn f).get i = f i := by
  cases i <;> rfl

@[simp] theorem PerMain.get_all (x : α) (i : MainChan) : (PerMain.all x).get i = x := by
  simp [PerMain.all]

theorem PerMain.get_set (t : PerMain α) (i j : MainChan) (x : α) :
    (t.set i x).get j = if j = i then x else t.get j := by
  simp [PerMain.set]

@[simp] theorem PerMain.get_set_self (t : PerMain α) (i : MainChan) (x : α) : (t.set i x).get i = x := by
  simp [PerMain.set]

theorem PerMain.get_set_ne (t : PerMain α) (i j : MainChan) (x : α) (h : j ≠ i) :
    (t.set i x).get j = t.get j := by
  simp [PerMain.set, h]

theorem PerMain.get_upd (t : PerMain α) (i j : MainChan) (f : α → α) :
    (t.upd i f).get j = if j = i then f (t.get i) else t.get j := by
  simp [PerMain.upd, PerMain.set]

@[simp] theorem PerMain.get_upd_self (t : PerMain α) (i : MainChan) (f : α → α) : (t.upd i f).get i = f (t.get i) := by
  simp [PerMain.upd]

theorem PerMain.get_upd_ne (t : PerMain α) (i j : MainChan) (f : α → α) (h : j ≠ i) :
    (t.upd i f).get j = t.get j := by
  simp [PerMain.upd, PerMain.set, h]

/-- A table is the items it gives. -/
theorem PerMain.ext_get (t u : PerMain α) (h : ∀ i, t.get i = u.get i) : t = u := by
  cases t
  cases u
  simp only [PerMain.mk.injEq]
  exact ⟨h .fl, h .fr, h .c, h .sw, h .sl, h .sr, h .bl, h .br, h .tl, h .tr⟩

@[simp] theorem PerMain.set_get (t : PerMain α) (i : MainChan) : t.set i (t.get i) = t := by
  apply PerMain.ext_get
  intro j
  by_cases h : j = i <;> simp [PerMain.get_set, h]

/-! ### PerChan -/

@[simp] theorem PerChan.get_ofFn (f : Chan → α) (i : Chan) : (PerChan.ofFn f).get i = f i := by
  rcases i with (_ | _ | _ | _ | _ | _ | _ | _ | _ | _) | _ | _ <;> rfl

@[simp] theorem PerChan.get_all (x : α) (i : Chan) : (PerChan.all x).get i = x := by
  simp [PerChan.all]

theorem PerChan.get_set (t : PerChan α) (i j : Chan) (x : α) :
    (t.set i x).get j = if j = i then x else t.get j := by
  simp [PerChan.set]

@[simp] theorem PerChan.get_set_self (t : PerChan α) (i : Chan) (x : α) : (t.set i x).get i = x := by
  simp [PerChan.set]

theorem PerChan.get_set_ne (t : PerChan α) (i j : Chan) (x : α) (h : j ≠ i) :
    (t.set i x).get j = t.get j := by
  simp [PerChan.set, h]

theorem PerChan.get_upd (t : PerChan α) (i j : Chan) (f : α → α) :
    (t.upd i f).get j = if j = i then f (t.get i) else t.get j := by
  simp [PerChan.upd, PerChan.set]

@[simp] theorem PerChan.get_upd_self (t : PerChan α) (i : Chan) (f : α → α) : (t.upd i f).get i = f (t.get i) := by
  simp [PerChan.upd]

theorem PerChan.get_upd_ne (t : PerChan α) (i j : Chan) (f : α → α) (h : j ≠ i) :
    (t.upd i f).get j = t.get j := by
  simp [PerChan.upd, PerChan.set, h]

/-- A table is the items it gives. -/
theorem PerChan.ext_get (t u : PerChan α) (h : ∀ i, t.get i = u.get i) : t = u := by
  cases t
  cases u
  simp only [PerChan.mk.injEq]
  exact ⟨h (.main .fl), h (.main .fr), h (.main .c), h (.main .sw), h (.main .sl), h (.main .sr), h (.main .bl), h (.main .br), h (.main .tl), h (.main .tr), h .zl, h .zr⟩

@[simp] theorem PerChan.set_get (t : PerChan α) (i : Chan) : t.set i (t.get i) = t := by
  apply PerChan.ext_get
  intro j
  by_cases h : j = i <;> simp [PerChan.get_set, h]

/-! ### PerSource -/

@[simp] theorem PerSource.get_ofFn (f : Source → α) (i : Source) : (PerSource.ofFn f).get i = f i := by
  rcases i with (_ | _ | _ | _) | (_ | _) | _ <;> rfl

@[simp] theorem PerSource.get_all (x : α) (i : Source) : (PerSource.all x).get i = x := by
  simp [PerSource.all]

theorem PerSource.get_set (t : PerSource α) (i j : Source) (x : α) :
    (t.set i x).get j = if j = i then x else t.get j := by
  simp [PerSource.set]

@[simp] theorem PerSource.get_set_self (t : PerSource α) (i : Source) (x : α) : (t.set i x).get i = x := by
  simp [PerSource.set]

theorem PerSource.get_set_ne (t : PerSource α) (i j : Source) (x : α) (h : j ≠ i) :
    (t.set i x).get j = t.get j := by
  simp [PerSource.set, h]

theorem PerSource.get_upd (t : PerSource α) (i j : Source) (f : α → α) :
    (t.upd i f).get j = if j = i then f (t.get i) else t.get j := by
  simp [PerSource.upd, PerSource.set]

@[simp] theorem PerSource.get_upd_self (t : PerSource α) (i : Source) (f : α → α) : (t.upd i f).get i = f (t.get i) := by
  simp [PerSource.upd]

theorem PerSource.get_upd_ne (t : PerSource α) (i j : Source) (f : α → α) (h : j ≠ i) :
    (t.upd i f).get j = t.get j := by
  simp [PerSource.upd, PerSource.set, h]

/-- A table is the items it gives. -/
theorem PerSource.ext_get (t u : PerSource α) (h : ∀ i, t.get i = u.get i) : t = u := by
  cases t
  cases u
  simp only [PerSource.mk.injEq]
  exact ⟨h (.sa .sa1), h (.sa .sa2), h (.sa .sa3), h (.sa .sa4), h (.ms .ms1), h (.ms .ms2), h .tuner⟩

@[simp] theorem PerSource.set_get (t : PerSource α) (i : Source) : t.set i (t.get i) = t := by
  apply PerSource.ext_get
  intro j
  by_cases h : j = i <;> simp [PerSource.get_set, h]

end Sys2Proof.Machine
end

