-- ==== Sys2Proof/Laws/Marks.lean ====
section
/-! SUPPORT. What the shared operations over marks, causes, the write-back queue and publication do,
said once: every effect, and what stays. -/

set_option autoImplicit false

namespace Sys2Proof.Machine

/-! ### Dirty marks (R16) -/

/-- Adding a record adds it and nothing else. -/
@[simp] theorem mem_insertRec (r x : Rec) (rs : List Rec) : x ∈ insertRec r rs ↔ x = r ∨ x ∈ rs := by
  induction rs with
  | nil => simp [insertRec]
  | cons y ys ih =>
    simp only [insertRec]
    by_cases h : y = r
    · simp only [h, if_true, List.mem_cons]
      tauto
    · simp only [h, if_false]
      split
      · simp only [List.mem_cons]
      · simp only [List.mem_cons, ih]
        tauto

/-- Marking several records changes the marks alone. -/
theorem markAll_eq (rs : List Rec) (s : State) :
    markAll rs s = { s with dirty := rs.foldl (fun d r => insertRec r d) s.dirty } := by
  induction rs generalizing s with
  | nil => rfl
  | cons r rs ih => exact ih (markDirty r s)

/-- Marking several records marks them and no other. -/
@[simp] theorem mem_markAll_dirty (rs : List Rec) (x : Rec) (s : State) :
    x ∈ (markAll rs s).dirty ↔ x ∈ rs ∨ x ∈ s.dirty := by
  induction rs generalizing s with
  | nil => simp [markAll]
  | cons r rs ih =>
    have := ih (markDirty r s)
    simp only [markAll, List.foldl_cons, List.mem_cons] at this ⊢
    rw [this]
    simp only [markDirty_dirty, mem_insertRec]
    tauto

/-! ### Causes (R18) -/

/-- A bit that is already set stays. -/
theorem or_of_and_bit (p : Word) (k : Nat) (hk : k < 16) (h : p &&& (1#16 <<< k) ≠ 0) :
    p ||| (1#16 <<< k) = p := by
  have hp : p.getLsbD k = true := by
    by_contra hn
    apply h
    apply BitVec.eq_of_getLsbD_eq
    intro i hi
    simp only [BitVec.getLsbD_and, BitVec.getLsbD_shiftLeft, BitVec.getLsbD_one]
    by_cases e : i = k
    · subst e
      simp [hn]
    · simp [hi]
      omega
  apply BitVec.eq_of_getLsbD_eq
  intro i hi
  simp only [BitVec.getLsbD_or, BitVec.getLsbD_shiftLeft, BitVec.getLsbD_one]
  by_cases e : i = k
  · subst e
    simp [hp]
  · simp [hi]
    omega

/-- Every cause has a bit of the sixteen. -/
theorem causeBit_lt (c : Cause) : causeBit c < 16 := by cases c <;> decide

/-- A raised cause's bit joins the pending set. -/
@[simp] theorem raise_att (c : Cause) (s : State) :
    (raise c s).att = { s.att with pending := s.att.pending ||| causeMask c } := by
  unfold raise
  split
  · rfl
  · rename_i h
    have := or_of_and_bit s.att.pending (causeBit c) (causeBit_lt c) h
    simp only [causeMask, this]

/-- The attention record is marked exactly when the pending set changes. -/
theorem mem_raise_dirty (c : Cause) (x : Rec) (s : State) :
    x ∈ (raise c s).dirty ↔ x ∈ s.dirty ∨ (x = .attention ∧ s.att.pending &&& causeMask c = 0) := by
  unfold raise
  split
  · rename_i h
    simp only [markDirty_dirty, mem_insertRec, h, and_true, or_comm]
  · rename_i h
    exact ⟨Or.inl, fun e => e.elim id fun e => absurd e.2 h⟩

/-- Raising a cause, as one update. -/
theorem raise_eq (c : Cause) (s : State) :
    raise c s =
      { s with att := { s.att with pending := s.att.pending ||| causeMask c }, dirty := (raise c s).dirty } := by
  apply State.ext_fields <;> simp

/-! ### Write-backs (R10) -/

/-- A request joins the tail of the queue unless it is there. -/
@[simp] theorem requestWriteBack_agent (sl : Slot) (s : State) :
    (requestWriteBack sl s).agent =
      { s.agent with queue := if sl ∈ s.agent.queue then s.agent.queue else s.agent.queue ++ [sl] } := by
  unfold requestWriteBack
  split <;> rfl

/-- Requesting a write-back, as one update. -/
theorem requestWriteBack_eq (sl : Slot) (s : State) :
    requestWriteBack sl s =
      { s with
        agent :=
          { s.agent with queue := if sl ∈ s.agent.queue then s.agent.queue else s.agent.queue ++ [sl] } } := by
  unfold requestWriteBack
  split <;> rfl

/-! ### Publication (R16) -/

/-- A record is published exactly when it is no stream record and its content differs. -/
theorem mem_changedRecords (s s' : State) (r : Rec) :
    r ∈ changedRecords s s' ↔ r.isStream = false ∧ recWords s r ≠ recWords s' r := by
  have hall : r ∈ records := by
    cases r with
    | zone z => cases z <;> decide
    | source x => rcases x with (_ | _ | _ | _) | (_ | _) | _ <;> decide
    | stream m => cases m <;> decide
    | meter c => rcases c with (_ | _ | _ | _ | _ | _ | _ | _ | _ | _) | _ | _ <;> decide
    | module m => cases m <;> decide
    | _ => decide
  simp [changedRecords, hall]

/-- Publication changes the marks and the attention state alone. -/
theorem publish_eq (s s' : State) :
    publish s s' = { s' with att := (publish s s').att, dirty := (publish s s').dirty } := by
  unfold publish
  simp only [markAll_eq]
  split
  · rw [raise_eq]
  · rfl

/-- Publication leaves every field but the marks and the attention state. -/
@[simp] theorem publish_fields (s s' : State) :
    (publish s s').pending = s'.pending ∧ (publish s s').rstnLow = s'.rstnLow ∧
      (publish s s').strap = s'.strap ∧ (publish s s').mem = s'.mem ∧ (publish s s').readData = s'.readData ∧
      (publish s s').agent = s'.agent ∧ (publish s s').meterTimer = s'.meterTimer ∧
      (publish s s').answers = s'.answers ∧ (publish s s').sa = s'.sa ∧ (publish s s').ms = s'.ms ∧
      (publish s s').zones = s'.zones ∧ (publish s s').view = s'.view ∧ (publish s s').dec = s'.dec ∧
      (publish s s').bass = s'.bass ∧ (publish s s').gain = s'.gain ∧ (publish s s').knob = s'.knob ∧
      (publish s s').pool = s'.pool ∧ (publish s s').mods = s'.mods ∧ (publish s s').clock = s'.clock ∧
      (publish s s').audioStarted = s'.audioStarted ∧ (publish s s').lock = s'.lock ∧
      (publish s s').links = s'.links ∧ (publish s s').meas = s'.meas ∧ (publish s s').fe = s'.fe ∧
      (publish s s').tun = s'.tun ∧ (publish s s').sd = s'.sd ∧ (publish s s').free = s'.free := by
  rw [publish_eq]
  simp only [and_self]

/-- Content of a record does not depend on the marks or the attention state, the attention record's
apart. -/
theorem recWords_att_dirty (s : State) (a : Attention) (d : List Rec) (r : Rec) (h : r ≠ .attention) :
    recWords { s with att := a, dirty := d } r = recWords s r := by
  cases r with
  | attention => exact absurd rfl h
  | zone z => cases z <;> rfl
  | source x => cases x <;> rfl
  | _ => rfl

/-- Where no record of the station data decoder changes, publication leaves the attention state. -/
theorem publish_att (s s' : State) (h : s'.sd = s.sd) : (publish s s').att = s'.att := by
  have hn : (changedRecords s s').any Rec.isStation = false := by
    rw [List.any_eq_false]
    intro r hr
    rw [mem_changedRecords] at hr
    cases r <;> simp_all [recWords, summaryWords, nameWords, textWords, afWords, Rec.isStation]
  unfold publish
  simp only [hn, Bool.false_eq_true, if_false, markAll_eq]

/-- The marks after publication, where the attention state stays: those before, and the published
records. -/
theorem mem_publish_dirty (s s' : State) (h : s'.sd = s.sd) (r : Rec) :
    r ∈ (publish s s').dirty ↔
      r ∈ s'.dirty ∨ (r.isStream = false ∧ recWords s r ≠ recWords (publish s s') r) := by
  have ha := publish_att s s' h
  have hw : recWords (publish s s') r = recWords s' r := by
    rw [publish_eq, ha]
    by_cases hr : r = .attention
    · subst hr; rfl
    · exact recWords_att_dirty s' s'.att _ r hr
  rw [hw, ← mem_changedRecords]
  have hn : (changedRecords s s').any Rec.isStation = false := by
    rw [List.any_eq_false]
    intro r hr
    rw [mem_changedRecords] at hr
    cases r <;> simp_all [recWords, summaryWords, nameWords, textWords, afWords, Rec.isStation]
  unfold publish
  simp only [hn, Bool.false_eq_true, if_false, mem_markAll_dirty]
  tauto

/-- A record that is no stream record and whose content a step changes is marked (R16). -/
theorem changed_mem_publish (s s' : State) (r : Rec) (hs : r.isStream = false)
    (h : recWords s r ≠ recWords (publish s s') r) : r ∈ (publish s s').dirty := by
  by_cases hc : recWords s r = recWords s' r
  · by_cases hr : r = .attention
    · subst hr
      unfold publish at h ⊢
      simp only at h ⊢
      split at h
      · rename_i hst
        simp only [hst, if_true, mem_markAll_dirty]
        right
        rw [mem_raise_dirty]
        by_cases hb : s'.att.pending &&& causeMask .station = 0
        · exact Or.inr ⟨rfl, hb⟩
        · exfalso
          apply h
          have hu : raise .station s' = s' := by
            unfold raise
            rw [if_neg hb]
          rw [hu, markAll_eq, hc]
          rfl
      · exfalso
        apply h
        rw [markAll_eq, hc]
        rfl
    · exfalso
      apply h
      rw [publish_eq]
      exact hc.trans (recWords_att_dirty s' _ _ r hr).symm
  · have hm : r ∈ changedRecords s s' := (mem_changedRecords s s' r).mpr ⟨hs, hc⟩
    unfold publish
    simp only [mem_markAll_dirty, hm, true_or]

/-- The attention state after publication: STATION joins the pending set when a record of the station
data decoder changes (R189). -/
theorem publish_att_eq (s s' : State) :
    (publish s s').att =
      if (changedRecords s s').any Rec.isStation = true then
        { s'.att with pending := s'.att.pending ||| causeMask .station }
      else s'.att := by
  unfold publish
  simp only [markAll_eq]
  split <;> simp

/-- The marks after publication, where the step does not take STATION from the pending set: those
before, and the records whose content differs in the end. -/
theorem publish_exact (s s' : State)
    (hst : s.att.pending &&& causeMask .station ≠ 0 → s'.att.pending &&& causeMask .station ≠ 0) (r : Rec) :
    r ∈ (publish s s').dirty ↔
      r ∈ s'.dirty ∨ (r.isStream = false ∧ recWords s r ≠ recWords (publish s s') r) := by
  constructor
  · intro h
    have h0 := h
    unfold publish at h
    simp only [mem_markAll_dirty] at h
    rcases h with h | h
    · rw [mem_changedRecords] at h
      right
      refine ⟨h.1, ?_⟩
      by_cases hr : r = .attention
      · subst hr
        have ha := publish_att_eq s s'
        by_cases hc : (changedRecords s s').any Rec.isStation = true
        · rw [if_pos hc] at ha
          simp only [recWords, attentionWords, ha]
          intro e
          apply h.2
          simp only [List.cons.injEq, and_true] at e
          simp only [recWords, attentionWords, List.cons.injEq, and_true]
          refine ⟨?_, e.2⟩
          have hb : s.att.pending &&& causeMask .station ≠ 0 := by
            rw [e.1]
            intro hz
            have := congrArg (fun x : Word => x.getLsbD 9) hz
            simp [causeMask, causeBit] at this
          have hb' := hst hb
          rw [e.1]
          exact or_of_and_bit s'.att.pending 9 (by decide) hb'
        · rw [if_neg hc] at ha
          simp only [recWords, attentionWords, ha]
          exact h.2
      · rw [publish_eq]
        intro e
        exact h.2 (e.trans (recWords_att_dirty s' _ _ r hr))
    · split at h
      · rename_i hc
        rw [mem_raise_dirty] at h
        rcases h with h | ⟨rfl, hb⟩
        · exact Or.inl h
        · right
          refine ⟨rfl, ?_⟩
          have ha := publish_att_eq s s'
          rw [if_pos hc] at ha
          simp only [recWords, attentionWords, ha]
          intro e
          simp only [List.cons.injEq, and_true] at e
          have h1 : s.att.pending &&& causeMask .station ≠ 0 := by
            rw [e.1]
            intro hz
            have := congrArg (fun x : Word => x.getLsbD 9) hz
            simp [causeMask, causeBit] at this
          exact hst h1 hb
      · exact Or.inl h
  · rintro (h | ⟨h1, h2⟩)
    · unfold publish
      simp only [mem_markAll_dirty]
      right
      split
      · rw [mem_raise_dirty]
        exact Or.inl h
      · exact h
    · exact changed_mem_publish s s' r h1 h2

/-- Marks that stood before publication stand after it. -/
theorem dirty_mem_publish (s s' : State) (r : Rec) (h : r ∈ s'.dirty) : r ∈ (publish s s').dirty := by
  unfold publish
  simp only [mem_markAll_dirty]
  right
  split
  · rw [mem_raise_dirty]
    exact Or.inl h
  · exact h

end Sys2Proof.Machine
end

