-- ==== Sys2Proof/Laws/Frames.lean ====
section
/-! SUPPORT. What each shared operation leaves alone, said once for all the fields it does not touch.
Each lemma is a conjunction of equations, one for each field, and simp uses them all. -/

set_option autoImplicit false
set_option linter.unusedTactic false
set_option linter.unnecessarySeqFocus false
set_option linter.unreachableTactic false

namespace Sys2Proof.Machine

@[simp] theorem markAll_fields (rs : List Rec) (s : State) :
    (markAll rs s).pending = s.pending ∧ (markAll rs s).rstnLow = s.rstnLow ∧
      (markAll rs s).strap = s.strap ∧ (markAll rs s).mem = s.mem ∧ (markAll rs s).readData = s.readData ∧
      (markAll rs s).agent = s.agent ∧ (markAll rs s).att = s.att ∧
      (markAll rs s).meterTimer = s.meterTimer ∧ (markAll rs s).answers = s.answers ∧
      (markAll rs s).sa = s.sa ∧ (markAll rs s).ms = s.ms ∧ (markAll rs s).zones = s.zones ∧
      (markAll rs s).view = s.view ∧ (markAll rs s).dec = s.dec ∧ (markAll rs s).bass = s.bass ∧
      (markAll rs s).gain = s.gain ∧ (markAll rs s).knob = s.knob ∧ (markAll rs s).pool = s.pool ∧
      (markAll rs s).mods = s.mods ∧ (markAll rs s).clock = s.clock ∧
      (markAll rs s).audioStarted = s.audioStarted ∧ (markAll rs s).lock = s.lock ∧
      (markAll rs s).links = s.links ∧ (markAll rs s).meas = s.meas ∧ (markAll rs s).fe = s.fe ∧
      (markAll rs s).tun = s.tun ∧ (markAll rs s).sd = s.sd ∧ (markAll rs s).free = s.free := by simp [markAll_eq]

/-- A moved zone record changes the zones and the marks alone (R50). -/
@[simp] theorem moveZone_fields (z : Zone) (f : ZoneRec → ZoneRec) (s : State) :
    (moveZone z f s).pending = s.pending ∧ (moveZone z f s).rstnLow = s.rstnLow ∧ (moveZone z f s).strap
      = s.strap ∧ (moveZone z f s).mem = s.mem ∧ (moveZone z f s).readData = s.readData ∧ (moveZone z f
      s).agent = s.agent ∧ (moveZone z f s).att = s.att ∧ (moveZone z f s).meterTimer = s.meterTimer ∧
      (moveZone z f s).answers = s.answers ∧ (moveZone z f s).sa = s.sa ∧ (moveZone z f s).ms = s.ms ∧
      (moveZone z f s).view = s.view ∧ (moveZone z f s).dec = s.dec ∧ (moveZone z f s).bass = s.bass ∧
      (moveZone z f s).gain = s.gain ∧ (moveZone z f s).knob = s.knob ∧ (moveZone z f s).pool = s.pool ∧
      (moveZone z f s).mods = s.mods ∧ (moveZone z f s).clock = s.clock ∧ (moveZone z f s).audioStarted =
      s.audioStarted ∧ (moveZone z f s).lock = s.lock ∧ (moveZone z f s).links = s.links ∧ (moveZone z f
      s).meas = s.meas ∧ (moveZone z f s).fe = s.fe ∧ (moveZone z f s).tun = s.tun ∧ (moveZone z f s).sd =
      s.sd ∧ (moveZone z f s).free = s.free := by
  unfold moveZone
  simp

/-- The zones after a moved zone record. -/
@[simp] theorem moveZone_zones (z : Zone) (f : ZoneRec → ZoneRec) (s : State) :
    (moveZone z f s).zones = s.zones.upd z f := by
  unfold moveZone
  simp

/-- The marks after a moved zone record: a change of the zone's state marks its record (R50). -/
theorem mem_moveZone_dirty (z : Zone) (f : ZoneRec → ZoneRec) (s : State) (x : Rec) :
    x ∈ (moveZone z f s).dirty ↔
      x ∈ s.dirty ∨ (x = .zone z ∧ (f (s.zones.get z)).state ≠ (s.zones.get z).state) := by
  unfold moveZone
  by_cases h : (f (s.zones.get z)).state = (s.zones.get z).state <;> simp [h, or_comm]


@[simp] theorem answerSystem_fields (a : Answer) (s : State) :
    (answerSystem a s).pending = s.pending ∧ (answerSystem a s).rstnLow = s.rstnLow ∧
      (answerSystem a s).strap = s.strap ∧ (answerSystem a s).mem = s.mem ∧
      (answerSystem a s).readData = s.readData ∧ (answerSystem a s).att = s.att ∧
      (answerSystem a s).dirty = s.dirty ∧ (answerSystem a s).meterTimer = s.meterTimer ∧
      (answerSystem a s).sa = s.sa ∧ (answerSystem a s).ms = s.ms ∧ (answerSystem a s).zones = s.zones ∧
      (answerSystem a s).view = s.view ∧ (answerSystem a s).dec = s.dec ∧ (answerSystem a s).bass = s.bass ∧
      (answerSystem a s).gain = s.gain ∧ (answerSystem a s).knob = s.knob ∧
      (answerSystem a s).pool = s.pool ∧ (answerSystem a s).mods = s.mods ∧
      (answerSystem a s).clock = s.clock ∧ (answerSystem a s).audioStarted = s.audioStarted ∧
      (answerSystem a s).lock = s.lock ∧ (answerSystem a s).links = s.links ∧
      (answerSystem a s).meas = s.meas ∧ (answerSystem a s).fe = s.fe ∧ (answerSystem a s).tun = s.tun ∧
      (answerSystem a s).sd = s.sd ∧ (answerSystem a s).free = s.free := by
  unfold answerSystem
  try dsimp only
  (repeat' split) <;> simp

@[simp] theorem answerStream_fields (m : StreamId) (a : Answer) (s : State) :
    (answerStream m a s).pending = s.pending ∧ (answerStream m a s).rstnLow = s.rstnLow ∧
      (answerStream m a s).strap = s.strap ∧ (answerStream m a s).mem = s.mem ∧
      (answerStream m a s).readData = s.readData ∧ (answerStream m a s).att = s.att ∧
      (answerStream m a s).dirty = s.dirty ∧ (answerStream m a s).meterTimer = s.meterTimer ∧
      (answerStream m a s).sa = s.sa ∧ (answerStream m a s).ms = s.ms ∧
      (answerStream m a s).zones = s.zones ∧ (answerStream m a s).view = s.view ∧
      (answerStream m a s).dec = s.dec ∧ (answerStream m a s).bass = s.bass ∧
      (answerStream m a s).gain = s.gain ∧ (answerStream m a s).knob = s.knob ∧
      (answerStream m a s).pool = s.pool ∧ (answerStream m a s).mods = s.mods ∧
      (answerStream m a s).clock = s.clock ∧ (answerStream m a s).audioStarted = s.audioStarted ∧
      (answerStream m a s).lock = s.lock ∧ (answerStream m a s).links = s.links ∧
      (answerStream m a s).meas = s.meas ∧ (answerStream m a s).fe = s.fe ∧
      (answerStream m a s).tun = s.tun ∧ (answerStream m a s).sd = s.sd ∧ (answerStream m a s).free = s.free := by
  unfold answerStream
  try dsimp only
  (repeat' split) <;> simp

@[simp] theorem answerModule_fields (a : Answer) (s : State) :
    (answerModule a s).pending = s.pending ∧ (answerModule a s).rstnLow = s.rstnLow ∧
      (answerModule a s).strap = s.strap ∧ (answerModule a s).mem = s.mem ∧
      (answerModule a s).readData = s.readData ∧ (answerModule a s).att = s.att ∧
      (answerModule a s).dirty = s.dirty ∧ (answerModule a s).meterTimer = s.meterTimer ∧
      (answerModule a s).sa = s.sa ∧ (answerModule a s).ms = s.ms ∧ (answerModule a s).zones = s.zones ∧
      (answerModule a s).view = s.view ∧ (answerModule a s).dec = s.dec ∧ (answerModule a s).bass = s.bass ∧
      (answerModule a s).gain = s.gain ∧ (answerModule a s).knob = s.knob ∧
      (answerModule a s).pool = s.pool ∧ (answerModule a s).mods = s.mods ∧
      (answerModule a s).clock = s.clock ∧ (answerModule a s).audioStarted = s.audioStarted ∧
      (answerModule a s).lock = s.lock ∧ (answerModule a s).links = s.links ∧
      (answerModule a s).meas = s.meas ∧ (answerModule a s).fe = s.fe ∧ (answerModule a s).tun = s.tun ∧
      (answerModule a s).sd = s.sd ∧ (answerModule a s).free = s.free := by
  unfold answerModule
  try dsimp only
  (repeat' split) <;> simp

@[simp] theorem answerMeasure_fields (a : Answer) (s : State) :
    (answerMeasure a s).pending = s.pending ∧ (answerMeasure a s).rstnLow = s.rstnLow ∧
      (answerMeasure a s).strap = s.strap ∧ (answerMeasure a s).mem = s.mem ∧
      (answerMeasure a s).readData = s.readData ∧ (answerMeasure a s).att = s.att ∧
      (answerMeasure a s).dirty = s.dirty ∧ (answerMeasure a s).meterTimer = s.meterTimer ∧
      (answerMeasure a s).sa = s.sa ∧ (answerMeasure a s).ms = s.ms ∧ (answerMeasure a s).zones = s.zones ∧
      (answerMeasure a s).view = s.view ∧ (answerMeasure a s).dec = s.dec ∧
      (answerMeasure a s).bass = s.bass ∧ (answerMeasure a s).gain = s.gain ∧
      (answerMeasure a s).knob = s.knob ∧ (answerMeasure a s).pool = s.pool ∧
      (answerMeasure a s).mods = s.mods ∧ (answerMeasure a s).clock = s.clock ∧
      (answerMeasure a s).audioStarted = s.audioStarted ∧ (answerMeasure a s).lock = s.lock ∧
      (answerMeasure a s).links = s.links ∧ (answerMeasure a s).meas = s.meas ∧
      (answerMeasure a s).fe = s.fe ∧ (answerMeasure a s).tun = s.tun ∧ (answerMeasure a s).sd = s.sd ∧
      (answerMeasure a s).free = s.free := by
  unfold answerMeasure
  try dsimp only
  (repeat' split) <;> simp

@[simp] theorem answerTuner_fields (a : Answer) (s : State) :
    (answerTuner a s).pending = s.pending ∧ (answerTuner a s).rstnLow = s.rstnLow ∧
      (answerTuner a s).strap = s.strap ∧ (answerTuner a s).mem = s.mem ∧
      (answerTuner a s).readData = s.readData ∧ (answerTuner a s).att = s.att ∧
      (answerTuner a s).dirty = s.dirty ∧ (answerTuner a s).meterTimer = s.meterTimer ∧
      (answerTuner a s).sa = s.sa ∧ (answerTuner a s).ms = s.ms ∧ (answerTuner a s).zones = s.zones ∧
      (answerTuner a s).view = s.view ∧ (answerTuner a s).dec = s.dec ∧ (answerTuner a s).bass = s.bass ∧
      (answerTuner a s).gain = s.gain ∧ (answerTuner a s).knob = s.knob ∧ (answerTuner a s).pool = s.pool ∧
      (answerTuner a s).mods = s.mods ∧ (answerTuner a s).clock = s.clock ∧
      (answerTuner a s).audioStarted = s.audioStarted ∧ (answerTuner a s).lock = s.lock ∧
      (answerTuner a s).links = s.links ∧ (answerTuner a s).meas = s.meas ∧ (answerTuner a s).fe = s.fe ∧
      (answerTuner a s).tun = s.tun ∧ (answerTuner a s).sd = s.sd ∧ (answerTuner a s).free = s.free := by
  unfold answerTuner
  try dsimp only
  (repeat' split) <;> simp

@[simp] theorem slewAll_fields (s : State) :
    (slewAll s).pending = s.pending ∧ (slewAll s).rstnLow = s.rstnLow ∧ (slewAll s).strap = s.strap ∧
      (slewAll s).mem = s.mem ∧ (slewAll s).readData = s.readData ∧ (slewAll s).agent = s.agent ∧
      (slewAll s).att = s.att ∧ (slewAll s).dirty = s.dirty ∧ (slewAll s).meterTimer = s.meterTimer ∧
      (slewAll s).answers = s.answers ∧ (slewAll s).sa = s.sa ∧ (slewAll s).ms = s.ms ∧
      (slewAll s).zones = s.zones ∧ (slewAll s).view = s.view ∧ (slewAll s).dec = s.dec ∧
      (slewAll s).bass = s.bass ∧ (slewAll s).knob = s.knob ∧ (slewAll s).pool = s.pool ∧
      (slewAll s).mods = s.mods ∧ (slewAll s).clock = s.clock ∧ (slewAll s).audioStarted = s.audioStarted ∧
      (slewAll s).lock = s.lock ∧ (slewAll s).links = s.links ∧ (slewAll s).meas = s.meas ∧
      (slewAll s).fe = s.fe ∧ (slewAll s).tun = s.tun ∧ (slewAll s).sd = s.sd ∧ (slewAll s).free = s.free := by
  unfold slewAll
  try dsimp only
  (repeat' split) <;> simp

@[simp] theorem floorChans_fields (p : Chan → Bool) (s : State) :
    (floorChans p s).pending = s.pending ∧ (floorChans p s).rstnLow = s.rstnLow ∧
      (floorChans p s).strap = s.strap ∧ (floorChans p s).mem = s.mem ∧
      (floorChans p s).readData = s.readData ∧ (floorChans p s).agent = s.agent ∧
      (floorChans p s).att = s.att ∧ (floorChans p s).dirty = s.dirty ∧
      (floorChans p s).meterTimer = s.meterTimer ∧ (floorChans p s).answers = s.answers ∧
      (floorChans p s).sa = s.sa ∧ (floorChans p s).ms = s.ms ∧ (floorChans p s).zones = s.zones ∧
      (floorChans p s).view = s.view ∧ (floorChans p s).dec = s.dec ∧ (floorChans p s).bass = s.bass ∧
      (floorChans p s).knob = s.knob ∧ (floorChans p s).pool = s.pool ∧ (floorChans p s).mods = s.mods ∧
      (floorChans p s).clock = s.clock ∧ (floorChans p s).audioStarted = s.audioStarted ∧
      (floorChans p s).lock = s.lock ∧ (floorChans p s).links = s.links ∧ (floorChans p s).meas = s.meas ∧
      (floorChans p s).fe = s.fe ∧ (floorChans p s).tun = s.tun ∧ (floorChans p s).sd = s.sd ∧
      (floorChans p s).free = s.free := by
  unfold floorChans
  try dsimp only
  (repeat' split) <;> simp

@[simp] theorem floorZone_fields (z : Zone) (s : State) :
    (floorZone z s).pending = s.pending ∧ (floorZone z s).rstnLow = s.rstnLow ∧
      (floorZone z s).strap = s.strap ∧ (floorZone z s).mem = s.mem ∧ (floorZone z s).readData = s.readData ∧
      (floorZone z s).agent = s.agent ∧ (floorZone z s).att = s.att ∧ (floorZone z s).dirty = s.dirty ∧
      (floorZone z s).meterTimer = s.meterTimer ∧ (floorZone z s).answers = s.answers ∧
      (floorZone z s).sa = s.sa ∧ (floorZone z s).ms = s.ms ∧ (floorZone z s).zones = s.zones ∧
      (floorZone z s).view = s.view ∧ (floorZone z s).dec = s.dec ∧ (floorZone z s).bass = s.bass ∧
      (floorZone z s).knob = s.knob ∧ (floorZone z s).pool = s.pool ∧ (floorZone z s).mods = s.mods ∧
      (floorZone z s).clock = s.clock ∧ (floorZone z s).audioStarted = s.audioStarted ∧
      (floorZone z s).lock = s.lock ∧ (floorZone z s).links = s.links ∧ (floorZone z s).meas = s.meas ∧
      (floorZone z s).fe = s.fe ∧ (floorZone z s).tun = s.tun ∧ (floorZone z s).sd = s.sd ∧
      (floorZone z s).free = s.free := by
  unfold floorZone
  try dsimp only
  (repeat' split) <;> simp

@[simp] theorem floorModule_fields (m : AmpModule) (s : State) :
    (floorModule m s).pending = s.pending ∧ (floorModule m s).rstnLow = s.rstnLow ∧
      (floorModule m s).strap = s.strap ∧ (floorModule m s).mem = s.mem ∧
      (floorModule m s).readData = s.readData ∧ (floorModule m s).agent = s.agent ∧
      (floorModule m s).att = s.att ∧ (floorModule m s).dirty = s.dirty ∧
      (floorModule m s).meterTimer = s.meterTimer ∧ (floorModule m s).answers = s.answers ∧
      (floorModule m s).sa = s.sa ∧ (floorModule m s).ms = s.ms ∧ (floorModule m s).zones = s.zones ∧
      (floorModule m s).view = s.view ∧ (floorModule m s).dec = s.dec ∧ (floorModule m s).bass = s.bass ∧
      (floorModule m s).knob = s.knob ∧ (floorModule m s).pool = s.pool ∧ (floorModule m s).mods = s.mods ∧
      (floorModule m s).clock = s.clock ∧ (floorModule m s).audioStarted = s.audioStarted ∧
      (floorModule m s).lock = s.lock ∧ (floorModule m s).links = s.links ∧ (floorModule m s).meas = s.meas ∧
      (floorModule m s).fe = s.fe ∧ (floorModule m s).tun = s.tun ∧ (floorModule m s).sd = s.sd ∧
      (floorModule m s).free = s.free := by
  unfold floorModule
  try dsimp only
  (repeat' split) <;> simp

@[simp] theorem volumeArrival_fields (z : Zone) (v : Int) (s : State) :
    (volumeArrival z v s).pending = s.pending ∧ (volumeArrival z v s).rstnLow = s.rstnLow ∧
      (volumeArrival z v s).strap = s.strap ∧ (volumeArrival z v s).mem = s.mem ∧
      (volumeArrival z v s).readData = s.readData ∧ (volumeArrival z v s).att = s.att ∧
      (volumeArrival z v s).dirty = s.dirty ∧ (volumeArrival z v s).meterTimer = s.meterTimer ∧
      (volumeArrival z v s).answers = s.answers ∧ (volumeArrival z v s).sa = s.sa ∧
      (volumeArrival z v s).ms = s.ms ∧ (volumeArrival z v s).zones = s.zones ∧
      (volumeArrival z v s).view = s.view ∧ (volumeArrival z v s).dec = s.dec ∧
      (volumeArrival z v s).bass = s.bass ∧ (volumeArrival z v s).knob = s.knob ∧
      (volumeArrival z v s).pool = s.pool ∧ (volumeArrival z v s).mods = s.mods ∧
      (volumeArrival z v s).clock = s.clock ∧ (volumeArrival z v s).audioStarted = s.audioStarted ∧
      (volumeArrival z v s).lock = s.lock ∧ (volumeArrival z v s).links = s.links ∧
      (volumeArrival z v s).meas = s.meas ∧ (volumeArrival z v s).fe = s.fe ∧
      (volumeArrival z v s).tun = s.tun ∧ (volumeArrival z v s).sd = s.sd ∧
      (volumeArrival z v s).free = s.free := by
  unfold volumeArrival
  try dsimp only
  (repeat' split) <;> simp

@[simp] theorem muteArrival_fields (z : Zone) (on : Bool) (s : State) :
    (muteArrival z on s).pending = s.pending ∧ (muteArrival z on s).rstnLow = s.rstnLow ∧
      (muteArrival z on s).strap = s.strap ∧ (muteArrival z on s).mem = s.mem ∧
      (muteArrival z on s).readData = s.readData ∧ (muteArrival z on s).agent = s.agent ∧
      (muteArrival z on s).att = s.att ∧ (muteArrival z on s).dirty = s.dirty ∧
      (muteArrival z on s).meterTimer = s.meterTimer ∧ (muteArrival z on s).answers = s.answers ∧
      (muteArrival z on s).sa = s.sa ∧ (muteArrival z on s).ms = s.ms ∧
      (muteArrival z on s).zones = s.zones ∧ (muteArrival z on s).view = s.view ∧
      (muteArrival z on s).dec = s.dec ∧ (muteArrival z on s).bass = s.bass ∧
      (muteArrival z on s).knob = s.knob ∧ (muteArrival z on s).pool = s.pool ∧
      (muteArrival z on s).mods = s.mods ∧ (muteArrival z on s).clock = s.clock ∧
      (muteArrival z on s).audioStarted = s.audioStarted ∧ (muteArrival z on s).lock = s.lock ∧
      (muteArrival z on s).links = s.links ∧ (muteArrival z on s).meas = s.meas ∧
      (muteArrival z on s).fe = s.fe ∧ (muteArrival z on s).tun = s.tun ∧ (muteArrival z on s).sd = s.sd ∧
      (muteArrival z on s).free = s.free := by
  unfold muteArrival
  try dsimp only
  (repeat' split) <;> simp

@[simp] theorem maxVolumeArrival_fields (z : Zone) (m : Int) (s : State) :
    (maxVolumeArrival z m s).pending = s.pending ∧ (maxVolumeArrival z m s).rstnLow = s.rstnLow ∧
      (maxVolumeArrival z m s).strap = s.strap ∧ (maxVolumeArrival z m s).mem = s.mem ∧
      (maxVolumeArrival z m s).readData = s.readData ∧ (maxVolumeArrival z m s).att = s.att ∧
      (maxVolumeArrival z m s).dirty = s.dirty ∧ (maxVolumeArrival z m s).meterTimer = s.meterTimer ∧
      (maxVolumeArrival z m s).answers = s.answers ∧ (maxVolumeArrival z m s).sa = s.sa ∧
      (maxVolumeArrival z m s).ms = s.ms ∧ (maxVolumeArrival z m s).zones = s.zones ∧
      (maxVolumeArrival z m s).view = s.view ∧ (maxVolumeArrival z m s).dec = s.dec ∧
      (maxVolumeArrival z m s).bass = s.bass ∧ (maxVolumeArrival z m s).knob = s.knob ∧
      (maxVolumeArrival z m s).pool = s.pool ∧ (maxVolumeArrival z m s).mods = s.mods ∧
      (maxVolumeArrival z m s).clock = s.clock ∧ (maxVolumeArrival z m s).audioStarted = s.audioStarted ∧
      (maxVolumeArrival z m s).lock = s.lock ∧ (maxVolumeArrival z m s).links = s.links ∧
      (maxVolumeArrival z m s).meas = s.meas ∧ (maxVolumeArrival z m s).fe = s.fe ∧
      (maxVolumeArrival z m s).tun = s.tun ∧ (maxVolumeArrival z m s).sd = s.sd ∧
      (maxVolumeArrival z m s).free = s.free := by
  unfold maxVolumeArrival
  try dsimp only
  (repeat' split) <;> simp

@[simp] theorem detentVolume_fields (z : Zone) (v : Int) (s : State) :
    (detentVolume z v s).pending = s.pending ∧ (detentVolume z v s).rstnLow = s.rstnLow ∧
      (detentVolume z v s).strap = s.strap ∧ (detentVolume z v s).mem = s.mem ∧
      (detentVolume z v s).readData = s.readData ∧ (detentVolume z v s).att = s.att ∧
      (detentVolume z v s).dirty = s.dirty ∧ (detentVolume z v s).meterTimer = s.meterTimer ∧
      (detentVolume z v s).answers = s.answers ∧ (detentVolume z v s).sa = s.sa ∧
      (detentVolume z v s).ms = s.ms ∧ (detentVolume z v s).zones = s.zones ∧
      (detentVolume z v s).view = s.view ∧ (detentVolume z v s).dec = s.dec ∧
      (detentVolume z v s).bass = s.bass ∧ (detentVolume z v s).knob = s.knob ∧
      (detentVolume z v s).pool = s.pool ∧ (detentVolume z v s).mods = s.mods ∧
      (detentVolume z v s).clock = s.clock ∧ (detentVolume z v s).audioStarted = s.audioStarted ∧
      (detentVolume z v s).lock = s.lock ∧ (detentVolume z v s).links = s.links ∧
      (detentVolume z v s).meas = s.meas ∧ (detentVolume z v s).fe = s.fe ∧
      (detentVolume z v s).tun = s.tun ∧ (detentVolume z v s).sd = s.sd ∧ (detentVolume z v s).free = s.free := by
  unfold detentVolume
  try dsimp only
  (repeat' split) <;> simp

@[simp] theorem detent_fields (z : Zone) (clockwise : Bool) (s : State) :
    (detent z clockwise s).pending = s.pending ∧ (detent z clockwise s).rstnLow = s.rstnLow ∧
      (detent z clockwise s).strap = s.strap ∧ (detent z clockwise s).mem = s.mem ∧
      (detent z clockwise s).readData = s.readData ∧ (detent z clockwise s).att = s.att ∧
      (detent z clockwise s).dirty = s.dirty ∧ (detent z clockwise s).meterTimer = s.meterTimer ∧
      (detent z clockwise s).answers = s.answers ∧ (detent z clockwise s).sa = s.sa ∧
      (detent z clockwise s).ms = s.ms ∧ (detent z clockwise s).zones = s.zones ∧
      (detent z clockwise s).view = s.view ∧ (detent z clockwise s).dec = s.dec ∧
      (detent z clockwise s).bass = s.bass ∧ (detent z clockwise s).knob = s.knob ∧
      (detent z clockwise s).pool = s.pool ∧ (detent z clockwise s).mods = s.mods ∧
      (detent z clockwise s).clock = s.clock ∧ (detent z clockwise s).audioStarted = s.audioStarted ∧
      (detent z clockwise s).lock = s.lock ∧ (detent z clockwise s).links = s.links ∧
      (detent z clockwise s).meas = s.meas ∧ (detent z clockwise s).fe = s.fe ∧
      (detent z clockwise s).tun = s.tun ∧ (detent z clockwise s).sd = s.sd ∧
      (detent z clockwise s).free = s.free := by
  unfold detent
  try dsimp only
  (repeat' split) <;> simp

@[simp] theorem stopModule_fields (m : AmpModule) (s : State) :
    (stopModule m s).pending = s.pending ∧ (stopModule m s).rstnLow = s.rstnLow ∧
      (stopModule m s).strap = s.strap ∧ (stopModule m s).mem = s.mem ∧
      (stopModule m s).readData = s.readData ∧ (stopModule m s).agent = s.agent ∧
      (stopModule m s).att = s.att ∧ (stopModule m s).dirty = s.dirty ∧
      (stopModule m s).meterTimer = s.meterTimer ∧ (stopModule m s).answers = s.answers ∧
      (stopModule m s).sa = s.sa ∧ (stopModule m s).ms = s.ms ∧ (stopModule m s).zones = s.zones ∧
      (stopModule m s).view = s.view ∧ (stopModule m s).dec = s.dec ∧ (stopModule m s).bass = s.bass ∧
      (stopModule m s).knob = s.knob ∧ (stopModule m s).pool = s.pool ∧ (stopModule m s).clock = s.clock ∧
      (stopModule m s).audioStarted = s.audioStarted ∧ (stopModule m s).lock = s.lock ∧
      (stopModule m s).links = s.links ∧ (stopModule m s).meas = s.meas ∧ (stopModule m s).fe = s.fe ∧
      (stopModule m s).tun = s.tun ∧ (stopModule m s).sd = s.sd ∧ (stopModule m s).free = s.free := by
  unfold stopModule
  try dsimp only
  (repeat' split) <;> simp

@[simp] theorem windDownReport_fields (m : AmpModule) (s : State) :
    (windDownReport m s).pending = s.pending ∧ (windDownReport m s).rstnLow = s.rstnLow ∧
      (windDownReport m s).strap = s.strap ∧ (windDownReport m s).mem = s.mem ∧
      (windDownReport m s).readData = s.readData ∧ (windDownReport m s).agent = s.agent ∧
      (windDownReport m s).att = s.att ∧ (windDownReport m s).dirty = s.dirty ∧
      (windDownReport m s).meterTimer = s.meterTimer ∧ (windDownReport m s).answers = s.answers ∧
      (windDownReport m s).sa = s.sa ∧ (windDownReport m s).ms = s.ms ∧
      (windDownReport m s).zones = s.zones ∧ (windDownReport m s).view = s.view ∧
      (windDownReport m s).dec = s.dec ∧ (windDownReport m s).bass = s.bass ∧
      (windDownReport m s).knob = s.knob ∧ (windDownReport m s).pool = s.pool ∧
      (windDownReport m s).clock = s.clock ∧ (windDownReport m s).audioStarted = s.audioStarted ∧
      (windDownReport m s).lock = s.lock ∧ (windDownReport m s).links = s.links ∧
      (windDownReport m s).meas = s.meas ∧ (windDownReport m s).fe = s.fe ∧
      (windDownReport m s).tun = s.tun ∧ (windDownReport m s).sd = s.sd ∧ (windDownReport m s).free = s.free := by
  unfold windDownReport
  try dsimp only
  (repeat' split) <;> simp

@[simp] theorem windDownReports_fields (s : State) :
    (windDownReports s).pending = s.pending ∧ (windDownReports s).rstnLow = s.rstnLow ∧
      (windDownReports s).strap = s.strap ∧ (windDownReports s).mem = s.mem ∧
      (windDownReports s).readData = s.readData ∧ (windDownReports s).agent = s.agent ∧
      (windDownReports s).att = s.att ∧ (windDownReports s).dirty = s.dirty ∧
      (windDownReports s).meterTimer = s.meterTimer ∧ (windDownReports s).answers = s.answers ∧
      (windDownReports s).sa = s.sa ∧ (windDownReports s).ms = s.ms ∧ (windDownReports s).zones = s.zones ∧
      (windDownReports s).view = s.view ∧ (windDownReports s).dec = s.dec ∧
      (windDownReports s).bass = s.bass ∧ (windDownReports s).knob = s.knob ∧
      (windDownReports s).pool = s.pool ∧ (windDownReports s).clock = s.clock ∧
      (windDownReports s).audioStarted = s.audioStarted ∧ (windDownReports s).lock = s.lock ∧
      (windDownReports s).links = s.links ∧ (windDownReports s).meas = s.meas ∧
      (windDownReports s).fe = s.fe ∧ (windDownReports s).tun = s.tun ∧ (windDownReports s).sd = s.sd ∧
      (windDownReports s).free = s.free := by
  unfold windDownReports
  try dsimp only
  (repeat' split) <;> simp

@[simp] theorem startModule_fields (m : AmpModule) (s : State) :
    (startModule m s).pending = s.pending ∧ (startModule m s).rstnLow = s.rstnLow ∧
      (startModule m s).strap = s.strap ∧ (startModule m s).mem = s.mem ∧
      (startModule m s).readData = s.readData ∧ (startModule m s).agent = s.agent ∧
      (startModule m s).att = s.att ∧ (startModule m s).dirty = s.dirty ∧
      (startModule m s).meterTimer = s.meterTimer ∧ (startModule m s).answers = s.answers ∧
      (startModule m s).sa = s.sa ∧ (startModule m s).ms = s.ms ∧ (startModule m s).zones = s.zones ∧
      (startModule m s).view = s.view ∧ (startModule m s).dec = s.dec ∧ (startModule m s).bass = s.bass ∧
      (startModule m s).gain = s.gain ∧ (startModule m s).knob = s.knob ∧ (startModule m s).pool = s.pool ∧
      (startModule m s).clock = s.clock ∧ (startModule m s).audioStarted = s.audioStarted ∧
      (startModule m s).lock = s.lock ∧ (startModule m s).links = s.links ∧ (startModule m s).meas = s.meas ∧
      (startModule m s).fe = s.fe ∧ (startModule m s).tun = s.tun ∧ (startModule m s).sd = s.sd ∧
      (startModule m s).free = s.free := by
  unfold startModule
  try dsimp only
  (repeat' split) <;> simp

@[simp] theorem startModules_fields (s : State) :
    (startModules s).pending = s.pending ∧ (startModules s).rstnLow = s.rstnLow ∧
      (startModules s).strap = s.strap ∧ (startModules s).mem = s.mem ∧
      (startModules s).readData = s.readData ∧ (startModules s).agent = s.agent ∧
      (startModules s).att = s.att ∧ (startModules s).dirty = s.dirty ∧
      (startModules s).meterTimer = s.meterTimer ∧ (startModules s).answers = s.answers ∧
      (startModules s).sa = s.sa ∧ (startModules s).ms = s.ms ∧ (startModules s).zones = s.zones ∧
      (startModules s).view = s.view ∧ (startModules s).dec = s.dec ∧ (startModules s).bass = s.bass ∧
      (startModules s).gain = s.gain ∧ (startModules s).knob = s.knob ∧ (startModules s).pool = s.pool ∧
      (startModules s).clock = s.clock ∧ (startModules s).audioStarted = s.audioStarted ∧
      (startModules s).lock = s.lock ∧ (startModules s).links = s.links ∧ (startModules s).meas = s.meas ∧
      (startModules s).fe = s.fe ∧ (startModules s).tun = s.tun ∧ (startModules s).sd = s.sd ∧
      (startModules s).free = s.free := by
  unfold startModules
  try dsimp only
  (repeat' split) <;> simp

@[simp] theorem trip_fields (m : AmpModule) (cause : TripCause) (entry : Nat) (s : State) :
    (trip m cause entry s).pending = s.pending ∧ (trip m cause entry s).rstnLow = s.rstnLow ∧
      (trip m cause entry s).strap = s.strap ∧ (trip m cause entry s).mem = s.mem ∧
      (trip m cause entry s).readData = s.readData ∧ (trip m cause entry s).agent = s.agent ∧
      (trip m cause entry s).meterTimer = s.meterTimer ∧ (trip m cause entry s).answers = s.answers ∧
      (trip m cause entry s).sa = s.sa ∧ (trip m cause entry s).ms = s.ms ∧
      (trip m cause entry s).zones = s.zones ∧ (trip m cause entry s).view = s.view ∧
      (trip m cause entry s).dec = s.dec ∧ (trip m cause entry s).bass = s.bass ∧
      (trip m cause entry s).knob = s.knob ∧ (trip m cause entry s).pool = s.pool ∧
      (trip m cause entry s).clock = s.clock ∧ (trip m cause entry s).audioStarted = s.audioStarted ∧
      (trip m cause entry s).lock = s.lock ∧ (trip m cause entry s).links = s.links ∧
      (trip m cause entry s).meas = s.meas ∧ (trip m cause entry s).fe = s.fe ∧
      (trip m cause entry s).tun = s.tun ∧ (trip m cause entry s).sd = s.sd ∧
      (trip m cause entry s).free = s.free := by
  unfold trip
  try dsimp only
  (repeat' split) <;> simp

@[simp] theorem selfCheckStop_fields (m : AmpModule) (s : State) :
    (selfCheckStop m s).pending = s.pending ∧ (selfCheckStop m s).rstnLow = s.rstnLow ∧
      (selfCheckStop m s).strap = s.strap ∧ (selfCheckStop m s).mem = s.mem ∧
      (selfCheckStop m s).readData = s.readData ∧ (selfCheckStop m s).agent = s.agent ∧
      (selfCheckStop m s).att = s.att ∧ (selfCheckStop m s).dirty = s.dirty ∧
      (selfCheckStop m s).meterTimer = s.meterTimer ∧ (selfCheckStop m s).answers = s.answers ∧
      (selfCheckStop m s).sa = s.sa ∧ (selfCheckStop m s).ms = s.ms ∧ (selfCheckStop m s).zones = s.zones ∧
      (selfCheckStop m s).view = s.view ∧ (selfCheckStop m s).dec = s.dec ∧
      (selfCheckStop m s).bass = s.bass ∧ (selfCheckStop m s).knob = s.knob ∧
      (selfCheckStop m s).pool = s.pool ∧ (selfCheckStop m s).clock = s.clock ∧
      (selfCheckStop m s).audioStarted = s.audioStarted ∧ (selfCheckStop m s).lock = s.lock ∧
      (selfCheckStop m s).links = s.links ∧ (selfCheckStop m s).meas = s.meas ∧
      (selfCheckStop m s).fe = s.fe ∧ (selfCheckStop m s).tun = s.tun ∧ (selfCheckStop m s).sd = s.sd ∧
      (selfCheckStop m s).free = s.free := by
  unfold selfCheckStop
  try dsimp only
  (repeat' split) <;> simp

@[simp] theorem selfCheckStops_fields (s : State) :
    (selfCheckStops s).pending = s.pending ∧ (selfCheckStops s).rstnLow = s.rstnLow ∧
      (selfCheckStops s).strap = s.strap ∧ (selfCheckStops s).mem = s.mem ∧
      (selfCheckStops s).readData = s.readData ∧ (selfCheckStops s).agent = s.agent ∧
      (selfCheckStops s).att = s.att ∧ (selfCheckStops s).dirty = s.dirty ∧
      (selfCheckStops s).meterTimer = s.meterTimer ∧ (selfCheckStops s).answers = s.answers ∧
      (selfCheckStops s).sa = s.sa ∧ (selfCheckStops s).ms = s.ms ∧ (selfCheckStops s).zones = s.zones ∧
      (selfCheckStops s).view = s.view ∧ (selfCheckStops s).dec = s.dec ∧ (selfCheckStops s).bass = s.bass ∧
      (selfCheckStops s).knob = s.knob ∧ (selfCheckStops s).pool = s.pool ∧
      (selfCheckStops s).clock = s.clock ∧ (selfCheckStops s).audioStarted = s.audioStarted ∧
      (selfCheckStops s).lock = s.lock ∧ (selfCheckStops s).links = s.links ∧
      (selfCheckStops s).meas = s.meas ∧ (selfCheckStops s).fe = s.fe ∧ (selfCheckStops s).tun = s.tun ∧
      (selfCheckStops s).sd = s.sd ∧ (selfCheckStops s).free = s.free := by
  unfold selfCheckStops
  try dsimp only
  (repeat' split) <;> simp

@[simp] theorem derateBy_fields (m : AmpModule) (d : Int) (s : State) :
    (derateBy m d s).pending = s.pending ∧ (derateBy m d s).rstnLow = s.rstnLow ∧
      (derateBy m d s).strap = s.strap ∧ (derateBy m d s).mem = s.mem ∧
      (derateBy m d s).readData = s.readData ∧ (derateBy m d s).agent = s.agent ∧
      (derateBy m d s).att = s.att ∧ (derateBy m d s).dirty = s.dirty ∧
      (derateBy m d s).meterTimer = s.meterTimer ∧ (derateBy m d s).answers = s.answers ∧
      (derateBy m d s).sa = s.sa ∧ (derateBy m d s).ms = s.ms ∧ (derateBy m d s).zones = s.zones ∧
      (derateBy m d s).view = s.view ∧ (derateBy m d s).dec = s.dec ∧ (derateBy m d s).bass = s.bass ∧
      (derateBy m d s).gain = s.gain ∧ (derateBy m d s).knob = s.knob ∧ (derateBy m d s).pool = s.pool ∧
      (derateBy m d s).clock = s.clock ∧ (derateBy m d s).audioStarted = s.audioStarted ∧
      (derateBy m d s).lock = s.lock ∧ (derateBy m d s).links = s.links ∧ (derateBy m d s).meas = s.meas ∧
      (derateBy m d s).fe = s.fe ∧ (derateBy m d s).tun = s.tun ∧ (derateBy m d s).sd = s.sd ∧
      (derateBy m d s).free = s.free := by
  unfold derateBy
  try dsimp only
  (repeat' split) <;> simp

@[simp] theorem moduleEnArrival_fields (m : AmpModule) (on : Bool) (s : State) :
    (moduleEnArrival m on s).pending = s.pending ∧ (moduleEnArrival m on s).rstnLow = s.rstnLow ∧
      (moduleEnArrival m on s).strap = s.strap ∧ (moduleEnArrival m on s).mem = s.mem ∧
      (moduleEnArrival m on s).readData = s.readData ∧ (moduleEnArrival m on s).agent = s.agent ∧
      (moduleEnArrival m on s).att = s.att ∧ (moduleEnArrival m on s).dirty = s.dirty ∧
      (moduleEnArrival m on s).meterTimer = s.meterTimer ∧ (moduleEnArrival m on s).answers = s.answers ∧
      (moduleEnArrival m on s).sa = s.sa ∧ (moduleEnArrival m on s).ms = s.ms ∧
      (moduleEnArrival m on s).zones = s.zones ∧ (moduleEnArrival m on s).view = s.view ∧
      (moduleEnArrival m on s).dec = s.dec ∧ (moduleEnArrival m on s).bass = s.bass ∧
      (moduleEnArrival m on s).knob = s.knob ∧ (moduleEnArrival m on s).pool = s.pool ∧
      (moduleEnArrival m on s).clock = s.clock ∧ (moduleEnArrival m on s).audioStarted = s.audioStarted ∧
      (moduleEnArrival m on s).lock = s.lock ∧ (moduleEnArrival m on s).links = s.links ∧
      (moduleEnArrival m on s).meas = s.meas ∧ (moduleEnArrival m on s).fe = s.fe ∧
      (moduleEnArrival m on s).tun = s.tun ∧ (moduleEnArrival m on s).sd = s.sd ∧
      (moduleEnArrival m on s).free = s.free := by
  unfold moduleEnArrival
  try dsimp only
  (repeat' split) <;> simp

@[simp] theorem clearTripTaken_fields (m : AmpModule) (s : State) :
    (clearTripTaken m s).pending = s.pending ∧ (clearTripTaken m s).rstnLow = s.rstnLow ∧
      (clearTripTaken m s).strap = s.strap ∧ (clearTripTaken m s).mem = s.mem ∧
      (clearTripTaken m s).readData = s.readData ∧ (clearTripTaken m s).agent = s.agent ∧
      (clearTripTaken m s).att = s.att ∧ (clearTripTaken m s).dirty = s.dirty ∧
      (clearTripTaken m s).meterTimer = s.meterTimer ∧ (clearTripTaken m s).answers = s.answers ∧
      (clearTripTaken m s).sa = s.sa ∧ (clearTripTaken m s).ms = s.ms ∧
      (clearTripTaken m s).zones = s.zones ∧ (clearTripTaken m s).view = s.view ∧
      (clearTripTaken m s).dec = s.dec ∧ (clearTripTaken m s).bass = s.bass ∧
      (clearTripTaken m s).gain = s.gain ∧ (clearTripTaken m s).knob = s.knob ∧
      (clearTripTaken m s).pool = s.pool ∧ (clearTripTaken m s).clock = s.clock ∧
      (clearTripTaken m s).audioStarted = s.audioStarted ∧ (clearTripTaken m s).lock = s.lock ∧
      (clearTripTaken m s).links = s.links ∧ (clearTripTaken m s).meas = s.meas ∧
      (clearTripTaken m s).fe = s.fe ∧ (clearTripTaken m s).tun = s.tun ∧ (clearTripTaken m s).sd = s.sd ∧
      (clearTripTaken m s).free = s.free := by
  unfold clearTripTaken
  try dsimp only
  (repeat' split) <;> simp

@[simp] theorem setupLockArrival_fields (v : Word) (s : State) :
    (setupLockArrival v s).pending = s.pending ∧ (setupLockArrival v s).rstnLow = s.rstnLow ∧
      (setupLockArrival v s).strap = s.strap ∧ (setupLockArrival v s).mem = s.mem ∧
      (setupLockArrival v s).readData = s.readData ∧ (setupLockArrival v s).att = s.att ∧
      (setupLockArrival v s).dirty = s.dirty ∧ (setupLockArrival v s).meterTimer = s.meterTimer ∧
      (setupLockArrival v s).answers = s.answers ∧ (setupLockArrival v s).sa = s.sa ∧
      (setupLockArrival v s).ms = s.ms ∧ (setupLockArrival v s).zones = s.zones ∧
      (setupLockArrival v s).view = s.view ∧ (setupLockArrival v s).dec = s.dec ∧
      (setupLockArrival v s).bass = s.bass ∧ (setupLockArrival v s).gain = s.gain ∧
      (setupLockArrival v s).knob = s.knob ∧ (setupLockArrival v s).pool = s.pool ∧
      (setupLockArrival v s).mods = s.mods ∧ (setupLockArrival v s).clock = s.clock ∧
      (setupLockArrival v s).audioStarted = s.audioStarted ∧ (setupLockArrival v s).links = s.links ∧
      (setupLockArrival v s).meas = s.meas ∧ (setupLockArrival v s).fe = s.fe ∧
      (setupLockArrival v s).tun = s.tun ∧ (setupLockArrival v s).sd = s.sd ∧
      (setupLockArrival v s).free = s.free := by
  unfold setupLockArrival
  try dsimp only
  (repeat' split) <;> simp

@[simp] theorem relock_fields (s : State) :
    (relock s).pending = s.pending ∧ (relock s).rstnLow = s.rstnLow ∧ (relock s).strap = s.strap ∧
      (relock s).mem = s.mem ∧ (relock s).readData = s.readData ∧ (relock s).att = s.att ∧
      (relock s).dirty = s.dirty ∧ (relock s).meterTimer = s.meterTimer ∧ (relock s).answers = s.answers ∧
      (relock s).sa = s.sa ∧ (relock s).ms = s.ms ∧ (relock s).zones = s.zones ∧ (relock s).view = s.view ∧
      (relock s).dec = s.dec ∧ (relock s).bass = s.bass ∧ (relock s).gain = s.gain ∧
      (relock s).knob = s.knob ∧ (relock s).pool = s.pool ∧ (relock s).mods = s.mods ∧
      (relock s).clock = s.clock ∧ (relock s).audioStarted = s.audioStarted ∧ (relock s).links = s.links ∧
      (relock s).meas = s.meas ∧ (relock s).fe = s.fe ∧ (relock s).tun = s.tun ∧ (relock s).sd = s.sd ∧
      (relock s).free = s.free := by
  unfold relock
  try dsimp only
  (repeat' split) <;> simp

@[simp] theorem decodeApply_fields (s : State) :
    (decodeApply s).pending = s.pending ∧ (decodeApply s).rstnLow = s.rstnLow ∧
      (decodeApply s).strap = s.strap ∧ (decodeApply s).mem = s.mem ∧ (decodeApply s).readData = s.readData ∧
      (decodeApply s).agent = s.agent ∧ (decodeApply s).att = s.att ∧
      (decodeApply s).meterTimer = s.meterTimer ∧ (decodeApply s).answers = s.answers ∧
      (decodeApply s).sa = s.sa ∧ (decodeApply s).ms = s.ms ∧ (decodeApply s).zones = s.zones ∧
      (decodeApply s).view = s.view ∧ (decodeApply s).bass = s.bass ∧ (decodeApply s).gain = s.gain ∧
      (decodeApply s).knob = s.knob ∧ (decodeApply s).pool = s.pool ∧ (decodeApply s).mods = s.mods ∧
      (decodeApply s).clock = s.clock ∧ (decodeApply s).audioStarted = s.audioStarted ∧
      (decodeApply s).lock = s.lock ∧ (decodeApply s).links = s.links ∧ (decodeApply s).meas = s.meas ∧
      (decodeApply s).fe = s.fe ∧ (decodeApply s).tun = s.tun ∧ (decodeApply s).sd = s.sd ∧
      (decodeApply s).free = s.free := by
  unfold decodeApply
  try dsimp only
  (repeat' split) <;> simp

@[simp] theorem speakersApply_fields (s : State) :
    (speakersApply s).pending = s.pending ∧ (speakersApply s).rstnLow = s.rstnLow ∧
      (speakersApply s).strap = s.strap ∧ (speakersApply s).mem = s.mem ∧
      (speakersApply s).readData = s.readData ∧ (speakersApply s).agent = s.agent ∧
      (speakersApply s).att = s.att ∧ (speakersApply s).dirty = s.dirty ∧
      (speakersApply s).meterTimer = s.meterTimer ∧ (speakersApply s).answers = s.answers ∧
      (speakersApply s).sa = s.sa ∧ (speakersApply s).ms = s.ms ∧ (speakersApply s).zones = s.zones ∧
      (speakersApply s).view = s.view ∧ (speakersApply s).dec = s.dec ∧ (speakersApply s).gain = s.gain ∧
      (speakersApply s).knob = s.knob ∧ (speakersApply s).pool = s.pool ∧ (speakersApply s).mods = s.mods ∧
      (speakersApply s).clock = s.clock ∧ (speakersApply s).audioStarted = s.audioStarted ∧
      (speakersApply s).lock = s.lock ∧ (speakersApply s).links = s.links ∧ (speakersApply s).meas = s.meas ∧
      (speakersApply s).fe = s.fe ∧ (speakersApply s).tun = s.tun ∧ (speakersApply s).sd = s.sd ∧
      (speakersApply s).free = s.free := by
  unfold speakersApply
  try dsimp only
  (repeat' split) <;> simp

@[simp] theorem delayApply_fields (z : Zone) (s : State) :
    (delayApply z s).pending = s.pending ∧ (delayApply z s).rstnLow = s.rstnLow ∧
      (delayApply z s).strap = s.strap ∧ (delayApply z s).mem = s.mem ∧
      (delayApply z s).readData = s.readData ∧ (delayApply z s).agent = s.agent ∧
      (delayApply z s).att = s.att ∧ (delayApply z s).meterTimer = s.meterTimer ∧
      (delayApply z s).answers = s.answers ∧ (delayApply z s).sa = s.sa ∧ (delayApply z s).ms = s.ms ∧
      (delayApply z s).zones = s.zones ∧ (delayApply z s).view = s.view ∧ (delayApply z s).dec = s.dec ∧
      (delayApply z s).bass = s.bass ∧ (delayApply z s).gain = s.gain ∧ (delayApply z s).knob = s.knob ∧
      (delayApply z s).mods = s.mods ∧ (delayApply z s).clock = s.clock ∧
      (delayApply z s).audioStarted = s.audioStarted ∧ (delayApply z s).lock = s.lock ∧
      (delayApply z s).links = s.links ∧ (delayApply z s).meas = s.meas ∧ (delayApply z s).fe = s.fe ∧
      (delayApply z s).tun = s.tun ∧ (delayApply z s).sd = s.sd ∧ (delayApply z s).free = s.free := by
  unfold delayApply
  try dsimp only
  (repeat' split) <;> simp

@[simp] theorem holdChange_fields (k : ChangeKind) (z : Zone) (s : State) :
    (holdChange k z s).pending = s.pending ∧ (holdChange k z s).rstnLow = s.rstnLow ∧
      (holdChange k z s).strap = s.strap ∧ (holdChange k z s).mem = s.mem ∧
      (holdChange k z s).readData = s.readData ∧ (holdChange k z s).agent = s.agent ∧
      (holdChange k z s).att = s.att ∧
      (holdChange k z s).meterTimer = s.meterTimer ∧ (holdChange k z s).answers = s.answers ∧
      (holdChange k z s).sa = s.sa ∧ (holdChange k z s).ms = s.ms ∧ (holdChange k z s).view = s.view ∧
      (holdChange k z s).dec = s.dec ∧ (holdChange k z s).bass = s.bass ∧ (holdChange k z s).gain = s.gain ∧
      (holdChange k z s).knob = s.knob ∧ (holdChange k z s).pool = s.pool ∧
      (holdChange k z s).mods = s.mods ∧ (holdChange k z s).clock = s.clock ∧
      (holdChange k z s).audioStarted = s.audioStarted ∧ (holdChange k z s).lock = s.lock ∧
      (holdChange k z s).links = s.links ∧ (holdChange k z s).meas = s.meas ∧ (holdChange k z s).fe = s.fe ∧
      (holdChange k z s).tun = s.tun ∧ (holdChange k z s).sd = s.sd ∧ (holdChange k z s).free = s.free := by
  unfold holdChange
  try dsimp only
  (repeat' split) <;> simp

@[simp] theorem examineZone_fields (z : Zone) (s : State) :
    (examineZone z s).1.pending = s.pending ∧ (examineZone z s).1.rstnLow = s.rstnLow ∧
      (examineZone z s).1.strap = s.strap ∧ (examineZone z s).1.mem = s.mem ∧
      (examineZone z s).1.readData = s.readData ∧ (examineZone z s).1.agent = s.agent ∧
      (examineZone z s).1.att = s.att ∧ (examineZone z s).1.meterTimer = s.meterTimer ∧
      (examineZone z s).1.answers = s.answers ∧ (examineZone z s).1.sa = s.sa ∧
      (examineZone z s).1.ms = s.ms ∧ (examineZone z s).1.view = s.view ∧ (examineZone z s).1.dec = s.dec ∧
      (examineZone z s).1.bass = s.bass ∧ (examineZone z s).1.gain = s.gain ∧
      (examineZone z s).1.knob = s.knob ∧ (examineZone z s).1.mods = s.mods ∧
      (examineZone z s).1.clock = s.clock ∧ (examineZone z s).1.audioStarted = s.audioStarted ∧
      (examineZone z s).1.lock = s.lock ∧ (examineZone z s).1.links = s.links ∧
      (examineZone z s).1.meas = s.meas ∧ (examineZone z s).1.fe = s.fe ∧ (examineZone z s).1.tun = s.tun ∧
      (examineZone z s).1.sd = s.sd ∧ (examineZone z s).1.free = s.free := by
  unfold examineZone
  dsimp only
  (repeat' split) <;> simp

@[simp] theorem examine_fields (n : Nat) (s : State) :
    (examine n s).pending = s.pending ∧ (examine n s).rstnLow = s.rstnLow ∧ (examine n s).strap = s.strap ∧
      (examine n s).mem = s.mem ∧ (examine n s).readData = s.readData ∧ (examine n s).agent = s.agent ∧
      (examine n s).att = s.att ∧ (examine n s).meterTimer = s.meterTimer ∧
      (examine n s).answers = s.answers ∧ (examine n s).sa = s.sa ∧ (examine n s).ms = s.ms ∧
      (examine n s).view = s.view ∧ (examine n s).dec = s.dec ∧ (examine n s).bass = s.bass ∧
      (examine n s).gain = s.gain ∧ (examine n s).knob = s.knob ∧ (examine n s).mods = s.mods ∧
      (examine n s).clock = s.clock ∧ (examine n s).audioStarted = s.audioStarted ∧
      (examine n s).lock = s.lock ∧ (examine n s).links = s.links ∧ (examine n s).meas = s.meas ∧
      (examine n s).fe = s.fe ∧ (examine n s).tun = s.tun ∧ (examine n s).sd = s.sd ∧
      (examine n s).free = s.free := by
  induction n generalizing s with
  | zero => simp [examine]
  | succ n ih =>
    unfold examine
    dsimp only
    (repeat' split) <;> simp [ih]


@[simp] theorem examineZones_fields (s : State) :
    (examineZones s).pending = s.pending ∧ (examineZones s).rstnLow = s.rstnLow ∧
      (examineZones s).strap = s.strap ∧ (examineZones s).mem = s.mem ∧
      (examineZones s).readData = s.readData ∧ (examineZones s).agent = s.agent ∧
      (examineZones s).att = s.att ∧ (examineZones s).meterTimer = s.meterTimer ∧
      (examineZones s).answers = s.answers ∧ (examineZones s).sa = s.sa ∧ (examineZones s).ms = s.ms ∧
      (examineZones s).view = s.view ∧ (examineZones s).dec = s.dec ∧ (examineZones s).bass = s.bass ∧
      (examineZones s).gain = s.gain ∧ (examineZones s).knob = s.knob ∧ (examineZones s).mods = s.mods ∧
      (examineZones s).clock = s.clock ∧ (examineZones s).audioStarted = s.audioStarted ∧
      (examineZones s).lock = s.lock ∧ (examineZones s).links = s.links ∧ (examineZones s).meas = s.meas ∧
      (examineZones s).fe = s.fe ∧ (examineZones s).tun = s.tun ∧ (examineZones s).sd = s.sd ∧
      (examineZones s).free = s.free := by
  unfold examineZones
  try dsimp only
  (repeat' split) <;> simp

@[simp] theorem recompute_fields (s : State) :
    (recompute s).pending = s.pending ∧ (recompute s).rstnLow = s.rstnLow ∧ (recompute s).strap = s.strap ∧
      (recompute s).mem = s.mem ∧ (recompute s).readData = s.readData ∧ (recompute s).agent = s.agent ∧
      (recompute s).att = s.att ∧ (recompute s).meterTimer = s.meterTimer ∧
      (recompute s).answers = s.answers ∧ (recompute s).sa = s.sa ∧ (recompute s).ms = s.ms ∧
      (recompute s).view = s.view ∧ (recompute s).dec = s.dec ∧ (recompute s).bass = s.bass ∧
      (recompute s).gain = s.gain ∧ (recompute s).knob = s.knob ∧ (recompute s).mods = s.mods ∧
      (recompute s).clock = s.clock ∧ (recompute s).audioStarted = s.audioStarted ∧
      (recompute s).lock = s.lock ∧ (recompute s).links = s.links ∧ (recompute s).meas = s.meas ∧
      (recompute s).fe = s.fe ∧ (recompute s).tun = s.tun ∧ (recompute s).sd = s.sd ∧
      (recompute s).free = s.free := by
  unfold recompute
  try dsimp only
  (repeat' split) <;> simp

@[simp] theorem recomputeIfRunning_fields (s : State) :
    (recomputeIfRunning s).pending = s.pending ∧ (recomputeIfRunning s).rstnLow = s.rstnLow ∧
      (recomputeIfRunning s).strap = s.strap ∧ (recomputeIfRunning s).mem = s.mem ∧
      (recomputeIfRunning s).readData = s.readData ∧ (recomputeIfRunning s).agent = s.agent ∧
      (recomputeIfRunning s).att = s.att ∧ (recomputeIfRunning s).meterTimer = s.meterTimer ∧
      (recomputeIfRunning s).answers = s.answers ∧ (recomputeIfRunning s).sa = s.sa ∧
      (recomputeIfRunning s).ms = s.ms ∧ (recomputeIfRunning s).view = s.view ∧
      (recomputeIfRunning s).dec = s.dec ∧ (recomputeIfRunning s).bass = s.bass ∧
      (recomputeIfRunning s).gain = s.gain ∧ (recomputeIfRunning s).knob = s.knob ∧
      (recomputeIfRunning s).mods = s.mods ∧ (recomputeIfRunning s).clock = s.clock ∧
      (recomputeIfRunning s).audioStarted = s.audioStarted ∧ (recomputeIfRunning s).lock = s.lock ∧
      (recomputeIfRunning s).links = s.links ∧ (recomputeIfRunning s).meas = s.meas ∧
      (recomputeIfRunning s).fe = s.fe ∧ (recomputeIfRunning s).tun = s.tun ∧
      (recomputeIfRunning s).sd = s.sd ∧ (recomputeIfRunning s).free = s.free := by
  unfold recomputeIfRunning
  try dsimp only
  (repeat' split) <;> simp

@[simp] theorem distArrival_fields (ch : MainChan) (v : Nat) (s : State) :
    (distArrival ch v s).pending = s.pending ∧ (distArrival ch v s).rstnLow = s.rstnLow ∧
      (distArrival ch v s).strap = s.strap ∧ (distArrival ch v s).mem = s.mem ∧
      (distArrival ch v s).readData = s.readData ∧ (distArrival ch v s).agent = s.agent ∧
      (distArrival ch v s).att = s.att ∧ (distArrival ch v s).meterTimer = s.meterTimer ∧
      (distArrival ch v s).answers = s.answers ∧ (distArrival ch v s).sa = s.sa ∧
      (distArrival ch v s).ms = s.ms ∧ (distArrival ch v s).view = s.view ∧
      (distArrival ch v s).dec = s.dec ∧ (distArrival ch v s).bass = s.bass ∧
      (distArrival ch v s).gain = s.gain ∧ (distArrival ch v s).knob = s.knob ∧
      (distArrival ch v s).mods = s.mods ∧ (distArrival ch v s).clock = s.clock ∧
      (distArrival ch v s).audioStarted = s.audioStarted ∧ (distArrival ch v s).lock = s.lock ∧
      (distArrival ch v s).links = s.links ∧ (distArrival ch v s).meas = s.meas ∧
      (distArrival ch v s).fe = s.fe ∧ (distArrival ch v s).tun = s.tun ∧ (distArrival ch v s).sd = s.sd ∧
      (distArrival ch v s).free = s.free := by
  unfold distArrival
  try dsimp only
  (repeat' split) <;> simp

@[simp] theorem lipsyncArrival_fields (z : Zone) (v : Nat) (s : State) :
    (lipsyncArrival z v s).pending = s.pending ∧ (lipsyncArrival z v s).rstnLow = s.rstnLow ∧
      (lipsyncArrival z v s).strap = s.strap ∧ (lipsyncArrival z v s).mem = s.mem ∧
      (lipsyncArrival z v s).readData = s.readData ∧ (lipsyncArrival z v s).agent = s.agent ∧
      (lipsyncArrival z v s).att = s.att ∧ (lipsyncArrival z v s).meterTimer = s.meterTimer ∧
      (lipsyncArrival z v s).answers = s.answers ∧ (lipsyncArrival z v s).sa = s.sa ∧
      (lipsyncArrival z v s).ms = s.ms ∧ (lipsyncArrival z v s).view = s.view ∧
      (lipsyncArrival z v s).dec = s.dec ∧ (lipsyncArrival z v s).bass = s.bass ∧
      (lipsyncArrival z v s).gain = s.gain ∧ (lipsyncArrival z v s).knob = s.knob ∧
      (lipsyncArrival z v s).mods = s.mods ∧ (lipsyncArrival z v s).clock = s.clock ∧
      (lipsyncArrival z v s).audioStarted = s.audioStarted ∧ (lipsyncArrival z v s).lock = s.lock ∧
      (lipsyncArrival z v s).links = s.links ∧ (lipsyncArrival z v s).meas = s.meas ∧
      (lipsyncArrival z v s).fe = s.fe ∧ (lipsyncArrival z v s).tun = s.tun ∧
      (lipsyncArrival z v s).sd = s.sd ∧ (lipsyncArrival z v s).free = s.free := by
  unfold lipsyncArrival
  try dsimp only
  (repeat' split) <;> simp

@[simp] theorem presenceArrival_fields (s : State) :
    (presenceArrival s).pending = s.pending ∧ (presenceArrival s).rstnLow = s.rstnLow ∧
      (presenceArrival s).strap = s.strap ∧ (presenceArrival s).mem = s.mem ∧
      (presenceArrival s).readData = s.readData ∧ (presenceArrival s).agent = s.agent ∧
      (presenceArrival s).att = s.att ∧ (presenceArrival s).meterTimer = s.meterTimer ∧
      (presenceArrival s).answers = s.answers ∧ (presenceArrival s).sa = s.sa ∧
      (presenceArrival s).ms = s.ms ∧ (presenceArrival s).view = s.view ∧ (presenceArrival s).dec = s.dec ∧
      (presenceArrival s).bass = s.bass ∧ (presenceArrival s).gain = s.gain ∧
      (presenceArrival s).knob = s.knob ∧ (presenceArrival s).mods = s.mods ∧
      (presenceArrival s).clock = s.clock ∧ (presenceArrival s).audioStarted = s.audioStarted ∧
      (presenceArrival s).lock = s.lock ∧ (presenceArrival s).links = s.links ∧
      (presenceArrival s).meas = s.meas ∧ (presenceArrival s).fe = s.fe ∧ (presenceArrival s).tun = s.tun ∧
      (presenceArrival s).sd = s.sd ∧ (presenceArrival s).free = s.free := by
  unfold presenceArrival
  try dsimp only
  (repeat' split) <;> simp

@[simp] theorem closeGate_fields (z : Zone) (s : State) :
    (closeGate z s).pending = s.pending ∧ (closeGate z s).rstnLow = s.rstnLow ∧
      (closeGate z s).strap = s.strap ∧ (closeGate z s).mem = s.mem ∧ (closeGate z s).readData = s.readData ∧
      (closeGate z s).agent = s.agent ∧ (closeGate z s).att = s.att ∧ (closeGate z s).dirty = s.dirty ∧
      (closeGate z s).meterTimer = s.meterTimer ∧ (closeGate z s).answers = s.answers ∧
      (closeGate z s).sa = s.sa ∧ (closeGate z s).ms = s.ms ∧ (closeGate z s).view = s.view ∧
      (closeGate z s).dec = s.dec ∧ (closeGate z s).bass = s.bass ∧ (closeGate z s).knob = s.knob ∧
      (closeGate z s).pool = s.pool ∧ (closeGate z s).clock = s.clock ∧
      (closeGate z s).audioStarted = s.audioStarted ∧ (closeGate z s).lock = s.lock ∧
      (closeGate z s).links = s.links ∧ (closeGate z s).meas = s.meas ∧ (closeGate z s).fe = s.fe ∧
      (closeGate z s).tun = s.tun ∧ (closeGate z s).sd = s.sd ∧ (closeGate z s).free = s.free := by
  unfold closeGate
  try dsimp only
  (repeat' split) <;> simp

@[simp] theorem applyHeld_fields (z : Zone) (s : State) :
    (applyHeld z s).pending = s.pending ∧ (applyHeld z s).rstnLow = s.rstnLow ∧
      (applyHeld z s).strap = s.strap ∧ (applyHeld z s).mem = s.mem ∧ (applyHeld z s).readData = s.readData ∧
      (applyHeld z s).agent = s.agent ∧ (applyHeld z s).att = s.att ∧
      (applyHeld z s).meterTimer = s.meterTimer ∧ (applyHeld z s).answers = s.answers ∧
      (applyHeld z s).sa = s.sa ∧ (applyHeld z s).ms = s.ms ∧ (applyHeld z s).view = s.view ∧
      (applyHeld z s).gain = s.gain ∧ (applyHeld z s).knob = s.knob ∧ (applyHeld z s).mods = s.mods ∧
      (applyHeld z s).clock = s.clock ∧ (applyHeld z s).audioStarted = s.audioStarted ∧
      (applyHeld z s).lock = s.lock ∧ (applyHeld z s).links = s.links ∧ (applyHeld z s).meas = s.meas ∧
      (applyHeld z s).fe = s.fe ∧ (applyHeld z s).tun = s.tun ∧ (applyHeld z s).sd = s.sd ∧
      (applyHeld z s).free = s.free := by
  unfold applyHeld
  try dsimp only
  (repeat' split) <;> simp

@[simp] theorem enterFadeIn_fields (z : Zone) (s : State) :
    (enterFadeIn z s).pending = s.pending ∧ (enterFadeIn z s).rstnLow = s.rstnLow ∧
      (enterFadeIn z s).strap = s.strap ∧ (enterFadeIn z s).mem = s.mem ∧
      (enterFadeIn z s).readData = s.readData ∧ (enterFadeIn z s).agent = s.agent ∧
      (enterFadeIn z s).att = s.att ∧
      (enterFadeIn z s).meterTimer = s.meterTimer ∧ (enterFadeIn z s).answers = s.answers ∧
      (enterFadeIn z s).sa = s.sa ∧ (enterFadeIn z s).ms = s.ms ∧ (enterFadeIn z s).view = s.view ∧
      (enterFadeIn z s).dec = s.dec ∧ (enterFadeIn z s).bass = s.bass ∧ (enterFadeIn z s).gain = s.gain ∧
      (enterFadeIn z s).knob = s.knob ∧ (enterFadeIn z s).pool = s.pool ∧ (enterFadeIn z s).mods = s.mods ∧
      (enterFadeIn z s).clock = s.clock ∧ (enterFadeIn z s).audioStarted = s.audioStarted ∧
      (enterFadeIn z s).lock = s.lock ∧ (enterFadeIn z s).links = s.links ∧ (enterFadeIn z s).meas = s.meas ∧
      (enterFadeIn z s).fe = s.fe ∧ (enterFadeIn z s).tun = s.tun ∧ (enterFadeIn z s).sd = s.sd ∧
      (enterFadeIn z s).free = s.free := by
  unfold enterFadeIn
  try dsimp only
  (repeat' split) <;> simp

@[simp] theorem enterWaiting_fields (z : Zone) (s : State) :
    (enterWaiting z s).pending = s.pending ∧ (enterWaiting z s).rstnLow = s.rstnLow ∧
      (enterWaiting z s).strap = s.strap ∧ (enterWaiting z s).mem = s.mem ∧
      (enterWaiting z s).readData = s.readData ∧ (enterWaiting z s).agent = s.agent ∧
      (enterWaiting z s).att = s.att ∧
      (enterWaiting z s).meterTimer = s.meterTimer ∧ (enterWaiting z s).answers = s.answers ∧
      (enterWaiting z s).sa = s.sa ∧ (enterWaiting z s).ms = s.ms ∧ (enterWaiting z s).view = s.view ∧
      (enterWaiting z s).dec = s.dec ∧ (enterWaiting z s).bass = s.bass ∧ (enterWaiting z s).gain = s.gain ∧
      (enterWaiting z s).knob = s.knob ∧ (enterWaiting z s).pool = s.pool ∧
      (enterWaiting z s).mods = s.mods ∧ (enterWaiting z s).clock = s.clock ∧
      (enterWaiting z s).audioStarted = s.audioStarted ∧ (enterWaiting z s).lock = s.lock ∧
      (enterWaiting z s).links = s.links ∧ (enterWaiting z s).meas = s.meas ∧ (enterWaiting z s).fe = s.fe ∧
      (enterWaiting z s).tun = s.tun ∧ (enterWaiting z s).sd = s.sd ∧ (enterWaiting z s).free = s.free := by
  unfold enterWaiting
  try dsimp only
  (repeat' split) <;> simp

@[simp] theorem enterSilent_fields (z : Zone) (s : State) :
    (enterSilent z s).pending = s.pending ∧ (enterSilent z s).rstnLow = s.rstnLow ∧
      (enterSilent z s).strap = s.strap ∧ (enterSilent z s).mem = s.mem ∧
      (enterSilent z s).readData = s.readData ∧ (enterSilent z s).agent = s.agent ∧
      (enterSilent z s).att = s.att ∧
      (enterSilent z s).meterTimer = s.meterTimer ∧ (enterSilent z s).answers = s.answers ∧
      (enterSilent z s).sa = s.sa ∧ (enterSilent z s).ms = s.ms ∧ (enterSilent z s).view = s.view ∧
      (enterSilent z s).dec = s.dec ∧ (enterSilent z s).bass = s.bass ∧ (enterSilent z s).gain = s.gain ∧
      (enterSilent z s).knob = s.knob ∧ (enterSilent z s).pool = s.pool ∧ (enterSilent z s).mods = s.mods ∧
      (enterSilent z s).clock = s.clock ∧ (enterSilent z s).audioStarted = s.audioStarted ∧
      (enterSilent z s).lock = s.lock ∧ (enterSilent z s).links = s.links ∧ (enterSilent z s).meas = s.meas ∧
      (enterSilent z s).fe = s.fe ∧ (enterSilent z s).tun = s.tun ∧ (enterSilent z s).sd = s.sd ∧
      (enterSilent z s).free = s.free := by
  unfold enterSilent
  try dsimp only
  (repeat' split) <;> simp

@[simp] theorem connect_fields (z : Zone) (src : Option Source) (s : State) :
    (connect z src s).pending = s.pending ∧ (connect z src s).rstnLow = s.rstnLow ∧
      (connect z src s).strap = s.strap ∧ (connect z src s).mem = s.mem ∧
      (connect z src s).readData = s.readData ∧ (connect z src s).agent = s.agent ∧
      (connect z src s).att = s.att ∧
      (connect z src s).meterTimer = s.meterTimer ∧ (connect z src s).answers = s.answers ∧
      (connect z src s).sa = s.sa ∧ (connect z src s).ms = s.ms ∧ (connect z src s).view = s.view ∧
      (connect z src s).dec = s.dec ∧ (connect z src s).bass = s.bass ∧ (connect z src s).gain = s.gain ∧
      (connect z src s).knob = s.knob ∧ (connect z src s).pool = s.pool ∧ (connect z src s).mods = s.mods ∧
      (connect z src s).clock = s.clock ∧ (connect z src s).audioStarted = s.audioStarted ∧
      (connect z src s).lock = s.lock ∧ (connect z src s).links = s.links ∧ (connect z src s).meas = s.meas ∧
      (connect z src s).fe = s.fe ∧ (connect z src s).tun = s.tun ∧ (connect z src s).sd = s.sd ∧
      (connect z src s).free = s.free := by
  unfold connect
  try dsimp only
  (repeat' split) <;> simp

@[simp] theorem examineAfter_fields (held : HeldChanges) (s : State) :
    (examineAfter held s).pending = s.pending ∧ (examineAfter held s).rstnLow = s.rstnLow ∧
      (examineAfter held s).strap = s.strap ∧ (examineAfter held s).mem = s.mem ∧
      (examineAfter held s).readData = s.readData ∧ (examineAfter held s).agent = s.agent ∧
      (examineAfter held s).att = s.att ∧ (examineAfter held s).meterTimer = s.meterTimer ∧
      (examineAfter held s).answers = s.answers ∧ (examineAfter held s).sa = s.sa ∧
      (examineAfter held s).ms = s.ms ∧ (examineAfter held s).view = s.view ∧
      (examineAfter held s).dec = s.dec ∧ (examineAfter held s).bass = s.bass ∧
      (examineAfter held s).gain = s.gain ∧ (examineAfter held s).knob = s.knob ∧
      (examineAfter held s).mods = s.mods ∧ (examineAfter held s).clock = s.clock ∧
      (examineAfter held s).audioStarted = s.audioStarted ∧ (examineAfter held s).lock = s.lock ∧
      (examineAfter held s).links = s.links ∧ (examineAfter held s).meas = s.meas ∧
      (examineAfter held s).fe = s.fe ∧ (examineAfter held s).tun = s.tun ∧ (examineAfter held s).sd = s.sd ∧
      (examineAfter held s).free = s.free := by
  unfold examineAfter
  try dsimp only
  (repeat' split) <;> simp

@[simp] theorem fadeOutEnd_fields (z : Zone) (s : State) :
    (fadeOutEnd z s).pending = s.pending ∧ (fadeOutEnd z s).rstnLow = s.rstnLow ∧
      (fadeOutEnd z s).strap = s.strap ∧ (fadeOutEnd z s).mem = s.mem ∧
      (fadeOutEnd z s).readData = s.readData ∧ (fadeOutEnd z s).agent = s.agent ∧
      (fadeOutEnd z s).att = s.att ∧ (fadeOutEnd z s).meterTimer = s.meterTimer ∧
      (fadeOutEnd z s).answers = s.answers ∧ (fadeOutEnd z s).sa = s.sa ∧ (fadeOutEnd z s).ms = s.ms ∧
      (fadeOutEnd z s).view = s.view ∧ (fadeOutEnd z s).knob = s.knob ∧ (fadeOutEnd z s).clock = s.clock ∧
      (fadeOutEnd z s).audioStarted = s.audioStarted ∧ (fadeOutEnd z s).lock = s.lock ∧
      (fadeOutEnd z s).links = s.links ∧ (fadeOutEnd z s).meas = s.meas ∧ (fadeOutEnd z s).fe = s.fe ∧
      (fadeOutEnd z s).tun = s.tun ∧ (fadeOutEnd z s).sd = s.sd ∧ (fadeOutEnd z s).free = s.free := by
  unfold fadeOutEnd
  try dsimp only
  (repeat' split) <;> simp

@[simp] theorem reconfigureEnd_fields (z : Zone) (s : State) :
    (reconfigureEnd z s).pending = s.pending ∧ (reconfigureEnd z s).rstnLow = s.rstnLow ∧
      (reconfigureEnd z s).strap = s.strap ∧ (reconfigureEnd z s).mem = s.mem ∧
      (reconfigureEnd z s).readData = s.readData ∧ (reconfigureEnd z s).agent = s.agent ∧
      (reconfigureEnd z s).att = s.att ∧ (reconfigureEnd z s).meterTimer = s.meterTimer ∧
      (reconfigureEnd z s).answers = s.answers ∧ (reconfigureEnd z s).sa = s.sa ∧
      (reconfigureEnd z s).ms = s.ms ∧ (reconfigureEnd z s).view = s.view ∧
      (reconfigureEnd z s).knob = s.knob ∧ (reconfigureEnd z s).clock = s.clock ∧
      (reconfigureEnd z s).audioStarted = s.audioStarted ∧ (reconfigureEnd z s).lock = s.lock ∧
      (reconfigureEnd z s).links = s.links ∧ (reconfigureEnd z s).meas = s.meas ∧
      (reconfigureEnd z s).fe = s.fe ∧ (reconfigureEnd z s).tun = s.tun ∧ (reconfigureEnd z s).sd = s.sd ∧
      (reconfigureEnd z s).free = s.free := by
  unfold reconfigureEnd
  try dsimp only
  (repeat' split) <;> simp

@[simp] theorem dropFade_fields (z : Zone) (s : State) :
    (dropFade z s).pending = s.pending ∧ (dropFade z s).rstnLow = s.rstnLow ∧
      (dropFade z s).strap = s.strap ∧ (dropFade z s).mem = s.mem ∧ (dropFade z s).readData = s.readData ∧
      (dropFade z s).agent = s.agent ∧ (dropFade z s).att = s.att ∧ (dropFade z s).dirty = s.dirty ∧
      (dropFade z s).meterTimer = s.meterTimer ∧ (dropFade z s).answers = s.answers ∧
      (dropFade z s).sa = s.sa ∧ (dropFade z s).ms = s.ms ∧ (dropFade z s).view = s.view ∧
      (dropFade z s).dec = s.dec ∧ (dropFade z s).bass = s.bass ∧ (dropFade z s).gain = s.gain ∧
      (dropFade z s).knob = s.knob ∧ (dropFade z s).pool = s.pool ∧ (dropFade z s).mods = s.mods ∧
      (dropFade z s).clock = s.clock ∧ (dropFade z s).audioStarted = s.audioStarted ∧
      (dropFade z s).lock = s.lock ∧ (dropFade z s).links = s.links ∧ (dropFade z s).meas = s.meas ∧
      (dropFade z s).fe = s.fe ∧ (dropFade z s).tun = s.tun ∧ (dropFade z s).sd = s.sd ∧
      (dropFade z s).free = s.free := by
  unfold dropFade
  try dsimp only
  (repeat' split) <;> simp

@[simp] theorem zoneLoss_fields (z : Zone) (s : State) :
    (zoneLoss z s).pending = s.pending ∧ (zoneLoss z s).rstnLow = s.rstnLow ∧
      (zoneLoss z s).strap = s.strap ∧ (zoneLoss z s).mem = s.mem ∧ (zoneLoss z s).readData = s.readData ∧
      (zoneLoss z s).agent = s.agent ∧ (zoneLoss z s).att = s.att ∧
      (zoneLoss z s).meterTimer = s.meterTimer ∧ (zoneLoss z s).answers = s.answers ∧
      (zoneLoss z s).sa = s.sa ∧ (zoneLoss z s).ms = s.ms ∧ (zoneLoss z s).view = s.view ∧
      (zoneLoss z s).knob = s.knob ∧ (zoneLoss z s).clock = s.clock ∧
      (zoneLoss z s).audioStarted = s.audioStarted ∧ (zoneLoss z s).lock = s.lock ∧
      (zoneLoss z s).links = s.links ∧ (zoneLoss z s).meas = s.meas ∧ (zoneLoss z s).fe = s.fe ∧
      (zoneLoss z s).tun = s.tun ∧ (zoneLoss z s).sd = s.sd ∧ (zoneLoss z s).free = s.free := by
  unfold zoneLoss
  try dsimp only
  (repeat' split) <;> simp

@[simp] theorem zoneReturn_fields (z : Zone) (s : State) :
    (zoneReturn z s).pending = s.pending ∧ (zoneReturn z s).rstnLow = s.rstnLow ∧
      (zoneReturn z s).strap = s.strap ∧ (zoneReturn z s).mem = s.mem ∧
      (zoneReturn z s).readData = s.readData ∧ (zoneReturn z s).agent = s.agent ∧
      (zoneReturn z s).att = s.att ∧
      (zoneReturn z s).meterTimer = s.meterTimer ∧ (zoneReturn z s).answers = s.answers ∧
      (zoneReturn z s).sa = s.sa ∧ (zoneReturn z s).ms = s.ms ∧ (zoneReturn z s).view = s.view ∧
      (zoneReturn z s).dec = s.dec ∧ (zoneReturn z s).bass = s.bass ∧ (zoneReturn z s).gain = s.gain ∧
      (zoneReturn z s).knob = s.knob ∧ (zoneReturn z s).pool = s.pool ∧ (zoneReturn z s).mods = s.mods ∧
      (zoneReturn z s).clock = s.clock ∧ (zoneReturn z s).audioStarted = s.audioStarted ∧
      (zoneReturn z s).lock = s.lock ∧ (zoneReturn z s).links = s.links ∧ (zoneReturn z s).meas = s.meas ∧
      (zoneReturn z s).fe = s.fe ∧ (zoneReturn z s).tun = s.tun ∧ (zoneReturn z s).sd = s.sd ∧
      (zoneReturn z s).free = s.free := by
  unfold zoneReturn
  try dsimp only
  (repeat' split) <;> simp

@[simp] theorem zoneCarrying_fields (z : Zone) (src : Source) (on : Bool) (s : State) :
    (zoneCarrying z src on s).pending = s.pending ∧ (zoneCarrying z src on s).rstnLow = s.rstnLow ∧
      (zoneCarrying z src on s).strap = s.strap ∧ (zoneCarrying z src on s).mem = s.mem ∧
      (zoneCarrying z src on s).readData = s.readData ∧ (zoneCarrying z src on s).agent = s.agent ∧
      (zoneCarrying z src on s).att = s.att ∧ (zoneCarrying z src on s).meterTimer = s.meterTimer ∧
      (zoneCarrying z src on s).answers = s.answers ∧ (zoneCarrying z src on s).sa = s.sa ∧
      (zoneCarrying z src on s).ms = s.ms ∧ (zoneCarrying z src on s).view = s.view ∧
      (zoneCarrying z src on s).knob = s.knob ∧ (zoneCarrying z src on s).clock = s.clock ∧
      (zoneCarrying z src on s).audioStarted = s.audioStarted ∧ (zoneCarrying z src on s).lock = s.lock ∧
      (zoneCarrying z src on s).links = s.links ∧ (zoneCarrying z src on s).meas = s.meas ∧
      (zoneCarrying z src on s).fe = s.fe ∧ (zoneCarrying z src on s).tun = s.tun ∧
      (zoneCarrying z src on s).sd = s.sd ∧ (zoneCarrying z src on s).free = s.free := by
  unfold zoneCarrying
  try dsimp only
  (repeat' split) <;> simp

@[simp] theorem carryingEvent_fields (src : Source) (on : Bool) (s : State) :
    (carryingEvent src on s).pending = s.pending ∧ (carryingEvent src on s).rstnLow = s.rstnLow ∧
      (carryingEvent src on s).strap = s.strap ∧ (carryingEvent src on s).mem = s.mem ∧
      (carryingEvent src on s).readData = s.readData ∧ (carryingEvent src on s).agent = s.agent ∧
      (carryingEvent src on s).meterTimer = s.meterTimer ∧ (carryingEvent src on s).answers = s.answers ∧
      (carryingEvent src on s).sa = s.sa ∧ (carryingEvent src on s).ms = s.ms ∧
      (carryingEvent src on s).knob = s.knob ∧ (carryingEvent src on s).clock = s.clock ∧
      (carryingEvent src on s).audioStarted = s.audioStarted ∧ (carryingEvent src on s).lock = s.lock ∧
      (carryingEvent src on s).links = s.links ∧ (carryingEvent src on s).meas = s.meas ∧
      (carryingEvent src on s).fe = s.fe ∧ (carryingEvent src on s).tun = s.tun ∧
      (carryingEvent src on s).sd = s.sd ∧ (carryingEvent src on s).free = s.free := by
  unfold carryingEvent
  try dsimp only
  (repeat' split) <;> simp

@[simp] theorem startFadeOut_fields (z : Zone) (src : Option Source) (s : State) :
    (startFadeOut z src s).pending = s.pending ∧ (startFadeOut z src s).rstnLow = s.rstnLow ∧
      (startFadeOut z src s).strap = s.strap ∧ (startFadeOut z src s).mem = s.mem ∧
      (startFadeOut z src s).readData = s.readData ∧ (startFadeOut z src s).agent = s.agent ∧
      (startFadeOut z src s).att = s.att ∧
      (startFadeOut z src s).meterTimer = s.meterTimer ∧ (startFadeOut z src s).answers = s.answers ∧
      (startFadeOut z src s).sa = s.sa ∧ (startFadeOut z src s).ms = s.ms ∧
      (startFadeOut z src s).view = s.view ∧ (startFadeOut z src s).dec = s.dec ∧
      (startFadeOut z src s).bass = s.bass ∧ (startFadeOut z src s).gain = s.gain ∧
      (startFadeOut z src s).knob = s.knob ∧ (startFadeOut z src s).pool = s.pool ∧
      (startFadeOut z src s).mods = s.mods ∧ (startFadeOut z src s).clock = s.clock ∧
      (startFadeOut z src s).audioStarted = s.audioStarted ∧ (startFadeOut z src s).lock = s.lock ∧
      (startFadeOut z src s).links = s.links ∧ (startFadeOut z src s).meas = s.meas ∧
      (startFadeOut z src s).fe = s.fe ∧ (startFadeOut z src s).tun = s.tun ∧
      (startFadeOut z src s).sd = s.sd ∧ (startFadeOut z src s).free = s.free := by
  unfold startFadeOut
  try dsimp only
  (repeat' split) <;> simp

@[simp] theorem sourceAct_fields (z : Zone) (src : Option Source) (s : State) :
    (sourceAct z src s).pending = s.pending ∧ (sourceAct z src s).rstnLow = s.rstnLow ∧
      (sourceAct z src s).strap = s.strap ∧ (sourceAct z src s).mem = s.mem ∧
      (sourceAct z src s).readData = s.readData ∧ (sourceAct z src s).agent = s.agent ∧
      (sourceAct z src s).att = s.att ∧
      (sourceAct z src s).meterTimer = s.meterTimer ∧ (sourceAct z src s).answers = s.answers ∧
      (sourceAct z src s).sa = s.sa ∧ (sourceAct z src s).ms = s.ms ∧ (sourceAct z src s).view = s.view ∧
      (sourceAct z src s).dec = s.dec ∧ (sourceAct z src s).bass = s.bass ∧
      (sourceAct z src s).gain = s.gain ∧ (sourceAct z src s).knob = s.knob ∧
      (sourceAct z src s).pool = s.pool ∧ (sourceAct z src s).mods = s.mods ∧
      (sourceAct z src s).clock = s.clock ∧ (sourceAct z src s).audioStarted = s.audioStarted ∧
      (sourceAct z src s).lock = s.lock ∧ (sourceAct z src s).links = s.links ∧
      (sourceAct z src s).meas = s.meas ∧ (sourceAct z src s).fe = s.fe ∧ (sourceAct z src s).tun = s.tun ∧
      (sourceAct z src s).sd = s.sd ∧ (sourceAct z src s).free = s.free := by
  unfold sourceAct
  try dsimp only
  (repeat' split) <;> simp

@[simp] theorem sourceArrival_fields (z : Zone) (src : Option Source) (s : State) :
    (sourceArrival z src s).pending = s.pending ∧ (sourceArrival z src s).rstnLow = s.rstnLow ∧
      (sourceArrival z src s).strap = s.strap ∧ (sourceArrival z src s).mem = s.mem ∧
      (sourceArrival z src s).readData = s.readData ∧ (sourceArrival z src s).agent = s.agent ∧
      (sourceArrival z src s).att = s.att ∧
      (sourceArrival z src s).meterTimer = s.meterTimer ∧ (sourceArrival z src s).answers = s.answers ∧
      (sourceArrival z src s).sa = s.sa ∧ (sourceArrival z src s).ms = s.ms ∧
      (sourceArrival z src s).view = s.view ∧ (sourceArrival z src s).dec = s.dec ∧
      (sourceArrival z src s).bass = s.bass ∧ (sourceArrival z src s).gain = s.gain ∧
      (sourceArrival z src s).knob = s.knob ∧ (sourceArrival z src s).pool = s.pool ∧
      (sourceArrival z src s).mods = s.mods ∧ (sourceArrival z src s).clock = s.clock ∧
      (sourceArrival z src s).audioStarted = s.audioStarted ∧ (sourceArrival z src s).lock = s.lock ∧
      (sourceArrival z src s).links = s.links ∧ (sourceArrival z src s).meas = s.meas ∧
      (sourceArrival z src s).fe = s.fe ∧ (sourceArrival z src s).tun = s.tun ∧
      (sourceArrival z src s).sd = s.sd ∧ (sourceArrival z src s).free = s.free := by
  unfold sourceArrival
  try dsimp only
  (repeat' split) <;> simp

@[simp] theorem fadeStep_fields (z : Zone) (s : State) :
    (fadeStep z s).pending = s.pending ∧ (fadeStep z s).rstnLow = s.rstnLow ∧
      (fadeStep z s).strap = s.strap ∧ (fadeStep z s).mem = s.mem ∧ (fadeStep z s).readData = s.readData ∧
      (fadeStep z s).agent = s.agent ∧ (fadeStep z s).att = s.att ∧
      (fadeStep z s).meterTimer = s.meterTimer ∧ (fadeStep z s).answers = s.answers ∧
      (fadeStep z s).sa = s.sa ∧ (fadeStep z s).ms = s.ms ∧ (fadeStep z s).view = s.view ∧
      (fadeStep z s).knob = s.knob ∧ (fadeStep z s).clock = s.clock ∧
      (fadeStep z s).audioStarted = s.audioStarted ∧ (fadeStep z s).lock = s.lock ∧
      (fadeStep z s).links = s.links ∧ (fadeStep z s).meas = s.meas ∧ (fadeStep z s).fe = s.fe ∧
      (fadeStep z s).tun = s.tun ∧ (fadeStep z s).sd = s.sd ∧ (fadeStep z s).free = s.free := by
  unfold fadeStep
  try dsimp only
  (repeat' split) <;> simp

@[simp] theorem limitReached_fields (z : Zone) (s : State) :
    (limitReached z s).pending = s.pending ∧ (limitReached z s).rstnLow = s.rstnLow ∧
      (limitReached z s).strap = s.strap ∧ (limitReached z s).mem = s.mem ∧
      (limitReached z s).readData = s.readData ∧ (limitReached z s).agent = s.agent ∧
      (limitReached z s).meterTimer = s.meterTimer ∧ (limitReached z s).answers = s.answers ∧
      (limitReached z s).sa = s.sa ∧ (limitReached z s).ms = s.ms ∧ (limitReached z s).view = s.view ∧
      (limitReached z s).dec = s.dec ∧ (limitReached z s).bass = s.bass ∧ (limitReached z s).gain = s.gain ∧
      (limitReached z s).knob = s.knob ∧ (limitReached z s).pool = s.pool ∧
      (limitReached z s).mods = s.mods ∧ (limitReached z s).clock = s.clock ∧
      (limitReached z s).audioStarted = s.audioStarted ∧ (limitReached z s).lock = s.lock ∧
      (limitReached z s).links = s.links ∧ (limitReached z s).meas = s.meas ∧ (limitReached z s).fe = s.fe ∧
      (limitReached z s).tun = s.tun ∧ (limitReached z s).sd = s.sd ∧ (limitReached z s).free = s.free := by
  unfold limitReached
  try dsimp only
  (repeat' split) <;> simp

@[simp] theorem checkLimit_fields (z : Zone) (s : State) :
    (checkLimit z s).pending = s.pending ∧ (checkLimit z s).rstnLow = s.rstnLow ∧
      (checkLimit z s).strap = s.strap ∧ (checkLimit z s).mem = s.mem ∧
      (checkLimit z s).readData = s.readData ∧ (checkLimit z s).agent = s.agent ∧
      (checkLimit z s).meterTimer = s.meterTimer ∧ (checkLimit z s).answers = s.answers ∧
      (checkLimit z s).sa = s.sa ∧ (checkLimit z s).ms = s.ms ∧ (checkLimit z s).view = s.view ∧
      (checkLimit z s).dec = s.dec ∧ (checkLimit z s).bass = s.bass ∧ (checkLimit z s).gain = s.gain ∧
      (checkLimit z s).knob = s.knob ∧ (checkLimit z s).pool = s.pool ∧ (checkLimit z s).mods = s.mods ∧
      (checkLimit z s).clock = s.clock ∧ (checkLimit z s).audioStarted = s.audioStarted ∧
      (checkLimit z s).lock = s.lock ∧ (checkLimit z s).links = s.links ∧ (checkLimit z s).meas = s.meas ∧
      (checkLimit z s).fe = s.fe ∧ (checkLimit z s).tun = s.tun ∧ (checkLimit z s).sd = s.sd ∧
      (checkLimit z s).free = s.free := by
  unfold checkLimit
  try dsimp only
  (repeat' split) <;> simp

@[simp] theorem waitTick_fields (z : Zone) (s : State) :
    (waitTick z s).pending = s.pending ∧ (waitTick z s).rstnLow = s.rstnLow ∧
      (waitTick z s).strap = s.strap ∧ (waitTick z s).mem = s.mem ∧ (waitTick z s).readData = s.readData ∧
      (waitTick z s).agent = s.agent ∧ (waitTick z s).meterTimer = s.meterTimer ∧
      (waitTick z s).answers = s.answers ∧ (waitTick z s).sa = s.sa ∧ (waitTick z s).ms = s.ms ∧
      (waitTick z s).view = s.view ∧ (waitTick z s).dec = s.dec ∧ (waitTick z s).bass = s.bass ∧
      (waitTick z s).gain = s.gain ∧ (waitTick z s).knob = s.knob ∧ (waitTick z s).pool = s.pool ∧
      (waitTick z s).mods = s.mods ∧ (waitTick z s).clock = s.clock ∧
      (waitTick z s).audioStarted = s.audioStarted ∧ (waitTick z s).lock = s.lock ∧
      (waitTick z s).links = s.links ∧ (waitTick z s).meas = s.meas ∧ (waitTick z s).fe = s.fe ∧
      (waitTick z s).tun = s.tun ∧ (waitTick z s).sd = s.sd ∧ (waitTick z s).free = s.free := by
  unfold waitTick
  try dsimp only
  (repeat' split) <;> simp

@[simp] theorem fadeRateArrival_fields (z : Zone) (v : Nat) (s : State) :
    (fadeRateArrival z v s).pending = s.pending ∧ (fadeRateArrival z v s).rstnLow = s.rstnLow ∧
      (fadeRateArrival z v s).strap = s.strap ∧ (fadeRateArrival z v s).mem = s.mem ∧
      (fadeRateArrival z v s).readData = s.readData ∧ (fadeRateArrival z v s).agent = s.agent ∧
      (fadeRateArrival z v s).att = s.att ∧ (fadeRateArrival z v s).dirty = s.dirty ∧
      (fadeRateArrival z v s).meterTimer = s.meterTimer ∧ (fadeRateArrival z v s).answers = s.answers ∧
      (fadeRateArrival z v s).sa = s.sa ∧ (fadeRateArrival z v s).ms = s.ms ∧
      (fadeRateArrival z v s).view = s.view ∧ (fadeRateArrival z v s).dec = s.dec ∧
      (fadeRateArrival z v s).bass = s.bass ∧ (fadeRateArrival z v s).gain = s.gain ∧
      (fadeRateArrival z v s).knob = s.knob ∧ (fadeRateArrival z v s).pool = s.pool ∧
      (fadeRateArrival z v s).mods = s.mods ∧ (fadeRateArrival z v s).clock = s.clock ∧
      (fadeRateArrival z v s).audioStarted = s.audioStarted ∧ (fadeRateArrival z v s).lock = s.lock ∧
      (fadeRateArrival z v s).links = s.links ∧ (fadeRateArrival z v s).meas = s.meas ∧
      (fadeRateArrival z v s).fe = s.fe ∧ (fadeRateArrival z v s).tun = s.tun ∧
      (fadeRateArrival z v s).sd = s.sd ∧ (fadeRateArrival z v s).free = s.free := by
  unfold fadeRateArrival
  try dsimp only
  (repeat' split) <;> simp

@[simp] theorem waitLimitArrival_fields (z : Zone) (v : Nat) (s : State) :
    (waitLimitArrival z v s).pending = s.pending ∧ (waitLimitArrival z v s).rstnLow = s.rstnLow ∧
      (waitLimitArrival z v s).strap = s.strap ∧ (waitLimitArrival z v s).mem = s.mem ∧
      (waitLimitArrival z v s).readData = s.readData ∧ (waitLimitArrival z v s).agent = s.agent ∧
      (waitLimitArrival z v s).meterTimer = s.meterTimer ∧ (waitLimitArrival z v s).answers = s.answers ∧
      (waitLimitArrival z v s).sa = s.sa ∧ (waitLimitArrival z v s).ms = s.ms ∧
      (waitLimitArrival z v s).view = s.view ∧ (waitLimitArrival z v s).dec = s.dec ∧
      (waitLimitArrival z v s).bass = s.bass ∧ (waitLimitArrival z v s).gain = s.gain ∧
      (waitLimitArrival z v s).knob = s.knob ∧ (waitLimitArrival z v s).pool = s.pool ∧
      (waitLimitArrival z v s).mods = s.mods ∧ (waitLimitArrival z v s).clock = s.clock ∧
      (waitLimitArrival z v s).audioStarted = s.audioStarted ∧ (waitLimitArrival z v s).lock = s.lock ∧
      (waitLimitArrival z v s).links = s.links ∧ (waitLimitArrival z v s).meas = s.meas ∧
      (waitLimitArrival z v s).fe = s.fe ∧ (waitLimitArrival z v s).tun = s.tun ∧
      (waitLimitArrival z v s).sd = s.sd ∧ (waitLimitArrival z v s).free = s.free := by
  unfold waitLimitArrival
  try dsimp only
  (repeat' split) <;> simp

@[simp] theorem decodeModeArrival_fields (m : DecodeMode) (s : State) :
    (decodeModeArrival m s).pending = s.pending ∧ (decodeModeArrival m s).rstnLow = s.rstnLow ∧
      (decodeModeArrival m s).strap = s.strap ∧ (decodeModeArrival m s).mem = s.mem ∧
      (decodeModeArrival m s).readData = s.readData ∧ (decodeModeArrival m s).agent = s.agent ∧
      (decodeModeArrival m s).att = s.att ∧ (decodeModeArrival m s).meterTimer = s.meterTimer ∧
      (decodeModeArrival m s).answers = s.answers ∧ (decodeModeArrival m s).sa = s.sa ∧
      (decodeModeArrival m s).ms = s.ms ∧ (decodeModeArrival m s).view = s.view ∧
      (decodeModeArrival m s).bass = s.bass ∧ (decodeModeArrival m s).gain = s.gain ∧
      (decodeModeArrival m s).knob = s.knob ∧ (decodeModeArrival m s).pool = s.pool ∧
      (decodeModeArrival m s).mods = s.mods ∧ (decodeModeArrival m s).clock = s.clock ∧
      (decodeModeArrival m s).audioStarted = s.audioStarted ∧ (decodeModeArrival m s).lock = s.lock ∧
      (decodeModeArrival m s).links = s.links ∧ (decodeModeArrival m s).meas = s.meas ∧
      (decodeModeArrival m s).fe = s.fe ∧ (decodeModeArrival m s).tun = s.tun ∧
      (decodeModeArrival m s).sd = s.sd ∧ (decodeModeArrival m s).free = s.free := by
  unfold decodeModeArrival requestChange
  dsimp only
  (repeat' split) <;> simp

@[simp] theorem steerSpeedArrival_fields (v : SteerSpeed) (s : State) :
    (steerSpeedArrival v s).pending = s.pending ∧ (steerSpeedArrival v s).rstnLow = s.rstnLow ∧
      (steerSpeedArrival v s).strap = s.strap ∧ (steerSpeedArrival v s).mem = s.mem ∧
      (steerSpeedArrival v s).readData = s.readData ∧ (steerSpeedArrival v s).agent = s.agent ∧
      (steerSpeedArrival v s).att = s.att ∧ (steerSpeedArrival v s).dirty = s.dirty ∧
      (steerSpeedArrival v s).meterTimer = s.meterTimer ∧ (steerSpeedArrival v s).answers = s.answers ∧
      (steerSpeedArrival v s).sa = s.sa ∧ (steerSpeedArrival v s).ms = s.ms ∧
      (steerSpeedArrival v s).zones = s.zones ∧ (steerSpeedArrival v s).view = s.view ∧
      (steerSpeedArrival v s).bass = s.bass ∧ (steerSpeedArrival v s).gain = s.gain ∧
      (steerSpeedArrival v s).knob = s.knob ∧ (steerSpeedArrival v s).pool = s.pool ∧
      (steerSpeedArrival v s).mods = s.mods ∧ (steerSpeedArrival v s).clock = s.clock ∧
      (steerSpeedArrival v s).audioStarted = s.audioStarted ∧ (steerSpeedArrival v s).lock = s.lock ∧
      (steerSpeedArrival v s).links = s.links ∧ (steerSpeedArrival v s).meas = s.meas ∧
      (steerSpeedArrival v s).fe = s.fe ∧ (steerSpeedArrival v s).tun = s.tun ∧
      (steerSpeedArrival v s).sd = s.sd ∧ (steerSpeedArrival v s).free = s.free := by
  unfold steerSpeedArrival
  try dsimp only
  (repeat' split) <;> simp

@[simp] theorem speakerArrival_fields (p : SpeakerSlot) (v : Word) (s : State) :
    (speakerArrival p v s).pending = s.pending ∧ (speakerArrival p v s).rstnLow = s.rstnLow ∧
      (speakerArrival p v s).strap = s.strap ∧ (speakerArrival p v s).mem = s.mem ∧
      (speakerArrival p v s).readData = s.readData ∧ (speakerArrival p v s).att = s.att ∧
      (speakerArrival p v s).meterTimer = s.meterTimer ∧ (speakerArrival p v s).answers = s.answers ∧
      (speakerArrival p v s).sa = s.sa ∧ (speakerArrival p v s).ms = s.ms ∧
      (speakerArrival p v s).view = s.view ∧ (speakerArrival p v s).dec = s.dec ∧
      (speakerArrival p v s).gain = s.gain ∧ (speakerArrival p v s).knob = s.knob ∧
      (speakerArrival p v s).mods = s.mods ∧ (speakerArrival p v s).clock = s.clock ∧
      (speakerArrival p v s).audioStarted = s.audioStarted ∧ (speakerArrival p v s).lock = s.lock ∧
      (speakerArrival p v s).links = s.links ∧ (speakerArrival p v s).meas = s.meas ∧
      (speakerArrival p v s).fe = s.fe ∧ (speakerArrival p v s).tun = s.tun ∧
      (speakerArrival p v s).sd = s.sd ∧ (speakerArrival p v s).free = s.free := by
  unfold speakerArrival requestChange
  dsimp only
  (repeat' split) <;> simp

@[simp] theorem resumeCarrying_fields (z : Zone) (s : State) :
    (resumeCarrying z s).pending = s.pending ∧ (resumeCarrying z s).rstnLow = s.rstnLow ∧
      (resumeCarrying z s).strap = s.strap ∧ (resumeCarrying z s).mem = s.mem ∧
      (resumeCarrying z s).readData = s.readData ∧ (resumeCarrying z s).agent = s.agent ∧
      (resumeCarrying z s).att = s.att ∧ (resumeCarrying z s).meterTimer = s.meterTimer ∧
      (resumeCarrying z s).answers = s.answers ∧ (resumeCarrying z s).sa = s.sa ∧
      (resumeCarrying z s).ms = s.ms ∧ (resumeCarrying z s).view = s.view ∧
      (resumeCarrying z s).knob = s.knob ∧ (resumeCarrying z s).clock = s.clock ∧
      (resumeCarrying z s).audioStarted = s.audioStarted ∧ (resumeCarrying z s).lock = s.lock ∧
      (resumeCarrying z s).links = s.links ∧ (resumeCarrying z s).meas = s.meas ∧
      (resumeCarrying z s).fe = s.fe ∧ (resumeCarrying z s).tun = s.tun ∧ (resumeCarrying z s).sd = s.sd ∧
      (resumeCarrying z s).free = s.free := by
  unfold resumeCarrying
  try dsimp only
  (repeat' split) <;> simp

@[simp] theorem resumeSource_fields (z : Zone) (s : State) :
    (resumeSource z s).pending = s.pending ∧ (resumeSource z s).rstnLow = s.rstnLow ∧
      (resumeSource z s).strap = s.strap ∧ (resumeSource z s).mem = s.mem ∧
      (resumeSource z s).readData = s.readData ∧ (resumeSource z s).agent = s.agent ∧
      (resumeSource z s).att = s.att ∧
      (resumeSource z s).meterTimer = s.meterTimer ∧ (resumeSource z s).answers = s.answers ∧
      (resumeSource z s).sa = s.sa ∧ (resumeSource z s).ms = s.ms ∧ (resumeSource z s).view = s.view ∧
      (resumeSource z s).dec = s.dec ∧ (resumeSource z s).bass = s.bass ∧ (resumeSource z s).gain = s.gain ∧
      (resumeSource z s).knob = s.knob ∧ (resumeSource z s).pool = s.pool ∧
      (resumeSource z s).mods = s.mods ∧ (resumeSource z s).clock = s.clock ∧
      (resumeSource z s).audioStarted = s.audioStarted ∧ (resumeSource z s).lock = s.lock ∧
      (resumeSource z s).links = s.links ∧ (resumeSource z s).meas = s.meas ∧ (resumeSource z s).fe = s.fe ∧
      (resumeSource z s).tun = s.tun ∧ (resumeSource z s).sd = s.sd ∧ (resumeSource z s).free = s.free := by
  unfold resumeSource
  try dsimp only
  (repeat' split) <;> simp

@[simp] theorem resumeHeld_fields (z : Zone) (s : State) :
    (resumeHeld z s).pending = s.pending ∧ (resumeHeld z s).rstnLow = s.rstnLow ∧
      (resumeHeld z s).strap = s.strap ∧ (resumeHeld z s).mem = s.mem ∧
      (resumeHeld z s).readData = s.readData ∧ (resumeHeld z s).agent = s.agent ∧
      (resumeHeld z s).att = s.att ∧ (resumeHeld z s).meterTimer = s.meterTimer ∧
      (resumeHeld z s).answers = s.answers ∧ (resumeHeld z s).sa = s.sa ∧ (resumeHeld z s).ms = s.ms ∧
      (resumeHeld z s).view = s.view ∧ (resumeHeld z s).gain = s.gain ∧ (resumeHeld z s).knob = s.knob ∧
      (resumeHeld z s).mods = s.mods ∧ (resumeHeld z s).clock = s.clock ∧
      (resumeHeld z s).audioStarted = s.audioStarted ∧ (resumeHeld z s).lock = s.lock ∧
      (resumeHeld z s).links = s.links ∧ (resumeHeld z s).meas = s.meas ∧ (resumeHeld z s).fe = s.fe ∧
      (resumeHeld z s).tun = s.tun ∧ (resumeHeld z s).sd = s.sd ∧ (resumeHeld z s).free = s.free := by
  unfold resumeHeld
  try dsimp only
  (repeat' split) <;> simp

@[simp] theorem resumeZone_fields (z : Zone) (s : State) :
    (resumeZone z s).pending = s.pending ∧ (resumeZone z s).rstnLow = s.rstnLow ∧
      (resumeZone z s).strap = s.strap ∧ (resumeZone z s).mem = s.mem ∧
      (resumeZone z s).readData = s.readData ∧ (resumeZone z s).agent = s.agent ∧
      (resumeZone z s).meterTimer = s.meterTimer ∧ (resumeZone z s).answers = s.answers ∧
      (resumeZone z s).sa = s.sa ∧ (resumeZone z s).ms = s.ms ∧ (resumeZone z s).view = s.view ∧
      (resumeZone z s).knob = s.knob ∧ (resumeZone z s).clock = s.clock ∧
      (resumeZone z s).audioStarted = s.audioStarted ∧ (resumeZone z s).lock = s.lock ∧
      (resumeZone z s).links = s.links ∧ (resumeZone z s).meas = s.meas ∧ (resumeZone z s).fe = s.fe ∧
      (resumeZone z s).tun = s.tun ∧ (resumeZone z s).sd = s.sd ∧ (resumeZone z s).free = s.free := by
  unfold resumeZone
  try dsimp only
  (repeat' split) <;> simp

@[simp] theorem lineCarryingFrom_fields (l : SaLine) (was : Bool) (s : State) :
    (lineCarryingFrom l was s).pending = s.pending ∧ (lineCarryingFrom l was s).rstnLow = s.rstnLow ∧
      (lineCarryingFrom l was s).strap = s.strap ∧ (lineCarryingFrom l was s).mem = s.mem ∧
      (lineCarryingFrom l was s).readData = s.readData ∧ (lineCarryingFrom l was s).agent = s.agent ∧
      (lineCarryingFrom l was s).meterTimer = s.meterTimer ∧ (lineCarryingFrom l was s).answers = s.answers ∧
      (lineCarryingFrom l was s).sa = s.sa ∧ (lineCarryingFrom l was s).ms = s.ms ∧
      (lineCarryingFrom l was s).knob = s.knob ∧ (lineCarryingFrom l was s).clock = s.clock ∧
      (lineCarryingFrom l was s).audioStarted = s.audioStarted ∧ (lineCarryingFrom l was s).lock = s.lock ∧
      (lineCarryingFrom l was s).links = s.links ∧ (lineCarryingFrom l was s).meas = s.meas ∧
      (lineCarryingFrom l was s).fe = s.fe ∧ (lineCarryingFrom l was s).tun = s.tun ∧
      (lineCarryingFrom l was s).sd = s.sd ∧ (lineCarryingFrom l was s).free = s.free := by
  unfold lineCarryingFrom
  try dsimp only
  (repeat' split) <;> simp

@[simp] theorem lineStepWith_fields (l : SaLine) (f : SaState → SaState) (s : State) :
    (lineStepWith l f s).pending = s.pending ∧ (lineStepWith l f s).rstnLow = s.rstnLow ∧
      (lineStepWith l f s).strap = s.strap ∧ (lineStepWith l f s).mem = s.mem ∧
      (lineStepWith l f s).readData = s.readData ∧ (lineStepWith l f s).agent = s.agent ∧
      (lineStepWith l f s).meterTimer = s.meterTimer ∧ (lineStepWith l f s).answers = s.answers ∧
      (lineStepWith l f s).ms = s.ms ∧ (lineStepWith l f s).knob = s.knob ∧
      (lineStepWith l f s).clock = s.clock ∧ (lineStepWith l f s).audioStarted = s.audioStarted ∧
      (lineStepWith l f s).lock = s.lock ∧ (lineStepWith l f s).links = s.links ∧
      (lineStepWith l f s).meas = s.meas ∧ (lineStepWith l f s).fe = s.fe ∧
      (lineStepWith l f s).tun = s.tun ∧ (lineStepWith l f s).sd = s.sd ∧ (lineStepWith l f s).free = s.free := by
  unfold lineStepWith
  try dsimp only
  (repeat' split) <;> simp

@[simp] theorem formatArrival_fields (l : SaLine) (f : Format) (s : State) :
    (formatArrival l f s).pending = s.pending ∧ (formatArrival l f s).rstnLow = s.rstnLow ∧
      (formatArrival l f s).strap = s.strap ∧ (formatArrival l f s).mem = s.mem ∧
      (formatArrival l f s).readData = s.readData ∧ (formatArrival l f s).agent = s.agent ∧
      (formatArrival l f s).meterTimer = s.meterTimer ∧ (formatArrival l f s).answers = s.answers ∧
      (formatArrival l f s).ms = s.ms ∧ (formatArrival l f s).knob = s.knob ∧
      (formatArrival l f s).clock = s.clock ∧ (formatArrival l f s).audioStarted = s.audioStarted ∧
      (formatArrival l f s).lock = s.lock ∧ (formatArrival l f s).links = s.links ∧
      (formatArrival l f s).meas = s.meas ∧ (formatArrival l f s).fe = s.fe ∧
      (formatArrival l f s).tun = s.tun ∧ (formatArrival l f s).sd = s.sd ∧
      (formatArrival l f s).free = s.free := by
  unfold formatArrival
  try dsimp only
  (repeat' split) <;> simp

@[simp] theorem npcmPinChange_fields (l : SaLine) (level : Bool) (s : State) :
    (npcmPinChange l level s).pending = s.pending ∧ (npcmPinChange l level s).rstnLow = s.rstnLow ∧
      (npcmPinChange l level s).strap = s.strap ∧ (npcmPinChange l level s).mem = s.mem ∧
      (npcmPinChange l level s).readData = s.readData ∧ (npcmPinChange l level s).agent = s.agent ∧
      (npcmPinChange l level s).att = s.att ∧ (npcmPinChange l level s).dirty = s.dirty ∧
      (npcmPinChange l level s).meterTimer = s.meterTimer ∧ (npcmPinChange l level s).answers = s.answers ∧
      (npcmPinChange l level s).ms = s.ms ∧ (npcmPinChange l level s).zones = s.zones ∧
      (npcmPinChange l level s).view = s.view ∧ (npcmPinChange l level s).dec = s.dec ∧
      (npcmPinChange l level s).bass = s.bass ∧ (npcmPinChange l level s).gain = s.gain ∧
      (npcmPinChange l level s).knob = s.knob ∧ (npcmPinChange l level s).pool = s.pool ∧
      (npcmPinChange l level s).mods = s.mods ∧ (npcmPinChange l level s).clock = s.clock ∧
      (npcmPinChange l level s).audioStarted = s.audioStarted ∧ (npcmPinChange l level s).lock = s.lock ∧
      (npcmPinChange l level s).links = s.links ∧ (npcmPinChange l level s).meas = s.meas ∧
      (npcmPinChange l level s).fe = s.fe ∧ (npcmPinChange l level s).tun = s.tun ∧
      (npcmPinChange l level s).sd = s.sd ∧ (npcmPinChange l level s).free = s.free := by
  unfold npcmPinChange
  try dsimp only
  (repeat' split) <;> simp

@[simp] theorem npcmStable_fields (l : SaLine) (s : State) :
    (npcmStable l s).pending = s.pending ∧ (npcmStable l s).rstnLow = s.rstnLow ∧
      (npcmStable l s).strap = s.strap ∧ (npcmStable l s).mem = s.mem ∧
      (npcmStable l s).readData = s.readData ∧ (npcmStable l s).agent = s.agent ∧
      (npcmStable l s).meterTimer = s.meterTimer ∧ (npcmStable l s).answers = s.answers ∧
      (npcmStable l s).ms = s.ms ∧ (npcmStable l s).knob = s.knob ∧ (npcmStable l s).clock = s.clock ∧
      (npcmStable l s).audioStarted = s.audioStarted ∧ (npcmStable l s).lock = s.lock ∧
      (npcmStable l s).links = s.links ∧ (npcmStable l s).meas = s.meas ∧ (npcmStable l s).fe = s.fe ∧
      (npcmStable l s).tun = s.tun ∧ (npcmStable l s).sd = s.sd ∧ (npcmStable l s).free = s.free := by
  unfold npcmStable
  try dsimp only
  (repeat' split) <;> simp

@[simp] theorem resumeLine_fields (l : SaLine) (s : State) :
    (resumeLine l s).pending = s.pending ∧ (resumeLine l s).rstnLow = s.rstnLow ∧
      (resumeLine l s).strap = s.strap ∧ (resumeLine l s).mem = s.mem ∧
      (resumeLine l s).readData = s.readData ∧ (resumeLine l s).agent = s.agent ∧
      (resumeLine l s).meterTimer = s.meterTimer ∧ (resumeLine l s).answers = s.answers ∧
      (resumeLine l s).ms = s.ms ∧ (resumeLine l s).knob = s.knob ∧ (resumeLine l s).clock = s.clock ∧
      (resumeLine l s).audioStarted = s.audioStarted ∧ (resumeLine l s).lock = s.lock ∧
      (resumeLine l s).links = s.links ∧ (resumeLine l s).meas = s.meas ∧ (resumeLine l s).fe = s.fe ∧
      (resumeLine l s).tun = s.tun ∧ (resumeLine l s).sd = s.sd ∧ (resumeLine l s).free = s.free := by
  unfold resumeLine
  try dsimp only
  (repeat' split) <;> simp

@[simp] theorem discardFetch_fields (m : StreamId) (s : State) :
    (discardFetch m s).pending = s.pending ∧ (discardFetch m s).rstnLow = s.rstnLow ∧
      (discardFetch m s).strap = s.strap ∧ (discardFetch m s).mem = s.mem ∧
      (discardFetch m s).readData = s.readData ∧ (discardFetch m s).att = s.att ∧
      (discardFetch m s).dirty = s.dirty ∧ (discardFetch m s).meterTimer = s.meterTimer ∧
      (discardFetch m s).answers = s.answers ∧ (discardFetch m s).sa = s.sa ∧ (discardFetch m s).ms = s.ms ∧
      (discardFetch m s).zones = s.zones ∧ (discardFetch m s).view = s.view ∧
      (discardFetch m s).dec = s.dec ∧ (discardFetch m s).bass = s.bass ∧ (discardFetch m s).gain = s.gain ∧
      (discardFetch m s).knob = s.knob ∧ (discardFetch m s).pool = s.pool ∧
      (discardFetch m s).mods = s.mods ∧ (discardFetch m s).clock = s.clock ∧
      (discardFetch m s).audioStarted = s.audioStarted ∧ (discardFetch m s).lock = s.lock ∧
      (discardFetch m s).links = s.links ∧ (discardFetch m s).meas = s.meas ∧ (discardFetch m s).fe = s.fe ∧
      (discardFetch m s).tun = s.tun ∧ (discardFetch m s).sd = s.sd ∧ (discardFetch m s).free = s.free := by
  unfold discardFetch
  try dsimp only
  (repeat' split) <;> simp

@[simp] theorem enterStreamState_fields (m : StreamId) (next : StreamState) (s : State) :
    (enterStreamState m next s).pending = s.pending ∧ (enterStreamState m next s).rstnLow = s.rstnLow ∧
      (enterStreamState m next s).strap = s.strap ∧ (enterStreamState m next s).mem = s.mem ∧
      (enterStreamState m next s).readData = s.readData ∧ (enterStreamState m next s).agent = s.agent ∧
      (enterStreamState m next s).meterTimer = s.meterTimer ∧
      (enterStreamState m next s).answers = s.answers ∧ (enterStreamState m next s).sa = s.sa ∧
      (enterStreamState m next s).knob = s.knob ∧ (enterStreamState m next s).clock = s.clock ∧
      (enterStreamState m next s).audioStarted = s.audioStarted ∧ (enterStreamState m next s).lock = s.lock ∧
      (enterStreamState m next s).links = s.links ∧ (enterStreamState m next s).meas = s.meas ∧
      (enterStreamState m next s).fe = s.fe ∧ (enterStreamState m next s).tun = s.tun ∧
      (enterStreamState m next s).sd = s.sd ∧ (enterStreamState m next s).free = s.free := by
  unfold enterStreamState
  try dsimp only
  (repeat' split) <;> simp

@[simp] theorem streamStartTaken_fields (m : StreamId) (s : State) :
    (streamStartTaken m s).pending = s.pending ∧ (streamStartTaken m s).rstnLow = s.rstnLow ∧
      (streamStartTaken m s).strap = s.strap ∧ (streamStartTaken m s).mem = s.mem ∧
      (streamStartTaken m s).readData = s.readData ∧ (streamStartTaken m s).agent = s.agent ∧
      (streamStartTaken m s).meterTimer = s.meterTimer ∧ (streamStartTaken m s).answers = s.answers ∧
      (streamStartTaken m s).sa = s.sa ∧ (streamStartTaken m s).knob = s.knob ∧
      (streamStartTaken m s).clock = s.clock ∧ (streamStartTaken m s).audioStarted = s.audioStarted ∧
      (streamStartTaken m s).lock = s.lock ∧ (streamStartTaken m s).links = s.links ∧
      (streamStartTaken m s).meas = s.meas ∧ (streamStartTaken m s).fe = s.fe ∧
      (streamStartTaken m s).tun = s.tun ∧ (streamStartTaken m s).sd = s.sd ∧
      (streamStartTaken m s).free = s.free := by
  unfold streamStartTaken
  try dsimp only
  (repeat' split) <;> simp

@[simp] theorem streamStopTaken_fields (m : StreamId) (s : State) :
    (streamStopTaken m s).pending = s.pending ∧ (streamStopTaken m s).rstnLow = s.rstnLow ∧
      (streamStopTaken m s).strap = s.strap ∧ (streamStopTaken m s).mem = s.mem ∧
      (streamStopTaken m s).readData = s.readData ∧ (streamStopTaken m s).meterTimer = s.meterTimer ∧
      (streamStopTaken m s).answers = s.answers ∧ (streamStopTaken m s).sa = s.sa ∧
      (streamStopTaken m s).knob = s.knob ∧ (streamStopTaken m s).clock = s.clock ∧
      (streamStopTaken m s).audioStarted = s.audioStarted ∧ (streamStopTaken m s).lock = s.lock ∧
      (streamStopTaken m s).links = s.links ∧ (streamStopTaken m s).meas = s.meas ∧
      (streamStopTaken m s).fe = s.fe ∧ (streamStopTaken m s).tun = s.tun ∧ (streamStopTaken m s).sd = s.sd ∧
      (streamStopTaken m s).free = s.free := by
  unfold streamStopTaken
  try dsimp only
  (repeat' split) <;> simp

@[simp] theorem streamStartCommand_fields (m : StreamId) (s : State) :
    (streamStartCommand m s).pending = s.pending ∧ (streamStartCommand m s).rstnLow = s.rstnLow ∧
      (streamStartCommand m s).strap = s.strap ∧ (streamStartCommand m s).mem = s.mem ∧
      (streamStartCommand m s).readData = s.readData ∧ (streamStartCommand m s).meterTimer = s.meterTimer ∧
      (streamStartCommand m s).sa = s.sa ∧ (streamStartCommand m s).knob = s.knob ∧
      (streamStartCommand m s).clock = s.clock ∧ (streamStartCommand m s).audioStarted = s.audioStarted ∧
      (streamStartCommand m s).lock = s.lock ∧ (streamStartCommand m s).links = s.links ∧
      (streamStartCommand m s).meas = s.meas ∧ (streamStartCommand m s).fe = s.fe ∧
      (streamStartCommand m s).tun = s.tun ∧ (streamStartCommand m s).sd = s.sd ∧
      (streamStartCommand m s).free = s.free := by
  unfold streamStartCommand
  try dsimp only
  (repeat' split) <;> simp

@[simp] theorem streamStopCommand_fields (m : StreamId) (s : State) :
    (streamStopCommand m s).pending = s.pending ∧ (streamStopCommand m s).rstnLow = s.rstnLow ∧
      (streamStopCommand m s).strap = s.strap ∧ (streamStopCommand m s).mem = s.mem ∧
      (streamStopCommand m s).readData = s.readData ∧ (streamStopCommand m s).meterTimer = s.meterTimer ∧
      (streamStopCommand m s).sa = s.sa ∧ (streamStopCommand m s).knob = s.knob ∧
      (streamStopCommand m s).clock = s.clock ∧ (streamStopCommand m s).audioStarted = s.audioStarted ∧
      (streamStopCommand m s).lock = s.lock ∧ (streamStopCommand m s).links = s.links ∧
      (streamStopCommand m s).meas = s.meas ∧ (streamStopCommand m s).fe = s.fe ∧
      (streamStopCommand m s).tun = s.tun ∧ (streamStopCommand m s).sd = s.sd ∧
      (streamStopCommand m s).free = s.free := by
  unfold streamStopCommand
  try dsimp only
  (repeat' split) <;> simp

@[simp] theorem streamCommand_fields (m : StreamId) (v : Word) (s : State) :
    (streamCommand m v s).pending = s.pending ∧ (streamCommand m v s).rstnLow = s.rstnLow ∧
      (streamCommand m v s).strap = s.strap ∧ (streamCommand m v s).mem = s.mem ∧
      (streamCommand m v s).readData = s.readData ∧ (streamCommand m v s).meterTimer = s.meterTimer ∧
      (streamCommand m v s).sa = s.sa ∧ (streamCommand m v s).knob = s.knob ∧
      (streamCommand m v s).clock = s.clock ∧ (streamCommand m v s).audioStarted = s.audioStarted ∧
      (streamCommand m v s).lock = s.lock ∧ (streamCommand m v s).links = s.links ∧
      (streamCommand m v s).meas = s.meas ∧ (streamCommand m v s).fe = s.fe ∧
      (streamCommand m v s).tun = s.tun ∧ (streamCommand m v s).sd = s.sd ∧
      (streamCommand m v s).free = s.free := by
  unfold streamCommand
  try dsimp only
  (repeat' split) <;> simp

@[simp] theorem fillArrival_fields (m : StreamId) (v : Nat) (s : State) :
    (fillArrival m v s).pending = s.pending ∧ (fillArrival m v s).rstnLow = s.rstnLow ∧
      (fillArrival m v s).strap = s.strap ∧ (fillArrival m v s).mem = s.mem ∧
      (fillArrival m v s).readData = s.readData ∧ (fillArrival m v s).agent = s.agent ∧
      (fillArrival m v s).att = s.att ∧ (fillArrival m v s).dirty = s.dirty ∧
      (fillArrival m v s).meterTimer = s.meterTimer ∧ (fillArrival m v s).answers = s.answers ∧
      (fillArrival m v s).sa = s.sa ∧ (fillArrival m v s).zones = s.zones ∧
      (fillArrival m v s).view = s.view ∧ (fillArrival m v s).dec = s.dec ∧
      (fillArrival m v s).bass = s.bass ∧ (fillArrival m v s).gain = s.gain ∧
      (fillArrival m v s).knob = s.knob ∧ (fillArrival m v s).pool = s.pool ∧
      (fillArrival m v s).mods = s.mods ∧ (fillArrival m v s).clock = s.clock ∧
      (fillArrival m v s).audioStarted = s.audioStarted ∧ (fillArrival m v s).lock = s.lock ∧
      (fillArrival m v s).links = s.links ∧ (fillArrival m v s).meas = s.meas ∧
      (fillArrival m v s).fe = s.fe ∧ (fillArrival m v s).tun = s.tun ∧ (fillArrival m v s).sd = s.sd ∧
      (fillArrival m v s).free = s.free := by
  unfold fillArrival
  try dsimp only
  (repeat' split) <;> simp

@[simp] theorem starve_fields (m : StreamId) (s : State) :
    (starve m s).pending = s.pending ∧ (starve m s).rstnLow = s.rstnLow ∧ (starve m s).strap = s.strap ∧
      (starve m s).mem = s.mem ∧ (starve m s).readData = s.readData ∧ (starve m s).agent = s.agent ∧
      (starve m s).meterTimer = s.meterTimer ∧ (starve m s).answers = s.answers ∧ (starve m s).sa = s.sa ∧
      (starve m s).knob = s.knob ∧ (starve m s).clock = s.clock ∧
      (starve m s).audioStarted = s.audioStarted ∧ (starve m s).lock = s.lock ∧
      (starve m s).links = s.links ∧ (starve m s).meas = s.meas ∧ (starve m s).fe = s.fe ∧
      (starve m s).tun = s.tun ∧ (starve m s).sd = s.sd ∧ (starve m s).free = s.free := by
  unfold starve
  try dsimp only
  (repeat' split) <;> simp

@[simp] theorem frameInstant_fields (m : StreamId) (s : State) :
    (frameInstant m s).pending = s.pending ∧ (frameInstant m s).rstnLow = s.rstnLow ∧
      (frameInstant m s).strap = s.strap ∧ (frameInstant m s).mem = s.mem ∧
      (frameInstant m s).readData = s.readData ∧ (frameInstant m s).agent = s.agent ∧
      (frameInstant m s).meterTimer = s.meterTimer ∧ (frameInstant m s).answers = s.answers ∧
      (frameInstant m s).sa = s.sa ∧ (frameInstant m s).knob = s.knob ∧ (frameInstant m s).clock = s.clock ∧
      (frameInstant m s).audioStarted = s.audioStarted ∧ (frameInstant m s).lock = s.lock ∧
      (frameInstant m s).links = s.links ∧ (frameInstant m s).meas = s.meas ∧ (frameInstant m s).fe = s.fe ∧
      (frameInstant m s).tun = s.tun ∧ (frameInstant m s).sd = s.sd ∧ (frameInstant m s).free = s.free := by
  unfold frameInstant
  try dsimp only
  (repeat' split) <;> simp

@[simp] theorem levelTests_fields (m : StreamId) (s : State) :
    (levelTests m s).pending = s.pending ∧ (levelTests m s).rstnLow = s.rstnLow ∧
      (levelTests m s).strap = s.strap ∧ (levelTests m s).mem = s.mem ∧
      (levelTests m s).readData = s.readData ∧ (levelTests m s).agent = s.agent ∧
      (levelTests m s).meterTimer = s.meterTimer ∧ (levelTests m s).answers = s.answers ∧
      (levelTests m s).sa = s.sa ∧ (levelTests m s).knob = s.knob ∧ (levelTests m s).clock = s.clock ∧
      (levelTests m s).audioStarted = s.audioStarted ∧ (levelTests m s).lock = s.lock ∧
      (levelTests m s).links = s.links ∧ (levelTests m s).meas = s.meas ∧ (levelTests m s).fe = s.fe ∧
      (levelTests m s).tun = s.tun ∧ (levelTests m s).sd = s.sd ∧ (levelTests m s).free = s.free := by
  unfold levelTests
  try dsimp only
  (repeat' split) <;> simp

@[simp] theorem fetchDone_fields (m : StreamId) (frames : Nat) (words : List Word) (s : State) :
    (fetchDone m frames words s).pending = s.pending ∧ (fetchDone m frames words s).rstnLow = s.rstnLow ∧
      (fetchDone m frames words s).strap = s.strap ∧ (fetchDone m frames words s).mem = s.mem ∧
      (fetchDone m frames words s).readData = s.readData ∧ (fetchDone m frames words s).agent = s.agent ∧
      (fetchDone m frames words s).meterTimer = s.meterTimer ∧
      (fetchDone m frames words s).answers = s.answers ∧ (fetchDone m frames words s).sa = s.sa ∧
      (fetchDone m frames words s).knob = s.knob ∧ (fetchDone m frames words s).clock = s.clock ∧
      (fetchDone m frames words s).audioStarted = s.audioStarted ∧
      (fetchDone m frames words s).lock = s.lock ∧ (fetchDone m frames words s).links = s.links ∧
      (fetchDone m frames words s).meas = s.meas ∧ (fetchDone m frames words s).fe = s.fe ∧
      (fetchDone m frames words s).tun = s.tun ∧ (fetchDone m frames words s).sd = s.sd ∧
      (fetchDone m frames words s).free = s.free := by
  unfold fetchDone
  try dsimp only
  (repeat' split) <;> simp

@[simp] theorem seqLenArrival_fields (v : Nat) (s : State) :
    (seqLenArrival v s).pending = s.pending ∧ (seqLenArrival v s).rstnLow = s.rstnLow ∧
      (seqLenArrival v s).strap = s.strap ∧ (seqLenArrival v s).mem = s.mem ∧
      (seqLenArrival v s).readData = s.readData ∧ (seqLenArrival v s).agent = s.agent ∧
      (seqLenArrival v s).att = s.att ∧ (seqLenArrival v s).meterTimer = s.meterTimer ∧
      (seqLenArrival v s).answers = s.answers ∧ (seqLenArrival v s).sa = s.sa ∧
      (seqLenArrival v s).ms = s.ms ∧ (seqLenArrival v s).zones = s.zones ∧
      (seqLenArrival v s).view = s.view ∧ (seqLenArrival v s).dec = s.dec ∧
      (seqLenArrival v s).bass = s.bass ∧ (seqLenArrival v s).gain = s.gain ∧
      (seqLenArrival v s).knob = s.knob ∧ (seqLenArrival v s).pool = s.pool ∧
      (seqLenArrival v s).mods = s.mods ∧ (seqLenArrival v s).clock = s.clock ∧
      (seqLenArrival v s).audioStarted = s.audioStarted ∧ (seqLenArrival v s).lock = s.lock ∧
      (seqLenArrival v s).links = s.links ∧ (seqLenArrival v s).fe = s.fe ∧ (seqLenArrival v s).tun = s.tun ∧
      (seqLenArrival v s).sd = s.sd ∧ (seqLenArrival v s).free = s.free := by
  unfold seqLenArrival
  try dsimp only
  (repeat' split) <;> simp

@[simp] theorem entryArrival_fields (n : Fin 16) (w : Fin 4) (v : Word) (s : State) :
    (entryArrival n w v s).pending = s.pending ∧ (entryArrival n w v s).rstnLow = s.rstnLow ∧
      (entryArrival n w v s).strap = s.strap ∧ (entryArrival n w v s).mem = s.mem ∧
      (entryArrival n w v s).readData = s.readData ∧ (entryArrival n w v s).agent = s.agent ∧
      (entryArrival n w v s).att = s.att ∧ (entryArrival n w v s).meterTimer = s.meterTimer ∧
      (entryArrival n w v s).answers = s.answers ∧ (entryArrival n w v s).sa = s.sa ∧
      (entryArrival n w v s).ms = s.ms ∧ (entryArrival n w v s).zones = s.zones ∧
      (entryArrival n w v s).view = s.view ∧ (entryArrival n w v s).dec = s.dec ∧
      (entryArrival n w v s).bass = s.bass ∧ (entryArrival n w v s).gain = s.gain ∧
      (entryArrival n w v s).knob = s.knob ∧ (entryArrival n w v s).pool = s.pool ∧
      (entryArrival n w v s).mods = s.mods ∧ (entryArrival n w v s).clock = s.clock ∧
      (entryArrival n w v s).audioStarted = s.audioStarted ∧ (entryArrival n w v s).lock = s.lock ∧
      (entryArrival n w v s).links = s.links ∧ (entryArrival n w v s).fe = s.fe ∧
      (entryArrival n w v s).tun = s.tun ∧ (entryArrival n w v s).sd = s.sd ∧
      (entryArrival n w v s).free = s.free := by
  unfold entryArrival
  try dsimp only
  (repeat' split) <;> simp

@[simp] theorem measureTaken_fields (input divider : Nat) (s : State) :
    (measureTaken input divider s).pending = s.pending ∧ (measureTaken input divider s).rstnLow = s.rstnLow ∧
      (measureTaken input divider s).strap = s.strap ∧ (measureTaken input divider s).mem = s.mem ∧
      (measureTaken input divider s).readData = s.readData ∧ (measureTaken input divider s).agent = s.agent ∧
      (measureTaken input divider s).att = s.att ∧ (measureTaken input divider s).dirty = s.dirty ∧
      (measureTaken input divider s).meterTimer = s.meterTimer ∧
      (measureTaken input divider s).answers = s.answers ∧ (measureTaken input divider s).sa = s.sa ∧
      (measureTaken input divider s).ms = s.ms ∧ (measureTaken input divider s).zones = s.zones ∧
      (measureTaken input divider s).view = s.view ∧ (measureTaken input divider s).dec = s.dec ∧
      (measureTaken input divider s).bass = s.bass ∧ (measureTaken input divider s).gain = s.gain ∧
      (measureTaken input divider s).knob = s.knob ∧ (measureTaken input divider s).pool = s.pool ∧
      (measureTaken input divider s).mods = s.mods ∧ (measureTaken input divider s).clock = s.clock ∧
      (measureTaken input divider s).audioStarted = s.audioStarted ∧
      (measureTaken input divider s).lock = s.lock ∧ (measureTaken input divider s).links = s.links ∧
      (measureTaken input divider s).fe = s.fe ∧ (measureTaken input divider s).tun = s.tun ∧
      (measureTaken input divider s).sd = s.sd ∧ (measureTaken input divider s).free = s.free := by
  unfold measureTaken
  try dsimp only
  (repeat' split) <;> simp

@[simp] theorem measureCommand_fields (v : Word) (s : State) :
    (measureCommand v s).pending = s.pending ∧ (measureCommand v s).rstnLow = s.rstnLow ∧
      (measureCommand v s).strap = s.strap ∧ (measureCommand v s).mem = s.mem ∧
      (measureCommand v s).readData = s.readData ∧ (measureCommand v s).att = s.att ∧
      (measureCommand v s).dirty = s.dirty ∧ (measureCommand v s).meterTimer = s.meterTimer ∧
      (measureCommand v s).sa = s.sa ∧ (measureCommand v s).ms = s.ms ∧
      (measureCommand v s).zones = s.zones ∧ (measureCommand v s).view = s.view ∧
      (measureCommand v s).dec = s.dec ∧ (measureCommand v s).bass = s.bass ∧
      (measureCommand v s).gain = s.gain ∧ (measureCommand v s).knob = s.knob ∧
      (measureCommand v s).pool = s.pool ∧ (measureCommand v s).mods = s.mods ∧
      (measureCommand v s).clock = s.clock ∧ (measureCommand v s).audioStarted = s.audioStarted ∧
      (measureCommand v s).lock = s.lock ∧ (measureCommand v s).links = s.links ∧
      (measureCommand v s).fe = s.fe ∧ (measureCommand v s).tun = s.tun ∧ (measureCommand v s).sd = s.sd ∧
      (measureCommand v s).free = s.free := by
  unfold measureCommand
  try dsimp only
  (repeat' split) <;> simp

@[simp] theorem requestRssi_fields (s : State) :
    (requestRssi s).pending = s.pending ∧ (requestRssi s).rstnLow = s.rstnLow ∧
      (requestRssi s).strap = s.strap ∧ (requestRssi s).mem = s.mem ∧ (requestRssi s).readData = s.readData ∧
      (requestRssi s).agent = s.agent ∧ (requestRssi s).att = s.att ∧ (requestRssi s).dirty = s.dirty ∧
      (requestRssi s).meterTimer = s.meterTimer ∧ (requestRssi s).answers = s.answers ∧
      (requestRssi s).sa = s.sa ∧ (requestRssi s).ms = s.ms ∧ (requestRssi s).zones = s.zones ∧
      (requestRssi s).view = s.view ∧ (requestRssi s).dec = s.dec ∧ (requestRssi s).bass = s.bass ∧
      (requestRssi s).gain = s.gain ∧ (requestRssi s).knob = s.knob ∧ (requestRssi s).pool = s.pool ∧
      (requestRssi s).mods = s.mods ∧ (requestRssi s).clock = s.clock ∧
      (requestRssi s).audioStarted = s.audioStarted ∧ (requestRssi s).lock = s.lock ∧
      (requestRssi s).links = s.links ∧ (requestRssi s).fe = s.fe ∧ (requestRssi s).tun = s.tun ∧
      (requestRssi s).sd = s.sd ∧ (requestRssi s).free = s.free := by
  unfold requestRssi
  try dsimp only
  (repeat' split) <;> simp

@[simp] theorem abandonRssi_fields (s : State) :
    (abandonRssi s).pending = s.pending ∧ (abandonRssi s).rstnLow = s.rstnLow ∧
      (abandonRssi s).strap = s.strap ∧ (abandonRssi s).mem = s.mem ∧ (abandonRssi s).readData = s.readData ∧
      (abandonRssi s).agent = s.agent ∧ (abandonRssi s).att = s.att ∧ (abandonRssi s).dirty = s.dirty ∧
      (abandonRssi s).meterTimer = s.meterTimer ∧ (abandonRssi s).answers = s.answers ∧
      (abandonRssi s).sa = s.sa ∧ (abandonRssi s).ms = s.ms ∧ (abandonRssi s).zones = s.zones ∧
      (abandonRssi s).view = s.view ∧ (abandonRssi s).dec = s.dec ∧ (abandonRssi s).bass = s.bass ∧
      (abandonRssi s).gain = s.gain ∧ (abandonRssi s).knob = s.knob ∧ (abandonRssi s).pool = s.pool ∧
      (abandonRssi s).mods = s.mods ∧ (abandonRssi s).clock = s.clock ∧
      (abandonRssi s).audioStarted = s.audioStarted ∧ (abandonRssi s).lock = s.lock ∧
      (abandonRssi s).links = s.links ∧ (abandonRssi s).fe = s.fe ∧ (abandonRssi s).tun = s.tun ∧
      (abandonRssi s).sd = s.sd ∧ (abandonRssi s).free = s.free := by
  unfold abandonRssi
  try dsimp only
  (repeat' split) <;> simp

@[simp] theorem startRecheck_fields (s : State) :
    (startRecheck s).pending = s.pending ∧ (startRecheck s).rstnLow = s.rstnLow ∧
      (startRecheck s).strap = s.strap ∧ (startRecheck s).mem = s.mem ∧
      (startRecheck s).readData = s.readData ∧ (startRecheck s).agent = s.agent ∧
      (startRecheck s).att = s.att ∧ (startRecheck s).dirty = s.dirty ∧
      (startRecheck s).meterTimer = s.meterTimer ∧ (startRecheck s).answers = s.answers ∧
      (startRecheck s).sa = s.sa ∧ (startRecheck s).ms = s.ms ∧ (startRecheck s).zones = s.zones ∧
      (startRecheck s).view = s.view ∧ (startRecheck s).dec = s.dec ∧ (startRecheck s).bass = s.bass ∧
      (startRecheck s).knob = s.knob ∧ (startRecheck s).pool = s.pool ∧ (startRecheck s).clock = s.clock ∧
      (startRecheck s).audioStarted = s.audioStarted ∧ (startRecheck s).lock = s.lock ∧
      (startRecheck s).links = s.links ∧ (startRecheck s).fe = s.fe ∧ (startRecheck s).tun = s.tun ∧
      (startRecheck s).sd = s.sd ∧ (startRecheck s).free = s.free := by
  unfold startRecheck
  try dsimp only
  (repeat' split) <;> simp

@[simp] theorem selfRecheckCommand_fields (s : State) :
    (selfRecheckCommand s).pending = s.pending ∧ (selfRecheckCommand s).rstnLow = s.rstnLow ∧
      (selfRecheckCommand s).strap = s.strap ∧ (selfRecheckCommand s).mem = s.mem ∧
      (selfRecheckCommand s).readData = s.readData ∧ (selfRecheckCommand s).att = s.att ∧
      (selfRecheckCommand s).dirty = s.dirty ∧ (selfRecheckCommand s).meterTimer = s.meterTimer ∧
      (selfRecheckCommand s).sa = s.sa ∧ (selfRecheckCommand s).ms = s.ms ∧
      (selfRecheckCommand s).zones = s.zones ∧ (selfRecheckCommand s).view = s.view ∧
      (selfRecheckCommand s).dec = s.dec ∧ (selfRecheckCommand s).bass = s.bass ∧
      (selfRecheckCommand s).knob = s.knob ∧ (selfRecheckCommand s).pool = s.pool ∧
      (selfRecheckCommand s).clock = s.clock ∧ (selfRecheckCommand s).audioStarted = s.audioStarted ∧
      (selfRecheckCommand s).lock = s.lock ∧ (selfRecheckCommand s).links = s.links ∧
      (selfRecheckCommand s).fe = s.fe ∧ (selfRecheckCommand s).tun = s.tun ∧
      (selfRecheckCommand s).sd = s.sd ∧ (selfRecheckCommand s).free = s.free := by
  unfold selfRecheckCommand
  try dsimp only
  (repeat' split) <;> simp

@[simp] theorem fireAction_fields (n : Nat) (e : Entry) (s : State) :
    (fireAction n e s).pending = s.pending ∧ (fireAction n e s).rstnLow = s.rstnLow ∧
      (fireAction n e s).strap = s.strap ∧ (fireAction n e s).mem = s.mem ∧
      (fireAction n e s).readData = s.readData ∧ (fireAction n e s).agent = s.agent ∧
      (fireAction n e s).meterTimer = s.meterTimer ∧ (fireAction n e s).answers = s.answers ∧
      (fireAction n e s).sa = s.sa ∧ (fireAction n e s).ms = s.ms ∧ (fireAction n e s).zones = s.zones ∧
      (fireAction n e s).view = s.view ∧ (fireAction n e s).dec = s.dec ∧ (fireAction n e s).bass = s.bass ∧
      (fireAction n e s).knob = s.knob ∧ (fireAction n e s).pool = s.pool ∧
      (fireAction n e s).clock = s.clock ∧ (fireAction n e s).audioStarted = s.audioStarted ∧
      (fireAction n e s).lock = s.lock ∧ (fireAction n e s).links = s.links ∧
      (fireAction n e s).meas = s.meas ∧ (fireAction n e s).fe = s.fe ∧ (fireAction n e s).tun = s.tun ∧
      (fireAction n e s).sd = s.sd ∧ (fireAction n e s).free = s.free := by
  unfold fireAction
  try dsimp only
  (repeat' split) <;> simp

@[simp] theorem derateDown_fields (e : Entry) (s : State) :
    (derateDown e s).pending = s.pending ∧ (derateDown e s).rstnLow = s.rstnLow ∧
      (derateDown e s).strap = s.strap ∧ (derateDown e s).mem = s.mem ∧
      (derateDown e s).readData = s.readData ∧ (derateDown e s).agent = s.agent ∧
      (derateDown e s).att = s.att ∧ (derateDown e s).dirty = s.dirty ∧
      (derateDown e s).meterTimer = s.meterTimer ∧ (derateDown e s).answers = s.answers ∧
      (derateDown e s).sa = s.sa ∧ (derateDown e s).ms = s.ms ∧ (derateDown e s).zones = s.zones ∧
      (derateDown e s).view = s.view ∧ (derateDown e s).dec = s.dec ∧ (derateDown e s).bass = s.bass ∧
      (derateDown e s).gain = s.gain ∧ (derateDown e s).knob = s.knob ∧ (derateDown e s).pool = s.pool ∧
      (derateDown e s).clock = s.clock ∧ (derateDown e s).audioStarted = s.audioStarted ∧
      (derateDown e s).lock = s.lock ∧ (derateDown e s).links = s.links ∧ (derateDown e s).meas = s.meas ∧
      (derateDown e s).fe = s.fe ∧ (derateDown e s).tun = s.tun ∧ (derateDown e s).sd = s.sd ∧
      (derateDown e s).free = s.free := by
  unfold derateDown
  try dsimp only
  (repeat' split) <;> simp

@[simp] theorem takeEntryCode_fields (n code : Nat) (s : State) :
    (takeEntryCode n code s).pending = s.pending ∧ (takeEntryCode n code s).rstnLow = s.rstnLow ∧
      (takeEntryCode n code s).strap = s.strap ∧ (takeEntryCode n code s).mem = s.mem ∧
      (takeEntryCode n code s).readData = s.readData ∧ (takeEntryCode n code s).agent = s.agent ∧
      (takeEntryCode n code s).meterTimer = s.meterTimer ∧ (takeEntryCode n code s).answers = s.answers ∧
      (takeEntryCode n code s).sa = s.sa ∧ (takeEntryCode n code s).ms = s.ms ∧
      (takeEntryCode n code s).zones = s.zones ∧ (takeEntryCode n code s).view = s.view ∧
      (takeEntryCode n code s).dec = s.dec ∧ (takeEntryCode n code s).bass = s.bass ∧
      (takeEntryCode n code s).knob = s.knob ∧ (takeEntryCode n code s).pool = s.pool ∧
      (takeEntryCode n code s).clock = s.clock ∧ (takeEntryCode n code s).audioStarted = s.audioStarted ∧
      (takeEntryCode n code s).lock = s.lock ∧ (takeEntryCode n code s).links = s.links ∧
      (takeEntryCode n code s).fe = s.fe ∧ (takeEntryCode n code s).tun = s.tun ∧
      (takeEntryCode n code s).sd = s.sd ∧ (takeEntryCode n code s).free = s.free := by
  unfold takeEntryCode
  try dsimp only
  (repeat' split) <;> simp

@[simp] theorem derateUp_fields (x : AmpModule) (s : State) :
    (derateUp x s).pending = s.pending ∧ (derateUp x s).rstnLow = s.rstnLow ∧
      (derateUp x s).strap = s.strap ∧ (derateUp x s).mem = s.mem ∧ (derateUp x s).readData = s.readData ∧
      (derateUp x s).agent = s.agent ∧ (derateUp x s).att = s.att ∧ (derateUp x s).dirty = s.dirty ∧
      (derateUp x s).meterTimer = s.meterTimer ∧ (derateUp x s).answers = s.answers ∧
      (derateUp x s).sa = s.sa ∧ (derateUp x s).ms = s.ms ∧ (derateUp x s).zones = s.zones ∧
      (derateUp x s).view = s.view ∧ (derateUp x s).dec = s.dec ∧ (derateUp x s).bass = s.bass ∧
      (derateUp x s).gain = s.gain ∧ (derateUp x s).knob = s.knob ∧ (derateUp x s).pool = s.pool ∧
      (derateUp x s).clock = s.clock ∧ (derateUp x s).audioStarted = s.audioStarted ∧
      (derateUp x s).lock = s.lock ∧ (derateUp x s).links = s.links ∧ (derateUp x s).meas = s.meas ∧
      (derateUp x s).fe = s.fe ∧ (derateUp x s).tun = s.tun ∧ (derateUp x s).sd = s.sd ∧
      (derateUp x s).free = s.free := by
  unfold derateUp
  try dsimp only
  (repeat' split) <;> simp

@[simp] theorem passCompleted_fields (s : State) :
    (passCompleted s).pending = s.pending ∧ (passCompleted s).rstnLow = s.rstnLow ∧
      (passCompleted s).strap = s.strap ∧ (passCompleted s).mem = s.mem ∧
      (passCompleted s).readData = s.readData ∧ (passCompleted s).agent = s.agent ∧
      (passCompleted s).att = s.att ∧ (passCompleted s).dirty = s.dirty ∧
      (passCompleted s).meterTimer = s.meterTimer ∧ (passCompleted s).answers = s.answers ∧
      (passCompleted s).sa = s.sa ∧ (passCompleted s).ms = s.ms ∧ (passCompleted s).zones = s.zones ∧
      (passCompleted s).view = s.view ∧ (passCompleted s).dec = s.dec ∧ (passCompleted s).bass = s.bass ∧
      (passCompleted s).gain = s.gain ∧ (passCompleted s).knob = s.knob ∧ (passCompleted s).pool = s.pool ∧
      (passCompleted s).clock = s.clock ∧ (passCompleted s).audioStarted = s.audioStarted ∧
      (passCompleted s).lock = s.lock ∧ (passCompleted s).links = s.links ∧ (passCompleted s).meas = s.meas ∧
      (passCompleted s).fe = s.fe ∧ (passCompleted s).tun = s.tun ∧ (passCompleted s).sd = s.sd ∧
      (passCompleted s).free = s.free := by
  unfold passCompleted
  try dsimp only
  (repeat' split) <;> simp

@[simp] theorem selfCheckDone_fields (halfRef : Nat) (s : State) :
    (selfCheckDone halfRef s).pending = s.pending ∧ (selfCheckDone halfRef s).rstnLow = s.rstnLow ∧
      (selfCheckDone halfRef s).strap = s.strap ∧ (selfCheckDone halfRef s).mem = s.mem ∧
      (selfCheckDone halfRef s).readData = s.readData ∧ (selfCheckDone halfRef s).agent = s.agent ∧
      (selfCheckDone halfRef s).meterTimer = s.meterTimer ∧ (selfCheckDone halfRef s).answers = s.answers ∧
      (selfCheckDone halfRef s).sa = s.sa ∧ (selfCheckDone halfRef s).ms = s.ms ∧
      (selfCheckDone halfRef s).zones = s.zones ∧ (selfCheckDone halfRef s).view = s.view ∧
      (selfCheckDone halfRef s).dec = s.dec ∧ (selfCheckDone halfRef s).bass = s.bass ∧
      (selfCheckDone halfRef s).knob = s.knob ∧ (selfCheckDone halfRef s).pool = s.pool ∧
      (selfCheckDone halfRef s).clock = s.clock ∧ (selfCheckDone halfRef s).audioStarted = s.audioStarted ∧
      (selfCheckDone halfRef s).lock = s.lock ∧ (selfCheckDone halfRef s).links = s.links ∧
      (selfCheckDone halfRef s).fe = s.fe ∧ (selfCheckDone halfRef s).tun = s.tun ∧
      (selfCheckDone halfRef s).sd = s.sd ∧ (selfCheckDone halfRef s).free = s.free := by
  unfold selfCheckDone
  try dsimp only
  (repeat' split) <;> simp

@[simp] theorem completeConversion_fields (microvolts : Int) (s : State) :
    (completeConversion microvolts s).pending = s.pending ∧
      (completeConversion microvolts s).rstnLow = s.rstnLow ∧
      (completeConversion microvolts s).strap = s.strap ∧ (completeConversion microvolts s).mem = s.mem ∧
      (completeConversion microvolts s).readData = s.readData ∧
      (completeConversion microvolts s).agent = s.agent ∧
      (completeConversion microvolts s).meterTimer = s.meterTimer ∧
      (completeConversion microvolts s).answers = s.answers ∧ (completeConversion microvolts s).sa = s.sa ∧
      (completeConversion microvolts s).ms = s.ms ∧ (completeConversion microvolts s).zones = s.zones ∧
      (completeConversion microvolts s).view = s.view ∧ (completeConversion microvolts s).dec = s.dec ∧
      (completeConversion microvolts s).bass = s.bass ∧ (completeConversion microvolts s).knob = s.knob ∧
      (completeConversion microvolts s).pool = s.pool ∧ (completeConversion microvolts s).clock = s.clock ∧
      (completeConversion microvolts s).audioStarted = s.audioStarted ∧
      (completeConversion microvolts s).lock = s.lock ∧ (completeConversion microvolts s).links = s.links ∧
      (completeConversion microvolts s).fe = s.fe ∧ (completeConversion microvolts s).tun = s.tun ∧
      (completeConversion microvolts s).sd = s.sd ∧ (completeConversion microvolts s).free = s.free := by
  unfold completeConversion
  try dsimp only
  (repeat' split) <;> simp

@[simp] theorem converterExpiry_fields (microvolts : Int) (s : State) :
    (converterExpiry microvolts s).pending = s.pending ∧ (converterExpiry microvolts s).rstnLow = s.rstnLow ∧
      (converterExpiry microvolts s).strap = s.strap ∧ (converterExpiry microvolts s).mem = s.mem ∧
      (converterExpiry microvolts s).readData = s.readData ∧ (converterExpiry microvolts s).agent = s.agent ∧
      (converterExpiry microvolts s).meterTimer = s.meterTimer ∧
      (converterExpiry microvolts s).answers = s.answers ∧ (converterExpiry microvolts s).sa = s.sa ∧
      (converterExpiry microvolts s).ms = s.ms ∧ (converterExpiry microvolts s).zones = s.zones ∧
      (converterExpiry microvolts s).view = s.view ∧ (converterExpiry microvolts s).dec = s.dec ∧
      (converterExpiry microvolts s).bass = s.bass ∧ (converterExpiry microvolts s).knob = s.knob ∧
      (converterExpiry microvolts s).pool = s.pool ∧ (converterExpiry microvolts s).clock = s.clock ∧
      (converterExpiry microvolts s).audioStarted = s.audioStarted ∧
      (converterExpiry microvolts s).lock = s.lock ∧ (converterExpiry microvolts s).links = s.links ∧
      (converterExpiry microvolts s).fe = s.fe ∧ (converterExpiry microvolts s).tun = s.tun ∧
      (converterExpiry microvolts s).sd = s.sd ∧ (converterExpiry microvolts s).free = s.free := by
  unfold converterExpiry
  try dsimp only
  (repeat' split) <;> simp

@[simp] theorem longOutcome_fields (o : LongOutcome) (s : State) :
    (longOutcome o s).pending = s.pending ∧ (longOutcome o s).rstnLow = s.rstnLow ∧
      (longOutcome o s).strap = s.strap ∧ (longOutcome o s).mem = s.mem ∧
      (longOutcome o s).readData = s.readData ∧ (longOutcome o s).agent = s.agent ∧
      (longOutcome o s).meterTimer = s.meterTimer ∧ (longOutcome o s).answers = s.answers ∧
      (longOutcome o s).sa = s.sa ∧ (longOutcome o s).ms = s.ms ∧ (longOutcome o s).zones = s.zones ∧
      (longOutcome o s).view = s.view ∧ (longOutcome o s).dec = s.dec ∧ (longOutcome o s).bass = s.bass ∧
      (longOutcome o s).gain = s.gain ∧ (longOutcome o s).knob = s.knob ∧ (longOutcome o s).pool = s.pool ∧
      (longOutcome o s).mods = s.mods ∧ (longOutcome o s).clock = s.clock ∧
      (longOutcome o s).audioStarted = s.audioStarted ∧ (longOutcome o s).lock = s.lock ∧
      (longOutcome o s).links = s.links ∧ (longOutcome o s).meas = s.meas ∧ (longOutcome o s).fe = s.fe ∧
      (longOutcome o s).sd = s.sd ∧ (longOutcome o s).free = s.free := by
  unfold longOutcome
  try dsimp only
  (repeat' split) <;> simp

@[simp] theorem normWeak_fields (s : State) :
    (normWeak s).pending = s.pending ∧ (normWeak s).rstnLow = s.rstnLow ∧ (normWeak s).strap = s.strap ∧
      (normWeak s).mem = s.mem ∧ (normWeak s).readData = s.readData ∧ (normWeak s).agent = s.agent ∧
      (normWeak s).att = s.att ∧ (normWeak s).dirty = s.dirty ∧ (normWeak s).meterTimer = s.meterTimer ∧
      (normWeak s).answers = s.answers ∧ (normWeak s).sa = s.sa ∧ (normWeak s).ms = s.ms ∧
      (normWeak s).zones = s.zones ∧ (normWeak s).view = s.view ∧ (normWeak s).dec = s.dec ∧
      (normWeak s).bass = s.bass ∧ (normWeak s).gain = s.gain ∧ (normWeak s).knob = s.knob ∧
      (normWeak s).pool = s.pool ∧ (normWeak s).mods = s.mods ∧ (normWeak s).clock = s.clock ∧
      (normWeak s).audioStarted = s.audioStarted ∧ (normWeak s).lock = s.lock ∧
      (normWeak s).links = s.links ∧ (normWeak s).meas = s.meas ∧ (normWeak s).fe = s.fe ∧
      (normWeak s).sd = s.sd ∧ (normWeak s).free = s.free := by
  unfold normWeak
  try dsimp only
  (repeat' split) <;> simp

@[simp] theorem leaveListening_fields (s : State) :
    (leaveListening s).pending = s.pending ∧ (leaveListening s).rstnLow = s.rstnLow ∧
      (leaveListening s).strap = s.strap ∧ (leaveListening s).mem = s.mem ∧
      (leaveListening s).readData = s.readData ∧ (leaveListening s).agent = s.agent ∧
      (leaveListening s).att = s.att ∧ (leaveListening s).dirty = s.dirty ∧
      (leaveListening s).meterTimer = s.meterTimer ∧ (leaveListening s).answers = s.answers ∧
      (leaveListening s).sa = s.sa ∧ (leaveListening s).ms = s.ms ∧ (leaveListening s).zones = s.zones ∧
      (leaveListening s).view = s.view ∧ (leaveListening s).dec = s.dec ∧ (leaveListening s).bass = s.bass ∧
      (leaveListening s).gain = s.gain ∧ (leaveListening s).knob = s.knob ∧
      (leaveListening s).pool = s.pool ∧ (leaveListening s).mods = s.mods ∧
      (leaveListening s).clock = s.clock ∧ (leaveListening s).audioStarted = s.audioStarted ∧
      (leaveListening s).lock = s.lock ∧ (leaveListening s).links = s.links ∧ (leaveListening s).sd = s.sd ∧
      (leaveListening s).free = s.free := by
  unfold leaveListening
  try dsimp only
  (repeat' split) <;> simp

@[simp] theorem tunerGoto_fields (next : TunerState) (s : State) :
    (tunerGoto next s).pending = s.pending ∧ (tunerGoto next s).rstnLow = s.rstnLow ∧
      (tunerGoto next s).strap = s.strap ∧ (tunerGoto next s).mem = s.mem ∧
      (tunerGoto next s).readData = s.readData ∧ (tunerGoto next s).agent = s.agent ∧
      (tunerGoto next s).meterTimer = s.meterTimer ∧ (tunerGoto next s).answers = s.answers ∧
      (tunerGoto next s).sa = s.sa ∧ (tunerGoto next s).ms = s.ms ∧ (tunerGoto next s).knob = s.knob ∧
      (tunerGoto next s).clock = s.clock ∧ (tunerGoto next s).audioStarted = s.audioStarted ∧
      (tunerGoto next s).lock = s.lock ∧ (tunerGoto next s).links = s.links ∧ (tunerGoto next s).free = s.free := by
  unfold tunerGoto
  try dsimp only
  (repeat' split) <;> simp

@[simp] theorem clearOnAm_fields (s : State) :
    (clearOnAm s).pending = s.pending ∧ (clearOnAm s).rstnLow = s.rstnLow ∧ (clearOnAm s).strap = s.strap ∧
      (clearOnAm s).mem = s.mem ∧ (clearOnAm s).readData = s.readData ∧ (clearOnAm s).agent = s.agent ∧
      (clearOnAm s).att = s.att ∧ (clearOnAm s).dirty = s.dirty ∧ (clearOnAm s).meterTimer = s.meterTimer ∧
      (clearOnAm s).answers = s.answers ∧ (clearOnAm s).sa = s.sa ∧ (clearOnAm s).ms = s.ms ∧
      (clearOnAm s).zones = s.zones ∧ (clearOnAm s).view = s.view ∧ (clearOnAm s).dec = s.dec ∧
      (clearOnAm s).bass = s.bass ∧ (clearOnAm s).gain = s.gain ∧ (clearOnAm s).knob = s.knob ∧
      (clearOnAm s).pool = s.pool ∧ (clearOnAm s).mods = s.mods ∧ (clearOnAm s).clock = s.clock ∧
      (clearOnAm s).audioStarted = s.audioStarted ∧ (clearOnAm s).lock = s.lock ∧
      (clearOnAm s).links = s.links ∧ (clearOnAm s).meas = s.meas ∧ (clearOnAm s).fe = s.fe ∧
      (clearOnAm s).tun = s.tun ∧ (clearOnAm s).free = s.free := by
  unfold clearOnAm
  try dsimp only
  (repeat' split) <;> simp

@[simp] theorem startReadings_fields (s : State) :
    (startReadings s).pending = s.pending ∧ (startReadings s).rstnLow = s.rstnLow ∧
      (startReadings s).strap = s.strap ∧ (startReadings s).mem = s.mem ∧
      (startReadings s).readData = s.readData ∧ (startReadings s).agent = s.agent ∧
      (startReadings s).att = s.att ∧ (startReadings s).dirty = s.dirty ∧
      (startReadings s).meterTimer = s.meterTimer ∧ (startReadings s).answers = s.answers ∧
      (startReadings s).sa = s.sa ∧ (startReadings s).ms = s.ms ∧ (startReadings s).zones = s.zones ∧
      (startReadings s).view = s.view ∧ (startReadings s).dec = s.dec ∧ (startReadings s).bass = s.bass ∧
      (startReadings s).gain = s.gain ∧ (startReadings s).knob = s.knob ∧ (startReadings s).pool = s.pool ∧
      (startReadings s).mods = s.mods ∧ (startReadings s).clock = s.clock ∧
      (startReadings s).audioStarted = s.audioStarted ∧ (startReadings s).lock = s.lock ∧
      (startReadings s).links = s.links ∧ (startReadings s).meas = s.meas ∧ (startReadings s).fe = s.fe ∧
      (startReadings s).sd = s.sd ∧ (startReadings s).free = s.free := by
  unfold startReadings
  try dsimp only
  (repeat' split) <;> simp

@[simp] theorem enterListening_fields (s : State) :
    (enterListening s).pending = s.pending ∧ (enterListening s).rstnLow = s.rstnLow ∧
      (enterListening s).strap = s.strap ∧ (enterListening s).mem = s.mem ∧
      (enterListening s).readData = s.readData ∧ (enterListening s).agent = s.agent ∧
      (enterListening s).meterTimer = s.meterTimer ∧ (enterListening s).answers = s.answers ∧
      (enterListening s).sa = s.sa ∧ (enterListening s).ms = s.ms ∧ (enterListening s).knob = s.knob ∧
      (enterListening s).clock = s.clock ∧ (enterListening s).audioStarted = s.audioStarted ∧
      (enterListening s).lock = s.lock ∧ (enterListening s).links = s.links ∧ (enterListening s).free = s.free := by
  unfold enterListening
  try dsimp only
  (repeat' split) <;> simp

@[simp] theorem abandonTuning_fields (s : State) :
    (abandonTuning s).pending = s.pending ∧ (abandonTuning s).rstnLow = s.rstnLow ∧
      (abandonTuning s).strap = s.strap ∧ (abandonTuning s).mem = s.mem ∧
      (abandonTuning s).readData = s.readData ∧ (abandonTuning s).agent = s.agent ∧
      (abandonTuning s).att = s.att ∧ (abandonTuning s).dirty = s.dirty ∧
      (abandonTuning s).meterTimer = s.meterTimer ∧ (abandonTuning s).answers = s.answers ∧
      (abandonTuning s).sa = s.sa ∧ (abandonTuning s).ms = s.ms ∧ (abandonTuning s).zones = s.zones ∧
      (abandonTuning s).view = s.view ∧ (abandonTuning s).dec = s.dec ∧ (abandonTuning s).bass = s.bass ∧
      (abandonTuning s).gain = s.gain ∧ (abandonTuning s).knob = s.knob ∧ (abandonTuning s).pool = s.pool ∧
      (abandonTuning s).mods = s.mods ∧ (abandonTuning s).clock = s.clock ∧
      (abandonTuning s).audioStarted = s.audioStarted ∧ (abandonTuning s).lock = s.lock ∧
      (abandonTuning s).links = s.links ∧ (abandonTuning s).sd = s.sd ∧ (abandonTuning s).free = s.free := by
  unfold abandonTuning
  try dsimp only
  (repeat' split) <;> simp

@[simp] theorem discardRecall_fields (s : State) :
    (discardRecall s).pending = s.pending ∧ (discardRecall s).rstnLow = s.rstnLow ∧
      (discardRecall s).strap = s.strap ∧ (discardRecall s).mem = s.mem ∧
      (discardRecall s).readData = s.readData ∧ (discardRecall s).att = s.att ∧
      (discardRecall s).dirty = s.dirty ∧ (discardRecall s).meterTimer = s.meterTimer ∧
      (discardRecall s).answers = s.answers ∧ (discardRecall s).sa = s.sa ∧ (discardRecall s).ms = s.ms ∧
      (discardRecall s).zones = s.zones ∧ (discardRecall s).view = s.view ∧ (discardRecall s).dec = s.dec ∧
      (discardRecall s).bass = s.bass ∧ (discardRecall s).gain = s.gain ∧ (discardRecall s).knob = s.knob ∧
      (discardRecall s).pool = s.pool ∧ (discardRecall s).mods = s.mods ∧ (discardRecall s).clock = s.clock ∧
      (discardRecall s).audioStarted = s.audioStarted ∧ (discardRecall s).lock = s.lock ∧
      (discardRecall s).links = s.links ∧ (discardRecall s).meas = s.meas ∧ (discardRecall s).fe = s.fe ∧
      (discardRecall s).sd = s.sd ∧ (discardRecall s).free = s.free := by
  unfold discardRecall
  try dsimp only
  (repeat' split) <;> simp

@[simp] theorem abandonOperation_fields (s : State) :
    (abandonOperation s).pending = s.pending ∧ (abandonOperation s).rstnLow = s.rstnLow ∧
      (abandonOperation s).strap = s.strap ∧ (abandonOperation s).mem = s.mem ∧
      (abandonOperation s).readData = s.readData ∧ (abandonOperation s).att = s.att ∧
      (abandonOperation s).dirty = s.dirty ∧ (abandonOperation s).meterTimer = s.meterTimer ∧
      (abandonOperation s).answers = s.answers ∧ (abandonOperation s).sa = s.sa ∧
      (abandonOperation s).ms = s.ms ∧ (abandonOperation s).zones = s.zones ∧
      (abandonOperation s).view = s.view ∧ (abandonOperation s).dec = s.dec ∧
      (abandonOperation s).bass = s.bass ∧ (abandonOperation s).gain = s.gain ∧
      (abandonOperation s).knob = s.knob ∧ (abandonOperation s).pool = s.pool ∧
      (abandonOperation s).mods = s.mods ∧ (abandonOperation s).clock = s.clock ∧
      (abandonOperation s).audioStarted = s.audioStarted ∧ (abandonOperation s).lock = s.lock ∧
      (abandonOperation s).links = s.links ∧ (abandonOperation s).sd = s.sd ∧
      (abandonOperation s).free = s.free := by
  unfold abandonOperation
  try dsimp only
  (repeat' split) <;> simp

@[simp] theorem sendTune_fields (band : Band) (code : Nat) (purpose : TunePurpose) (s : State) :
    (sendTune band code purpose s).pending = s.pending ∧ (sendTune band code purpose s).rstnLow = s.rstnLow ∧
      (sendTune band code purpose s).strap = s.strap ∧ (sendTune band code purpose s).mem = s.mem ∧
      (sendTune band code purpose s).readData = s.readData ∧ (sendTune band code purpose s).agent = s.agent ∧
      (sendTune band code purpose s).att = s.att ∧ (sendTune band code purpose s).dirty = s.dirty ∧
      (sendTune band code purpose s).meterTimer = s.meterTimer ∧
      (sendTune band code purpose s).answers = s.answers ∧ (sendTune band code purpose s).sa = s.sa ∧
      (sendTune band code purpose s).ms = s.ms ∧ (sendTune band code purpose s).zones = s.zones ∧
      (sendTune band code purpose s).view = s.view ∧ (sendTune band code purpose s).dec = s.dec ∧
      (sendTune band code purpose s).bass = s.bass ∧ (sendTune band code purpose s).gain = s.gain ∧
      (sendTune band code purpose s).knob = s.knob ∧ (sendTune band code purpose s).pool = s.pool ∧
      (sendTune band code purpose s).mods = s.mods ∧ (sendTune band code purpose s).clock = s.clock ∧
      (sendTune band code purpose s).audioStarted = s.audioStarted ∧
      (sendTune band code purpose s).lock = s.lock ∧ (sendTune band code purpose s).links = s.links ∧
      (sendTune band code purpose s).meas = s.meas ∧ (sendTune band code purpose s).tun = s.tun ∧
      (sendTune band code purpose s).sd = s.sd ∧ (sendTune band code purpose s).free = s.free := by
  unfold sendTune
  try dsimp only
  (repeat' split) <;> simp

@[simp] theorem plainTune_fields (band : Band) (code : Nat) (reason : TuneReason) (s : State) :
    (plainTune band code reason s).pending = s.pending ∧ (plainTune band code reason s).rstnLow = s.rstnLow ∧
      (plainTune band code reason s).strap = s.strap ∧ (plainTune band code reason s).mem = s.mem ∧
      (plainTune band code reason s).readData = s.readData ∧ (plainTune band code reason s).agent = s.agent ∧
      (plainTune band code reason s).meterTimer = s.meterTimer ∧
      (plainTune band code reason s).answers = s.answers ∧ (plainTune band code reason s).sa = s.sa ∧
      (plainTune band code reason s).ms = s.ms ∧ (plainTune band code reason s).knob = s.knob ∧
      (plainTune band code reason s).clock = s.clock ∧
      (plainTune band code reason s).audioStarted = s.audioStarted ∧
      (plainTune band code reason s).lock = s.lock ∧ (plainTune band code reason s).links = s.links ∧
      (plainTune band code reason s).free = s.free := by
  unfold plainTune
  try dsimp only
  (repeat' split) <;> simp

@[simp] theorem changeCode_fields (code : Nat) (s : State) :
    (changeCode code s).pending = s.pending ∧ (changeCode code s).rstnLow = s.rstnLow ∧
      (changeCode code s).strap = s.strap ∧ (changeCode code s).mem = s.mem ∧
      (changeCode code s).readData = s.readData ∧ (changeCode code s).agent = s.agent ∧
      (changeCode code s).att = s.att ∧ (changeCode code s).dirty = s.dirty ∧
      (changeCode code s).meterTimer = s.meterTimer ∧ (changeCode code s).answers = s.answers ∧
      (changeCode code s).sa = s.sa ∧ (changeCode code s).ms = s.ms ∧ (changeCode code s).zones = s.zones ∧
      (changeCode code s).view = s.view ∧ (changeCode code s).dec = s.dec ∧
      (changeCode code s).bass = s.bass ∧ (changeCode code s).gain = s.gain ∧
      (changeCode code s).knob = s.knob ∧ (changeCode code s).pool = s.pool ∧
      (changeCode code s).mods = s.mods ∧ (changeCode code s).clock = s.clock ∧
      (changeCode code s).audioStarted = s.audioStarted ∧ (changeCode code s).lock = s.lock ∧
      (changeCode code s).links = s.links ∧ (changeCode code s).meas = s.meas ∧
      (changeCode code s).fe = s.fe ∧ (changeCode code s).free = s.free := by
  unfold changeCode
  try dsimp only
  (repeat' split) <;> simp

@[simp] theorem ownCode_fields (code : Nat) (s : State) :
    (ownCode code s).pending = s.pending ∧ (ownCode code s).rstnLow = s.rstnLow ∧
      (ownCode code s).strap = s.strap ∧ (ownCode code s).mem = s.mem ∧
      (ownCode code s).readData = s.readData ∧ (ownCode code s).att = s.att ∧
      (ownCode code s).dirty = s.dirty ∧ (ownCode code s).meterTimer = s.meterTimer ∧
      (ownCode code s).answers = s.answers ∧ (ownCode code s).sa = s.sa ∧ (ownCode code s).ms = s.ms ∧
      (ownCode code s).zones = s.zones ∧ (ownCode code s).view = s.view ∧ (ownCode code s).dec = s.dec ∧
      (ownCode code s).bass = s.bass ∧ (ownCode code s).gain = s.gain ∧ (ownCode code s).knob = s.knob ∧
      (ownCode code s).pool = s.pool ∧ (ownCode code s).mods = s.mods ∧ (ownCode code s).clock = s.clock ∧
      (ownCode code s).audioStarted = s.audioStarted ∧ (ownCode code s).lock = s.lock ∧
      (ownCode code s).links = s.links ∧ (ownCode code s).meas = s.meas ∧ (ownCode code s).fe = s.fe ∧
      (ownCode code s).free = s.free := by
  unfold ownCode
  try dsimp only
  (repeat' split) <;> simp

@[simp] theorem ownBand_fields (band : Band) (s : State) :
    (ownBand band s).pending = s.pending ∧ (ownBand band s).rstnLow = s.rstnLow ∧
      (ownBand band s).strap = s.strap ∧ (ownBand band s).mem = s.mem ∧
      (ownBand band s).readData = s.readData ∧ (ownBand band s).att = s.att ∧
      (ownBand band s).dirty = s.dirty ∧ (ownBand band s).meterTimer = s.meterTimer ∧
      (ownBand band s).answers = s.answers ∧ (ownBand band s).sa = s.sa ∧ (ownBand band s).ms = s.ms ∧
      (ownBand band s).zones = s.zones ∧ (ownBand band s).view = s.view ∧ (ownBand band s).dec = s.dec ∧
      (ownBand band s).bass = s.bass ∧ (ownBand band s).gain = s.gain ∧ (ownBand band s).knob = s.knob ∧
      (ownBand band s).pool = s.pool ∧ (ownBand band s).mods = s.mods ∧ (ownBand band s).clock = s.clock ∧
      (ownBand band s).audioStarted = s.audioStarted ∧ (ownBand band s).lock = s.lock ∧
      (ownBand band s).links = s.links ∧ (ownBand band s).meas = s.meas ∧ (ownBand band s).fe = s.fe ∧
      (ownBand band s).sd = s.sd ∧ (ownBand band s).free = s.free := by
  unfold ownBand
  try dsimp only
  (repeat' split) <;> simp

@[simp] theorem ownTarget_fields (band : Band) (code : Nat) (s : State) :
    (ownTarget band code s).pending = s.pending ∧ (ownTarget band code s).rstnLow = s.rstnLow ∧
      (ownTarget band code s).strap = s.strap ∧ (ownTarget band code s).mem = s.mem ∧
      (ownTarget band code s).readData = s.readData ∧ (ownTarget band code s).att = s.att ∧
      (ownTarget band code s).dirty = s.dirty ∧ (ownTarget band code s).meterTimer = s.meterTimer ∧
      (ownTarget band code s).answers = s.answers ∧ (ownTarget band code s).sa = s.sa ∧
      (ownTarget band code s).ms = s.ms ∧ (ownTarget band code s).zones = s.zones ∧
      (ownTarget band code s).view = s.view ∧ (ownTarget band code s).dec = s.dec ∧
      (ownTarget band code s).bass = s.bass ∧ (ownTarget band code s).gain = s.gain ∧
      (ownTarget band code s).knob = s.knob ∧ (ownTarget band code s).pool = s.pool ∧
      (ownTarget band code s).mods = s.mods ∧ (ownTarget band code s).clock = s.clock ∧
      (ownTarget band code s).audioStarted = s.audioStarted ∧ (ownTarget band code s).lock = s.lock ∧
      (ownTarget band code s).links = s.links ∧ (ownTarget band code s).meas = s.meas ∧
      (ownTarget band code s).fe = s.fe ∧ (ownTarget band code s).free = s.free := by
  unfold ownTarget
  try dsimp only
  (repeat' split) <;> simp

@[simp] theorem lowerCode_fields (s : State) :
    (lowerCode s).pending = s.pending ∧ (lowerCode s).rstnLow = s.rstnLow ∧ (lowerCode s).strap = s.strap ∧
      (lowerCode s).mem = s.mem ∧ (lowerCode s).readData = s.readData ∧ (lowerCode s).att = s.att ∧
      (lowerCode s).dirty = s.dirty ∧ (lowerCode s).meterTimer = s.meterTimer ∧
      (lowerCode s).answers = s.answers ∧ (lowerCode s).sa = s.sa ∧ (lowerCode s).ms = s.ms ∧
      (lowerCode s).zones = s.zones ∧ (lowerCode s).view = s.view ∧ (lowerCode s).dec = s.dec ∧
      (lowerCode s).bass = s.bass ∧ (lowerCode s).gain = s.gain ∧ (lowerCode s).knob = s.knob ∧
      (lowerCode s).pool = s.pool ∧ (lowerCode s).mods = s.mods ∧ (lowerCode s).clock = s.clock ∧
      (lowerCode s).audioStarted = s.audioStarted ∧ (lowerCode s).lock = s.lock ∧
      (lowerCode s).links = s.links ∧ (lowerCode s).meas = s.meas ∧ (lowerCode s).fe = s.fe ∧
      (lowerCode s).free = s.free := by
  unfold lowerCode
  try dsimp only
  (repeat' split) <;> simp

@[simp] theorem bandArrival_fields (b : Band) (s : State) :
    (bandArrival b s).pending = s.pending ∧ (bandArrival b s).rstnLow = s.rstnLow ∧
      (bandArrival b s).strap = s.strap ∧ (bandArrival b s).mem = s.mem ∧
      (bandArrival b s).readData = s.readData ∧ (bandArrival b s).att = s.att ∧
      (bandArrival b s).dirty = s.dirty ∧ (bandArrival b s).meterTimer = s.meterTimer ∧
      (bandArrival b s).answers = s.answers ∧ (bandArrival b s).sa = s.sa ∧ (bandArrival b s).ms = s.ms ∧
      (bandArrival b s).zones = s.zones ∧ (bandArrival b s).view = s.view ∧ (bandArrival b s).dec = s.dec ∧
      (bandArrival b s).bass = s.bass ∧ (bandArrival b s).gain = s.gain ∧ (bandArrival b s).knob = s.knob ∧
      (bandArrival b s).pool = s.pool ∧ (bandArrival b s).mods = s.mods ∧ (bandArrival b s).clock = s.clock ∧
      (bandArrival b s).audioStarted = s.audioStarted ∧ (bandArrival b s).lock = s.lock ∧
      (bandArrival b s).links = s.links ∧ (bandArrival b s).meas = s.meas ∧ (bandArrival b s).fe = s.fe ∧
      (bandArrival b s).free = s.free := by
  unfold bandArrival
  try dsimp only
  (repeat' split) <;> simp

@[simp] theorem regionArrival_fields (r : Region) (s : State) :
    (regionArrival r s).pending = s.pending ∧ (regionArrival r s).rstnLow = s.rstnLow ∧
      (regionArrival r s).strap = s.strap ∧ (regionArrival r s).mem = s.mem ∧
      (regionArrival r s).readData = s.readData ∧ (regionArrival r s).att = s.att ∧
      (regionArrival r s).dirty = s.dirty ∧ (regionArrival r s).meterTimer = s.meterTimer ∧
      (regionArrival r s).answers = s.answers ∧ (regionArrival r s).sa = s.sa ∧
      (regionArrival r s).ms = s.ms ∧ (regionArrival r s).zones = s.zones ∧
      (regionArrival r s).view = s.view ∧ (regionArrival r s).dec = s.dec ∧
      (regionArrival r s).bass = s.bass ∧ (regionArrival r s).gain = s.gain ∧
      (regionArrival r s).knob = s.knob ∧ (regionArrival r s).pool = s.pool ∧
      (regionArrival r s).mods = s.mods ∧ (regionArrival r s).clock = s.clock ∧
      (regionArrival r s).audioStarted = s.audioStarted ∧ (regionArrival r s).lock = s.lock ∧
      (regionArrival r s).links = s.links ∧ (regionArrival r s).meas = s.meas ∧
      (regionArrival r s).fe = s.fe ∧ (regionArrival r s).free = s.free := by
  unfold regionArrival
  try dsimp only
  (repeat' split) <;> simp

@[simp] theorem seekNext_fields (s : State) :
    (seekNext s).pending = s.pending ∧ (seekNext s).rstnLow = s.rstnLow ∧ (seekNext s).strap = s.strap ∧
      (seekNext s).mem = s.mem ∧ (seekNext s).readData = s.readData ∧
      (seekNext s).meterTimer = s.meterTimer ∧ (seekNext s).answers = s.answers ∧ (seekNext s).sa = s.sa ∧
      (seekNext s).ms = s.ms ∧ (seekNext s).knob = s.knob ∧ (seekNext s).clock = s.clock ∧
      (seekNext s).audioStarted = s.audioStarted ∧ (seekNext s).lock = s.lock ∧
      (seekNext s).links = s.links ∧ (seekNext s).free = s.free := by
  unfold seekNext
  try dsimp only
  (repeat' split) <;> simp

@[simp] theorem probeNoSwitch_fields (s : State) :
    (probeNoSwitch s).pending = s.pending ∧ (probeNoSwitch s).rstnLow = s.rstnLow ∧
      (probeNoSwitch s).strap = s.strap ∧ (probeNoSwitch s).mem = s.mem ∧
      (probeNoSwitch s).readData = s.readData ∧ (probeNoSwitch s).agent = s.agent ∧
      (probeNoSwitch s).meterTimer = s.meterTimer ∧ (probeNoSwitch s).answers = s.answers ∧
      (probeNoSwitch s).sa = s.sa ∧ (probeNoSwitch s).ms = s.ms ∧ (probeNoSwitch s).knob = s.knob ∧
      (probeNoSwitch s).clock = s.clock ∧ (probeNoSwitch s).audioStarted = s.audioStarted ∧
      (probeNoSwitch s).lock = s.lock ∧ (probeNoSwitch s).links = s.links ∧ (probeNoSwitch s).free = s.free := by
  unfold probeNoSwitch
  try dsimp only
  (repeat' split) <;> simp

@[simp] theorem probeNext_fields (s : State) :
    (probeNext s).pending = s.pending ∧ (probeNext s).rstnLow = s.rstnLow ∧ (probeNext s).strap = s.strap ∧
      (probeNext s).mem = s.mem ∧ (probeNext s).readData = s.readData ∧ (probeNext s).agent = s.agent ∧
      (probeNext s).meterTimer = s.meterTimer ∧ (probeNext s).answers = s.answers ∧ (probeNext s).sa = s.sa ∧
      (probeNext s).ms = s.ms ∧ (probeNext s).knob = s.knob ∧ (probeNext s).clock = s.clock ∧
      (probeNext s).audioStarted = s.audioStarted ∧ (probeNext s).lock = s.lock ∧
      (probeNext s).links = s.links ∧ (probeNext s).free = s.free := by
  unfold probeNext
  try dsimp only
  (repeat' split) <;> simp

@[simp] theorem probeStart_fields (mean : Nat) (s : State) :
    (probeStart mean s).pending = s.pending ∧ (probeStart mean s).rstnLow = s.rstnLow ∧
      (probeStart mean s).strap = s.strap ∧ (probeStart mean s).mem = s.mem ∧
      (probeStart mean s).readData = s.readData ∧ (probeStart mean s).agent = s.agent ∧
      (probeStart mean s).meterTimer = s.meterTimer ∧ (probeStart mean s).answers = s.answers ∧
      (probeStart mean s).sa = s.sa ∧ (probeStart mean s).ms = s.ms ∧ (probeStart mean s).knob = s.knob ∧
      (probeStart mean s).clock = s.clock ∧ (probeStart mean s).audioStarted = s.audioStarted ∧
      (probeStart mean s).lock = s.lock ∧ (probeStart mean s).links = s.links ∧
      (probeStart mean s).free = s.free := by
  unfold probeStart
  try dsimp only
  (repeat' split) <;> simp

@[simp] theorem seekFound_fields (s : State) :
    (seekFound s).pending = s.pending ∧ (seekFound s).rstnLow = s.rstnLow ∧ (seekFound s).strap = s.strap ∧
      (seekFound s).mem = s.mem ∧ (seekFound s).readData = s.readData ∧
      (seekFound s).meterTimer = s.meterTimer ∧ (seekFound s).answers = s.answers ∧ (seekFound s).sa = s.sa ∧
      (seekFound s).ms = s.ms ∧ (seekFound s).knob = s.knob ∧ (seekFound s).clock = s.clock ∧
      (seekFound s).audioStarted = s.audioStarted ∧ (seekFound s).lock = s.lock ∧
      (seekFound s).links = s.links ∧ (seekFound s).free = s.free := by
  unfold seekFound
  try dsimp only
  (repeat' split) <;> simp

@[simp] theorem stepRated_fields (mean : Nat) (s : State) :
    (stepRated mean s).pending = s.pending ∧ (stepRated mean s).rstnLow = s.rstnLow ∧
      (stepRated mean s).strap = s.strap ∧ (stepRated mean s).mem = s.mem ∧
      (stepRated mean s).readData = s.readData ∧ (stepRated mean s).meterTimer = s.meterTimer ∧
      (stepRated mean s).answers = s.answers ∧ (stepRated mean s).sa = s.sa ∧ (stepRated mean s).ms = s.ms ∧
      (stepRated mean s).knob = s.knob ∧ (stepRated mean s).clock = s.clock ∧
      (stepRated mean s).audioStarted = s.audioStarted ∧ (stepRated mean s).lock = s.lock ∧
      (stepRated mean s).links = s.links ∧ (stepRated mean s).free = s.free := by
  unfold stepRated
  try dsimp only
  (repeat' split) <;> simp

@[simp] theorem stepReading_fields (code : Nat) (s : State) :
    (stepReading code s).pending = s.pending ∧ (stepReading code s).rstnLow = s.rstnLow ∧
      (stepReading code s).strap = s.strap ∧ (stepReading code s).mem = s.mem ∧
      (stepReading code s).readData = s.readData ∧ (stepReading code s).meterTimer = s.meterTimer ∧
      (stepReading code s).answers = s.answers ∧ (stepReading code s).sa = s.sa ∧
      (stepReading code s).ms = s.ms ∧ (stepReading code s).knob = s.knob ∧
      (stepReading code s).clock = s.clock ∧ (stepReading code s).audioStarted = s.audioStarted ∧
      (stepReading code s).lock = s.lock ∧ (stepReading code s).links = s.links ∧
      (stepReading code s).free = s.free := by
  unfold stepReading
  try dsimp only
  (repeat' split) <;> simp

@[simp] theorem weakReading_fields (code : Nat) (s : State) :
    (weakReading code s).pending = s.pending ∧ (weakReading code s).rstnLow = s.rstnLow ∧
      (weakReading code s).strap = s.strap ∧ (weakReading code s).mem = s.mem ∧
      (weakReading code s).readData = s.readData ∧ (weakReading code s).agent = s.agent ∧
      (weakReading code s).meterTimer = s.meterTimer ∧ (weakReading code s).answers = s.answers ∧
      (weakReading code s).sa = s.sa ∧ (weakReading code s).ms = s.ms ∧ (weakReading code s).knob = s.knob ∧
      (weakReading code s).clock = s.clock ∧ (weakReading code s).audioStarted = s.audioStarted ∧
      (weakReading code s).lock = s.lock ∧ (weakReading code s).links = s.links ∧
      (weakReading code s).free = s.free := by
  unfold weakReading
  try dsimp only
  (repeat' split) <;> simp

@[simp] theorem deliverRssi_fields (code : Nat) (s : State) :
    (deliverRssi code s).pending = s.pending ∧ (deliverRssi code s).rstnLow = s.rstnLow ∧
      (deliverRssi code s).strap = s.strap ∧ (deliverRssi code s).mem = s.mem ∧
      (deliverRssi code s).readData = s.readData ∧ (deliverRssi code s).meterTimer = s.meterTimer ∧
      (deliverRssi code s).answers = s.answers ∧ (deliverRssi code s).sa = s.sa ∧
      (deliverRssi code s).ms = s.ms ∧ (deliverRssi code s).knob = s.knob ∧
      (deliverRssi code s).clock = s.clock ∧ (deliverRssi code s).audioStarted = s.audioStarted ∧
      (deliverRssi code s).lock = s.lock ∧ (deliverRssi code s).links = s.links ∧
      (deliverRssi code s).free = s.free := by
  unfold deliverRssi
  try dsimp only
  (repeat' split) <;> simp

@[simp] theorem readingExpiry_fields (s : State) :
    (readingExpiry s).pending = s.pending ∧ (readingExpiry s).rstnLow = s.rstnLow ∧
      (readingExpiry s).strap = s.strap ∧ (readingExpiry s).mem = s.mem ∧
      (readingExpiry s).readData = s.readData ∧ (readingExpiry s).agent = s.agent ∧
      (readingExpiry s).att = s.att ∧ (readingExpiry s).dirty = s.dirty ∧
      (readingExpiry s).meterTimer = s.meterTimer ∧ (readingExpiry s).answers = s.answers ∧
      (readingExpiry s).sa = s.sa ∧ (readingExpiry s).ms = s.ms ∧ (readingExpiry s).zones = s.zones ∧
      (readingExpiry s).view = s.view ∧ (readingExpiry s).dec = s.dec ∧ (readingExpiry s).bass = s.bass ∧
      (readingExpiry s).gain = s.gain ∧ (readingExpiry s).knob = s.knob ∧ (readingExpiry s).pool = s.pool ∧
      (readingExpiry s).mods = s.mods ∧ (readingExpiry s).clock = s.clock ∧
      (readingExpiry s).audioStarted = s.audioStarted ∧ (readingExpiry s).lock = s.lock ∧
      (readingExpiry s).links = s.links ∧ (readingExpiry s).fe = s.fe ∧ (readingExpiry s).tun = s.tun ∧
      (readingExpiry s).sd = s.sd ∧ (readingExpiry s).free = s.free := by
  unfold readingExpiry
  try dsimp only
  (repeat' split) <;> simp

@[simp] theorem queryExpiry_fields (s : State) :
    (queryExpiry s).pending = s.pending ∧ (queryExpiry s).rstnLow = s.rstnLow ∧
      (queryExpiry s).strap = s.strap ∧ (queryExpiry s).mem = s.mem ∧ (queryExpiry s).readData = s.readData ∧
      (queryExpiry s).agent = s.agent ∧ (queryExpiry s).att = s.att ∧ (queryExpiry s).dirty = s.dirty ∧
      (queryExpiry s).meterTimer = s.meterTimer ∧ (queryExpiry s).answers = s.answers ∧
      (queryExpiry s).sa = s.sa ∧ (queryExpiry s).ms = s.ms ∧ (queryExpiry s).zones = s.zones ∧
      (queryExpiry s).view = s.view ∧ (queryExpiry s).dec = s.dec ∧ (queryExpiry s).bass = s.bass ∧
      (queryExpiry s).gain = s.gain ∧ (queryExpiry s).knob = s.knob ∧ (queryExpiry s).pool = s.pool ∧
      (queryExpiry s).mods = s.mods ∧ (queryExpiry s).clock = s.clock ∧
      (queryExpiry s).audioStarted = s.audioStarted ∧ (queryExpiry s).lock = s.lock ∧
      (queryExpiry s).links = s.links ∧ (queryExpiry s).meas = s.meas ∧ (queryExpiry s).tun = s.tun ∧
      (queryExpiry s).sd = s.sd ∧ (queryExpiry s).free = s.free := by
  unfold queryExpiry
  try dsimp only
  (repeat' split) <;> simp

@[simp] theorem settleExpiry_fields (s : State) :
    (settleExpiry s).pending = s.pending ∧ (settleExpiry s).rstnLow = s.rstnLow ∧
      (settleExpiry s).strap = s.strap ∧ (settleExpiry s).mem = s.mem ∧
      (settleExpiry s).readData = s.readData ∧ (settleExpiry s).agent = s.agent ∧
      (settleExpiry s).meterTimer = s.meterTimer ∧ (settleExpiry s).answers = s.answers ∧
      (settleExpiry s).sa = s.sa ∧ (settleExpiry s).ms = s.ms ∧ (settleExpiry s).knob = s.knob ∧
      (settleExpiry s).clock = s.clock ∧ (settleExpiry s).audioStarted = s.audioStarted ∧
      (settleExpiry s).lock = s.lock ∧ (settleExpiry s).links = s.links ∧ (settleExpiry s).free = s.free := by
  unfold settleExpiry
  try dsimp only
  (repeat' split) <;> simp

@[simp] theorem verifyFailed_fields (s : State) :
    (verifyFailed s).pending = s.pending ∧ (verifyFailed s).rstnLow = s.rstnLow ∧
      (verifyFailed s).strap = s.strap ∧ (verifyFailed s).mem = s.mem ∧
      (verifyFailed s).readData = s.readData ∧ (verifyFailed s).agent = s.agent ∧
      (verifyFailed s).meterTimer = s.meterTimer ∧ (verifyFailed s).answers = s.answers ∧
      (verifyFailed s).sa = s.sa ∧ (verifyFailed s).ms = s.ms ∧ (verifyFailed s).knob = s.knob ∧
      (verifyFailed s).clock = s.clock ∧ (verifyFailed s).audioStarted = s.audioStarted ∧
      (verifyFailed s).lock = s.lock ∧ (verifyFailed s).links = s.links ∧ (verifyFailed s).free = s.free := by
  unfold verifyFailed
  try dsimp only
  (repeat' split) <;> simp

@[simp] theorem verifySwitch_fields (s : State) :
    (verifySwitch s).pending = s.pending ∧ (verifySwitch s).rstnLow = s.rstnLow ∧
      (verifySwitch s).strap = s.strap ∧ (verifySwitch s).mem = s.mem ∧
      (verifySwitch s).readData = s.readData ∧ (verifySwitch s).meterTimer = s.meterTimer ∧
      (verifySwitch s).answers = s.answers ∧ (verifySwitch s).sa = s.sa ∧ (verifySwitch s).ms = s.ms ∧
      (verifySwitch s).knob = s.knob ∧ (verifySwitch s).clock = s.clock ∧
      (verifySwitch s).audioStarted = s.audioStarted ∧ (verifySwitch s).lock = s.lock ∧
      (verifySwitch s).links = s.links ∧ (verifySwitch s).free = s.free := by
  unfold verifySwitch
  try dsimp only
  (repeat' split) <;> simp

@[simp] theorem verifyHanded_fields (code : Word) (s : State) :
    (verifyHanded code s).pending = s.pending ∧ (verifyHanded code s).rstnLow = s.rstnLow ∧
      (verifyHanded code s).strap = s.strap ∧ (verifyHanded code s).mem = s.mem ∧
      (verifyHanded code s).readData = s.readData ∧ (verifyHanded code s).meterTimer = s.meterTimer ∧
      (verifyHanded code s).answers = s.answers ∧ (verifyHanded code s).sa = s.sa ∧
      (verifyHanded code s).ms = s.ms ∧ (verifyHanded code s).knob = s.knob ∧
      (verifyHanded code s).clock = s.clock ∧ (verifyHanded code s).audioStarted = s.audioStarted ∧
      (verifyHanded code s).lock = s.lock ∧ (verifyHanded code s).links = s.links ∧
      (verifyHanded code s).free = s.free := by
  unfold verifyHanded
  try dsimp only
  (repeat' split) <;> simp

@[simp] theorem verifyExpiry_fields (s : State) :
    (verifyExpiry s).pending = s.pending ∧ (verifyExpiry s).rstnLow = s.rstnLow ∧
      (verifyExpiry s).strap = s.strap ∧ (verifyExpiry s).mem = s.mem ∧
      (verifyExpiry s).readData = s.readData ∧ (verifyExpiry s).agent = s.agent ∧
      (verifyExpiry s).meterTimer = s.meterTimer ∧ (verifyExpiry s).answers = s.answers ∧
      (verifyExpiry s).sa = s.sa ∧ (verifyExpiry s).ms = s.ms ∧ (verifyExpiry s).knob = s.knob ∧
      (verifyExpiry s).clock = s.clock ∧ (verifyExpiry s).audioStarted = s.audioStarted ∧
      (verifyExpiry s).lock = s.lock ∧ (verifyExpiry s).links = s.links ∧ (verifyExpiry s).free = s.free := by
  unfold verifyExpiry
  try dsimp only
  (repeat' split) <;> simp

@[simp] theorem setPilot_fields (on : Bool) (s : State) :
    (setPilot on s).pending = s.pending ∧ (setPilot on s).rstnLow = s.rstnLow ∧
      (setPilot on s).strap = s.strap ∧ (setPilot on s).mem = s.mem ∧ (setPilot on s).readData = s.readData ∧
      (setPilot on s).agent = s.agent ∧ (setPilot on s).att = s.att ∧ (setPilot on s).dirty = s.dirty ∧
      (setPilot on s).meterTimer = s.meterTimer ∧ (setPilot on s).answers = s.answers ∧
      (setPilot on s).sa = s.sa ∧ (setPilot on s).ms = s.ms ∧ (setPilot on s).zones = s.zones ∧
      (setPilot on s).view = s.view ∧ (setPilot on s).dec = s.dec ∧ (setPilot on s).bass = s.bass ∧
      (setPilot on s).gain = s.gain ∧ (setPilot on s).knob = s.knob ∧ (setPilot on s).pool = s.pool ∧
      (setPilot on s).mods = s.mods ∧ (setPilot on s).clock = s.clock ∧
      (setPilot on s).audioStarted = s.audioStarted ∧ (setPilot on s).lock = s.lock ∧
      (setPilot on s).links = s.links ∧ (setPilot on s).meas = s.meas ∧ (setPilot on s).fe = s.fe ∧
      (setPilot on s).sd = s.sd ∧ (setPilot on s).free = s.free := by
  unfold setPilot
  try dsimp only
  (repeat' split) <;> simp

@[simp] theorem setTuned_fields (band : Band) (code : Nat) (s : State) :
    (setTuned band code s).pending = s.pending ∧ (setTuned band code s).rstnLow = s.rstnLow ∧
      (setTuned band code s).strap = s.strap ∧ (setTuned band code s).mem = s.mem ∧
      (setTuned band code s).readData = s.readData ∧ (setTuned band code s).agent = s.agent ∧
      (setTuned band code s).att = s.att ∧ (setTuned band code s).dirty = s.dirty ∧
      (setTuned band code s).meterTimer = s.meterTimer ∧ (setTuned band code s).answers = s.answers ∧
      (setTuned band code s).sa = s.sa ∧ (setTuned band code s).ms = s.ms ∧
      (setTuned band code s).zones = s.zones ∧ (setTuned band code s).view = s.view ∧
      (setTuned band code s).dec = s.dec ∧ (setTuned band code s).bass = s.bass ∧
      (setTuned band code s).gain = s.gain ∧ (setTuned band code s).knob = s.knob ∧
      (setTuned band code s).pool = s.pool ∧ (setTuned band code s).mods = s.mods ∧
      (setTuned band code s).clock = s.clock ∧ (setTuned band code s).audioStarted = s.audioStarted ∧
      (setTuned band code s).lock = s.lock ∧ (setTuned band code s).links = s.links ∧
      (setTuned band code s).meas = s.meas ∧ (setTuned band code s).fe = s.fe ∧
      (setTuned band code s).free = s.free := by
  unfold setTuned
  try dsimp only
  (repeat' split) <;> simp

@[simp] theorem frontEndFault_fields (s : State) :
    (frontEndFault s).pending = s.pending ∧ (frontEndFault s).rstnLow = s.rstnLow ∧
      (frontEndFault s).strap = s.strap ∧ (frontEndFault s).mem = s.mem ∧
      (frontEndFault s).readData = s.readData ∧ (frontEndFault s).agent = s.agent ∧
      (frontEndFault s).meterTimer = s.meterTimer ∧ (frontEndFault s).answers = s.answers ∧
      (frontEndFault s).sa = s.sa ∧ (frontEndFault s).ms = s.ms ∧ (frontEndFault s).knob = s.knob ∧
      (frontEndFault s).clock = s.clock ∧ (frontEndFault s).audioStarted = s.audioStarted ∧
      (frontEndFault s).lock = s.lock ∧ (frontEndFault s).links = s.links ∧ (frontEndFault s).free = s.free := by
  unfold frontEndFault
  try dsimp only
  (repeat' split) <;> simp

@[simp] theorem exchangeFailed_fields (o : Outstanding) (s : State) :
    (exchangeFailed o s).pending = s.pending ∧ (exchangeFailed o s).rstnLow = s.rstnLow ∧
      (exchangeFailed o s).strap = s.strap ∧ (exchangeFailed o s).mem = s.mem ∧
      (exchangeFailed o s).readData = s.readData ∧ (exchangeFailed o s).agent = s.agent ∧
      (exchangeFailed o s).meterTimer = s.meterTimer ∧ (exchangeFailed o s).answers = s.answers ∧
      (exchangeFailed o s).sa = s.sa ∧ (exchangeFailed o s).ms = s.ms ∧ (exchangeFailed o s).knob = s.knob ∧
      (exchangeFailed o s).clock = s.clock ∧ (exchangeFailed o s).audioStarted = s.audioStarted ∧
      (exchangeFailed o s).lock = s.lock ∧ (exchangeFailed o s).links = s.links ∧
      (exchangeFailed o s).free = s.free := by
  unfold exchangeFailed
  try dsimp only
  (repeat' split) <;> simp

@[simp] theorem tuneEnded_fields (purpose : TunePurpose) (locked : Bool) (s : State) :
    (tuneEnded purpose locked s).pending = s.pending ∧ (tuneEnded purpose locked s).rstnLow = s.rstnLow ∧
      (tuneEnded purpose locked s).strap = s.strap ∧ (tuneEnded purpose locked s).mem = s.mem ∧
      (tuneEnded purpose locked s).readData = s.readData ∧
      (tuneEnded purpose locked s).meterTimer = s.meterTimer ∧
      (tuneEnded purpose locked s).answers = s.answers ∧ (tuneEnded purpose locked s).sa = s.sa ∧
      (tuneEnded purpose locked s).ms = s.ms ∧ (tuneEnded purpose locked s).knob = s.knob ∧
      (tuneEnded purpose locked s).clock = s.clock ∧
      (tuneEnded purpose locked s).audioStarted = s.audioStarted ∧
      (tuneEnded purpose locked s).lock = s.lock ∧ (tuneEnded purpose locked s).links = s.links ∧
      (tuneEnded purpose locked s).free = s.free := by
  unfold tuneEnded
  try dsimp only
  (repeat' split) <;> simp

@[simp] theorem tuneAccepted_fields (o : Outstanding) (band : Band) (code : Nat) (purpose : TunePurpose) (locked fault : Bool) (s : State) :
    (tuneAccepted o band code purpose locked fault s).pending = s.pending ∧
      (tuneAccepted o band code purpose locked fault s).rstnLow = s.rstnLow ∧
      (tuneAccepted o band code purpose locked fault s).strap = s.strap ∧
      (tuneAccepted o band code purpose locked fault s).mem = s.mem ∧
      (tuneAccepted o band code purpose locked fault s).readData = s.readData ∧
      (tuneAccepted o band code purpose locked fault s).meterTimer = s.meterTimer ∧
      (tuneAccepted o band code purpose locked fault s).answers = s.answers ∧
      (tuneAccepted o band code purpose locked fault s).sa = s.sa ∧
      (tuneAccepted o band code purpose locked fault s).ms = s.ms ∧
      (tuneAccepted o band code purpose locked fault s).knob = s.knob ∧
      (tuneAccepted o band code purpose locked fault s).clock = s.clock ∧
      (tuneAccepted o band code purpose locked fault s).audioStarted = s.audioStarted ∧
      (tuneAccepted o band code purpose locked fault s).lock = s.lock ∧
      (tuneAccepted o band code purpose locked fault s).links = s.links ∧
      (tuneAccepted o band code purpose locked fault s).free = s.free := by
  unfold tuneAccepted
  try dsimp only
  (repeat' split) <;> simp

@[simp] theorem responseAccepted_fields (o : Outstanding) (body : List Byte) (s : State) :
    (responseAccepted o body s).pending = s.pending ∧ (responseAccepted o body s).rstnLow = s.rstnLow ∧
      (responseAccepted o body s).strap = s.strap ∧ (responseAccepted o body s).mem = s.mem ∧
      (responseAccepted o body s).readData = s.readData ∧
      (responseAccepted o body s).meterTimer = s.meterTimer ∧
      (responseAccepted o body s).answers = s.answers ∧ (responseAccepted o body s).sa = s.sa ∧
      (responseAccepted o body s).ms = s.ms ∧ (responseAccepted o body s).knob = s.knob ∧
      (responseAccepted o body s).clock = s.clock ∧
      (responseAccepted o body s).audioStarted = s.audioStarted ∧ (responseAccepted o body s).lock = s.lock ∧
      (responseAccepted o body s).links = s.links ∧ (responseAccepted o body s).free = s.free := by
  unfold responseAccepted
  try dsimp only
  (repeat' split) <;> simp

@[simp] theorem frameHanded_fields (body : List Byte) (s : State) :
    (frameHanded body s).pending = s.pending ∧ (frameHanded body s).rstnLow = s.rstnLow ∧
      (frameHanded body s).strap = s.strap ∧ (frameHanded body s).mem = s.mem ∧
      (frameHanded body s).readData = s.readData ∧ (frameHanded body s).meterTimer = s.meterTimer ∧
      (frameHanded body s).answers = s.answers ∧ (frameHanded body s).sa = s.sa ∧
      (frameHanded body s).ms = s.ms ∧ (frameHanded body s).knob = s.knob ∧
      (frameHanded body s).clock = s.clock ∧ (frameHanded body s).audioStarted = s.audioStarted ∧
      (frameHanded body s).lock = s.lock ∧ (frameHanded body s).links = s.links ∧
      (frameHanded body s).free = s.free := by
  unfold frameHanded
  try dsimp only
  (repeat' split) <;> simp

@[simp] theorem frontEndRestart_fields (s : State) :
    (frontEndRestart s).pending = s.pending ∧ (frontEndRestart s).rstnLow = s.rstnLow ∧
      (frontEndRestart s).strap = s.strap ∧ (frontEndRestart s).mem = s.mem ∧
      (frontEndRestart s).readData = s.readData ∧ (frontEndRestart s).agent = s.agent ∧
      (frontEndRestart s).att = s.att ∧ (frontEndRestart s).dirty = s.dirty ∧
      (frontEndRestart s).meterTimer = s.meterTimer ∧ (frontEndRestart s).answers = s.answers ∧
      (frontEndRestart s).sa = s.sa ∧ (frontEndRestart s).ms = s.ms ∧ (frontEndRestart s).zones = s.zones ∧
      (frontEndRestart s).view = s.view ∧ (frontEndRestart s).dec = s.dec ∧
      (frontEndRestart s).bass = s.bass ∧ (frontEndRestart s).gain = s.gain ∧
      (frontEndRestart s).knob = s.knob ∧ (frontEndRestart s).pool = s.pool ∧
      (frontEndRestart s).mods = s.mods ∧ (frontEndRestart s).clock = s.clock ∧
      (frontEndRestart s).audioStarted = s.audioStarted ∧ (frontEndRestart s).lock = s.lock ∧
      (frontEndRestart s).links = s.links ∧ (frontEndRestart s).meas = s.meas ∧
      (frontEndRestart s).tun = s.tun ∧ (frontEndRestart s).sd = s.sd ∧ (frontEndRestart s).free = s.free := by
  unfold frontEndRestart
  try dsimp only
  (repeat' split) <;> simp

@[simp] theorem assemblerExpiry_fields (s : State) :
    (assemblerExpiry s).pending = s.pending ∧ (assemblerExpiry s).rstnLow = s.rstnLow ∧
      (assemblerExpiry s).strap = s.strap ∧ (assemblerExpiry s).mem = s.mem ∧
      (assemblerExpiry s).readData = s.readData ∧ (assemblerExpiry s).meterTimer = s.meterTimer ∧
      (assemblerExpiry s).answers = s.answers ∧ (assemblerExpiry s).sa = s.sa ∧
      (assemblerExpiry s).ms = s.ms ∧ (assemblerExpiry s).knob = s.knob ∧
      (assemblerExpiry s).clock = s.clock ∧ (assemblerExpiry s).audioStarted = s.audioStarted ∧
      (assemblerExpiry s).lock = s.lock ∧ (assemblerExpiry s).links = s.links ∧
      (assemblerExpiry s).free = s.free := by
  unfold assemblerExpiry
  try dsimp only
  (repeat' split) <;> simp

@[simp] theorem responseExpiry_fields (s : State) :
    (responseExpiry s).pending = s.pending ∧ (responseExpiry s).rstnLow = s.rstnLow ∧
      (responseExpiry s).strap = s.strap ∧ (responseExpiry s).mem = s.mem ∧
      (responseExpiry s).readData = s.readData ∧ (responseExpiry s).agent = s.agent ∧
      (responseExpiry s).meterTimer = s.meterTimer ∧ (responseExpiry s).answers = s.answers ∧
      (responseExpiry s).sa = s.sa ∧ (responseExpiry s).ms = s.ms ∧ (responseExpiry s).knob = s.knob ∧
      (responseExpiry s).clock = s.clock ∧ (responseExpiry s).audioStarted = s.audioStarted ∧
      (responseExpiry s).lock = s.lock ∧ (responseExpiry s).links = s.links ∧ (responseExpiry s).free = s.free := by
  unfold responseExpiry
  try dsimp only
  (repeat' split) <;> simp

@[simp] theorem tuneCommand_fields (s : State) :
    (tuneCommand s).pending = s.pending ∧ (tuneCommand s).rstnLow = s.rstnLow ∧
      (tuneCommand s).strap = s.strap ∧ (tuneCommand s).mem = s.mem ∧ (tuneCommand s).readData = s.readData ∧
      (tuneCommand s).meterTimer = s.meterTimer ∧ (tuneCommand s).answers = s.answers ∧
      (tuneCommand s).sa = s.sa ∧ (tuneCommand s).ms = s.ms ∧ (tuneCommand s).knob = s.knob ∧
      (tuneCommand s).clock = s.clock ∧ (tuneCommand s).audioStarted = s.audioStarted ∧
      (tuneCommand s).lock = s.lock ∧ (tuneCommand s).links = s.links ∧ (tuneCommand s).free = s.free := by
  unfold tuneCommand
  try dsimp only
  (repeat' split) <;> simp

@[simp] theorem seekCommand_fields (up : Bool) (s : State) :
    (seekCommand up s).pending = s.pending ∧ (seekCommand up s).rstnLow = s.rstnLow ∧
      (seekCommand up s).strap = s.strap ∧ (seekCommand up s).mem = s.mem ∧
      (seekCommand up s).readData = s.readData ∧ (seekCommand up s).meterTimer = s.meterTimer ∧
      (seekCommand up s).answers = s.answers ∧ (seekCommand up s).sa = s.sa ∧ (seekCommand up s).ms = s.ms ∧
      (seekCommand up s).knob = s.knob ∧ (seekCommand up s).clock = s.clock ∧
      (seekCommand up s).audioStarted = s.audioStarted ∧ (seekCommand up s).lock = s.lock ∧
      (seekCommand up s).links = s.links ∧ (seekCommand up s).free = s.free := by
  unfold seekCommand
  try dsimp only
  (repeat' split) <;> simp

@[simp] theorem stopSeek_fields (s : State) :
    (stopSeek s).pending = s.pending ∧ (stopSeek s).rstnLow = s.rstnLow ∧ (stopSeek s).strap = s.strap ∧
      (stopSeek s).mem = s.mem ∧ (stopSeek s).readData = s.readData ∧
      (stopSeek s).meterTimer = s.meterTimer ∧ (stopSeek s).answers = s.answers ∧ (stopSeek s).sa = s.sa ∧
      (stopSeek s).ms = s.ms ∧ (stopSeek s).knob = s.knob ∧ (stopSeek s).clock = s.clock ∧
      (stopSeek s).audioStarted = s.audioStarted ∧ (stopSeek s).lock = s.lock ∧
      (stopSeek s).links = s.links ∧ (stopSeek s).free = s.free := by
  unfold stopSeek
  try dsimp only
  (repeat' split) <;> simp

@[simp] theorem stopCommand_fields (s : State) :
    (stopCommand s).pending = s.pending ∧ (stopCommand s).rstnLow = s.rstnLow ∧
      (stopCommand s).strap = s.strap ∧ (stopCommand s).mem = s.mem ∧ (stopCommand s).readData = s.readData ∧
      (stopCommand s).meterTimer = s.meterTimer ∧ (stopCommand s).answers = s.answers ∧
      (stopCommand s).sa = s.sa ∧ (stopCommand s).ms = s.ms ∧ (stopCommand s).knob = s.knob ∧
      (stopCommand s).clock = s.clock ∧ (stopCommand s).audioStarted = s.audioStarted ∧
      (stopCommand s).lock = s.lock ∧ (stopCommand s).links = s.links ∧ (stopCommand s).free = s.free := by
  unfold stopCommand
  try dsimp only
  (repeat' split) <;> simp

@[simp] theorem offCommand_fields (s : State) :
    (offCommand s).pending = s.pending ∧ (offCommand s).rstnLow = s.rstnLow ∧
      (offCommand s).strap = s.strap ∧ (offCommand s).mem = s.mem ∧ (offCommand s).readData = s.readData ∧
      (offCommand s).meterTimer = s.meterTimer ∧ (offCommand s).answers = s.answers ∧
      (offCommand s).sa = s.sa ∧ (offCommand s).ms = s.ms ∧ (offCommand s).knob = s.knob ∧
      (offCommand s).clock = s.clock ∧ (offCommand s).audioStarted = s.audioStarted ∧
      (offCommand s).lock = s.lock ∧ (offCommand s).links = s.links ∧ (offCommand s).free = s.free := by
  unfold offCommand
  try dsimp only
  (repeat' split) <;> simp

@[simp] theorem recallCommand_fields (n : Nat) (s : State) :
    (recallCommand n s).pending = s.pending ∧ (recallCommand n s).rstnLow = s.rstnLow ∧
      (recallCommand n s).strap = s.strap ∧ (recallCommand n s).mem = s.mem ∧
      (recallCommand n s).readData = s.readData ∧ (recallCommand n s).att = s.att ∧
      (recallCommand n s).dirty = s.dirty ∧ (recallCommand n s).meterTimer = s.meterTimer ∧
      (recallCommand n s).answers = s.answers ∧ (recallCommand n s).sa = s.sa ∧
      (recallCommand n s).ms = s.ms ∧ (recallCommand n s).zones = s.zones ∧
      (recallCommand n s).view = s.view ∧ (recallCommand n s).dec = s.dec ∧
      (recallCommand n s).bass = s.bass ∧ (recallCommand n s).gain = s.gain ∧
      (recallCommand n s).knob = s.knob ∧ (recallCommand n s).pool = s.pool ∧
      (recallCommand n s).mods = s.mods ∧ (recallCommand n s).clock = s.clock ∧
      (recallCommand n s).audioStarted = s.audioStarted ∧ (recallCommand n s).lock = s.lock ∧
      (recallCommand n s).links = s.links ∧ (recallCommand n s).meas = s.meas ∧
      (recallCommand n s).fe = s.fe ∧ (recallCommand n s).sd = s.sd ∧ (recallCommand n s).free = s.free := by
  unfold recallCommand
  try dsimp only
  (repeat' split) <;> simp

@[simp] theorem storeCommand_fields (n : Nat) (s : State) :
    (storeCommand n s).pending = s.pending ∧ (storeCommand n s).rstnLow = s.rstnLow ∧
      (storeCommand n s).strap = s.strap ∧ (storeCommand n s).mem = s.mem ∧
      (storeCommand n s).readData = s.readData ∧ (storeCommand n s).agent = s.agent ∧
      (storeCommand n s).att = s.att ∧ (storeCommand n s).dirty = s.dirty ∧
      (storeCommand n s).meterTimer = s.meterTimer ∧ (storeCommand n s).answers = s.answers ∧
      (storeCommand n s).sa = s.sa ∧ (storeCommand n s).ms = s.ms ∧ (storeCommand n s).zones = s.zones ∧
      (storeCommand n s).view = s.view ∧ (storeCommand n s).dec = s.dec ∧ (storeCommand n s).bass = s.bass ∧
      (storeCommand n s).gain = s.gain ∧ (storeCommand n s).knob = s.knob ∧
      (storeCommand n s).pool = s.pool ∧ (storeCommand n s).mods = s.mods ∧
      (storeCommand n s).clock = s.clock ∧ (storeCommand n s).audioStarted = s.audioStarted ∧
      (storeCommand n s).lock = s.lock ∧ (storeCommand n s).links = s.links ∧
      (storeCommand n s).meas = s.meas ∧ (storeCommand n s).fe = s.fe ∧ (storeCommand n s).sd = s.sd ∧
      (storeCommand n s).free = s.free := by
  unfold storeCommand
  try dsimp only
  (repeat' split) <;> simp

@[simp] theorem tunerAct_fields (c : TunerCommand) (s : State) :
    (tunerAct c s).pending = s.pending ∧ (tunerAct c s).rstnLow = s.rstnLow ∧
      (tunerAct c s).strap = s.strap ∧ (tunerAct c s).mem = s.mem ∧ (tunerAct c s).readData = s.readData ∧
      (tunerAct c s).meterTimer = s.meterTimer ∧ (tunerAct c s).answers = s.answers ∧
      (tunerAct c s).sa = s.sa ∧ (tunerAct c s).ms = s.ms ∧ (tunerAct c s).knob = s.knob ∧
      (tunerAct c s).clock = s.clock ∧ (tunerAct c s).audioStarted = s.audioStarted ∧
      (tunerAct c s).lock = s.lock ∧ (tunerAct c s).links = s.links ∧ (tunerAct c s).free = s.free := by
  unfold tunerAct
  try dsimp only
  (repeat' split) <;> simp

@[simp] theorem tunerCommand_fields (v : Word) (s : State) :
    (tunerCommand v s).pending = s.pending ∧ (tunerCommand v s).rstnLow = s.rstnLow ∧
      (tunerCommand v s).strap = s.strap ∧ (tunerCommand v s).mem = s.mem ∧
      (tunerCommand v s).readData = s.readData ∧ (tunerCommand v s).meterTimer = s.meterTimer ∧
      (tunerCommand v s).sa = s.sa ∧ (tunerCommand v s).ms = s.ms ∧ (tunerCommand v s).knob = s.knob ∧
      (tunerCommand v s).clock = s.clock ∧ (tunerCommand v s).audioStarted = s.audioStarted ∧
      (tunerCommand v s).lock = s.lock ∧ (tunerCommand v s).links = s.links ∧ (tunerCommand v s).free = s.free := by
  unfold tunerCommand
  try dsimp only
  (repeat' split) <;> simp

@[simp] theorem recallClear_fields (s : State) :
    (recallClear s).pending = s.pending ∧ (recallClear s).rstnLow = s.rstnLow ∧
      (recallClear s).strap = s.strap ∧ (recallClear s).mem = s.mem ∧ (recallClear s).readData = s.readData ∧
      (recallClear s).agent = s.agent ∧ (recallClear s).meterTimer = s.meterTimer ∧
      (recallClear s).answers = s.answers ∧ (recallClear s).sa = s.sa ∧ (recallClear s).ms = s.ms ∧
      (recallClear s).zones = s.zones ∧ (recallClear s).view = s.view ∧ (recallClear s).dec = s.dec ∧
      (recallClear s).bass = s.bass ∧ (recallClear s).gain = s.gain ∧ (recallClear s).knob = s.knob ∧
      (recallClear s).pool = s.pool ∧ (recallClear s).mods = s.mods ∧ (recallClear s).clock = s.clock ∧
      (recallClear s).audioStarted = s.audioStarted ∧ (recallClear s).lock = s.lock ∧
      (recallClear s).links = s.links ∧ (recallClear s).meas = s.meas ∧ (recallClear s).fe = s.fe ∧
      (recallClear s).tun = s.tun ∧ (recallClear s).free = s.free := by
  unfold recallClear
  simp

@[simp] theorem recallValid_fields (band : Band) (words : List Word) (s : State) :
    (recallValid band words s).pending = s.pending ∧ (recallValid band words s).rstnLow = s.rstnLow ∧
      (recallValid band words s).strap = s.strap ∧ (recallValid band words s).mem = s.mem ∧
      (recallValid band words s).readData = s.readData ∧
      (recallValid band words s).meterTimer = s.meterTimer ∧ (recallValid band words s).answers = s.answers ∧
      (recallValid band words s).sa = s.sa ∧ (recallValid band words s).ms = s.ms ∧
      (recallValid band words s).knob = s.knob ∧ (recallValid band words s).clock = s.clock ∧
      (recallValid band words s).audioStarted = s.audioStarted ∧ (recallValid band words s).lock = s.lock ∧
      (recallValid band words s).links = s.links ∧ (recallValid band words s).free = s.free := by
  unfold recallValid
  try dsimp only
  (repeat' split) <;> simp

@[simp] theorem judgeRecall_fields (words : List Word) (s : State) :
    (judgeRecall words s).pending = s.pending ∧ (judgeRecall words s).rstnLow = s.rstnLow ∧
      (judgeRecall words s).strap = s.strap ∧ (judgeRecall words s).mem = s.mem ∧
      (judgeRecall words s).readData = s.readData ∧ (judgeRecall words s).meterTimer = s.meterTimer ∧
      (judgeRecall words s).answers = s.answers ∧ (judgeRecall words s).sa = s.sa ∧
      (judgeRecall words s).ms = s.ms ∧ (judgeRecall words s).knob = s.knob ∧
      (judgeRecall words s).clock = s.clock ∧ (judgeRecall words s).audioStarted = s.audioStarted ∧
      (judgeRecall words s).lock = s.lock ∧ (judgeRecall words s).links = s.links ∧
      (judgeRecall words s).free = s.free := by
  unfold judgeRecall
  try dsimp only
  (repeat' split) <;> simp

@[simp] theorem recallDone_fields (words : List Word) (s : State) :
    (recallDone words s).pending = s.pending ∧ (recallDone words s).rstnLow = s.rstnLow ∧
      (recallDone words s).strap = s.strap ∧ (recallDone words s).mem = s.mem ∧
      (recallDone words s).readData = s.readData ∧ (recallDone words s).meterTimer = s.meterTimer ∧
      (recallDone words s).answers = s.answers ∧ (recallDone words s).sa = s.sa ∧
      (recallDone words s).ms = s.ms ∧ (recallDone words s).knob = s.knob ∧
      (recallDone words s).clock = s.clock ∧ (recallDone words s).audioStarted = s.audioStarted ∧
      (recallDone words s).lock = s.lock ∧ (recallDone words s).links = s.links ∧
      (recallDone words s).free = s.free := by
  unfold recallDone
  try dsimp only
  (repeat' split) <;> simp

@[simp] theorem receiveCode_fields (code : Word) (s : State) :
    (receiveCode code s).pending = s.pending ∧ (receiveCode code s).rstnLow = s.rstnLow ∧
      (receiveCode code s).strap = s.strap ∧ (receiveCode code s).mem = s.mem ∧
      (receiveCode code s).readData = s.readData ∧ (receiveCode code s).meterTimer = s.meterTimer ∧
      (receiveCode code s).answers = s.answers ∧ (receiveCode code s).sa = s.sa ∧
      (receiveCode code s).ms = s.ms ∧ (receiveCode code s).knob = s.knob ∧
      (receiveCode code s).clock = s.clock ∧ (receiveCode code s).audioStarted = s.audioStarted ∧
      (receiveCode code s).lock = s.lock ∧ (receiveCode code s).links = s.links ∧
      (receiveCode code s).free = s.free := by
  unfold receiveCode
  try dsimp only
  (repeat' split) <;> simp

@[simp] theorem handBlock_fields (p : Nat) (w : Word) (s : State) :
    (handBlock p w s).pending = s.pending ∧ (handBlock p w s).rstnLow = s.rstnLow ∧
      (handBlock p w s).strap = s.strap ∧ (handBlock p w s).mem = s.mem ∧
      (handBlock p w s).readData = s.readData ∧ (handBlock p w s).meterTimer = s.meterTimer ∧
      (handBlock p w s).answers = s.answers ∧ (handBlock p w s).sa = s.sa ∧ (handBlock p w s).ms = s.ms ∧
      (handBlock p w s).knob = s.knob ∧ (handBlock p w s).clock = s.clock ∧
      (handBlock p w s).audioStarted = s.audioStarted ∧ (handBlock p w s).lock = s.lock ∧
      (handBlock p w s).links = s.links ∧ (handBlock p w s).free = s.free := by
  unfold handBlock
  try dsimp only
  (repeat' split) <;> simp

@[simp] theorem acquireBlock_fields (bits : List Bool) (s : State) :
    (acquireBlock bits s).pending = s.pending ∧ (acquireBlock bits s).rstnLow = s.rstnLow ∧
      (acquireBlock bits s).strap = s.strap ∧ (acquireBlock bits s).mem = s.mem ∧
      (acquireBlock bits s).readData = s.readData ∧ (acquireBlock bits s).meterTimer = s.meterTimer ∧
      (acquireBlock bits s).answers = s.answers ∧ (acquireBlock bits s).sa = s.sa ∧
      (acquireBlock bits s).ms = s.ms ∧ (acquireBlock bits s).knob = s.knob ∧
      (acquireBlock bits s).clock = s.clock ∧ (acquireBlock bits s).audioStarted = s.audioStarted ∧
      (acquireBlock bits s).lock = s.lock ∧ (acquireBlock bits s).links = s.links ∧
      (acquireBlock bits s).free = s.free := by
  unfold acquireBlock
  try dsimp only
  (repeat' split) <;> simp

@[simp] theorem syncedBlock_fields (bits : List Bool) (s : State) :
    (syncedBlock bits s).pending = s.pending ∧ (syncedBlock bits s).rstnLow = s.rstnLow ∧
      (syncedBlock bits s).strap = s.strap ∧ (syncedBlock bits s).mem = s.mem ∧
      (syncedBlock bits s).readData = s.readData ∧ (syncedBlock bits s).meterTimer = s.meterTimer ∧
      (syncedBlock bits s).answers = s.answers ∧ (syncedBlock bits s).sa = s.sa ∧
      (syncedBlock bits s).ms = s.ms ∧ (syncedBlock bits s).knob = s.knob ∧
      (syncedBlock bits s).clock = s.clock ∧ (syncedBlock bits s).audioStarted = s.audioStarted ∧
      (syncedBlock bits s).lock = s.lock ∧ (syncedBlock bits s).links = s.links ∧
      (syncedBlock bits s).free = s.free := by
  unfold syncedBlock
  try dsimp only
  (repeat' split) <;> simp

@[simp] theorem takeBit_fields (b : Bool) (s : State) :
    (takeBit b s).pending = s.pending ∧ (takeBit b s).rstnLow = s.rstnLow ∧ (takeBit b s).strap = s.strap ∧
      (takeBit b s).mem = s.mem ∧ (takeBit b s).readData = s.readData ∧
      (takeBit b s).meterTimer = s.meterTimer ∧ (takeBit b s).answers = s.answers ∧ (takeBit b s).sa = s.sa ∧
      (takeBit b s).ms = s.ms ∧ (takeBit b s).knob = s.knob ∧ (takeBit b s).clock = s.clock ∧
      (takeBit b s).audioStarted = s.audioStarted ∧ (takeBit b s).lock = s.lock ∧
      (takeBit b s).links = s.links ∧ (takeBit b s).free = s.free := by
  unfold takeBit
  try dsimp only
  (repeat' split) <;> simp

@[simp] theorem takeBlock_fields (block : BitVec 24) (s : State) :
    (takeBlock block s).pending = s.pending ∧ (takeBlock block s).rstnLow = s.rstnLow ∧
      (takeBlock block s).strap = s.strap ∧ (takeBlock block s).mem = s.mem ∧
      (takeBlock block s).readData = s.readData ∧ (takeBlock block s).meterTimer = s.meterTimer ∧
      (takeBlock block s).answers = s.answers ∧ (takeBlock block s).sa = s.sa ∧
      (takeBlock block s).ms = s.ms ∧ (takeBlock block s).knob = s.knob ∧
      (takeBlock block s).clock = s.clock ∧ (takeBlock block s).audioStarted = s.audioStarted ∧
      (takeBlock block s).lock = s.lock ∧ (takeBlock block s).links = s.links ∧
      (takeBlock block s).free = s.free := by
  unfold takeBlock
  generalize bitsOf blockBits block.toNat = bits
  induction bits generalizing s with
  | nil => simp
  | cons b bits ih => simpa using ih (publish s (takeBit b s))

@[simp] theorem gapExpiry_fields (s : State) :
    (gapExpiry s).pending = s.pending ∧ (gapExpiry s).rstnLow = s.rstnLow ∧ (gapExpiry s).strap = s.strap ∧
      (gapExpiry s).mem = s.mem ∧ (gapExpiry s).readData = s.readData ∧ (gapExpiry s).agent = s.agent ∧
      (gapExpiry s).att = s.att ∧ (gapExpiry s).dirty = s.dirty ∧ (gapExpiry s).meterTimer = s.meterTimer ∧
      (gapExpiry s).answers = s.answers ∧ (gapExpiry s).sa = s.sa ∧ (gapExpiry s).ms = s.ms ∧
      (gapExpiry s).zones = s.zones ∧ (gapExpiry s).view = s.view ∧ (gapExpiry s).dec = s.dec ∧
      (gapExpiry s).bass = s.bass ∧ (gapExpiry s).gain = s.gain ∧ (gapExpiry s).knob = s.knob ∧
      (gapExpiry s).pool = s.pool ∧ (gapExpiry s).mods = s.mods ∧ (gapExpiry s).clock = s.clock ∧
      (gapExpiry s).audioStarted = s.audioStarted ∧ (gapExpiry s).lock = s.lock ∧
      (gapExpiry s).links = s.links ∧ (gapExpiry s).meas = s.meas ∧ (gapExpiry s).fe = s.fe ∧
      (gapExpiry s).tun = s.tun ∧ (gapExpiry s).free = s.free := by
  unfold gapExpiry
  try dsimp only
  (repeat' split) <;> simp

@[simp] theorem blockWrite_fields (off : Nat) (r : BlockReason) (s : State) :
    (blockWrite off r s).pending = s.pending ∧ (blockWrite off r s).rstnLow = s.rstnLow ∧
      (blockWrite off r s).strap = s.strap ∧ (blockWrite off r s).mem = s.mem ∧
      (blockWrite off r s).readData = s.readData ∧ (blockWrite off r s).agent = s.agent ∧
      (blockWrite off r s).meterTimer = s.meterTimer ∧ (blockWrite off r s).answers = s.answers ∧
      (blockWrite off r s).sa = s.sa ∧ (blockWrite off r s).ms = s.ms ∧
      (blockWrite off r s).zones = s.zones ∧ (blockWrite off r s).view = s.view ∧
      (blockWrite off r s).dec = s.dec ∧ (blockWrite off r s).bass = s.bass ∧
      (blockWrite off r s).gain = s.gain ∧ (blockWrite off r s).knob = s.knob ∧
      (blockWrite off r s).pool = s.pool ∧ (blockWrite off r s).mods = s.mods ∧
      (blockWrite off r s).clock = s.clock ∧ (blockWrite off r s).audioStarted = s.audioStarted ∧
      (blockWrite off r s).lock = s.lock ∧ (blockWrite off r s).links = s.links ∧
      (blockWrite off r s).meas = s.meas ∧ (blockWrite off r s).fe = s.fe ∧
      (blockWrite off r s).tun = s.tun ∧ (blockWrite off r s).sd = s.sd ∧ (blockWrite off r s).free = s.free := by
  unfold blockWrite
  try dsimp only
  (repeat' split) <;> simp

@[simp] theorem tickConverters_fields (s : State) :
    (tickConverters s).pending = s.pending ∧ (tickConverters s).rstnLow = s.rstnLow ∧
      (tickConverters s).strap = s.strap ∧ (tickConverters s).mem = s.mem ∧
      (tickConverters s).readData = s.readData ∧ (tickConverters s).agent = s.agent ∧
      (tickConverters s).att = s.att ∧ (tickConverters s).dirty = s.dirty ∧
      (tickConverters s).meterTimer = s.meterTimer ∧ (tickConverters s).answers = s.answers ∧
      (tickConverters s).zones = s.zones ∧ (tickConverters s).view = s.view ∧
      (tickConverters s).dec = s.dec ∧ (tickConverters s).bass = s.bass ∧ (tickConverters s).gain = s.gain ∧
      (tickConverters s).knob = s.knob ∧ (tickConverters s).pool = s.pool ∧
      (tickConverters s).mods = s.mods ∧ (tickConverters s).clock = s.clock ∧
      (tickConverters s).audioStarted = s.audioStarted ∧ (tickConverters s).lock = s.lock ∧
      (tickConverters s).links = s.links ∧ (tickConverters s).meas = s.meas ∧ (tickConverters s).fe = s.fe ∧
      (tickConverters s).tun = s.tun ∧ (tickConverters s).sd = s.sd := by
  unfold tickConverters
  try dsimp only
  (repeat' split) <;> simp

@[simp] theorem outputFrame_fields (xs : PerChan Sample) (s : State) :
    (outputFrame xs s).pending = s.pending ∧ (outputFrame xs s).rstnLow = s.rstnLow ∧
      (outputFrame xs s).strap = s.strap ∧ (outputFrame xs s).mem = s.mem ∧
      (outputFrame xs s).readData = s.readData ∧ (outputFrame xs s).agent = s.agent ∧
      (outputFrame xs s).att = s.att ∧ (outputFrame xs s).dirty = s.dirty ∧
      (outputFrame xs s).meterTimer = s.meterTimer ∧ (outputFrame xs s).answers = s.answers ∧
      (outputFrame xs s).sa = s.sa ∧ (outputFrame xs s).ms = s.ms ∧ (outputFrame xs s).zones = s.zones ∧
      (outputFrame xs s).view = s.view ∧ (outputFrame xs s).dec = s.dec ∧ (outputFrame xs s).bass = s.bass ∧
      (outputFrame xs s).knob = s.knob ∧ (outputFrame xs s).mods = s.mods ∧
      (outputFrame xs s).clock = s.clock ∧ (outputFrame xs s).audioStarted = s.audioStarted ∧
      (outputFrame xs s).lock = s.lock ∧ (outputFrame xs s).meas = s.meas ∧ (outputFrame xs s).fe = s.fe ∧
      (outputFrame xs s).tun = s.tun ∧ (outputFrame xs s).sd = s.sd ∧ (outputFrame xs s).free = s.free := by
  unfold outputFrame
  try dsimp only
  (repeat' split) <;> simp

@[simp] theorem audioFrameStep_fields (quiet : List SaLine) (taL taR : Sample) (s : State) :
    (audioFrameStep quiet taL taR s).pending = s.pending ∧ (audioFrameStep quiet taL taR s).rstnLow = s.rstnLow ∧
      (audioFrameStep quiet taL taR s).strap = s.strap ∧ (audioFrameStep quiet taL taR s).mem = s.mem ∧
      (audioFrameStep quiet taL taR s).readData = s.readData ∧ (audioFrameStep quiet taL taR s).agent = s.agent ∧
      (audioFrameStep quiet taL taR s).att = s.att ∧ (audioFrameStep quiet taL taR s).dirty = s.dirty ∧
      (audioFrameStep quiet taL taR s).meterTimer = s.meterTimer ∧ (audioFrameStep quiet taL taR s).answers = s.answers ∧
      (audioFrameStep quiet taL taR s).zones = s.zones ∧ (audioFrameStep quiet taL taR s).view = s.view ∧
      (audioFrameStep quiet taL taR s).knob = s.knob ∧ (audioFrameStep quiet taL taR s).mods = s.mods ∧
      (audioFrameStep quiet taL taR s).clock = s.clock ∧ (audioFrameStep quiet taL taR s).audioStarted = s.audioStarted ∧
      (audioFrameStep quiet taL taR s).lock = s.lock ∧ (audioFrameStep quiet taL taR s).meas = s.meas ∧
      (audioFrameStep quiet taL taR s).fe = s.fe ∧ (audioFrameStep quiet taL taR s).tun = s.tun ∧
      (audioFrameStep quiet taL taR s).sd = s.sd := by
  unfold audioFrameStep
  try dsimp only
  (repeat' split) <;> simp

@[simp] theorem steerWindow_fields (s : State) :
    (steerWindow s).pending = s.pending ∧ (steerWindow s).rstnLow = s.rstnLow ∧
      (steerWindow s).strap = s.strap ∧ (steerWindow s).mem = s.mem ∧ (steerWindow s).readData = s.readData ∧
      (steerWindow s).agent = s.agent ∧ (steerWindow s).att = s.att ∧ (steerWindow s).dirty = s.dirty ∧
      (steerWindow s).meterTimer = s.meterTimer ∧ (steerWindow s).answers = s.answers ∧
      (steerWindow s).sa = s.sa ∧ (steerWindow s).ms = s.ms ∧ (steerWindow s).zones = s.zones ∧
      (steerWindow s).view = s.view ∧ (steerWindow s).bass = s.bass ∧ (steerWindow s).gain = s.gain ∧
      (steerWindow s).knob = s.knob ∧ (steerWindow s).pool = s.pool ∧ (steerWindow s).mods = s.mods ∧
      (steerWindow s).clock = s.clock ∧ (steerWindow s).audioStarted = s.audioStarted ∧
      (steerWindow s).lock = s.lock ∧ (steerWindow s).links = s.links ∧ (steerWindow s).meas = s.meas ∧
      (steerWindow s).fe = s.fe ∧ (steerWindow s).tun = s.tun ∧ (steerWindow s).sd = s.sd ∧
      (steerWindow s).free = s.free := by
  unfold steerWindow
  try dsimp only
  (repeat' split) <;> simp

@[simp] theorem slewExpiry_fields (s : State) :
    (slewExpiry s).pending = s.pending ∧ (slewExpiry s).rstnLow = s.rstnLow ∧
      (slewExpiry s).strap = s.strap ∧ (slewExpiry s).mem = s.mem ∧ (slewExpiry s).readData = s.readData ∧
      (slewExpiry s).agent = s.agent ∧ (slewExpiry s).att = s.att ∧ (slewExpiry s).dirty = s.dirty ∧
      (slewExpiry s).meterTimer = s.meterTimer ∧ (slewExpiry s).answers = s.answers ∧
      (slewExpiry s).sa = s.sa ∧ (slewExpiry s).ms = s.ms ∧ (slewExpiry s).zones = s.zones ∧
      (slewExpiry s).view = s.view ∧ (slewExpiry s).dec = s.dec ∧ (slewExpiry s).bass = s.bass ∧
      (slewExpiry s).knob = s.knob ∧ (slewExpiry s).pool = s.pool ∧ (slewExpiry s).clock = s.clock ∧
      (slewExpiry s).audioStarted = s.audioStarted ∧ (slewExpiry s).lock = s.lock ∧
      (slewExpiry s).links = s.links ∧ (slewExpiry s).meas = s.meas ∧ (slewExpiry s).fe = s.fe ∧
      (slewExpiry s).tun = s.tun ∧ (slewExpiry s).sd = s.sd ∧ (slewExpiry s).free = s.free := by
  unfold slewExpiry
  try dsimp only
  (repeat' split) <;> simp

@[simp] theorem meterExpiry_fields (s : State) :
    (meterExpiry s).pending = s.pending ∧ (meterExpiry s).rstnLow = s.rstnLow ∧
      (meterExpiry s).strap = s.strap ∧ (meterExpiry s).mem = s.mem ∧ (meterExpiry s).readData = s.readData ∧
      (meterExpiry s).agent = s.agent ∧ (meterExpiry s).att = s.att ∧
      (meterExpiry s).meterTimer = s.meterTimer ∧ (meterExpiry s).answers = s.answers ∧
      (meterExpiry s).sa = s.sa ∧ (meterExpiry s).ms = s.ms ∧ (meterExpiry s).zones = s.zones ∧
      (meterExpiry s).view = s.view ∧ (meterExpiry s).dec = s.dec ∧ (meterExpiry s).bass = s.bass ∧
      (meterExpiry s).knob = s.knob ∧ (meterExpiry s).pool = s.pool ∧ (meterExpiry s).mods = s.mods ∧
      (meterExpiry s).clock = s.clock ∧ (meterExpiry s).audioStarted = s.audioStarted ∧
      (meterExpiry s).lock = s.lock ∧ (meterExpiry s).links = s.links ∧ (meterExpiry s).meas = s.meas ∧
      (meterExpiry s).fe = s.fe ∧ (meterExpiry s).tun = s.tun ∧ (meterExpiry s).sd = s.sd ∧
      (meterExpiry s).free = s.free := by
  unfold meterExpiry
  try dsimp only
  (repeat' split) <;> simp

@[simp] theorem knobExpiry_fields (ps : KnobPins) (s : State) :
    (knobExpiry ps s).pending = s.pending ∧ (knobExpiry ps s).rstnLow = s.rstnLow ∧
      (knobExpiry ps s).strap = s.strap ∧ (knobExpiry ps s).mem = s.mem ∧
      (knobExpiry ps s).readData = s.readData ∧ (knobExpiry ps s).att = s.att ∧
      (knobExpiry ps s).dirty = s.dirty ∧ (knobExpiry ps s).meterTimer = s.meterTimer ∧
      (knobExpiry ps s).answers = s.answers ∧ (knobExpiry ps s).sa = s.sa ∧ (knobExpiry ps s).ms = s.ms ∧
      (knobExpiry ps s).zones = s.zones ∧ (knobExpiry ps s).view = s.view ∧ (knobExpiry ps s).dec = s.dec ∧
      (knobExpiry ps s).bass = s.bass ∧ (knobExpiry ps s).pool = s.pool ∧ (knobExpiry ps s).mods = s.mods ∧
      (knobExpiry ps s).clock = s.clock ∧ (knobExpiry ps s).audioStarted = s.audioStarted ∧
      (knobExpiry ps s).lock = s.lock ∧ (knobExpiry ps s).links = s.links ∧ (knobExpiry ps s).meas = s.meas ∧
      (knobExpiry ps s).fe = s.fe ∧ (knobExpiry ps s).tun = s.tun ∧ (knobExpiry ps s).sd = s.sd ∧
      (knobExpiry ps s).free = s.free := by
  unfold knobExpiry
  try dsimp only
  (repeat' split) <;> simp

@[simp] theorem knobChange_fields (p : KnobPin) (level : Bool) (s : State) :
    (knobChange p level s).pending = s.pending ∧ (knobChange p level s).rstnLow = s.rstnLow ∧
      (knobChange p level s).strap = s.strap ∧ (knobChange p level s).mem = s.mem ∧
      (knobChange p level s).readData = s.readData ∧ (knobChange p level s).agent = s.agent ∧
      (knobChange p level s).att = s.att ∧ (knobChange p level s).dirty = s.dirty ∧
      (knobChange p level s).meterTimer = s.meterTimer ∧ (knobChange p level s).answers = s.answers ∧
      (knobChange p level s).sa = s.sa ∧ (knobChange p level s).ms = s.ms ∧
      (knobChange p level s).zones = s.zones ∧ (knobChange p level s).view = s.view ∧
      (knobChange p level s).dec = s.dec ∧ (knobChange p level s).bass = s.bass ∧
      (knobChange p level s).gain = s.gain ∧ (knobChange p level s).pool = s.pool ∧
      (knobChange p level s).mods = s.mods ∧ (knobChange p level s).clock = s.clock ∧
      (knobChange p level s).audioStarted = s.audioStarted ∧ (knobChange p level s).lock = s.lock ∧
      (knobChange p level s).links = s.links ∧ (knobChange p level s).meas = s.meas ∧
      (knobChange p level s).fe = s.fe ∧ (knobChange p level s).tun = s.tun ∧
      (knobChange p level s).sd = s.sd ∧ (knobChange p level s).free = s.free := by
  unfold knobChange
  try dsimp only
  (repeat' split) <;> simp

@[simp] theorem restartAudioBlocks_fields (s : State) :
    (restartAudioBlocks s).pending = s.pending ∧ (restartAudioBlocks s).rstnLow = s.rstnLow ∧
      (restartAudioBlocks s).strap = s.strap ∧ (restartAudioBlocks s).mem = s.mem ∧
      (restartAudioBlocks s).readData = s.readData ∧ (restartAudioBlocks s).agent = s.agent ∧
      (restartAudioBlocks s).att = s.att ∧ (restartAudioBlocks s).dirty = s.dirty ∧
      (restartAudioBlocks s).answers = s.answers ∧ (restartAudioBlocks s).knob = s.knob ∧
      (restartAudioBlocks s).mods = s.mods ∧ (restartAudioBlocks s).clock = s.clock ∧
      (restartAudioBlocks s).audioStarted = s.audioStarted ∧ (restartAudioBlocks s).lock = s.lock ∧
      (restartAudioBlocks s).links = s.links ∧ (restartAudioBlocks s).meas = s.meas ∧
      (restartAudioBlocks s).fe = s.fe ∧ (restartAudioBlocks s).tun = s.tun ∧
      (restartAudioBlocks s).sd = s.sd ∧ (restartAudioBlocks s).free = s.free := by
  unfold restartAudioBlocks
  try dsimp only
  (repeat' split) <;> simp

@[simp] theorem restartAudioCommand_fields (s : State) :
    (restartAudioCommand s).pending = s.pending ∧ (restartAudioCommand s).rstnLow = s.rstnLow ∧
      (restartAudioCommand s).strap = s.strap ∧ (restartAudioCommand s).mem = s.mem ∧
      (restartAudioCommand s).readData = s.readData ∧ (restartAudioCommand s).att = s.att ∧
      (restartAudioCommand s).knob = s.knob ∧
      (restartAudioCommand s).clock = s.clock ∧ (restartAudioCommand s).audioStarted = s.audioStarted ∧
      (restartAudioCommand s).lock = s.lock ∧ (restartAudioCommand s).links = s.links ∧
      (restartAudioCommand s).meas = s.meas ∧ (restartAudioCommand s).fe = s.fe ∧
      (restartAudioCommand s).tun = s.tun ∧ (restartAudioCommand s).sd = s.sd ∧
      (restartAudioCommand s).free = s.free := by
  unfold restartAudioCommand
  try dsimp only
  (repeat' split) <;> simp

@[simp] theorem systemCommand_fields (v : Word) (s : State) :
    (systemCommand v s).pending = s.pending ∧ (systemCommand v s).rstnLow = s.rstnLow ∧
      (systemCommand v s).strap = s.strap ∧ (systemCommand v s).mem = s.mem ∧
      (systemCommand v s).readData = s.readData ∧ (systemCommand v s).att = s.att ∧
      (systemCommand v s).knob = s.knob ∧
      (systemCommand v s).clock = s.clock ∧ (systemCommand v s).audioStarted = s.audioStarted ∧
      (systemCommand v s).lock = s.lock ∧ (systemCommand v s).links = s.links ∧
      (systemCommand v s).fe = s.fe ∧ (systemCommand v s).tun = s.tun ∧ (systemCommand v s).sd = s.sd ∧
      (systemCommand v s).free = s.free := by
  unfold systemCommand
  try dsimp only
  (repeat' split) <;> simp

@[simp] theorem clearTripCommand_fields (m : AmpModule) (s : State) :
    (clearTripCommand m s).pending = s.pending ∧ (clearTripCommand m s).rstnLow = s.rstnLow ∧
      (clearTripCommand m s).strap = s.strap ∧ (clearTripCommand m s).mem = s.mem ∧
      (clearTripCommand m s).readData = s.readData ∧ (clearTripCommand m s).att = s.att ∧
      (clearTripCommand m s).dirty = s.dirty ∧ (clearTripCommand m s).meterTimer = s.meterTimer ∧
      (clearTripCommand m s).sa = s.sa ∧ (clearTripCommand m s).ms = s.ms ∧
      (clearTripCommand m s).zones = s.zones ∧ (clearTripCommand m s).view = s.view ∧
      (clearTripCommand m s).dec = s.dec ∧ (clearTripCommand m s).bass = s.bass ∧
      (clearTripCommand m s).gain = s.gain ∧ (clearTripCommand m s).knob = s.knob ∧
      (clearTripCommand m s).pool = s.pool ∧ (clearTripCommand m s).clock = s.clock ∧
      (clearTripCommand m s).audioStarted = s.audioStarted ∧ (clearTripCommand m s).lock = s.lock ∧
      (clearTripCommand m s).links = s.links ∧ (clearTripCommand m s).meas = s.meas ∧
      (clearTripCommand m s).fe = s.fe ∧ (clearTripCommand m s).tun = s.tun ∧
      (clearTripCommand m s).sd = s.sd ∧ (clearTripCommand m s).free = s.free := by
  unfold clearTripCommand
  try dsimp only
  (repeat' split) <;> simp

@[simp] theorem moduleCommand_fields (v : Word) (s : State) :
    (moduleCommand v s).pending = s.pending ∧ (moduleCommand v s).rstnLow = s.rstnLow ∧
      (moduleCommand v s).strap = s.strap ∧ (moduleCommand v s).mem = s.mem ∧
      (moduleCommand v s).readData = s.readData ∧ (moduleCommand v s).att = s.att ∧
      (moduleCommand v s).dirty = s.dirty ∧ (moduleCommand v s).meterTimer = s.meterTimer ∧
      (moduleCommand v s).sa = s.sa ∧ (moduleCommand v s).ms = s.ms ∧ (moduleCommand v s).zones = s.zones ∧
      (moduleCommand v s).view = s.view ∧ (moduleCommand v s).dec = s.dec ∧
      (moduleCommand v s).bass = s.bass ∧ (moduleCommand v s).gain = s.gain ∧
      (moduleCommand v s).knob = s.knob ∧ (moduleCommand v s).pool = s.pool ∧
      (moduleCommand v s).clock = s.clock ∧ (moduleCommand v s).audioStarted = s.audioStarted ∧
      (moduleCommand v s).lock = s.lock ∧ (moduleCommand v s).links = s.links ∧
      (moduleCommand v s).meas = s.meas ∧ (moduleCommand v s).fe = s.fe ∧ (moduleCommand v s).tun = s.tun ∧
      (moduleCommand v s).sd = s.sd ∧ (moduleCommand v s).free = s.free := by
  unfold moduleCommand
  try dsimp only
  (repeat' split) <;> simp

@[simp] theorem attnAckArrival_fields (v : Word) (s : State) :
    (attnAckArrival v s).pending = s.pending ∧ (attnAckArrival v s).rstnLow = s.rstnLow ∧
      (attnAckArrival v s).strap = s.strap ∧ (attnAckArrival v s).mem = s.mem ∧
      (attnAckArrival v s).readData = s.readData ∧ (attnAckArrival v s).dirty = s.dirty ∧
      (attnAckArrival v s).meterTimer = s.meterTimer ∧ (attnAckArrival v s).answers = s.answers ∧
      (attnAckArrival v s).sa = s.sa ∧ (attnAckArrival v s).ms = s.ms ∧
      (attnAckArrival v s).zones = s.zones ∧ (attnAckArrival v s).view = s.view ∧
      (attnAckArrival v s).dec = s.dec ∧ (attnAckArrival v s).bass = s.bass ∧
      (attnAckArrival v s).gain = s.gain ∧ (attnAckArrival v s).knob = s.knob ∧
      (attnAckArrival v s).pool = s.pool ∧ (attnAckArrival v s).mods = s.mods ∧
      (attnAckArrival v s).clock = s.clock ∧ (attnAckArrival v s).audioStarted = s.audioStarted ∧
      (attnAckArrival v s).lock = s.lock ∧ (attnAckArrival v s).links = s.links ∧
      (attnAckArrival v s).meas = s.meas ∧ (attnAckArrival v s).fe = s.fe ∧
      (attnAckArrival v s).tun = s.tun ∧ (attnAckArrival v s).sd = s.sd ∧ (attnAckArrival v s).free = s.free := by
  unfold attnAckArrival
  try dsimp only
  (repeat' split) <;> simp

@[simp] theorem arrive_fields (sl : Slot) (v : Word) (s : State) :
    (arrive sl v s).pending = s.pending ∧ (arrive sl v s).rstnLow = s.rstnLow ∧
      (arrive sl v s).strap = s.strap ∧ (arrive sl v s).mem = s.mem ∧ (arrive sl v s).readData = s.readData ∧
      (arrive sl v s).clock = s.clock ∧ (arrive sl v s).audioStarted = s.audioStarted ∧
      (arrive sl v s).links = s.links ∧ (arrive sl v s).free = s.free := by
  unfold arrive
  try dsimp only
  (repeat' split) <;> simp

@[simp] theorem rawCarry_fields (a : HostAccess) (s : State) :
    (rawCarry a s).pending = s.pending ∧ (rawCarry a s).rstnLow = s.rstnLow ∧
      (rawCarry a s).strap = s.strap ∧ (rawCarry a s).agent = s.agent ∧ (rawCarry a s).att = s.att ∧
      (rawCarry a s).dirty = s.dirty ∧ (rawCarry a s).meterTimer = s.meterTimer ∧
      (rawCarry a s).answers = s.answers ∧ (rawCarry a s).sa = s.sa ∧ (rawCarry a s).ms = s.ms ∧
      (rawCarry a s).zones = s.zones ∧ (rawCarry a s).view = s.view ∧ (rawCarry a s).dec = s.dec ∧
      (rawCarry a s).bass = s.bass ∧ (rawCarry a s).gain = s.gain ∧ (rawCarry a s).knob = s.knob ∧
      (rawCarry a s).pool = s.pool ∧ (rawCarry a s).mods = s.mods ∧ (rawCarry a s).clock = s.clock ∧
      (rawCarry a s).audioStarted = s.audioStarted ∧ (rawCarry a s).lock = s.lock ∧
      (rawCarry a s).links = s.links ∧ (rawCarry a s).meas = s.meas ∧ (rawCarry a s).fe = s.fe ∧
      (rawCarry a s).tun = s.tun ∧ (rawCarry a s).sd = s.sd := by
  unfold rawCarry
  try dsimp only
  (repeat' split) <;> simp

@[simp] theorem reportWrite_fields (off : Nat) (s : State) :
    (reportWrite off s).pending = s.pending ∧ (reportWrite off s).rstnLow = s.rstnLow ∧
      (reportWrite off s).strap = s.strap ∧ (reportWrite off s).mem = s.mem ∧
      (reportWrite off s).readData = s.readData ∧ (reportWrite off s).att = s.att ∧
      (reportWrite off s).dirty = s.dirty ∧ (reportWrite off s).meterTimer = s.meterTimer ∧
      (reportWrite off s).answers = s.answers ∧ (reportWrite off s).sa = s.sa ∧
      (reportWrite off s).ms = s.ms ∧ (reportWrite off s).zones = s.zones ∧
      (reportWrite off s).view = s.view ∧ (reportWrite off s).dec = s.dec ∧
      (reportWrite off s).bass = s.bass ∧ (reportWrite off s).gain = s.gain ∧
      (reportWrite off s).knob = s.knob ∧ (reportWrite off s).pool = s.pool ∧
      (reportWrite off s).mods = s.mods ∧ (reportWrite off s).clock = s.clock ∧
      (reportWrite off s).audioStarted = s.audioStarted ∧ (reportWrite off s).links = s.links ∧
      (reportWrite off s).meas = s.meas ∧ (reportWrite off s).fe = s.fe ∧ (reportWrite off s).tun = s.tun ∧
      (reportWrite off s).sd = s.sd ∧ (reportWrite off s).free = s.free := by
  unfold reportWrite
  try dsimp only
  (repeat' split) <;> simp

@[simp] theorem applyVerdict_fields (a : HostAccess) (off : Nat) (v : Verdict) (s : State) :
    (applyVerdict a off v s).pending = s.pending ∧ (applyVerdict a off v s).rstnLow = s.rstnLow ∧
      (applyVerdict a off v s).strap = s.strap ∧ (applyVerdict a off v s).clock = s.clock ∧
      (applyVerdict a off v s).audioStarted = s.audioStarted ∧ (applyVerdict a off v s).links = s.links := by
  unfold applyVerdict
  try dsimp only
  (repeat' split) <;> simp

@[simp] theorem hostCarry_fields (a : HostAccess) (s : State) :
    (hostCarry a s).pending = s.pending ∧ (hostCarry a s).rstnLow = s.rstnLow ∧
      (hostCarry a s).strap = s.strap ∧ (hostCarry a s).clock = s.clock ∧
      (hostCarry a s).audioStarted = s.audioStarted ∧ (hostCarry a s).links = s.links := by
  unfold hostCarry
  try dsimp only
  (repeat' split) <;> simp

@[simp] theorem writeBurst_fields (owner : BurstOwner) (addr : Nat) (words : List Word) (s : State) :
    (writeBurst owner addr words s).pending = s.pending ∧
      (writeBurst owner addr words s).rstnLow = s.rstnLow ∧ (writeBurst owner addr words s).strap = s.strap ∧
      (writeBurst owner addr words s).readData = s.readData ∧ (writeBurst owner addr words s).att = s.att ∧
      (writeBurst owner addr words s).dirty = s.dirty ∧
      (writeBurst owner addr words s).meterTimer = s.meterTimer ∧
      (writeBurst owner addr words s).answers = s.answers ∧ (writeBurst owner addr words s).sa = s.sa ∧
      (writeBurst owner addr words s).ms = s.ms ∧ (writeBurst owner addr words s).zones = s.zones ∧
      (writeBurst owner addr words s).view = s.view ∧ (writeBurst owner addr words s).dec = s.dec ∧
      (writeBurst owner addr words s).bass = s.bass ∧ (writeBurst owner addr words s).gain = s.gain ∧
      (writeBurst owner addr words s).knob = s.knob ∧ (writeBurst owner addr words s).pool = s.pool ∧
      (writeBurst owner addr words s).mods = s.mods ∧ (writeBurst owner addr words s).clock = s.clock ∧
      (writeBurst owner addr words s).audioStarted = s.audioStarted ∧
      (writeBurst owner addr words s).lock = s.lock ∧ (writeBurst owner addr words s).links = s.links ∧
      (writeBurst owner addr words s).meas = s.meas ∧ (writeBurst owner addr words s).fe = s.fe ∧
      (writeBurst owner addr words s).tun = s.tun ∧ (writeBurst owner addr words s).sd = s.sd ∧
      (writeBurst owner addr words s).free = s.free := by
  unfold writeBurst
  try dsimp only
  (repeat' split) <;> simp

@[simp] theorem readBurst_fields (owner : BurstOwner) (addr n : Nat) (s : State) :
    (readBurst owner addr n s).pending = s.pending ∧ (readBurst owner addr n s).rstnLow = s.rstnLow ∧
      (readBurst owner addr n s).strap = s.strap ∧ (readBurst owner addr n s).mem = s.mem ∧
      (readBurst owner addr n s).readData = s.readData ∧ (readBurst owner addr n s).att = s.att ∧
      (readBurst owner addr n s).dirty = s.dirty ∧ (readBurst owner addr n s).meterTimer = s.meterTimer ∧
      (readBurst owner addr n s).answers = s.answers ∧ (readBurst owner addr n s).sa = s.sa ∧
      (readBurst owner addr n s).ms = s.ms ∧ (readBurst owner addr n s).zones = s.zones ∧
      (readBurst owner addr n s).view = s.view ∧ (readBurst owner addr n s).dec = s.dec ∧
      (readBurst owner addr n s).bass = s.bass ∧ (readBurst owner addr n s).gain = s.gain ∧
      (readBurst owner addr n s).knob = s.knob ∧ (readBurst owner addr n s).pool = s.pool ∧
      (readBurst owner addr n s).mods = s.mods ∧ (readBurst owner addr n s).clock = s.clock ∧
      (readBurst owner addr n s).audioStarted = s.audioStarted ∧ (readBurst owner addr n s).lock = s.lock ∧
      (readBurst owner addr n s).links = s.links ∧ (readBurst owner addr n s).meas = s.meas ∧
      (readBurst owner addr n s).fe = s.fe ∧ (readBurst owner addr n s).tun = s.tun ∧
      (readBurst owner addr n s).sd = s.sd ∧ (readBurst owner addr n s).free = s.free := by
  unfold readBurst
  try dsimp only
  (repeat' split) <;> simp

@[simp] theorem recordBurst_fields (owner : BurstOwner) (r : Rec) (s : State) :
    (recordBurst owner r s).pending = s.pending ∧ (recordBurst owner r s).rstnLow = s.rstnLow ∧
      (recordBurst owner r s).strap = s.strap ∧ (recordBurst owner r s).readData = s.readData ∧
      (recordBurst owner r s).att = s.att ∧ (recordBurst owner r s).meterTimer = s.meterTimer ∧
      (recordBurst owner r s).answers = s.answers ∧ (recordBurst owner r s).sa = s.sa ∧
      (recordBurst owner r s).ms = s.ms ∧ (recordBurst owner r s).zones = s.zones ∧
      (recordBurst owner r s).view = s.view ∧ (recordBurst owner r s).dec = s.dec ∧
      (recordBurst owner r s).bass = s.bass ∧ (recordBurst owner r s).gain = s.gain ∧
      (recordBurst owner r s).knob = s.knob ∧ (recordBurst owner r s).pool = s.pool ∧
      (recordBurst owner r s).mods = s.mods ∧ (recordBurst owner r s).clock = s.clock ∧
      (recordBurst owner r s).audioStarted = s.audioStarted ∧ (recordBurst owner r s).lock = s.lock ∧
      (recordBurst owner r s).links = s.links ∧ (recordBurst owner r s).meas = s.meas ∧
      (recordBurst owner r s).fe = s.fe ∧ (recordBurst owner r s).tun = s.tun ∧
      (recordBurst owner r s).sd = s.sd ∧ (recordBurst owner r s).free = s.free := by
  unfold recordBurst
  try dsimp only
  (repeat' split) <;> simp

@[simp] theorem restoreBurst_fields (p : RestorePass) (s : State) :
    (restoreBurst p s).pending = s.pending ∧ (restoreBurst p s).rstnLow = s.rstnLow ∧
      (restoreBurst p s).strap = s.strap ∧ (restoreBurst p s).readData = s.readData ∧
      (restoreBurst p s).att = s.att ∧ (restoreBurst p s).meterTimer = s.meterTimer ∧
      (restoreBurst p s).answers = s.answers ∧ (restoreBurst p s).sa = s.sa ∧ (restoreBurst p s).ms = s.ms ∧
      (restoreBurst p s).zones = s.zones ∧ (restoreBurst p s).view = s.view ∧
      (restoreBurst p s).dec = s.dec ∧ (restoreBurst p s).bass = s.bass ∧ (restoreBurst p s).gain = s.gain ∧
      (restoreBurst p s).knob = s.knob ∧ (restoreBurst p s).pool = s.pool ∧
      (restoreBurst p s).mods = s.mods ∧ (restoreBurst p s).clock = s.clock ∧
      (restoreBurst p s).audioStarted = s.audioStarted ∧ (restoreBurst p s).lock = s.lock ∧
      (restoreBurst p s).links = s.links ∧ (restoreBurst p s).meas = s.meas ∧ (restoreBurst p s).fe = s.fe ∧
      (restoreBurst p s).tun = s.tun ∧ (restoreBurst p s).sd = s.sd ∧ (restoreBurst p s).free = s.free := by
  unfold restoreBurst
  try dsimp only
  (repeat' split) <;> simp

@[simp] theorem writeBackBurst_fields (s : State) :
    (writeBackBurst s).pending = s.pending ∧ (writeBackBurst s).rstnLow = s.rstnLow ∧
      (writeBackBurst s).strap = s.strap ∧ (writeBackBurst s).readData = s.readData ∧
      (writeBackBurst s).att = s.att ∧ (writeBackBurst s).dirty = s.dirty ∧
      (writeBackBurst s).meterTimer = s.meterTimer ∧ (writeBackBurst s).answers = s.answers ∧
      (writeBackBurst s).sa = s.sa ∧ (writeBackBurst s).ms = s.ms ∧ (writeBackBurst s).zones = s.zones ∧
      (writeBackBurst s).view = s.view ∧ (writeBackBurst s).dec = s.dec ∧ (writeBackBurst s).bass = s.bass ∧
      (writeBackBurst s).gain = s.gain ∧ (writeBackBurst s).knob = s.knob ∧
      (writeBackBurst s).pool = s.pool ∧ (writeBackBurst s).mods = s.mods ∧
      (writeBackBurst s).clock = s.clock ∧ (writeBackBurst s).audioStarted = s.audioStarted ∧
      (writeBackBurst s).lock = s.lock ∧ (writeBackBurst s).links = s.links ∧
      (writeBackBurst s).meas = s.meas ∧ (writeBackBurst s).fe = s.fe ∧ (writeBackBurst s).tun = s.tun ∧
      (writeBackBurst s).sd = s.sd ∧ (writeBackBurst s).free = s.free := by
  unfold writeBackBurst
  try dsimp only
  (repeat' split) <;> simp

@[simp] theorem storeBurst_fields (n k : Nat) (snap : List Word) (s : State) :
    (storeBurst n k snap s).pending = s.pending ∧ (storeBurst n k snap s).rstnLow = s.rstnLow ∧
      (storeBurst n k snap s).strap = s.strap ∧ (storeBurst n k snap s).readData = s.readData ∧
      (storeBurst n k snap s).meterTimer = s.meterTimer ∧ (storeBurst n k snap s).answers = s.answers ∧
      (storeBurst n k snap s).sa = s.sa ∧ (storeBurst n k snap s).ms = s.ms ∧
      (storeBurst n k snap s).zones = s.zones ∧ (storeBurst n k snap s).view = s.view ∧
      (storeBurst n k snap s).dec = s.dec ∧ (storeBurst n k snap s).bass = s.bass ∧
      (storeBurst n k snap s).gain = s.gain ∧ (storeBurst n k snap s).knob = s.knob ∧
      (storeBurst n k snap s).pool = s.pool ∧ (storeBurst n k snap s).mods = s.mods ∧
      (storeBurst n k snap s).clock = s.clock ∧ (storeBurst n k snap s).audioStarted = s.audioStarted ∧
      (storeBurst n k snap s).lock = s.lock ∧ (storeBurst n k snap s).links = s.links ∧
      (storeBurst n k snap s).meas = s.meas ∧ (storeBurst n k snap s).fe = s.fe ∧
      (storeBurst n k snap s).sd = s.sd ∧ (storeBurst n k snap s).free = s.free := by
  unfold storeBurst
  try dsimp only
  (repeat' split) <;> simp

@[simp] theorem presetBurst_fields (s : State) :
    (presetBurst s).pending = s.pending ∧ (presetBurst s).rstnLow = s.rstnLow ∧
      (presetBurst s).strap = s.strap ∧ (presetBurst s).readData = s.readData ∧
      (presetBurst s).meterTimer = s.meterTimer ∧ (presetBurst s).answers = s.answers ∧
      (presetBurst s).sa = s.sa ∧ (presetBurst s).ms = s.ms ∧ (presetBurst s).zones = s.zones ∧
      (presetBurst s).view = s.view ∧ (presetBurst s).dec = s.dec ∧ (presetBurst s).bass = s.bass ∧
      (presetBurst s).gain = s.gain ∧ (presetBurst s).knob = s.knob ∧ (presetBurst s).pool = s.pool ∧
      (presetBurst s).mods = s.mods ∧ (presetBurst s).clock = s.clock ∧
      (presetBurst s).audioStarted = s.audioStarted ∧ (presetBurst s).lock = s.lock ∧
      (presetBurst s).links = s.links ∧ (presetBurst s).meas = s.meas ∧ (presetBurst s).fe = s.fe ∧
      (presetBurst s).sd = s.sd ∧ (presetBurst s).free = s.free := by
  unfold presetBurst
  try dsimp only
  (repeat' split) <;> simp

@[simp] theorem fetchBurst_fields (m : StreamId) (s : State) :
    (fetchBurst m s).pending = s.pending ∧ (fetchBurst m s).rstnLow = s.rstnLow ∧
      (fetchBurst m s).strap = s.strap ∧ (fetchBurst m s).mem = s.mem ∧
      (fetchBurst m s).readData = s.readData ∧ (fetchBurst m s).att = s.att ∧
      (fetchBurst m s).dirty = s.dirty ∧ (fetchBurst m s).meterTimer = s.meterTimer ∧
      (fetchBurst m s).answers = s.answers ∧ (fetchBurst m s).sa = s.sa ∧ (fetchBurst m s).ms = s.ms ∧
      (fetchBurst m s).zones = s.zones ∧ (fetchBurst m s).view = s.view ∧ (fetchBurst m s).dec = s.dec ∧
      (fetchBurst m s).bass = s.bass ∧ (fetchBurst m s).gain = s.gain ∧ (fetchBurst m s).knob = s.knob ∧
      (fetchBurst m s).pool = s.pool ∧ (fetchBurst m s).mods = s.mods ∧ (fetchBurst m s).clock = s.clock ∧
      (fetchBurst m s).audioStarted = s.audioStarted ∧ (fetchBurst m s).lock = s.lock ∧
      (fetchBurst m s).links = s.links ∧ (fetchBurst m s).meas = s.meas ∧ (fetchBurst m s).fe = s.fe ∧
      (fetchBurst m s).tun = s.tun ∧ (fetchBurst m s).sd = s.sd ∧ (fetchBurst m s).free = s.free := by
  unfold fetchBurst
  try dsimp only
  (repeat' split) <;> simp

@[simp] theorem issue_fields (q : Request) (s : State) :
    (issue q s).pending = s.pending ∧ (issue q s).rstnLow = s.rstnLow ∧ (issue q s).strap = s.strap ∧
      (issue q s).readData = s.readData ∧ (issue q s).meterTimer = s.meterTimer ∧
      (issue q s).answers = s.answers ∧ (issue q s).sa = s.sa ∧ (issue q s).ms = s.ms ∧
      (issue q s).zones = s.zones ∧ (issue q s).view = s.view ∧ (issue q s).dec = s.dec ∧
      (issue q s).bass = s.bass ∧ (issue q s).gain = s.gain ∧ (issue q s).knob = s.knob ∧
      (issue q s).pool = s.pool ∧ (issue q s).mods = s.mods ∧ (issue q s).clock = s.clock ∧
      (issue q s).audioStarted = s.audioStarted ∧ (issue q s).lock = s.lock ∧ (issue q s).links = s.links ∧
      (issue q s).meas = s.meas ∧ (issue q s).fe = s.fe ∧ (issue q s).sd = s.sd ∧ (issue q s).free = s.free := by
  unfold issue
  try dsimp only
  (repeat' split) <;> simp

@[simp] theorem takePort_fields (a : HostAccess) (whole : Bool) (s : State) :
    (takePort a whole s).pending = s.pending ∧ (takePort a whole s).rstnLow = s.rstnLow ∧
      (takePort a whole s).strap = s.strap ∧ (takePort a whole s).clock = s.clock ∧
      (takePort a whole s).audioStarted = s.audioStarted ∧ (takePort a whole s).links = s.links := by
  unfold takePort
  try dsimp only
  (repeat' split) <;> simp

@[simp] theorem carryHeld_fields (s : State) :
    (carryHeld s).pending = s.pending ∧ (carryHeld s).rstnLow = s.rstnLow ∧ (carryHeld s).strap = s.strap ∧
      (carryHeld s).clock = s.clock ∧ (carryHeld s).audioStarted = s.audioStarted ∧
      (carryHeld s).links = s.links := by
  unfold carryHeld
  try dsimp only
  (repeat' split) <;> simp

@[simp] theorem holdAccess_fields (a : HostAccess) (whole : Bool) (s : State) :
    (holdAccess a whole s).pending = s.pending ∧ (holdAccess a whole s).rstnLow = s.rstnLow ∧
      (holdAccess a whole s).strap = s.strap ∧ (holdAccess a whole s).mem = s.mem ∧
      (holdAccess a whole s).readData = s.readData ∧ (holdAccess a whole s).att = s.att ∧
      (holdAccess a whole s).dirty = s.dirty ∧ (holdAccess a whole s).meterTimer = s.meterTimer ∧
      (holdAccess a whole s).answers = s.answers ∧ (holdAccess a whole s).sa = s.sa ∧
      (holdAccess a whole s).ms = s.ms ∧ (holdAccess a whole s).zones = s.zones ∧
      (holdAccess a whole s).view = s.view ∧ (holdAccess a whole s).dec = s.dec ∧
      (holdAccess a whole s).bass = s.bass ∧ (holdAccess a whole s).gain = s.gain ∧
      (holdAccess a whole s).knob = s.knob ∧ (holdAccess a whole s).pool = s.pool ∧
      (holdAccess a whole s).mods = s.mods ∧ (holdAccess a whole s).clock = s.clock ∧
      (holdAccess a whole s).audioStarted = s.audioStarted ∧ (holdAccess a whole s).lock = s.lock ∧
      (holdAccess a whole s).links = s.links ∧ (holdAccess a whole s).meas = s.meas ∧
      (holdAccess a whole s).fe = s.fe ∧ (holdAccess a whole s).tun = s.tun ∧
      (holdAccess a whole s).sd = s.sd ∧ (holdAccess a whole s).free = s.free := by
  unfold holdAccess
  try dsimp only
  (repeat' split) <;> simp

@[simp] theorem offerAccess_fields (a : HostAccess) (whole : Bool) (s : State) :
    (offerAccess a whole s).pending = s.pending ∧ (offerAccess a whole s).rstnLow = s.rstnLow ∧
      (offerAccess a whole s).strap = s.strap ∧ (offerAccess a whole s).clock = s.clock ∧
      (offerAccess a whole s).audioStarted = s.audioStarted ∧ (offerAccess a whole s).links = s.links := by
  unfold offerAccess
  try dsimp only
  (repeat' split) <;> simp

@[simp] theorem beginAccess_fields (a : HostAccess) (s : State) :
    (beginAccess a s).pending = s.pending ∧ (beginAccess a s).rstnLow = s.rstnLow ∧
      (beginAccess a s).strap = s.strap ∧ (beginAccess a s).clock = s.clock ∧
      (beginAccess a s).audioStarted = s.audioStarted ∧ (beginAccess a s).links = s.links :=
  offerAccess_fields a false s

@[simp] theorem endAccess_fields (s : State) :
    (endAccess s).pending = s.pending ∧ (endAccess s).rstnLow = s.rstnLow ∧ (endAccess s).strap = s.strap ∧
      (endAccess s).mem = s.mem ∧ (endAccess s).readData = s.readData ∧ (endAccess s).att = s.att ∧
      (endAccess s).dirty = s.dirty ∧ (endAccess s).meterTimer = s.meterTimer ∧
      (endAccess s).answers = s.answers ∧ (endAccess s).sa = s.sa ∧ (endAccess s).ms = s.ms ∧
      (endAccess s).zones = s.zones ∧ (endAccess s).view = s.view ∧ (endAccess s).dec = s.dec ∧
      (endAccess s).bass = s.bass ∧ (endAccess s).gain = s.gain ∧ (endAccess s).knob = s.knob ∧
      (endAccess s).pool = s.pool ∧ (endAccess s).mods = s.mods ∧ (endAccess s).clock = s.clock ∧
      (endAccess s).audioStarted = s.audioStarted ∧ (endAccess s).lock = s.lock ∧
      (endAccess s).links = s.links ∧ (endAccess s).meas = s.meas ∧ (endAccess s).fe = s.fe ∧
      (endAccess s).tun = s.tun ∧ (endAccess s).sd = s.sd ∧ (endAccess s).free = s.free := by
  unfold endAccess
  try dsimp only
  (repeat' split) <;> simp

@[simp] theorem hostWrite_fields (off : Nat) (lanes : Lanes) (v : Word) (s : State) :
    (hostWrite off lanes v s).pending = s.pending ∧ (hostWrite off lanes v s).rstnLow = s.rstnLow ∧
      (hostWrite off lanes v s).strap = s.strap ∧ (hostWrite off lanes v s).clock = s.clock ∧
      (hostWrite off lanes v s).audioStarted = s.audioStarted ∧ (hostWrite off lanes v s).links = s.links :=
  offerAccess_fields _ true s

@[simp] theorem partTurn_fields (s : State) :
    (partTurn s).pending = s.pending ∧ (partTurn s).rstnLow = s.rstnLow ∧ (partTurn s).strap = s.strap ∧
      (partTurn s).clock = s.clock ∧ (partTurn s).audioStarted = s.audioStarted ∧ (partTurn s).links = s.links := by
  unfold partTurn
  try dsimp only
  (repeat' split) <;> simp

@[simp] theorem resumeLines_fields (s : State) :
    (resumeLines s).pending = s.pending ∧ (resumeLines s).rstnLow = s.rstnLow ∧
      (resumeLines s).strap = s.strap ∧ (resumeLines s).mem = s.mem ∧ (resumeLines s).readData = s.readData ∧
      (resumeLines s).agent = s.agent ∧ (resumeLines s).meterTimer = s.meterTimer ∧
      (resumeLines s).answers = s.answers ∧ (resumeLines s).ms = s.ms ∧ (resumeLines s).knob = s.knob ∧
      (resumeLines s).clock = s.clock ∧ (resumeLines s).audioStarted = s.audioStarted ∧
      (resumeLines s).lock = s.lock ∧ (resumeLines s).links = s.links ∧ (resumeLines s).meas = s.meas ∧
      (resumeLines s).fe = s.fe ∧ (resumeLines s).tun = s.tun ∧ (resumeLines s).sd = s.sd ∧
      (resumeLines s).free = s.free := by
  unfold resumeLines
  try dsimp only
  (repeat' split) <;> simp

@[simp] theorem resumeAudio_fields (s : State) :
    (resumeAudio s).pending = s.pending ∧ (resumeAudio s).rstnLow = s.rstnLow ∧
      (resumeAudio s).strap = s.strap ∧ (resumeAudio s).mem = s.mem ∧ (resumeAudio s).readData = s.readData ∧
      (resumeAudio s).agent = s.agent ∧ (resumeAudio s).meterTimer = s.meterTimer ∧
      (resumeAudio s).answers = s.answers ∧ (resumeAudio s).lock = s.lock ∧ (resumeAudio s).links = s.links ∧
      (resumeAudio s).meas = s.meas ∧ (resumeAudio s).fe = s.fe ∧ (resumeAudio s).tun = s.tun ∧
      (resumeAudio s).sd = s.sd ∧ (resumeAudio s).free = s.free := by
  unfold resumeAudio
  try dsimp only
  (repeat' split) <;> simp

@[simp] theorem clockProven_fields (s : State) :
    (clockProven s).pending = s.pending ∧ (clockProven s).rstnLow = s.rstnLow ∧
      (clockProven s).strap = s.strap ∧ (clockProven s).mem = s.mem ∧ (clockProven s).readData = s.readData ∧
      (clockProven s).agent = s.agent ∧ (clockProven s).meterTimer = s.meterTimer ∧
      (clockProven s).answers = s.answers ∧ (clockProven s).lock = s.lock ∧ (clockProven s).links = s.links ∧
      (clockProven s).meas = s.meas ∧ (clockProven s).fe = s.fe ∧ (clockProven s).tun = s.tun ∧
      (clockProven s).sd = s.sd ∧ (clockProven s).free = s.free := by
  unfold clockProven
  try dsimp only
  (repeat' split) <;> simp

@[simp] theorem stopAudio_fields (s : State) :
    (stopAudio s).pending = s.pending ∧ (stopAudio s).rstnLow = s.rstnLow ∧ (stopAudio s).strap = s.strap ∧
      (stopAudio s).mem = s.mem ∧ (stopAudio s).readData = s.readData ∧ (stopAudio s).att = s.att ∧
      (stopAudio s).dirty = s.dirty ∧ (stopAudio s).meterTimer = s.meterTimer ∧
      (stopAudio s).answers = s.answers ∧ (stopAudio s).sa = s.sa ∧ (stopAudio s).ms = s.ms ∧
      (stopAudio s).zones = s.zones ∧ (stopAudio s).view = s.view ∧ (stopAudio s).bass = s.bass ∧
      (stopAudio s).gain = s.gain ∧ (stopAudio s).knob = s.knob ∧ (stopAudio s).pool = s.pool ∧
      (stopAudio s).mods = s.mods ∧ (stopAudio s).audioStarted = s.audioStarted ∧
      (stopAudio s).lock = s.lock ∧ (stopAudio s).meas = s.meas ∧ (stopAudio s).fe = s.fe ∧
      (stopAudio s).tun = s.tun ∧ (stopAudio s).sd = s.sd ∧ (stopAudio s).free = s.free := by
  unfold stopAudio
  try dsimp only
  (repeat' split) <;> simp

@[simp] theorem clockAbsence_fields (s : State) :
    (clockAbsence s).pending = s.pending ∧ (clockAbsence s).rstnLow = s.rstnLow ∧
      (clockAbsence s).strap = s.strap ∧ (clockAbsence s).mem = s.mem ∧
      (clockAbsence s).readData = s.readData ∧ (clockAbsence s).meterTimer = s.meterTimer ∧
      (clockAbsence s).answers = s.answers ∧ (clockAbsence s).sa = s.sa ∧ (clockAbsence s).ms = s.ms ∧
      (clockAbsence s).zones = s.zones ∧ (clockAbsence s).view = s.view ∧ (clockAbsence s).bass = s.bass ∧
      (clockAbsence s).knob = s.knob ∧ (clockAbsence s).pool = s.pool ∧
      (clockAbsence s).audioStarted = s.audioStarted ∧ (clockAbsence s).lock = s.lock ∧
      (clockAbsence s).meas = s.meas ∧ (clockAbsence s).fe = s.fe ∧ (clockAbsence s).tun = s.tun ∧
      (clockAbsence s).sd = s.sd ∧ (clockAbsence s).free = s.free := by
  unfold clockAbsence
  try dsimp only
  (repeat' split) <;> simp

@[simp] theorem passEnd_fields (p : RestorePass) (s : State) :
    (passEnd p s).pending = s.pending ∧ (passEnd p s).rstnLow = s.rstnLow ∧ (passEnd p s).strap = s.strap ∧
      (passEnd p s).mem = s.mem ∧ (passEnd p s).readData = s.readData ∧ (passEnd p s).answers = s.answers ∧
      (passEnd p s).lock = s.lock ∧ (passEnd p s).links = s.links ∧ (passEnd p s).meas = s.meas ∧
      (passEnd p s).fe = s.fe ∧ (passEnd p s).tun = s.tun ∧ (passEnd p s).sd = s.sd ∧
      (passEnd p s).free = s.free := by
  unfold passEnd
  dsimp only
  (repeat' split) <;> simp

@[simp] theorem burstResult_fields (b : Burst) (s : State) :
    (burstResult b s).pending = s.pending ∧ (burstResult b s).rstnLow = s.rstnLow ∧
      (burstResult b s).strap = s.strap ∧ (burstResult b s).mem = s.mem ∧
      (burstResult b s).readData = s.readData ∧ (burstResult b s).answers = s.answers ∧
      (burstResult b s).lock = s.lock ∧ (burstResult b s).links = s.links ∧ (burstResult b s).free = s.free := by
  unfold burstResult
  try dsimp only
  (repeat' split) <;> simp

@[simp] theorem cutBurst_fields (s : State) :
    (cutBurst s).pending = s.pending ∧ (cutBurst s).rstnLow = s.rstnLow ∧ (cutBurst s).strap = s.strap ∧
      (cutBurst s).readData = s.readData ∧ (cutBurst s).att = s.att ∧ (cutBurst s).dirty = s.dirty ∧
      (cutBurst s).meterTimer = s.meterTimer ∧ (cutBurst s).answers = s.answers ∧ (cutBurst s).sa = s.sa ∧
      (cutBurst s).ms = s.ms ∧ (cutBurst s).zones = s.zones ∧ (cutBurst s).view = s.view ∧
      (cutBurst s).dec = s.dec ∧ (cutBurst s).bass = s.bass ∧ (cutBurst s).gain = s.gain ∧
      (cutBurst s).knob = s.knob ∧ (cutBurst s).pool = s.pool ∧ (cutBurst s).mods = s.mods ∧
      (cutBurst s).clock = s.clock ∧ (cutBurst s).audioStarted = s.audioStarted ∧
      (cutBurst s).lock = s.lock ∧ (cutBurst s).links = s.links ∧ (cutBurst s).meas = s.meas ∧
      (cutBurst s).fe = s.fe ∧ (cutBurst s).tun = s.tun ∧ (cutBurst s).sd = s.sd := by
  unfold cutBurst
  try dsimp only
  (repeat' split) <;> simp

@[simp] theorem releaseHeld_fields (s : State) :
    (releaseHeld s).pending = s.pending ∧ (releaseHeld s).rstnLow = s.rstnLow ∧
      (releaseHeld s).strap = s.strap ∧ (releaseHeld s).clock = s.clock ∧
      (releaseHeld s).audioStarted = s.audioStarted ∧ (releaseHeld s).links = s.links := by
  unfold releaseHeld
  try dsimp only
  (repeat' split) <;> simp

@[simp] theorem startExpiry_fields (m : AmpModule) (s : State) :
    (startExpiry m s).pending = s.pending ∧ (startExpiry m s).rstnLow = s.rstnLow ∧
      (startExpiry m s).strap = s.strap ∧ (startExpiry m s).mem = s.mem ∧
      (startExpiry m s).readData = s.readData ∧ (startExpiry m s).agent = s.agent ∧
      (startExpiry m s).att = s.att ∧ (startExpiry m s).dirty = s.dirty ∧
      (startExpiry m s).meterTimer = s.meterTimer ∧ (startExpiry m s).answers = s.answers ∧
      (startExpiry m s).sa = s.sa ∧ (startExpiry m s).ms = s.ms ∧ (startExpiry m s).zones = s.zones ∧
      (startExpiry m s).view = s.view ∧ (startExpiry m s).dec = s.dec ∧ (startExpiry m s).bass = s.bass ∧
      (startExpiry m s).gain = s.gain ∧ (startExpiry m s).knob = s.knob ∧ (startExpiry m s).pool = s.pool ∧
      (startExpiry m s).clock = s.clock ∧ (startExpiry m s).audioStarted = s.audioStarted ∧
      (startExpiry m s).lock = s.lock ∧ (startExpiry m s).links = s.links ∧ (startExpiry m s).meas = s.meas ∧
      (startExpiry m s).fe = s.fe ∧ (startExpiry m s).tun = s.tun ∧ (startExpiry m s).sd = s.sd ∧
      (startExpiry m s).free = s.free := by
  unfold startExpiry
  try dsimp only
  (repeat' split) <;> simp

@[simp] theorem stopExpiry_fields (m : AmpModule) (s : State) :
    (stopExpiry m s).pending = s.pending ∧ (stopExpiry m s).rstnLow = s.rstnLow ∧
      (stopExpiry m s).strap = s.strap ∧ (stopExpiry m s).mem = s.mem ∧
      (stopExpiry m s).readData = s.readData ∧ (stopExpiry m s).agent = s.agent ∧
      (stopExpiry m s).att = s.att ∧ (stopExpiry m s).dirty = s.dirty ∧
      (stopExpiry m s).meterTimer = s.meterTimer ∧ (stopExpiry m s).answers = s.answers ∧
      (stopExpiry m s).sa = s.sa ∧ (stopExpiry m s).ms = s.ms ∧ (stopExpiry m s).zones = s.zones ∧
      (stopExpiry m s).view = s.view ∧ (stopExpiry m s).dec = s.dec ∧ (stopExpiry m s).bass = s.bass ∧
      (stopExpiry m s).gain = s.gain ∧ (stopExpiry m s).knob = s.knob ∧ (stopExpiry m s).pool = s.pool ∧
      (stopExpiry m s).clock = s.clock ∧ (stopExpiry m s).audioStarted = s.audioStarted ∧
      (stopExpiry m s).lock = s.lock ∧ (stopExpiry m s).links = s.links ∧ (stopExpiry m s).meas = s.meas ∧
      (stopExpiry m s).fe = s.fe ∧ (stopExpiry m s).tun = s.tun ∧ (stopExpiry m s).sd = s.sd ∧
      (stopExpiry m s).free = s.free := by
  unfold stopExpiry
  try dsimp only
  (repeat' split) <;> simp

@[simp] theorem faultLineTrip_fields (m : AmpModule) (s : State) :
    (faultLineTrip m s).pending = s.pending ∧ (faultLineTrip m s).rstnLow = s.rstnLow ∧
      (faultLineTrip m s).strap = s.strap ∧ (faultLineTrip m s).mem = s.mem ∧
      (faultLineTrip m s).readData = s.readData ∧ (faultLineTrip m s).agent = s.agent ∧
      (faultLineTrip m s).meterTimer = s.meterTimer ∧ (faultLineTrip m s).answers = s.answers ∧
      (faultLineTrip m s).sa = s.sa ∧ (faultLineTrip m s).ms = s.ms ∧ (faultLineTrip m s).zones = s.zones ∧
      (faultLineTrip m s).view = s.view ∧ (faultLineTrip m s).dec = s.dec ∧
      (faultLineTrip m s).bass = s.bass ∧ (faultLineTrip m s).knob = s.knob ∧
      (faultLineTrip m s).pool = s.pool ∧ (faultLineTrip m s).clock = s.clock ∧
      (faultLineTrip m s).audioStarted = s.audioStarted ∧ (faultLineTrip m s).lock = s.lock ∧
      (faultLineTrip m s).links = s.links ∧ (faultLineTrip m s).meas = s.meas ∧
      (faultLineTrip m s).fe = s.fe ∧ (faultLineTrip m s).tun = s.tun ∧ (faultLineTrip m s).sd = s.sd ∧
      (faultLineTrip m s).free = s.free := by
  unfold faultLineTrip
  try dsimp only
  (repeat' split) <;> simp

@[simp] theorem converterStep_fields (microvolts : Int) (s : State) :
    (converterStep microvolts s).pending = s.pending ∧ (converterStep microvolts s).rstnLow = s.rstnLow ∧
      (converterStep microvolts s).strap = s.strap ∧ (converterStep microvolts s).mem = s.mem ∧
      (converterStep microvolts s).readData = s.readData ∧
      (converterStep microvolts s).meterTimer = s.meterTimer ∧
      (converterStep microvolts s).answers = s.answers ∧ (converterStep microvolts s).sa = s.sa ∧
      (converterStep microvolts s).ms = s.ms ∧ (converterStep microvolts s).knob = s.knob ∧
      (converterStep microvolts s).clock = s.clock ∧
      (converterStep microvolts s).audioStarted = s.audioStarted ∧
      (converterStep microvolts s).lock = s.lock ∧ (converterStep microvolts s).links = s.links ∧
      (converterStep microvolts s).free = s.free := by
  unfold converterStep
  try dsimp only
  (repeat' split) <;> simp

end Sys2Proof.Machine
end

