-- ==== Sys2Proof/Laws/Zones.lean ====
section
/-! SUPPORT. What the gain stage's floor events, the wound-down reports, the examination of the delay
pool and the steps of the zone switch can do, each said once. -/

set_option autoImplicit false

namespace Sys2Proof.Machine

/-! ### Floor events and wound-down reports (R93, R95, R128) -/

/-- Channels after a floor event: the chosen ones stand at -320, the others are as they were (R95). -/
theorem floorChans_chan (p : Chan → Bool) (s : State) (ch : Chan) :
    (floorChans p s).gain.chans.get ch =
      if p ch then { s.gain.chans.get ch with applied := gainFloor } else s.gain.chans.get ch := by
  simp [floorChans, mapChans]

/-- All four channels of a module stand at -320 (R93). -/
theorem moduleAtFloor_iff (s : State) (m : AmpModule) :
    moduleAtFloor s m = true ↔ ∀ ch, chanModule ch = m → (s.gain.chans.get ch).applied = gainFloor := by
  unfold moduleAtFloor
  rw [List.all_eq_true]
  constructor
  · intro h ch hc
    have := h ch (by rcases ch with (_ | _ | _ | _ | _ | _ | _ | _ | _ | _) | _ | _ <;> decide)
    simpa [hc] using this
  · intro h ch _
    by_cases hc : chanModule ch = m
    · simp [h ch hc]
    · simp [hc]

/-- A floor event of a module that stands at -320 changes nothing. -/
theorem floorModule_atFloor (s : State) (m : AmpModule) (h : moduleAtFloor s m = true) : floorModule m s = s := by
  have hg : (floorModule m s).gain = s.gain := by
    have hc : (floorModule m s).gain.chans = s.gain.chans := by
      apply PerChan.ext_get
      intro ch
      unfold floorModule
      rw [floorChans_chan]
      by_cases hm : chanModule ch = m
      · have := (moduleAtFloor_iff s m).mp h ch hm
        simp only [hm, beq_self_eq_true, if_true]
        rw [← this]
      · simp [hm]
    have : (floorModule m s).gain = { s.gain with chans := (floorModule m s).gain.chans } := rfl
    rw [this, hc]
  have : floorModule m s = { s with gain := (floorModule m s).gain } := rfl
  rw [this, hg]

/-- A module that has wound down: its order stands while it is ON and its channels stand at -320. -/
def woundDown (s : State) (m : AmpModule) : Bool :=
  (s.mods.get m).order && ((s.mods.get m).state == .on) && moduleAtFloor s m

/-- A wound-down report changes its module alone (R93, R128). -/
theorem windDownReport_eq (m : AmpModule) (s : State) :
    windDownReport m s =
      if woundDown s m then updModule m (fun r => { r with state := .stopping, order := false }) s else s := by
  unfold windDownReport woundDown
  dsimp only
  split
  · rename_i h
    have hf : moduleAtFloor s m = true := by simp_all
    exact floorModule_atFloor (updModule m _ s) m hf
  · rfl

/-- The wound-down reports change the wound-down modules alone (R93, R128). -/
theorem windDownReports_eq (s : State) :
    windDownReports s =
      { s with
        mods := .ofFn fun m =>
          if woundDown s m then { s.mods.get m with state := .stopping, order := false } else s.mods.get m } := by
  have h1 : ∀ m (x : State), windDownReport m x =
      { x with
        mods := x.mods.upd m fun r => if woundDown x m then { r with state := .stopping, order := false } else r } := by
    intro m x
    rw [windDownReport_eq]
    split
    · rfl
    · simp [PerModule.upd]
  unfold windDownReports
  rw [h1, h1, h1]
  congr 1

/-- A wound-down report leaves every gain as it is. -/
@[simp] theorem windDownReports_gain (s : State) : (windDownReports s).gain = s.gain := by
  rw [windDownReports_eq]

/-- A wound-down report leaves the zones as they are. -/
@[simp] theorem closeGate_zones (z : Zone) (s : State) :
    (closeGate z s).zones = s.zones.upd z fun r => { r with gateOpen := false } := by
  simp [closeGate]

/-- A closed gate puts the zone's channels at -320 (R49, R95). -/
theorem closeGate_chan (z : Zone) (s : State) (ch : Chan) :
    (closeGate z s).gain.chans.get ch =
      if chanZone ch = z then { s.gain.chans.get ch with applied := gainFloor } else s.gain.chans.get ch := by
  simp [closeGate, floorZone, floorChans_chan]

/-! ### Held changes and examinations -/

/-- What an examination or a held change may do to a zone: its held changes, and RECONFIGURING from
PLAYING or FADING_IN (R60, R117). -/
structure Held (r r' : ZoneRec) : Prop where
  rest : r' = { r with state := r'.state, held := r'.held }
  state : r'.state = r.state ∨ ((r.state = .playing ∨ r.state = .fadingIn) ∧ r'.state = .reconfiguring)

theorem Held.refl (r : ZoneRec) : Held r r := ⟨rfl, Or.inl rfl⟩

theorem Held.trans {a b c : ZoneRec} (h1 : Held a b) (h2 : Held b c) : Held a c := by
  refine ⟨?_, ?_⟩
  · rw [h2.rest, h1.rest]
  · rcases h1.state with e1 | ⟨e1, e1'⟩ <;> rcases h2.state with e2 | ⟨e2, e2'⟩
    · exact Or.inl (e2.trans e1)
    · rw [e1] at e2
      exact Or.inr ⟨e2, e2'⟩
    · exact Or.inr ⟨e1, e2.trans e1'⟩
    · exact Or.inr ⟨e1, e2'⟩

/-- A held change (R60). -/
theorem holdChange_held (k : ChangeKind) (z z' : Zone) (s : State) :
    Held (s.zones.get z') ((holdChange k z s).zones.get z') := by
  unfold holdChange
  rw [moveZone_zones]
  by_cases h : z' = z
  · subst h
    refine ⟨by simp, ?_⟩
    simp only [PerZone.get_upd_self]
    split
    · rename_i hc
      right
      simp at hc
      exact ⟨hc.2, rfl⟩
    · left
      rfl
  · simp only [PerZone.get_upd_ne _ _ _ _ h]
    exact .refl _

/-- An application at once leaves the zones as they are. -/
@[simp] theorem delayApply_zones (z : Zone) (s : State) : (delayApply z s).zones = s.zones := by
  unfold delayApply
  split <;> simp

/-- The examination of one zone (R117). -/
theorem examineZone_held (z z' : Zone) (s : State) :
    Held (s.zones.get z') ((examineZone z s).1.zones.get z') := by
  unfold examineZone
  split
  · exact .refl _
  · split
    · exact .refl _
    · split
      · dsimp only
        split
        · simp only [delayApply_zones]
          exact .refl _
        · exact holdChange_held .delay z z' { s with pool := s.pool.setAlloc z .requested }
      · exact .refl _

/-- The examination of both zones (R117). -/
theorem examine_held (n : Nat) (z' : Zone) (s : State) : Held (s.zones.get z') ((examine n s).zones.get z') := by
  induction n generalizing s with
  | zero => exact .refl _
  | succ n ih =>
    have h1 := examineZone_held .z1 z' s
    have h2 := examineZone_held .z2 z' (examineZone .z1 s).1
    unfold examine
    dsimp only
    split
    · exact h1.trans (ih _)
    · split
      · exact h1.trans (h2.trans (ih _))
      · exact h1.trans h2

theorem examineZones_held (z' : Zone) (s : State) : Held (s.zones.get z') ((examineZones s).zones.get z') :=
  examine_held 3 z' s

theorem examineAfter_held (h : HeldChanges) (z' : Zone) (s : State) :
    Held (s.zones.get z') ((examineAfter h s).zones.get z') := by
  unfold examineAfter
  split
  · exact examineZones_held z' s
  · exact .refl _

/-- The apply notices empty the zone's held changes and leave everything else of the zones (R61). -/
@[simp] theorem applyHeld_zones (z : Zone) (s : State) :
    (applyHeld z s).zones = s.zones.upd z fun r => { r with held := .empty } := by
  unfold applyHeld
  dsimp only
  (repeat' split) <;> simp [decodeApply, speakersApply, updZone]

/-! ### Fades, loss and return -/

/-- The zone records as a zone enters WAITING (R59). -/
@[simp] theorem enterWaiting_zones (z : Zone) (s : State) :
    (enterWaiting z s).zones = s.zones.upd z fun r =>
      { r with state := .waiting, fade := gainFloor, waited := 0, noSignal := false } := rfl

/-- The connection step (R53). -/
theorem connect_zones (z : Zone) (src : Option Source) (s : State) :
    (connect z src s).zones = s.zones.upd z fun r =>
      match src with
      | none =>
        { r with connected := none, pending := none, state := .silent, fade := gainFloor, waited := 0, noSignal := false }
      | some x =>
        if s.view.get x then
          { r with
            connected := some x, pending := some x, state := .fadingIn, fade := gainFloor, gateOpen := true,
            waited := 0, noSignal := false }
        else
          { r with
            connected := some x, pending := some x, state := .waiting, fade := gainFloor, waited := 0,
            noSignal := false } := by
  apply PerZone.ext_get
  intro i
  unfold connect enterSilent enterFadeIn enterWaiting
  cases src with
  | none => by_cases h : i = z <;> simp [PerZone.get_upd, h]
  | some x =>
    dsimp only
    split <;> rename_i hv <;> by_cases h : i = z <;> simp_all [PerZone.get_upd]

/-- The fade-out ends (R55): what the ending zone becomes before the examination that may follow. -/
theorem fadeOutEnd_eq (z : Zone) (s : State) :
    fadeOutEnd z s =
      examineAfter (s.zones.get z).held (connect z (s.zones.get z).pending (applyHeld z (closeGate z s))) := rfl

/-- The channels after a zone's step: floored, or as they were. -/
def Lowered (s t : State) : Prop :=
  ∀ ch, t.gain.chans.get ch = s.gain.chans.get ch
    ∨ t.gain.chans.get ch = { s.gain.chans.get ch with applied := gainFloor }

theorem Lowered.of_gain {s t : State} (h : t.gain = s.gain) : Lowered s t := fun ch => Or.inl (by rw [h])

theorem closeGate_lowered (z : Zone) (s : State) : Lowered s (closeGate z s) := by
  intro ch
  rw [closeGate_chan]
  split
  · exact Or.inr rfl
  · exact Or.inl rfl

/-- A lost source (R57): what a zone's loss does to each zone and to the channels. -/
structure LossStep (z : Zone) (s t : State) : Prop where
  other : ∀ z', z' ≠ z → Held (s.zones.get z') (t.zones.get z')
  played : (s.zones.get z).state = .playing ∨ (s.zones.get z).state = .fadingIn
      ∨ (s.zones.get z).state = .reconfiguring →
    (t.zones.get z).state = .waiting ∧ (t.zones.get z).gateOpen = false ∧ (t.zones.get z).fade = gainFloor
      ∧ (t.zones.get z).connected = (s.zones.get z).connected ∧ (t.zones.get z).pending = (s.zones.get z).pending
  faded : (s.zones.get z).state = .fadingOut →
    (t.zones.get z).connected = (s.zones.get z).pending
      ∧ ((t.zones.get z).gateOpen = true ↔ ∃ x, (s.zones.get z).pending = some x ∧ s.view.get x = true)
      ∧ (t.zones.get z).fade = gainFloor
  closed : (s.zones.get z).state = .waiting ∨ (s.zones.get z).state = .silent → t = s
  floored : (s.zones.get z).state ≠ .waiting ∧ (s.zones.get z).state ≠ .silent →
    ∀ ch, (t.gain.chans.get ch) =
      if chanZone ch = z then { s.gain.chans.get ch with applied := gainFloor } else s.gain.chans.get ch

theorem examineAfter_gain (h : HeldChanges) (s : State) : (examineAfter h s).gain = s.gain := by
  simp

theorem zoneLoss_spec (z : Zone) (s : State) : LossStep z s (zoneLoss z s) := by
  have hexz : ∀ (h : HeldChanges) (x : State), (x.zones.get z).state = .waiting →
      ((examineAfter h x).zones.get z).state = .waiting
        ∧ ((examineAfter h x).zones.get z).gateOpen = (x.zones.get z).gateOpen
        ∧ ((examineAfter h x).zones.get z).fade = (x.zones.get z).fade
        ∧ ((examineAfter h x).zones.get z).connected = (x.zones.get z).connected
        ∧ ((examineAfter h x).zones.get z).pending = (x.zones.get z).pending := by
    intro h x hx
    have hh := examineAfter_held h z x
    refine ⟨?_, ?_, ?_, ?_, ?_⟩
    · rcases hh.state with e | ⟨e, -⟩
      · rw [e, hx]
      · rw [hx] at e
        simp at e
    all_goals rw [hh.rest]
  unfold zoneLoss
  cases hs : (s.zones.get z).state with
  | waiting => exact ⟨fun _ _ => .refl _, by simp [hs], by simp [hs], fun _ => rfl, by simp [hs]⟩
  | silent => exact ⟨fun _ _ => .refl _, by simp [hs], by simp [hs], fun _ => rfl, by simp [hs]⟩
  | playing =>
    refine ⟨?_, ?_, by simp [hs], by simp [hs], ?_⟩
    · intro z' h
      simp only [enterWaiting_zones, closeGate_zones, PerZone.get_upd_ne _ _ _ _ h]
      exact .refl _
    · simp [enterWaiting]
    · intro _ ch
      simp [enterWaiting, closeGate_chan]
  | fadingIn =>
    refine ⟨?_, ?_, by simp [hs], by simp [hs], ?_⟩
    · intro z' h
      simp only [enterWaiting_zones, closeGate_zones, PerZone.get_upd_ne _ _ _ _ h]
      exact .refl _
    · simp [enterWaiting]
    · intro _ ch
      simp [enterWaiting, closeGate_chan]
  | reconfiguring =>
    refine ⟨?_, ?_, by simp [hs], by simp [hs], ?_⟩
    · intro z' h
      refine .trans ?_ (examineAfter_held _ z' _)
      simp only [enterWaiting_zones, updZone_zones, applyHeld_zones, closeGate_zones, dropFade,
        PerZone.get_upd_ne _ _ _ _ h]
      exact .refl _
    · intro _
      have := hexz (s.zones.get z).held (enterWaiting z (applyHeld z (closeGate z (dropFade z s))))
        (by simp [enterWaiting])
      refine ⟨this.1, ?_, ?_, ?_, ?_⟩
      · rw [this.2.1]
        simp [enterWaiting]
      · rw [this.2.2.1]
        simp [enterWaiting]
      · rw [this.2.2.2.1]
        simp [enterWaiting, dropFade]
      · rw [this.2.2.2.2]
        simp [enterWaiting, dropFade]
    · intro _ ch
      simp [enterWaiting, closeGate_chan, dropFade]
  | fadingOut =>
    simp only
    refine ⟨?_, by simp [hs], ?_, by simp [hs], ?_⟩
    · intro z' h
      rw [fadeOutEnd_eq]
      refine .trans ?_ (examineAfter_held _ z' _)
      simp only [connect_zones, applyHeld_zones, closeGate_zones, dropFade, updZone_zones,
        PerZone.get_upd_ne _ _ _ _ h]
      exact .refl _
    · intro _
      rw [fadeOutEnd_eq]
      have hh := examineAfter_held ((dropFade z s).zones.get z).held z
        (connect z ((dropFade z s).zones.get z).pending (applyHeld z (closeGate z (dropFade z s))))
      rw [hh.rest]
      have hp : ((dropFade z s).zones.get z).pending = (s.zones.get z).pending := by simp [dropFade]
      simp only [hp, connect_zones, PerZone.get_upd_self]
      cases hpp : (s.zones.get z).pending with
      | none => simp
      | some x =>
        simp only [applyHeld_fields, closeGate_fields]
        simp only [dropFade, updZone_view]
        by_cases hv : s.view.get x = true <;> simp [hv]
    · intro _ ch
      rw [fadeOutEnd_eq]
      simp [closeGate_chan, dropFade]

end Sys2Proof.Machine
end

