-- ==== Sys2Proof/Laws/Paths.lean ====
section
/-! SUPPORT. The steps of the zone switch and of the delay pool's examination, each as the relation of
Safety.lean that says all it does (R49, R53, R55, R57, R61, R65, R117, R118). -/

set_option autoImplicit false

namespace Sys2Proof.Machine

/-! ### Gates, held changes and moves of one zone -/

/-- The channels floored by a floor event (R95). -/
theorem floorChans_gain (p : Chan → Bool) (s : State) : (floorChans p s).gain = flooredChans p s.gain := rfl

/-- The wound-down reports (R93, R128). -/
theorem windDownReports_spec (s : State) : WindDowns s (windDownReports s) := by
  intro m
  rw [windDownReports_eq]
  simp only [PerModule.get_ofFn]
  have h : woundDown s m = true ↔ (s.mods.get m).order = true ∧ (s.mods.get m).state = .on
      ∧ ∀ ch, chanModule ch = m → (s.gain.chans.get ch).applied = gainFloor := by
    unfold woundDown
    rw [Bool.and_eq_true, Bool.and_eq_true, moduleAtFloor_iff, beq_iff_eq, and_assoc]
  refine ⟨fun hd => if_pos (h.mpr hd), fun hd => if_neg fun hw => hd (h.mp hw)⟩

/-- A closed gate (R49). -/
theorem closeGate_spec (z : Zone) (s : State) : GateClosed z s (closeGate z s) := by
  have hg : (closeGate z s).gain = flooredZone z s.gain := by simp [closeGate, floorZone, floorChans_gain, flooredZone]
  have hm := windDownReports_spec (floorZone z (updZone z (fun r => { r with gateOpen := false }) s))
  refine ⟨?_, ?_⟩
  · apply State.ext_fields <;> simp [hg, PerZone.upd]
  · intro m
    have := hm m
    simpa [closeGate] using this

/-- A DELAY apply notice, up to the examination (R118). -/
theorem delayApply_spec (z : Zone) (s : State) : DelayTaken z s.pool (delayApply z s).pool := by
  have hz : otherZone z ≠ z := by cases z <;> decide
  unfold delayApply Pool.hasRoom poolWords
  by_cases h : s.pool.staged.total z + s.pool.active.total (otherZone z) ≤ 65536
  · rw [if_pos (by simpa using h)]
    refine ⟨rfl, ?_, ?_, ?_, fun hn => absurd h (by omega)⟩
    · intro ch hc
      simp [Pool.setAlloc, Pool.clearLines, Pool.takeStaged, hc]
    · simp [Pool.setAlloc, Pool.clearLines, Pool.takeStaged, PerZone.get_set_ne _ _ _ _ hz]
    · intro _
      refine ⟨by simp [Pool.setAlloc, Pool.clearLines, Pool.takeStaged], fun ch hc => ?_⟩
      simp [Pool.setAlloc, Pool.clearLines, Pool.takeStaged, hc]
  · rw [if_neg (by simpa using h)]
    refine ⟨rfl, ?_, rfl, fun hn => absurd hn h, ?_⟩
    · intro ch hc
      simp [Pool.setAlloc, Pool.clearLines, hc]
    · intro _
      refine ⟨rfl, fun ch hc => ?_⟩
      simp [Pool.setAlloc, Pool.clearLines, hc]

/-- The apply notices (R61). -/
theorem applyHeld_spec (z : Zone) (s : State) : ChangesApplied z s (applyHeld z s) := by
  have hset : zoneSet (updZone z (fun r => { r with held := .empty }) s) .z1 = zoneSet s .z1 := by
    have hc : ((updZone z (fun r => { r with held := .empty }) s).zones.get .z1).connected
        = (s.zones.get .z1).connected := by
      by_cases h : Zone.z1 = z
      · subst h
        simp
      · simp [PerZone.get_upd_ne _ _ _ _ h]
    unfold zoneSet
    rw [hc]
    rfl
  refine ⟨?_, ?_, ?_, ?_, ?_, ?_, ?_⟩
  · apply State.ext_fields <;> simp [PerZone.upd]
  all_goals
    intro h
    unfold applyHeld
    dsimp only
  · simp only [h, if_true]
    (repeat' split) <;> simp [decodeApply, speakersApply, Decoder.apply, hset]
  · simp only [h, Bool.false_eq_true, if_false]
    (repeat' split) <;> simp [speakersApply]
  · simp only [h, if_true]
    (repeat' split) <;> simp [speakersApply, decodeApply]
  · simp only [h, Bool.false_eq_true, if_false]
    (repeat' split) <;> simp [decodeApply]
  · simp only [h, if_true]
    have hp : ∀ x : State, x.pool = s.pool → DelayTaken z s.pool (delayApply z x).pool := by
      intro x hx
      rw [← hx]
      exact delayApply_spec z x
    apply hp
    (repeat' split) <;> simp [speakersApply, decodeApply]
  · simp only [h, Bool.false_eq_true, if_false]
    (repeat' split) <;> simp [speakersApply, decodeApply]

/-- A moved zone record (R50). -/
theorem moveZone_spec (z : Zone) (f : ZoneRec → ZoneRec) (s : State) : ZoneMoved z f s (moveZone z f s) := by
  unfold ZoneMoved
  apply State.ext_fields <;> simp [PerZone.upd]

/-- Entry to FADING_IN. -/
theorem enterFadeIn_spec (z : Zone) (s : State) : ZoneMoved z fadedIn s (enterFadeIn z s) := moveZone_spec z _ s

/-- Entry to WAITING. -/
theorem enterWaiting_spec (z : Zone) (s : State) : ZoneMoved z waitsAnew s (enterWaiting z s) := by
  unfold ZoneMoved
  apply State.ext_fields <;> simp [enterWaiting, PerZone.upd, waitsAnew]

/-- The connection step (R53). -/
theorem connect_spec (z : Zone) (src : Option Source) (s : State) :
    ZoneMoved z (connectedTo s.view src) s (connect z src s) := by
  unfold ZoneMoved
  apply State.ext_fields
  case h_zones =>
    rw [connect_zones]
    apply PerZone.ext_get
    intro i
    by_cases h : i = z
    · subst h
      simp only [PerZone.get_upd_self, PerZone.get_set_self, connectedTo, fadedIn, waitsAnew]
      cases src with
      | none => rfl
      | some x => rfl
    · simp [PerZone.get_upd_ne _ _ _ _ h, PerZone.get_set_ne _ _ _ _ h]
  all_goals simp

/-! ### The examination (R117, R118) -/

/-- The total of a zone follows its channels' lengths. -/
theorem total_congr (c d : PoolSet) (z : Zone) (h : ∀ ch, chanZone ch = z → c.len.get ch = d.len.get ch) :
    c.total z = d.total z := by
  unfold PoolSet.total
  congr 1
  apply List.map_congr_left
  intro ch hc
  apply h
  cases z with
  | z1 =>
    simp only [zoneChans, List.mem_map] at hc
    obtain ⟨m, -, rfl⟩ := hc
    rfl
  | z2 =>
    simp only [zoneChans, List.mem_cons, List.not_mem_nil, or_false] at hc
    rcases hc with rfl | rfl <;> rfl

/-- A zone's sets agree (R117). -/
theorem sameSet_iff (p : Pool) (z : Zone) : p.sameSet z = true ↔
    (∀ ch, chanZone ch = z → p.staged.len.get ch = p.active.len.get ch)
      ∧ p.staged.grant.get z = p.active.grant.get z := by
  unfold Pool.sameSet
  rw [Bool.and_eq_true, List.all_eq_true, beq_iff_eq]
  refine and_congr ⟨fun h ch hc => ?_, fun h ch hc => ?_⟩ Iff.rfl
  · have hm : ch ∈ zoneChans z := by
      subst hc
      rcases ch with (_ | _ | _ | _ | _ | _ | _ | _ | _ | _) | _ | _ <;> decide
    simpa using h ch hm
  · have : chanZone ch = z := by
      cases z with
      | z1 =>
        simp only [zoneChans, List.mem_map] at hc
        obtain ⟨m, -, rfl⟩ := hc
        rfl
      | z2 =>
        simp only [zoneChans, List.mem_cons, List.not_mem_nil, or_false] at hc
        rcases hc with rfl | rfl <;> rfl
    simpa using h ch this

theorem hasRoom_iff (p : Pool) (z : Zone) :
    p.hasRoom z = true ↔ p.staged.total z + p.active.total (otherZone z) ≤ 65536 := by
  unfold Pool.hasRoom poolWords
  exact decide_eq_true_iff

/-- A zone that keeps its lines keeps the agreement of its sets. -/
theorem sameSet_kept (p q : Pool) (z : Zone) (hs : q.staged = p.staged) (h : LinesKept z p q) :
    q.sameSet z = p.sameSet z := by
  rw [Bool.eq_iff_iff, sameSet_iff, sameSet_iff, hs, h.1]
  exact and_congr_left' ⟨fun k ch hc => (k ch hc).trans (h.2 ch hc).1, fun k ch hc => (k ch hc).trans (h.2 ch hc).1.symm⟩

theorem linesKept_trans {z : Zone} {p q r : Pool} (h : LinesKept z p q) (k : LinesKept z q r) : LinesKept z p r :=
  ⟨k.1.trans h.1, fun ch hc => ⟨(k.2 ch hc).1.trans (h.2 ch hc).1, (k.2 ch hc).2.trans (h.2 ch hc).2⟩⟩

theorem linesKept_refl (z : Zone) (p : Pool) : LinesKept z p p := ⟨rfl, fun _ _ => ⟨rfl, rfl⟩⟩

/-- A change of allocation state keeps every zone's lines. -/
theorem linesKept_setAlloc (z y : Zone) (p : Pool) (a : AllocState) : LinesKept z p (p.setAlloc y a) :=
  linesKept_refl z p

/-- What one zone's examination leaves to the other zone. -/
structure OtherKept (z : Zone) (s t : State) : Prop where
  alloc : t.pool.alloc.get (otherZone z) = s.pool.alloc.get (otherZone z)
  zone : t.zones.get (otherZone z) = s.zones.get (otherZone z)
  lines : LinesKept (otherZone z) s.pool t.pool

/-- What every examination keeps. -/
structure PoolRest (s t : State) : Prop where
  rest : t = { s with
    zones := t.zones, dirty := t.dirty,
    pool := { s.pool with active := t.pool.active, alloc := t.pool.alloc, lines := t.pool.lines } }

theorem PoolRest.refl (s : State) : PoolRest s s := ⟨rfl⟩

theorem PoolRest.trans {s t u : State} (h : PoolRest s t) (k : PoolRest t u) : PoolRest s u := by
  refine ⟨?_⟩
  have e := k.rest
  rw [h.rest] at e
  exact e

theorem PoolRest.staged {s t : State} (h : PoolRest s t) : t.pool.staged = s.pool.staged := by rw [h.rest]

theorem PoolRest.audioRuns {s t : State} (h : PoolRest s t) : t.audioRuns = s.audioRuns := by
  rw [h.rest]
  rfl

theorem hasRoom_congr (p q : Pool) (z : Zone) (hs : q.staged = p.staged) (h : LinesKept (otherZone z) p q) :
    q.hasRoom z = p.hasRoom z := by
  unfold Pool.hasRoom
  rw [hs, total_congr q.active p.active (otherZone z) fun ch hc => (h.2 ch hc).1]

theorem zoneQuiet_iff (s : State) (z : Zone) : zoneQuiet s z = true ↔ AppliesAtOnce s z := by
  simp [zoneQuiet, AppliesAtOnce]

/-- One zone's examination that applies nothing (R117). -/
structure ZoneExamined (z : Zone) (s t : State) : Prop where
  rest : PoolRest s t
  other : OtherKept z s t
  lines : LinesKept z s.pool t.pool
  asked : s.pool.alloc.get z = .requested → t.pool.alloc.get z = .requested ∧ t.zones.get z = s.zones.get z
  same : s.pool.alloc.get z ≠ .requested → s.pool.sameSet z = true →
    t.pool.alloc.get z = .settled ∧ t.zones.get z = s.zones.get z
  noRoom : s.pool.alloc.get z ≠ .requested → s.pool.sameSet z = false → s.pool.hasRoom z = false →
    t.pool.alloc.get z = .waitingRoom ∧ t.zones.get z = s.zones.get z
  request : s.pool.alloc.get z ≠ .requested → s.pool.sameSet z = false → s.pool.hasRoom z = true →
    ¬AppliesAtOnce s z ∧ t.pool.alloc.get z = .requested
      ∧ t.zones.get z = { s.zones.get z with
          held := { (s.zones.get z).held with delay := true }
          state := if s.audioRuns = true ∧ (s.zones.get z).state ∈ [ZoneState.playing, .fadingIn]
            then .reconfiguring else (s.zones.get z).state }

/-- One zone's examination that applies its change at once (R117, R118). -/
structure ZoneApplied (z : Zone) (s t : State) : Prop where
  rest : PoolRest s t
  other : OtherKept z s t
  due : s.pool.alloc.get z ≠ .requested ∧ s.pool.sameSet z = false ∧ s.pool.hasRoom z = true ∧ AppliesAtOnce s z
  alloc : t.pool.alloc.get z = .settled
  zone : t.zones.get z = s.zones.get z
  grant : t.pool.active.grant.get z = s.pool.staged.grant.get z
  lens : ∀ ch, chanZone ch = z → t.pool.active.len.get ch = s.pool.staged.len.get ch
    ∧ t.pool.lines.get ch = List.replicate (s.pool.staged.len.get ch) 0

theorem otherZone_ne (z : Zone) : otherZone z ≠ z := by cases z <;> decide

theorem chan_other {z : Zone} {ch : Chan} (h : chanZone ch = otherZone z) : chanZone ch ≠ z := by
  rw [h]
  exact otherZone_ne z

/-- One zone's examination (R117). -/
theorem examineZone_spec (z : Zone) (s : State) :
    ((examineZone z s).2 = false ∧ ZoneExamined z s (examineZone z s).1)
      ∨ ((examineZone z s).2 = true ∧ ZoneApplied z s (examineZone z s).1) := by
  have ho := otherZone_ne z
  unfold examineZone
  by_cases h1 : s.pool.alloc.get z = .requested
  · left
    rw [if_pos h1]
    exact ⟨rfl, .refl s, ⟨rfl, rfl, linesKept_refl _ _⟩, linesKept_refl _ _, fun _ => ⟨h1, rfl⟩, fun h => absurd h1 h,
      fun h => absurd h1 h, fun h => absurd h1 h⟩
  rw [if_neg h1]
  by_cases h2 : s.pool.sameSet z = true
  · left
    rw [if_pos h2]
    refine ⟨rfl, ⟨rfl⟩, ⟨?_, rfl, linesKept_refl _ _⟩, linesKept_refl _ _, fun h => absurd h h1, fun _ _ => ⟨?_, rfl⟩,
      fun _ h => absurd h (by simp [h2]), fun _ h => absurd h (by simp [h2])⟩
    · simp [Pool.setAlloc, PerZone.get_set_ne _ _ _ _ ho]
    · simp [Pool.setAlloc]
  rw [if_neg h2]
  by_cases h3 : s.pool.hasRoom z = true
  · rw [if_pos h3]
    dsimp only
    by_cases h4 : zoneQuiet { s with pool := s.pool.setAlloc z .requested } z = true
    · right
      rw [if_pos h4]
      have hd := delayApply_spec z { s with pool := s.pool.setAlloc z .requested }
      have hroom : (s.pool.setAlloc z .requested).staged.total z
          + (s.pool.setAlloc z .requested).active.total (otherZone z) ≤ 65536 := (hasRoom_iff s.pool z).mp h3
      have hr := hd.room hroom
      refine ⟨rfl, ⟨?_⟩, ⟨?_, by simp, ?_⟩, ⟨h1, by simpa using h2, h3, (zoneQuiet_iff _ z).mp h4⟩, ?_, by simp, hr.1,
        hr.2⟩
      · apply State.ext_fields
        case h_pool =>
          dsimp only
          rw [hd.rest]
          rfl
        all_goals simp
      · rw [hd.rest]
        simp [Pool.setAlloc, PerZone.get_set_ne _ _ _ _ ho]
      · exact ⟨hd.otherGrant, fun ch hc => hd.other ch (chan_other hc)⟩
      · rw [hd.rest]
        simp [Pool.setAlloc]
    · left
      rw [if_neg h4]
      refine ⟨rfl, ⟨?_⟩, ⟨?_, ?_, ?_⟩, ?_, fun h => absurd h h1, fun _ h => absurd h h2,
        fun _ _ h => absurd h (by simp [h3]), fun _ _ _ => ⟨fun hq => h4 ((zoneQuiet_iff _ z).mpr hq), ?_, ?_⟩⟩
      · apply State.ext_fields <;> simp [Pool.setAlloc]
      · simp [Pool.setAlloc, PerZone.get_set_ne _ _ _ _ ho]
      · simp [holdChange, PerZone.get_upd_ne _ _ _ _ ho]
      · simpa using linesKept_setAlloc _ z s.pool .requested
      · simpa using linesKept_setAlloc _ z s.pool .requested
      · simp [Pool.setAlloc]
      · simp [holdChange, HeldChanges.add, State.audioRuns]
  · left
    rw [if_neg h3]
    refine ⟨rfl, ⟨rfl⟩, ⟨?_, rfl, linesKept_refl _ _⟩, linesKept_refl _ _, fun h => absurd h h1, fun _ h => absurd h h2,
      fun _ _ _ => ⟨?_, rfl⟩, fun _ _ h => absurd h h3⟩
    · simp [Pool.setAlloc, PerZone.get_set_ne _ _ _ _ ho]
    · simp [Pool.setAlloc]

/-- A round in which no change is applied at once (R117). -/
theorem examined_of_round {s a t : State} (h1 : ZoneExamined .z1 s a) (h2 : ZoneExamined .z2 a t) : Examined s t := by
  have hsame : a.pool.sameSet .z2 = s.pool.sameSet .z2 := sameSet_kept _ _ _ h1.rest.staged h1.other.lines
  have hroom : a.pool.hasRoom .z2 = s.pool.hasRoom .z2 := hasRoom_congr _ _ _ h1.rest.staged h1.lines
  have hk1 : LinesKept .z1 s.pool t.pool := linesKept_trans h1.lines h2.other.lines
  have hk2 : LinesKept .z2 s.pool t.pool := linesKept_trans h1.other.lines h2.lines
  have hrest := h1.rest.trans h2.rest
  have ht1 : t.pool.hasRoom .z1 = s.pool.hasRoom .z1 := hasRoom_congr _ _ _ hrest.staged hk2
  have ht2 : t.pool.hasRoom .z2 = s.pool.hasRoom .z2 := hasRoom_congr _ _ _ hrest.staged hk1
  have ha2 : a.pool.alloc.get .z2 = s.pool.alloc.get .z2 := h1.other.alloc
  have hz2 : a.zones.get .z2 = s.zones.get .z2 := h1.other.zone
  have ht1a : t.pool.alloc.get .z1 = a.pool.alloc.get .z1 := h2.other.alloc
  have hz1 : t.zones.get .z1 = a.zones.get .z1 := h2.other.zone
  have hr1 : RoomFound s t .z1 ↔ s.pool.hasRoom .z1 = true := by simp [RoomFound, ht1]
  have hr2 : RoomFound s t .z2 ↔ s.pool.hasRoom .z2 = true := by simp [RoomFound, ht2]
  have hq2 : AppliesAtOnce a .z2 ↔ AppliesAtOnce s .z2 := by
    unfold AppliesAtOnce
    rw [h1.rest.audioRuns, hz2]
  refine ⟨hrest.rest, ?_, ?_, ?_, ?_, ?_⟩
  · intro z h
    cases z with
    | z1 => exact ⟨ht1a.trans (h1.asked h).1, hz1.trans (h1.asked h).2, hk1⟩
    | z2 => exact ⟨(h2.asked (ha2.trans h)).1, (h2.asked (ha2.trans h)).2.trans hz2, hk2⟩
  · intro z h hs
    cases z with
    | z1 => exact ⟨ht1a.trans (h1.same h hs).1, hz1.trans (h1.same h hs).2, hk1⟩
    | z2 =>
      have := h2.same (by rw [ha2]; exact h) (by rw [hsame]; exact hs)
      exact ⟨this.1, this.2.trans hz2, hk2⟩
  · intro z h hs hr
    cases z with
    | z1 =>
      have := h1.noRoom h hs (by simpa [hr1] using hr)
      exact ⟨ht1a.trans this.1, hz1.trans this.2, hk1⟩
    | z2 =>
      have := h2.noRoom (by rw [ha2]; exact h) (by rw [hsame]; exact hs)
        (by rw [hroom]; simpa [hr2] using hr)
      exact ⟨this.1, this.2.trans hz2, hk2⟩
  · intro z h hs hr _
    cases z with
    | z1 =>
      have := h1.request h hs (hr1.mp hr)
      exact ⟨ht1a.trans this.2.1, hk1, hz1.trans this.2.2⟩
    | z2 =>
      have := h2.request (by rw [ha2]; exact h) (by rw [hsame]; exact hs) (by rw [hroom]; exact hr2.mp hr)
      refine ⟨this.2.1, hk2, ?_⟩
      rw [this.2.2, hz2, h1.rest.audioRuns]
  · intro z h hs hr hq
    cases z with
    | z1 => exact absurd hq (h1.request h hs (hr1.mp hr)).1
    | z2 =>
      exact absurd (hq2.mpr hq)
        (h2.request (by rw [ha2]; exact h) (by rw [hsame]; exact hs) (by rw [hroom]; exact hr2.mp hr)).1

/-- After a change applied at once its zone's sets agree. -/
theorem ZoneApplied.same {z : Zone} {s a : State} (h : ZoneApplied z s a) : a.pool.sameSet z = true := by
  rw [sameSet_iff, h.rest.staged]
  exact ⟨fun ch hc => (h.lens ch hc).1.symm, h.grant.symm⟩

/-- What the rounds after an application leave to its zone. -/
theorem ZoneApplied.after {z : Zone} {s a t : State} (h : ZoneApplied z s a) (k : Examined a t) :
    t.pool.alloc.get z = .settled ∧ t.zones.get z = s.zones.get z
      ∧ t.pool.active.grant.get z = s.pool.staged.grant.get z
      ∧ ∀ ch, chanZone ch = z → t.pool.active.len.get ch = s.pool.staged.len.get ch
        ∧ t.pool.lines.get ch = List.replicate (s.pool.staged.len.get ch) 0 := by
  obtain ⟨h1, h2, h3⟩ := k.same z (by rw [h.alloc]; simp) h.same
  exact ⟨h1, h2.trans h.zone, h3.1.trans h.grant,
    fun ch hc => ⟨(h3.2 ch hc).1.trans (h.lens ch hc).1, (h3.2 ch hc).2.trans (h.lens ch hc).2⟩⟩

/-- What an examination says of a zone carries over from a state that agrees in that zone. -/
theorem examined_zone_of {z : Zone} {s a t : State} (hr : PoolRest s a)
    (halloc : a.pool.alloc.get z = s.pool.alloc.get z) (hzone : a.zones.get z = s.zones.get z)
    (hl : LinesKept z s.pool a.pool) (hfound : RoomFound s t z ↔ RoomFound a t z) (k : Examined a t) :
    (s.pool.alloc.get z = .requested →
      t.pool.alloc.get z = .requested ∧ t.zones.get z = s.zones.get z ∧ LinesKept z s.pool t.pool)
    ∧ (s.pool.alloc.get z ≠ .requested → s.pool.sameSet z = true →
      t.pool.alloc.get z = .settled ∧ t.zones.get z = s.zones.get z ∧ LinesKept z s.pool t.pool)
    ∧ (s.pool.alloc.get z ≠ .requested → s.pool.sameSet z = false → ¬RoomFound s t z →
      t.pool.alloc.get z = .waitingRoom ∧ t.zones.get z = s.zones.get z ∧ LinesKept z s.pool t.pool)
    ∧ (s.pool.alloc.get z ≠ .requested → s.pool.sameSet z = false → RoomFound s t z → ¬AppliesAtOnce s z →
      t.pool.alloc.get z = .requested ∧ LinesKept z s.pool t.pool
        ∧ t.zones.get z = { s.zones.get z with
            held := { (s.zones.get z).held with delay := true }
            state := if s.audioRuns = true ∧ (s.zones.get z).state ∈ [ZoneState.playing, .fadingIn]
              then .reconfiguring else (s.zones.get z).state })
    ∧ (s.pool.alloc.get z ≠ .requested → s.pool.sameSet z = false → RoomFound s t z → AppliesAtOnce s z →
      t.pool.alloc.get z = .settled ∧ t.zones.get z = s.zones.get z
        ∧ t.pool.active.grant.get z = s.pool.staged.grant.get z
        ∧ ∀ ch, chanZone ch = z → t.pool.active.len.get ch = s.pool.staged.len.get ch
          ∧ t.pool.lines.get ch = List.replicate (s.pool.staged.len.get ch) 0) := by
  have hsame : a.pool.sameSet z = s.pool.sameSet z := sameSet_kept _ _ _ hr.staged hl
  have hq : AppliesAtOnce a z ↔ AppliesAtOnce s z := by
    unfold AppliesAtOnce
    rw [hr.audioRuns, hzone]
  rw [hfound, ← halloc, ← hsame, ← hq, ← hzone, ← hr.staged, ← hr.audioRuns]
  refine ⟨fun h => ?_, fun h hs => ?_, fun h hs hf => ?_, fun h hs hf hn => ?_, fun h hs hf hn => k.atOnce z h hs hf hn⟩
  · obtain ⟨x, y, w⟩ := k.asked z h
    exact ⟨x, y, linesKept_trans hl w⟩
  · obtain ⟨x, y, w⟩ := k.same z h hs
    exact ⟨x, y, linesKept_trans hl w⟩
  · obtain ⟨x, y, w⟩ := k.noRoom z h hs hf
    exact ⟨x, y, linesKept_trans hl w⟩
  · obtain ⟨x, y, w⟩ := k.request z h hs hf hn
    exact ⟨x, linesKept_trans hl y, w⟩

/-- A round that begins with zone 1's change applied at once (R117). -/
theorem examined_of_first {s a t : State} (h : ZoneApplied .z1 s a) (k : Examined a t) : Examined s t := by
  have hf2 : RoomFound s t .z2 ↔ RoomFound a t .z2 := by simp [RoomFound]
  have two := examined_zone_of h.rest h.other.alloc h.other.zone h.other.lines hf2 k
  have one := h.after k
  have hf1 : RoomFound s t .z1 := Or.inr ⟨rfl, h.due.2.2.1⟩
  refine ⟨(h.rest.trans ⟨k.rest⟩).rest, ?_, ?_, ?_, ?_, ?_⟩
  · intro z
    cases z with
    | z1 => exact fun hc => absurd hc h.due.1
    | z2 => exact two.1
  · intro z
    cases z with
    | z1 => exact fun _ hc => absurd hc (by simp [h.due.2.1])
    | z2 => exact two.2.1
  · intro z
    cases z with
    | z1 => exact fun _ _ hc => absurd hf1 hc
    | z2 => exact two.2.2.1
  · intro z
    cases z with
    | z1 => exact fun _ _ _ hc => absurd h.due.2.2.2 hc
    | z2 => exact two.2.2.2.1
  · intro z
    cases z with
    | z1 => exact fun _ _ _ _ => one
    | z2 => exact two.2.2.2.2

/-- A zone whose staged lengths are active has the staged total as its active one. -/
theorem total_of_lens {z : Zone} {p : Pool} {c : PoolSet}
    (h : ∀ ch, chanZone ch = z → p.active.len.get ch = c.len.get ch) : p.active.total z = c.total z :=
  total_congr _ _ z h

/-- A round in which zone 2's change is applied at once after zone 1's examination (R117). -/
theorem examined_of_second {s a b t : State} (g : ZoneExamined .z1 s a) (h : ZoneApplied .z2 a b) (k : Examined b t) :
    Examined s t := by
  have hsb : PoolRest s b := g.rest.trans h.rest
  have hst : PoolRest s t := hsb.trans ⟨k.rest⟩
  have ha2 : a.pool.alloc.get .z2 = s.pool.alloc.get .z2 := g.other.alloc
  have hz2 : a.zones.get .z2 = s.zones.get .z2 := g.other.zone
  have hsame2 : a.pool.sameSet .z2 = s.pool.sameSet .z2 := sameSet_kept _ _ _ g.rest.staged g.other.lines
  have hq2 : AppliesAtOnce a .z2 ↔ AppliesAtOnce s .z2 := by
    unfold AppliesAtOnce
    rw [g.rest.audioRuns, hz2]
  have two := h.after k
  rw [hz2, g.rest.staged] at two
  -- the active totals at the end
  have t2 : t.pool.active.total .z2 = s.pool.staged.total .z2 := total_of_lens fun ch hc => (two.2.2.2 ch hc).1
  have b2 : b.pool.active.total .z2 = s.pool.staged.total .z2 :=
    total_of_lens fun ch hc => by rw [(h.lens ch hc).1, g.rest.staged]
  have hk1b : LinesKept .z1 s.pool b.pool := linesKept_trans g.lines h.other.lines
  have b1 : b.pool.active.total .z1 = s.pool.active.total .z1 :=
    total_congr _ _ .z1 fun ch hc => (hk1b.2 ch hc).1
  have hbt : b.pool.hasRoom .z1 = t.pool.hasRoom .z1 := by
    rw [Bool.eq_iff_iff, hasRoom_iff, hasRoom_iff, hsb.staged, hst.staged]
    simp only [otherZone, t2, b2]
  have room2 : s.pool.staged.total .z2 + s.pool.active.total .z1 ≤ 65536 := by
    have := (hasRoom_iff _ _).mp h.due.2.2.1
    rw [g.rest.staged] at this
    simp only [otherZone] at this
    rwa [total_congr _ _ .z1 fun ch hc => (g.lines.2 ch hc).1] at this
  have hf1b : RoomFound b t .z1 ↔ t.pool.hasRoom .z1 = true := by simp [RoomFound, hbt]
  have hf2 : RoomFound s t .z2 := by
    left
    rw [hasRoom_iff, hst.staged]
    simp only [otherZone]
    have kept : LinesKept .z1 b.pool t.pool → t.pool.active.total .z1 = s.pool.active.total .z1 := fun hl => by
      rw [← b1]
      exact total_congr _ _ .z1 fun ch hc => (hl.2 ch hc).1
    by_cases hr : b.pool.alloc.get .z1 = .requested
    · rw [kept (k.asked .z1 hr).2.2]
      exact room2
    by_cases hs : b.pool.sameSet .z1 = true
    · rw [kept (k.same .z1 hr hs).2.2]
      exact room2
    have hs : b.pool.sameSet .z1 = false := by simpa using hs
    by_cases hf : RoomFound b t .z1
    · by_cases hq : AppliesAtOnce b .z1
      · have hl := (k.atOnce .z1 hr hs hf hq).2.2.2
        rw [total_of_lens fun ch hc => (hl ch hc).1, hsb.staged]
        have := (hasRoom_iff _ _).mp (hf1b.mp hf)
        rw [hst.staged] at this
        simp only [otherZone, t2] at this
        omega
      · rw [kept (k.request .z1 hr hs hf hq).2.1]
        exact room2
    · rw [kept (k.noRoom .z1 hr hs hf).2.2]
      exact room2
  -- zone 1 at the end, by what its first examination found
  have hz1b : b.zones.get .z1 = a.zones.get .z1 := h.other.zone
  have ha1b : b.pool.alloc.get .z1 = a.pool.alloc.get .z1 := h.other.alloc
  refine ⟨hst.rest, ?_, ?_, ?_, ?_, ?_⟩
  · intro z
    cases z with
    | z1 =>
      intro hr
      obtain ⟨x, y⟩ := g.asked hr
      obtain ⟨u, v, w⟩ := k.asked .z1 (ha1b.trans x)
      exact ⟨u, v.trans (hz1b.trans y), linesKept_trans hk1b w⟩
    | z2 => exact fun hc => absurd (ha2.trans hc) h.due.1
  · intro z
    cases z with
    | z1 =>
      intro hr hs
      obtain ⟨x, y⟩ := g.same hr hs
      obtain ⟨u, v, w⟩ := k.same .z1 (by rw [ha1b, x]; simp) (by rw [sameSet_kept _ _ _ hsb.staged hk1b]; exact hs)
      exact ⟨u, v.trans (hz1b.trans y), linesKept_trans hk1b w⟩
    | z2 => exact fun _ hc => absurd (hsame2.trans hc) (by simp [h.due.2.1])
  · intro z
    cases z with
    | z1 =>
      intro hr hs hf
      simp only [RoomFound, true_and, not_or, Bool.not_eq_true] at hf
      obtain ⟨x, y⟩ := g.noRoom hr hs hf.2
      obtain ⟨u, v, w⟩ := k.noRoom .z1 (by rw [ha1b, x]; simp)
        (by rw [sameSet_kept _ _ _ hsb.staged hk1b]; exact hs) (by rw [hf1b]; simp [hf.1])
      exact ⟨u, v.trans (hz1b.trans y), linesKept_trans hk1b w⟩
    | z2 => exact fun _ _ hc => absurd hf2 hc
  · intro z
    cases z with
    | z1 =>
      intro hr hs hf hq
      by_cases h0 : s.pool.hasRoom .z1 = true
      · obtain ⟨-, x, y⟩ := g.request hr hs h0
        obtain ⟨u, v, w⟩ := k.asked .z1 (ha1b.trans x)
        exact ⟨u, linesKept_trans hk1b w, v.trans (hz1b.trans y)⟩
      · have h0 : s.pool.hasRoom .z1 = false := by simpa using h0
        obtain ⟨x, y⟩ := g.noRoom hr hs h0
        have hft : t.pool.hasRoom .z1 = true := by simpa [RoomFound, h0] using hf
        have hqb : ¬AppliesAtOnce b .z1 := by
          unfold AppliesAtOnce at hq ⊢
          rw [hsb.audioRuns, hz1b, y]
          exact hq
        obtain ⟨u, v, w⟩ := k.request .z1 (by rw [ha1b, x]; simp)
          (by rw [sameSet_kept _ _ _ hsb.staged hk1b]; exact hs) (hf1b.mpr hft) hqb
        rw [hz1b, y, hsb.audioRuns] at w
        exact ⟨u, linesKept_trans hk1b v, w⟩
    | z2 => exact fun _ _ _ hc => absurd (hq2.mp h.due.2.2.2) hc
  · intro z
    cases z with
    | z1 =>
      intro hr hs hf hq
      by_cases h0 : s.pool.hasRoom .z1 = true
      · exact absurd hq (g.request hr hs h0).1
      · have h0 : s.pool.hasRoom .z1 = false := by simpa using h0
        obtain ⟨x, y⟩ := g.noRoom hr hs h0
        have hft : t.pool.hasRoom .z1 = true := by simpa [RoomFound, h0] using hf
        have hqb : AppliesAtOnce b .z1 := by
          unfold AppliesAtOnce at hq ⊢
          rw [hsb.audioRuns, hz1b, y]
          exact hq
        have := k.atOnce .z1 (by rw [ha1b, x]; simp)
          (by rw [sameSet_kept _ _ _ hsb.staged hk1b]; exact hs) (hf1b.mpr hft) hqb
        rw [hz1b, y, hsb.staged] at this
        exact this
    | z2 => exact fun _ _ _ _ => two

/-- The zones whose sets differ. -/
def differing (s : State) : Nat :=
  (if s.pool.sameSet .z1 = true then 0 else 1) + if s.pool.sameSet .z2 = true then 0 else 1

/-- With more rounds than zones that differ, the examination is whole (R117). -/
theorem examine_spec (n : Nat) (s : State) (h : differing s < n) : Examined s (examine n s) := by
  induction n generalizing s with
  | zero => omega
  | succ n ih =>
    unfold examine
    dsimp only
    rcases examineZone_spec .z1 s with ⟨e, h1⟩ | ⟨e, h1⟩
    · rw [e]
      simp only [Bool.false_eq_true, if_false]
      have hs1 := sameSet_kept _ _ _ h1.rest.staged h1.lines
      have hs2 : (examineZone .z1 s).1.pool.sameSet .z2 = s.pool.sameSet .z2 :=
        sameSet_kept _ _ _ h1.rest.staged h1.other.lines
      rcases examineZone_spec .z2 (examineZone .z1 s).1 with ⟨e2, h2⟩ | ⟨e2, h2⟩
      · rw [e2]
        exact examined_of_round h1 h2
      · rw [e2, if_pos rfl]
        refine examined_of_second h1 h2 (ih _ ?_)
        have hn := h2.due.2.1
        have hk := sameSet_kept _ _ .z1 h2.rest.staged h2.other.lines
        unfold differing at h ⊢
        rw [h2.same, hk, hs1]
        rw [hs2] at hn
        simp only [hn] at h
        simp only [if_true, Bool.false_eq_true, if_false] at h ⊢
        omega
    · rw [e, if_pos rfl]
      refine examined_of_first h1 (ih _ ?_)
      have hn := h1.due.2.1
      have hk := sameSet_kept _ _ .z2 h1.rest.staged h1.other.lines
      unfold differing at h ⊢
      rw [h1.same, hk]
      simp only [hn] at h
      simp only [if_true, Bool.false_eq_true, if_false] at h ⊢
      omega

/-- The examination of both zones (R117). -/
theorem examineZones_spec (s : State) : Examined s (examineZones s) := by
  apply examine_spec
  unfold differing
  (repeat' split) <;> omega

/-- The examination after a zone's step (R118; log 19). -/
theorem examineAfter_spec (held : HeldChanges) (s : State) : ExaminedFor held s (examineAfter held s) := by
  unfold examineAfter
  refine ⟨fun h => ?_, fun h => ?_⟩
  · rw [if_pos h]
    exact examineZones_spec s
  · rw [if_neg (by simp [h])]

/-! ### A fade that ends, a loss and a kept SOURCE value (R51 to R53, R55, R57, R61) -/

/-- A zone's channel set follows its connected source (R49). -/
theorem zoneSet_congr (s t : State) (z : Zone) (hc : (t.zones.get z).connected = (s.zones.get z).connected)
    (hsa : t.sa = s.sa) (hms : t.ms = s.ms) : zoneSet t z = zoneSet s z := by
  unfold zoneSet sourceSet
  rw [hc, hsa, hms]

/-- The jump of F to -320 leaves a zone's connected source as it is. -/
theorem dropFade_connected (z y : Zone) (s : State) :
    ((dropFade z s).zones.get y).connected = (s.zones.get y).connected := by
  by_cases h : y = z
  · subst h
    simp [dropFade]
  · simp [dropFade, PerZone.get_upd_ne _ _ _ _ h]

/-- A gate closes in the same way before and after F jumps to -320. -/
theorem closeGate_dropFade (z : Zone) (s : State) : closeGate z (dropFade z s) = dropFade z (closeGate z s) := by
  unfold closeGate
  rw [windDownReports_eq, windDownReports_eq]
  apply State.ext_fields
  case h_zones =>
    apply PerZone.ext_get
    intro i
    by_cases h : i = z
    · subst h
      simp [dropFade]
    · simp [dropFade, PerZone.get_upd_ne _ _ _ _ h]
  all_goals rfl

/-- Held changes are applied in the same way before and after F jumps to -320. -/
theorem applyHeld_dropFade (z : Zone) (s : State) : applyHeld z (dropFade z s) = dropFade z (applyHeld z s) := by
  have hh : ((dropFade z s).zones.get z).held = (s.zones.get z).held := by simp [dropFade]
  have base : updZone z (fun r => { r with held := .empty }) (dropFade z s)
      = dropFade z (updZone z (fun r => { r with held := .empty }) s) := by
    apply State.ext_fields
    case h_zones =>
      apply PerZone.ext_get
      intro i
      by_cases h : i = z
      · subst h
        simp [dropFade]
      · simp [dropFade, PerZone.get_upd_ne _ _ _ _ h]
    all_goals rfl
  have hdec : ∀ x : State, decodeApply (dropFade z x) = dropFade z (decodeApply x) := by
    intro x
    unfold decodeApply
    rw [zoneSet_congr x (dropFade z x) .z1 (dropFade_connected z .z1 x) rfl rfl]
    rfl
  have hdel : ∀ x : State, delayApply z (dropFade z x) = dropFade z (delayApply z x) := by
    intro x
    unfold delayApply
    have hp : (dropFade z x).pool = x.pool := rfl
    rw [hp]
    split
    · rw [markAll_eq, markAll_eq]
      rfl
    · rfl
  unfold applyHeld
  dsimp only
  rw [hh, base]
  have hspk : ∀ x : State, speakersApply (dropFade z x) = dropFade z (speakersApply x) := fun _ => rfl
  (repeat' split) <;> simp only [hdec, hspk, hdel]

/-- The connection step sets F, whatever it was. -/
theorem connect_dropFade (z : Zone) (src : Option Source) (s : State) :
    connect z src (dropFade z s) = connect z src s := by
  have hz : (connect z src (dropFade z s)).zones = (connect z src s).zones := by
    rw [connect_zones, connect_zones]
    apply PerZone.ext_get
    intro i
    by_cases h : i = z
    · subst h
      simp only [PerZone.get_upd_self, dropFade, updZone_zones, updZone_view]
    · simp [dropFade, PerZone.get_upd_ne _ _ _ _ h]
  have hd : (connect z src (dropFade z s)).dirty = (connect z src s).dirty := by
    unfold connect enterSilent enterFadeIn enterWaiting moveZone
    cases src with
    | none => simp [dropFade, markAll_eq]
    | some x =>
      dsimp only
      have hv : (dropFade z s).view = s.view := rfl
      simp only [hv]
      split <;> simp [dropFade, markAll_eq]
  apply State.ext_fields
  case h_zones => exact hz
  case h_dirty => exact hd
  all_goals simp [dropFade]

/-- A fade-out ends (R55). -/
theorem fadeOutEnd_spec (z : Zone) (s : State) : FadeEnded z s (fadeOutEnd z s) := by
  refine ⟨closeGate z s, applyHeld z (closeGate z s), connect z (s.zones.get z).pending (applyHeld z (closeGate z s)),
    closeGate_spec z s, applyHeld_spec z _, ?_, examineAfter_spec _ _⟩
  have := connect_spec z (s.zones.get z).pending (applyHeld z (closeGate z s))
  simpa using this

/-- A fade-out that ends with F at -320. -/
theorem fadeOutEnd_dropFade (z : Zone) (s : State) : fadeOutEnd z (dropFade z s) = fadeOutEnd z s := by
  have hh : ((dropFade z s).zones.get z).held = (s.zones.get z).held := by simp [dropFade]
  have hp : ((dropFade z s).zones.get z).pending = (s.zones.get z).pending := by simp [dropFade]
  rw [fadeOutEnd_eq, fadeOutEnd_eq, hh, hp, closeGate_dropFade, applyHeld_dropFade, connect_dropFade]

/-- A move that sets F does so whatever it was. -/
theorem enter_dropFade (z : Zone) (s : State) :
    enterFadeIn z (dropFade z s) = enterFadeIn z s ∧ enterWaiting z (dropFade z s) = enterWaiting z s := by
  constructor
  · unfold enterFadeIn moveZone
    simp only [markAll_eq]
    apply State.ext_fields
    case h_zones =>
      apply PerZone.ext_get
      intro i
      by_cases h : i = z
      · subst h
        simp [dropFade]
      · simp [dropFade, PerZone.get_upd_ne _ _ _ _ h]
    case h_dirty => simp [dropFade]
    all_goals rfl
  · apply State.ext_fields
    case h_zones =>
      apply PerZone.ext_get
      intro i
      by_cases h : i = z
      · subst h
        simp [dropFade]
      · simp [dropFade, PerZone.get_upd_ne _ _ _ _ h]
    all_goals rfl

/-- A reconfiguring fade ends (R61). -/
theorem reconfigureEnd_spec (z : Zone) (s : State) : ReconfiguringEnded z s (reconfigureEnd z s) :=
  ⟨closeGate z s, applyHeld z (closeGate z s), enterFadeIn z (applyHeld z (closeGate z s)), closeGate_spec z s,
    applyHeld_spec z _, enterFadeIn_spec z _, examineAfter_spec _ _⟩

/-- A reconfiguring fade that ends with F at -320. -/
theorem reconfigureEnd_dropFade (z : Zone) (s : State) : reconfigureEnd z (dropFade z s) = reconfigureEnd z s := by
  have hh : ((dropFade z s).zones.get z).held = (s.zones.get z).held := by simp [dropFade]
  unfold reconfigureEnd
  rw [hh, closeGate_dropFade, applyHeld_dropFade, (enter_dropFade z _).1]

/-- A lost source, as its zone takes it (R57). -/
theorem zoneLoss_lost (z : Zone) (s : State) : ZoneLost z s (zoneLoss z s) := by
  unfold zoneLoss
  refine ⟨fun h => ?_, fun h => ?_, fun h => ?_, fun h => ?_⟩
  · simp only [List.mem_cons, List.not_mem_nil, or_false] at h
    rcases h with h | h <;> rw [h]
  · simp only [List.mem_cons, List.not_mem_nil, or_false] at h
    rcases h with h | h <;> rw [h] <;> exact ⟨_, closeGate_spec z s, enterWaiting_spec z _⟩
  · rw [h]
    simp only [fadeOutEnd_dropFade]
    exact fadeOutEnd_spec z s
  · rw [h]
    simp only [closeGate_dropFade, applyHeld_dropFade, (enter_dropFade z _).2]
    exact ⟨_, _, _, closeGate_spec z s, applyHeld_spec z _, enterWaiting_spec z _, examineAfter_spec _ _⟩

/-- A zone takes a loss (R48, R57). -/
theorem zoneCarrying_loss (z : Zone) (src : Source) (s : State) :
    LossTaken src z s (zoneCarrying z src false s) := by
  unfold zoneCarrying
  refine ⟨fun h => ?_, fun h => ?_⟩
  · rw [if_pos h]
    exact zoneLoss_lost z s
  · rw [if_neg h]

/-- A SOURCE value acts on a zone (R51 to R53). -/
theorem sourceAct_spec (z : Zone) (src : Option Source) (s : State) : SourceTaken z src s (sourceAct z src s) := by
  unfold sourceAct
  refine ⟨fun h hs => ?_, fun h hs => ?_, fun h => ?_, fun h => ?_⟩
  · simp only [List.mem_cons, List.not_mem_nil, or_false] at h
    rcases h with h | h | h <;> rw [h] <;> simp only [hs, if_true]
  · simp only [List.mem_cons, List.not_mem_nil, or_false] at h
    rcases h with h | h | h <;> rw [h] <;> simp only [hs, if_false] <;> exact moveZone_spec z _ s
  · rw [h]
    rfl
  · simp only [List.mem_cons, List.not_mem_nil, or_false] at h
    rcases h with h | h <;> rw [h] <;> exact connect_spec z src s

/-- What an examination makes of a zone's record (R117). -/
theorem examined_held {s t : State} (h : Examined s t) (z : Zone) :
    (t.zones.get z).held.decode = (s.zones.get z).held.decode
      ∧ (t.zones.get z).held.speakers = (s.zones.get z).held.speakers := by
  by_cases hr : s.pool.alloc.get z = .requested
  · rw [(h.asked z hr).2.1]
    exact ⟨rfl, rfl⟩
  by_cases hs : s.pool.sameSet z = true
  · rw [(h.same z hr hs).2.1]
    exact ⟨rfl, rfl⟩
  have hs : s.pool.sameSet z = false := by simpa using hs
  by_cases hf : RoomFound s t z
  · by_cases hq : AppliesAtOnce s z
    · rw [(h.atOnce z hr hs hf hq).2.1]
      exact ⟨rfl, rfl⟩
    · rw [(h.request z hr hs hf hq).2.2]
      exact ⟨rfl, rfl⟩
  · rw [(h.noRoom z hr hs hf).2.1]
    exact ⟨rfl, rfl⟩

/-- A zone that applies nothing at once keeps its lines through an examination (R117). -/
theorem examined_kept {s t : State} (h : Examined s t) (z : Zone) (hq : ¬AppliesAtOnce s z) :
    LinesKept z s.pool t.pool := by
  by_cases hr : s.pool.alloc.get z = .requested
  · exact (h.asked z hr).2.2
  by_cases hs : s.pool.sameSet z = true
  · exact (h.same z hr hs).2.2
  have hs : s.pool.sameSet z = false := by simpa using hs
  by_cases hf : RoomFound s t z
  · exact (h.request z hr hs hf hq).2.1
  · exact (h.noRoom z hr hs hf).2.2

/-- Held changes that a zone applied between two moves of its own, and what the examination makes of them (R61,
R118). -/
theorem heldApplied_of {z : Zone} {s a b c t : State} (hz : (a.zones.get z).held = (s.zones.get z).held)
    (had : a.dec = s.dec) (hab : a.bass = s.bass) (hap : a.pool = s.pool) (h : ChangesApplied z a b)
    (hcd : c.dec = b.dec) (hcb : c.bass = b.bass) (hcp : c.pool = b.pool) (hch : (c.zones.get z).held = .empty)
    (hco : (c.zones.get (otherZone z)).state = (s.zones.get (otherZone z)).state)
    (k : ExaminedFor (s.zones.get z).held c t) : HeldApplied z s t := by
  have td : t.dec = c.dec ∧ t.bass = c.bass := by
    by_cases hd : (s.zones.get z).held.delay = true
    · rw [(k.1 hd).rest]
      exact ⟨rfl, rfl⟩
    · rw [k.2 (by simpa using hd)]
      exact ⟨rfl, rfl⟩
  have hdec := hz ▸ h.decode
  have hnodec := hz ▸ h.noDecode
  have hspk := hz ▸ h.speakers
  have hnospk := hz ▸ h.noSpeakers
  have hdel := hz ▸ h.delay
  have hnodel := hz ▸ h.noDelay
  rw [had] at hdec hnodec
  rw [hab] at hspk hnospk
  rw [hap] at hdel hnodel
  have ed : t.dec = b.dec := td.1.trans hcd
  have eb : t.bass = b.bass := td.2.trans hcb
  -- the pool after the notice and after the examination
  have agree : ∀ d : DelayTaken z s.pool b.pool,
      s.pool.staged.total z + s.pool.active.total (otherZone z) ≤ 65536 → c.pool.sameSet z = true := fun d hr => by
    rw [hcp, sameSet_iff]
    have hst : b.pool.staged = s.pool.staged := by rw [d.rest]
    rw [hst]
    exact ⟨fun ch hc => ((d.room hr).2 ch hc).1.symm, (d.room hr).1.symm⟩
  have settled : ∀ _ : DelayTaken z s.pool b.pool, c.pool.alloc.get z ≠ .requested := fun d => by
    rw [hcp, d.rest]
    simp
  refine ⟨fun hd => ?_, fun hd => ed.trans (hnodec hd), fun hd => ?_, fun hd => eb.trans (hnospk hd), fun hd => ?_,
    fun hd hr => ?_, fun hd hr ho => ?_, fun hd => ?_, ?_⟩
  · rw [ed, hdec hd]
    exact ⟨rfl, rfl, rfl, rfl⟩
  · rw [eb, hspk hd]
    exact ⟨rfl, rfl, rfl⟩
  · have d := hdel hd
    have e := k.1 hd
    refine ⟨?_, fun ch hc x hx => ?_⟩
    · rw [e.rest, hcp, d.rest]
    · by_cases hq : AppliesAtOnce c z ∧ c.pool.sameSet z = false ∧ RoomFound c t z
      · rw [((e.atOnce z (settled d) hq.2.1 hq.2.2 hq.1).2.2.2 ch hc).2] at hx
        exact (List.mem_replicate.mp hx).2
      · have hk : LinesKept z c.pool t.pool := by
          by_cases hs : c.pool.sameSet z = true
          · exact (e.same z (settled d) hs).2.2
          have hs : c.pool.sameSet z = false := by simpa using hs
          by_cases hf : RoomFound c t z
          · exact (e.request z (settled d) hs hf fun hh => hq ⟨hh, hs, hf⟩).2.1
          · exact (e.noRoom z (settled d) hs hf).2.2
        rw [(hk.2 ch hc).2, hcp] at hx
        by_cases hr : s.pool.staged.total z + s.pool.active.total (otherZone z) ≤ 65536
        · rw [((d.room hr).2 ch hc).2] at hx
          exact (List.mem_replicate.mp hx).2
        · rw [((d.noRoom (by omega)).2 ch hc).2] at hx
          exact (List.mem_replicate.mp hx).2
  · have d := hdel hd
    have e := k.1 hd
    obtain ⟨e1, -, e2⟩ := e.same z (settled d) (agree d hr)
    rw [hcp] at e2
    refine ⟨e2.1.trans (d.room hr).1, e1, fun ch hc => ⟨?_, ?_⟩⟩
    · exact (e2.2 ch hc).1.trans ((d.room hr).2 ch hc).1
    · exact (e2.2 ch hc).2.trans ((d.room hr).2 ch hc).2
  · have d := hdel hd
    have e := k.1 hd
    have hno : ¬AppliesAtOnce c (otherZone z) := by
      unfold AppliesAtOnce
      rw [hco]
      exact fun hh => ho hh.2
    have other := examined_kept e (otherZone z) hno
    have hst : t.pool.staged = s.pool.staged := by rw [e.rest, hcp, d.rest]
    have hbt : b.pool.active.total (otherZone z) = s.pool.active.total (otherZone z) :=
      total_congr _ _ _ fun ch hc => (d.other ch (chan_other hc)).1
    have hot : t.pool.active.total (otherZone z) = s.pool.active.total (otherZone z) := by
      rw [← hbt, ← hcp]
      exact total_congr _ _ _ fun ch hc => (other.2 ch hc).1
    have hf : ¬RoomFound c t z := by
      rintro (hh | ⟨hz1, hh⟩)
      · rw [hasRoom_iff, hst, hot] at hh
        omega
      · subst hz1
        rw [hasRoom_iff, hcp, hbt, d.rest] at hh
        simp only at hh
        omega
    have hk : LinesKept z c.pool t.pool := by
      by_cases hs : c.pool.sameSet z = true
      · exact (e.same z (settled d) hs).2.2
      · exact (e.noRoom z (settled d) (by simpa using hs) hf).2.2
    rw [hcp] at hk
    exact ⟨hk.1.trans (d.noRoom hr).1, fun ch hc => (hk.2 ch hc).1.trans ((d.noRoom hr).2 ch hc).1⟩
  · rw [k.2 hd]
    exact hcp.trans (hnodel hd)
  · by_cases hd : (s.zones.get z).held.delay = true
    · rw [(examined_held (k.1 hd) z).1, (examined_held (k.1 hd) z).2, hch]
      exact ⟨rfl, rfl⟩
    · rw [k.2 (by simpa using hd)]
      show (c.zones.get z).held.decode = false ∧ (c.zones.get z).held.speakers = false
      rw [hch]
      exact ⟨rfl, rfl⟩

/-- A zone that loses its source in FADING_OUT or RECONFIGURING applies its held changes (R55, R57). -/
theorem zoneLost_applied {z : Zone} {s t : State} (h : ZoneLost z s t)
    (hs : (s.zones.get z).state ∈ [ZoneState.fadingOut, .reconfiguring]) : HeldApplied z s t := by
  have ho := otherZone_ne z
  have key : ∀ (f : ZoneRec → ZoneRec) (a b c : State), (∀ r : ZoneRec, (f r).held = r.held) → GateClosed z s a →
      ChangesApplied z a b → ZoneMoved z f b c → ExaminedFor (s.zones.get z).held c t → HeldApplied z s t := by
    intro f a b c hf ha hb hc k
    refine heldApplied_of ?_ ?_ ?_ ?_ hb ?_ ?_ ?_ ?_ ?_ k
    · rw [ha.rest]
      simp
    · rw [ha.rest]
    · rw [ha.rest]
    · rw [ha.rest]
    · rw [hc]
    · rw [hc]
    · rw [hc]
    · rw [hc, hb.rest]
      simp [hf]
    · rw [hc, hb.rest, ha.rest]
      simp [PerZone.get_set_ne _ _ _ _ ho]
  simp only [List.mem_cons, List.not_mem_nil, or_false] at hs
  rcases hs with hs | hs
  · obtain ⟨a, b, c, ha, hb, hc, k⟩ := h.faded hs
    refine key _ a b c ?_ ha hb hc k
    intro r
    unfold connectedTo
    dsimp only
    split
    · rfl
    · split <;> rfl
  · obtain ⟨a, b, c, ha, hb, hc, k⟩ := h.reconfigured hs
    exact key waitsAnew a b c (fun _ => rfl) ha hb hc k

/-- The steps say nothing of the marks at their end, so that a command's own marks can follow them. -/
theorem examinedFor_marked {held : HeldChanges} {s t : State} (d : List Rec) (h : ExaminedFor held s t) :
    ExaminedFor held s { t with dirty := d } := by
  refine ⟨fun k => ?_, fun k => ?_⟩
  · have e := h.1 k
    refine ⟨?_, e.asked, e.same, e.noRoom, e.request, e.atOnce⟩
    have := e.rest
    apply State.ext_fields <;> first | rfl | rw [this]
  · rw [h.2 k]

theorem fadeEnded_marked {z : Zone} {s t : State} (d : List Rec) (h : FadeEnded z s t) :
    FadeEnded z s { t with dirty := d } := by
  obtain ⟨a, b, c, ha, hb, hc, hd⟩ := h
  exact ⟨a, b, c, ha, hb, hc, examinedFor_marked d hd⟩

theorem reconfiguringEnded_marked {z : Zone} {s t : State} (d : List Rec) (h : ReconfiguringEnded z s t) :
    ReconfiguringEnded z s { t with dirty := d } := by
  obtain ⟨a, b, c, ha, hb, hc, hd⟩ := h
  exact ⟨a, b, c, ha, hb, hc, examinedFor_marked d hd⟩

/-- After a zone's step the examination changes only zones, the pool and marks. -/
theorem examinedFor_rest {held : HeldChanges} {s t : State} (h : ExaminedFor held s t) :
    t = { s with zones := t.zones, pool := t.pool, dirty := t.dirty } := by
  by_cases hd : held.delay = true
  · rw [(h.1 hd).rest]
  · rw [h.2 (by simpa using hd)]

/-- The marks that stood before a loss say nothing of it. -/
theorem zoneLost_unmarked {z : Zone} {s t : State} (d : List Rec) (h : ZoneLost z s t) :
    ZoneLost z { s with dirty := d } t := by
  have gate : ∀ {a : State}, GateClosed z s a → GateClosed z { s with dirty := d } a := fun g => ⟨g.rest, g.mods⟩
  refine ⟨h.closed, fun hs => ?_, fun hs => ?_, fun hs => ?_⟩
  · obtain ⟨a, ha, hb⟩ := h.played hs
    exact ⟨a, gate ha, hb⟩
  · obtain ⟨a, b, c, ha, rest⟩ := h.faded hs
    exact ⟨a, b, c, gate ha, rest⟩
  · obtain ⟨a, b, c, ha, rest⟩ := h.reconfigured hs
    exact ⟨a, b, c, gate ha, rest⟩

theorem lossTaken_unmarked {src : Source} {z : Zone} {s t : State} (d : List Rec) (h : LossTaken src z s t) :
    LossTaken src z { s with dirty := d } t :=
  ⟨fun hc => zoneLost_unmarked d (h.1 hc), h.2⟩

/-- A loss that closes no gate of a zone changes nothing (R57). -/
theorem lossTaken_same {src : Source} {z : Zone} {s t : State} (h : LossTaken src z s t) (hn : ¬Loses src s z) :
    t = { s with dirty := t.dirty } := by
  by_cases hc : (s.zones.get z).connected = some src
  · apply (h.1 hc).closed
    by_contra hs
    exact hn ⟨hc, hs⟩
  · exact h.2 hc

/-- A module's wound-down report follows the gains and the modules alone. -/
theorem windDowns_congr {s t u : State} (h : WindDowns s t) (hg : u.gain = t.gain) (hm : u.mods = t.mods) :
    WindDowns s u := by
  intro m
  rw [hg, hm]
  exact h m

/-- A loss that closes a zone's gate: its channels stand at -320, and the modules that wind down by it stop (R49,
R57, R93). -/
theorem lossTaken_floors {src : Source} {z : Zone} {s t : State} (h : LossTaken src z s t) (hl : Loses src s z) :
    t.gain = flooredZone z s.gain ∧ WindDowns s t := by
  have k := h.1 hl.1
  have hs := hl.2
  have key : ∀ a b c : State, GateClosed z s a → ChangesApplied z a b →
      (∃ f, ZoneMoved z f b c) → ExaminedFor (s.zones.get z).held c t → t.gain = flooredZone z s.gain ∧ WindDowns s t := by
    rintro a b c ha hb ⟨f, hc⟩ hd
    have hg : t.gain = a.gain := by rw [examinedFor_rest hd, hc, hb.rest]
    have hm : t.mods = a.mods := by rw [examinedFor_rest hd, hc, hb.rest]
    refine ⟨?_, windDowns_congr ha.mods hg hm⟩
    rw [hg, ha.rest]
  cases hq : (s.zones.get z).state with
  | waiting => simp [hq] at hs
  | silent => simp [hq] at hs
  | fadingOut =>
    obtain ⟨a, b, c, ha, hb, hc, hd⟩ := k.faded hq
    exact key a b c ha hb ⟨_, hc⟩ hd
  | reconfiguring =>
    obtain ⟨a, b, c, ha, hb, hc, hd⟩ := k.reconfigured hq
    exact key a b c ha hb ⟨_, hc⟩ hd
  | playing | fadingIn =>
    obtain ⟨a, ha, hb⟩ := k.played (by simp [hq])
    have hg : t.gain = a.gain := by rw [hb]
    have hm : t.mods = a.mods := by rw [hb]
    refine ⟨?_, windDowns_congr ha.mods hg hm⟩
    rw [hg, ha.rest]

/-- A loss by which a zone applies nothing leaves the blocks behind the zones and the other zone as they were
(R57). -/
theorem lossTaken_unapplied {src : Source} {z : Zone} {s t : State} (h : LossTaken src z s t)
    (hn : ¬AppliesOnLoss src s z) :
    t.dec = s.dec ∧ t.bass = s.bass ∧ t.pool = s.pool
      ∧ t.zones.get (otherZone z) = s.zones.get (otherZone z) := by
  have ho := otherZone_ne z
  by_cases hl : Loses src s z
  · have k := h.1 hl.1
    have hs := hl.2
    have key : ∀ (a b c : State) (f : ZoneRec → ZoneRec), (s.zones.get z).held = .empty → GateClosed z s a →
        ChangesApplied z a b → ZoneMoved z f b c → ExaminedFor (s.zones.get z).held c t →
        t.dec = s.dec ∧ t.bass = s.bass ∧ t.pool = s.pool
          ∧ t.zones.get (otherZone z) = s.zones.get (otherZone z) := by
      intro a b c f he ha hb hc hd
      have hh : (a.zones.get z).held = .empty := by
        rw [ha.rest]
        simpa using he
      have e1 := hb.noDecode (by rw [hh]; rfl)
      have e2 := hb.noSpeakers (by rw [hh]; rfl)
      have e3 := hb.noDelay (by rw [hh]; rfl)
      have e4 : t = { c with dirty := t.dirty } := hd.2 (by rw [he]; rfl)
      have a1 : a.dec = s.dec := by rw [ha.rest]
      have a2 : a.bass = s.bass := by rw [ha.rest]
      have a3 : a.pool = s.pool := by rw [ha.rest]
      rw [e4, hc]
      refine ⟨e1.trans a1, e2.trans a2, e3.trans a3, ?_⟩
      rw [hb.rest, ha.rest]
      simp [PerZone.get_set_ne _ _ _ _ ho]
    have empty : (s.zones.get z).state ∈ [ZoneState.fadingOut, .reconfiguring] → (s.zones.get z).held = .empty := by
      intro hq
      by_contra he
      exact hn ⟨hl.1, hq, he⟩
    cases hq : (s.zones.get z).state with
    | waiting => simp [hq] at hs
    | silent => simp [hq] at hs
    | fadingOut =>
      obtain ⟨a, b, c, ha, hb, hc, hd⟩ := k.faded hq
      exact key a b c _ (empty (by simp [hq])) ha hb hc hd
    | reconfiguring =>
      obtain ⟨a, b, c, ha, hb, hc, hd⟩ := k.reconfigured hq
      exact key a b c _ (empty (by simp [hq])) ha hb hc hd
    | playing | fadingIn =>
      obtain ⟨a, ha, hb⟩ := k.played (by simp [hq])
      rw [hb, ha.rest]
      simp [PerZone.get_set_ne _ _ _ _ ho]
  · rw [lossTaken_same h hl]
    exact ⟨rfl, rfl, rfl, rfl⟩

/-- Two losses in turn wind down the modules as one (R93): a channel at -320 stays there. -/
theorem windDowns_trans {s a b : State} (h : WindDowns s a) (k : WindDowns a b)
    (hk : ∀ ch, (a.gain.chans.get ch).applied = gainFloor → (b.gain.chans.get ch).applied = gainFloor) :
    WindDowns s b := by
  intro m
  refine ⟨fun hd => ?_, fun hd => ?_⟩
  · by_cases ha : ∀ ch, chanModule ch = m → (a.gain.chans.get ch).applied = gainFloor
    · have e := (h m).1 ⟨hd.1, hd.2.1, ha⟩
      rw [(k m).2 (by rw [e]; simp), e]
    · have e := (h m).2 fun x => ha x.2.2
      rw [(k m).1 ⟨by rw [e]; exact hd.1, by rw [e]; exact hd.2.1, hd.2.2⟩, e]
  · have e := (h m).2 fun x => hd ⟨x.1, x.2.1, fun ch hc => hk ch (x.2.2 ch hc)⟩
    rw [(k m).2 (by rw [e]; exact hd), e]

/-- Held changes say nothing beyond the zones and the blocks behind them. -/
theorem heldApplied_congr {z : Zone} {s s' t t' : State} (h : HeldApplied z s t) (hz : s'.zones = s.zones)
    (hd : s'.dec = s.dec) (hb : s'.bass = s.bass) (hp : s'.pool = s.pool) (k : SamePaths t t') :
    HeldApplied z s' t' := by
  refine ⟨?_, ?_, ?_, ?_, ?_, ?_, ?_, ?_, ?_⟩ <;> (try rw [hz]) <;> (try rw [k.zones]) <;> (try rw [k.dec]) <;>
    (try rw [k.bass]) <;> (try rw [k.pool]) <;> (try rw [hd]) <;> (try rw [hb]) <;> (try rw [hp])
  · exact h.decode
  · exact h.noDecode
  · exact h.speakers
  · exact h.noSpeakers
  · exact h.delay
  · exact h.room
  · exact h.noRoom
  · exact h.noDelay
  · exact h.taken

/-! ### After master clock failure (R65) -/

/-- The first step of R65. -/
theorem resumeCarrying_spec (z : Zone) (s : State) : StatusTaken z s (resumeCarrying z s) := by
  unfold resumeCarrying actedCarrying
  refine ⟨fun x hc hv hs => ?_, fun x hc hv hs => ?_, fun hb => ?_⟩
  · simp only [hc, hv]
    rw [if_neg (by simp [hs])]
    unfold zoneCarrying
    rw [if_pos hc]
    exact zoneLoss_lost z s
  · simp only [hc, hv, hs]
    rw [if_neg (by simp)]
    unfold zoneCarrying zoneReturn
    rw [if_pos hc, if_pos rfl, if_pos hs]
    exact enterFadeIn_spec z s
  · dsimp only
    cases hc : (s.zones.get z).connected with
    | none => rfl
    | some x =>
      have hn : ¬((s.zones.get z).state = .waiting ↔ s.view.get x = true) := fun h => hb ⟨x, hc, h⟩
      have hv : s.view.get x = ((s.zones.get z).state != .waiting) := by
        by_cases hw : (s.zones.get z).state = .waiting <;> cases hv : s.view.get x <;> simp_all
      simp only [hv, if_true]

/-- The second step of R65. -/
theorem resumeSource_spec (z : Zone) (s : State) : KeptTaken z s (resumeSource z s) := by
  unfold resumeSource
  refine ⟨fun src h => ?_, fun h => ?_⟩
  · rw [h]
    exact sourceAct_spec z src _
  · rw [h]

/-- The third step of R65. -/
theorem resumeHeld_spec (z : Zone) (s : State) : HeldTaken z s (resumeHeld z s) := by
  unfold resumeHeld
  dsimp only
  refine ⟨fun h hs => ?_, fun h hs => ?_, fun h => ?_⟩
  · rw [if_neg h]
    simp only [List.mem_cons, List.not_mem_nil, or_false] at hs
    rcases hs with hs | hs <;> rw [hs] <;> exact moveZone_spec z _ s
  · rw [if_neg h]
    simp only [List.mem_cons, List.not_mem_nil, or_false] at hs
    rcases hs with hs | hs <;> rw [hs] <;> exact ⟨_, applyHeld_spec z s, examineAfter_spec _ _⟩
  · rcases h with h | h
    · rw [if_pos h]
    · split
      · rfl
      · simp only [List.mem_cons, List.not_mem_nil, or_false] at h
        rcases h with h | h <;> rw [h]

/-- The wait limit after the steps of R65 (log 17). -/
theorem checkLimit_spec (z : Zone) (s : State) : LimitTaken z s (checkLimit z s) := by
  unfold checkLimit
  dsimp only
  refine ⟨fun h => ?_, fun h => ?_⟩
  · rw [if_pos (by simp [h.1, h.2.1, h.2.2])]
    apply State.ext_fields <;> simp [limitReached, PerZone.upd, causeMask, causeBit]
  · rw [if_neg (by simpa [and_assoc] using h)]

/-- A zone acts on what it kept (R65). -/
theorem resumeZone_spec (z : Zone) (s : State) : ZoneResumed z s (resumeZone z s) :=
  ⟨_, _, _, resumeCarrying_spec z s, resumeSource_spec z _, resumeHeld_spec z _, checkLimit_spec z _⟩

end Sys2Proof.Machine
end

