-- ==== Sys2Proof/Laws/Memory.lean ====
section
/-! SUPPORT. The laws of memory: read after write, other addresses, the canonical form, and words read
back after words written. -/

set_option autoImplicit false

namespace Sys2Proof.Machine

/-- A read at an address below every listed one gives the fill. -/
theorem Memory.read_below (m : Memory) (lo a : Nat) (h : Memory.wfFrom lo m = true) (ha : a < lo) :
    m.read a = Config.memoryFill := by
  induction m generalizing lo with
  | nil => rfl
  | cons c rest ih =>
    obtain ⟨b, v⟩ := c
    simp only [Memory.wfFrom, Bool.and_eq_true, decide_eq_true_eq] at h
    have hb : b ≠ a := by omega
    simp only [Memory.read, hb, if_false]
    exact ih (b + 1) h.2 (by omega)

/-- A canonical form from an address is one from any lower address. -/
theorem Memory.wfFrom_mono (m : Memory) (lo lo' : Nat) (hle : lo' ≤ lo)
    (h : Memory.wfFrom lo m = true) : Memory.wfFrom lo' m = true := by
  cases m with
  | nil => rfl
  | cons c rest =>
    simp only [Memory.wfFrom, Bool.and_eq_true, decide_eq_true_eq] at h ⊢
    exact ⟨⟨by omega, h.1.2⟩, h.2⟩

/-- Writing one byte keeps the canonical form. -/
theorem Memory.wfFrom_write (m : Memory) (lo a : Nat) (v : Byte) (hle : lo ≤ a)
    (h : Memory.wfFrom lo m = true) : Memory.wfFrom lo (m.write a v) = true := by
  induction m generalizing lo with
  | nil => by_cases hv : v = Config.memoryFill <;> simp [Memory.write, Memory.wfFrom, hv, hle]
  | cons c rest ih =>
    obtain ⟨b, w⟩ := c
    simp only [Memory.wfFrom, Bool.and_eq_true, decide_eq_true_eq] at h
    by_cases h1 : a < b
    · by_cases hv : v = Config.memoryFill
      · simp [Memory.write, Memory.wfFrom, h1, hv, h.1.1, h.2, bne_iff_ne.mp h.1.2]
      · have hab : a + 1 ≤ b := h1
        simp [Memory.write, Memory.wfFrom, h1, hv, hle, h.2, hab, bne_iff_ne.mp h.1.2]
    · by_cases h2 : a = b
      · by_cases hv : v = Config.memoryFill
        · simp only [Memory.write, h2, hv, if_true, if_false, lt_irrefl]
          exact Memory.wfFrom_mono rest (b + 1) lo (by omega) h.2
        · simp [Memory.write, Memory.wfFrom, h2, hv, h.1.1, h.2]
      · simp only [Memory.write, h1, h2, if_false, Memory.wfFrom, Bool.and_eq_true, decide_eq_true_eq]
        exact ⟨h.1, ih (b + 1) (by omega) h.2⟩

/-- Every byte write keeps the canonical form. -/
theorem Memory.wf_write (m : Memory) (a : Nat) (v : Byte) (h : m.wf = true) : (m.write a v).wf = true :=
  Memory.wfFrom_write m 0 a v (Nat.zero_le _) h

/-- A byte written is read back, in any list with rising addresses from `lo`. -/
theorem Memory.read_write_self (m : Memory) (lo a : Nat) (v : Byte) (h : Memory.wfFrom lo m = true) :
    (m.write a v).read a = v := by
  induction m generalizing lo with
  | nil => by_cases hv : v = Config.memoryFill <;> simp [Memory.write, Memory.read, hv]
  | cons c rest ih =>
    obtain ⟨b, w⟩ := c
    have hw := h
    simp only [Memory.wfFrom, Bool.and_eq_true, decide_eq_true_eq] at h
    by_cases h1 : a < b
    · by_cases hv : v = Config.memoryFill
      · have hb : b ≠ a := by omega
        simp only [Memory.write, h1, hv, if_true, Memory.read, hb, if_false]
        exact Memory.read_below rest (b + 1) a h.2 (by omega)
      · simp [Memory.write, Memory.read, h1, hv]
    · by_cases h2 : a = b
      · by_cases hv : v = Config.memoryFill
        · simp only [Memory.write, h2, hv, if_true, if_false, lt_irrefl]
          exact Memory.read_below rest (b + 1) b h.2 (by omega)
        · simp [Memory.write, Memory.read, h2, hv]
      · have hb : b ≠ a := fun e => h2 e.symm
        simp only [Memory.write, h1, h2, if_false, Memory.read, hb]
        exact ih (b + 1) h.2

/-- A byte write leaves every other address alone, in any list. -/
theorem Memory.read_write_ne (m : Memory) (a x : Nat) (v : Byte) (hx : x ≠ a) :
    (m.write a v).read x = m.read x := by
  induction m with
  | nil =>
    by_cases hv : v = Config.memoryFill
    · simp [Memory.write, hv]
    · simp [Memory.write, Memory.read, hv, Ne.symm hx]
  | cons c rest ih =>
    obtain ⟨b, w⟩ := c
    by_cases h1 : a < b
    · by_cases hv : v = Config.memoryFill
      · simp [Memory.write, h1, hv]
      · simp [Memory.write, Memory.read, h1, hv, Ne.symm hx]
    · by_cases h2 : a = b
      · subst h2
        by_cases hv : v = Config.memoryFill <;> simp [Memory.write, Memory.read, hv, Ne.symm hx]
      · simp only [Memory.write, h1, h2, if_false, Memory.read, ih]

/-- A write of the enabled lanes keeps the canonical form. -/
theorem Memory.wf_writeLanes (m : Memory) (a : Nat) (lanes : Lanes) (v : Word) (h : m.wf = true) :
    (m.writeLanes a lanes v).wf = true := by
  unfold Memory.writeLanes
  split <;> split <;> simp [Memory.wf_write, h]

/-- A word write keeps the canonical form. -/
theorem Memory.wf_writeWord (m : Memory) (a : Nat) (v : Word) (h : m.wf = true) :
    (m.writeWord a v).wf = true := Memory.wf_writeLanes m a .full v h

/-- A write of words keeps the canonical form. -/
theorem Memory.wf_writeWords (vs : List Word) (m : Memory) (a : Nat) (h : m.wf = true) :
    (m.writeWords a vs).wf = true := by
  induction vs generalizing m a with
  | nil => exact h
  | cons v vs ih => exact ih _ _ (Memory.wf_writeWord m a v h)

/-- The two bytes after a lane write. -/
theorem Memory.read_writeLanes (m : Memory) (a x : Nat) (lanes : Lanes) (v : Word) (h : m.wf = true) :
    (m.writeLanes a lanes v).read x =
      if lanes.lo = true ∧ x = a then v.extractLsb' 0 8
      else if lanes.hi = true ∧ x = a + 1 then v.extractLsb' 8 8
      else m.read x := by
  have hs : ∀ (n : Memory) (b : Nat) (w : Byte), n.wf = true → (n.write b w).read b = w :=
    fun n b w hn => Memory.read_write_self n 0 b w hn
  unfold Memory.writeLanes
  rcases lanes with ⟨hi, lo⟩
  cases hi <;> cases lo <;> by_cases h0 : x = a <;> by_cases h1 : x = a + 1 <;>
    simp_all [Memory.read_write_ne, Memory.wf_write]

/-- The bytes outside a lane write are untouched, in any list. -/
theorem Memory.read_writeLanes_ne (m : Memory) (a x : Nat) (lanes : Lanes) (v : Word) (h0 : x ≠ a)
    (h1 : x ≠ a + 1) : (m.writeLanes a lanes v).read x = m.read x := by
  unfold Memory.writeLanes
  rcases lanes with ⟨hi, lo⟩
  cases hi <;> cases lo <;> simp [Memory.read_write_ne, h0, h1]

/-- A word is the two bytes it is made of. -/
theorem word_of_bytes (v : Word) : v.extractLsb' 8 8 ++ v.extractLsb' 0 8 = v := by
  apply BitVec.eq_of_getLsbD_eq
  intro i hi
  simp only [BitVec.getLsbD_append, BitVec.getLsbD_extractLsb']
  by_cases h : i < 8
  · simp [h]
  · have : i - 8 < 8 := by omega
    have e : 8 + (i - 8) = i := by omega
    simp [h, this, e]

/-- A word written is read back. -/
theorem Memory.readWord_writeWord (m : Memory) (a : Nat) (v : Word) (h : m.wf = true) :
    (m.writeWord a v).readWord a = v := by
  simp only [Memory.readWord, Memory.writeWord, Memory.read_writeLanes _ _ _ _ _ h, Lanes.full]
  simpa using word_of_bytes v

/-- A word write leaves every byte outside the word alone, in any list. -/
theorem Memory.read_writeWord_ne (m : Memory) (a x : Nat) (v : Word) (h0 : x ≠ a) (h1 : x ≠ a + 1) :
    (m.writeWord a v).read x = m.read x := Memory.read_writeLanes_ne m a x .full v h0 h1

/-- A write of words leaves every byte outside them alone, in any list. -/
theorem Memory.read_writeWords_ne (vs : List Word) (m : Memory) (a x : Nat)
    (h : x < a ∨ a + 2 * vs.length ≤ x) : (m.writeWords a vs).read x = m.read x := by
  induction vs generalizing m a with
  | nil => rfl
  | cons v vs ih =>
    simp only [List.length_cons] at h
    simp only [Memory.writeWords]
    rw [ih (m.writeWord a v) (a + 2) (by omega), Memory.read_writeWord_ne m a x v (by omega) (by omega)]

/-- Reading a word depends on its two bytes alone. -/
theorem Memory.readWord_congr (m n : Memory) (a : Nat) (h0 : m.read a = n.read a)
    (h1 : m.read (a + 1) = n.read (a + 1)) : m.readWord a = n.readWord a := by
  simp [Memory.readWord, h0, h1]

/-- Words written are read back. -/
theorem Memory.readWord_writeWords (vs : List Word) (m : Memory) (a i : Nat) (h : m.wf = true)
    (hi : i < vs.length) : (m.writeWords a vs).readWord (a + 2 * i) = vs[i] := by
  induction vs generalizing m a i with
  | nil => simp at hi
  | cons v vs ih =>
    simp only [Memory.writeWords]
    cases i with
    | zero =>
      simp only [Nat.mul_zero, Nat.add_zero, List.getElem_cons_zero]
      rw [Memory.readWord_congr _ (m.writeWord a v) a
        (Memory.read_writeWords_ne _ _ _ _ (by omega)) (Memory.read_writeWords_ne _ _ _ _ (by omega))]
      exact Memory.readWord_writeWord m a v h
    | succ i =>
      have e : a + 2 * (i + 1) = a + 2 + 2 * i := by omega
      rw [e]
      simpa using ih (m.writeWord a v) (a + 2) i (Memory.wf_writeWord m a v h) (by simpa using hi)

/-- The words read over a range of memory. -/
theorem Memory.readWords_get (n : Nat) (m : Memory) (a i : Nat) (hi : i < n) :
    (m.readWords a n)[i]? = some (m.readWord (a + 2 * i)) := by
  induction n generalizing a i with
  | zero => omega
  | succ n ih =>
    cases i with
    | zero => rfl
    | succ i =>
      have e : a + 2 * (i + 1) = a + 2 + 2 * i := by omega
      simpa [Memory.readWords, e] using ih (a + 2) i (by omega)

/-- As many words are read as asked for. -/
@[simp] theorem Memory.readWords_length (n : Nat) (m : Memory) (a : Nat) : (m.readWords a n).length = n := by
  induction n generalizing a with
  | zero => rfl
  | succ n ih => simp [Memory.readWords, ih]

/-- The reset state's memory is in its canonical form. -/
theorem State.reset_memory_wf : State.reset.mem.wf = true := rfl

end Sys2Proof.Machine
end

