-- ==== Sys2Proof/Laws/Slots.lean ====
section
/-! SUPPORT. The laws of the slot map and of host accesses: offsets name their slots, and what a
one-step host write does at an open port. -/

set_option autoImplicit false

namespace Sys2Proof.Machine

/-! ### The slot map (R192) -/

/-- Every slot is in the list of slots. -/
theorem mem_slots (sl : Slot) : sl ∈ slots := by
  cases sl with
  | source z => cases z <;> decide
  | volume z => cases z <;> decide
  | mute z => cases z <;> decide
  | fadeRate z => cases z <;> decide
  | waitLimit z => cases z <;> decide
  | lipsync z => cases z <;> decide
  | format l => cases l <;> decide
  | srcTrim x => rcases x with (_ | _ | _ | _) | (_ | _) | _ <;> decide
  | desc m d => cases m <;> cases d <;> decide
  | fill m => cases m <;> decide
  | streamCmd m => cases m <;> decide
  | speaker p => cases p <;> decide
  | maxVolume z => cases z <;> decide
  | moduleEn m => cases m <;> decide
  | trim ch => rcases ch with (_ | _ | _ | _ | _ | _ | _ | _ | _ | _) | _ | _ <;> decide
  | dist ch => cases ch <;> decide
  | entry n w =>
    have : ∀ (n : Fin 16) (w : Fin 4), Slot.entry n w ∈ slots := by decide +kernel
    exact this n w
  | _ => decide

/-- No two slots share an offset. -/
theorem slots_offsets_distinct : ∀ sl ∈ slots, slotAt sl.offset = some sl := by
  decide +kernel

/-- A slot's offset names it. -/
@[simp] theorem slotAt_offset (sl : Slot) : slotAt sl.offset = some sl :=
  slots_offsets_distinct sl (mem_slots sl)

/-- Slots lie in the control region, at even offsets. -/
theorem slots_offsets_control : ∀ sl ∈ slots, sl.offset < reportStart ∧ sl.offset % 2 = 0 := by
  decide +kernel

/-- A slot lies in the control region. -/
theorem offset_lt (sl : Slot) : sl.offset < 0x400 := (slots_offsets_control sl (mem_slots sl)).1

/-- A slot's offset is even. -/
theorem offset_even (sl : Slot) : sl.offset % 2 = 0 := (slots_offsets_control sl (mem_slots sl)).2

/-- A slot found at an offset has that offset. -/
theorem slotAt_some (off : Nat) (sl : Slot) (h : slotAt off = some sl) : sl.offset = off := by
  have := List.find?_some h
  simpa using this

/-- A slot is at SETUP_LOCK's offset exactly when it is SETUP_LOCK. -/
theorem offset_setupLock (sl : Slot) : sl.offset = Slot.setupLock.offset ↔ sl = .setupLock := by
  constructor
  · intro h
    have h1 := slotAt_offset sl
    rw [h, slotAt_offset] at h1
    exact (Option.some.inj h1).symm
  · intro h
    rw [h]

/-! ### Addresses (R2) -/

/-- The memory fitted is one of four sizes. -/
theorem fittedBytes_cases (x : Bool × Bool) :
    fittedBytes x = 0x1000000 ∨ fittedBytes x = 0x800000 ∨ fittedBytes x = 0x400000 ∨ fittedBytes x = 0x200000 := by
  rcases x with ⟨_ | _, _ | _⟩ <;> simp [fittedBytes]

/-- The aperture starts at a multiple of 64 KiB below 16 MiB. -/
theorem apertureBase_eq (s : State) : ∃ k, k < 256 ∧ s.apertureBase = 65536 * k := by
  unfold State.apertureBase
  rcases fittedBytes_cases s.strap with e | e | e | e
  · exact ⟨255, by omega, by omega⟩
  · exact ⟨127, by omega, by omega⟩
  · exact ⟨63, by omega, by omega⟩
  · exact ⟨31, by omega, by omega⟩

/-- The aperture ends where the memory fitted ends. -/
theorem apertureBase_add (s : State) : s.apertureBase + 65536 = fittedBytes s.strap := by
  unfold State.apertureBase
  rcases fittedBytes_cases s.strap with e | e | e | e <;> omega

/-- The word that a write row's access addresses. -/
theorem accessAddr_slotAccess (s : State) (off : Nat) (lanes : Lanes) (v : Word) (h : off < 0x10000)
    (he : off % 2 = 0) : accessAddr (slotAccess s off lanes v) = s.apertureBase + off := by
  obtain ⟨k, hk, hb⟩ := apertureBase_eq s
  simp only [accessAddr, slotAccess, BitVec.toNat_ofNat]
  rw [Nat.mod_eq_of_lt (by rw [hb]; omega), hb]
  omega

/-- A write row's access lies in the aperture. -/
theorem accessOffset_slotAccess (s : State) (off : Nat) (lanes : Lanes) (v : Word) (h : off < 0x10000)
    (he : off % 2 = 0) : accessOffset s (slotAccess s off lanes v) = some off := by
  simp only [accessOffset, accessAddr_slotAccess s off lanes v h he]
  rw [if_pos ⟨Nat.le_add_right _ _, by omega⟩]
  simp

/-! ### Accesses carried unchanged (R1) -/

/-- A read changes no byte of memory. -/
theorem rawCarry_read (a : HostAccess) (s : State) (h : a.isWrite = false) : (rawCarry a s).mem = s.mem := by
  unfold rawCarry
  simp only [h, Bool.false_eq_true, if_false]
  (repeat' split) <;> rfl

/-- A read with both lanes of memory fitted returns the word it holds, and changes nothing else. -/
theorem rawCarry_read_eq (a : HostAccess) (s : State) (h : a.isWrite = false) (hl : a.lanes = .full)
    (hf : accessAddr a < fittedBytes s.strap) :
    rawCarry a s = { s with readData := s.mem.readWord (accessAddr a) } := by
  unfold rawCarry
  simp only [h, hl, Bool.false_eq_true, if_false, if_true, Nat.not_le.mpr hf]

/-- The two bytes of a word joined from an upper and a lower one. -/
theorem bytes_of_append (x y : Byte) : (x ++ y).extractLsb' 0 8 = y ∧ (x ++ y).extractLsb' 8 8 = x := by
  constructor
  · apply BitVec.eq_of_getLsbD_eq
    intro i hi
    rw [BitVec.getLsbD_extractLsb', BitVec.getLsbD_append]
    simp [hi]
  · apply BitVec.eq_of_getLsbD_eq
    intro i hi
    rw [BitVec.getLsbD_extractLsb', BitVec.getLsbD_append]
    simp [hi]

/-- The enabled lanes of a read word carry the bytes of the word in memory. -/
theorem readLanes_enabled (draw : Nat) (lanes : Lanes) (w : Word) :
    (lanes.lo = true → (readLanes draw lanes w).extractLsb' 0 8 = w.extractLsb' 0 8)
      ∧ (lanes.hi = true → (readLanes draw lanes w).extractLsb' 8 8 = w.extractLsb' 8 8) := by
  unfold readLanes
  refine ⟨fun h => ?_, fun h => ?_⟩
  · rw [(bytes_of_append _ _).1, if_pos h]
  · rw [(bytes_of_append _ _).2, if_pos h]

/-- The lower byte of a word read from memory is the byte at its address, the upper byte the one above (log 6). -/
theorem readWord_bytes (m : Memory) (a : Nat) :
    (m.readWord a).extractLsb' 0 8 = m.read a ∧ (m.readWord a).extractLsb' 8 8 = m.read (a + 1) :=
  bytes_of_append _ _

/-- A read of memory fitted: every enabled lane carries the byte that memory holds, and beside the word read
and the draw of the other lanes nothing changes. -/
theorem rawCarry_read_lanes (a : HostAccess) (s : State) (h : a.isWrite = false)
    (hf : accessAddr a < fittedBytes s.strap) :
    let t := rawCarry a s
    t = { s with readData := t.readData, free := t.free }
      ∧ (a.lanes.lo = true → t.readData.extractLsb' 0 8 = s.mem.read (accessAddr a))
      ∧ (a.lanes.hi = true → t.readData.extractLsb' 8 8 = s.mem.read (accessAddr a + 1)) := by
  have hw := readWord_bytes s.mem (accessAddr a)
  by_cases hl : a.lanes = .full
  · rw [rawCarry_read_eq a s h hl hf]
    exact ⟨rfl, fun _ => hw.1, fun _ => hw.2⟩
  · have e : rawCarry a s =
        { s with
          readData := readLanes s.free a.lanes (s.mem.readWord (accessAddr a)), free := s.free + 1 } := by
      unfold rawCarry
      simp only [h, hl, Bool.false_eq_true, if_false, Nat.not_le.mpr hf]
    rw [e]
    have hr := readLanes_enabled s.free a.lanes (s.mem.readWord (accessAddr a))
    exact ⟨rfl, fun x => (hr.1 x).trans hw.1, fun x => (hr.2 x).trans hw.2⟩

/-- A write to memory fitted changes its enabled lanes, and nothing else. -/
theorem rawCarry_write_eq (a : HostAccess) (s : State) (h : a.isWrite = true)
    (hf : accessAddr a < fittedBytes s.strap) :
    rawCarry a s = { s with mem := s.mem.writeLanes (accessAddr a) a.lanes a.data } := by
  unfold rawCarry
  simp only [h, if_true, Nat.not_le.mpr hf, if_false]

/-- With RSTN low every access is carried unchanged. -/
theorem hostCarry_low (a : HostAccess) (s : State) (h : s.rstnLow = true) : hostCarry a s = rawCarry a s := by
  simp [hostCarry, h]

/-- A read is carried unchanged. -/
theorem hostCarry_read (a : HostAccess) (s : State) (h : a.isWrite = false) : hostCarry a s = rawCarry a s := by
  simp [hostCarry, h]

/-- A write outside the control region and the report area is carried unchanged (R3). -/
theorem hostCarry_outside (a : HostAccess) (s : State) (h : ∀ off, accessOffset s a = some off → 0x1000 ≤ off) :
    hostCarry a s = rawCarry a s := by
  unfold hostCarry
  split
  · rfl
  · split
    · rfl
    · rename_i off ho
      have h1 := h off ho
      have h2 : slotAt off = none := by
        rw [Option.eq_none_iff_forall_ne_some]
        intro sl hsl
        have := slotAt_some off sl hsl
        have := offset_lt sl
        omega
      have h3 : ¬(reportStart ≤ off ∧ off < reportEnd) := by
        unfold reportEnd
        omega
      have h4 : ¬(off < reportStart ∧ off ≠ Slot.setupLock.offset) := by
        unfold reportStart
        omega
      simp only [judge, h2, h3, if_false, applyVerdict, reportWrite, h4]

/-! ### Quiet publication -/

/-- A record's content depends on its owner's fields alone. -/
theorem recWords_congr (s t : State) (h1 : t.att = s.att) (h2 : t.meas = s.meas) (h3 : t.clock = s.clock)
    (h4 : t.lock = s.lock) (h5 : t.strap = s.strap) (h6 : t.zones = s.zones) (h7 : t.gain = s.gain)
    (h8 : t.pool = s.pool) (h9 : t.dec = s.dec) (h10 : t.sa = s.sa) (h11 : t.ms = s.ms) (h12 : t.tun = s.tun)
    (h13 : t.mods = s.mods) (h14 : t.sd = s.sd) (r : Rec) : recWords s r = recWords t r := by
  cases r with
  | zone z =>
    cases z <;> simp only [recWords, zoneWords, zoneDecodeWords, h6, h7, h8, h9]
  | source x =>
    cases x <;> simp only [recWords, sourceWords, h10, h11, h12]
  | _ =>
    simp only [recWords, deviceWords, attentionWords, streamWords, meterWords, moduleWords, moduleEntryWords,
      entryWords, onDemandWords, tunerWords, summaryWords, nameWords, textWords, afWords, delayWords, h1, h2, h3,
      h4, h5, h7, h8, h11, h12, h13, h14]

/-- Where no record's content changes, nothing is published. -/
theorem publish_quiet (s s' : State) (h : ∀ r, r.isStream = false → recWords s r = recWords s' r) :
    publish s s' = s' := by
  have hn : changedRecords s s' = [] := by
    rw [List.eq_nil_iff_forall_not_mem]
    intro r hr
    rw [mem_changedRecords] at hr
    exact hr.2 (h r hr.1)
  simp [publish, hn, markAll]

/-- Where no field that a record shows changes, nothing is published. -/
theorem publish_same (s t : State) (h1 : t.att = s.att) (h2 : t.meas = s.meas) (h3 : t.clock = s.clock)
    (h4 : t.lock = s.lock) (h5 : t.strap = s.strap) (h6 : t.zones = s.zones) (h7 : t.gain = s.gain)
    (h8 : t.pool = s.pool) (h9 : t.dec = s.dec) (h10 : t.sa = s.sa) (h11 : t.ms = s.ms) (h12 : t.tun = s.tun)
    (h13 : t.mods = s.mods) (h14 : t.sd = s.sd) : publish s t = t :=
  publish_quiet s t fun r _ => recWords_congr s t h1 h2 h3 h4 h5 h6 h7 h8 h9 h10 h11 h12 h13 h14 r

/-- With RSTN high a command's effect is published. -/
theorem act_high (f : State → State) (s : State) (h : s.rstnLow = false) : act f s = .next (publish s (f s)) := by
  simp [act, h]

/-- With RSTN high two acts of one command are published one after the other (R16). -/
theorem actTwice_high (f g : State → State) (s : State) (h : s.rstnLow = false) :
    actTwice f g s = .next (publish (publish s (f s)) (g (publish s (f s)))) := by
  simp [actTwice, h]

/-- With RSTN high a host access's effect is published. -/
theorem access_high (f : State → State) (s : State) (h : s.rstnLow = false) :
    access f s = .next (publish s (f s)) := by
  simp [access, h]

end Sys2Proof.Machine
end

