-- ==== Sys2Proof/Laws/Rows.lean ====
section
/-! SUPPORT. What a write row does at an open port: one lemma for each verdict of the filter, and the
marks and the memory after it. -/

set_option autoImplicit false

namespace Sys2Proof.Machine

/-- A command that is a host write to a slot runs as that slot's row. -/
theorem exec_writeRow (i : Instr) (sl : Slot) (lanes : Lanes) (v : Word) (s : State)
    (h : writeRow i = some (sl, lanes, v)) : exec i s = slotRow sl lanes v s := by
  cases i with
  | slotWrite off l w =>
    simp only [writeRow, Option.map_eq_some_iff] at h
    obtain ⟨x, hx, he⟩ := h
    obtain ⟨rfl, rfl, rfl⟩ := Prod.mk.inj he |>.imp id Prod.mk.inj
    simp only [exec, execSlotWrite, slotRow, slotAt_some _ _ hx]
  | _ => cases h <;> rfl

/-- A report of a write other than to SETUP_LOCK relocks a PENDING lock (R138). -/
theorem reportWrite_offset (sl : Slot) (s : State) :
    reportWrite sl.offset s =
      { s with
        lock := lockAfter s sl s.lock
        agent := { s.agent with queue := queueAfter s sl [] } } := by
  have h1 : sl.offset < reportStart := offset_lt sl
  by_cases hp : s.lock = .pending <;> by_cases hl : sl = .setupLock
  · simp [reportWrite, lockAfter, queueAfter, queueWith, hl]
  · have : sl.offset ≠ Slot.setupLock.offset := fun e => hl ((offset_setupLock sl).mp e)
    rw [reportWrite, if_pos ⟨h1, this⟩, relock, if_pos hp]
    simp [lockAfter, queueAfter, queueWith, requestWriteBack_eq, hp, hl]
  · simp [reportWrite, lockAfter, queueAfter, queueWith, hl]
  · have : sl.offset ≠ Slot.setupLock.offset := fun e => hl ((offset_setupLock sl).mp e)
    simp [reportWrite, h1, this, relock, hp, lockAfter, queueAfter, queueWith]

@[simp] theorem slotAccess_isWrite (s : State) (off : Nat) (lanes : Lanes) (v : Word) :
    (slotAccess s off lanes v).isWrite = true := rfl

@[simp] theorem slotAccess_lanes (s : State) (off : Nat) (lanes : Lanes) (v : Word) :
    (slotAccess s off lanes v).lanes = lanes := rfl

@[simp] theorem slotAccess_data (s : State) (off : Nat) (lanes : Lanes) (v : Word) :
    (slotAccess s off lanes v).data = v := rfl

/-- At an open port a write row carries its access in one step. -/
theorem slotRow_open (sl : Slot) (lanes : Lanes) (v : Word) (s : State) (h : PortOpen s) :
    slotRow sl lanes v s =
      .next (publish s (updAgent (fun g => { g with port := .free, lastPart := false })
        (applyVerdict (slotAccess s sl.offset lanes v) sl.offset (judgeSlot s sl lanes v)
          (reportWrite sl.offset s)))) := by
  obtain ⟨h1, h2, h3, h4, h5⟩ := h
  have ho := accessOffset_slotAccess s sl.offset lanes v (by have := offset_lt sl; omega) (offset_even sl)
  have hb : hostBusy s = false := by simp [hostBusy, h2, h3]
  have hr : restoreHolds s (slotAccess s sl.offset lanes v) = false := by simp [restoreHolds, h4]
  have hw : hostWrite sl.offset lanes v s = takePort (slotAccess s sl.offset lanes v) true s := by
    unfold hostWrite offerAccess
    simp only [hb, h1, hr, h2, h5, Bool.false_eq_true, if_false]
  have hc : hostCarry (slotAccess s sl.offset lanes v) s =
      applyVerdict (slotAccess s sl.offset lanes v) sl.offset (judgeSlot s sl lanes v)
        (reportWrite sl.offset s) := by
    unfold hostCarry
    rw [ho]
    simp only [h1, slotAccess_isWrite, Bool.not_true, Bool.or_self, Bool.false_eq_true, if_false,
      slotAccess_lanes, slotAccess_data, judge, slotAt_offset]
  simp only [slotRow, access, h1, Bool.false_eq_true, if_false, hw, takePort, if_true, hc]

/-- A blocked write at an open port (R7). -/
theorem slotRow_blocked (sl : Slot) (lanes : Lanes) (v : Word) (r : BlockReason) (s : State) (h : PortOpen s)
    (hj : judgeSlot s sl lanes v = .blocked r) :
    slotRow sl lanes v s =
      .next (publish s (updAgent (fun g => { g with port := .free, lastPart := false })
        (blockWrite sl.offset r (reportWrite sl.offset s)))) := by
  rw [slotRow_open sl lanes v s h, hj]
  rfl

/-- A write that passes the filter at an open port (R8). -/
theorem slotRow_arrives (sl : Slot) (lanes : Lanes) (v w : Word) (s : State) (h : PortOpen s)
    (hj : judgeSlot s sl lanes v = .arrives sl w) :
    slotRow sl lanes v s =
      .next (publish s (updAgent (fun g => { g with port := .free, lastPart := false })
        (arrive sl w { reportWrite sl.offset s with mem := s.mem.writeWord (slotAddr s sl) w }))) := by
  have ha := accessAddr_slotAccess s sl.offset lanes v (by have := offset_lt sl; omega) (offset_even sl)
  rw [slotRow_open sl lanes v s h, hj]
  simp only [applyVerdict, ha, reportWrite_fields, slotAddr]

/-- The word and the other bytes after a slot's word is written. -/
theorem slot_word_written (s : State) (sl : Slot) (w : Word) (hm : MemoryCanonical s) :
    (s.mem.writeWord (slotAddr s sl) w).readWord (slotAddr s sl) = w :=
  Memory.readWord_writeWord s.mem _ w hm

/-- A row that passes the filter gives the state of its owner's action, where that action does not
touch memory, the port, the lock or the station data decoder: the general form of a taken write. -/
theorem writeTaken_of_arrive (sl : Slot) (lanes : Lanes) (v w : Word) (reqs : List Slot) (always : List Rec)
    (s u : State) (h : PortOpen s) (hm : MemoryCanonical s)
    (hj : judgeSlot s sl lanes v = .arrives sl w)
    (ha : ∀ x : State, x = { reportWrite sl.offset s with mem := s.mem.writeWord (slotAddr s sl) w } →
      arrive sl w x = { u with
        mem := x.mem, lock := lockAfter s sl u.lock, dirty := (arrive sl w x).dirty,
        agent := { u.agent with queue := queueAfter s sl reqs } })
    (hu : u.agent = s.agent) (hsd : u.sd = s.sd)
    (hd : ∀ x : State, x = { reportWrite sl.offset s with mem := s.mem.writeWord (slotAddr s sl) w } →
      ∀ r, r ∈ (arrive sl w x).dirty ↔ r ∈ s.dirty ∨ r ∈ always) :
    ∃ t, slotRow sl lanes v s = .next t ∧ WriteTaken sl w reqs always s u t := by
  refine ⟨_, slotRow_arrives sl lanes v w s h hj, ?_⟩
  set x : State := { reportWrite sl.offset s with mem := s.mem.writeWord (slotAddr s sl) w } with hx
  have hax := ha x hx
  have hdx := hd x hx
  set y := arrive sl w x with hy
  set z := updAgent (fun g => { g with port := .free, lastPart := false }) y with hz
  have hzsd : z.sd = s.sd := by
    rw [hz, updAgent_sd, hax]
    exact hsd
  have hp : publish s z = { z with dirty := (publish s z).dirty } := by
    have e := publish_eq s z
    rw [publish_att s z hzsd] at e
    exact e
  have hzm : z.mem = s.mem.writeWord (slotAddr s sl) w := by
    rw [hz, updAgent_mem, hax]
  refine ⟨?_, ?_, ?_, ?_⟩
  · rw [hp]
    rw [hz, hax]
    simp only [updAgent, h.free, hu]
  · intro r
    rw [mem_publish_dirty s z hzsd]
    rw [show z.dirty = y.dirty from rfl, hdx r]
    tauto
  · rw [hp]
    show z.mem.readWord _ = w
    rw [hzm]
    exact slot_word_written s sl w hm
  · intro a h0 h1
    rw [hp]
    show z.mem.read a = _
    rw [hzm]
    exact Memory.read_writeWord_ne s.mem _ a w h0 h1

/-- A taken write whose owner's action is an update `f` of the state it finds: what is left to show is
what that update makes of the reported state. -/
theorem writeTaken_of_update (sl : Slot) (lanes : Lanes) (v w : Word) (s u : State) (h : PortOpen s)
    (hm : MemoryCanonical s) (hj : judgeSlot s sl lanes v = .arrives sl w)
    (ha : ∀ (m : Memory) (q : List Slot) (l : SetupLock),
      arrive sl w { s with mem := m, lock := l, agent := { s.agent with queue := q } } =
        { u with mem := m, lock := l, agent := { u.agent with queue := q } })
    (hu : u.agent = s.agent) (hl : u.lock = s.lock) (hsd : u.sd = s.sd) (hd : u.dirty = s.dirty) :
    ∃ t, slotRow sl lanes v s = .next t ∧ WriteTaken sl w [] [] s u t := by
  refine writeTaken_of_arrive sl lanes v w [] [] s u h hm hj ?_ hu hsd ?_
  · intro x hx
    rw [reportWrite_offset] at hx
    subst hx
    rw [ha, hl]
  · intro x hx r
    rw [reportWrite_offset] at hx
    subst hx
    rw [ha]
    simp [hd]

/-- A block marks the attention record and no other (R7). -/
theorem mem_blockWrite_dirty (off : Nat) (r : BlockReason) (s : State) (x : Rec) :
    x ∈ (blockWrite off r s).dirty ↔ x ∈ s.dirty ∨ x ∈ [Rec.attention] := by
  unfold blockWrite
  rw [mem_raise_dirty, markDirty_dirty, mem_insertRec, List.mem_singleton]
  tauto

/-- What a blocked write leaves at an open port (R7). -/
theorem writeBlocked_row (sl : Slot) (lanes : Lanes) (v : Word) (r : BlockReason) (s : State) (h : PortOpen s)
    (hj : judgeSlot s sl lanes v = .blocked r) :
    ∃ t, slotRow sl lanes v s = .next t ∧ WriteBlocked sl r s t := by
  refine ⟨_, slotRow_blocked sl lanes v r s h hj, ?_⟩
  have hp := publish_eq s (updAgent (fun g => { g with port := .free, lastPart := false })
    (blockWrite sl.offset r (reportWrite sl.offset s)))
  rw [publish_att _ _ (by simp)] at hp
  refine ⟨?_, ?_, ?_⟩
  · rw [hp]
    apply State.ext_fields <;> simp [blockWrite, reportWrite_offset, h.free, causeMask, causeBit]
  · intro x
    rw [mem_publish_dirty _ _ (by simp)]
    rw [updAgent_dirty, mem_blockWrite_dirty, (reportWrite_fields _ _).2.2.2.2.2.2.1, or_assoc]
  · intro a
    rw [hp]
    simp

/-- A partial write is blocked (R5, check 2). -/
theorem judgeSlot_partial (s : State) (sl : Slot) (lanes : Lanes) (v : Word) (h : lanes ≠ .full) :
    judgeSlot s sl lanes v = .blocked .partialWrite := by
  rw [judgeSlot, if_pos h]

/-- A full write to a lockable slot is blocked unless the lock is UNLOCKED (R5, check 3). -/
theorem judgeSlot_locked (s : State) (sl : Slot) (v : Word) (h1 : sl.isLockable = true)
    (h2 : s.lock ≠ .unlocked) : judgeSlot s sl .full v = .blocked .locked := by
  have : (s.lock != .unlocked) = true := by simpa using h2
  simp [judgeSlot, h1, this]

/-- A word among a slot's values is carried. -/
theorem members_mem (ns : List Nat) (v : Word) (h : v.toNat ∈ ns) : members ns v = some v := if_pos h

/-- A numeric slot carries the nearer bound of its range (R190). -/
theorem ranged_eq (lo hi : Nat) (v : Word) (h : lo ≤ hi) :
    ranged lo hi v = some (BitVec.ofNat 16 (max lo (min hi v.toNat))) := by
  have : clampNat lo hi v.toNat = max lo (min hi v.toNat) := by unfold clampNat; grind
  rw [ranged, this]
  rfl

/-- A level slot carries the nearer bound of its range (R190). -/
theorem levelRanged_eq (lo hi : Int) (v : Word) (h : lo ≤ hi) :
    levelRanged lo hi v = some (BitVec.ofInt 16 (max lo (min hi v.toInt))) := by
  have : clampInt lo hi v.toInt = max lo (min hi v.toInt) := by unfold clampInt; grind
  rw [levelRanged, this]
  rfl

/-- A word that no check blocks is carried as its slot's row says (R6, R80, R81). -/
theorem filterValue_of_not_blocked (s : State) (sl : Slot) (v : Word)
    (hg : ∀ z, gainFloor ≤ (s.gain.zones.get z).maxVolume) (h : ¬valueBlocked s sl v) :
    filterValue s sl v = some (carriedWord s sl v) := by
  cases sl with
  | entry n k =>
    match k with
    | 0 =>
      simp only [valueBlocked, not_or, not_not, ne_eq, not_lt] at h
      exact if_pos ⟨h.1, by simp [field]; omega, by simp [field]; omega, by simp [field]; omega⟩
    | 1 | 2 => exact ranged_eq 0 1023 v (by omega)
    | 3 =>
      simp only [valueBlocked, not_or, not_not, ne_eq, not_lt] at h
      exact if_pos ⟨h.1, by simp [field]; omega, by simp [field]; omega, by simp [field]; omega⟩
  | desc m d =>
    cases d <;> simp only [valueBlocked, not_and, not_lt, not_not] at h
    case size => exact ranged_eq 64 65535 v (by omega)
    case baseLo => exact if_neg h
    case baseHi => exact if_pos h
    all_goals exact members_mem _ _ (by simp; omega)
  | speaker p =>
    cases p <;> simp only [valueBlocked, not_lt] at h
    case frontSize =>
      simp only [filterValue, filterSpeaker, carriedWord]
      rw [members_mem [0, 1] v (by simp; omega)]
      cases s.bass.staged.subPresent <;> rfl
    case back =>
      simp only [filterValue, filterSpeaker, carriedWord]
      rw [members_mem [0, 1, 2] v (by simp; omega)]
      rfl
    all_goals exact members_mem _ _ (by simp; omega)
  | attnEnable => exact if_pos (not_not.mp h)
  | attnAck => exact if_pos (not_not.mp h)
  | fill m => exact if_pos (not_le.mp h)
  | knobZone | source _ | mute _ | moduleEn _ | format _ | region | band | afFollow | fadeRate _ | decodeMode
  | steerSpeed =>
    simp only [valueBlocked, not_and, not_lt, not_not] at h
    exact members_mem _ _ (by simp; omega)
  | knobStep | waitLimit _ | lipsync _ | dist _ | seqLen | code | seekThr | blendThr | afThr | feDivisor =>
    exact ranged_eq _ _ v (by omega)
  | volume z => exact levelRanged_eq _ _ v (hg z)
  | srcTrim _ | trim _ | maxVolume _ => exact levelRanged_eq _ _ v (by omega)
  | systemCmd | streamCmd _ | moduleCmd | measureCmd | tunerCmd | setupLock => rfl

/-- A full write that no earlier check blocks goes by its value (R5, checks 5 to 7). -/
theorem judgeSlot_value (s : State) (sl : Slot) (v : Word) (h1 : sl.isLockable = true → s.lock = .unlocked)
    (h2 : stateForbids s sl = false) :
    judgeSlot s sl .full v =
      match filterValue s sl v with
      | some w => .arrives sl w
      | none => .blocked .value := by
  have : (sl.isLockable && (s.lock != .unlocked)) = false := by
    cases hl : sl.isLockable
    · rfl
    · simp [h1 hl]
  rw [judgeSlot, if_neg fun h => h rfl, this, h2]
  rfl

/-- A full write that passes the filter arrives with the word that the filter carries. -/
theorem judgeSlot_arrives (s : State) (sl : Slot) (v w : Word) (h1 : sl.isLockable = true → s.lock = .unlocked)
    (h2 : stateForbids s sl = false) (h3 : filterValue s sl v = some w) :
    judgeSlot s sl .full v = .arrives sl w := by
  rw [judgeSlot_value s sl v h1 h2, h3]

/-! ### Marks before publication -/

/-- The marks an effect sets itself, before publication: those that stood, those of `always`, and the
attention record where the pending set changes. -/
structure SetsMarks (always : List Rec) (s y : State) : Prop where
  only : ∀ r ∈ y.dirty, r ∈ s.dirty ∨ r ∈ always ∨ (r.isStream = false ∧ recWords s r ≠ recWords y r)
  keeps : ∀ r ∈ s.dirty, r ∈ y.dirty
  sets : ∀ r ∈ always, r ∈ y.dirty

/-- An effect that sets no marks. -/
theorem SetsMarks.same (s y : State) (h : y.dirty = s.dirty) : SetsMarks [] s y :=
  ⟨fun r hr => Or.inl (h ▸ hr), fun r hr => h ▸ hr, by simp⟩

/-- An effect that marks given records. -/
theorem SetsMarks.marks (always : List Rec) (s y : State) (h : ∀ r, r ∈ y.dirty ↔ r ∈ s.dirty ∨ r ∈ always) :
    SetsMarks always s y :=
  ⟨fun r hr => ((h r).mp hr).imp_right Or.inl, fun r hr => (h r).mpr (Or.inl hr),
    fun r hr => (h r).mpr (Or.inr hr)⟩

/-- An effect that raises a cause over another effect's marks. -/
theorem SetsMarks.raised (always : List Rec) (s y z : State) (c : Cause)
    (h : ∀ r, r ∈ y.dirty ↔ r ∈ s.dirty ∨ r ∈ always) (ha : y.att = s.att) (hz : z.dirty = (raise c y).dirty)
    (hza : z.att = (raise c y).att) : SetsMarks always s z := by
  refine ⟨?_, ?_, ?_⟩
  · intro r hr
    rw [hz, mem_raise_dirty, h r] at hr
    rcases hr with (hr | hr) | ⟨rfl, hb⟩
    · exact Or.inl hr
    · exact Or.inr (Or.inl hr)
    · refine Or.inr (Or.inr ⟨rfl, ?_⟩)
      simp only [recWords, attentionWords, hza, raise_att]
      intro e
      simp only [List.cons.injEq, and_true] at e
      have h1 := e.1
      rw [ha] at h1 hb
      rw [h1] at hb
      have := congrArg (fun x : Word => x.getLsbD (causeBit c)) hb
      cases c <;> simp [causeMask, causeBit] at this
  · intro r hr
    rw [hz, mem_raise_dirty, h r]
    exact Or.inl (Or.inl hr)
  · intro r hr
    rw [hz, mem_raise_dirty, h r]
    exact Or.inl (Or.inr hr)

/-- Marks are exact after publication, where the step does not take STATION from the pending set. -/
theorem SetsMarks.exact (always : List Rec) (s y : State) (h : SetsMarks always s y)
    (hst : s.att.pending &&& causeMask .station ≠ 0 → y.att.pending &&& causeMask .station ≠ 0) :
    MarksExactly always s (publish s y) := by
  intro r
  rw [publish_exact s y hst]
  constructor
  · rintro (hr | hr)
    · rcases h.only r hr with h1 | h1 | ⟨h1, h2⟩
      · exact Or.inl h1
      · exact Or.inr (Or.inl h1)
      · have := (publish_exact s y hst r).mp (dirty_mem_publish s y r hr)
        by_cases hd : recWords s r = recWords (publish s y) r
        · exfalso
          by_cases ha : r = .attention
          · subst ha
            have hk := publish_att_eq s y
            simp only [recWords, attentionWords, ne_eq, List.cons.injEq, and_true] at hd h2
            split at hk
            · rw [hk] at hd
              have hb : s.att.pending &&& causeMask .station ≠ 0 := by
                rw [hd.1]
                intro hz
                have := congrArg (fun x : Word => x.getLsbD 9) hz
                simp [causeMask, causeBit] at this
              have := or_of_and_bit y.att.pending 9 (by decide) (hst hb)
              apply h2
              exact ⟨hd.1.trans this, hd.2⟩
            · rw [hk] at hd
              exact h2 hd
          · rw [publish_eq, recWords_att_dirty y _ _ r ha] at hd
            exact h2 hd
        · exact Or.inr (Or.inr ⟨h1, hd⟩)
    · exact Or.inr (Or.inr hr)
  · rintro (hr | hr | hr)
    · exact Or.inl (h.keeps r hr)
    · exact Or.inl (h.sets r hr)
    · exact Or.inr hr

/-- Exact marks lie between: what the step always marks holds the least, and the rest of it is what the step's
course may mark. -/
theorem marksBetween_of_exactly {always perhaps marked : List Rec} {s t : State} (h : MarksExactly marked s t)
    (hl : ∀ r ∈ always, r ∈ marked) (hm : ∀ r ∈ marked, r ∈ always ∨ r ∈ perhaps) :
    MarksBetween always perhaps s t where
  least r hr := (h r).mpr (hr.imp_right (Or.imp_left (hl r)))
  most r hr := by
    rcases (h r).mp hr with h1 | h1 | h1
    · exact Or.inl h1
    · exact Or.inr ((hm r h1).imp_right Or.inl)
    · exact Or.inr (Or.inr (Or.inr h1))

/-- A taken write in its most general form, where the owner's action may change the memory agent: the owner's action on the reported state gives `u` but for the
marks and the attention state, which are those after publication. -/
theorem writeTaken_port (sl : Slot) (lanes : Lanes) (v w : Word) (reqs : List Slot) (always : List Rec)
    (s u : State) (h : PortOpen s) (hm : MemoryCanonical s) (hj : judgeSlot s sl lanes v = .arrives sl w)
    (x y : State)
    (hx : x = { s with
      mem := s.mem.writeWord (slotAddr s sl) w, lock := lockAfter s sl s.lock,
      agent := { s.agent with queue := queueAfter s sl [] } })
    (hy : y = arrive sl w x)
    (hyu : y = { u with
      mem := x.mem, lock := lockAfter s sl u.lock, dirty := y.dirty, att := y.att,
      agent := { u.agent with queue := queueAfter s sl reqs } })
    (hu : u.agent.port = .free) (hau : u.att = (publish s y).att) (hd : SetsMarks always s y)
    (hst : s.att.pending &&& causeMask .station ≠ 0 → y.att.pending &&& causeMask .station ≠ 0) :
    slotRow sl lanes v s =
        .next (publish s (updAgent (fun g => { g with port := .free, lastPart := false }) y))
      ∧ WriteTaken sl w reqs always s u
        (publish s (updAgent (fun g => { g with port := .free, lastPart := false }) y)) := by
  have hs := slotRow_arrives sl lanes v w s h hj
  have hxx : ({ reportWrite sl.offset s with mem := s.mem.writeWord (slotAddr s sl) w } : State) = x := by
    rw [reportWrite_offset, hx]
  rw [hxx, ← hy] at hs
  refine ⟨hs, ?_⟩
  set z := updAgent (fun g => { g with port := .free, lastPart := false }) y with hz
  have hzr : ∀ r, recWords z r = recWords y r := fun r =>
    (recWords_congr y z rfl rfl rfl rfl rfl rfl rfl rfl rfl rfl rfl rfl rfl rfl r).symm
  have hzd : SetsMarks always s z :=
    ⟨fun r hr => by rw [hzr]; exact hd.only r hr, hd.keeps, hd.sets⟩
  have hch : changedRecords s z = changedRecords s y := by
    unfold changedRecords
    apply List.filter_congr
    intro r _
    rw [hzr]
  have hza : (publish s z).att = (publish s y).att := by
    rw [publish_att_eq, publish_att_eq, hch]
    rfl
  have hzm : z.mem = s.mem.writeWord (slotAddr s sl) w := by
    rw [hz, updAgent_mem, hyu, hx]
  refine ⟨?_, hzd.exact always s z hst, ?_, ?_⟩
  · have hp := publish_eq s z
    rw [hza, ← hau] at hp
    rw [hp]
    rw [hz, hyu]
    simp only [updAgent, hu]
  · rw [publish_eq]
    simp only [hzm]
    exact slot_word_written s sl w hm
  · intro a h0 h1
    rw [publish_eq]
    simp only [hzm]
    exact Memory.read_writeWord_ne s.mem _ a w h0 h1

/-- A taken write in its general form: the owner's action on the reported state gives `u` but for the
marks and the attention state, which are those after publication. -/
theorem writeTaken_general (sl : Slot) (lanes : Lanes) (v w : Word) (reqs : List Slot) (always : List Rec)
    (s u : State) (h : PortOpen s) (hm : MemoryCanonical s) (hj : judgeSlot s sl lanes v = .arrives sl w)
    (x y : State)
    (hx : x = { s with
      mem := s.mem.writeWord (slotAddr s sl) w, lock := lockAfter s sl s.lock,
      agent := { s.agent with queue := queueAfter s sl [] } })
    (hy : y = arrive sl w x)
    (hyu : y = { u with
      mem := x.mem, lock := lockAfter s sl u.lock, dirty := y.dirty, att := y.att,
      agent := { u.agent with queue := queueAfter s sl reqs } })
    (hu : u.agent = s.agent) (hau : u.att = (publish s y).att) (hd : SetsMarks always s y)
    (hst : s.att.pending &&& causeMask .station ≠ 0 → y.att.pending &&& causeMask .station ≠ 0) :
    slotRow sl lanes v s =
        .next (publish s (updAgent (fun g => { g with port := .free, lastPart := false }) y))
      ∧ WriteTaken sl w reqs always s u
        (publish s (updAgent (fun g => { g with port := .free, lastPart := false }) y)) :=
  writeTaken_port sl lanes v w reqs always s u h hm hj x y hx hy hyu (by rw [hu, h.free]) hau hd hst

/-- A taken write whose owner leaves the station data decoder as it is. -/
theorem writeTaken_sameStation (sl : Slot) (lanes : Lanes) (v w : Word) (reqs : List Slot) (always : List Rec)
    (s u : State) (h : PortOpen s) (hm : MemoryCanonical s) (hj : judgeSlot s sl lanes v = .arrives sl w)
    (x y : State)
    (hx : x = { s with
      mem := s.mem.writeWord (slotAddr s sl) w, lock := lockAfter s sl s.lock,
      agent := { s.agent with queue := queueAfter s sl [] } })
    (hy : y = arrive sl w x)
    (hyu : y = { u with
      mem := x.mem, lock := lockAfter s sl u.lock, dirty := y.dirty,
      agent := { u.agent with queue := queueAfter s sl reqs } })
    (hu : u.agent = s.agent) (hsd : u.sd = s.sd) (hd : SetsMarks always s y)
    (hst : s.att.pending &&& causeMask .station ≠ 0 → u.att.pending &&& causeMask .station ≠ 0) :
    ∃ t, slotRow sl lanes v s = .next t ∧ WriteTaken sl w reqs always s u t := by
  have hya : y.att = u.att := by rw [hyu]
  have hys : y.sd = s.sd := by
    rw [hyu]
    exact hsd
  exact ⟨_, writeTaken_general sl lanes v w reqs always s u h hm hj x y hx hy
    (by rw [hya]; exact hyu) hu (by rw [publish_att s y hys, hya]) hd (by rw [hya]; exact hst)⟩

/-- A command of the part's own, in its general form. -/
theorem ownStep_general (f : State → State) (always : List Rec) (s u : State) (h : s.rstnLow = false)
    (hy : f s = { u with dirty := (f s).dirty, att := (f s).att }) (hau : u.att = (publish s (f s)).att)
    (hmem : u.mem = s.mem) (hd : SetsMarks always s (f s))
    (hst : s.att.pending &&& causeMask .station ≠ 0 → (f s).att.pending &&& causeMask .station ≠ 0) :
    act f s = .next (publish s (f s)) ∧ OwnStep always s u (publish s (f s)) := by
  refine ⟨act_high f s h, ?_, hd.exact always s _ hst, ?_⟩
  · have hp := publish_eq s (f s)
    rw [← hau] at hp
    rw [hp, hy]
  · intro a
    have hm : (f s).mem = s.mem := by rw [hy, hmem]
    rw [publish_eq]
    simp only [hm]

/-- A command of the part's own that leaves the station data decoder as it is. -/
theorem ownStep_sameStation (f : State → State) (always : List Rec) (s u : State) (h : s.rstnLow = false)
    (hy : f s = { u with dirty := (f s).dirty }) (hmem : u.mem = s.mem) (hsd : u.sd = s.sd)
    (hd : SetsMarks always s (f s))
    (hst : s.att.pending &&& causeMask .station ≠ 0 → u.att.pending &&& causeMask .station ≠ 0) :
    ∃ t, act f s = .next t ∧ OwnStep always s u t := by
  have hya : (f s).att = u.att := by rw [hy]
  have hys : (f s).sd = s.sd := by
    rw [hy]
    exact hsd
  exact ⟨_, ownStep_general f always s u h (by rw [hya]; exact hy) (by rw [publish_att s _ hys, hya]) hmem hd
    (by rw [hya]; exact hst)⟩

end Sys2Proof.Machine
end

