-- ==== Sys2Proof/Laws/Carrying.lean ====
section
/-! SUPPORT. What a carrying event does to the zones, the gains and the attention state (R26, R48, R57,
R58). -/

set_option autoImplicit false

namespace Sys2Proof.Machine

/-- A carrying event of a stopped zone switch changes the view, the pending causes and the marks. -/
theorem carryingEvent_stopped (src : Source) (on : Bool) (s : State) (h : s.audioRuns = false) :
    carryingEvent src on s = markDirty (.source src) (raise .source { s with view := s.view.set src on }) := by
  unfold carryingEvent
  simp [h]

/-- A carrying event makes SOURCE pending, whatever the zones do (R26). -/
theorem carryingEvent_att (src : Source) (on : Bool) (s : State) :
    (carryingEvent src on s).att = { s.att with pending := s.att.pending ||| 0x0002#16 } := by
  unfold carryingEvent
  dsimp only
  split <;> simp [causeMask, causeBit]

/-- The zone switch's view follows a carrying event (R48). -/
theorem carryingEvent_view (src : Source) (on : Bool) (s : State) :
    (carryingEvent src on s).view = s.view.set src on := by
  unfold carryingEvent
  dsimp only
  split <;> simp

/-- A zone acts on the loss of a source only when it is connected to it. -/
theorem zoneCarrying_lost (z : Zone) (src : Source) (s : State) :
    zoneCarrying z src false s = if (s.zones.get z).connected = some src then zoneLoss z s else s := rfl

/-- A lost source, as the zones take it (R57). -/
theorem carryingEvent_lost (src : Source) (s : State) (h : s.audioRuns = true) :
    CarryingLost src s (carryingEvent src false s) := by
  have hv := carryingEvent_view src false s
  set x := markDirty (.source src) (raise .source { s with view := s.view.set src false }) with hx
  have hxz : x.zones = s.zones := by simp [hx]
  have hxg : x.gain = s.gain := by simp [hx]
  have hxv : x.view = s.view.set src false := by simp [hx]
  have he : carryingEvent src false s = zoneCarrying .z2 src false (zoneCarrying .z1 src false x) := by
    unfold carryingEvent
    rw [if_pos h]
  set y := zoneCarrying .z1 src false x with hy
  have hyv : y.view = x.view := by simp [hy]
  -- what one zone's step does, connected or not
  have step : ∀ (z : Zone) (a : State), (a.zones.get z).connected = some src ∧ LossStep z a (zoneCarrying z src false a)
      ∨ (a.zones.get z).connected ≠ some src ∧ zoneCarrying z src false a = a := by
    intro z a
    by_cases hc : (a.zones.get z).connected = some src
    · left
      rw [zoneCarrying_lost, if_pos hc]
      exact ⟨hc, zoneLoss_spec z a⟩
    · right
      rw [zoneCarrying_lost, if_neg hc]
      exact ⟨hc, rfl⟩
  -- the whole event as the two steps, seen from one zone: before its step, its step, after it
  have key : ∀ z, ∃ a b : State, b = zoneCarrying z src false a ∧ a.view = s.view.set src false
      ∧ Held (s.zones.get z) (a.zones.get z)
      ∧ Held (b.zones.get z) ((carryingEvent src false s).zones.get z)
      ∧ (∀ ch, chanZone ch = z → a.gain.chans.get ch = s.gain.chans.get ch)
      ∧ (∀ ch, chanZone ch = z → (carryingEvent src false s).gain.chans.get ch = b.gain.chans.get ch) := by
    have gains : ∀ (z : Zone) (a : State) (ch : Chan), chanZone ch ≠ z →
        (zoneCarrying z src false a).gain.chans.get ch = a.gain.chans.get ch := by
      intro z a ch hne
      rcases step z a with ⟨-, hl⟩ | ⟨-, e⟩
      · by_cases hq : (a.zones.get z).state ≠ .waiting ∧ (a.zones.get z).state ≠ .silent
        · rw [hl.floored hq, if_neg hne]
        · rw [hl.closed (by tauto)]
      · rw [e]
    have helds : ∀ (z z' : Zone) (a : State), z' ≠ z →
        Held (a.zones.get z') ((zoneCarrying z src false a).zones.get z') := by
      intro z z' a hne
      rcases step z a with ⟨-, hl⟩ | ⟨-, e⟩
      · exact hl.other z' hne
      · rw [e]
        exact .refl _
    intro z
    cases z with
    | z1 =>
      refine ⟨x, y, rfl, hxv, by rw [hxz]; exact .refl _, ?_, by simp [hxg], ?_⟩
      · rw [he]
        exact helds .z2 .z1 y (by decide)
      · intro ch hc
        rw [he]
        exact gains .z2 y ch (by rw [hc]; decide)
    | z2 =>
      refine ⟨y, zoneCarrying .z2 src false y, rfl, by rw [hyv, hxv], ?_, by rw [he]; exact .refl _, ?_, ?_⟩
      · rw [← hxz]
        exact helds .z1 .z2 x (by decide)
      · intro ch hc
        rw [hy, gains .z1 x ch (by rw [hc]; decide), hxg]
      · intro ch _
        rw [he]
  -- zone 1's step, then zone 2's
  have l1 := zoneCarrying_loss .z1 src x
  have l2 := zoneCarrying_loss .z2 src y
  rw [← hy] at l1
  rw [← he] at l2
  have xr : x = { s with view := s.view.set src false, att := x.att, dirty := x.dirty } := by
    apply State.ext_fields <;> simp [hx]
  have hatt : (carryingEvent src false s).att = x.att := by
    rw [carryingEvent_att]
    simp [hx, causeMask, causeBit]
  have held2 : Held (s.zones.get .z2) (y.zones.get .z2) := by
    rw [← hxz]
    rcases step .z1 x with ⟨-, hl⟩ | ⟨-, e⟩
    · exact hl.other .z2 (by decide)
    · rw [hy, e]
      exact .refl _
  have loses1 : Loses src x .z1 ↔ Loses src s .z1 := by
    unfold Loses
    rw [hxz]
  have loses2 : Loses src y .z2 ↔ Loses src s .z2 := by
    have hc : (y.zones.get .z2).connected = (s.zones.get .z2).connected := by rw [held2.rest]
    unfold Loses
    rw [hc]
    rcases held2.state with e | ⟨e1 | e1, e2⟩
    · rw [e]
    · simp [e1, e2]
    · simp [e1, e2]
  have applies1 : AppliesOnLoss src x .z1 ↔ AppliesOnLoss src s .z1 := by
    unfold AppliesOnLoss
    rw [hxz]
  have first : ¬Loses src s .z1 → y = { x with dirty := y.dirty } := fun hn =>
    lossTaken_same l1 fun hl => hn (loses1.mp hl)
  have second : ¬Loses src s .z2 →
      carryingEvent src false s = { y with dirty := (carryingEvent src false s).dirty } := fun hn =>
    lossTaken_same l2 fun hl => hn (loses2.mp hl)
  have xs : SamePaths s x := by
    refine ⟨?_, ?_, ?_, ?_, ?_, ?_⟩ <;> simp [hx]
  refine ⟨hv, ?_, ?_, ?_, ?_, ?_, ?_, ?_, ?_, ?_, ?_⟩
  · refine ⟨y, carryingEvent src false s, ?_, l2, rfl, rfl, rfl, rfl, rfl, rfl⟩
    have := lossTaken_unmarked s.dirty l1
    rw [hatt]
    rwa [xr] at this
  · intro z hc hs
    obtain ⟨a, b, hb, -, h1, h2, -, -⟩ := key z
    have hca : (a.zones.get z).connected = some src := by rw [h1.rest]; exact hc
    have hsa : (a.zones.get z).state = .playing ∨ (a.zones.get z).state = .fadingIn
        ∨ (a.zones.get z).state = .reconfiguring := by
      simp at hs
      rcases h1.state with e | ⟨-, e⟩
      · rw [e]
        exact hs
      · exact Or.inr (Or.inr e)
    rcases step z a with ⟨-, hl⟩ | ⟨hn, -⟩
    · rw [← hb] at hl
      obtain ⟨p1, p2, p3, p4, -⟩ := hl.played hsa
      refine ⟨?_, ?_, ?_, ?_⟩
      · rcases h2.state with e | ⟨e, -⟩
        · rw [e, p1]
        · rw [p1] at e
          simp at e
      · rw [h2.rest]
        exact p4.trans hca
      · rw [h2.rest]
        exact p2
      · rw [h2.rest]
        exact p3
    · exact absurd hca hn
  · intro z hc hs
    obtain ⟨a, b, hb, hav, h1, h2, -, -⟩ := key z
    have hca : (a.zones.get z).connected = some src := by rw [h1.rest]; exact hc
    have hsa : (a.zones.get z).state = .fadingOut := by
      rcases h1.state with e | ⟨e, -⟩
      · rw [e, hs]
      · rw [hs] at e
        simp at e
    have hpa : (a.zones.get z).pending = (s.zones.get z).pending := by rw [h1.rest]
    rcases step z a with ⟨-, hl⟩ | ⟨hn, -⟩
    · rw [← hb] at hl
      obtain ⟨p1, p2, p3⟩ := hl.faded hsa
      rw [hpa] at p1 p2
      rw [hav] at p2
      refine ⟨?_, ?_, ?_⟩
      · rw [h2.rest]
        exact p1
      · rw [h2.rest]
        exact p3
      · rw [h2.rest, hv]
        exact p2
    · exact absurd hca hn
  · rintro z ⟨hc, hs⟩ ch hch
    obtain ⟨a, b, hb, -, h1, -, -, h4⟩ := key z
    have hca : (a.zones.get z).connected = some src := by rw [h1.rest]; exact hc
    have hsa : (a.zones.get z).state ≠ .waiting ∧ (a.zones.get z).state ≠ .silent := by
      simp at hs
      rcases h1.state with e | ⟨-, e⟩
      · rw [e]
        exact hs
      · rw [e]
        simp
    rcases step z a with ⟨-, hl⟩ | ⟨hn, -⟩
    · rw [h4 ch hch, hb, hl.floored hsa, if_pos hch]
    · exact absurd hca hn
  · intro z hc
    obtain ⟨a, b, hb, -, h1, h2, h3, h4⟩ := key z
    have hca : (a.zones.get z).connected ≠ some src := by rw [h1.rest]; exact hc
    rcases step z a with ⟨hn, -⟩ | ⟨-, e⟩
    · exact absurd hn hca
    · rw [e] at hb
      subst hb
      refine ⟨?_, ?_, ?_, ?_⟩
      · rw [h2.rest, h1.rest]
      · rw [h2.rest, h1.rest]
      · rw [h2.rest, h1.rest]
      · intro ch hch
        rw [h4 ch hch, h3 ch hch]
  · have g1 : y.gain.zones = x.gain.zones ∧ y.gain.trims = x.gain.trims ∧ y.gain.srcTrims = x.gain.srcTrims := by
      by_cases h1 : Loses src s .z1
      · rw [(lossTaken_floors l1 (loses1.mpr h1)).1]
        exact ⟨rfl, rfl, rfl⟩
      · rw [first h1]
        exact ⟨rfl, rfl, rfl⟩
    rw [← hxg, ← g1.1, ← g1.2.1, ← g1.2.2]
    by_cases h2 : Loses src s .z2
    · rw [(lossTaken_floors l2 (loses2.mpr h2)).1]
      exact ⟨rfl, rfl, rfl⟩
    · rw [second h2]
      exact ⟨rfl, rfl, rfl⟩
  · intro hn
    rw [second (hn .z2), first (hn .z1)]
    exact ⟨xs.zones, xs.gain, xs.mods, xs.dec, xs.bass, xs.pool⟩
  · intro hex
    have hxm : x.mods = s.mods := xs.mods
    have conv : ∀ u : State, WindDowns x u → WindDowns s u := by
      intro u hu m
      have := hu m
      rwa [hxm] at this
    by_cases h2 : Loses src s .z2
    · obtain ⟨g2, w2⟩ := lossTaken_floors l2 (loses2.mpr h2)
      by_cases h1 : Loses src s .z1
      · obtain ⟨-, w1⟩ := lossTaken_floors l1 (loses1.mpr h1)
        refine conv _ (windDowns_trans w1 w2 fun ch hch => ?_)
        rw [g2]
        simp only [flooredZone, flooredChans, PerChan.get_ofFn]
        split
        · rfl
        · exact hch
      · refine conv _ fun m => ?_
        have := w2 m
        rwa [first h1] at this
    · obtain ⟨z, hz⟩ := hex
      have h1 : Loses src s .z1 := by
        cases z with
        | z1 => exact hz
        | z2 => exact absurd hz h2
      obtain ⟨-, w1⟩ := lossTaken_floors l1 (loses1.mpr h1)
      refine conv _ (windDowns_congr w1 ?_ ?_) <;> rw [second h2]
  · intro hn
    have u1 := lossTaken_unapplied l1 fun ha => hn .z1 (applies1.mp ha)
    have hz2 : y.zones.get .z2 = s.zones.get .z2 := u1.2.2.2.trans (by rw [hxz]; rfl)
    have u2 := lossTaken_unapplied l2 fun ha => hn .z2 (by
      unfold AppliesOnLoss at ha ⊢
      rwa [hz2] at ha)
    refine ⟨u2.1.trans (u1.1.trans xs.dec), u2.2.1.trans (u1.2.1.trans xs.bass), u2.2.2.1.trans (u1.2.2.1.trans xs.pool),
      fun z hz => ?_⟩
    cases z with
    | z1 => exact u2.2.2.2.trans (by rw [show otherZone .z2 = Zone.z1 from rfl, first hz, hxz])
    | z2 => rw [second hz]; exact hz2
  · intro z ha hn
    cases z with
    | z1 =>
      have hs := (applies1.mpr ha).2.1
      have h := zoneLost_applied (l1.1 (applies1.mpr ha).1) hs
      refine heldApplied_congr h xs.zones.symm xs.dec.symm xs.bass.symm xs.pool.symm ?_
      rw [second hn]
      exact ⟨rfl, rfl, rfl, rfl, rfl, rfl⟩
    | z2 =>
      have hy : SamePaths s y := by
        rw [first hn]
        exact ⟨xs.zones, xs.gain, xs.mods, xs.dec, xs.bass, xs.pool⟩
      have ha2 : AppliesOnLoss src y .z2 := by
        unfold AppliesOnLoss at ha ⊢
        rwa [hy.zones]
      have h := zoneLost_applied (l2.1 ha2.1) ha2.2.1
      exact heldApplied_congr h hy.zones.symm hy.dec.symm hy.bass.symm hy.pool.symm ⟨rfl, rfl, rfl, rfl, rfl, rfl⟩

/-- A gained source, as the zones take it (R58). -/
theorem carryingEvent_gained (src : Source) (s : State) (h : s.audioRuns = true) :
    CarryingGained src s (carryingEvent src true s) := by
  have hv := carryingEvent_view src true s
  have one : ∀ (z : Zone) (a : State), (zoneCarrying z src true a).zones =
      a.zones.upd z fun r =>
        if r.connected = some src ∧ r.state = .waiting then
          { r with state := .fadingIn, fade := gainFloor, gateOpen := true, waited := 0, noSignal := false }
        else r := by
    intro z a
    unfold zoneCarrying zoneReturn enterFadeIn
    simp only [if_true]
    by_cases hc : (a.zones.get z).connected = some src
    · by_cases hs : (a.zones.get z).state = .waiting
      · simp [hc, hs, PerZone.upd]
      · simp [hc, hs, PerZone.upd]
    · simp [hc, PerZone.upd]
  have hz : ∀ z, (carryingEvent src true s).zones.get z =
      if (s.zones.get z).connected = some src ∧ (s.zones.get z).state = .waiting then
        { s.zones.get z with state := .fadingIn, fade := gainFloor, gateOpen := true, waited := 0, noSignal := false }
      else s.zones.get z := by
    intro z
    unfold carryingEvent
    rw [if_pos h, one, one]
    cases z <;> simp [PerZone.get_upd]
  refine ⟨hv, ?_, ?_⟩
  · intro z hc hs
    rw [hz, if_pos ⟨hc, hs⟩]
  · intro z hc
    rw [hz, if_neg (by tauto)]

/-- A gained source leaves the gains as they are. -/
theorem carryingEvent_gained_gain (src : Source) (s : State) : (carryingEvent src true s).gain = s.gain := by
  unfold carryingEvent zoneCarrying zoneReturn enterFadeIn
  dsimp only
  (repeat' split) <;> first | simp | simp_all

/-- A change of carrying status, as the zone switch takes it. -/
theorem carryingChange_spec (src : Source) (was now : Bool) (s : State) :
    CarryingChange src was now s (if was = now then s else carryingEvent src now s) := by
  refine ⟨?_, ?_, ?_, ?_⟩
  · intro h
    rw [if_pos h]
    exact ⟨rfl, rfl, rfl, rfl, rfl, rfl, rfl⟩
  · intro h hs
    rw [if_neg h, carryingEvent_stopped src now s hs]
    refine ⟨by simp, ?_, ?_, ?_, ?_, ?_, ?_⟩ <;> simp
  · rintro rfl rfl hs
    rw [if_neg (by decide)]
    exact carryingEvent_lost src s hs
  · rintro rfl rfl hs
    rw [if_neg (by decide)]
    refine ⟨carryingEvent_gained src s hs, ?_⟩
    have h : ∀ (z : Zone) (a : State), zoneCarrying z src true a =
        { a with zones := (zoneCarrying z src true a).zones, dirty := (zoneCarrying z src true a).dirty } := by
      intro z a
      unfold zoneCarrying zoneReturn enterFadeIn
      apply State.ext_fields <;> (repeat' split) <;> first | rfl | simp_all
    have he : carryingEvent src true s =
        zoneCarrying .z2 src true (zoneCarrying .z1 src true
          (markDirty (.source src) (raise .source { s with view := s.view.set src true }))) := by
      unfold carryingEvent
      rw [if_pos hs]
    refine ⟨rfl, ?_, ?_, ?_, ?_, ?_⟩ <;> rw [he, h, h] <;> simp

/-- A change of carrying status changes only what `afterCarrying` names. -/
theorem carryingEvent_rest (src : Source) (on : Bool) (s : State) :
    carryingEvent src on s = afterCarrying s (carryingEvent src on s) := by
  apply State.ext_fields <;> simp [afterCarrying]

/-! ### A loss from another state that has the same zones and blocks behind them -/

/-- Two states agree in the zones, in the blocks behind them and in all that a loss reads (R49, R57). -/
structure PathsAgree (s u : State) : Prop where
  paths : SamePaths s u
  view : u.view = s.view
  runs : u.audioRuns = s.audioRuns
  sets : ∀ x, sourceSet u x = sourceSet s x

/-- The state `u` with the zones and the blocks behind them of `t`. -/
def onto (u t : State) : State :=
  { u with
    zones := t.zones, gain := t.gain, mods := t.mods, dec := t.dec, bass := t.bass, pool := t.pool, dirty := t.dirty }

/-- Beside the zones, the blocks behind them and the marks nothing has changed. -/
def OnlyPaths (s t : State) : Prop := t = onto s t

theorem PathsAgree.onto {s u t : State} (h : PathsAgree s u) (ht : OnlyPaths s t) : PathsAgree t (onto u t) := by
  unfold OnlyPaths at ht
  refine ⟨⟨rfl, rfl, rfl, rfl, rfl, rfl⟩, ?_, ?_, fun x => ?_⟩
  · rw [ht]
    exact h.view
  · rw [ht]
    exact h.runs
  · rw [ht]
    exact h.sets x

/-- A zone's channel set from states that agree. -/
theorem PathsAgree.zoneSet {s u : State} (h : PathsAgree s u) (z : Zone) : zoneSet u z = zoneSet s z := by
  unfold Machine.zoneSet
  rw [h.paths.zones]
  cases (s.zones.get z).connected with
  | none => rfl
  | some x => exact h.sets x

theorem gateClosed_onto {z : Zone} {s t u : State} (h : GateClosed z s t) (k : PathsAgree s u) :
    GateClosed z u (onto u t) ∧ PathsAgree t (onto u t) := by
  have hp : OnlyPaths s t := by
    unfold OnlyPaths onto
    rw [h.rest]
  have e := h.rest
  refine ⟨⟨?_, ?_⟩, k.onto hp⟩
  · apply State.ext_fields <;> rw [onto]
    · rw [e, k.paths.zones]
    · rw [e]
      exact k.paths.dec.symm
    · rw [e]
      exact k.paths.bass.symm
    · rw [e, k.paths.gain]
    · rw [e]
      exact k.paths.pool.symm
  · intro m
    rw [k.paths.mods]
    exact h.mods m

theorem zoneMoved_onto {z : Zone} {f : ZoneRec → ZoneRec} {s t u : State} (h : ZoneMoved z f s t)
    (k : PathsAgree s u) : ZoneMoved z f u (onto u t) ∧ PathsAgree t (onto u t) := by
  have hp : OnlyPaths s t := by
    unfold OnlyPaths onto
    rw [h]
  unfold ZoneMoved at h
  refine ⟨?_, k.onto hp⟩
  unfold ZoneMoved
  apply State.ext_fields <;> rw [onto]
  · rw [h, k.paths.zones]
  · rw [h]
    exact k.paths.dec.symm
  · rw [h]
    exact k.paths.bass.symm
  · rw [h]
    exact k.paths.gain.symm
  · rw [h]
    exact k.paths.pool.symm
  · rw [h]
    exact k.paths.mods.symm

theorem changesApplied_onto {z : Zone} {s t u : State} (h : ChangesApplied z s t) (k : PathsAgree s u) :
    ChangesApplied z u (onto u t) ∧ PathsAgree t (onto u t) := by
  have e := h.rest
  have hp : OnlyPaths s t := by
    unfold OnlyPaths onto
    rw [e]
  refine ⟨⟨?_, ?_, ?_, ?_, ?_, ?_, ?_⟩, k.onto hp⟩
  · apply State.ext_fields <;> rw [onto]
    · rw [e, k.paths.zones]
    · rw [e]
      exact k.paths.gain.symm
    · rw [e]
      exact k.paths.mods.symm
  all_goals rw [k.paths.zones]
  · rw [k.paths.dec, k.zoneSet]
    exact h.decode
  · rw [k.paths.dec]
    exact h.noDecode
  · rw [k.paths.bass]
    exact h.speakers
  · rw [k.paths.bass]
    exact h.noSpeakers
  · rw [k.paths.pool]
    exact h.delay
  · rw [k.paths.pool]
    exact h.noDelay

theorem examined_onto {s t u : State} (h : Examined s t) (k : PathsAgree s u) :
    Examined u (onto u t) ∧ PathsAgree t (onto u t) := by
  have e := h.rest
  have hp : OnlyPaths s t := by
    unfold OnlyPaths onto
    rw [e]
  have hf : ∀ z, RoomFound u (onto u t) z ↔ RoomFound s t z := by
    intro z
    unfold RoomFound
    rw [k.paths.pool]
    rfl
  have hq : ∀ z, AppliesAtOnce u z ↔ AppliesAtOnce s z := by
    intro z
    unfold AppliesAtOnce
    rw [k.paths.zones, k.runs]
  refine ⟨⟨?_, ?_, ?_, ?_, ?_, ?_⟩, k.onto hp⟩
  · apply State.ext_fields <;> rw [onto]
    · rw [e]
      exact k.paths.dec.symm
    · rw [e]
      exact k.paths.bass.symm
    · rw [e]
      exact k.paths.gain.symm
    · rw [e, k.paths.pool]
    · rw [e]
      exact k.paths.mods.symm
  all_goals
    intro z
    rw [k.paths.pool]
    (try rw [hf])
    (try rw [hq])
    rw [k.paths.zones]
    (try rw [k.runs])
  · exact h.asked z
  · exact h.same z
  · exact h.noRoom z
  · exact h.request z
  · exact h.atOnce z

theorem examinedFor_onto {held : HeldChanges} {s t u : State} (h : ExaminedFor held s t) (k : PathsAgree s u) :
    ExaminedFor held u (onto u t) ∧ PathsAgree t (onto u t) := by
  by_cases hd : held.delay = true
  · obtain ⟨h1, h2⟩ := examined_onto (h.1 hd) k
    exact ⟨⟨fun _ => h1, fun hn => absurd hd (by simp [hn])⟩, h2⟩
  · have e := h.2 (by simpa using hd)
    have hp : OnlyPaths s t := by
      unfold OnlyPaths onto
      rw [e]
    refine ⟨⟨fun hn => absurd hn hd, fun _ => ?_⟩, k.onto hp⟩
    apply State.ext_fields <;> rw [onto] <;> rw [e]
    · exact k.paths.zones.symm
    · exact k.paths.dec.symm
    · exact k.paths.bass.symm
    · exact k.paths.gain.symm
    · exact k.paths.pool.symm
    · exact k.paths.mods.symm

/-- A state that differs from another in its marks alone. -/
theorem marks_onto {s t u : State} (h : t = { s with dirty := t.dirty }) (k : PathsAgree s u) :
    onto u t = { u with dirty := (onto u t).dirty } ∧ PathsAgree t (onto u t) := by
  obtain ⟨h1, h2⟩ := examinedFor_onto (held := .empty) ⟨by simp [HeldChanges.empty], fun _ => h⟩ k
  exact ⟨h1.2 rfl, h2⟩

theorem zoneLost_onto {z : Zone} {s t u : State} (h : ZoneLost z s t) (k : PathsAgree s u) :
    ZoneLost z u (onto u t) ∧ PathsAgree t (onto u t) := by
  -- a chain of steps goes through the states that `onto u` gives, one from the other
  have again : ∀ x y : State, onto (onto u x) y = onto u y := fun _ _ => rfl
  have hs : (u.zones.get z).state = (s.zones.get z).state := by rw [k.paths.zones]
  have hh : (u.zones.get z).held = (s.zones.get z).held := by rw [k.paths.zones]
  have hp : (u.zones.get z).pending = (s.zones.get z).pending := by rw [k.paths.zones]
  have chain : ∀ {f : ZoneRec → ZoneRec} {a b c : State}, GateClosed z s a → ChangesApplied z a b → ZoneMoved z f b c →
      ExaminedFor (s.zones.get z).held c t →
      (∃ a b c, GateClosed z u a ∧ ChangesApplied z a b ∧ ZoneMoved z f b c
        ∧ ExaminedFor (u.zones.get z).held c (onto u t)) ∧ PathsAgree t (onto u t) := by
    intro f a b c ha hb hc hd
    obtain ⟨ga, ka⟩ := gateClosed_onto ha k
    obtain ⟨gb, kb⟩ := changesApplied_onto hb ka
    obtain ⟨gc, kc⟩ := zoneMoved_onto hc kb
    obtain ⟨gd, kd⟩ := examinedFor_onto hd kc
    rw [hh]
    exact ⟨⟨_, _, _, ga, gb, gc, gd⟩, kd⟩
  cases hq : (s.zones.get z).state with
  | waiting | silent =>
    obtain ⟨e, ke⟩ := marks_onto (h.closed (by simp [hq])) k
    refine ⟨⟨fun _ => e, fun hn => ?_, fun hn => ?_, fun hn => ?_⟩, ke⟩ <;> rw [hs, hq] at hn <;> simp at hn
  | playing | fadingIn =>
    obtain ⟨a, ha, hb⟩ := h.played (by simp [hq])
    obtain ⟨ga, ka⟩ := gateClosed_onto ha k
    obtain ⟨gb, kb⟩ := zoneMoved_onto hb ka
    refine ⟨⟨fun hn => ?_, fun _ => ⟨_, ga, gb⟩, fun hn => ?_, fun hn => ?_⟩, kb⟩ <;> rw [hs, hq] at hn <;> simp at hn
  | fadingOut =>
    obtain ⟨a, b, c, ha, hb, hc, hd⟩ := h.faded hq
    obtain ⟨g, kd⟩ := chain ha hb hc hd
    refine ⟨⟨fun hn => ?_, fun hn => ?_, fun _ => ?_, fun hn => ?_⟩, kd⟩
    · rw [hs, hq] at hn
      simp at hn
    · rw [hs, hq] at hn
      simp at hn
    · unfold FadeEnded
      rw [hp, k.view]
      exact g
    · rw [hs, hq] at hn
      simp at hn
  | reconfiguring =>
    obtain ⟨a, b, c, ha, hb, hc, hd⟩ := h.reconfigured hq
    obtain ⟨g, kd⟩ := chain ha hb hc hd
    refine ⟨⟨fun hn => ?_, fun hn => ?_, fun hn => ?_, fun _ => g⟩, kd⟩ <;> rw [hs, hq] at hn <;> simp at hn

theorem lossTaken_onto {src : Source} {z : Zone} {s t u : State} (h : LossTaken src z s t) (k : PathsAgree s u) :
    LossTaken src z u (onto u t) ∧ PathsAgree t (onto u t) := by
  have hc : (u.zones.get z).connected = (s.zones.get z).connected := by rw [k.paths.zones]
  by_cases hs : (s.zones.get z).connected = some src
  · obtain ⟨g, kg⟩ := zoneLost_onto (h.1 hs) k
    exact ⟨⟨fun _ => g, fun hn => absurd (hc.trans hs) hn⟩, kg⟩
  · obtain ⟨g, kg⟩ := marks_onto (h.2 hs) k
    exact ⟨⟨fun hn => absurd (hc.symm.trans hn) hs, fun _ => g⟩, kg⟩

/-- The loss of a source from a state that agrees with another in what a loss reads, to one that has its outcome
(R57): the provers' way from `carryingEvent` to a step that does more. -/
theorem carryingLost_congr {src : Source} {s t s' t' : State} (h : CarryingLost src s t) (k : PathsAgree s s')
    (hv : t'.view = t.view) (kt : SamePaths t t') : CarryingLost src s' t' := by
  have hz := k.paths.zones
  have hl : ∀ z, Loses src s' z ↔ Loses src s z := by
    intro z
    unfold Loses
    rw [hz]
  have ha : ∀ z, AppliesOnLoss src s' z ↔ AppliesOnLoss src s z := by
    intro z
    unfold AppliesOnLoss
    rw [hz]
  refine ⟨?_, ?_, ?_, ?_, ?_, ?_, ?_, ?_, ?_, ?_, ?_⟩
  · rw [hv, k.view]
    exact h.view
  · obtain ⟨a, b, l1, l2, kb⟩ := h.course
    have k' : PathsAgree { s with view := s.view.set src false, att := t.att }
        { s' with view := s'.view.set src false, att := t'.att } := by
      refine ⟨⟨k.paths.zones, k.paths.gain, k.paths.mods, k.paths.dec, k.paths.bass, k.paths.pool⟩, ?_, k.runs, k.sets⟩
      show s'.view.set src false = s.view.set src false
      rw [k.view]
    obtain ⟨g1, ka⟩ := lossTaken_onto l1 k'
    obtain ⟨g2, -⟩ := lossTaken_onto l2 ka
    exact ⟨_, _, g1, g2, kt.zones.trans kb.zones, kt.gain.trans kb.gain, kt.mods.trans kb.mods, kt.dec.trans kb.dec,
      kt.bass.trans kb.bass, kt.pool.trans kb.pool⟩
  · rw [hz, kt.zones]
    exact h.played
  · rw [hz, kt.zones, hv]
    exact h.faded
  · intro z hh
    rw [kt.gain]
    exact h.floored z ((hl z).mp hh)
  · rw [hz, kt.zones, kt.gain, k.paths.gain]
    exact h.others
  · rw [kt.gain, k.paths.gain]
    exact h.gain
  · intro hn
    have e := h.nobody fun z hz => hn z ((hl z).mpr hz)
    exact ⟨kt.zones.trans (e.zones.trans hz.symm), kt.gain.trans (e.gain.trans k.paths.gain.symm),
      kt.mods.trans (e.mods.trans k.paths.mods.symm), kt.dec.trans (e.dec.trans k.paths.dec.symm),
      kt.bass.trans (e.bass.trans k.paths.bass.symm), kt.pool.trans (e.pool.trans k.paths.pool.symm)⟩
  · rintro ⟨z, hh⟩ m
    rw [k.paths.mods, kt.gain, kt.mods]
    exact h.windDowns ⟨z, (hl z).mp hh⟩ m
  · intro hn
    obtain ⟨e1, e2, e3, e4⟩ := h.unapplied fun z hh => hn z ((ha z).mpr hh)
    refine ⟨kt.dec.trans (e1.trans k.paths.dec.symm), kt.bass.trans (e2.trans k.paths.bass.symm),
      kt.pool.trans (e3.trans k.paths.pool.symm), fun z hh => ?_⟩
    rw [kt.zones, hz]
    exact e4 z fun hh' => hh ((hl z).mpr hh')
  · intro z hh hn
    exact heldApplied_congr (h.applied z ((ha z).mp hh) fun hh' => hn ((hl _).mpr hh')) hz k.paths.dec k.paths.bass
      k.paths.pool kt

/-- A change of carrying status from a state that agrees with another in what it reads (R26, R48). -/
theorem carryingChange_congr {src : Source} {was now : Bool} {s t s' t' : State} (h : CarryingChange src was now s t)
    (k : PathsAgree s s') (hv : t'.view = t.view) (kt : SamePaths t t') : CarryingChange src was now s' t' := by
  have through : SamePaths s t → SamePaths s' t' := fun e =>
    ⟨kt.zones.trans (e.zones.trans k.paths.zones.symm), kt.gain.trans (e.gain.trans k.paths.gain.symm),
      kt.mods.trans (e.mods.trans k.paths.mods.symm), kt.dec.trans (e.dec.trans k.paths.dec.symm),
      kt.bass.trans (e.bass.trans k.paths.bass.symm), kt.pool.trans (e.pool.trans k.paths.pool.symm)⟩
  refine ⟨fun hw => ?_, fun hw hs => ?_, fun hw hn hs => ?_, fun hw hn hs => ?_⟩
  · obtain ⟨e1, e2⟩ := h.same hw
    exact ⟨hv.trans (e1.trans k.view.symm), through e2⟩
  · obtain ⟨e1, e2⟩ := h.stopped hw (k.runs.symm.trans hs)
    exact ⟨hv.trans (by rw [e1, k.view]), through e2⟩
  · exact carryingLost_congr (h.lost hw hn (k.runs.symm.trans hs)) k hv kt
  · obtain ⟨e1, e2⟩ := h.gained hw hn (k.runs.symm.trans hs)
    refine ⟨⟨hv.trans (by rw [e1.view, k.view]), ?_, ?_⟩, ?_⟩
    · rw [k.paths.zones, kt.zones]
      exact e1.zones
    · rw [k.paths.zones, kt.zones]
      exact e1.others
    · exact ⟨rfl, kt.gain.trans (e2.gain.trans k.paths.gain.symm), kt.mods.trans (e2.mods.trans k.paths.mods.symm),
        kt.dec.trans (e2.dec.trans k.paths.dec.symm), kt.bass.trans (e2.bass.trans k.paths.bass.symm),
        kt.pool.trans (e2.pool.trans k.paths.pool.symm)⟩

end Sys2Proof.Machine
end

