-- ==== Sys2Proof/Laws/Layout.lean ====
section
/-! SUPPORT. The layout of the delay lines in the pool's words (R111): the lines lie apart inside the
pool, and a change of one zone's lengths leaves the other zone's lines where they are. -/

set_option autoImplicit false

namespace Sys2Proof.Machine

/-- The first words of zone 1's lines, one after the other from word 0. -/
theorem lineStart_main (c : PoolSet) :
    lineStart c (.main .fl) = 0
      ∧ lineStart c (.main .fr) = lineStart c (.main .fl) + c.len.fl
      ∧ lineStart c (.main .c) = lineStart c (.main .fr) + c.len.fr
      ∧ lineStart c (.main .sw) = lineStart c (.main .c) + c.len.c
      ∧ lineStart c (.main .sl) = lineStart c (.main .sw) + c.len.sw
      ∧ lineStart c (.main .sr) = lineStart c (.main .sl) + c.len.sl
      ∧ lineStart c (.main .bl) = lineStart c (.main .sr) + c.len.sr
      ∧ lineStart c (.main .br) = lineStart c (.main .bl) + c.len.bl
      ∧ lineStart c (.main .tl) = lineStart c (.main .br) + c.len.br
      ∧ lineStart c (.main .tr) = lineStart c (.main .tl) + c.len.tl := by
  have step : ∀ (a b : MainChan) (xs : List MainChan), (mainChans.takeWhile fun x => x != a) = xs →
      (mainChans.takeWhile fun x => x != b) = xs ++ [a] →
      lineStart c (.main b) = lineStart c (.main a) + c.len.get (.main a) := by
    intro a b xs ha hb
    simp only [lineStart, mainWords, ha, hb, List.map_append, List.sum_append, List.map_cons, List.map_nil,
      List.sum_cons, List.sum_nil, Nat.add_zero]
  exact ⟨rfl, step .fl .fr _ rfl rfl, step .fr .c _ rfl rfl, step .c .sw _ rfl rfl, step .sw .sl _ rfl rfl,
    step .sl .sr _ rfl rfl, step .sr .bl _ rfl rfl, step .bl .br _ rfl rfl, step .br .tl _ rfl rfl,
    step .tl .tr _ rfl rfl⟩

/-- A zone's total as the sum of its lines' lengths. -/
theorem total_eq (c : PoolSet) :
    c.total .z1 = lineStart c (.main .tr) + c.len.tr ∧ c.total .z2 = c.len.zl + c.len.zr := by
  obtain ⟨h0, h1, h2, h3, h4, h5, h6, h7, h8, h9⟩ := lineStart_main c
  constructor
  · rw [h9, h8, h7, h6, h5, h4, h3, h2, h1, h0]
    simp only [PoolSet.total, zoneChans, mainChans, List.map_cons, List.map_nil, List.sum_cons, List.sum_nil,
      PerChan.get]
    omega
  · simp only [PoolSet.total, zoneChans, List.map_cons, List.map_nil, List.sum_cons, List.sum_nil, PerChan.get]
    omega

/-- A line of zone 1 ends where a later one begins, or before. -/
theorem lineStart_bounds (c : PoolSet) (a b : MainChan) (h : (mainChans.idxOf a) < mainChans.idxOf b) :
    lineStart c (.main a) + c.len.get (.main a) ≤ lineStart c (.main b) := by
  obtain ⟨h0, h1, h2, h3, h4, h5, h6, h7, h8, h9⟩ := lineStart_main c
  cases a <;> cases b <;> first | exact absurd h (by decide) | (simp only [PerChan.get]; omega)

/-- Every line of zone 1 ends within zone 1's total. -/
theorem lineEnd_main (c : PoolSet) (a : MainChan) :
    lineStart c (.main a) + c.len.get (.main a) ≤ c.total .z1 := by
  obtain ⟨h0, h1, h2, h3, h4, h5, h6, h7, h8, h9⟩ := lineStart_main c
  have t1 := (total_eq c).1
  cases a <;> simp only [PerChan.get] <;> omega

/-- While both totals together fit the pool, every line's words lie in the pool. -/
theorem inLine_lt (c : PoolSet) (h : c.total .z1 + c.total .z2 ≤ poolWords) (a : Chan) (w : Nat)
    (ha : inLine c a w) : w < poolWords := by
  have t2 := (total_eq c).2
  cases a with
  | main m =>
    have := lineEnd_main c m
    unfold inLine at ha
    omega
  | zl => simp only [inLine, lineStart, PerChan.get] at ha; omega
  | zr => simp only [inLine, lineStart, PerChan.get] at ha; omega

/-- While both totals together fit the pool, no word belongs to two lines. -/
theorem inLine_unique (c : PoolSet) (h : c.total .z1 + c.total .z2 ≤ poolWords) (a b : Chan) (w : Nat)
    (ha : inLine c a w) (hb : inLine c b w) : a = b := by
  have t2 := (total_eq c).2
  have top : ∀ (m : MainChan) (x : Chan), x = .zl ∨ x = .zr → inLine c (.main m) w → ¬inLine c x w := by
    rintro m x (rfl | rfl) hm hx <;> have := lineEnd_main c m <;>
      simp only [inLine, lineStart, PerChan.get] at hm hx this <;> omega
  have both : ¬(inLine c .zl w ∧ inLine c .zr w) := by
    rintro ⟨hx, hy⟩
    simp only [inLine, lineStart, PerChan.get] at hx hy
    omega
  cases a with
  | main x =>
    cases b with
    | main y =>
      rcases Nat.lt_trichotomy (mainChans.idxOf x) (mainChans.idxOf y) with g | g | g
      · have := lineStart_bounds c x y g
        unfold inLine at ha hb
        omega
      · have : ∀ x y : MainChan, mainChans.idxOf x = mainChans.idxOf y → x = y := by
          intro x y
          cases x <;> cases y <;> decide
        rw [this x y g]
      · have := lineStart_bounds c y x g
        unfold inLine at ha hb
        omega
    | zl => exact absurd hb (top x _ (Or.inl rfl) ha)
    | zr => exact absurd hb (top x _ (Or.inr rfl) ha)
  | zl =>
    cases b with
    | main y => exact absurd ha (top y _ (Or.inl rfl) hb)
    | zl => rfl
    | zr => exact absurd ⟨ha, hb⟩ both
  | zr =>
    cases b with
    | main y => exact absurd ha (top y _ (Or.inr rfl) hb)
    | zl => exact absurd ⟨hb, ha⟩ both
    | zr => rfl

/-- A set that takes over one zone's lengths leaves the other zone's lines where they are. -/
theorem lineStart_takeStaged (p : Pool) (z : Zone) (ch : Chan) (h : chanZone ch ≠ z) :
    lineStart (p.takeStaged z).active ch = lineStart p.active ch := by
  cases ch with
  | main m =>
    cases z with
    | z1 => exact absurd rfl h
    | z2 =>
      simp only [lineStart, mainWords]
      congr 1
      apply List.map_congr_left
      intro x _
      cases x <;> rfl
  | zl => cases z with
    | z1 => rfl
    | z2 => exact absurd rfl h
  | zr => cases z with
    | z1 => rfl
    | z2 => exact absurd rfl h

end Sys2Proof.Machine
end

