-- ==== Sys2Proof/Laws/Line.lean ====
section
/-! SUPPORT. The characters on the front-end line (R155): eleven bit times each, start bit low, stop bit
high, and FTX high while the part has nothing to send. -/

set_option autoImplicit false

namespace Sys2Proof.Machine

/-- The bits of a number are as many as asked for. -/
@[simp] theorem bitsOf_length (n v : Nat) : (bitsOf n v).length = n := by simp [bitsOf]

/-- A character takes eleven bit times (R155). -/
@[simp] theorem charLevels_length (d : Byte) : (charLevels d).length = 11 := by simp [charLevels]

/-- A frame takes eleven bit times for each of its characters (R156). -/
theorem frameLevels_length (frame : List Byte) : (frameLevels frame).length = 11 * frame.length := by
  induction frame with
  | nil => rfl
  | cons d rest ih =>
    simp only [frameLevels, List.flatMap_cons, List.length_append, charLevels_length, List.length_cons] at ih ⊢
    omega

/-- A character's levels stand at its place in the frame (R156). -/
theorem frameLevels_getElem? (frame : List Byte) (i k : Nat) (d : Byte) (h : frame[i]? = some d) (hk : k < 11) :
    (frameLevels frame)[11 * i + k]? = (charLevels d)[k]? := by
  induction frame generalizing i with
  | nil => simp at h
  | cons c rest ih =>
    simp only [frameLevels, List.flatMap_cons] at ih ⊢
    cases i with
    | zero =>
      obtain rfl : c = d := by simpa using h
      rw [List.getElem?_append_left (by simpa using hk)]
      simp
    | succ i =>
      rw [List.getElem?_append_right (by simp; omega), charLevels_length, ← ih i (by simpa using h)]
      congr 1
      omega

/-- FTX is high while RSTN is low (R161). -/
theorem ftxLevel_low (s : State) (n : Nat) (h : s.rstnLow = true) : ftxLevel s n = true := by simp [ftxLevel, h]

/-- FTX is high while the transmit queue is empty (R156). -/
theorem ftxLevel_empty (s : State) (n : Nat) (h : s.fe.txFrames = []) : ftxLevel s n = true := by
  simp [ftxLevel, h]

end Sys2Proof.Machine
end

