-- ==== Sys2Proof/Laws/Resume.lean ====
section
/-! SUPPORT. The audio blocks run again (R35, R65, R135): what the lines, the zones and the delay pool make of what
they kept, step by step. -/

set_option autoImplicit false

namespace Sys2Proof.Machine

/-- The kept format change of a line, as the step that resumes it makes it (R28, R35). -/
theorem lineResumed_eq (x : SaState) :
    lineResumed x =
      (let y := { x with edges := 0, npcmTimer := true }
       if x.formatKept then { y.formatChange with formatKept := false } else y) := by
  unfold lineResumed SaState.formatChange SaState.leaveLocked SaState.clearRuns
  dsimp only
  split
  · cases x.lock <;> rfl
  · rfl

/-- A line that its kept change drops no longer carries (R28, R35). -/
theorem lineResumed_dropped (x : SaState) (h : LineDropped x) : x.carries = true ∧ (lineResumed x).carries = false := by
  obtain ⟨hk, hl, hn⟩ := h
  simp [lineResumed, SaState.carries, hk, hl, hn]

/-- Any other line keeps its carrying status as it resumes (R35). -/
theorem lineResumed_kept (x : SaState) (h : ¬LineDropped x) : (lineResumed x).carries = x.carries := by
  unfold LineDropped at h
  unfold lineResumed SaState.carries
  dsimp only
  cases hk : x.formatKept <;> cases hl : x.lock <;> cases hn : x.npcmTaken <;> simp_all

/-- A line has resumed: where its kept change drops it, it has left the view, with SOURCE pending (R26, R35). -/
structure LineTaken (l : SaLine) (s t : State) : Prop where
  rest : t = { s with
    sa := s.sa.set l (lineResumed (s.sa.get l)), view := t.view, att := t.att, dirty := t.dirty }
  dropped : LineDropped (s.sa.get l) →
    t.view = s.view.set (.sa l) false ∧ t.att = { s.att with pending := s.att.pending ||| 0x0002#16 }
  kept : ¬LineDropped (s.sa.get l) → t.view = s.view ∧ t.att = s.att

/-- A line resumes while the audio blocks stand (R26, R35). -/
theorem resumeLine_spec (l : SaLine) (s : State) (h : s.audioRuns = false) : LineTaken l s (resumeLine l s) := by
  have hx : resumeLine l s = lineCarryingFrom l (s.sa.get l).carries
      { s with sa := s.sa.set l (lineResumed (s.sa.get l)) } := by
    unfold resumeLine lineStepWith updLine
    rw [lineResumed_eq]
    rfl
  rw [hx]
  unfold lineCarryingFrom
  simp only [PerLine.get_set_self]
  by_cases hd : LineDropped (s.sa.get l)
  · obtain ⟨hw, hn⟩ := lineResumed_dropped _ hd
    rw [hw, hn, if_neg (by decide), carryingEvent_stopped (.sa l) false _
      (show State.audioRuns { s with sa := s.sa.set l (lineResumed (s.sa.get l)) } = false from h)]
    refine ⟨?_, fun _ => ⟨?_, ?_⟩, fun hk => absurd hd hk⟩
    · apply State.ext_fields <;> simp
    · simp
    · simp [causeMask, causeBit]
  · rw [if_pos (lineResumed_kept _ hd)]
    exact ⟨rfl, fun hk => absurd hk hd, fun _ => ⟨rfl, rfl⟩⟩

/-- SOURCE is pending once a line has been dropped, and stays so (R26). -/
theorem LineTaken.source {l : SaLine} {x y : State} {n : Attention} (k : LineTaken l x y)
    (hx : x.att = n ∨ x.att = { n with pending := n.pending ||| 0x0002#16 }) :
    (y.att = n ∨ y.att = { n with pending := n.pending ||| 0x0002#16 })
      ∧ (LineDropped (x.sa.get l) ∨ x.att = { n with pending := n.pending ||| 0x0002#16 } →
          y.att = { n with pending := n.pending ||| 0x0002#16 }) := by
  have or2 : ∀ w : Word, w ||| 0x0002#16 ||| 0x0002#16 = w ||| 0x0002#16 := fun w => by
    rw [BitVec.or_assoc]
    simp
  by_cases hd : LineDropped (x.sa.get l)
  · have hy : y.att = { n with pending := n.pending ||| 0x0002#16 } := by
      rw [(k.dropped hd).2]
      rcases hx with e | e <;> rw [e]
      simp only [or2]
    exact ⟨Or.inr hy, fun _ => hy⟩
  · rw [(k.kept hd).2]
    exact ⟨hx, fun h => h.resolve_left hd⟩

/-- The four lines have resumed, and nothing else but marks has changed (R26, R35). -/
structure LinesTaken (s t : State) : Prop where
  rest : t = { s with sa := t.sa, view := t.view, att := t.att, dirty := t.dirty }
  lines : ∀ l, t.sa.get l = lineResumed (s.sa.get l)
  dropped : (∃ l, LineDropped (s.sa.get l)) → t.att = { s.att with pending := s.att.pending ||| 0x0002#16 }
  kept : (∀ l, ¬LineDropped (s.sa.get l)) → t.att = s.att
  gone : ∀ l, LineDropped (s.sa.get l) → t.view.get (.sa l) = false
  stays : ∀ src, (∀ l, src = .sa l → ¬LineDropped (s.sa.get l)) → t.view.get src = s.view.get src

/-- The lines resume while the audio blocks stand (R26, R35). -/
theorem resumeLines_spec (s : State) (h : s.audioRuns = false) : LinesTaken s (resumeLines s) := by
  have runs : ∀ (l : SaLine) (x : State), (resumeLine l x).audioRuns = x.audioRuns := by
    intro l x
    unfold State.audioRuns
    simp
  unfold resumeLines
  have k1 := resumeLine_spec .sa1 s h
  set a := resumeLine .sa1 s with ha
  have ra : a.audioRuns = false := (runs _ _).trans h
  have k2 := resumeLine_spec .sa2 a ra
  set b := resumeLine .sa2 a with hb
  have rb : b.audioRuns = false := (runs _ _).trans ra
  have k3 := resumeLine_spec .sa3 b rb
  set c := resumeLine .sa3 b with hc
  have rc : c.audioRuns = false := (runs _ _).trans rb
  have k4 := resumeLine_spec .sa4 c rc
  set d := resumeLine .sa4 c with hd
  have sa1 : a.sa = s.sa.set .sa1 (lineResumed (s.sa.get .sa1)) := by rw [k1.rest]
  have sa2 : b.sa = a.sa.set .sa2 (lineResumed (s.sa.get .sa2)) := by
    rw [k2.rest, sa1, PerLine.get_set_ne _ _ _ _ (by decide)]
  have sa3 : c.sa = b.sa.set .sa3 (lineResumed (s.sa.get .sa3)) := by
    rw [k3.rest, sa2, sa1, PerLine.get_set_ne _ _ _ _ (by decide), PerLine.get_set_ne _ _ _ _ (by decide)]
  have sa4 : d.sa = c.sa.set .sa4 (lineResumed (s.sa.get .sa4)) := by
    rw [k4.rest, sa3, sa2, sa1, PerLine.get_set_ne _ _ _ _ (by decide), PerLine.get_set_ne _ _ _ _ (by decide),
      PerLine.get_set_ne _ _ _ _ (by decide)]
  have g2 : a.sa.get .sa2 = s.sa.get .sa2 := by rw [sa1]; rfl
  have g3 : b.sa.get .sa3 = s.sa.get .sa3 := by rw [sa2, sa1]; rfl
  have g4 : c.sa.get .sa4 = s.sa.get .sa4 := by rw [sa3, sa2, sa1]; rfl
  have f1 := k1.dropped
  have f2 := k2.dropped
  have f3 := k3.dropped
  have f4 := k4.dropped
  have e1 := k1.kept
  have e2 := k2.kept
  have e3 := k3.kept
  have e4 := k4.kept
  rw [g2] at f2 e2
  rw [g3] at f3 e3
  rw [g4] at f4 e4
  have look : ∀ {l : SaLine} {x y : State}, LineTaken l x y → ∀ src, src ≠ .sa l → y.view.get src = x.view.get src := by
    intro l x y k src hs
    by_cases hl : LineDropped (x.sa.get l)
    · rw [(k.dropped hl).1, PerSource.get_set_ne _ _ _ _ hs]
    · rw [(k.kept hl).1]
  refine ⟨?_, ?_, ?_, ?_, ?_, ?_⟩
  · rw [k4.rest, k3.rest, k2.rest, k1.rest]
  · intro l
    rw [sa4, sa3, sa2, sa1]
    cases l <;> rfl
  · rintro ⟨l, hl⟩
    have m1 := k1.source (Or.inl rfl)
    have m2 := k2.source m1.1
    have m3 := k3.source m2.1
    have m4 := k4.source m3.1
    cases l with
    | sa1 => exact m4.2 (Or.inr (m3.2 (Or.inr (m2.2 (Or.inr (m1.2 (Or.inl hl)))))))
    | sa2 => exact m4.2 (Or.inr (m3.2 (Or.inr (m2.2 (Or.inl (by rw [g2]; exact hl))))))
    | sa3 => exact m4.2 (Or.inr (m3.2 (Or.inl (by rw [g3]; exact hl))))
    | sa4 => exact m4.2 (Or.inl (by rw [g4]; exact hl))
  · intro hn
    rw [(e4 (hn _)).2, (e3 (hn _)).2, (e2 (hn _)).2, (e1 (hn _)).2]
  · intro l hl
    cases l with
    | sa1 =>
      rw [look k4 _ (by decide), look k3 _ (by decide), look k2 _ (by decide), (f1 hl).1]
      rfl
    | sa2 =>
      rw [look k4 _ (by decide), look k3 _ (by decide), (f2 hl).1]
      rfl
    | sa3 =>
      rw [look k4 _ (by decide), (f3 hl).1]
      rfl
    | sa4 =>
      rw [(f4 hl).1]
      rfl
  · intro src hk
    have one : ∀ (l : SaLine) (x y : State), LineTaken l x y → x.sa.get l = s.sa.get l →
        y.view.get src = x.view.get src := by
      intro l x y k hx
      by_cases hs : src = .sa l
      · rw [(k.kept (by rw [hx]; exact hk l hs)).1]
      · exact look k src hs
    rw [one _ _ _ k4 g4, one _ _ _ k3 g3, one _ _ _ k2 g2, one _ _ _ k1 rfl]

/-! ### What the steps of one zone make of each zone's record -/

/-- What an examination may do to a zone's record: a DELAY change joins its held changes, and it reconfigures from
PLAYING or FADING_IN (R60, R117). -/
structure Asked (r r' : ZoneRec) : Prop where
  rest : r' = { r with state := r'.state, held := r'.held }
  state : r'.state = r.state ∨ ((r.state = .playing ∨ r.state = .fadingIn) ∧ r'.state = .reconfiguring)
  held : r'.held = r.held ∨ r'.held = { r.held with delay := true }

theorem Asked.refl (r : ZoneRec) : Asked r r := ⟨rfl, Or.inl rfl, Or.inl rfl⟩

theorem Asked.trans {a b c : ZoneRec} (h1 : Asked a b) (h2 : Asked b c) : Asked a c := by
  refine ⟨by rw [h2.rest, h1.rest], ?_, ?_⟩
  · rcases h1.state with e1 | ⟨e1, e1'⟩ <;> rcases h2.state with e2 | ⟨e2, e2'⟩
    · exact Or.inl (e2.trans e1)
    · rw [e1] at e2
      exact Or.inr ⟨e2, e2'⟩
    · exact Or.inr ⟨e1, e2.trans e1'⟩
    · exact Or.inr ⟨e1, e2'⟩
  · rcases h1.held with e1 | e1 <;> rcases h2.held with e2 | e2 <;> rw [e2, e1]
    · exact Or.inl rfl
    · exact Or.inr rfl
    · exact Or.inr rfl
    · exact Or.inr rfl

/-- An asked zone waits if it waited. -/
theorem Asked.waiting {a b : ZoneRec} (h : Asked a b) : b.state = .waiting ↔ a.state = .waiting := by
  rcases h.state with e | ⟨e | e, e'⟩
  · rw [e]
  · simp [e, e']
  · simp [e, e']

/-- The examination, as each zone's record sees it (R117). -/
theorem examined_asked {s t : State} (h : Examined s t) (z : Zone) : Asked (s.zones.get z) (t.zones.get z) := by
  by_cases hr : s.pool.alloc.get z = .requested
  · rw [(h.asked z hr).2.1]
    exact .refl _
  by_cases hs : s.pool.sameSet z = true
  · rw [(h.same z hr hs).2.1]
    exact .refl _
  have hs : s.pool.sameSet z = false := by simpa using hs
  by_cases hf : RoomFound s t z
  · by_cases hq : AppliesAtOnce s z
    · rw [(h.atOnce z hr hs hf hq).2.1]
      exact .refl _
    · rw [(h.request z hr hs hf hq).2.2]
      refine ⟨rfl, ?_, Or.inr rfl⟩
      dsimp only
      split
      · rename_i hp
        exact Or.inr ⟨by simpa using hp.2, rfl⟩
      · exact Or.inl rfl
  · rw [(h.noRoom z hr hs hf).2.1]
    exact .refl _

theorem examinedFor_asked {held : HeldChanges} {s t : State} (h : ExaminedFor held s t) (z : Zone) :
    Asked (s.zones.get z) (t.zones.get z) := by
  by_cases hd : held.delay = true
  · exact examined_asked (h.1 hd) z
  · rw [h.2 (by simpa using hd)]
    exact .refl _

/-- A gate closed, changes applied, a move and an examination, as each zone's record sees them. -/
theorem chain_records {z : Zone} {f : ZoneRec → ZoneRec} {held : HeldChanges} {s a b c t : State}
    (ha : GateClosed z s a) (hb : ChangesApplied z a b) (hc : ZoneMoved z f b c) (hd : ExaminedFor held c t) :
    Asked (f { s.zones.get z with gateOpen := false, held := .empty }) (t.zones.get z)
      ∧ Asked (s.zones.get (otherZone z)) (t.zones.get (otherZone z)) := by
  have ho := otherZone_ne z
  have h1 := examinedFor_asked hd z
  have h2 := examinedFor_asked hd (otherZone z)
  have e1 : c.zones.get z = f { s.zones.get z with gateOpen := false, held := .empty } := by
    rw [hc, hb.rest, ha.rest]
    simp
  have e2 : c.zones.get (otherZone z) = s.zones.get (otherZone z) := by
    rw [hc, hb.rest, ha.rest]
    simp [PerZone.get_set_ne _ _ _ _ ho]
  rw [e1] at h1
  rw [e2] at h2
  exact ⟨h1, h2⟩

/-- What the first steps of a zone that resumes leave of its record: its wait limit, and either its waiting time and
its flag, or a time of 0 with the flag clear (R59). -/
structure StayKept (r r' : ZoneRec) : Prop where
  limit : r'.waitLimit = r.waitLimit
  stay : (r'.noSignal = r.noSignal ∧ r'.waited = r.waited) ∨ (r'.noSignal = false ∧ r'.waited = 0)

theorem StayKept.refl (r : ZoneRec) : StayKept r r := ⟨rfl, Or.inl ⟨rfl, rfl⟩⟩

theorem StayKept.trans {a b c : ZoneRec} (h1 : StayKept a b) (h2 : StayKept b c) : StayKept a c := by
  refine ⟨h2.limit.trans h1.limit, ?_⟩
  rcases h2.stay with ⟨e1, e2⟩ | e
  · rcases h1.stay with ⟨g1, g2⟩ | ⟨g1, g2⟩
    · exact Or.inl ⟨e1.trans g1, e2.trans g2⟩
    · exact Or.inr ⟨e1.trans g1, e2.trans g2⟩
  · exact Or.inr e

theorem Asked.stay {a b : ZoneRec} (h : Asked a b) : StayKept a b := by
  rw [h.rest]
  exact ⟨rfl, Or.inl ⟨rfl, rfl⟩⟩

theorem waitsAnew_stay (r : ZoneRec) : StayKept r (waitsAnew r) := ⟨rfl, Or.inr ⟨rfl, rfl⟩⟩

/-- The connection step, as the record sees it. -/
theorem connectedTo_record (view : PerSource Bool) (src : Option Source) (r : ZoneRec) :
    (connectedTo view src r).connected = src ∧ (connectedTo view src r).kept = r.kept
      ∧ StayKept r (connectedTo view src r) := by
  unfold connectedTo
  dsimp only
  split
  · exact ⟨rfl, rfl, rfl, Or.inr ⟨rfl, rfl⟩⟩
  · split
    · exact ⟨rfl, rfl, rfl, Or.inr ⟨rfl, rfl⟩⟩
    · exact ⟨rfl, rfl, rfl, Or.inr ⟨rfl, rfl⟩⟩

/-- A lost source, as the records see it (R57). -/
theorem zoneLost_records {z : Zone} {s t : State} (h : ZoneLost z s t) :
    Asked (s.zones.get (otherZone z)) (t.zones.get (otherZone z))
      ∧ (t.zones.get z).kept = (s.zones.get z).kept ∧ StayKept (s.zones.get z) (t.zones.get z)
      ∧ ((s.zones.get z).state ∈ [ZoneState.playing, .fadingIn, .reconfiguring] →
          (t.zones.get z).state = .waiting ∧ (t.zones.get z).gateOpen = false ∧ (t.zones.get z).fade = gainFloor) := by
  have ho := otherZone_ne z
  have sk : ∀ r r' : ZoneRec, StayKept { r with gateOpen := false, held := .empty } r' → StayKept r r' :=
    fun _ _ h => ⟨h.limit, h.stay⟩
  cases hq : (s.zones.get z).state with
  | waiting | silent =>
    rw [h.closed (by simp [hq])]
    exact ⟨.refl _, rfl, .refl _, by simp⟩
  | playing | fadingIn =>
    obtain ⟨a, ha, hb⟩ := h.played (by simp [hq])
    have e1 : t.zones.get z = waitsAnew { s.zones.get z with gateOpen := false } := by
      rw [hb, ha.rest]
      simp
    have e2 : t.zones.get (otherZone z) = s.zones.get (otherZone z) := by
      rw [hb, ha.rest]
      simp [PerZone.get_set_ne _ _ _ _ ho]
    rw [e1, e2]
    exact ⟨.refl _, rfl, ⟨rfl, Or.inr ⟨rfl, rfl⟩⟩, fun _ => ⟨rfl, rfl, rfl⟩⟩
  | fadingOut =>
    obtain ⟨a, b, c, ha, hb, hc, hd⟩ := h.faded hq
    obtain ⟨k1, k2⟩ := chain_records ha hb hc hd
    obtain ⟨-, c2, c3⟩ := connectedTo_record s.view (s.zones.get z).pending
      { s.zones.get z with gateOpen := false, held := .empty }
    refine ⟨k2, ?_, sk _ _ (c3.trans k1.stay), by simp⟩
    rw [k1.rest]
    exact c2
  | reconfiguring =>
    obtain ⟨a, b, c, ha, hb, hc, hd⟩ := h.reconfigured hq
    obtain ⟨k1, k2⟩ := chain_records ha hb hc hd
    refine ⟨k2, ?_, sk _ _ (StayKept.trans (waitsAnew_stay _) k1.stay), fun _ => ⟨?_, ?_, ?_⟩⟩
    · rw [k1.rest]
      rfl
    · exact k1.waiting.mpr rfl
    · rw [k1.rest]
      rfl
    · rw [k1.rest]
      rfl

/-- A moved record and the other zone's. -/
theorem zoneMoved_records {z : Zone} {f : ZoneRec → ZoneRec} {s t : State} (h : ZoneMoved z f s t) :
    t.zones.get z = f (s.zones.get z) ∧ t.zones.get (otherZone z) = s.zones.get (otherZone z) := by
  rw [h]
  exact ⟨by simp, by simp [PerZone.get_set_ne _ _ _ _ (otherZone_ne z)]⟩

/-- The first step of R65, as the records see it. -/
theorem statusTaken_records {z : Zone} {s t : State} (h : StatusTaken z s t) :
    Asked (s.zones.get (otherZone z)) (t.zones.get (otherZone z))
      ∧ (t.zones.get z).kept = (s.zones.get z).kept ∧ StayKept (s.zones.get z) (t.zones.get z) := by
  by_cases hb : zoneBehind s z
  · obtain ⟨x, hc, hw⟩ := hb
    cases hv : s.view.get x with
    | false =>
      obtain ⟨k1, k2, k3, -⟩ := zoneLost_records (h.lost x hc hv fun e => by simp [hw.mp e] at hv)
      exact ⟨k1, k2, k3⟩
    | true =>
      obtain ⟨e1, e2⟩ := zoneMoved_records (h.gained x hc hv (hw.mpr hv))
      rw [e1, e2]
      exact ⟨.refl _, rfl, rfl, Or.inr ⟨rfl, rfl⟩⟩
  · rw [h.still hb]
    exact ⟨.refl _, rfl, .refl _⟩

/-- The second step of R65, as the records see it. -/
theorem keptTaken_records {z : Zone} {s t : State} (h : KeptTaken z s t) :
    t.zones.get (otherZone z) = s.zones.get (otherZone z)
      ∧ (t.zones.get z).kept = none ∧ StayKept (s.zones.get z) (t.zones.get z) := by
  have ho := otherZone_ne z
  cases hk : (s.zones.get z).kept with
  | none =>
    rw [h.none hk]
    exact ⟨rfl, hk, .refl _⟩
  | some src =>
    have k := h.taken src hk
    set u := { s with zones := s.zones.set z { s.zones.get z with kept := none } } with hu
    have u1 : u.zones.get z = { s.zones.get z with kept := none } := by simp [hu]
    have u2 : u.zones.get (otherZone z) = s.zones.get (otherZone z) := by
      simp [hu, PerZone.get_set_ne _ _ _ _ ho]
    have same : t = { u with dirty := t.dirty } → t.zones.get (otherZone z) = s.zones.get (otherZone z)
        ∧ (t.zones.get z).kept = Option.none ∧ StayKept (s.zones.get z) (t.zones.get z) := by
      intro e
      rw [e]
      refine ⟨u2, ?_, ?_⟩
      · show (u.zones.get z).kept = Option.none
        rw [u1]
      · show StayKept _ (u.zones.get z)
        rw [u1]
        exact ⟨rfl, Or.inl ⟨rfl, rfl⟩⟩
    have moved : ∀ f : ZoneRec → ZoneRec, ZoneMoved z f u t →
        (f { s.zones.get z with kept := none }).kept = Option.none →
        StayKept (s.zones.get z) (f { s.zones.get z with kept := none }) →
        t.zones.get (otherZone z) = s.zones.get (otherZone z)
        ∧ (t.zones.get z).kept = Option.none ∧ StayKept (s.zones.get z) (t.zones.get z) := by
      intro f hm hf hs
      obtain ⟨e1, e2⟩ := zoneMoved_records hm
      rw [e1, e2, u1]
      exact ⟨u2, hf, hs⟩
    by_cases hs : (u.zones.get z).state ∈ [ZoneState.playing, .fadingIn, .reconfiguring]
    · by_cases hc : src = (u.zones.get z).connected
      · exact same (k.same hs hc)
      · exact moved _ (k.other hs hc) rfl ⟨rfl, Or.inl ⟨rfl, rfl⟩⟩
    · by_cases hf : (u.zones.get z).state = .fadingOut
      · exact moved _ (k.fading hf) rfl ⟨rfl, Or.inl ⟨rfl, rfl⟩⟩
      · have hw : (u.zones.get z).state ∈ [ZoneState.waiting, .silent] := by
          revert hs hf
          cases (u.zones.get z).state <;> simp
        obtain ⟨-, c2, c3⟩ := connectedTo_record u.view src { s.zones.get z with kept := none }
        exact moved _ (k.closed hw) c2 ⟨c3.limit, c3.stay⟩

/-- The third step of R65, as the records see it. -/
theorem heldTaken_records {z : Zone} {s t : State} (h : HeldTaken z s t) :
    Asked (s.zones.get (otherZone z)) (t.zones.get (otherZone z))
      ∧ t.zones.get z = { s.zones.get z with state := (t.zones.get z).state, held := (t.zones.get z).held }
      ∧ ((t.zones.get z).state = (s.zones.get z).state
          ∨ ((s.zones.get z).state = .playing ∨ (s.zones.get z).state = .fadingIn)
            ∧ (t.zones.get z).state = .reconfiguring) := by
  have ho := otherZone_ne z
  by_cases he : (s.zones.get z).held = .empty
  · rw [h.waits (Or.inl he)]
    exact ⟨.refl _, rfl, Or.inl rfl⟩
  by_cases hp : (s.zones.get z).state ∈ [ZoneState.playing, .fadingIn]
  · obtain ⟨e1, e2⟩ := zoneMoved_records (h.reconfigures he hp)
    rw [e1, e2]
    exact ⟨.refl _, rfl, Or.inr ⟨by simpa using hp, rfl⟩⟩
  by_cases hw : (s.zones.get z).state ∈ [ZoneState.waiting, .silent]
  · obtain ⟨a, ha, hb⟩ := h.applies he hw
    have h1 := examinedFor_asked hb z
    have h2 := examinedFor_asked hb (otherZone z)
    have e1 : a.zones.get z = { s.zones.get z with held := .empty } := by
      rw [ha.rest]
      simp
    have e2 : a.zones.get (otherZone z) = s.zones.get (otherZone z) := by
      rw [ha.rest]
      simp [PerZone.get_set_ne _ _ _ _ ho]
    rw [e1] at h1
    rw [e2] at h2
    refine ⟨h2, ?_, ?_⟩
    · rw [h1.rest]
    · exact h1.state
  · have : (s.zones.get z).state ∈ [ZoneState.fadingOut, .reconfiguring] := by
      revert hp hw
      cases (s.zones.get z).state <;> simp
    rw [h.waits (Or.inr this)]
    exact ⟨.refl _, rfl, Or.inl rfl⟩

/-- The wait limit's step, as the records see it. -/
theorem limitTaken_records {z : Zone} {s t : State} (h : LimitTaken z s t) :
    t.zones.get (otherZone z) = s.zones.get (otherZone z)
      ∧ t.zones.get z = { s.zones.get z with noSignal := (t.zones.get z).noSignal } := by
  have ho := otherZone_ne z
  by_cases hr : (s.zones.get z).state = .waiting ∧ (s.zones.get z).noSignal = false
      ∧ (s.zones.get z).waitLimit ≤ (s.zones.get z).waited
  · rw [h.1 hr]
    exact ⟨by simp [PerZone.get_set_ne _ _ _ _ ho], by simp⟩
  · rw [h.2 hr]
    exact ⟨rfl, rfl⟩

/-- What a zone that resumes makes of the records and of the attention state (R59, R65). -/
structure ResumedRecords (z : Zone) (s t : State) : Prop where
  other : Asked (s.zones.get (otherZone z)) (t.zones.get (otherZone z))
  kept : (t.zones.get z).kept = none
  still : (s.zones.get z).kept = none → ¬zoneBehind s z →
    t.zones.get z = { s.zones.get z with
      state := (t.zones.get z).state, held := (t.zones.get z).held, noSignal := (t.zones.get z).noSignal }
  reconfigures : (s.zones.get z).kept = none → ¬zoneBehind s z → (s.zones.get z).held ≠ .empty →
    (s.zones.get z).state ∈ [ZoneState.playing, .fadingIn, .reconfiguring] → (t.zones.get z).state = .reconfiguring
  lost : ∀ x, (s.zones.get z).kept = none → (s.zones.get z).connected = some x → s.view.get x = false →
    (s.zones.get z).state ∈ [ZoneState.playing, .fadingIn, .reconfiguring] →
    (t.zones.get z).state = .waiting ∧ (t.zones.get z).gateOpen = false ∧ (t.zones.get z).fade = gainFloor
  gained : ∀ x, (s.zones.get z).kept = none → (s.zones.get z).connected = some x → s.view.get x = true →
    (s.zones.get z).state = .waiting →
    (t.zones.get z).gateOpen = true ∧ (t.zones.get z).fade = gainFloor ∧ (t.zones.get z).connected = some x
  chosen : ∀ src, (s.zones.get z).kept = some src → ¬zoneBehind s z →
    (s.zones.get z).state ∈ [ZoneState.waiting, .silent] → (t.zones.get z).connected = src

/-- A zone resumes, as the records see it (R65). -/
theorem zoneResumed_records {z : Zone} {s t : State} (h : ZoneResumed z s t) : ResumedRecords z s t := by
  obtain ⟨a, b, c, ha, hb, hc, hd⟩ := h
  obtain ⟨a1, a2, a3⟩ := statusTaken_records ha
  obtain ⟨b1, b2, b3⟩ := keptTaken_records hb
  obtain ⟨c1, c2, c3⟩ := heldTaken_records hc
  obtain ⟨d1, d2⟩ := limitTaken_records hd
  -- the third and the fourth step together
  have rest : t.zones.get z = { b.zones.get z with
      state := (t.zones.get z).state, held := (t.zones.get z).held, noSignal := (t.zones.get z).noSignal } := by
    rw [d2, c2]
  have st : (t.zones.get z).state = (c.zones.get z).state := by rw [d2]
  have waits : (b.zones.get z).state = .waiting → (t.zones.get z).state = .waiting := by
    intro hw
    rcases c3 with e | ⟨e | e, -⟩
    · rw [st, e, hw]
    · simp [hw] at e
    · simp [hw] at e
  have nokept : (s.zones.get z).kept = none → b.zones.get z = a.zones.get z := by
    intro hk
    rw [hb.none (a2.trans hk)]
  have nostatus : ¬zoneBehind s z → a.zones.get z = s.zones.get z := by
    intro hn
    rw [ha.still hn]
  refine ⟨?_, ?_, ?_, ?_, ?_, ?_, ?_⟩
  · have := a1.trans (b1 ▸ c1)
    rwa [← d1] at this
  · rw [rest]
    exact b2
  · intro hk hn
    rw [rest, nokept hk, nostatus hn]
  · intro hk hn he hs
    have e := (nokept hk).trans (nostatus hn)
    rw [← e] at he hs
    rw [st]
    by_cases hp : (b.zones.get z).state ∈ [ZoneState.playing, .fadingIn]
    · rw [(zoneMoved_records (hc.reconfigures he hp)).1]
    · have hr : (b.zones.get z).state = .reconfiguring := by
        revert hs hp
        cases (b.zones.get z).state <;> simp
      rw [hc.waits (Or.inr (by simp [hr]))]
      exact hr
  · intro x hk hx hv hs
    have hw : (s.zones.get z).state ≠ .waiting := by
      intro e
      simp [e] at hs
    obtain ⟨-, -, -, k⟩ := zoneLost_records (ha.lost x hx hv hw)
    obtain ⟨k1, k2, k3⟩ := k hs
    refine ⟨waits (by rw [nokept hk]; exact k1), ?_, ?_⟩
    · rw [rest, nokept hk]
      exact k2
    · rw [rest, nokept hk]
      exact k3
  · intro x hk hx hv hw
    have e := (zoneMoved_records (ha.gained x hx hv hw)).1
    rw [rest, nokept hk, e]
    exact ⟨rfl, rfl, hx⟩
  · intro src hk hn hs
    have e := nostatus hn
    have k := hb.taken src (by rw [e]; exact hk)
    have := (zoneMoved_records (k.closed (by simpa [e] using hs))).1
    rw [rest, this]
    exact (connectedTo_record _ _ _).1

/-- A zone with nothing to resume changes at most its flag, with the attention state (R59, R65). -/
theorem zoneResumed_idle {z : Zone} {s t : State} (h : ZoneResumed z s t) (hk : (s.zones.get z).kept = none)
    (hn : ¬zoneBehind s z) (he : (s.zones.get z).held = .empty) :
    t = { s with zones := t.zones, att := t.att, dirty := t.dirty }
      ∧ t.zones.get (otherZone z) = s.zones.get (otherZone z) := by
  have ho := otherZone_ne z
  obtain ⟨a, b, c, ha, hb, hc, hd⟩ := h
  have ea := ha.still hn
  have eb := hb.none (by rw [ea]; exact hk)
  have ec := hc.waits (Or.inl (by rw [eb, ea]; exact he))
  have e : c = { s with dirty := c.dirty } := by rw [ec, eb, ea]
  by_cases hr : (c.zones.get z).state = .waiting ∧ (c.zones.get z).noSignal = false
      ∧ (c.zones.get z).waitLimit ≤ (c.zones.get z).waited
  · rw [hd.1 hr, e]
    exact ⟨rfl, by simp [PerZone.get_set_ne _ _ _ _ ho]⟩
  · rw [hd.2 hr, e]
    exact ⟨rfl, rfl⟩

/-- A zone that resumes raises ZONE_NOSIGNAL exactly where it comes to show no signal, its wait limit in its range
(R59; log 17). -/
def ZoneNotice (z : Zone) (s t : State) : Prop :=
  (t.att = s.att ∧ ((t.zones.get z).noSignal = true → (s.zones.get z).noSignal = true))
    ∨ (t.att = { s.att with pending := s.att.pending ||| 0x0008#16 } ∧ (t.zones.get z).noSignal = true
        ∧ (500 ≤ (s.zones.get z).waitLimit → (s.zones.get z).noSignal = false))

/-- A zone that resumes, as the attention state sees it (R59; log 17). -/
theorem resumeZone_notice (z : Zone) (s : State) : ZoneNotice z s (resumeZone z s) := by
  unfold ZoneNotice
  have ha := statusTaken_records (resumeCarrying_spec z s)
  have hb := keptTaken_records (resumeSource_spec z (resumeCarrying z s))
  have hc := heldTaken_records (resumeHeld_spec z (resumeSource z (resumeCarrying z s)))
  have hd := checkLimit_spec z (resumeHeld z (resumeSource z (resumeCarrying z s)))
  have hs : StayKept (s.zones.get z)
      ((resumeHeld z (resumeSource z (resumeCarrying z s))).zones.get z) := by
    refine ha.2.2.trans (hb.2.2.trans ?_)
    rw [hc.2.1]
    exact ⟨rfl, Or.inl ⟨rfl, rfl⟩⟩
  have ht : (resumeHeld z (resumeSource z (resumeCarrying z s))).att = s.att := by simp
  unfold resumeZone
  set c := resumeHeld z (resumeSource z (resumeCarrying z s)) with hcd
  by_cases hr : (c.zones.get z).state = .waiting ∧ (c.zones.get z).noSignal = false
      ∧ (c.zones.get z).waitLimit ≤ (c.zones.get z).waited
  · right
    rw [hd.1 hr, ht]
    refine ⟨rfl, by simp, fun hl => ?_⟩
    rcases hs.stay with e | e
    · rw [← e.1]
      exact hr.2.1
    · have := hr.2.2
      rw [e.2, hs.limit] at this
      omega
  · left
    rw [hd.2 hr]
    refine ⟨ht, fun hf => ?_⟩
    rcases hs.stay with e | e
    · rw [← e.1]
      exact hf
    · exact absurd (e.1.symm.trans hf) (by decide)

/-! ### The audio blocks run again (R135) -/

/-- The blocks behind a zone, its record and the attention state are all that its resumption changes. -/
def ResumedBeside (s t : State) : Prop :=
  t = { s with
    zones := t.zones, dec := t.dec, bass := t.bass, gain := t.gain, mods := t.mods, pool := t.pool, att := t.att,
    dirty := t.dirty }

theorem resumeZone_rest (z : Zone) (s : State) : ResumedBeside s (resumeZone z s) := by
  unfold ResumedBeside
  apply State.ext_fields <;> simp

/-- The marks that stood before a zone resumes say nothing of it. -/
theorem zoneResumed_unmarked {z : Zone} {s t : State} (d : List Rec) (h : ZoneResumed z s t) :
    ZoneResumed z { s with dirty := d } t := by
  obtain ⟨a, b, c, ha, rest⟩ := h
  exact ⟨a, b, c, ⟨fun x hc hv hs => zoneLost_unmarked d (ha.lost x hc hv hs), ha.gained, ha.still⟩, rest⟩

/-- The distances, the lip-sync slots and the staged configuration are as they were. -/
def SettingsKept (s t : State) : Prop :=
  t.pool.dist = s.pool.dist ∧ t.pool.lipsync = s.pool.lipsync ∧ t.bass.staged = s.bass.staged

theorem SettingsKept.trans {s t u : State} (h : SettingsKept s t) (k : SettingsKept t u) : SettingsKept s u :=
  ⟨k.1.trans h.1, k.2.1.trans h.2.1, k.2.2.trans h.2.2⟩

/-- Applied changes keep the settings (R61). -/
theorem changesApplied_settings {z : Zone} {s t : State} (h : ChangesApplied z s t) : SettingsKept s t := by
  have hp : t.pool.dist = s.pool.dist ∧ t.pool.lipsync = s.pool.lipsync := by
    by_cases hd : (s.zones.get z).held.delay = true
    · rw [(h.delay hd).rest]
      exact ⟨rfl, rfl⟩
    · rw [h.noDelay (by simpa using hd)]
      exact ⟨rfl, rfl⟩
  refine ⟨hp.1, hp.2, ?_⟩
  by_cases hs : (s.zones.get z).held.speakers = true
  · rw [h.speakers hs]
  · rw [h.noSpeakers (by simpa using hs)]

theorem examinedFor_settings {held : HeldChanges} {s t : State} (h : ExaminedFor held s t) : SettingsKept s t := by
  by_cases hd : held.delay = true
  · rw [(h.1 hd).rest]
    exact ⟨rfl, rfl, rfl⟩
  · rw [h.2 (by simpa using hd)]
    exact ⟨rfl, rfl, rfl⟩

theorem zoneMoved_settings {z : Zone} {f : ZoneRec → ZoneRec} {s t : State} (h : ZoneMoved z f s t) :
    SettingsKept s t := by
  rw [h]
  exact ⟨rfl, rfl, rfl⟩

theorem gateClosed_settings {z : Zone} {s t : State} (h : GateClosed z s t) : SettingsKept s t := by
  rw [h.rest]
  exact ⟨rfl, rfl, rfl⟩

/-- A state that differs in its marks alone keeps the settings. -/
theorem settings_of_marks {s t : State} (h : t = { s with dirty := t.dirty }) : SettingsKept s t := by
  rw [h]
  exact ⟨rfl, rfl, rfl⟩

theorem zoneLost_settings {z : Zone} {s t : State} (h : ZoneLost z s t) : SettingsKept s t := by
  have chain : ∀ {f : ZoneRec → ZoneRec} {a b c : State}, GateClosed z s a → ChangesApplied z a b → ZoneMoved z f b c →
      ExaminedFor (s.zones.get z).held c t → SettingsKept s t := fun ha hb hc hd =>
    (gateClosed_settings ha).trans ((changesApplied_settings hb).trans
      ((zoneMoved_settings hc).trans (examinedFor_settings hd)))
  cases hq : (s.zones.get z).state with
  | waiting | silent => exact settings_of_marks (h.closed (by simp [hq]))
  | playing | fadingIn =>
    obtain ⟨a, ha, hb⟩ := h.played (by simp [hq])
    exact (gateClosed_settings ha).trans (zoneMoved_settings hb)
  | fadingOut =>
    obtain ⟨a, b, c, ha, hb, hc, hd⟩ := h.faded hq
    exact chain ha hb hc hd
  | reconfiguring =>
    obtain ⟨a, b, c, ha, hb, hc, hd⟩ := h.reconfigured hq
    exact chain ha hb hc hd

/-- A zone that resumes keeps the settings (R65). -/
theorem zoneResumed_settings {z : Zone} {s t : State} (h : ZoneResumed z s t) : SettingsKept s t := by
  obtain ⟨a, b, c, ha, hb, hc, hd⟩ := h
  have h1 : SettingsKept s a := by
    by_cases hn : zoneBehind s z
    · obtain ⟨x, hx, hw⟩ := hn
      cases hv : s.view.get x with
      | false => exact zoneLost_settings (ha.lost x hx hv fun e => by simp [hw.mp e] at hv)
      | true => exact zoneMoved_settings (ha.gained x hx hv (hw.mpr hv))
    · exact settings_of_marks (ha.still hn)
  have h2 : SettingsKept a b := by
    cases hk : (a.zones.get z).kept with
    | none => exact settings_of_marks (hb.none hk)
    | some src =>
      have k := hb.taken src hk
      set u := { a with zones := a.zones.set z { a.zones.get z with kept := none } } with hu
      have hau : SettingsKept a u := ⟨rfl, rfl, rfl⟩
      refine hau.trans ?_
      by_cases hs : (u.zones.get z).state ∈ [ZoneState.playing, .fadingIn, .reconfiguring]
      · by_cases hc : src = (u.zones.get z).connected
        · exact settings_of_marks (k.same hs hc)
        · exact zoneMoved_settings (k.other hs hc)
      · by_cases hf : (u.zones.get z).state = .fadingOut
        · exact zoneMoved_settings (k.fading hf)
        · refine zoneMoved_settings (k.closed ?_)
          revert hs hf
          cases (u.zones.get z).state <;> simp
  have h3 : SettingsKept b c := by
    by_cases he : (b.zones.get z).held = .empty
    · exact settings_of_marks (hc.waits (Or.inl he))
    by_cases hp : (b.zones.get z).state ∈ [ZoneState.playing, .fadingIn]
    · exact zoneMoved_settings (hc.reconfigures he hp)
    by_cases hw : (b.zones.get z).state ∈ [ZoneState.waiting, .silent]
    · obtain ⟨d, hd1, hd2⟩ := hc.applies he hw
      exact (changesApplied_settings hd1).trans (examinedFor_settings hd2)
    · refine settings_of_marks (hc.waits (Or.inr ?_))
      revert hp hw
      cases (b.zones.get z).state <;> simp
  have h4 : SettingsKept c t := by
    by_cases hr : (c.zones.get z).state = .waiting ∧ (c.zones.get z).noSignal = false
        ∧ (c.zones.get z).waitLimit ≤ (c.zones.get z).waited
    · rw [hd.1 hr]
      exact ⟨rfl, rfl, rfl⟩
    · exact settings_of_marks (hd.2 hr)
  exact h1.trans (h2.trans (h3.trans h4))

/-- The steps by which the audio blocks run again: the lines to `x`, zone 1 to `a`, zone 2 to `b`, and the rest and
the delay pool to `t` (R135). -/
structure RunSteps (s x a b t : State) : Prop where
  lines : LinesTaken s x
  one : ZoneResumed .z1 { x with clock := .good, audioStarted := true } a
  oneRest : ResumedBeside { x with clock := .good, audioStarted := true } a
  oneNotice : ZoneNotice .z1 { x with clock := .good, audioStarted := true } a
  two : ZoneResumed .z2 a b
  twoRest : ResumedBeside a b
  twoNotice : ZoneNotice .z2 a b
  streams : ∀ m, t.ms.get m = if (s.ms.get m).state = .running then { s.ms.get m with conv := .empty } else s.ms.get m
  knob : t.knob = { s.knob with
    a := { s.knob.a with taken := none, timer := true }
    b := { s.knob.b with taken := none, timer := true }
    reference := none }
  pool : Examined { b with
    ms := t.ms, knob := t.knob, dec := { b.dec with sums := .zero, frames := 0 }
    pool := { b.pool with
      presence := b.bass.staged.presence
      staged := computeSet b.bass.staged.presence b.pool.dist b.pool.lipsync } } t

section RunSteps
variable {s x a b t : State} (h : RunSteps s x a b t)
include h

theorem RunSteps.rest : t = { s with
    clock := .good, audioStarted := true, dirty := t.dirty, att := t.att, view := t.view, sa := t.sa,
    ms := t.ms, zones := t.zones, dec := t.dec, bass := t.bass, gain := t.gain, knob := t.knob,
    pool := t.pool, mods := t.mods } := by
  rw [h.pool.rest, h.twoRest, h.oneRest, h.lines.rest]

theorem RunSteps.atView : t.view = x.view ∧ a.view = x.view := by
  rw [h.pool.rest, h.twoRest, h.oneRest]
  exact ⟨rfl, rfl⟩

theorem RunSteps.atLines : t.sa = x.sa := by
  rw [h.pool.rest, h.twoRest, h.oneRest]

theorem RunSteps.records1 : ResumedRecords .z1 { x with clock := .good, audioStarted := true } a :=
  zoneResumed_records h.one

theorem RunSteps.records2 : ResumedRecords .z2 a b := zoneResumed_records h.two

theorem RunSteps.zones : x.zones = s.zones := by rw [h.lines.rest]

/-- Before its step zone 2 can only have been asked for a DELAY change. -/
theorem RunSteps.before2 : Asked (s.zones.get .z2) (a.zones.get .z2) := by
  have := h.records1.other
  rwa [show State.zones { x with clock := .good, audioStarted := true } = s.zones from h.zones] at this

/-- After its step a zone can only be asked for a DELAY change. -/
theorem RunSteps.after1 : Asked (a.zones.get .z1) (t.zones.get .z1) :=
  h.records2.other.trans (examined_asked h.pool .z1)

theorem RunSteps.after2 : Asked (b.zones.get .z2) (t.zones.get .z2) := examined_asked h.pool .z2

theorem RunSteps.behind1 :
    zoneBehind { x with clock := .good, audioStarted := true } .z1 ↔ zoneBehind { s with view := t.view } .z1 := by
  unfold zoneBehind
  simp only [h.zones, h.atView.1]

theorem RunSteps.behind2 : zoneBehind a .z2 ↔ zoneBehind { s with view := t.view } .z2 := by
  have hc : (a.zones.get .z2).connected = (s.zones.get .z2).connected := by rw [h.before2.rest]
  unfold zoneBehind
  simp only [hc, h.before2.waiting, h.atView.1, h.atView.2]

/-- What the first zone's step is from, in the state that stood. -/
theorem RunSteps.from2 : (a.zones.get .z2).kept = (s.zones.get .z2).kept
    ∧ (a.zones.get .z2).connected = (s.zones.get .z2).connected
    ∧ ((s.zones.get .z2).held ≠ .empty → (a.zones.get .z2).held ≠ .empty) := by
  refine ⟨by rw [h.before2.rest], by rw [h.before2.rest], fun hh => ?_⟩
  rcases h.before2.held with e | e
  · rw [e]
    exact hh
  · rw [e]
    intro hc
    have := congrArg HeldChanges.delay hc
    simp [HeldChanges.empty] at this

/-- Zone 2 reaches its step in the state that stood, or in RECONFIGURING from PLAYING or FADING_IN. -/
theorem RunSteps.state2 (l : List ZoneState) (hs : (s.zones.get .z2).state ∈ l)
    (hl : ZoneState.reconfiguring ∈ l ∨ (ZoneState.playing ∉ l ∧ ZoneState.fadingIn ∉ l)) :
    (a.zones.get .z2).state ∈ l := by
  rcases h.before2.state with e | ⟨e, e'⟩
  · rw [e]
    exact hs
  · rw [e']
    rcases hl with hl | ⟨hl, hl'⟩
    · exact hl
    · rcases e with e | e <;> rw [e] at hs <;> contradiction

/-- The attention state as the audio blocks run again (R26, R59). -/
theorem RunSteps.notice : ResumedNotice s t := by
  have ht : t.att = b.att := by rw [h.pool.rest]
  have f1 : (t.zones.get .z1).noSignal = (a.zones.get .z1).noSignal := by rw [h.after1.rest]
  have f2 : (t.zones.get .z2).noSignal = (b.zones.get .z2).noSignal := by rw [h.after2.rest]
  have g2 : (a.zones.get .z2).noSignal = (s.zones.get .z2).noSignal
      ∧ (a.zones.get .z2).waitLimit = (s.zones.get .z2).waitLimit := by rw [h.before2.rest]; exact ⟨rfl, rfl⟩
  have n1 := h.oneNotice
  have n2 := h.twoNotice
  unfold ZoneNotice at n1 n2
  simp only [h.zones] at n1
  rw [g2.1, g2.2, ← f2] at n2
  rw [← f1] at n1
  have or8 : ∀ w : Word, w ||| 0x0008#16 ||| 0x0008#16 = w ||| 0x0008#16 := fun w => by
    rw [BitVec.or_assoc]
    simp
  -- the source's part
  obtain ⟨source, hs, hs1, hs2⟩ : ∃ source : Word, x.att = { s.att with pending := s.att.pending ||| source }
      ∧ ((∃ l, LineDropped (s.sa.get l)) → source = 0x0002#16)
      ∧ ((∀ l, ¬LineDropped (s.sa.get l)) → source = 0) := by
    by_cases hd : ∃ l, LineDropped (s.sa.get l)
    · exact ⟨0x0002#16, h.lines.dropped hd, fun _ => rfl, fun hn => absurd hd fun ⟨l, hl⟩ => hn l hl⟩
    · refine ⟨0, ?_, fun hd' => absurd hd' hd, fun _ => rfl⟩
      rw [h.lines.kept fun l hl => hd ⟨l, hl⟩]
      simp
  have result : ∀ n : Word, n ∈ [0x0000#16, 0x0008#16] →
      t.att = { s.att with pending := s.att.pending ||| source ||| n } →
      ((∃ z, (s.zones.get z).noSignal = false ∧ (t.zones.get z).noSignal = true) → n = 0x0008#16) →
      (WaitLimitsInRange s → (∀ z, ¬((s.zones.get z).noSignal = false ∧ (t.zones.get z).noSignal = true)) → n = 0) →
      ResumedNotice s t := fun n h1 h2 h3 h4 => ⟨source, n, h1, h2, hs1, hs2, h3, h4⟩
  rcases n1 with ⟨p1, p2⟩ | ⟨p1, p2, p3⟩
  · rcases n2 with ⟨q1, q2⟩ | ⟨q1, q2, q3⟩
    · refine result 0x0000#16 (by simp) ?_ ?_ fun _ _ => rfl
      · rw [ht, q1, p1, hs]
        simp
      · rintro ⟨z, hf, hg⟩
        cases z with
        | z1 => simp [p2 hg] at hf
        | z2 => simp [q2 hg] at hf
    · refine result 0x0008#16 (by simp) ?_ (fun _ => rfl) fun hw hn => absurd ⟨q3 (hw .z2).1, q2⟩ (hn .z2)
      rw [ht, q1, p1, hs]
  · refine result 0x0008#16 (by simp) ?_ (fun _ => rfl) fun hw hn => absurd ⟨p3 (hw .z1).1, p2⟩ (hn .z1)
    rcases n2 with ⟨q1, q2⟩ | ⟨q1, q2, q3⟩
    · rw [ht, q1, p1, hs]
    · rw [ht, q1, p1, hs]
      simp only [or8]

/-- The whole course of the audio blocks' run. -/
theorem RunSteps.resumed : Resumed s t := by
  have hb2 := h.behind2
  have hb1 := h.behind1
  have r1 := h.records1
  have r2 := h.records2
  have f2 := h.from2
  have tv := h.atView.1
  have hx : { x with clock := .good, audioStarted := true, dirty := s.dirty }
      = { s with clock := .good, audioStarted := true, att := x.att, view := t.view, sa := t.sa } := by
    rw [h.atLines, h.atView.1, h.lines.rest]
  have pool := (zoneResumed_settings h.one).trans (zoneResumed_settings h.two)
  have hs : SettingsKept s b := by
    have : SettingsKept s x := by
      rw [h.lines.rest]
      exact ⟨rfl, rfl, rfl⟩
    exact this.trans pool
  simp only [h.zones] at r1 hb1
  refine ⟨h.rest, h.notice, ⟨x.att, a, b, h.lines.dropped, h.lines.kept, ?_, h.two, h.pool⟩, ?_, h.streams, ?_, ?_,
    h.knob, ?_, ?_, ?_, ?_, ?_, ?_, ?_, ?_⟩
  · have := zoneResumed_unmarked s.dirty h.one
    rwa [hx] at this
  · rw [h.atLines]
    exact h.lines.lines
  · intro src
    rw [tv]
    cases src with
    | sa l =>
      dsimp only
      split
      · rename_i hd
        exact h.lines.gone l hd
      · rename_i hd
        exact h.lines.stays _ fun l' hl => by cases hl; exact hd
    | ms m => exact h.lines.stays _ (by simp)
    | tuner => exact h.lines.stays _ (by simp)
  · rw [h.pool.rest]
    exact ⟨rfl, rfl⟩
  · rw [h.pool.rest]
    simp only [hs.1, hs.2.1, hs.2.2]
    exact ⟨trivial, trivial, trivial, trivial⟩
  · intro z
    cases z with
    | z1 =>
      rw [h.after1.rest]
      exact r1.kept
    | z2 =>
      rw [h.after2.rest]
      exact r2.kept
  · intro z hk hn
    cases z with
    | z1 =>
      rw [h.after1.rest, r1.still hk fun hh => hn (hb1.mp hh)]
      exact ⟨rfl, rfl, rfl, rfl⟩
    | z2 =>
      rw [h.after2.rest, r2.still (f2.1.trans hk) fun hh => hn (hb2.mp hh), h.before2.rest]
      exact ⟨rfl, rfl, rfl, rfl⟩
  · intro z hk hn he hp
    have hl : (s.zones.get z).state ∈ [ZoneState.playing, .fadingIn, .reconfiguring] := by
      revert hp
      cases (s.zones.get z).state <;> simp
    have stays : ∀ r r' : ZoneRec, Asked r r' → r.state = .reconfiguring → r'.state = .reconfiguring := by
      intro r r' ha hr
      rcases ha.state with e | ⟨-, e⟩
      · exact e.trans hr
      · exact e
    cases z with
    | z1 => exact stays _ _ h.after1 (r1.reconfigures hk (fun hh => hn (hb1.mp hh)) he hl)
    | z2 =>
      exact stays _ _ h.after2 (r2.reconfigures (f2.1.trans hk) (fun hh => hn (hb2.mp hh)) (f2.2.2 he)
        (h.state2 _ hl (Or.inl (by simp))))
  · intro hn
    have e1 := zoneResumed_idle h.one (by simp only [h.zones]; exact (hn .z1).1) (fun hh => (hn .z1).2.1 (h.behind1.mp hh))
      (by simp only [h.zones]; exact (hn .z1).2.2)
    have hz : a.zones.get .z2 = s.zones.get .z2 := by
      have := e1.2
      rwa [show State.zones { x with clock := .good, audioStarted := true } = s.zones from h.zones] at this
    have e2 := zoneResumed_idle h.two (by rw [hz]; exact (hn .z2).1) (fun hh => (hn .z2).2.1 (hb2.mp hh))
      (by rw [hz]; exact (hn .z2).2.2)
    rw [h.pool.rest, e2.1, e1.1, h.lines.rest]
    exact ⟨rfl, rfl, rfl, rfl⟩
  · intro z y hc hv hk hp
    have hl : (s.zones.get z).state ∈ [ZoneState.playing, .fadingIn, .reconfiguring] := by
      rcases hp with e | e <;> simp [e]
    have ends : ∀ r r' : ZoneRec, Asked r r' → r.state = .waiting ∧ r.gateOpen = false ∧ r.fade = gainFloor →
        r'.state = .waiting ∧ r'.gateOpen = false ∧ r'.fade = gainFloor := by
      rintro r r' ha ⟨h1, h2, h3⟩
      refine ⟨ha.waiting.mpr h1, ?_, ?_⟩
      · rw [ha.rest]
        exact h2
      · rw [ha.rest]
        exact h3
    cases z with
    | z1 => exact ends _ _ h.after1 (r1.lost y hk hc (by rw [← tv]; exact hv) hl)
    | z2 =>
      exact ends _ _ h.after2 (r2.lost y (f2.1.trans hk) (f2.2.1.trans hc) (by rw [h.atView.2, ← tv]; exact hv)
        (h.state2 _ hl (Or.inl (by simp))))
  · intro z y hc hv hk hw
    cases z with
    | z1 =>
      rw [h.after1.rest]
      exact r1.gained y hk hc (by rw [← tv]; exact hv) hw
    | z2 =>
      rw [h.after2.rest]
      exact r2.gained y (f2.1.trans hk) (f2.2.1.trans hc) (by rw [h.atView.2, ← tv]; exact hv)
        (h.before2.waiting.mpr hw)
  · intro z src hk hn hw
    have hl : (s.zones.get z).state ∈ [ZoneState.waiting, .silent] := by
      rcases hw with e | e <;> simp [e]
    cases z with
    | z1 =>
      rw [h.after1.rest]
      exact r1.chosen src hk (fun hh => hn (hb1.mp hh)) hl
    | z2 =>
      rw [h.after2.rest]
      exact r2.chosen src (f2.1.trans hk) (fun hh => hn (hb2.mp hh)) (h.state2 _ hl (Or.inr (by simp)))

end RunSteps

theorem examined_of_eq {u t : State} (h : t = examineZones u) : Examined u t := h ▸ examineZones_spec u

/-- The audio blocks run again from where they stood (R35, R65, R122, R135). -/
theorem resumeAudio_spec (s : State) (h : s.audioRuns = false) : Resumed s (resumeAudio s) := by
  refine RunSteps.resumed (x := resumeLines s)
    (a := resumeZone .z1 { resumeLines s with clock := .good, audioStarted := true })
    (b := resumeZone .z2 (resumeZone .z1 { resumeLines s with clock := .good, audioStarted := true }))
    ⟨resumeLines_spec s h, resumeZone_spec _ _, resumeZone_rest _ _, resumeZone_notice _ _, resumeZone_spec _ _,
      resumeZone_rest _ _, resumeZone_notice _ _, ?_, ?_, ?_⟩
  · intro m
    simp [resumeAudio, resumeReader]
  · simp [resumeAudio, Knob.resume]
  · apply examined_of_eq
    simp [resumeAudio, recompute, Decoder.newWindow]

end Sys2Proof.Machine
end

