-- ==== Sys2Proof/WellFormed.lean ====
section
/-! DEFINITION. Which commands are well formed: operands a row of the table admits. -/

namespace Sys2Proof

open Sys2Proof.Machine

/-- A host access addresses one word: bit 0 of its byte address is not on the bus (R1). -/
def HostAccess.wf (a : HostAccess) : Bool := !a.addr.getLsbD 0

/-- Slots whose writes have rows of their own, whatever the value (R192 and the opcode table). -/
def hasOwnRow : Slot → Bool
  | .attnEnable | .attnAck | .setupLock | .source _ | .volume _ | .mute _ | .fadeRate _ | .waitLimit _
  | .lipsync _ | .decodeMode | .steerSpeed | .format _ | .desc _ _ | .fill _ | .speaker _ | .maxVolume _
  | .moduleEn _ | .dist _ | .seqLen | .entry _ _ | .region | .band | .code | .feDivisor => true
  | .systemCmd | .knobZone | .knobStep | .srcTrim _ | .streamCmd _ | .trim _ | .moduleCmd | .measureCmd
  | .tunerCmd | .seekThr | .blendThr | .afThr | .afFollow => false

/-- Command values that have rows of their own (R22, R38, R39, R134, R146, R165). -/
def hasCommandRow : Slot → Word → Bool
  | .systemCmd, v => v == 1 || v == 2
  | .streamCmd _, v => v == 1 || v == 2
  | .moduleCmd, v => v.toNat / 0x100 == 1
  | .measureCmd, v => v.toNat / 0x1000 == 1
  | .tunerCmd, v => (decide (1 ≤ v.toNat) && decide (v.toNat ≤ 5)) || v.toNat / 0x100 == 1 || v.toNat / 0x100 == 2
  | _, _ => false

/-- A SLOT_WRITE is to a word of the control region or the report area that has no row of its own. -/
def slotWriteWf (off : Nat) (v : Word) : Bool :=
  decide (off % 2 = 0) && decide (off < 0x1000)
    && (match slotAt off with
        | some sl => !hasOwnRow sl && !hasCommandRow sl v
        | none => true)

/-- The most slots a frame's FCK edge can be followed by that count: eight of a TDM8 frame (R27). -/
def maxFrameSlots : Nat := 8

/-- A command is well formed; commands not named here admit every operand. -/
def Instr.wf : Instr → Bool
  | .hostAccessBegin a => a.wf
  | .slotWrite off _ v => slotWriteWf off.toNat v
  | .saFrame _ slots => decide (slots.length ≤ maxFrameSlots)
  | _ => true

end Sys2Proof
end

