-- ==== Sys2Proof/Tests/Slice0.lean ====
section
/-! SUPPORT. Tests of the model: the ill-formed terms that WellFormed refuses, the worked examples of
spec/, one step of a few commands, and for each statement with hypotheses a witness that meets them. -/

set_option autoImplicit false

namespace Sys2Proof.Tests

open Sys2Proof Sys2Proof.Machine

/-! ### WellFormed: an ill-formed term for each check -/

/-- An odd address is not on the bus (R1). -/
theorem test_wf_odd_access : (Instr.hostAccessBegin ⟨0x000001, false, .full, 0⟩).wf = false := by decide

/-- An odd offset names no word. -/
theorem test_wf_odd_offset : (Instr.slotWrite 0x0009 .full 1).wf = false := by decide

/-- An offset past the report area is no SLOT_WRITE. -/
theorem test_wf_past_report_area : (Instr.slotWrite 0x1000 .full 1).wf = false := by decide

/-- A slot with a row of its own, and a command word with a row of its own. -/
theorem test_wf_own_rows :
    (Instr.slotWrite (BitVec.ofNat 16 Slot.setupLock.offset) .full 0).wf = false
      ∧ (Instr.slotWrite (BitVec.ofNat 16 Slot.tunerCmd.offset) .full 5).wf = false
      ∧ (Instr.slotWrite (BitVec.ofNat 16 Slot.tunerCmd.offset) .full 6).wf = true := by decide

/-- A frame has at most eight slots (R27). -/
theorem test_wf_nine_slots :
    (Instr.saFrame .sa1 (List.replicate 9 0)).wf = false
      ∧ (Instr.saFrame .sa1 (List.replicate 8 0)).wf = true := by decide

/-! ### Worked examples of spec/ -/

/-- Coefficients (R96, section 5.7). -/
theorem test_coefficients :
    coeff 0 = 2 ^ 30 ∧ coeff (-90) = 21757440 ∧ coeff (-319) = 1069 ∧ coeff (-320) = 0
      ∧ coeff 20 = 38968 * 2 ^ 16 := by decide

/-- Scaled samples (section 5.7): 1,000,000 at -90, 3 and -3 at -16, and 4,000,000 at +20 saturates. -/
theorem test_scaled_samples :
    scaleByCoeff (coeff (-90)) 1000000 = 20263 ∧ scaleByCoeff (coeff (-16)) 3 = 2
      ∧ scaleByCoeff (coeff (-16)) (-3) = -1 ∧ sat (scaleByCoeff (coeff 20) 4000000) = 8388607 := by decide

/-- The level function (R74 and section 4.7). -/
theorem test_levels :
    level2 805306368 = 473 ∧ level2 20263 = 228 ∧ level2 6000000 = 360 ∧ level2 1500000 = 328
      ∧ level2 7000000 = 363 ∧ level2 4800000 = 355 ∧ level2 0 = 0 := by decide

/-- Steering terms of section 4.7: f and s from the levels 363 and 355, ld from 360 and 328. -/
theorem test_steering_terms :
    steeredTerms ⟨6000000, 1500000, 7000000, 4800000⟩ =
      { fl := -4, fr := -36, c := -16, sw := 0, sl := -8, sr := -40, bl := -24, br := -24, tl := -16, tr := -48 } := by
  decide

/-- A MATRIX frame (R69): L 1,000,000 and R 200,000. -/
theorem test_matrix_frame :
    (formBuses .matrix (.stereo 1000000 200000)).ch =
      { fl := 1000000, fr := 200000, c := 600000, sw := 0, sl := 400000, sr := -400000, bl := 400000,
        br := -400000, tl := 400000, tr := -400000 } := by decide

/-- The -3 dB scaling and a saturated downmix (R70). -/
theorem test_downmix :
    scaleK 4000000 = 2828369
      ∧ (downmix (.eight 4000000 0 4000000 0 4000000 0 0 0)).1 = 8388607 := by decide

/-- Conversion codes (R140): 1.25 V and 0.625 V at divider 1. -/
theorem test_conversion_codes :
    convCode 1250000 1 = 512 ∧ convCode 625000 1 = 256 ∧ convCode 2500000 1 = 1023 ∧ convCode (-1) 1 = 0 := by
  decide

/-- The check word of 0x1234, and the one position its block 0x1234AB is valid at (R179). -/
theorem test_block_check :
    crc8 0x1234 = 0xF1 ∧ validPosition 0x1234AB = some 1 ∧ validAt 0x1234AB 0 = false := by decide +kernel

/-- The frame of a TUNE to FM, region A, code 105 (R156, R159). -/
theorem test_tune_frame :
    (FeCommand.tune .fm .a 105 .plain).frame = [0x7E, 0x04, 0x10, 0x00, 0x00, 0x69, 0x83] := by decide

/-- The delays of section 6.7 and the grants served from what they leave (R113 to R115). -/
theorem test_delay_example :
    let p : PerMain Bool := .all true
    let d : PerMain Nat :=
      { fl := 300, fr := 300, c := 280, sw := 350, sl := 220, sr := 240, bl := 260, br := 260, tl := 250, tr := 250 }
    mainChans.map (distanceDelay p d) = [69, 69, 97, 0, 181, 153, 125, 125, 139, 139]
      ∧ delaySum p d = 1097 ∧ (computeSet p d ⟨150, 40⟩).grant.z1 = 6443
      ∧ (computeSet p d ⟨150, 40⟩).grant.z2 = 4 := by decide +kernel

/-- The layout of the pool's words (R111): zone 1 from word 0 up, ZL at the top and ZR below it. -/
theorem test_line_layout :
    let c : PoolSet := { PoolSet.zero with len := { PerChan.all 0 with fl := 2, fr := 3, tr := 4, zl := 5, zr := 5 } }
    chans.map (lineStart c) = [0, 2, 5, 5, 5, 5, 5, 5, 5, 5, 65531, 65526] := by decide

/-- Knob counts (R105). -/
theorem test_knob_counts :
    knobCount (false, false) (false, true) = 1 ∧ knobCount (false, true) (true, true) = 1
      ∧ knobCount (true, true) (false, true) = -1 ∧ knobCount (false, false) (true, true) = 0 := by decide

/-! ### One step of a few commands -/

/-- A state in which host writes go at once, the audio blocks run, the setup lock is open and the
self-check has passed. -/
def run : State :=
  { State.reset with
    agent := { State.reset.agent with restore := none, lastPart := true }
    clock := .good, audioStarted := true, lock := .unlocked, dirty := []
    meas := { Meas.reset with result := .pass, queue := [], roundRobin := true } }

/-- The state after a command, or the state itself where the command stops. -/
def after (i : Instr) (s : State) : State :=
  match exec i s with
  | .next t => t
  | _ => s

/-- The port is open, the host's turn has come after a part burst, and memory is canonical, as a Bool. -/
def ready (s : State) : Bool := !s.rstnLow && s.agent.port == .free && s.agent.held == none
  && s.agent.restore == none && s.agent.lastPart && s.mem.wf

/-- `ready` gives the premises of the statements about host writes. -/
theorem ready_open {s : State} (h : ready s = true) : PortOpen s ∧ MemoryCanonical s := by
  simp only [ready, Bool.and_eq_true, beq_iff_eq, Bool.not_eq_true'] at h
  obtain ⟨⟨⟨⟨⟨a, b⟩, c⟩, d⟩, e⟩, f⟩ := h
  exact ⟨⟨a, b, c, d, by simp [partsTurn, e]⟩, f⟩

/-- VOLUME above the max volume is clamped to it (R90, R101), and memory holds the clamped word. -/
theorem test_volume_clamped :
    ((after (.volumeWrite .z1 .full 5) run).gain.zones.z1.volume = 0)
      ∧ (after (.volumeWrite .z1 .full 5) run).mem.readWord (slotAddr run (.volume .z1)) = 0 := by
  decide +kernel

/-- SETUP_LOCK 0 on a LOCKED lock gives PENDING with a write-back (R137). -/
theorem test_setup_lock_pending :
    (after (.setupLockWrite .full 0) { run with lock := .locked }).lock = .pending
      ∧ (after (.setupLockWrite .full 0) { run with lock := .locked }).agent.queue = [.setupLock] := by
  decide +kernel

/-- TUNE puts the frame of the target on the line and enters TUNING (R159, R166). -/
theorem test_tune_sends_frame :
    (after (.tune .full) { run with tun := { run.tun with code := 105 } }).fe.txFrames =
        [[0x7E, 0x04, 0x10, 0x00, 0x00, 0x69, 0x83]]
      ∧ (after (.tune .full) run).tun.state = .tuning := by decide +kernel

/-- Zone 2 plays the tuner's pair, the first 24 bits of TA's slots (R44), at -90 level steps: 1,000,000 leaves as
20,263 (R97, section 5.7). -/
theorem test_audio_frame_scales :
    let s := { run with
      zones := run.zones.set .z2 { run.zones.z2 with
        state := .playing, connected := some .tuner, pending := some .tuner, fade := 0, gateOpen := true }
      tun := { run.tun with state := .listening }
      gain := { run.gain with chans := run.gain.chans.set .zl { run.gain.chans.zl with applied := -90 } } }
    (after (.audioFrame [] (0x0F4240FF, 0)) s).links.zl = 20263 := by decide +kernel

/-! ### Witnesses: a state and operands for every statement's hypotheses -/

/-- `run` with zone 1 changed. -/
def zoneRun (f : ZoneRec → ZoneRec) : State := { run with zones := run.zones.upd .z1 f }

/-- `run` with module A changed. -/
def modRun (f : ModuleRec → ModuleRec) : State := { run with mods := run.mods.upd .a f }

/-- `run` with the line SA1 changed. -/
def lineRun (f : SaState → SaState) : State := { run with sa := run.sa.upd .sa1 f }

/-- `run` with the stream MS1 changed. -/
def streamRun (f : Reader → Reader) : State := { run with ms := run.ms.upd .ms1 f }

/-- `run` with the tuner changed. -/
def tunRun (f : Tuner → Tuner) : State := { run with tun := f run.tun }

/-- `run` with the front-end line changed. -/
def feRun (f : FrontEnd → FrontEnd) : State := { run with fe := f run.fe }

/-- `run` with the measurement unit changed. -/
def measRun (f : Meas → Meas) : State := { run with meas := f run.meas }

/-- `run` with the port, the held access and the restore pass given. -/
def portRun (p : Port) (h : Option HeldAccess) (r : Option RestorePass) : State :=
  { run with agent := { run.agent with port := p, held := h, restore := r } }

/-- `run` while the audio blocks are stopped. -/
def stopped (s : State) : State := { s with clock := .failed }

/-- A write burst of one word at address 0. -/
def oneWord (o : BurstOwner) : Burst := ⟨o, 0, true, [0x1234], [0], false⟩

/-- The top word of the memory fitted. -/
def topAccess (w : Bool) : HostAccess := ⟨0xFFFFFE, w, .full, 0x1234⟩

theorem witness_ResetPinFallsCutsBurst :
    let s := portRun (.part (oneWord .writeBack)) none none
    let h := fun w => portRun .free (some ⟨topAccess w, false⟩) none
    (s.mem.wf = true ∧ s.agent.held = none ∧ s.agent.port = .part (oneWord .writeBack)
      ∧ (oneWord .writeBack).isWrite = true ∧ (oneWord .writeBack).words ≠ []
      ∧ (oneWord .writeBack).replaced.length = (oneWord .writeBack).words.length)
    ∧ (∀ w, (h w).mem.wf = true ∧ (h w).agent.held = some ⟨topAccess w, false⟩ ∧ (h w).agent.port = .free
      ∧ accessAddr (topAccess w) < fittedBytes (h w).strap)
    ∧ (∀ w whole, (portRun (.part (oneWord .writeBack)) (some ⟨topAccess w, whole⟩) none).agent.held =
        some ⟨topAccess w, whole⟩)
    ∧ ∀ o ∈ [BurstOwner.fetch .ms1 1, .recall 39], ∀ w,
      let b : Burst := ⟨o, 0, false, [0, 0], [], false⟩
      let s := portRun (.part b) (some ⟨topAccess w, false⟩) none
      s.mem.wf = true ∧ s.agent.held = some ⟨topAccess w, false⟩ ∧ s.agent.port = .part b ∧ b.isWrite = false
        ∧ b.replaced.length ≠ b.words.length := by decide

theorem witness_HostAccessGoesAtFreePort :
    (run.mem.wf = true ∧ run.rstnLow = false ∧ run.agent.port = .free ∧ run.agent.held = none
      ∧ partsTurn run = false ∧ run.agent.restore = none
      ∧ accessAddr (topAccess false) < fittedBytes run.strap ∧ (topAccess false).isWrite = false
      ∧ accessOffset run ⟨0xFF1000, true, .full, 1⟩ = some 0x1000
      ∧ (⟨0, false, ⟨true, false⟩, 0⟩ : HostAccess).lanes ≠ .full ∧ (topAccess false).lanes = .full)
    ∧ (ready run = true ∧ accessOffset run ⟨0xFF0FFE, true, .full, 1⟩ = some (0x0FFE#16).toNat
        ∧ accessOffset run ⟨0xFF0000, true, .full, 1⟩ = some (0x0000#16).toNat)
    ∧ (let s := { run with rstnLow := true }
       s.mem.wf = true ∧ s.rstnLow = true ∧ s.agent.port = .free ∧ s.agent.held = none
        ∧ accessAddr (topAccess true) < fittedBytes s.strap ∧ (topAccess true).isWrite = true)
    ∧ (portRun .host none none).agent.port = .host := by decide

theorem witness_HostAccessHeldOnWait :
    let s := portRun (.part (oneWord .writeBack)) none none
    let r := portRun .free none (some ⟨.audio, 0⟩)
    writeRow (.attnAckWrite .full 0) = some (.attnAck, .full, 0)
      ∧ (s.rstnLow = false ∧ s.agent.held = none ∧ s.agent.port = .part (oneWord .writeBack))
      ∧ (r.rstnLow = false ∧ r.agent.held = none ∧ r.agent.port = .free ∧ r.agent.restore.isSome = true)
      ∧ (let q := { run with agent := { run.agent with lastPart := false, queue := [.tunerCmd] } }
         q.rstnLow = false ∧ q.agent.held = none ∧ q.agent.port = .free ∧ partsTurn q = true)
      ∧ accessOffset r ⟨0xFF0FFE, false, .full, 0⟩ = some 0xFFE := by decide +kernel

theorem witness_UnassignedWordWriteCarried :
    ready run = true ∧ (0x3FE#16).toNat < 0x400 ∧ (0x3FE#16).toNat % 2 = 0 ∧ slotAt (0x3FE#16).toNat = none := by
  decide

theorem witness_FilterBlocksInOrder :
    (∀ i sl v, (i, sl, v) ∈ [(Instr.regionWrite .full 1, Slot.region, 1#16), (.sourceWrite .z1 .full 8, .source .z1, 8),
        (.moduleEnWrite .a .full 0, .moduleEn .a, 0)] → writeRow i = some (sl, .full, v))
    ∧ ready run = true ∧ Lanes.mk true false ≠ .full
    ∧ (ready { run with lock := .locked } = true ∧ (Slot.moduleEn .a).isLockable = true)
    ∧ (ready (tunRun fun x => { x with state := .fault }) = true
        ∧ stateBlocked (tunRun fun x => { x with state := .fault }) .region)
    ∧ (valueBlocked run (.source .z1) 8 ∧ ¬stateBlocked run (.source .z1) ∧ (Slot.source .z1).isLockable = false)
    ∧ slotAt 0x400 = none ∧ slotAt 0xFFE = none := by
  refine ⟨?_, by decide, by decide, by decide, ⟨by decide, ?_⟩, ⟨?_, ?_, by decide⟩, by decide, by decide⟩
  · intro i sl v h
    simp only [List.mem_cons, List.not_mem_nil, or_false, Prod.mk.injEq] at h
    rcases h with ⟨rfl, rfl, rfl⟩ | ⟨rfl, rfl, rfl⟩ | ⟨rfl, rfl, rfl⟩ <;> rfl
  · unfold stateBlocked; decide
  · unfold valueBlocked; decide
  · unfold stateBlocked; decide

theorem witness_TakenSlotWordIsOwnersValue :
    writeRow (.volumeWrite .z1 .full 33) = some (.volume .z1, .full, 33) ∧ ready run = true
      ∧ (Slot.volume .z1).isCommand = false ∧ (Slot.volume .z1).isLockable = false
      ∧ ¬stateBlocked run (.volume .z1) ∧ ¬valueBlocked run (.volume .z1) 33
      ∧ carriedWord run (.volume .z1) 33 = 0
      ∧ run.meas.entries.length = 16
      ∧ (∀ z, gainFloor ≤ (run.gain.zones.get z).maxVolume ∧ (run.gain.zones.get z).maxVolume ≤ gainCeiling)
      ∧ ZonesLaw run ∧ run.audioRuns = true ∧ ∀ z, (run.zones.get z).kept = none := by
  refine ⟨rfl, by decide, by decide, by decide, ?_, ?_, by decide, by decide, ?_, ?_, by decide, ?_⟩
  · unfold stateBlocked; decide
  · unfold valueBlocked; decide
  · intro z; cases z <;> decide
  · intro z; cases z <;> constructor <;> decide
  · intro z; cases z <;> decide

theorem witness_AckAndLockWritesFollowTheirRules :
    (∀ l ∈ [SetupLock.locked, .pending, .unlocked], ready { run with lock := l } = true)
      ∧ 0x07FF#16 &&& 0xF800#16 = 0 ∧ (2 : Word) ≠ 0 ∧ (2 : Word) ≠ 1 := by decide

theorem witness_SettingWritesTakeTheWord :
    ready run = true ∧ (63#16).toNat < (run.ms.get .ms1).size
      ∧ writeRow (.slotWrite (BitVec.ofNat 16 (Slot.srcTrim .tuner).offset) .full 49) =
          some (.srcTrim .tuner, .full, 49)
      ∧ writeRow (.slotWrite (BitVec.ofNat 16 (Slot.trim .zr).offset) .full 49) = some (.trim .zr, .full, 49) := by
  decide

theorem witness_StreamDescriptorTakesTheWord :
    ready run = true ∧ (run.ms.get .ms1).state = .stopped ∧ (0xFFFE#16).getLsbD 0 = false
      ∧ (0xFF#16).toNat ≤ 0xFF := by decide

theorem witness_SourceWriteMovesTheZone :
    (ready (stopped run) = true ∧ (stopped run).audioRuns = false)
    ∧ (ready run = true ∧ run.audioRuns = true ∧ run.zones.z1.state = .silent ∧ run.view.get .tuner = false)
    ∧ (let s := { run with view := run.view.set .tuner true }
       ready s = true ∧ s.audioRuns = true ∧ s.zones.z1.state = .silent ∧ s.view.get .tuner = true)
    ∧ ∀ st ∈ [ZoneState.playing, .fadingIn, .reconfiguring, .fadingOut, .waiting],
        let s := zoneRun fun r => { r with state := st, connected := some .tuner }
        ready s = true ∧ s.audioRuns = true ∧ s.zones.z1.state = st ∧ some (Source.ms .ms1) ≠ s.zones.z1.connected := by
  decide

theorem witness_DecodeModeWriteStagesOrApplies :
    let s := zoneRun fun r => { r with state := .playing }
    (ready run = true ∧ DecodeMode.direct = run.dec.staged ∧ DecodeMode.matrix ≠ run.dec.staged
      ∧ run.audioRuns = true ∧ run.zones.z1.state = .silent)
    ∧ (ready s = true ∧ DecodeMode.matrix ≠ s.dec.staged ∧ s.zones.z1.state ∉ [ZoneState.waiting, .silent]) := by
  decide

theorem witness_SpeakerWriteStagesConfiguration :
    let s := zoneRun fun r => { r with state := .playing }
    let c := fun (p : SpeakerSlot) (v : Word) =>
      { run with bass := { run.bass with staged := run.bass.staged.put p v } }
    (ready run = true ∧ run.lock = .unlocked
      ∧ (∀ p v, (p, v) ∈ [(SpeakerSlot.sub, 1#16), (.sub, 0), (.surround, 2)] → ¬valueBlocked run (.speaker p) v)
      ∧ (run.bass.staged.put .sub 1).presence ≠ run.bass.staged.presence
      ∧ run.bass.staged.put .sub 0 = run.bass.staged
      ∧ run.audioRuns = true ∧ run.zones.z1.state = .silent)
    ∧ (ready (stopped run) = true ∧ (stopped run).lock = .unlocked ∧ (stopped run).audioRuns = false
      ∧ ¬valueBlocked (stopped run) (.speaker .sub) 1)
    ∧ (ready s = true ∧ s.lock = .unlocked ∧ s.zones.z1.state ∉ [ZoneState.waiting, .silent])
    ∧ (ready (c .sub 1) = true ∧ (c .sub 1).bass.staged.subPresent = false
        ∧ ¬valueBlocked (c .sub 1) (.speaker .frontSize) 1)
    ∧ (ready (c .surround 2) = true ∧ (c .surround 2).bass.staged.surround = .absent
        ∧ ¬valueBlocked (c .surround 2) (.speaker .back) 1) := by
  refine ⟨⟨by decide, by decide, ?_, by decide⟩, ⟨by decide, by decide, by decide, ?_⟩, by decide,
    ⟨by decide, by decide, ?_⟩, by decide, by decide, ?_⟩
  · intro p v h
    simp only [List.mem_cons, List.not_mem_nil, or_false, Prod.mk.injEq] at h
    rcases h with ⟨rfl, rfl⟩ | ⟨rfl, rfl⟩ | ⟨rfl, rfl⟩ <;> (unfold valueBlocked; decide)
  · unfold valueBlocked; decide
  · unfold valueBlocked; decide
  · unfold valueBlocked; decide

theorem witness_VolumeWritesKeepTheCeiling :
    ready run = true ∧ run.lock = .unlocked ∧ gainFloor ≤ (run.gain.zones.get .z1).maxVolume
      ∧ (run.gain.zones.get .z1).maxVolume ≤ gainCeiling
      ∧ clampInt gainFloor gainCeiling (BitVec.toInt (-400#16)) < (run.gain.zones.get .z1).volume := by decide

theorem witness_WaitLimitRaisesNoSignal :
    let s := fun n => zoneRun fun r => { r with state := .waiting, connected := some .tuner, waited := n }
    (∀ n ∈ [499, 500, 2998, 2999], ready (s n) = true ∧ (s n).restartTimersRun = true
      ∧ (s n).zones.z1.state = .waiting ∧ (s n).zones.z1.noSignal = false)
    ∧ clampNat 500 10000 (0#16).toNat = 500
    ∧ ((s 2998).zones.z1.waited + 1 < (s 2998).zones.z1.waitLimit
      ∧ (s 2999).zones.z1.waitLimit ≤ (s 2999).zones.z1.waited + 1)
    ∧ run.restartTimersRun = true ∧ run.zones.z1.state ≠ .waiting
    ∧ ∀ s ∈ [stopped run, portRun .free none (some ⟨.audio, 0⟩)],
      s.rstnLow = false ∧ s.restartTimersRun = false := by decide

theorem witness_DelayWritesRecomputeTheStagedSet :
    let s := zoneRun fun r => { r with state := .playing, connected := some .tuner }
    (ready (stopped run) = true ∧ (stopped run).audioRuns = false)
    ∧ (ready s = true ∧ s.audioRuns = true ∧ s.zones.z1.state ∉ [ZoneState.waiting, .silent]
      ∧ s.pool.alloc.get .z1 ≠ .requested)
    ∧ (let p := { s.pool with
        dist := s.pool.dist.set .fl 1500
        staged := computeSet s.pool.presence (s.pool.dist.set .fl 1500) s.pool.lipsync }
       p.sameSet .z1 = false ∧ p.hasRoom .z1 = true)
    ∧ s.pool.sameSet .z1 = true
    ∧ (run.zones.z1.state ∈ [ZoneState.waiting, .silent] ∧ ready run = true ∧ run.audioRuns = true)
    ∧ (let p := { run.pool with
        active := computeSet run.pool.presence run.pool.dist ⟨0, 200⟩
        staged := computeSet run.pool.presence run.pool.dist ⟨200, 200⟩ }
       p.alloc.get .z1 ≠ .requested ∧ p.sameSet .z1 = false ∧ p.hasRoom .z1 = false) := by decide +kernel

theorem witness_StagedSetServesZoneOneFirst :
    let p : PerMain Bool := { PerMain.all false with fl := true, fr := true }
    let d : PerMain Nat := { PerMain.all 1500 with fl := 0 }
    p.fl = true ∧ p.fr = true ∧ ∀ ch ∈ mainChans, d.get ch ≤ 1500 := by decide

theorem witness_ModuleEnableStartsAndWindsDown :
    (∀ st ∈ [ModuleState.off, .starting, .on, .stopping, .tripped], ∀ e,
      let s := modRun fun r => { r with state := st, enable := e }
      ready s = true ∧ s.lock = .unlocked ∧ (s.mods.get .a).state = st ∧ (s.mods.get .a).enable = e)
    ∧ (run.meas.result = .pass ∧ run.clock = .good)
    ∧ (stopped run).clock ≠ .good
    ∧ (∀ ch ∈ chans, chanModule ch = .a → (run.gain.chans.get ch).applied = gainFloor) := by decide

theorem witness_SequenceWritesResetEntries :
    ready run = true ∧ run.lock = .unlocked ∧ min 16 (17#16).toNat = 16 ∧ min 16 (0#16).toNat = 0
      ∧ ¬valueBlocked run (.entry 0 0) 0x040B ∧ ¬valueBlocked run (.entry 15 3) 0x0832 := by
  refine ⟨by decide, by decide, by decide, by decide, ?_, ?_⟩ <;> simp [valueBlocked]

theorem witness_TunerTargetWritesTuneNothing :
    ready run = true ∧ run.tun.state = .off ∧ min (0xFFFF#16).toNat (topCode run.tun.region run.tun.band) = 205 := by
  decide

theorem witness_FormatWriteUnlocksTheLine :
    (Format.stereo = run.sa.sa1.format ∧ Format.tdm8 ≠ run.sa.sa1.format ∧ ready (stopped run) = true
      ∧ (stopped run).audioRuns = false)
    ∧ ∀ lk ∈ [LockState.noClock, .unsupported, .measuring, .locked], ∀ n,
      let s := lineRun fun x => { x with lock := lk, npcmTaken := n }
      ready s = true ∧ s.audioRuns = true ∧ s.sa.sa1.lock = lk ∧ s.sa.sa1.npcmTaken = n
        ∧ Format.tdm8 ≠ s.sa.sa1.format := by decide

theorem witness_RestartAudioRestartsTheBlocks : ready run = true := by decide

theorem witness_RequestsJoinTheConverterQueue :
    ready run = true ∧ run.meas.result ≠ .running ∧ (11#8).toNat ≤ 11 ∧ 1 ≤ (4#4).toNat ∧ (4#4).toNat ≤ 4
      ∧ OnDemand.host ∉ run.meas.queue ∧ run.meas.conv = none := by decide

theorem witness_StreamCommandsStartAndStop :
    (ready run = true ∧ run.audioRuns = true ∧ run.ms.ms1.state = .stopped ∧ run.ms.ms1.fill < run.ms.ms1.size
      ∧ run.ms.ms1.baseHi.toNat * 0x10000 + run.ms.ms1.baseLo.toNat + 64 * 2 * 2 ≤ run.apertureBase)
    ∧ ∀ st ∈ [StreamState.priming, .starved, .running],
      let s := streamRun fun r => { r with state := st }
      ready s = true ∧ s.audioRuns = true ∧ s.ms.ms1.state = st := by decide

theorem witness_ClearTripFollowsItsSteps :
    let s := modRun fun r => { r with state := .tripped }
    let f := modRun fun r => { r with state := .tripped, fltPin := true }
    ready run = true ∧ (run.mods.get .a).state ≠ .tripped
      ∧ (ready s = true ∧ (s.mods.get .a).state = .tripped ∧ (s.mods.get .a).fltPin = false ∧ s.clock = .good
        ∧ s.meas.result = .pass ∧ ∀ e ∈ s.meas.entries, e.violation = false)
      ∧ (ready f = true ∧ (f.mods.get .a).state = .tripped ∧ (f.mods.get .a).fltPin = true) := by decide

theorem witness_TuneStartsAPlainTune : ready run = true := by decide

theorem witness_SeekCommandsStepTheCode :
    ready run = true ∧ ready (tunRun fun x => { x with state := .seeking }) = true := by decide

theorem witness_StopEndsSeekOrProbe :
    (ready run = true ∧ run.tun.state ∉ [TunerState.seeking, .probing])
    ∧ (∀ ph ∈ [StepPhase.exchange, .settling],
        let s := tunRun fun x => { x with state := .seeking, phase := ph }
        ready s = true ∧ s.tun.state = .seeking ∧ s.tun.phase = ph)
    ∧ (ready (tunRun fun x => { x with state := .probing }) = true) := by decide

/-- R168, R160: behind an abandoned TUNE the step's TUNE waits in the pending slot; STOP leaves it there (log 66). -/
theorem test_stop_keeps_the_pending_step_tune :
    let old : Outstanding := { cmd := .tune .fm .a 104 .seekStep, resent := false, abandoned := true }
    let s := { tunRun fun x => { x with state := .seeking, phase := .exchange } with
      fe := { run.fe with outstanding := some old, pending := some (.tune .fm .a 105 .seekStep) } }
    let t := after (.tunerStop .full) s
    t.tun.state = .tuning ∧ t.fe.outstanding = some old ∧ t.fe.pending = some (.tune .fm .a 105 .plain) := by decide

theorem witness_TunerOffSendsStandby : ready run = true := by decide

theorem witness_PresetCommandsStartTransfers :
    let s := tunRun fun x => { x with state := .listening }
    ready s = true ∧ (39#8).toNat ≤ 39 ∧ s.tun.transfer = .none ∧ s.tun.state ∈ [TunerState.listening, .verifying] := by
  decide

/-- Writes for the clauses of the refused commands, at the bounds of their ranges. -/
theorem witness_RefusedCommandsChangeTheOutcomeAlone :
    let row := fun (sl : Slot) (v : Word) =>
      decide (writeRow (.slotWrite (BitVec.ofNat 16 sl.offset) .full v) = some (sl, .full, v))
    row .systemCmd 0 ∧ row .systemCmd 3 ∧ row (.streamCmd .ms1) 0 ∧ row (.streamCmd .ms1) 3
      ∧ row .moduleCmd 0x0100 ∧ row .moduleCmd 0x0104 ∧ row .moduleCmd 0x0200 ∧ row .measureCmd 0x10C1
      ∧ row .measureCmd 0x1000 ∧ row .measureCmd 0x0001 ∧ row .tunerCmd 0 ∧ row .tunerCmd 6
      ∧ row .tunerCmd 0x0128 ∧ row .tunerCmd 0x0228
      ∧ ready run = true
      ∧ ready (measRun fun m => { m with result := .running, queue := [.host] }) = true
      ∧ ready (stopped run) = true
      ∧ ready (streamRun fun r => { r with state := .running }) = true
      ∧ (let s := streamRun fun r => { r with fill := 64 }
         ready s = true ∧ s.ms.ms1.size ≤ s.ms.ms1.fill ∧ s.ms.ms1.state = .stopped)
      ∧ ready (tunRun fun x => { x with transfer := .storing 0 0 [] }) = true
      ∧ run.tun.state ∉ [TunerState.listening, .verifying] := by decide +kernel

/-- The state of `run` with the tuner's transfer given. -/
def transferRun (x : Transfer) : State := tunRun fun t => { t with transfer := x }

/-- MS1 with frames available in its ring. -/
def fetchRun (st : StreamState) (buffer : List SrcFrame) : State :=
  streamRun fun r => { r with state := st, fill := 1, buffer := buffer }

theorem fetch_due (buffer : List SrcFrame) (h : buffer.length + 8 ≤ 512) :
    FetchDue (fetchRun .priming buffer) .ms1 :=
  ⟨by show run.audioRuns = true; decide, by show StreamState.priming ≠ .stopped; decide,
    by show 0 < (((1 : Int) - 0) % 64).toNat; decide,
    by show buffer.length + 16 / (2 * 1) ≤ 512; exact h⟩

theorem no_fetch (s : State) (h : s.ms = run.ms) : ∀ m, ¬FetchDue s m := by
  intro m hd
  have := hd.active
  rw [h] at this
  cases m <;> exact this rfl

theorem witness_PartTakesItsTurnByRank :
    (run.mem.wf = true ∧ MarksInOrder run ∧ run.rstnLow = false ∧ run.agent.port = .free
      ∧ run.agent.restore = none ∧ run.agent.held = none ∧ run.agent.queue = [] ∧ run.tun.transfer = .none
      ∧ run.dirty = [] ∧ ∀ m, ¬FetchDue run m)
    ∧ (FetchDue (fetchRun .priming []) .ms1 ∧ (fetchRun .priming []).ms.ms1.buffer.length < 128)
    ∧ (FetchDue (fetchRun .priming (List.replicate 128 (.stereo 0 0))) .ms1
        ∧ ¬(fetchRun .priming (List.replicate 128 (.stereo 0 0))).ms.ms1.buffer.length < 128)
    ∧ (let s := { run with agent := { run.agent with queue := [.tunerCmd] } }
       s.agent.port = .free ∧ s.agent.restore = none ∧ s.agent.held = none ∧ s.agent.queue ≠ [])
    ∧ (∀ x ∈ [Transfer.recalling 39 [], .recalling 39 [0], .storing 39 3 (List.replicate 18 0)],
        (transferRun x).tun.transfer = x ∧ (transferRun x).agent.queue = [])
    ∧ (let s := { run with dirty := [Rec.attention, .delay] }
       s.tun.transfer = .none ∧ ∀ x ∈ s.dirty, Rec.attention.offset ≤ x.offset) := by
  refine ⟨⟨rfl, List.Pairwise.nil, rfl, rfl, rfl, rfl, rfl, rfl, rfl, no_fetch run rfl⟩,
    ⟨fetch_due [] (by decide), by decide⟩, ⟨fetch_due _ (by rw [List.length_replicate]; decide), ?_⟩, by decide, by decide, by decide⟩
  show ¬(List.replicate 128 (SrcFrame.stereo 0 0)).length < 128
  rw [List.length_replicate]
  decide

theorem record_below (r : Rec) : r.offset < 0x1000 := by
  cases r with
  | zone z => cases z <;> decide
  | source x => rcases x with (_ | _ | _ | _) | (_ | _) | _ <;> decide
  | stream m => cases m <;> decide
  | meter x => rcases x with (_ | _ | _ | _ | _ | _ | _ | _ | _ | _) | _ | _ <;> decide
  | module m => cases m <;> decide
  | _ => decide

theorem witness_RestorePassWritesItsRange :
    (let s := portRun .free none (some ⟨.full, 0⟩)
     s.mem.wf = true ∧ s.rstnLow = false ∧ s.agent.port = .free ∧ s.agent.held = none)
    ∧ (inPass .full .knobZone ∧ 0 ≤ Slot.knobZone.offset)
    ∧ ((∀ sl : Slot, sl.offset < 0x400) ∧ recInPass .full .device ∧ 0x400 ≤ Rec.device.offset
        ∧ ∀ x : Rec, 0x400 ≤ x.offset → Rec.device.offset ≤ x.offset)
    ∧ (PassGoesOn ⟨.audio, 0⟩ ∧ ¬PassGoesOn ⟨.audio, 0x1000⟩ ∧ ¬PassGoesOn ⟨.full, 0x1000⟩)
    ∧ (let s := { portRun (.part (oneWord .restore)) none (some ⟨.full, 0x1000⟩) with audioStarted := false }
       s.rstnLow = false ∧ s.agent.restore = some ⟨.full, 0x1000⟩ ∧ s.agent.held = none ∧ s.clock = .good
        ∧ (oneWord .restore).owner = .restore)
    ∧ ((∀ l, ¬LineDropped (run.sa.get l)) ∧ WaitLimitsInRange run
        ∧ LineDropped ((lineRun fun x => { x with formatKept := true, lock := .locked }).sa.get .sa1)) := by
  have top : ∀ k, ¬PassGoesOn ⟨k, 0x1000⟩ := by
    rintro k (⟨sl, -, h⟩ | ⟨r, -, h⟩)
    · exact absurd h (by have := offset_lt sl; simp only; omega)
    · exact absurd (record_below r) (Nat.not_lt.mpr h)
  refine ⟨by decide, ⟨Or.inl rfl, by decide⟩, ⟨offset_lt, Or.inl rfl, by decide, fun x h => h⟩,
    ⟨Or.inl ⟨.trim .zr, Or.inr rfl, by decide⟩, top _, top _⟩, by decide, ?_, ?_, by unfold LineDropped; decide⟩
  · intro l; cases l <;> (unfold LineDropped; decide)
  · intro z; cases z <;> decide

/-- The audio blocks' normal start (R23, R135): RESTORE_DONE alone is pending, and SOURCE beside it where a kept
FORMAT takes a carrying line out of LOCKED (R26, R35). -/
theorem test_start_up_pending :
    let start := fun (s : State) => (after .partBurstEnd { s with
      audioStarted := false
      agent := { s.agent with port := .part (oneWord .restore), restore := some ⟨.full, 0x1000⟩ } })
    (start run).att.pending = 0x0400 ∧ (start run).audioStarted = true
      ∧ (start (lineRun fun x => { x with formatKept := true, lock := .locked })).att.pending = 0x0402 := by
  decide +kernel

/-- A write held during a restore pass waits for the pass's end and is carried there (R21, R23). -/
theorem test_held_write_carried_at_pass_end :
    let b : Burst := ⟨.restore, 0, false, [0], [], false⟩
    let ended := fun (n : Nat) =>
      after .partBurstEnd
        (portRun (.part b) (some ⟨slotAccess run 0x0002 .full 0x0400, true⟩) (some ⟨.audio, n⟩))
    ((ended 0x0000).agent.held.isSome = true ∧ (ended 0x0000).att.enable = 0)
      ∧ ((ended 0x1000).agent.held = none ∧ (ended 0x1000).agent.restore = none
          ∧ (ended 0x1000).att.enable = 0x0400 ∧ (ended 0x1000).att.pending = 0x0400) := by
  decide +kernel

theorem witness_BurstEndFreesThePort :
    (run.rstnLow = false ∧ run.agent.port = .free)
    ∧ (let s := portRun (.part (oneWord .writeBack)) none none
       s.rstnLow = false ∧ s.agent.port = .part (oneWord .writeBack)
        ∧ (oneWord .writeBack).owner ∈ [BurstOwner.writeBack, .store 0, .report .device] ∧ s.agent.held = none)
    ∧ (let h : HeldAccess := ⟨slotAccess run 0x3FE .full 1, true⟩
       let s := portRun (.part (oneWord .writeBack)) (some h) none
       s.agent.held = some h ∧ s.agent.restore = none ∧ h.whole = true
        ∧ h.access = slotAccess s (0x3FE#16).toNat .full 1)
    ∧ (∀ p ∈ [(BurstOwner.restore, some ⟨.full, 0x0000⟩), (.restore, some ⟨.full, 0x1000⟩),
          (.fetch .ms1 1, none), (.recall 39, none)],
        let b : Burst := ⟨p.1, 0, false, [0, 0], [], false⟩
        let h : HeldAccess := ⟨slotAccess run 0x3FE .full 1, true⟩
        let s := portRun (.part b) (some h) p.2
        s.rstnLow = false ∧ s.agent.port = .part b ∧ s.agent.held = some h ∧ s.agent.restore = p.2
          ∧ h.whole = true ∧ h.access = slotAccess s (0x3FE#16).toNat .full 1
          ∧ ∀ off, accessOffset s (topAccess true) = some off → 0x1000 ≤ off)
    ∧ ∀ got ∈ [[], List.replicate 16 (0x0001 : Word), List.replicate 17 0],
      let b : Burst := ⟨.recall 39, 0, false, [0, 0], [], false⟩
      let s := { transferRun (.recalling 39 got) with agent := { run.agent with port := .part b } }
      s.agent.port = .part b ∧ b.discard = false ∧ s.agent.held = none ∧ s.tun.transfer = .recalling 39 got := by
  decide

/-- The cases of a loss, in each state that a zone can have its source lost in: the zone's gate closes, the other
zone's does not, and held changes are applied only in FADING_OUT and RECONFIGURING (R57). -/
theorem witness_CarryingLost_cases :
    (∀ z, ¬Loses .tuner run z)
    ∧ (∀ st ∈ [ZoneState.playing, .fadingIn, .fadingOut, .reconfiguring], ∀ d ∈ [false, true],
      let s := zoneRun fun r => { r with state := st, connected := some .tuner, held := ⟨d, d, d⟩ }
      s.audioRuns = true ∧ Loses .tuner s .z1 ∧ ¬Loses .tuner s (otherZone .z1)
        ∧ (AppliesOnLoss .tuner s .z1 ↔ d = true ∧ st ∈ [ZoneState.fadingOut, .reconfiguring])) := by
  refine ⟨fun z => ?_, ?_⟩
  · cases z <;> (unfold Loses; decide)
  · unfold Loses AppliesOnLoss; decide

/-- The cases of a zone that resumes: its connected source gone or back, a SOURCE value kept, changes held in an
open and in a closed state, and nothing to act on (R65). -/
theorem witness_Resumed_cases :
    ∀ v ∈ [false, true], ∀ st ∈ [ZoneState.playing, .fadingIn, .waiting, .fadingOut, .reconfiguring],
    ∀ h ∈ [HeldChanges.empty, ⟨true, false, false⟩], ∀ k ∈ [none, some (some (Source.sa .sa1))],
      let s := { stopped (zoneRun fun r =>
          { r with state := st, connected := some .tuner, held := h, kept := k }) with
        view := run.view.set .tuner v }
      s.audioRuns = false ∧ s.zones.z1.kept = k ∧ s.zones.z1.held = h
        ∧ (zoneBehind s .z1 ↔ (st = .waiting ↔ v = true)) ∧ ¬zoneBehind s .z2 := by
  have one : ∀ (s : State) (z : Zone) (x : Source), (s.zones.get z).connected = some x →
      (zoneBehind s z ↔ ((s.zones.get z).state = .waiting ↔ s.view.get x = true)) := fun s z x hc =>
    ⟨fun ⟨y, hy, h⟩ => by rw [hc] at hy; cases hy; exact h, fun h => ⟨x, hc, h⟩⟩
  intro v _ st _ h _ k _
  refine ⟨rfl, rfl, rfl, one _ _ .tuner rfl, ?_⟩
  rintro ⟨x, hx, -⟩
  cases hx

theorem witness_SaWindowEndFollowsLockTable :
    ((stopped run).audioRuns = false ∧ run.audioRuns = true ∧ run.sa.sa1.lock = .noClock ∧ run.sa.sa1.edges = 0)
    ∧ ∀ lk ∈ [LockState.noClock, .measuring, .unsupported, .locked], ∀ n ∈ [0, 30, 31, 49, 50, 98, 99],
      let s := lineRun fun x =>
        { x with lock := lk, edges := n, runClass := some .k48, runCount := 3, otherRun := 3, misses := 2,
                 lockedClass := some .k48 }
      s.rstnLow = false ∧ s.audioRuns = true ∧ s.sa.sa1.lock = lk ∧ s.sa.sa1.edges = n
        ∧ 3 ≤ s.sa.sa1.misses + 1 ∧ s.sa.sa1.npcmTaken = false := by decide

theorem witness_SaFramesAndNpcmFollowTheLine :
    (∀ lk ∈ [LockState.locked, .measuring], ∀ n,
      let s := lineRun fun x => { x with lock := lk, npcmTaken := n }
      s.rstnLow = false ∧ s.audioRuns = true ∧ s.sa.sa1.lock = lk ∧ s.sa.sa1.npcmTaken = n ∧ s.sa.sa1.npcmTimer = true
        ∧ s.sa.sa1.npcmPin = false)
    ∧ (lineRun fun x => { x with npcmTimer := false }).sa.sa1.npcmTimer = false := by decide

theorem witness_StreamsTakeAndGiveFrames :
    (run.ms.ms1.state ≠ .running)
    ∧ (∀ b ∈ [[], [SrcFrame.stereo 0 0]],
        let s := streamRun fun r => { r with state := .running, buffer := b }
        s.rstnLow = false ∧ s.audioRuns = true ∧ s.ms.ms1.state = .running ∧ s.ms.ms1.buffer = b)
    ∧ ∀ st ∈ [StreamState.priming, .starved], ∀ n ∈ [1, 63, 64],
      let b : Burst := ⟨.fetch .ms1 n, 0, false, List.replicate (n * 2) 0, [], false⟩
      let s := { streamRun fun r => { r with state := st } with agent := { run.agent with port := .part b } }
      s.rstnLow = false ∧ s.audioRuns = true ∧ s.agent.port = .part b ∧ b.discard = false ∧ s.agent.held = none
        ∧ s.ms.ms1.channels ∈ [2, 8] ∧ b.words.length = n * wordsOfFrame s.ms.ms1 ∧ s.ms.ms1.state = st := by
  decide +kernel

theorem witness_FadeTimerMovesTheFade :
    (stopped run).restartTimersRun = false
    ∧ ∀ st ∈ [ZoneState.playing, .fadingIn, .fadingOut, .reconfiguring], ∀ f ∈ [-320, -318, -4, -2],
      let s := zoneRun fun r => { r with state := st, fade := f, connected := some .tuner, pending := some .tuner }
      s.rstnLow = false ∧ s.restartTimersRun = true ∧ s.zones.z1.state = st ∧ s.zones.z1.fade = f
        ∧ s.zones.z1.held = .empty ∧ s.zones.z1.pending = some .tuner ∧ s.view.get .tuner = false
        ∧ ∀ n ∈ [0, 65535, 65536],
          let p : PoolSet := { State.reset.pool.active with len := .ofFn fun ch => if ch = .zl then n else 0 }
          let h := { s with
            pool := { s.pool with active := p, staged := { p with len := .ofFn fun ch => if ch = Chan.main .fl then 1 else 0 } }
            zones := s.zones.upd .z1 fun r => { r with held := ⟨false, false, true⟩ } }
          h.zones.z1.held.delay = true ∧ h.pool.staged.total .z1 + h.pool.active.total .z2 = n + 1 := by
  decide

theorem witness_LevelsAndCoefficientsFollowTheTable :
    (1 = max 0 1 ∧ 2 ^ 0 ≤ 1 ∧ 1 < 2 ^ (0 + 1) ∧ 32768 = 1 * 32768 / 2 ^ 0)
    ∧ (805306368 = max 805306368 1 ∧ 2 ^ 29 ≤ 805306368 ∧ 805306368 < 2 ^ (29 + 1)
        ∧ 49152 = 805306368 * 32768 / 2 ^ 29)
    ∧ ((-319 : Int) = 16 * (-20) + (1 : Nat) ∧ (32 : Int) = 16 * 2 + (0 : Nat)) := by decide

theorem witness_SteeringWindowStagesTerms :
    run.rstnLow = false ∧ run.restartTimersRun = true ∧ (stopped run).restartTimersRun = false := by decide

theorem witness_FramesFormTheBuses :
    (run.zones.z1.gateOpen = false)
    ∧ ∀ src ∈ [Source.tuner, .sa .sa1, .ms .ms1], ∀ st ∈ [TunerState.off, .listening],
      let s := { zoneRun fun r => { r with gateOpen := true, connected := some src } with
        tun := { run.tun with state := st } }
      (s.zones.z1.gateOpen = true ∧ s.zones.z1.connected = some src ∧ s.tun.state = st
        ∧ s.sa.sa1.lock ≠ .locked ∧ s.ms.ms1.conv.age < 48)
      ∧ (∀ n ∈ [0, 1], ∀ after,
        let x : SaState :=
          { run.sa.sa1 with lock := .locked, edges := n, afterSilence := after, conv := ⟨48, []⟩ }
        x.npcmTaken = false ∧ ¬x.conv.age < 48 ∧ x.edges = n ∧ x.afterSilence = after)
      ∧ ∀ present, ({ run.bass.active with subPresent := present }).subPresent = present := by decide

theorem witness_AudioFrameRunsThePaths :
    run.rstnLow = false ∧ run.clock = .good ∧ run.audioRuns = true ∧ (stopped run).audioRuns = false := by decide

theorem witness_SlewAndMeterTimersServeTheChannels :
    run.rstnLow = false ∧ run.restartTimersRun = true ∧ (stopped run).restartTimersRun = false
      ∧ run.meterTimer = false ∧ { run with meterTimer := true }.meterTimer = true := by decide

theorem witness_KnobFiltersTakeTheFirstPair :
    let k := fun (a b : Option Bool) => { run.knob with a := ⟨true, a, false⟩, b := ⟨true, b, true⟩ }
    run.rstnLow = false ∧ run.audioRuns = true ∧ (stopped run).audioRuns = false
      ∧ (k none none).a.taken = none ∧ (k (some true) none).reference = none := by decide

theorem witness_KnobStepCountsAgainstReference :
    ∀ acc ∈ [(-3 : Int), 0, 3],
      let s := { run with knob := { run.knob with
        a := ⟨true, none, true⟩, b := ⟨false, some false, false⟩, reference := some (false, false), acc := acc } }
      s.rstnLow = false ∧ s.audioRuns = true ∧ s.knob.reference = some (false, false) ∧ s.knob.acc = acc
        ∧ s.knob.a.timer = true ∧ s.knob.a.pin = true ∧ s.knob.b.taken = some false
        ∧ s.gain.zones.z1.mute = false := by decide

theorem witness_ModuleTimersAndFaultLines :
    ∀ st ∈ [ModuleState.off, .starting, .on, .stopping, .tripped], ∀ p,
      let s := modRun fun r => { r with state := st, fltPin := p }
      s.rstnLow = false ∧ (s.mods.get .a).state = st ∧ (s.mods.get .a).fltPin = p := by decide

theorem witness_ClockAbsenceTripsAndProvenClockResumes :
    (run.rstnLow = false ∧ run.clock = .good ∧ run.agent.restore = none)
    ∧ (let s := stopped run
       s.rstnLow = false ∧ s.clock ≠ .good ∧ (∀ n, s.agent.restore ≠ some ⟨.full, n⟩) ∧ ModulesPowered s)
    ∧ (State.reset.clock ≠ .good ∧ State.reset.agent.restore = some ⟨.full, 0⟩) := by
  refine ⟨by decide, ⟨rfl, by decide, nofun, ?_⟩, by decide⟩
  intro m h
  cases m <;> revert h <;> decide

theorem witness_ConverterServesItsRequesters :
    run.meas.conv = none
    ∧ (∀ o ∈ [ConvOwner.tuner true, .entry 0 true, .host, .ref, .halfRef],
        (measRun fun m => { m with conv := some ⟨o, 10, 1⟩ }).meas.conv = some ⟨o, 10, 1⟩)
    ∧ (∀ r ∈ [500, 524], ∀ v ∈ [(605469 : Int), 644532], 500 ≤ r ∧ r ≤ 524 ∧ 248 ≤ codeOf v ⟨.halfRef, 11, 1⟩
        ∧ codeOf v ⟨.halfRef, 11, 1⟩ ≤ 264)
    ∧ codeOf 0 ⟨.halfRef, 11, 1⟩ < 248 := by decide

theorem witness_EntryCodesDriveTheirActions :
    ∀ n ∈ [0, 11, 15], ∀ vio cnt, cnt ∈ [0, 1] →
      let s := measRun fun m => { m with
        conv := some ⟨.entry n false, 0, 1⟩
        entries := m.entries.set n { m.entry n with violation := vio, count := cnt } }
      s.rstnLow = false ∧ s.meas.conv = some ⟨.entry n false, 0, 1⟩ ∧ n < s.meas.entries.length
        ∧ (s.meas.entry n).violation = vio ∧ (s.meas.entry n).count = cnt := by
  intro n hn vio cnt hc
  simp only [List.mem_cons, List.not_mem_nil, or_false] at hn hc
  rcases hn with rfl | rfl | rfl <;> rcases hc with rfl | rfl <;> cases vio <;> decide

/-- A state of the tuner with a reading in conversion and AF follow active. -/
def readingRun (st : TunerState) (ph : StepPhase) (weak : Nat) (todo : List Nat) (best : Option (Nat × Nat)) : State :=
  { run with
    meas := { run.meas with conv := some ⟨.tuner false, 9, 1⟩ }
    sd := { run.sd with af := [10], confirmed := { run.sd.confirmed with code := some 0x1234 } }
    tun := { run.tun with
      state := st, phase := ph, weak := weak, probe := { run.tun.probe with todo := todo, best := best } } }

theorem witness_ReadingsDriveBlendProbeAndSteps :
    (∀ st ∈ [TunerState.off, .tuning, .settling, .fault, .verifying, .listening], ∀ w ∈ [8, 9],
      let s := readingRun st .exchange w [] none
      s.rstnLow = false ∧ s.meas.conv = some ⟨.tuner false, 9, 1⟩ ∧ s.tun.state = st ∧ afActive s = true
        ∧ s.tun.weak = w ∧ codeOf 0 ⟨.tuner false, 9, 1⟩ < s.tun.afThr
        ∧ (s.sd.af.filter fun k => k ≤ topCode s.tun.region .fm) = [10])
    ∧ (∀ st ∈ [TunerState.seeking, .probing], ∀ ph ∈ [StepPhase.exchange, .firstReading, .secondReading 1023],
        (readingRun st ph 0 [] none).tun.state = st ∧ (readingRun st ph 0 [] none).tun.phase = ph)
    ∧ (let r := readingRun .listening .exchange 9 [] none
       let s := { r with sd := { r.sd with af := [300] } }
       afActive s = true ∧ s.tun.weak = 9 ∧ (s.sd.af.filter fun k => k ≤ topCode s.tun.region .fm) = [])
    ∧ ((0 + 1023) / 2 = 511 ∧ 420 ≤ 511 ∧ (0 + 0) / 2 < run.tun.seekThr)
    ∧ (readingRun .probing (.secondReading 0) 0 [5] none).tun.probe.todo = [5]
    ∧ (readingRun .probing (.secondReading 0) 0 [] (some (5, 24))).tun.probe.mean + 24 ≤ 24
    ∧ (readingRun .probing (.secondReading 0) 0 [] (some (5, 23))).tun.probe.mean + 24 > 23 := by decide

/-- A received character without marks. -/
def plainChar (d : Byte) : RxChar := ⟨d, false, false, false, false, false⟩

theorem witness_LineMovesFramesAndCharacters :
    (run.rstnLow = false ∧ run.fe.txFrames = [] ∧ run.fe.rxQueue = [] ∧ run.fe.assembler = .hunt)
    ∧ ((feRun fun f => { f with txFrames := [[0x7E]] }).fe.txFrames = [[0x7E]] ∧ [0x7E#8][0]? = some 0x7E)
    ∧ (feRun fun f => { f with rxQueue := List.replicate 15 (plainChar 0) }).fe.rxQueue.length < 16
    ∧ (feRun fun f => { f with rxQueue := List.replicate 16 (plainChar 0) }).fe.rxQueue =
        List.replicate 15 (plainChar 0) ++ [plainChar 0]
    ∧ (let s := feRun fun f => { f with divisorWaiting := true }
       s.fe.divisorWaiting = true ∧ s.fe.txFrames = [] ∧ s.fe.rxQueue = [] ∧ s.fe.assembler = .hunt)
    ∧ ∀ d ∈ [0x00#8, 0x01, 0x0C, 0x0D, 0x7E], ∀ a ∈ [Assembler.hunt, .length, .body 2 [0x91], .body 2 [0x91, 0x00]],
      let s := feRun fun f => { f with rxQueue := [plainChar d], assembler := a }
      s.fe.rxQueue = [plainChar d] ∧ s.fe.assembler = a ∧ (plainChar d).brk = false
        ∧ (plainChar d).parityError = false ∧ (plainChar d).framingError = false ∧ (plainChar d).overrun = false
        ∧ (plainChar d).gap = false := by decide

/-- The line as the CHK of a response to the outstanding command arrives. -/
def answeredLine (c : FeCommand) (resent ab : Bool) (body : List Byte) (chk : Byte) : FrontEnd :=
  { FrontEnd.reset with
    outstanding := some ⟨c, resent, ab⟩, rxQueue := [plainChar chk], assembler := .body body.length body }

theorem witness_ExchangesEndOrFail :
    (∀ resent ab,
      FrameCompletes (answeredLine .query resent ab [0x91, 0x01] 0x6C) [0x91, 0x01] []
        ∧ answersTo .query [0x91, 0x01])
    ∧ (∀ p resent ab st chk, (st, chk) ∈ [(0x01#8, 0x02#8), (0x00, 0x03), (0x05, 0xFE), (0x04, 0xFF)] →
        FrameCompletes (answeredLine (.tune .fm .a 105 p) resent ab [0x90, st, 0x00, 0x69] chk)
            [0x90, st, 0x00, 0x69] []
          ∧ answersTo (.tune .fm .a 105 p) [0x90, st, 0x00, 0x69])
    ∧ ((0x05#8).getLsbD 0 = true ∧ (0x05#8).getLsbD 2 = true ∧ (0x01#8).getLsbD 2 = false
        ∧ (0x00#8).getLsbD 0 = false ∧ (0x00#8).getLsbD 2 = false)
    ∧ (∀ resent ab, FrameCompletes (answeredLine .standby resent ab [0x92, 0x04] 0x68) [0x92, 0x04] []
        ∧ answersTo .standby [0x92, 0x04])
    ∧ (let s := fun best => tunRun fun t =>
         { t with state := .probing, probe := { t.probe with todo := [], best := best, mean := 0 } }
       (s (some (5, 24))).tun.probe.mean + 24 ≤ 24 ∧ 23 < (s (some (5, 23))).tun.probe.mean + 24
         ∧ (s none).tun.probe.best = none)
    ∧ (∀ step ∈ [0, 205], ∀ start ∈ [0, 1, 205],
        let s := tunRun fun t => { t with state := .seeking, seek := ⟨.fm, .a, start, step, true⟩ }
        s.tun.state = .seeking ∧ s.tun.seek.step = step ∧ topCode s.tun.seek.region s.tun.seek.band = 205)
    ∧ (∀ resent ab, ∀ c ∈ [FeCommand.standby, .query],
        let s := feRun fun f => { f with responseTimer := true, outstanding := some ⟨c, resent, ab⟩ }
        s.rstnLow = false ∧ s.fe.responseTimer = true ∧ s.fe.outstanding = some ⟨c, resent, ab⟩)
    ∧ run.fe.responseTimer = false := by
  refine ⟨?_, ?_, by decide, ?_, by decide, by decide, by decide, by decide⟩
  · intro resent ab
    exact ⟨⟨_, 2, rfl, rfl, by decide, rfl, rfl, rfl, rfl, rfl, by decide⟩, ⟨_, rfl⟩⟩
  rotate_left
  · intro resent ab
    exact ⟨⟨_, 2, rfl, rfl, by decide, rfl, rfl, rfl, rfl, rfl, by decide⟩, ⟨_, rfl⟩⟩
  · intro p resent ab st chk h
    simp only [List.mem_cons, List.not_mem_nil, or_false, Prod.mk.injEq] at h
    rcases h with ⟨rfl, rfl⟩ | ⟨rfl, rfl⟩ | ⟨rfl, rfl⟩ | ⟨rfl, rfl⟩ <;>
      exact ⟨⟨_, 4, rfl, rfl, by decide, rfl, rfl, rfl, rfl, rfl, by decide⟩, ⟨_, rfl⟩⟩

theorem witness_TunerTimersMoveTheTuner :
    (∀ st ∈ [TunerState.settling, .seeking, .probing], ∀ sw,
      let s := tunRun fun x => { x with state := st, settleTimer := true, probe := { x.probe with switching := sw } }
      s.rstnLow = false ∧ s.tun.settleTimer = true ∧ s.tun.state = st ∧ s.tun.probe.switching = sw)
    ∧ (let s := tunRun fun x =>
        { x with state := .verifying, readingTimer := true, queryTimer := true, verifyTimer := true }
       s.rstnLow = false ∧ s.tun.state = .verifying ∧ s.tun.verifyTimer = true ∧ s.tun.readingTimer = true
        ∧ s.tun.queryTimer = true ∧ OnDemand.tuner false ∉ s.meas.queue ∧ s.meas.conv = none
        ∧ s.fe.outstanding = none ∧ s.fe.pending = none)
    ∧ (run.tun.settleTimer = false ∧ run.tun.readingTimer = false ∧ run.tun.queryTimer = false) := by decide

/-- A state that takes bits on FM, with the decoder given. -/
def bitRun (f : Station → Station) : State := { run with tun := { run.tun with state := .listening }, sd := f run.sd }

/-- A decoder in ACQUIRING with three valid blocks, one bit short of the block 0x1234AB at position 1. -/
def fourthRun : State := bitRun fun d =>
  { d with sync := .acquiring, window := (bitsOf 24 0x1234AB).take 23, validCount := 3, expected := 1, gapTimer := true }

theorem witness_StationBitsFindSync :
    (run.tun.state ∉ [TunerState.listening, .verifying])
    ∧ (∀ st ∈ [SyncState.search, .acquiring, .synced], ∀ n ∈ [22, 23], ∀ c ∈ [2, 3],
        let s := bitRun fun d =>
          { d with sync := st, window := List.replicate n false, validCount := c, gapTimer := true }
        s.rstnLow = false ∧ s.tun.state ∈ [TunerState.listening, .verifying] ∧ s.tun.tunedBand = .fm
          ∧ s.sd.sync = st ∧ s.sd.window.length = n ∧ s.sd.validCount = c ∧ s.sd.gapTimer = true)
    ∧ (numOfBits (bitsOf 24 0x1234AB) = 0x1234AB ∧ (0xAB#8) = crc8 0x1234 ^^^ 0x5A#8)
    ∧ (fourthRun.rstnLow = false ∧ fourthRun.tun.state ∈ [TunerState.listening, .verifying]
        ∧ fourthRun.tun.tunedBand = .fm ∧ fourthRun.sd.sync = .acquiring ∧ fourthRun.sd.expected = 1
        ∧ 4 ≤ fourthRun.sd.validCount + 1 ∧ fourthRun.sd.window ++ [true] = bitsOf 24 0x1234AB) := by decide +kernel

/-- The fourth valid block in ACQUIRING brings SYNCED and is handed over at once (R180, R182). -/
theorem test_fourth_block_handed :
    (after (.stationDataBit true) fourthRun).sd.sync = .synced
      ∧ (after (.stationDataBit true) fourthRun).sd.group.p1 = some 0x1234 := by decide +kernel

/-- A decoder in SYNCED at a position, with the candidate code 0x1234. -/
def syncedRun (p : Nat) (st : TunerState) : State :=
  let b := bitRun fun d =>
    { d with sync := .synced, expected := p, group := ⟨some 0x5A21, some 0x2B00, some 0x4142, none⟩,
             candidate := { d.candidate with code := some 0x1234 } }
  { b with tun := { b.tun with state := st, probe := { b.tun.probe with verifyCode := 0x1234 } } }

theorem witness_StationBlocksConfirmOnRepeat :
    (∀ p st, st = TunerState.listening ∨ st = .verifying →
      let s := syncedRun p st
      s.rstnLow = false ∧ s.tun.state ∈ [TunerState.listening, .verifying] ∧ s.tun.tunedBand = .fm
        ∧ s.sd.sync = .synced ∧ s.sd.window = [] ∧ s.sd.expected = p ∧ s.sd.group.p1 = some 0x2B00
        ∧ s.sd.candidate.code = some 0x1234 ∧ s.tun.probe.verifyCode = 0x1234)
    ∧ ((0x2B00#16).toNat / 4096 = 2 ∧ (0x2B00#16).toNat / 256 % 16 = 11)
    ∧ (0x1234CD#24).extractLsb' 0 8 = crc8 ((0x1234CD#24).extractLsb' 8 16) ^^^ 0x3C#8 := by
  refine ⟨?_, by decide, by decide +kernel⟩
  rintro p st (rfl | rfl) <;> refine ⟨rfl, by simp [syncedRun], rfl, rfl, rfl, rfl, rfl, rfl, rfl⟩

/-- A state of a run that meets both invariants, with a command whose step answers a next state. -/
theorem witness_InvariantsKeptByEveryStep :
    let s := { run with pending := [Instr.rstnFall] }
    (s.mem.wf = true ∧ s.agent.queue.Nodup ∧ MarksInOrder s ∧ ModulesSilent s ∧ ModulesPowered s
      ∧ OrdersOnlyWhileOn s ∧ GainsInRange s)
    ∧ (ZonesLaw s ∧ WaitLimitsInRange s ∧ PoolLaw s.pool ∧ AfListLaw s) ∧ StepsOn s := by
  refine ⟨⟨rfl, List.nodup_nil, List.Pairwise.nil, ?_, ?_, ?_, ?_⟩, ⟨?_, ?_, ⟨by decide, ?_⟩, by decide, by decide, by decide⟩,
    ⟨_, rfl⟩⟩
  · intro ch _
    rcases ch with (_ | _ | _ | _ | _ | _ | _ | _ | _ | _) | _ | _ <;> rfl
  · intro m h; cases m <;> revert h <;> decide
  · intro m h; cases m <;> revert h <;> decide
  · intro ch
    rcases ch with (_ | _ | _ | _ | _ | _ | _ | _ | _ | _) | _ | _ <;> decide
  · intro z; cases z <;> constructor <;> decide
  · intro z; cases z <;> decide
  · intro ch
    rcases ch with (_ | _ | _ | _ | _ | _ | _ | _ | _ | _) | _ | _ <;> rfl

end Sys2Proof.Tests
end

/-! The mantissa table, the level function L2 (R74) and the coefficient K (R96). The table ascends, so the count
that `mantissaIndex` takes is the place of a value in it; both functions then rest on the one fact
`mantissa_le_iff_lt_count`. -/

namespace Sys2Proof.Machine

/-- In an ascending list the entries up to a bound are the first ones, as many as the filter keeps. -/
theorem getElem_le_iff_lt_length_filter {l : List Nat} (hl : l.Pairwise (· ≤ ·)) (m : Nat) {i : Nat}
    (hi : i < l.length) : l[i] ≤ m ↔ i < (l.filter fun x => x ≤ m).length := by
  induction l generalizing i with
  | nil => simp at hi
  | cons a l ih =>
    obtain ⟨ha, hl⟩ := List.pairwise_cons.1 hl
    by_cases ham : a ≤ m
    · cases i with
      | zero => simp [ham]
      | succ i => simpa [ham] using ih hl (Nat.lt_of_succ_lt_succ hi)
    · have habove : ∀ x ∈ a :: l, m < x := by
        simpa [Nat.lt_of_not_le ham] using fun x hx => lt_of_lt_of_le (Nat.lt_of_not_le ham) (ha x hx)
      have hnone : ((a :: l).filter fun x => x ≤ m) = [] := by
        simpa only [List.filter_eq_nil_iff, decide_eq_true_eq, not_le] using habove
      simpa [hnone] using habove _ (List.getElem_mem hi)

theorem mantissaTable_ascends : mantissaTable.Pairwise (· ≤ ·) := by decide

/-- How many entries of the table are at most `m`. -/
def mantissaCount (m : Nat) : Nat := (mantissaTable.filter fun x => x ≤ m).length

theorem mantissaIndex_eq (m : Nat) : mantissaIndex m = mantissaCount m - 1 := rfl

theorem mantissaCount_le (m : Nat) : mantissaCount m ≤ 16 := List.length_filter_le _ mantissaTable

theorem mantissa_le_iff_lt_count {r m : Nat} (hr : r ≤ 15) : mantissa r ≤ m ↔ r < mantissaCount m := by
  have hlen : r < mantissaTable.length := Nat.lt_succ_of_le hr
  rw [mantissa, List.getD_eq_getElem _ _ hlen]
  exact getElem_le_iff_lt_length_filter mantissaTable_ascends m hlen

theorem mantissa_mono {q r : Nat} (hqr : q ≤ r) (hr : r ≤ 15) : mantissa q ≤ mantissa r :=
  (mantissa_le_iff_lt_count (hqr.trans hr)).2
    (lt_of_le_of_lt hqr ((mantissa_le_iff_lt_count hr).1 le_rfl))

theorem mantissa_bounds {r : Nat} (hr : r ≤ 15) : 32768 ≤ mantissa r ∧ mantissa r ≤ 62757 :=
  ⟨mantissa_mono (Nat.zero_le r) hr, mantissa_mono hr le_rfl⟩

theorem mantissaIndex_le (m : Nat) : mantissaIndex m ≤ 15 := by
  have := mantissaCount_le m
  rw [mantissaIndex_eq]
  omega

/-- The index is the last place of the table that is at most a scaled value (R74, step 4). -/
theorem mantissa_le_iff_le_index {q m : Nat} (hm : 32768 ≤ m) (hq : q ≤ 15) :
    mantissa q ≤ m ↔ q ≤ mantissaIndex m := by
  have hfirst : 0 < mantissaCount m := (mantissa_le_iff_lt_count (Nat.zero_le 15)).1 hm
  rw [mantissa_le_iff_lt_count hq, mantissaIndex_eq]
  omega

/-- The level of a value whose highest set bit is bit `e`. -/
theorem level2_eq {x e : Nat} (hle : 2 ^ e ≤ max x 1) (hlt : max x 1 < 2 ^ (e + 1)) :
    level2 x = 16 * e + mantissaIndex (max x 1 * 32768 / 2 ^ e) := by
  have he : Nat.log2 (max x 1) = e := (Nat.log2_eq_iff (by omega)).2 ⟨hle, hlt⟩
  simp only [level2, he]

/-- A value scaled by its highest set bit lies in the table's octave. -/
theorem scaled_bounds {y e : Nat} (hle : 2 ^ e ≤ y) (hlt : y < 2 ^ (e + 1)) :
    32768 ≤ y * 32768 / 2 ^ e ∧ y * 32768 / 2 ^ e ≤ 65535 := by
  have hpos : 0 < 2 ^ e := Nat.two_pow_pos e
  constructor
  · rw [Nat.le_div_iff_mul_le hpos]
    omega
  · rw [← Nat.lt_succ_iff, Nat.div_lt_iff_lt_mul hpos]
    rw [pow_succ] at hlt
    omega

theorem coeff_floor : coeff (-320) = 0 := rfl

theorem coeff_eq {e : Int} {r : Nat} (hr : r ≤ 15) (hg : 16 * e + r ≠ -320) :
    coeff (16 * e + r)
      = if 0 ≤ 15 + e then mantissa r * 2 ^ (15 + e).toNat else mantissa r / 2 ^ (-(15 + e)).toNat := by
  have hquot : (16 * e + r) / 16 = e := by omega
  have hrem : (16 * e + r - 16 * e).toNat = r := by omega
  rw [coeff, if_neg (show _ ≠ gainFloor from hg)]
  simp only [hquot, hrem]

theorem coeff_eq_mul {e : Int} {r : Nat} (hr : r ≤ 15) (he : 0 ≤ 15 + e) :
    coeff (16 * e + r) = mantissa r * 2 ^ (15 + e).toNat := by
  rw [coeff_eq hr (by omega), if_pos he]

theorem coeff_eq_shiftRight {e : Int} {r : Nat} (hr : r ≤ 15) (hg : 16 * e + r ≠ -320) (he : 15 + e < 0) :
    coeff (16 * e + r) = mantissa r >>> (-(15 + e)).toNat := by
  rw [coeff_eq hr hg, if_neg (not_le.2 he), Nat.shiftRight_eq_div_pow]

/-- From the quotient -20 up, which every gain above the floor has, both forms of the coefficient are one:
the mantissa raised by `20 + e` places and lowered by five. -/
theorem coeff_eq_raised {n r : Nat} (hr : r ≤ 15) (hg : 0 < 16 * n + r) :
    coeff (16 * ((n : Int) - 20) + r) = mantissa r * 2 ^ n / 2 ^ 5 := by
  rcases le_or_gt 5 n with hn | hn
  · have hexp : (15 + ((n : Int) - 20)).toNat = n - 5 := by omega
    rw [coeff_eq_mul hr (by omega), hexp, Nat.mul_div_assoc _ (pow_dvd_pow 2 hn),
      Nat.pow_div hn (by decide)]
  · have hexp : (-(15 + ((n : Int) - 20))).toNat = 5 - n := by omega
    have hsplit : 2 ^ 5 = 2 ^ (5 - n) * 2 ^ n := by rw [← pow_add, Nat.sub_add_cancel hn.le]
    rw [coeff_eq_shiftRight hr (by omega) (by omega), hexp, Nat.shiftRight_eq_div_pow, hsplit,
      Nat.mul_div_mul_right _ _ (Nat.two_pow_pos n)]

/-- A raised mantissa lies between those of the gains -319 and 32. -/
theorem raised_bounds {n r : Nat} (hr : r ≤ 15) (hlow : 0 < 16 * n + r) (hhigh : 16 * n + r ≤ 352) :
    34219 ≤ mantissa r * 2 ^ n ∧ mantissa r * 2 ^ n ≤ 2 ^ 37 := by
  obtain ⟨hmin, hmax⟩ := mantissa_bounds hr
  constructor
  · rcases Nat.eq_zero_or_pos n with rfl | hn
    · have hsecond : mantissa 1 ≤ mantissa r := mantissa_mono (by omega) hr
      rw [pow_zero, mul_one]
      exact hsecond
    · calc 34219 ≤ 32768 * 2 ^ 1 := by decide
        _ ≤ mantissa r * 2 ^ n := Nat.mul_le_mul hmin (Nat.pow_le_pow_right two_pos hn)
  · rcases Nat.lt_or_ge 21 n with hn | hn
    · obtain ⟨rfl, rfl⟩ : n = 22 ∧ r = 0 := by omega
      decide
    · calc mantissa r * 2 ^ n ≤ 62757 * 2 ^ 21 := Nat.mul_le_mul hmax (Nat.pow_le_pow_right two_pos hn)
        _ ≤ 2 ^ 37 := by decide

theorem coeff_bounds {g : Int} (hlow : -319 ≤ g) (hhigh : g ≤ 32) : 1069 ≤ coeff g ∧ coeff g ≤ 2 ^ 32 := by
  obtain ⟨n, r, hr, rfl⟩ : ∃ n r : Nat, r ≤ 15 ∧ g = 16 * ((n : Int) - 20) + r :=
    ⟨(g + 320).toNat / 16, (g + 320).toNat % 16, by omega, by omega⟩
  obtain ⟨hmin, hmax⟩ := raised_bounds (n := n) hr (by omega) (by omega)
  rw [coeff_eq_raised hr (by omega)]
  omega

/-- Settles O42: the level is read off the table by `mantissa_le_iff_le_index`, and the coefficient in its two
forms by `coeff_eq_mul` and `coeff_eq_shiftRight`, within `coeff_bounds`. -/
theorem levelsAndCoefficientsFollowTheTable : Obligations.LevelsAndCoefficientsFollowTheTable := by
  unfold Obligations.LevelsAndCoefficientsFollowTheTable
  refine ⟨rfl, ?level, by decide, by decide, coeff_floor, ?coefficient, by decide, by decide, by decide⟩
  case level =>
    rintro x _ e _ rfl hle hlt rfl
    obtain ⟨hmin, hmax⟩ := scaled_bounds hle hlt
    exact ⟨hmin, hmax, _, mantissaIndex_le _,
      (mantissa_le_iff_le_index hmin (mantissaIndex_le _)).2 le_rfl,
      fun q hq => (mantissa_le_iff_le_index hmin hq).1, level2_eq hle hlt⟩
  case coefficient =>
    rintro g e r hlow hhigh rfl hr
    exact ⟨by omega, by omega, coeff_eq_mul hr, coeff_eq_shiftRight hr (by omega), coeff_bounds hlow hhigh⟩

end Sys2Proof.Machine

/-! The delay pool's staged set (R113 to R115). A zone 1 total is a sum over the present channels, since an
absent channel has length 0; each grant is cut to its share of what remains, so a zone's grants take at most
that remainder. -/

namespace Sys2Proof.Machine

theorem mem_mainChans (ch : MainChan) : ch ∈ mainChans := by cases ch <;> decide

@[simp] theorem mem_presentChans {p : PerMain Bool} {ch : MainChan} :
    ch ∈ presentChans p ↔ p.get ch = true := by
  simp [presentChans, mem_mainChans]

theorem length_presentChans_le (p : PerMain Bool) : (presentChans p).length ≤ 10 :=
  List.length_filter_le _ mainChans

/-- A sum over zone 1's channels with 0 for each absent one is the sum over the present ones. -/
theorem sum_mainChans_ite_present (p : PerMain Bool) (f : MainChan → Nat) :
    (mainChans.map fun ch => if p.get ch = true then f ch else 0).sum = ((presentChans p).map f).sum := by
  rw [List.sum_map_ite]
  simp [presentChans]

/-! ### The distance delays (R113) -/

theorem distanceDelay_of_present {p : PerMain Bool} {ch : MainChan} (h : p.get ch = true)
    (dist : PerMain Nat) : distanceDelay p dist ch = (maxDistance p dist - dist.get ch) * 480 / 343 := by
  rw [distanceDelay, if_pos h]

/-- The largest distance is the maximum of the present distances and 0. -/
theorem maxDistance_mem_and_ge (p : PerMain Bool) (dist : PerMain Nat) :
    maxDistance p dist ∈ 0 :: (presentChans p).map dist.get
      ∧ ∀ d ∈ 0 :: (presentChans p).map dist.get, d ≤ maxDistance p dist :=
  List.max?_eq_some_iff.1 List.max?_cons'

theorem dist_le_maxDistance {p : PerMain Bool} {dist : PerMain Nat} {ch : MainChan} (h : p.get ch = true) :
    dist.get ch ≤ maxDistance p dist :=
  (maxDistance_mem_and_ge p dist).2 _ (List.mem_cons_of_mem _ (List.mem_map_of_mem (mem_presentChans.2 h)))

/-- With a channel present, the largest distance is that of a present channel. -/
theorem exists_present_dist_eq_maxDistance {p : PerMain Bool} {near : MainChan} (h : p.get near = true)
    (dist : PerMain Nat) : ∃ far, p.get far = true ∧ dist.get far = maxDistance p dist := by
  rcases List.mem_cons.1 (maxDistance_mem_and_ge p dist).1 with hzero | hmem
  · have hle : dist.get near ≤ maxDistance p dist := dist_le_maxDistance h
    exact ⟨near, h, by omega⟩
  · obtain ⟨far, hfar, heq⟩ := List.mem_map.1 hmem
    exact ⟨far, mem_presentChans.1 hfar, heq⟩

theorem maxDistance_le {p : PerMain Bool} {dist : PerMain Nat} {near : MainChan} {b : Nat}
    (h : p.get near = true) (hb : ∀ ch, dist.get ch ≤ b) : maxDistance p dist ≤ b := by
  obtain ⟨far, -, hfar⟩ := exists_present_dist_eq_maxDistance h dist
  exact hfar ▸ hb far

/-- 2,099 frames answer to 1,500 cm. -/
theorem distanceDelay_le {p : PerMain Bool} {dist : PerMain Nat} {ch : MainChan} (h : p.get ch = true)
    (hb : ∀ ch, dist.get ch ≤ 1500) : distanceDelay p dist ch ≤ 2099 := by
  have hmax := maxDistance_le h hb
  rw [distanceDelay_of_present h]
  omega

theorem delaySum_eq_sum_mainChans (p : PerMain Bool) (dist : PerMain Nat) :
    delaySum p dist = (mainChans.map (distanceDelay p dist)).sum := by
  rw [delaySum, ← sum_mainChans_ite_present]
  congr 1
  apply List.map_congr_left
  intro ch _
  by_cases h : p.get ch = true <;> simp [distanceDelay, h]

/-- The farthest present channel has no distance delay, so at most nine channels have one. -/
theorem delaySum_le {p : PerMain Bool} {dist : PerMain Nat} {near : MainChan} (h : p.get near = true)
    (hb : ∀ ch, dist.get ch ≤ 1500) : delaySum p dist ≤ 18891 := by
  obtain ⟨far, hfar, hmax⟩ := exists_present_dist_eq_maxDistance h dist
  have hzero : distanceDelay p dist far = 0 := by simp [distanceDelay_of_present hfar, hmax]
  have hmem : far ∈ presentChans p := mem_presentChans.2 hfar
  have hothers : (((presentChans p).erase far).map (distanceDelay p dist)).sum
      ≤ ((presentChans p).erase far).length * 2099 := by
    have hle := List.sum_le_card_nsmul (((presentChans p).erase far).map (distanceDelay p dist)) 2099 <| by
      simpa only [List.forall_mem_map] using fun ch hch =>
        distanceDelay_le (mem_presentChans.1 (List.mem_of_mem_erase hch)) hb
    simpa using hle
  have hlen : ((presentChans p).erase far).length ≤ 9 := by
    have := length_presentChans_le p
    rw [List.length_erase_of_mem hmem]
    omega
  calc delaySum p dist = (((presentChans p).erase far).map (distanceDelay p dist)).sum := by
        rw [delaySum, ← List.sum_map_erase _ hmem, hzero, Nat.zero_add]
    _ ≤ ((presentChans p).erase far).length * 2099 := hothers
    _ ≤ 18891 := by omega

/-! ### The grants, the staged lengths and the totals (R114, R115) -/

section
variable (p : PerMain Bool) (dist : PerMain Nat) (lipsync : PerZone Nat)

theorem computeSet_grant_z1 : (computeSet p dist lipsync).grant.z1
    = min (48 * lipsync.z1) ((65536 - delaySum p dist) / (presentChans p).length) := by
  rw [Nat.mul_comm 48]
  rfl

theorem computeSet_grant_z2 : (computeSet p dist lipsync).grant.z2
    = min (48 * lipsync.z2)
      ((65536 - delaySum p dist - (presentChans p).length * (computeSet p dist lipsync).grant.z1) / 2) := by
  rw [Nat.mul_comm 48]
  rfl

theorem computeSet_len_main (ch : MainChan) : (computeSet p dist lipsync).len.get (.main ch)
    = if p.get ch = true then distanceDelay p dist ch + (computeSet p dist lipsync).grant.z1 else 0 := by
  simp [computeSet, stagedLengths]

theorem computeSet_len_zl : (computeSet p dist lipsync).len.get .zl = (computeSet p dist lipsync).grant.z2 := rfl

theorem computeSet_len_zr : (computeSet p dist lipsync).len.get .zr = (computeSet p dist lipsync).grant.z2 := rfl

/-- Zone 1 takes the distance delays and one grant for each present channel. -/
theorem computeSet_total_z1 : (computeSet p dist lipsync).total .z1
    = delaySum p dist + (presentChans p).length * (computeSet p dist lipsync).grant.z1 := by
  calc (computeSet p dist lipsync).total .z1
      = (mainChans.map fun ch => if p.get ch = true
          then distanceDelay p dist ch + (computeSet p dist lipsync).grant.z1 else 0).sum := by
        simp only [PoolSet.total, zoneChans, List.map_map, Function.comp_def, computeSet_len_main]
    _ = delaySum p dist + (presentChans p).length * (computeSet p dist lipsync).grant.z1 := by
        rw [sum_mainChans_ite_present, List.sum_map_add]
        simp [delaySum]

theorem computeSet_total_z2 :
    (computeSet p dist lipsync).total .z2 = 2 * (computeSet p dist lipsync).grant.z2 := by
  rw [(total_eq _).2, Nat.two_mul]
  rfl

theorem presentChans_mul_grant_le : (presentChans p).length * (computeSet p dist lipsync).grant.z1
    ≤ 65536 - delaySum p dist := by
  rw [computeSet_grant_z1]
  exact (Nat.mul_le_mul_left _ (min_le_right _ _)).trans (Nat.mul_div_le _ _)

theorem two_mul_grant_le : 2 * (computeSet p dist lipsync).grant.z2
    ≤ 65536 - delaySum p dist - (presentChans p).length * (computeSet p dist lipsync).grant.z1 := by
  rw [computeSet_grant_z2]
  exact (Nat.mul_le_mul_left _ (min_le_right _ _)).trans (Nat.mul_div_le _ _)

/-- The staged totals fit the pool wherever the distance delays alone do. -/
theorem computeSet_totals_le (h : delaySum p dist ≤ 65536) :
    (computeSet p dist lipsync).total .z1 + (computeSet p dist lipsync).total .z2 ≤ 65536 := by
  have hone := presentChans_mul_grant_le p dist lipsync
  have htwo := two_mul_grant_le p dist lipsync
  rw [computeSet_total_z1, computeSet_total_z2]
  omega

end

/-- Settles O20: the farthest present channel bounds the distance delays (`delaySum_le`), and each zone's grants
fit what the delays and the zone before it leave (`computeSet_totals_le`). -/
theorem stagedSetServesZoneOneFirst : Obligations.StagedSetServesZoneOneFirst := by
  unfold Obligations.StagedSetServesZoneOneFirst
  intro p dist lipsync hfl _ hdist
  have hpresent : p.get .fl = true := hfl
  have hsum : delaySum p dist ≤ 18891 := delaySum_le hpresent hdist
  obtain ⟨far, hfar, hmax⟩ := exists_present_dist_eq_maxDistance hpresent dist
  refine ⟨⟨far, hfar, ?farthest, ?delays⟩, delaySum_eq_sum_mainChans p dist, hsum,
    computeSet_grant_z1 p dist lipsync, computeSet_grant_z2 p dist lipsync, ?present, ?absent,
    computeSet_len_zl p dist lipsync, computeSet_len_zr p dist lipsync,
    computeSet_total_z1 p dist lipsync, computeSet_total_z2 p dist lipsync,
    computeSet_totals_le p dist lipsync (by omega)⟩
  case farthest =>
    intro ch hch
    rw [hmax]
    exact dist_le_maxDistance hch
  case delays =>
    intro ch
    rw [hmax, distanceDelay]
  case present =>
    intro ch hch
    rw [computeSet_len_main, if_pos hch]
  case absent =>
    intro ch hch
    simp [computeSet_len_main, hch]

end Sys2Proof.Machine

/-! The laws that every step keeps (R10, R14, R47 to R51, R59, R92, R95, R111, R118, R125, R128, R187). The relation
`Kept` says that a state's laws pass on to another; each operation of the model is shown to be kept once, from the
operations it calls, and the commands follow from their parts. -/

section

set_option autoImplicit false

namespace Sys2Proof.Machine

/-! ### The laws and what they speak of -/

/-- The laws of the memory agent, the gain stage and the amplifier supervisor. -/
structure AmplifierLaw (s : State) : Prop where
  memory : MemoryCanonical s
  queue : WriteBackQueueLaw s
  marks : MarksInOrder s
  silent : ModulesSilent s
  powered : ModulesPowered s
  orders : OrdersOnlyWhileOn s
  gains : GainsInRange s

/-- The laws of the zone switch, the delay pool and the AF list. -/
structure PathLaw (s : State) : Prop where
  zones : ZonesLaw s
  limits : WaitLimitsInRange s
  pool : PoolLaw s.pool
  af : AfListLaw s

/-- All that the amplifier law speaks of. -/
def ampFields (s : State) :=
  (s.mem, s.agent.queue, s.dirty, s.mods, (fun ch => (s.gain.chans.get ch).applied), s.meas.result, s.clock)

/-- All that the path law speaks of. -/
def pathFields (s : State) := (s.zones, s.pool.active, s.pool.lines, s.sd.af, s.tun.code)

theorem AmplifierLaw.congr {s t : State} (h : ampFields t = ampFields s) (k : AmplifierLaw s) : AmplifierLaw t := by
  simp only [ampFields, Prod.mk.injEq, funext_iff] at h
  obtain ⟨hmem, hqueue, hdirty, hmods, hgain, hresult, hclock⟩ := h
  obtain ⟨memory, queue, marks, silent, powered, orders, gains⟩ := k
  constructor
  · rwa [MemoryCanonical, hmem]
  · rwa [WriteBackQueueLaw, hqueue]
  · rwa [MarksInOrder, hdirty]
  · intro ch
    rw [hmods, hgain]
    exact silent ch
  · intro m
    rw [hmods, hresult, hclock]
    exact powered m
  · intro m
    rw [hmods]
    exact orders m
  · intro ch
    rw [hgain]
    exact gains ch

theorem PathLaw.congr {s t : State} (h : pathFields t = pathFields s) (k : PathLaw s) : PathLaw t := by
  simp only [pathFields, Prod.mk.injEq] at h
  obtain ⟨hzones, hactive, hlines, haf, hcode⟩ := h
  obtain ⟨zones, limits, pool, af⟩ := k
  constructor
  · rwa [ZonesLaw, hzones]
  · rwa [WaitLimitsInRange, hzones]
  · rwa [PoolLaw, hactive, hlines]
  · rwa [AfListLaw, haf, hcode]

/-- The laws that a state keeps pass on to another. -/
structure Kept (s t : State) : Prop where
  amp : AmplifierLaw s → AmplifierLaw t
  path : PathLaw s → PathLaw t

theorem Kept.refl (s : State) : Kept s s := ⟨id, id⟩

theorem Kept.trans {s t u : State} (h : Kept s t) (k : Kept t u) : Kept s u := ⟨k.amp ∘ h.amp, k.path ∘ h.path⟩

/-- A change of what no law speaks of. -/
theorem Kept.same {s t : State} (h : ampFields t = ampFields s) (k : pathFields t = pathFields s) : Kept s t :=
  ⟨.congr h, .congr k⟩

theorem Kept.after {s t u : State} (k : Kept t u) (h : Kept s t) : Kept s u := h.trans k

/-- A change of what no law speaks of, before a step. -/
theorem Kept.of_same {s t u : State} (k : Kept t u) (h : ampFields t = ampFields s) (h' : pathFields t = pathFields s) :
    Kept s u := k.after (.same h h')

theorem Kept.ite {p : Prop} [Decidable p] {s a b : State} (ha : p → Kept s a) (hb : ¬p → Kept s b) :
    Kept s (if p then a else b) := by
  split
  · exact ha ‹_›
  · exact hb ‹_›

/-! ### Memory, marks, causes and write-backs -/

theorem Rec.offset_injective (a b : Rec) (h : a.offset = b.offset) : a = b := by
  have hall : ∀ x ∈ records, ∀ y ∈ records, x.offset = y.offset → x = y := by decide
  have hmem : ∀ r : Rec, r ∈ records := by
    intro r
    cases r with
    | zone z => cases z <;> decide
    | source x => rcases x with (_ | _ | _ | _) | (_ | _) | _ <;> decide
    | stream m => cases m <;> decide
    | meter c => rcases c with (_ | _ | _ | _ | _ | _ | _ | _ | _ | _) | _ | _ <;> decide
    | module m => cases m <;> decide
    | _ => decide
  exact hall a (hmem a) b (hmem b) h

/-- A mark joins the marks at the place of its record's offset (R14, R16). -/
theorem insertRec_pairwise (r : Rec) {l : List Rec} (h : l.Pairwise fun a b => a.offset < b.offset) :
    (insertRec r l).Pairwise fun a b => a.offset < b.offset := by
  induction l with
  | nil => simp [insertRec]
  | cons x xs ih =>
    obtain ⟨hx, hxs⟩ := List.pairwise_cons.1 h
    unfold insertRec
    split
    · exact h
    · rename_i hne
      split
      · rename_i hlt
        refine List.pairwise_cons.2 ⟨?_, h⟩
        intro y hy
        rcases List.mem_cons.1 hy with rfl | hy
        · exact hlt
        · exact hlt.trans (hx y hy)
      · rename_i hge
        refine List.pairwise_cons.2 ⟨?_, ih hxs⟩
        intro y hy
        rcases (mem_insertRec r y xs).1 hy with rfl | hy
        · have : x.offset ≠ y.offset := fun e => hne (Rec.offset_injective _ _ e)
          omega
        · exact hx y hy

/-- A change of the marks alone that keeps their order. -/
theorem kept_of_marks {s t : State} (h : t = { s with dirty := t.dirty }) (hm : MarksInOrder s → MarksInOrder t) :
    Kept s t := by
  refine ⟨fun k => ?_, fun k => ?_⟩
  · have := k.marks
    rw [h] at hm ⊢
    exact ⟨k.memory, k.queue, hm this, k.silent, k.powered, k.orders, k.gains⟩
  · rw [h]
    exact ⟨k.zones, k.limits, k.pool, k.af⟩

theorem markDirty_kept (r : Rec) (s : State) : Kept s (markDirty r s) :=
  kept_of_marks rfl (insertRec_pairwise r)

theorem markAll_kept (rs : List Rec) (s : State) : Kept s (markAll rs s) := by
  induction rs generalizing s with
  | nil => exact .refl s
  | cons r rs ih => exact (markDirty_kept r s).trans (ih _)

theorem raise_kept (c : Cause) (s : State) : Kept s (raise c s) :=
  .ite (fun _ => .of_same (markDirty_kept _ _) rfl rfl) (fun _ => .refl s)

theorem publish_kept (s s' : State) : Kept s' (publish s s') := by
  refine Kept.trans ?_ (markAll_kept _ _)
  exact .ite (fun _ => raise_kept _ _) (fun _ => .refl _)

/-- A change of the write-back queue alone that keeps its law. -/
theorem kept_of_queue {s t : State} (h : t = { s with agent := t.agent })
    (hq : WriteBackQueueLaw s → WriteBackQueueLaw t) : Kept s t := by
  refine ⟨fun k => ?_, fun k => ?_⟩
  · have := k.queue
    rw [h] at hq ⊢
    exact ⟨k.memory, hq this, k.marks, k.silent, k.powered, k.orders, k.gains⟩
  · rw [h]
    exact ⟨k.zones, k.limits, k.pool, k.af⟩

/-- A write-back of a slot that takes them joins the queue once (R10). -/
theorem requestWriteBack_kept (sl : Slot) (h : sl.takesWriteBack = true) (s : State) :
    Kept s (requestWriteBack sl s) := by
  unfold requestWriteBack
  split
  · exact .refl s
  · rename_i hn
    refine kept_of_queue rfl fun ⟨hnd, htake⟩ => ⟨?_, ?_⟩
    · refine List.Nodup.append hnd (List.nodup_singleton sl) ?_
      simpa using hn
    · intro x hx
      rcases List.mem_append.1 hx with hx | hx
      · exact htake x hx
      · rw [List.mem_singleton.1 hx, h]

/-- Entries leave the write-back queue. -/
theorem queue_filter_kept (p : Slot → Bool) (f : Agent → Agent) (s : State)
    (hf : (f s.agent).queue = s.agent.queue.filter p) : Kept s (updAgent f s) := by
  refine kept_of_queue rfl fun ⟨hnd, htake⟩ => ?_
  show (f s.agent).queue.Nodup ∧ ∀ sl ∈ (f s.agent).queue, _
  rw [hf]
  exact ⟨hnd.filter _, fun x hx => htake x (List.mem_of_mem_filter hx)⟩

/-- A change of memory alone that keeps its form. -/
theorem mem_kept (s : State) (m : Memory) (h : s.mem.wf = true → m.wf = true) : Kept s { s with mem := m } :=
  ⟨fun k => ⟨h k.memory, k.queue, k.marks, k.silent, k.powered, k.orders, k.gains⟩, .congr rfl⟩

theorem answerSystem_kept (a : Answer) (s : State) : Kept s (answerSystem a s) :=
  .of_same (requestWriteBack_kept _ rfl _) rfl rfl

theorem answerStream_kept (m : StreamId) (a : Answer) (s : State) : Kept s (answerStream m a s) :=
  .of_same (requestWriteBack_kept _ rfl _) rfl rfl

theorem answerModule_kept (a : Answer) (s : State) : Kept s (answerModule a s) :=
  .of_same (requestWriteBack_kept _ rfl _) rfl rfl

theorem answerMeasure_kept (a : Answer) (s : State) : Kept s (answerMeasure a s) :=
  .of_same (requestWriteBack_kept _ rfl _) rfl rfl

theorem answerTuner_kept (a : Answer) (s : State) : Kept s (answerTuner a s) :=
  .of_same (requestWriteBack_kept _ rfl _) rfl rfl

/-! ### Changes of blocks that no law speaks of -/

theorem updFe_kept (f : FrontEnd → FrontEnd) (s : State) : Kept s (updFe f s) := .same rfl rfl

theorem updKnob_kept (f : Knob → Knob) (s : State) : Kept s (updKnob f s) := .same rfl rfl

theorem updReader_kept (m : StreamId) (f : Reader → Reader) (s : State) : Kept s (updReader m f s) := .same rfl rfl

theorem updLine_kept (l : SaLine) (f : SaState → SaState) (s : State) : Kept s (updLine l f s) := .same rfl rfl

theorem updZoneGain_kept (z : Zone) (f : ZoneGain → ZoneGain) (s : State) : Kept s (updZoneGain z f s) := .same rfl rfl

theorem updTun_kept (f : Tuner → Tuner) (s : State) (h : (f s.tun).code = s.tun.code) : Kept s (updTun f s) :=
  .same rfl (by simp [pathFields, h])

theorem updSd_kept (f : Station → Station) (s : State) (h : (f s.sd).af = s.sd.af) : Kept s (updSd f s) :=
  .same rfl (by simp [pathFields, h])

theorem updMeas_kept (f : Meas → Meas) (s : State) (h : (f s.meas).result = s.meas.result) : Kept s (updMeas f s) :=
  .same (by simp [ampFields, h]) rfl

theorem setPort_kept (p : Port) (s : State) : Kept s (setPort p s) := .same rfl rfl

end Sys2Proof.Machine

end

section

set_option autoImplicit false

namespace Sys2Proof.Machine

/-! ### Modules and gains (R92 to R95, R125 to R135) -/

/-- The amplifier law without the condition that lets a module have power. -/
structure UnpoweredLaw (s : State) : Prop where
  memory : MemoryCanonical s
  queue : WriteBackQueueLaw s
  marks : MarksInOrder s
  silent : ModulesSilent s
  orders : OrdersOnlyWhileOn s
  gains : GainsInRange s

theorem AmplifierLaw.unpowered {s : State} (h : AmplifierLaw s) : UnpoweredLaw s :=
  ⟨h.memory, h.queue, h.marks, h.silent, h.orders, h.gains⟩

theorem UnpoweredLaw.powered {s : State} (h : UnpoweredLaw s) (hp : ModulesPowered s) : AmplifierLaw s :=
  ⟨h.memory, h.queue, h.marks, h.silent, hp, h.orders, h.gains⟩

/-- A module is in STARTING or ON. -/
def HasPower (s : State) (m : AmpModule) : Prop := (s.mods.get m).state = .starting ∨ (s.mods.get m).state = .on

/-- Where no module has power, its condition asks for nothing. -/
theorem UnpoweredLaw.off {s : State} (h : UnpoweredLaw s) (hp : ∀ m, ¬HasPower s m) : AmplifierLaw s :=
  h.powered fun m hm => absurd hm (hp m)

/-- Modules and gains alone change, the gains toward -320 alone. -/
theorem UnpoweredLaw.modules {s t : State} (k : UnpoweredLaw s)
    (h : t = { s with mods := t.mods, gain := t.gain })
    (hg : ∀ ch, (t.gain.chans.get ch).applied = (s.gain.chans.get ch).applied
      ∨ (t.gain.chans.get ch).applied = gainFloor)
    (hsilent : ModulesSilent t) (horders : OrdersOnlyWhileOn t) : UnpoweredLaw t := by
  refine ⟨?_, ?_, ?_, hsilent, horders, ?_⟩
  · rw [h]; exact k.memory
  · rw [h]; exact k.queue
  · rw [h]; exact k.marks
  · intro ch
    rcases hg ch with hc | hc
    · rw [hc]
      exact k.gains ch
    · rw [hc]
      decide

/-- No module has gained power, and the check and the clock stand as they were. -/
theorem powered_of_fewer {s t : State} (h : ModulesPowered s) (hm : ∀ m, HasPower t m → HasPower s m)
    (hr : t.meas.result = s.meas.result) (hc : t.clock = s.clock) : ModulesPowered t := by
  intro m hp
  rw [hr, hc]
  exact h m (hm m hp)

theorem pathFields_of_modules {s t : State} (h : t = { s with mods := t.mods, gain := t.gain }) :
    pathFields t = pathFields s := by
  rw [h]
  rfl

/-- One module's record changes: the laws of the modules are left to show. -/
theorem AmplifierLaw.updModule {s : State} (k : AmplifierLaw s) (m : AmpModule) (f : ModuleRec → ModuleRec)
    (hsilent : ModulesSilent (updModule m f s)) (horders : OrdersOnlyWhileOn (updModule m f s))
    (hpowered : ModulesPowered (updModule m f s)) : AmplifierLaw (updModule m f s) :=
  ⟨k.memory, k.queue, k.marks, hsilent, hpowered, horders, k.gains⟩

/-- A change of one module's record that leaves its state and its order. -/
theorem updModule_kept (m : AmpModule) (f : ModuleRec → ModuleRec) (s : State)
    (hs : (f (s.mods.get m)).state = (s.mods.get m).state)
    (ho : (f (s.mods.get m)).order = (s.mods.get m).order) : Kept s (updModule m f s) := by
  have hstate : ∀ x, ((updModule m f s).mods.get x).state = (s.mods.get x).state := by
    intro x
    by_cases hx : x = m <;> simp [updModule, PerModule.get_upd, hx, hs]
  have horder : ∀ x, ((updModule m f s).mods.get x).order = (s.mods.get x).order := by
    intro x
    by_cases hx : x = m <;> simp [updModule, PerModule.get_upd, hx, ho]
  refine ⟨fun k => k.updModule m f ?_ ?_ ?_, .congr rfl⟩
  · intro ch
    rw [hstate]
    exact k.silent ch
  · intro x
    rw [horder, hstate]
    exact k.orders x
  · refine powered_of_fewer k.powered (fun x => ?_) rfl rfl
    simp only [HasPower, hstate]
    exact id

/-- The channels of a module that has stopped, and its record. -/
theorem stopped_law (m : AmpModule) (f : ModuleRec → ModuleRec) {s : State} (k : UnpoweredLaw s)
    (ho : (f (s.mods.get m)).order = false) : UnpoweredLaw (floorModule m (updModule m f s)) := by
  have hchan : ∀ ch, ((floorModule m (updModule m f s)).gain.chans.get ch).applied =
      if chanModule ch = m then gainFloor else (s.gain.chans.get ch).applied := by
    intro ch
    rw [floorModule, floorChans_chan]
    by_cases hx : chanModule ch = m <;> simp [hx]
  refine k.modules rfl (fun ch => ?_) ?_ ?_
  · rw [hchan]
    split
    · exact .inr rfl
    · exact .inl rfl
  · intro ch hn
    rw [hchan]
    split
    · rfl
    · rename_i hx
      refine k.silent ch ?_
      simpa [PerModule.get_upd, hx] using hn
  · intro x hx
    by_cases h : x = m
    · simp [h, ho] at hx
    · simp only [floorModule_fields, updModule_mods, PerModule.get_upd, h, if_false] at hx ⊢
      exact k.orders x hx

theorem stopModule_law (m : AmpModule) {s : State} (k : UnpoweredLaw s) : UnpoweredLaw (stopModule m s) :=
  stopped_law m _ k rfl

theorem stopModule_hasPower (m x : AmpModule) (s : State) : HasPower (stopModule m s) x ↔ x ≠ m ∧ HasPower s x := by
  by_cases h : x = m <;> simp [HasPower, stopModule, PerModule.get_upd, h]

theorem stopModule_kept (m : AmpModule) (s : State) : Kept s (stopModule m s) :=
  ⟨fun k => (stopModule_law m k.unpowered).powered
    (powered_of_fewer k.powered (fun x hx => ((stopModule_hasPower m x s).1 hx).2) rfl rfl), .congr rfl⟩

theorem windDownReport_kept (m : AmpModule) (s : State) : Kept s (windDownReport m s) :=
  .ite (fun _ => stopModule_kept m s) (fun _ => .refl s)

theorem windDownReports_kept (s : State) : Kept s (windDownReports s) :=
  ((windDownReport_kept .a s).trans (windDownReport_kept .b _)).trans (windDownReport_kept .c _)

/-- A module in OFF gets power only with the check passed and the clock good (R127). -/
theorem startModule_kept (m : AmpModule) (s : State) : Kept s (startModule m s) := by
  refine .ite (fun h => ?_) (fun _ => .refl s)
  simp only [startAllowed, Bool.and_eq_true, beq_iff_eq] at h
  obtain ⟨hoff, ⟨-, hpass⟩, hgood⟩ := h
  refine ⟨fun k => k.updModule m _ ?_ ?_ ?_, .congr rfl⟩
  · intro ch hn
    refine k.silent ch ?_
    by_cases hx : chanModule ch = m
    · rw [hx, hoff]
      decide
    · simpa [PerModule.get_upd, hx] using hn
  · intro x hx
    by_cases h : x = m
    · subst h
      have : (s.mods.get x).order = true := by simpa using hx
      have := k.orders x this
      rw [hoff] at this
      exact absurd this (by decide)
    · simp only [updModule_mods, PerModule.get_upd, h, if_false] at hx ⊢
      exact k.orders x hx
  · exact fun _ _ => ⟨hpass, hgood⟩

theorem startModules_kept (s : State) : Kept s (startModules s) :=
  ((startModule_kept .a s).trans (startModule_kept .b _)).trans (startModule_kept .c _)

/-- A floor event leaves every module as it is. -/
theorem floorModule_law (m : AmpModule) {s : State} (k : UnpoweredLaw s) : UnpoweredLaw (floorModule m s) := by
  have hchan : ∀ ch, ((floorModule m s).gain.chans.get ch).applied = (s.gain.chans.get ch).applied
      ∨ ((floorModule m s).gain.chans.get ch).applied = gainFloor := by
    intro ch
    rw [floorModule, floorChans_chan]
    split
    · exact .inr rfl
    · exact .inl rfl
  refine k.modules rfl hchan (fun ch hn => ?_) k.orders
  rcases hchan ch with h | h
  · rw [h]
    exact k.silent ch hn
  · exact h

theorem floorModule_kept (m : AmpModule) (s : State) : Kept s (floorModule m s) :=
  ⟨fun k => (floorModule_law m k.unpowered).powered k.powered, .congr rfl⟩

theorem floorZone_kept (z : Zone) (s : State) : Kept s (floorZone z s) := by
  have hchan : ∀ ch, ((floorZone z s).gain.chans.get ch).applied = (s.gain.chans.get ch).applied
      ∨ ((floorZone z s).gain.chans.get ch).applied = gainFloor := by
    intro ch
    rw [floorZone, floorChans_chan]
    split
    · exact .inr rfl
    · exact .inl rfl
  refine ⟨fun k => (k.unpowered.modules rfl hchan (fun ch hn => ?_) k.orders).powered k.powered, .congr rfl⟩
  rcases hchan ch with h | h
  · rw [h]
    exact k.silent ch hn
  · exact h

/-- Raising a cause says nothing of power. -/
theorem raise_law (c : Cause) {s : State} (k : UnpoweredLaw s) : UnpoweredLaw (raise c s) := by
  obtain ⟨hmem, hqueue, hmarks, hsilent, horders, hgains⟩ := k
  refine ⟨by simpa [MemoryCanonical], by simpa [WriteBackQueueLaw], ?_, by simpa [ModulesSilent],
    by simpa [OrdersOnlyWhileOn], by simpa [GainsInRange]⟩
  unfold raise
  split
  · exact insertRec_pairwise _ hmarks
  · exact hmarks

theorem trip_law (m : AmpModule) (cause : TripCause) (n : Nat) {s : State} (k : UnpoweredLaw s) :
    UnpoweredLaw (trip m cause n s) := by
  unfold trip
  dsimp only
  split
  · exact floorModule_law m k
  · exact raise_law _ (stopped_law m
      (fun r => { r with state := .tripped, order := false, cause := cause, tripEntry := n }) k rfl)

theorem trip_hasPower (m : AmpModule) (cause : TripCause) (n : Nat) (x : AmpModule) (s : State) :
    HasPower (trip m cause n s) x ↔ x ≠ m ∧ HasPower s x := by
  unfold trip
  dsimp only
  split
  · rename_i h
    by_cases hx : x = m <;> simp [HasPower, hx, h]
  · by_cases hx : x = m <;> simp [HasPower, PerModule.get_upd, hx]

theorem trip_kept (m : AmpModule) (cause : TripCause) (n : Nat) (s : State) : Kept s (trip m cause n s) :=
  ⟨fun k => (trip_law m cause n k.unpowered).powered
    (powered_of_fewer k.powered (fun x hx => ((trip_hasPower m cause n x s).1 hx).2) (by simp) (by simp)),
    .congr (by simp [pathFields])⟩

theorem selfCheckStop_law (m : AmpModule) {s : State} (k : UnpoweredLaw s) : UnpoweredLaw (selfCheckStop m s) := by
  unfold selfCheckStop
  dsimp only
  split
  · exact stopModule_law m k
  · exact k

theorem selfCheckStop_hasPower (m x : AmpModule) (s : State) :
    HasPower (selfCheckStop m s) x ↔ x ≠ m ∧ HasPower s x := by
  unfold selfCheckStop
  dsimp only
  split
  · exact stopModule_hasPower m x s
  · rename_i h
    simp only [Bool.or_eq_true, beq_iff_eq] at h
    refine ⟨fun hx => ⟨?_, hx⟩, fun hx => hx.2⟩
    rintro rfl
    exact h hx

/-- With the check not passed no module keeps power (R130). -/
theorem selfCheckStops_law {s : State} (k : UnpoweredLaw s) : AmplifierLaw (selfCheckStops s) := by
  refine (selfCheckStop_law .c (selfCheckStop_law .b (selfCheckStop_law .a k))).off fun m hm => ?_
  simp only [selfCheckStop_hasPower] at hm
  cases m <;> simp at hm

theorem startRecheck_kept (s : State) : Kept s (startRecheck s) :=
  ⟨fun k => selfCheckStops_law
    ⟨k.memory, k.queue, k.marks, k.silent, k.orders, k.gains⟩, .congr (by simp [pathFields])⟩

theorem selfRecheckCommand_kept (s : State) : Kept s (selfRecheckCommand s) :=
  .ite (fun _ => answerSystem_kept _ s) (fun _ => (startRecheck_kept s).trans (answerSystem_kept _ _))

theorem derateBy_kept (m : AmpModule) (d : Int) (s : State) : Kept s (derateBy m d s) := updModule_kept m _ s rfl rfl

/-- An order stands on a module that is ON. -/
theorem order_kept (m : AmpModule) (on : Bool) (s : State) (h : (s.mods.get m).state = .on) :
    Kept s (updModule m (fun r => { r with order := on }) s) := by
  have hstate : ∀ x, ((updModule m (fun r => { r with order := on }) s).mods.get x).state = (s.mods.get x).state := by
    intro x
    by_cases hx : x = m <;> simp [PerModule.get_upd, hx]
  refine ⟨fun k => k.updModule m _ ?_ ?_ ?_, .congr rfl⟩
  · intro ch
    rw [hstate]
    exact k.silent ch
  · intro x hx
    rw [hstate]
    by_cases hm : x = m
    · rw [hm, h]
    · refine k.orders x ?_
      simpa [PerModule.get_upd, hm] using hx
  · refine powered_of_fewer k.powered (fun x => ?_) rfl rfl
    simp only [HasPower, hstate]
    exact id

theorem moduleEnArrival_kept (m : AmpModule) (on : Bool) (s : State) : Kept s (moduleEnArrival m on s) := by
  have hset : Kept s (updModule m (fun r => { r with enable := on }) s) := updModule_kept m _ s rfl rfl
  unfold moduleEnArrival
  refine .ite (fun _ => .refl s) fun _ => ?_
  dsimp only
  split
  · exact hset.trans (startModule_kept m _)
  · exact hset.trans (stopModule_kept m _)
  · rename_i h _
    exact (hset.trans (order_kept m true _ (by simpa using h))).trans (windDownReport_kept m _)
  · rename_i h _
    exact hset.trans (order_kept m false _ (by simpa using h))
  · exact hset

/-- A module that has no power goes to OFF. -/
theorem toOff_kept (m : AmpModule) (f : ModuleRec → ModuleRec) (s : State) (h : ¬HasPower s m)
    (hs : (f (s.mods.get m)).state = .off) (ho : (f (s.mods.get m)).order = (s.mods.get m).order) :
    Kept s (updModule m f s) := by
  have hon : (s.mods.get m).state ≠ .on := fun e => h (.inr e)
  refine ⟨fun k => k.updModule m _ ?_ ?_ ?_, .congr rfl⟩
  · intro ch hn
    refine k.silent ch ?_
    by_cases hx : chanModule ch = m
    · rwa [hx]
    · simpa [PerModule.get_upd, hx] using hn
  · intro x hx
    by_cases hm : x = m
    · subst hm
      exact absurd (k.orders x (by simpa [ho] using hx)) hon
    · simp only [updModule_mods, PerModule.get_upd, hm, if_false] at hx ⊢
      exact k.orders x hx
  · refine powered_of_fewer k.powered (fun x => ?_) rfl rfl
    by_cases hm : x = m <;> simp [HasPower, PerModule.get_upd, hm, hs]

theorem clearTripTaken_kept (m : AmpModule) (s : State) (h : (s.mods.get m).state = .tripped) :
    Kept s (clearTripTaken m s) :=
  (toOff_kept m (fun r => { r with state := .off, cause := .none, tripEntry := 0 }) s (by simp [HasPower, h]) rfl
    rfl).trans (startModule_kept m _)

theorem startExpiry_kept (m : AmpModule) (s : State) : Kept s (startExpiry m s) := by
  refine .ite (fun h => ?_) (fun _ => .refl s)
  refine ⟨fun k => k.updModule m _ ?_ ?_ ?_, .congr rfl⟩
  · intro ch hn
    refine k.silent ch ?_
    by_cases hx : chanModule ch = m
    · simp [hx] at hn
    · simpa [PerModule.get_upd, hx] using hn
  · intro x hx
    by_cases hm : x = m
    · simp [hm]
    · simp only [updModule_mods, PerModule.get_upd, hm, if_false] at hx ⊢
      exact k.orders x hx
  · refine powered_of_fewer k.powered (fun x => ?_) rfl rfl
    by_cases hm : x = m <;> simp [HasPower, PerModule.get_upd, hm, h]

theorem stopExpiry_kept (m : AmpModule) (s : State) : Kept s (stopExpiry m s) :=
  .ite (fun h => (toOff_kept m (fun r => { r with state := .off }) s (by simp [HasPower, h]) rfl rfl).trans
    (startModule_kept m _)) (fun _ => .refl s)

theorem faultLineTrip_kept (m : AmpModule) (s : State) : Kept s (faultLineTrip m s) :=
  .ite (fun _ => trip_kept m _ _ s) (fun _ => .refl s)

/-- A slew step stays between a gain of the range and a target of the range (R94, R95). -/
theorem slewStep_range {g t : Int} (hg : gainFloor ≤ g ∧ g ≤ gainCeiling) (ht : gainFloor ≤ t ∧ t ≤ gainCeiling) :
    gainFloor ≤ slewStep g t ∧ slewStep g t ≤ gainCeiling := by
  unfold slewStep
  split
  · omega
  · split <;> omega

theorem target_range (s : State) (ch : Chan) : gainFloor ≤ target s ch ∧ target s ch ≤ gainCeiling := by
  unfold target clampInt
  split
  · decide
  · have : gainFloor ≤ gainCeiling := by decide
    split
    · exact ⟨le_rfl, this⟩
    · split <;> omega

/-- A module that is not ON forces its channels' target to -320 (R92), so that they stay there. -/
theorem target_silent (s : State) (ch : Chan) (h : (s.mods.get (chanModule ch)).state ≠ .on) :
    target s ch = gainFloor := by
  have : forced s ch = true := by simp [forced, h]
  simp [target, this]

theorem slewAll_kept (s : State) : Kept s (slewAll s) := by
  have hchan : ∀ ch, ((slewAll s).gain.chans.get ch).applied =
      slewStep (s.gain.chans.get ch).applied (target s ch) := by
    intro ch
    simp [slewAll]
  refine ⟨fun k => ⟨k.memory, k.queue, k.marks, fun ch hn => ?_, k.powered, k.orders, fun ch => ?_⟩, .congr rfl⟩
  · rw [hchan, k.silent ch hn, target_silent s ch hn]
    simp [slewStep]
  · rw [hchan]
    exact slewStep_range (k.gains ch) (target_range s ch)

/-- A change of the channels that leaves the applied gains. -/
theorem mapChans_kept (f : Chan → ChanGain → ChanGain) (s : State)
    (h : ∀ ch, (f ch (s.gain.chans.get ch)).applied = (s.gain.chans.get ch).applied) : Kept s (mapChans f s) :=
  .same (by simp [ampFields, h]) rfl

theorem volumeArrival_kept (z : Zone) (v : Int) (s : State) : Kept s (volumeArrival z v s) :=
  .ite (fun _ => .of_same (requestWriteBack_kept _ rfl _) rfl rfl) (fun _ => updZoneGain_kept z _ s)

theorem maxVolumeArrival_kept (z : Zone) (m : Int) (s : State) : Kept s (maxVolumeArrival z m s) :=
  .ite (fun _ => .of_same (requestWriteBack_kept _ rfl _) rfl rfl) (fun _ => updZoneGain_kept z _ s)

theorem detentVolume_kept (z : Zone) (v : Int) (s : State) : Kept s (detentVolume z v s) :=
  .ite (fun _ => .refl s) (fun _ => .of_same (requestWriteBack_kept _ rfl _) rfl rfl)

theorem detent_kept (z : Zone) (clockwise : Bool) (s : State) : Kept s (detent z clockwise s) :=
  .ite (fun _ => .ite (fun _ => .of_same (requestWriteBack_kept _ rfl _) rfl rfl) (fun _ => detentVolume_kept _ _ s))
    (fun _ => detentVolume_kept _ _ s)

theorem setupLockArrival_kept (v : Word) (s : State) : Kept s (setupLockArrival v s) :=
  .ite (fun _ => .same rfl rfl) (fun _ => .of_same (requestWriteBack_kept _ rfl _) rfl rfl)

theorem relock_kept (s : State) : Kept s (relock s) :=
  .ite (fun _ => .of_same (requestWriteBack_kept _ rfl _) rfl rfl) (fun _ => .refl s)

end Sys2Proof.Machine

end

section

set_option autoImplicit false

namespace Sys2Proof.Machine

/-! ### The delay pool (R111, R117, R118) -/

/-- A DELAY apply notice keeps the lines at their lengths and both totals in the pool (R118). -/
theorem delayApply_poolLaw (z : Zone) {s : State} (k : PoolLaw s.pool) : PoolLaw (delayApply z s).pool := by
  have hspec := delayApply_spec z s
  have hother : (delayApply z s).pool.active.total (otherZone z) = s.pool.active.total (otherZone z) :=
    total_congr _ _ _ fun ch hch => (hspec.other ch (chan_other hch)).1
  have htotal : s.pool.active.total z + s.pool.active.total (otherZone z) ≤ 65536 := by
    have h := k.1
    cases z
    · exact h
    · rw [Nat.add_comm]
      exact h
  have hfit : (delayApply z s).pool.active.total z + (delayApply z s).pool.active.total (otherZone z) ≤ 65536 ∧
      ∀ ch, chanZone ch = z →
        ((delayApply z s).pool.lines.get ch).length = (delayApply z s).pool.active.len.get ch := by
    rw [hother]
    by_cases hroom : s.pool.staged.total z + s.pool.active.total (otherZone z) ≤ 65536
    · obtain ⟨-, hlen⟩ := hspec.room hroom
      refine ⟨?_, fun ch hch => ?_⟩
      · rwa [total_congr _ s.pool.staged z fun ch hch => (hlen ch hch).1]
      · rw [(hlen ch hch).1, (hlen ch hch).2, List.length_replicate]
    · obtain ⟨-, hlen⟩ := hspec.noRoom (by omega)
      refine ⟨?_, fun ch hch => ?_⟩
      · rwa [total_congr _ s.pool.active z fun ch hch => (hlen ch hch).1]
      · rw [(hlen ch hch).1, (hlen ch hch).2, List.length_replicate]
  refine ⟨?_, fun ch => ?_⟩
  · cases z
    · exact hfit.1
    · rw [Nat.add_comm]
      exact hfit.1
  · by_cases hch : chanZone ch = z
    · exact hfit.2 ch hch
    · obtain ⟨hlen, hline⟩ := hspec.other ch hch
      rw [hlen, hline]
      exact k.2 ch

/-- A step keeps the amplifier law. -/
def AmpKept (s t : State) : Prop := AmplifierLaw s → AmplifierLaw t

theorem AmpKept.trans {s t u : State} (h : AmpKept s t) (k : AmpKept t u) : AmpKept s u := k ∘ h

theorem AmpKept.same {s t : State} (h : ampFields t = ampFields s) : AmpKept s t := .congr h

theorem AmpKept.of_same {s t u : State} (k : AmpKept t u) (h : ampFields t = ampFields s) : AmpKept s u :=
  .trans (.same h) k

theorem AmpKept.ite {p : Prop} [Decidable p] {s a b : State} (ha : AmpKept s a) (hb : AmpKept s b) :
    AmpKept s (if p then a else b) := by
  split
  · exact ha
  · exact hb

theorem delayApply_amp (z : Zone) (s : State) : AmpKept s (delayApply z s) :=
  .ite (.of_same (markAll_kept _ _).amp rfl) (.of_same (markDirty_kept _ _).amp rfl)

theorem delayApply_kept (z : Zone) (s : State) : Kept s (delayApply z s) := by
  refine ⟨delayApply_amp z s, fun k => ⟨?_, ?_, delayApply_poolLaw z k.pool, ?_⟩⟩
  · simpa only [ZonesLaw, delayApply_zones] using k.zones
  · simpa only [WaitLimitsInRange, delayApply_zones] using k.limits
  · simpa only [AfListLaw, delayApply_fields] using k.af

/-! ### Moves of one zone's record (R50, R51, R59) -/

/-- A change of one zone's record that keeps its law and its wait limit. -/
theorem updZone_kept (z : Zone) (f : ZoneRec → ZoneRec) (s : State)
    (hlaw : ZoneLaw (s.zones.get z) → ZoneLaw (f (s.zones.get z)))
    (hlimit : (f (s.zones.get z)).waitLimit = (s.zones.get z).waitLimit) : Kept s (updZone z f s) := by
  refine ⟨.congr rfl, fun k => ⟨fun x => ?_, fun x => ?_, k.pool, k.af⟩⟩
  · by_cases hx : x = z
    · simpa [hx] using hlaw (k.zones z)
    · simpa [PerZone.get_upd, hx] using k.zones x
  · by_cases hx : x = z
    · simpa [hx, hlimit] using k.limits z
    · simpa [PerZone.get_upd, hx] using k.limits x

theorem moveZone_kept (z : Zone) (f : ZoneRec → ZoneRec) (s : State)
    (hlaw : ZoneLaw (s.zones.get z) → ZoneLaw (f (s.zones.get z)))
    (hlimit : (f (s.zones.get z)).waitLimit = (s.zones.get z).waitLimit) : Kept s (moveZone z f s) :=
  .after (markAll_kept _ _) (updZone_kept z f s hlaw hlimit)

/-- A change of a zone's state that opens or closes no gate, ends no fade and leaves FADING_OUT alone. -/
theorem zoneLaw_reconfigure {r : ZoneRec} (k : ZoneLaw r) (h : HeldChanges)
    (hs : r.state = .playing ∨ r.state = .fadingIn) : ZoneLaw { r with state := .reconfiguring, held := h } := by
  obtain ⟨gate, -, -, range, silent, pending, flag⟩ := k
  have hp : r.pending = r.connected := pending (by rcases hs with h | h <;> simp [h])
  constructor <;> rcases hs with hs | hs <;> simp_all

/-- Held changes are nothing that the zones' law speaks of. -/
theorem zoneLaw_hold {r : ZoneRec} (k : ZoneLaw r) (h : HeldChanges) : ZoneLaw { r with held := h } :=
  ⟨k.gate, k.closed, k.playing, k.range, k.silent, k.pending, k.flag⟩

theorem holdChange_kept (c : ChangeKind) (z : Zone) (s : State) : Kept s (holdChange c z s) := by
  refine moveZone_kept z _ s (fun k => ?_) rfl
  split
  · rename_i h
    simp only [Bool.and_eq_true, Bool.or_eq_true, beq_iff_eq] at h
    exact zoneLaw_reconfigure k _ h.2
  · exact zoneLaw_hold k _

theorem examineZone_kept (z : Zone) (s : State) : Kept s (examineZone z s).1 := by
  unfold examineZone
  split
  · exact .refl s
  · split
    · exact .same rfl rfl
    · split
      · dsimp only
        split
        · exact .of_same (delayApply_kept _ _) rfl rfl
        · exact .of_same (holdChange_kept _ _ _) rfl rfl
      · exact .same rfl rfl

theorem examine_kept (n : Nat) (s : State) : Kept s (examine n s) := by
  induction n generalizing s with
  | zero => exact .refl s
  | succ n ih =>
    have h1 := examineZone_kept .z1 s
    have h2 := h1.trans (examineZone_kept .z2 (examineZone .z1 s).1)
    exact .ite (fun _ => h1.trans (ih _)) fun _ => .ite (fun _ => h2.trans (ih _)) fun _ => h2

theorem examineZones_kept (s : State) : Kept s (examineZones s) := examine_kept 3 s

theorem recompute_kept (s : State) : Kept s (recompute s) := .of_same (examineZones_kept _) rfl rfl

theorem recomputeIfRunning_kept (s : State) : Kept s (recomputeIfRunning s) :=
  .ite (fun _ => recompute_kept s) (fun _ => .refl s)

theorem distArrival_kept (ch : MainChan) (v : Nat) (s : State) : Kept s (distArrival ch v s) :=
  .of_same (recomputeIfRunning_kept _) rfl rfl

theorem lipsyncArrival_kept (z : Zone) (v : Nat) (s : State) : Kept s (lipsyncArrival z v s) :=
  .of_same (recomputeIfRunning_kept _) rfl rfl

theorem presenceArrival_kept (s : State) : Kept s (presenceArrival s) :=
  .ite (fun _ => .of_same (recompute_kept _) rfl rfl) (fun _ => .refl s)

theorem examineAfter_kept (h : HeldChanges) (s : State) : Kept s (examineAfter h s) :=
  .ite (fun _ => examineZones_kept s) (fun _ => .refl s)

/-! ### The steps of the zone switch (R53 to R58, R61) -/

/-- The path law apart from one zone, whose step is under way. -/
structure PathBut (z : Zone) (s : State) : Prop where
  other : ZoneLaw (s.zones.get (otherZone z))
  limits : WaitLimitsInRange s
  pool : PoolLaw s.pool
  af : AfListLaw s

theorem PathLaw.but {s : State} (k : PathLaw s) (z : Zone) : PathBut z s := ⟨k.zones _, k.limits, k.pool, k.af⟩

theorem PathBut.full {z : Zone} {s : State} (k : PathBut z s) (h : ZoneLaw (s.zones.get z)) : PathLaw s := by
  refine ⟨fun x => ?_, k.limits, k.pool, k.af⟩
  have hx : x = z ∨ x = otherZone z := by cases x <;> cases z <;> decide
  rcases hx with rfl | rfl
  · exact h
  · exact k.other

/-- One move of the zone whose step is under way. -/
theorem PathBut.step {z : Zone} {s t : State} (k : PathBut z s) (f : ZoneRec → ZoneRec)
    (hz : t.zones = s.zones.upd z f) (hl : (f (s.zones.get z)).waitLimit = (s.zones.get z).waitLimit)
    (hp : PoolLaw t.pool) (hd : t.sd.af = s.sd.af) (hc : t.tun.code = s.tun.code) : PathBut z t := by
  refine ⟨?_, fun x => ?_, hp, ?_⟩
  · rw [hz, PerZone.get_upd_ne _ _ _ _ (otherZone_ne z)]
    exact k.other
  · rw [hz]
    by_cases hx : x = z
    · rw [hx, PerZone.get_upd_self, hl]
      exact k.limits z
    · rw [PerZone.get_upd_ne _ _ _ _ hx]
      exact k.limits x
  · rw [AfListLaw, hd, hc]
    exact k.af

theorem PathBut.closeGate {z : Zone} {s : State} (k : PathBut z s) : PathBut z (closeGate z s) :=
  k.step _ (closeGate_zones z s) rfl (by simpa using k.pool) (by simp) (by simp)

theorem PathBut.applyHeld {z : Zone} {s : State} (k : PathBut z s) : PathBut z (applyHeld z s) := by
  refine k.step _ (applyHeld_zones z s) rfl ?_ (by simp) (by simp)
  have hp := k.pool
  unfold Machine.applyHeld
  dsimp only
  split
  · refine delayApply_poolLaw z ?_
    split <;> split <;> simpa using hp
  · split <;> split <;> simpa using hp

theorem closeGate_amp (z : Zone) (s : State) : AmpKept s (closeGate z s) :=
  .of_same (((floorZone_kept z _).trans (windDownReports_kept _)).amp) rfl

theorem decodeApply_kept (s : State) : Kept s (decodeApply s) := .of_same (markDirty_kept _ _) rfl rfl

theorem applyHeld_amp (z : Zone) (s : State) : AmpKept s (applyHeld z s) := by
  let s1 := updZone z (fun r => { r with held := .empty }) s
  have h2 : AmpKept s (if (s.zones.get z).held.decode then decodeApply s1 else s1) :=
    .ite (.of_same (decodeApply_kept _).amp rfl) (.same rfl)
  have h3 : AmpKept s (if (s.zones.get z).held.speakers
      then speakersApply (if (s.zones.get z).held.decode then decodeApply s1 else s1)
      else if (s.zones.get z).held.decode then decodeApply s1 else s1) :=
    .ite (h2.trans (.same rfl)) h2
  exact .ite (h3.trans (delayApply_amp z _)) h3

theorem moveZone_amp (z : Zone) (f : ZoneRec → ZoneRec) (s : State) : AmpKept s (moveZone z f s) :=
  .of_same (markAll_kept _ _).amp rfl

theorem enterWaiting_amp (z : Zone) (s : State) : AmpKept s (enterWaiting z s) := .of_same (markDirty_kept _ _).amp rfl

theorem connect_amp (z : Zone) (src : Option Source) (s : State) : AmpKept s (connect z src s) := by
  unfold connect
  dsimp only
  split
  · exact .of_same (moveZone_amp _ _ _) rfl
  · exact .ite (.of_same (moveZone_amp _ _ _) rfl) (.of_same (enterWaiting_amp _ _) rfl)

/-- A zone whose gate is closed keeps its law once it is connected (R53). -/
theorem zoneLaw_connectedTo (view : PerSource Bool) (src : Option Source) (r : ZoneRec) (h : r.gateOpen = false) :
    ZoneLaw (connectedTo view src r) := by
  unfold connectedTo
  dsimp only
  have hr : gainFloor ≤ gainFloor ∧ gainFloor ≤ 0 := by decide
  split
  · constructor <;> simp_all
  · split <;> constructor <;> simp_all [fadedIn, waitsAnew]

/-- A zone that waits for its source. -/
theorem zoneLaw_waitsAnew {r : ZoneRec} (h : r.gateOpen = false) (hc : r.connected ≠ none)
    (hp : r.pending = r.connected) : ZoneLaw (waitsAnew r) := by
  have hr : gainFloor ≤ gainFloor ∧ gainFloor ≤ 0 := by decide
  constructor <;> simp_all [waitsAnew]

/-- A zone that fades in from its source. -/
theorem zoneLaw_fadedIn {r : ZoneRec} (hc : r.connected ≠ none) (hp : r.pending = r.connected) :
    ZoneLaw (fadedIn r) := by
  have hr : gainFloor ≤ gainFloor ∧ gainFloor ≤ 0 := by decide
  constructor <;> simp_all [fadedIn]

theorem zones_of_moved {z : Zone} {f : ZoneRec → ZoneRec} {s t : State} (h : ZoneMoved z f s t) :
    t.zones = s.zones.upd z f := by
  rw [h]
  rfl

theorem connectedTo_waitLimit (view : PerSource Bool) (src : Option Source) (r : ZoneRec) :
    (connectedTo view src r).waitLimit = r.waitLimit := (connectedTo_record view src r).2.2.limit

theorem PathBut.connect {z : Zone} {s : State} (k : PathBut z s) (src : Option Source)
    (h : (s.zones.get z).gateOpen = false) : PathLaw (connect z src s) := by
  have hm := connect_spec z src s
  have hb : PathBut z (Machine.connect z src s) :=
    k.step _ (zones_of_moved hm) (connectedTo_waitLimit _ _ _) (by simpa using k.pool) (by simp) (by simp)
  refine hb.full ?_
  rw [(zones_of_moved hm), PerZone.get_upd_self]
  exact zoneLaw_connectedTo _ _ _ h

theorem PathBut.enterWaiting {z : Zone} {s : State} (k : PathBut z s) (h : (s.zones.get z).gateOpen = false)
    (hc : (s.zones.get z).connected ≠ none) (hp : (s.zones.get z).pending = (s.zones.get z).connected) :
    PathLaw (enterWaiting z s) := by
  refine (k.step _ (zones_of_moved (enterWaiting_spec z s)) rfl (by simpa using k.pool) (by simp) (by simp)).full ?_
  rw [(zones_of_moved (enterWaiting_spec z s)), PerZone.get_upd_self]
  exact zoneLaw_waitsAnew h hc hp

theorem PathBut.enterFadeIn {z : Zone} {s : State} (k : PathBut z s)
    (hc : (s.zones.get z).connected ≠ none) (hp : (s.zones.get z).pending = (s.zones.get z).connected) :
    PathLaw (enterFadeIn z s) := by
  refine (k.step _ (zones_of_moved (enterFadeIn_spec z s)) rfl (by simpa using k.pool) (by simp) (by simp)).full ?_
  rw [(zones_of_moved (enterFadeIn_spec z s)), PerZone.get_upd_self]
  exact zoneLaw_fadedIn hc hp

/-- The record of a zone whose gate has closed and whose held changes are applied. -/
theorem applyHeld_closeGate_get (z : Zone) (s : State) :
    (applyHeld z (closeGate z s)).zones.get z = { s.zones.get z with gateOpen := false, held := .empty } := by
  simp

theorem fadeOutEnd_kept (z : Zone) (s : State) : Kept s (fadeOutEnd z s) := by
  refine .after (examineAfter_kept _ _) ⟨?_, fun k => ?_⟩
  · exact ((closeGate_amp z s).trans (applyHeld_amp z _)).trans (connect_amp z _ _)
  · exact (k.but z).closeGate.applyHeld.connect _ (by rw [applyHeld_closeGate_get])

theorem reconfigureEnd_kept (z : Zone) (s : State) (h : (s.zones.get z).state = .reconfiguring) :
    Kept s (reconfigureEnd z s) := by
  refine .after (examineAfter_kept _ _) ⟨?_, fun k => ?_⟩
  · exact ((closeGate_amp z s).trans (applyHeld_amp z _)).trans (moveZone_amp z _ _)
  · have kz := k.zones z
    refine (k.but z).closeGate.applyHeld.enterFadeIn ?_ ?_ <;> rw [applyHeld_closeGate_get]
    · exact fun hn => by simp [kz.silent.2 hn] at h
    · exact kz.pending (by simp [h])

theorem PathBut.dropFade {z : Zone} {s : State} (k : PathBut z s) : PathBut z (dropFade z s) :=
  k.step (fun r => { r with fade := gainFloor }) rfl rfl k.pool rfl rfl

theorem zoneLoss_kept (z : Zone) (s : State) : Kept s (zoneLoss z s) := by
  have played : (s.zones.get z).state = .fadingIn ∨ (s.zones.get z).state = .playing →
      Kept s (enterWaiting z (closeGate z s)) := by
    refine fun h => ⟨(closeGate_amp z s).trans (enterWaiting_amp z _), fun k => ?_⟩
    have kz := k.zones z
    refine (k.but z).closeGate.enterWaiting ?_ ?_ ?_ <;> simp only [closeGate_zones, PerZone.get_upd_self]
    · exact fun hn => by simp [kz.silent.2 hn] at h
    · exact kz.pending (by rcases h with h | h <;> simp [h])
  unfold zoneLoss
  split
  · exact played (.inl ‹_›)
  · exact played (.inr ‹_›)
  · rw [fadeOutEnd_dropFade]
    exact fadeOutEnd_kept z s
  · rename_i h
    rw [closeGate_dropFade, applyHeld_dropFade, (enter_dropFade z _).2]
    refine .after (examineAfter_kept _ _)
      ⟨((closeGate_amp z s).trans (applyHeld_amp z _)).trans (enterWaiting_amp z _), fun k => ?_⟩
    have kz := k.zones z
    refine (k.but z).closeGate.applyHeld.enterWaiting ?_ ?_ ?_ <;> rw [applyHeld_closeGate_get]
    · exact fun hn => by simp [kz.silent.2 hn] at h
    · exact kz.pending (by simp [h])
  · exact .refl s
  · exact .refl s

theorem zoneReturn_kept (z : Zone) (s : State) : Kept s (zoneReturn z s) := by
  refine .ite (fun h => ⟨moveZone_amp _ _ _, fun k => ?_⟩) (fun _ => .refl s)
  have kz := k.zones z
  exact (k.but z).enterFadeIn (fun hn => by simp [kz.silent.2 hn] at h) (kz.pending (by simp [h]))

theorem zoneCarrying_kept (z : Zone) (src : Source) (on : Bool) (s : State) : Kept s (zoneCarrying z src on s) :=
  .ite (fun _ => .ite (fun _ => zoneReturn_kept z s) (fun _ => zoneLoss_kept z s)) (fun _ => .refl s)

theorem carryingEvent_kept (src : Source) (on : Bool) (s : State) : Kept s (carryingEvent src on s) := by
  have h : Kept s (markDirty (.source src) (raise .source { s with view := s.view.set src on })) :=
    .after (markDirty_kept _ _) (.of_same (raise_kept _ _) rfl rfl)
  exact .ite (fun _ => (h.trans (zoneCarrying_kept .z1 src on _)).trans (zoneCarrying_kept .z2 src on _)) (fun _ => h)

theorem startFadeOut_kept (z : Zone) (src : Option Source) (s : State)
    (h : (s.zones.get z).state ≠ .silent ∧ (s.zones.get z).state ≠ .waiting) : Kept s (startFadeOut z src s) := by
  refine moveZone_kept z _ s (fun k => ?_) rfl
  obtain ⟨gate, -, -, range, silent, -, flag⟩ := k
  constructor <;> simp_all

theorem sourceAct_kept (z : Zone) (src : Option Source) (s : State) : Kept s (sourceAct z src s) := by
  have closed : (s.zones.get z).state = .waiting ∨ (s.zones.get z).state = .silent → Kept s (connect z src s) := by
    refine fun h => ⟨connect_amp z src s, fun k => (k.but z).connect src ?_⟩
    have := (k.zones z).gate
    rcases h with h | h <;> simpa [h] using this
  unfold sourceAct
  split
  · exact .ite (fun _ => .refl s) (fun _ => startFadeOut_kept z src s (by simp [*]))
  · exact .ite (fun _ => .refl s) (fun _ => startFadeOut_kept z src s (by simp [*]))
  · exact .ite (fun _ => .refl s) (fun _ => startFadeOut_kept z src s (by simp [*]))
  · rename_i h
    refine updZone_kept z _ s (fun k => ?_) rfl
    obtain ⟨gate, closed, playing, range, silent, pending, flag⟩ := k
    constructor <;> simp_all
  · exact closed (.inl ‹_›)
  · exact closed (.inr ‹_›)

/-- A zone record changes in what its law does not speak of. -/
theorem zoneLaw_of_same {r r' : ZoneRec} (k : ZoneLaw r)
    (h : r' = { r with held := r'.held, fadeRate := r'.fadeRate, waitLimit := r'.waitLimit, waited := r'.waited,
                       kept := r'.kept }) : ZoneLaw r' := by
  rw [h]
  exact ⟨k.gate, k.closed, k.playing, k.range, k.silent, k.pending, k.flag⟩

theorem sourceArrival_kept (z : Zone) (src : Option Source) (s : State) : Kept s (sourceArrival z src s) :=
  .ite (fun _ => sourceAct_kept z src s) (fun _ => updZone_kept z _ s (fun k => zoneLaw_of_same k rfl) rfl)

theorem fadeRateArrival_kept (z : Zone) (v : Nat) (s : State) : Kept s (fadeRateArrival z v s) :=
  updZone_kept z _ s (fun k => zoneLaw_of_same k rfl) rfl

/-- A fade that falls stays in its range (R54). -/
theorem fadeDown_kept (z : Zone) (s : State)
    (h : (s.zones.get z).state = .fadingOut ∨ (s.zones.get z).state = .reconfiguring) :
    Kept s (updZone z (fun r => { r with
      fade := max gainFloor ((s.zones.get z).fade - (s.zones.get z).fadeRate) }) s) := by
  refine updZone_kept z _ s (fun k => ?_) rfl
  obtain ⟨gate, closed, playing, range, silent, pending, flag⟩ := k
  refine ⟨gate, fun hs => ?_, fun hs => ?_, ⟨le_max_left _ _, ?_⟩, silent, pending, flag⟩
  · rcases h with h | h <;> simp [h] at hs
  · rcases h with h | h <;> simp [h] at hs
  · dsimp only
    have : gainFloor ≤ 0 := by decide
    omega

theorem fadeStep_kept (z : Zone) (s : State) : Kept s (fadeStep z s) := by
  unfold fadeStep
  dsimp only
  split
  · rename_i h
    refine moveZone_kept z _ s (fun k => ?_) rfl
    obtain ⟨gate, closed, playing, range, silent, pending, flag⟩ := k
    have hup : gainFloor ≤ min 0 ((s.zones.get z).fade + (s.zones.get z).fadeRate)
        ∧ min 0 ((s.zones.get z).fade + (s.zones.get z).fadeRate) ≤ 0 := by
      have : gainFloor ≤ 0 := by decide
      omega
    split <;> constructor <;> simp_all
  · rename_i h
    exact .ite (fun _ => (fadeDown_kept z s (.inl h)).trans (fadeOutEnd_kept z _)) fun _ => fadeDown_kept z s (.inl h)
  · rename_i h
    exact .ite (fun _ => (fadeDown_kept z s (.inr h)).trans (reconfigureEnd_kept z _ (by simpa using h)))
      fun _ => fadeDown_kept z s (.inr h)
  all_goals exact .refl s

theorem checkLimit_kept (z : Zone) (s : State) : Kept s (checkLimit z s) := by
  refine .ite (fun h => ?_) (fun _ => .refl s)
  simp only [Bool.and_eq_true, beq_iff_eq] at h
  refine .after (markDirty_kept _ _) (.after (raise_kept _ _) (updZone_kept z _ s (fun k => ?_) rfl))
  exact ⟨k.gate, k.closed, k.playing, k.range, k.silent, k.pending, fun _ => h.1.1⟩

theorem waitTick_kept (z : Zone) (s : State) : Kept s (waitTick z s) :=
  .ite (fun _ => .after (checkLimit_kept z _) (updZone_kept z _ s (fun k => zoneLaw_of_same k rfl) rfl)) (fun _ => .refl s)

/-- A WAIT_LIMIT arrival of the slot's range (R59, R190). -/
theorem waitLimitArrival_kept (z : Zone) (v : Nat) (s : State) (hv : 500 ≤ v ∧ v ≤ 10000) :
    Kept s (waitLimitArrival z v s) := by
  have hset : Kept s (updZone z (fun r => { r with waitLimit := v }) s) := by
    refine ⟨.congr rfl, fun k => ⟨fun x => ?_, fun x => ?_, k.pool, k.af⟩⟩
    · by_cases hx : x = z
      · rw [hx]
        simpa using zoneLaw_of_same (k.zones z) (r' := { s.zones.get z with waitLimit := v }) rfl
      · simpa [PerZone.get_upd, hx] using k.zones x
    · by_cases hx : x = z
      · simpa [hx] using hv
      · simpa [PerZone.get_upd, hx] using k.limits x
  exact .ite (fun _ => hset.trans (checkLimit_kept z _)) (fun _ => hset)

theorem requestChange_kept (c : ChangeKind) (now : State → State) (s : State) (h : Kept s (now s)) :
    Kept s (requestChange c now s) :=
  .ite (fun _ => h) (fun _ => holdChange_kept c .z1 s)

theorem decodeModeArrival_kept (m : DecodeMode) (s : State) : Kept s (decodeModeArrival m s) :=
  .ite (fun _ => .same rfl rfl) fun _ => .of_same (requestChange_kept _ _ _ (decodeApply_kept _)) rfl rfl

theorem speakerArrival_kept (p : SpeakerSlot) (v : Word) (s : State) : Kept s (speakerArrival p v s) := by
  let s1 := { s with bass := { s.bass with staged := s.bass.staged.take p v } }
  have h1 : Kept s s1 := .same rfl rfl
  have h2 : Kept s (if (s.bass.staged.put p v).needsFrontFix p then requestWriteBack (.speaker .frontSize) s1
      else s1) := .ite (fun _ => h1.trans (requestWriteBack_kept _ rfl _)) fun _ => h1
  unfold speakerArrival
  dsimp only
  have h3 := Kept.ite (p := (s.bass.staged.put p v).needsBackFix p = true)
    (fun _ => h2.trans (requestWriteBack_kept (.speaker .back) rfl _)) fun _ => h2
  refine .after ?_ h3
  refine .ite (fun _ => .refl _) fun _ => ?_
  have h4 := fun x => requestChange_kept .speakers speakersApply x (.same rfl rfl)
  exact .ite (fun _ => h4 _) fun _ => (h4 _).trans (presenceArrival_kept _)

/-! ### After master clock failure (R65) -/

theorem resumeCarrying_kept (z : Zone) (s : State) : Kept s (resumeCarrying z s) := by
  unfold resumeCarrying
  dsimp only
  split
  · exact .ite (fun _ => .refl s) fun _ => zoneCarrying_kept z _ _ s
  · exact .refl s

theorem resumeSource_kept (z : Zone) (s : State) : Kept s (resumeSource z s) := by
  unfold resumeSource
  split
  · exact .after (sourceAct_kept z _ _) (updZone_kept z _ s (fun k => zoneLaw_of_same k rfl) rfl)
  · exact .refl s

theorem applyHeld_kept (z : Zone) (s : State) : Kept s (applyHeld z s) := by
  refine ⟨applyHeld_amp z s, fun k => (k.but z).applyHeld.full ?_⟩
  simpa using zoneLaw_hold (k.zones z) .empty

theorem resumeHeld_kept (z : Zone) (s : State) : Kept s (resumeHeld z s) := by
  unfold resumeHeld
  refine .ite (fun _ => .refl s) fun _ => ?_
  split
  · exact moveZone_kept z _ s (fun k => zoneLaw_reconfigure k _ (.inl ‹_›)) rfl
  · exact moveZone_kept z _ s (fun k => zoneLaw_reconfigure k _ (.inr ‹_›)) rfl
  · exact (applyHeld_kept z s).trans (examineAfter_kept _ _)
  · exact (applyHeld_kept z s).trans (examineAfter_kept _ _)
  · exact .refl s
  · exact .refl s

theorem resumeZone_kept (z : Zone) (s : State) : Kept s (resumeZone z s) :=
  (((resumeCarrying_kept z s).trans (resumeSource_kept z _)).trans (resumeHeld_kept z _)).trans (checkLimit_kept z _)

end Sys2Proof.Machine

end

section

set_option autoImplicit false

namespace Sys2Proof.Machine

/-! ### Serial audio lines and streams (R26 to R43) -/

theorem lineCarryingFrom_kept (l : SaLine) (was : Bool) (s : State) : Kept s (lineCarryingFrom l was s) :=
  .ite (fun _ => .refl s) fun _ => carryingEvent_kept _ _ s

theorem lineStepWith_kept (l : SaLine) (f : SaState → SaState) (s : State) : Kept s (lineStepWith l f s) :=
  (updLine_kept l f s).trans (lineCarryingFrom_kept l _ _)

theorem formatArrival_kept (l : SaLine) (f : Format) (s : State) : Kept s (formatArrival l f s) :=
  .ite (fun _ => .refl s) fun _ => .ite (fun _ => lineStepWith_kept l _ s) fun _ => updLine_kept l _ s

theorem npcmPinChange_kept (l : SaLine) (level : Bool) (s : State) : Kept s (npcmPinChange l level s) :=
  .ite (fun _ => .refl s) fun _ => updLine_kept l _ s

theorem npcmStable_kept (l : SaLine) (s : State) : Kept s (npcmStable l s) :=
  .ite (fun _ => .ite (fun _ => updLine_kept l _ s) fun _ => (lineStepWith_kept l _ s).trans (markDirty_kept _ _))
    fun _ => .refl s

theorem resumeLine_kept (l : SaLine) (s : State) : Kept s (resumeLine l s) := lineStepWith_kept l _ s

theorem resumeLines_kept (s : State) : Kept s (resumeLines s) :=
  (((resumeLine_kept .sa1 s).trans (resumeLine_kept .sa2 _)).trans (resumeLine_kept .sa3 _)).trans
    (resumeLine_kept .sa4 _)

theorem discardFetch_kept (m : StreamId) (s : State) : Kept s (discardFetch m s) := by
  unfold discardFetch
  split
  · exact .ite (fun _ => .same rfl rfl) fun _ => .refl s
  · exact .refl s

theorem enterStreamState_kept (m : StreamId) (next : StreamState) (s : State) : Kept s (enterStreamState m next s) := by
  have h : Kept s (markDirty (.stream m) (updReader m (fun r => { r with state := next }) s)) :=
    .after (markDirty_kept _ _) (updReader_kept m _ s)
  exact .ite (fun _ => h) fun _ => h.trans (carryingEvent_kept _ _ _)

theorem streamStartTaken_kept (m : StreamId) (s : State) : Kept s (streamStartTaken m s) :=
  .after (enterStreamState_kept m _ _) (updReader_kept m _ s)

theorem streamStopTaken_kept (m : StreamId) (s : State) : Kept s (streamStopTaken m s) :=
  .after (enterStreamState_kept m _ _) (.after (updReader_kept m _ _) (discardFetch_kept m s))

theorem streamStartCommand_kept (m : StreamId) (s : State) : Kept s (streamStartCommand m s) :=
  .ite (fun _ => answerStream_kept m _ s) fun _ =>
    .ite (fun _ => (streamStartTaken_kept m s).trans (answerStream_kept m _ _)) fun _ => answerStream_kept m _ s

theorem streamStopCommand_kept (m : StreamId) (s : State) : Kept s (streamStopCommand m s) :=
  .ite (fun _ => answerStream_kept m _ s) fun _ =>
    .ite (fun _ => (streamStopTaken_kept m s).trans (answerStream_kept m _ _)) fun _ => answerStream_kept m _ s

theorem streamCommand_kept (m : StreamId) (v : Word) (s : State) : Kept s (streamCommand m v s) :=
  .ite (fun _ => streamStartCommand_kept m s) fun _ =>
    .ite (fun _ => streamStopCommand_kept m s) fun _ => answerStream_kept m _ s

theorem starve_kept (m : StreamId) (s : State) : Kept s (starve m s) :=
  .after (enterStreamState_kept m _ _) (.after (raise_kept _ _) (updReader_kept m _ s))

theorem frameInstant_kept (m : StreamId) (s : State) : Kept s (frameInstant m s) := by
  refine .ite (fun _ => ?_) fun _ => .refl s
  split
  · exact starve_kept m s
  · exact updReader_kept m _ s

theorem levelTests_kept (m : StreamId) (s : State) : Kept s (levelTests m s) := by
  have run : Kept s (enterStreamState m .running (updReader m (fun r => { r with conv := .empty }) s)) :=
    .after (enterStreamState_kept m _ _) (updReader_kept m _ s)
  unfold levelTests
  dsimp only
  split
  · exact .ite (fun _ => run) fun _ => .refl s
  · exact .ite (fun _ => run) fun _ => .refl s
  · exact .refl s
  · exact .refl s

theorem fetchDone_kept (m : StreamId) (n : Nat) (words : List Word) (s : State) : Kept s (fetchDone m n words s) :=
  .after (levelTests_kept m _) (.after (markDirty_kept _ _) (updReader_kept m _ s))

/-! ### The measurement unit (R140 to R151) -/

theorem discardConv_result (m : Meas) (p : Nat → Bool) : (m.discardConv p).result = m.result := by
  unfold Meas.discardConv
  repeat' split
  all_goals rfl

theorem seqLenArrival_kept (v : Nat) (s : State) : Kept s (seqLenArrival v s) :=
  .ite (fun _ => .after (markDirty_kept _ _) (updMeas_kept _ s (discardConv_result _ _)))
    fun _ => updMeas_kept _ s (discardConv_result _ _)

theorem entryArrival_kept (n : Fin 16) (w : Fin 4) (v : Word) (s : State) : Kept s (entryArrival n w v s) :=
  .after (markDirty_kept _ _) (updMeas_kept _ s (discardConv_result _ _))

theorem measureCommand_kept (v : Word) (s : State) : Kept s (measureCommand v s) :=
  .ite (fun _ => answerMeasure_kept _ s) fun _ => .ite (fun _ => answerMeasure_kept _ s) fun _ =>
    .ite (fun _ => answerMeasure_kept _ s) fun _ => .after (answerMeasure_kept _ _) (updMeas_kept _ s rfl)

theorem requestRssi_kept (s : State) : Kept s (requestRssi s) := updMeas_kept _ s rfl

theorem abandonRssi_kept (s : State) : Kept s (abandonRssi s) := updMeas_kept _ s rfl

theorem fireAction_kept (n : Nat) (e : Entry) (s : State) : Kept s (fireAction n e s) := by
  unfold fireAction
  split
  · exact raise_kept _ s
  · exact trip_kept _ _ _ s
  · exact .refl s

theorem derateDown_kept (e : Entry) (s : State) : Kept s (derateDown e s) := by
  unfold derateDown
  split
  · exact .ite (fun _ => derateBy_kept _ _ s) fun _ => .refl s
  · exact .refl s

theorem takeEntryCode_kept (n code : Nat) (s : State) : Kept s (takeEntryCode n code s) := by
  have h1 : Kept s (markDirty .entries (updMeas (fun m => m.updEntry n fun _ => (s.meas.entry n).takeCode code) s)) :=
    .after (markDirty_kept _ _) (updMeas_kept _ s rfl)
  have h2 : Kept s (match ((s.meas.entry n).takeCode code).module with
      | some m =>
        markDirty (.module m)
          (markDirty .entries (updMeas (fun m => m.updEntry n fun _ => (s.meas.entry n).takeCode code) s))
      | none =>
        markDirty .entries (updMeas (fun m => m.updEntry n fun _ => (s.meas.entry n).takeCode code) s)) := by
    split
    · exact h1.trans (markDirty_kept _ _)
    · exact h1
  exact .after (derateDown_kept _ _) (.ite (fun _ => h2.trans (fireAction_kept _ _ _)) fun _ => h2)

theorem derateUp_kept (x : AmpModule) (s : State) : Kept s (derateUp x s) :=
  .ite (fun _ => .refl s) fun _ => derateBy_kept _ _ s

theorem passCompleted_kept (s : State) : Kept s (passCompleted s) :=
  ((derateUp_kept .a s).trans (derateUp_kept .b _)).trans (derateUp_kept .c _)

/-- Marks say nothing of power. -/
theorem markAll_law (rs : List Rec) {s : State} (k : UnpoweredLaw s) : UnpoweredLaw (markAll rs s) := by
  obtain ⟨hmem, hqueue, hmarks, hsilent, horders, hgains⟩ := k
  refine ⟨by simpa [MemoryCanonical], by simpa [WriteBackQueueLaw], ?_, by simpa [ModulesSilent],
    by simpa [OrdersOnlyWhileOn], by simpa [GainsInRange]⟩
  rw [MarksInOrder, markAll_eq]
  revert hmarks
  unfold MarksInOrder
  generalize s.dirty = d
  intro hmarks
  induction rs generalizing d with
  | nil => exact hmarks
  | cons r rs ih => exact ih _ (insertRec_pairwise r hmarks)

theorem selfCheckDone_kept (halfRef : Nat) (s : State) : Kept s (selfCheckDone halfRef s) := by
  refine ⟨fun k => ?_, .congr (by simp [pathFields])⟩
  have unpowered : ∀ f : Meas → Meas, UnpoweredLaw (markAll [.device, .onDemand] (updMeas f s)) := fun f =>
    markAll_law _ ⟨k.memory, k.queue, k.marks, k.silent, k.orders, k.gains⟩
  unfold selfCheckDone
  dsimp only
  split
  · rename_i hpass
    refine (startModules_kept _).amp ((unpowered _).powered fun m hm => ?_)
    have := k.powered m (by simpa using hm)
    simpa [hpass] using this.2
  · exact selfCheckStops_law (raise_law _ (unpowered _))

theorem completeConversion_kept (microvolts : Int) (s : State) : Kept s (completeConversion microvolts s) := by
  have h1 : Kept s (updMeas (fun m => { m with conv := none }) s) := updMeas_kept _ s rfl
  unfold completeConversion
  split
  · exact .refl s
  · dsimp only
    split
    · exact h1
    · exact .ite (fun _ => (h1.trans (takeEntryCode_kept _ _ _)).trans (passCompleted_kept _))
        fun _ => h1.trans (takeEntryCode_kept _ _ _)
    · exact h1
    · exact h1.trans (updMeas_kept _ _ rfl)
    · exact h1.trans (updMeas_kept _ _ rfl)
    · exact h1.trans (selfCheckDone_kept _ _)

theorem startOnDemand_result (m : Meas) : (startOnDemand m).result = m.result := by
  unfold startOnDemand
  split <;> rfl

theorem chooseConversion_result (m : Meas) : (chooseConversion m).result = m.result := by
  unfold chooseConversion
  split
  · exact startOnDemand_result m
  · split
    · rfl
    · exact startOnDemand_result m

theorem converterExpiry_kept (microvolts : Int) (s : State) : Kept s (converterExpiry microvolts s) :=
  (completeConversion_kept microvolts s).trans (updMeas_kept _ _ (chooseConversion_result _))

/-! ### The AF list (R187, R188) -/

/-- The law of the AF list against a target code (R187). -/
structure AfOk (code : Nat) (af : List Nat) : Prop where
  length : af.length ≤ afLimit
  nodup : af.Nodup
  target : code ∉ af

theorem afListLaw_iff (s : State) : AfListLaw s ↔ AfOk s.tun.code s.sd.af :=
  ⟨fun ⟨a, b, c⟩ => ⟨a, b, c⟩, fun ⟨a, b, c⟩ => ⟨a, b, c⟩⟩

theorem afOk_nil (code : Nat) : AfOk code [] := ⟨by simp [afLimit], List.nodup_nil, by simp⟩

/-- An offered code joins the list where there is room, once, and never as the target (R187). -/
theorem AfOk.offer {target : Nat} {af : List Nat} (k : AfOk target af) (code : Nat) :
    AfOk target (afOffer target code af) := by
  unfold afOffer
  split
  · rename_i h
    obtain ⟨hlen, hnew, hne⟩ := h
    refine ⟨by simp; omega, ?_, ?_⟩
    · exact List.Nodup.append k.nodup (List.nodup_singleton code) (by simpa using hnew)
    · simp only [List.mem_append, List.mem_singleton, not_or]
      exact ⟨k.target, fun e => hne e.symm⟩
  · exact k

theorem AfOk.remove {old : Nat} {af : List Nat} (k : AfOk old af) (code : Nat) : AfOk code (afRemove code af) :=
  ⟨(List.length_filter_le _ _).trans k.length, k.nodup.filter _, by simp [afRemove]⟩

/-- At an AF switch the original code takes the tuned one's place (R188). -/
theorem AfOk.switch {old : Nat} {af : List Nat} (k : AfOk old af) (tuned original : Nat) :
    AfOk tuned (afSwitch tuned original af) := by
  unfold afSwitch
  split
  · rename_i htuned
    split
    · exact k.remove tuned
    · rename_i horiginal
      have hne : original ≠ tuned := fun e => horiginal (e ▸ htuned)
      refine ⟨by simpa using k.length, ?_, ?_⟩
      · refine List.Nodup.map_on (fun x hx y hy hxy => ?_) k.nodup
        split at hxy <;> split at hxy
        · rename_i h1 h2
          rw [h1, h2]
        · exact absurd (hxy ▸ hy) horiginal
        · exact absurd (hxy ▸ hx) horiginal
        · exact hxy
      · simp only [List.mem_map, not_exists, not_and]
        intro x _ hx
        split at hx
        · exact hne hx
        · rename_i h
          exact h hx
  · rename_i htuned
    exact AfOk.offer ⟨k.length, k.nodup, htuned⟩ original

theorem afPreload_ok (target : Nat) (codes : List Nat) : AfOk target (afPreload target codes) := by
  unfold afPreload
  generalize hl : ([] : List Nat) = l
  have hok : AfOk target l := hl ▸ afOk_nil target
  clear hl
  induction codes generalizing l with
  | nil => exact hok
  | cons c cs ih =>
    refine ih _ ?_
    dsimp only
    split
    · exact hok.offer c
    · exact hok

/-- A change of the AF list and of the target code that keeps the list's law. -/
theorem af_kept {s t : State} (h : ampFields t = ampFields s) (hz : t.zones = s.zones) (hp : t.pool = s.pool)
    (haf : AfListLaw s → AfListLaw t) : Kept s t :=
  ⟨.congr h, fun k => ⟨by simpa [ZonesLaw, hz] using k.zones, by simpa [WaitLimitsInRange, hz] using k.limits,
    by rw [hp]; exact k.pool, haf k.af⟩⟩

theorem updSd_af_kept (f : Station → Station) (s : State)
    (h : AfOk s.tun.code s.sd.af → AfOk s.tun.code (f s.sd).af) : Kept s (updSd f s) :=
  af_kept rfl rfl rfl fun k => (afListLaw_iff _).2 (h ((afListLaw_iff s).1 k))

theorem clearContent_kept (s : State) : Kept s (updSd Station.clearContent s) := updSd_af_kept _ s fun _ => afOk_nil _

/-! ### The tuner (R160 to R175) -/

theorem longOutcome_kept (o : LongOutcome) (s : State) : Kept s (longOutcome o s) :=
  .after (raise_kept _ _) (updTun_kept _ s rfl)

theorem normWeak_kept (s : State) : Kept s (normWeak s) := .ite (fun _ => .refl s) fun _ => updTun_kept _ s rfl

theorem leaveListening_kept (s : State) : Kept s (leaveListening s) :=
  ((updTun_kept _ s rfl).trans (updFe_kept _ _)).trans (abandonRssi_kept _)

theorem notice_af (d : Station) (was now : Bool) : (d.notice was now).af = d.af := by
  unfold Station.notice
  repeat' split
  all_goals rfl

theorem tunerGoto_kept (next : TunerState) (s : State) : Kept s (tunerGoto next s) := by
  have h1 : Kept s (if s.tun.carries && !((next == .listening) || (next == .verifying)) then leaveListening s else s) :=
    .ite (fun _ => leaveListening_kept s) fun _ => .refl s
  have h2 := (h1.trans (updTun_kept (fun t => { t with state := next }) _ rfl))
  have h3 := fun b : Tuner → Bool => h2.trans (updSd_kept (fun d => d.notice (takingBits s.tun) (b
    (updTun (fun t => { t with state := next }) (if s.tun.carries && !((next == .listening) || (next == .verifying))
      then leaveListening s else s)).tun)) _ (notice_af _ _ _))
  exact .ite (fun _ => h3 takingBits) fun _ => (h3 takingBits).trans (carryingEvent_kept _ _ _)

theorem clearOnAm_kept (s : State) : Kept s (clearOnAm s) := .ite (fun _ => clearContent_kept s) fun _ => .refl s

theorem startReadings_kept (s : State) : Kept s (startReadings s) := updTun_kept _ s rfl

theorem enterListening_kept (s : State) : Kept s (enterListening s) :=
  (((tunerGoto_kept _ s).trans (startReadings_kept _)).trans (updTun_kept _ _ rfl)).trans (clearOnAm_kept _)

theorem abandonTuning_kept (s : State) : Kept s (abandonTuning s) :=
  ((updTun_kept _ s rfl).trans (updFe_kept _ _)).trans (abandonRssi_kept _)

theorem discardRecall_kept (s : State) : Kept s (discardRecall s) := by
  unfold discardRecall
  split
  · dsimp only
    split
    · split
      · exact .same rfl rfl
      · exact .same rfl rfl
    · exact .same rfl rfl
  · exact .refl s

theorem abandonOperation_kept (s : State) : Kept s (abandonOperation s) :=
  (abandonTuning_kept s).trans (discardRecall_kept _)

theorem sendTune_kept (band : Band) (code : Nat) (purpose : TunePurpose) (s : State) :
    Kept s (sendTune band code purpose s) := updFe_kept _ s

theorem plainTune_kept (band : Band) (code : Nat) (reason : TuneReason) (s : State) :
    Kept s (plainTune band code reason s) :=
  (((abandonTuning_kept s).trans (tunerGoto_kept _ _)).trans (updTun_kept _ _ rfl)).trans (sendTune_kept _ _ _ _)

theorem changeCode_kept (code : Nat) (s : State) : Kept s (changeCode code s) := by
  refine .ite (fun _ => .refl s) fun _ => af_kept rfl rfl rfl fun k => ?_
  exact (afListLaw_iff _).2 (((afListLaw_iff s).1 k).remove code)

theorem ownCode_kept (code : Nat) (s : State) : Kept s (ownCode code s) :=
  .ite (fun _ => .refl s) fun _ => (changeCode_kept code s).trans (requestWriteBack_kept _ rfl _)

theorem ownBand_kept (band : Band) (s : State) : Kept s (ownBand band s) :=
  .ite (fun _ => .refl s) fun _ => (updTun_kept _ s rfl).trans (requestWriteBack_kept _ rfl _)

theorem ownTarget_kept (band : Band) (code : Nat) (s : State) : Kept s (ownTarget band code s) :=
  (ownBand_kept band s).trans (ownCode_kept code _)

theorem bandArrival_kept (b : Band) (s : State) : Kept s (bandArrival b s) :=
  (updTun_kept _ s rfl).trans (ownCode_kept _ _)

theorem regionArrival_kept (r : Region) (s : State) : Kept s (regionArrival r s) :=
  (updTun_kept _ s rfl).trans (ownCode_kept _ _)

theorem seekNext_kept (s : State) : Kept s (seekNext s) :=
  .ite (fun _ => (ownTarget_kept _ _ s).trans (plainTune_kept _ _ _ _))
    fun _ => (updTun_kept _ s rfl).trans (updFe_kept _ _)

theorem probeNoSwitch_kept (s : State) : Kept s (probeNoSwitch s) :=
  (updTun_kept _ s rfl).trans (plainTune_kept _ _ _ _)

theorem probeNext_kept (s : State) : Kept s (probeNext s) := by
  unfold probeNext
  dsimp only
  split
  · exact (updTun_kept _ s rfl).trans (sendTune_kept _ _ _ _)
  · split
    · exact .ite (fun _ => (updTun_kept _ s rfl).trans (sendTune_kept _ _ _ _)) fun _ => probeNoSwitch_kept s
    · exact probeNoSwitch_kept s

theorem probeStart_kept (mean : Nat) (s : State) : Kept s (probeStart mean s) :=
  ((tunerGoto_kept _ s).trans (updTun_kept _ _ rfl)).trans (probeNext_kept _)

theorem seekFound_kept (s : State) : Kept s (seekFound s) :=
  (((ownTarget_kept _ _ s).trans (clearContent_kept _)).trans (enterListening_kept _)).trans (longOutcome_kept _ _)

theorem stepRated_kept (mean : Nat) (s : State) : Kept s (stepRated mean s) :=
  .ite (fun _ => .ite (fun _ => seekFound_kept s) fun _ => seekNext_kept s)
    fun _ => (updTun_kept _ s rfl).trans (probeNext_kept _)

theorem stepReading_kept (code : Nat) (s : State) : Kept s (stepReading code s) := by
  unfold stepReading
  split
  · exact (updTun_kept _ s rfl).trans (requestRssi_kept _)
  · exact stepRated_kept _ s
  · exact .refl s

theorem weakReading_kept (code : Nat) (s : State) : Kept s (weakReading code s) :=
  .ite (fun _ => .ite (fun _ => probeStart_kept _ s) fun _ => updTun_kept _ s rfl) fun _ => .refl s

theorem deliverRssi_kept (code : Nat) (s : State) : Kept s (deliverRssi code s) := by
  have h1 : Kept s (updTun (fun t => { t with lastRssi := code }) s) := updTun_kept _ s rfl
  unfold deliverRssi
  dsimp only
  split
  · exact ((h1.trans (updTun_kept _ _ rfl)).trans (weakReading_kept _ _)).trans (updTun_kept _ _ rfl)
  · exact h1.trans (updTun_kept _ _ rfl)
  · exact h1.trans (stepReading_kept _ _)
  · exact h1.trans (stepReading_kept _ _)
  all_goals exact h1

theorem converterStep_kept (microvolts : Int) (s : State) : Kept s (converterStep microvolts s) := by
  unfold converterStep
  dsimp only
  refine .after (normWeak_kept _) ?_
  split
  · exact (converterExpiry_kept microvolts s).trans (deliverRssi_kept _ _)
  · exact converterExpiry_kept microvolts s

theorem readingExpiry_kept (s : State) : Kept s (readingExpiry s) :=
  .ite (fun _ => requestRssi_kept s) fun _ => .refl s

theorem queryExpiry_kept (s : State) : Kept s (queryExpiry s) := .ite (fun _ => updFe_kept _ s) fun _ => .refl s

theorem settleExpiry_kept (s : State) : Kept s (settleExpiry s) := by
  have h1 : Kept s (updTun (fun t => { t with settleTimer := false }) s) := updTun_kept _ s rfl
  refine .ite (fun _ => ?_) fun _ => .refl s
  dsimp only
  split
  · exact (h1.trans (enterListening_kept _)).trans (longOutcome_kept _ _)
  · exact (h1.trans (updTun_kept _ _ rfl)).trans (requestRssi_kept _)
  · exact .ite (fun _ => (((h1.trans (tunerGoto_kept _ _)).trans (startReadings_kept _)).trans
      (updTun_kept _ _ rfl)).trans (clearOnAm_kept _)) fun _ => (h1.trans (updTun_kept _ _ rfl)).trans (requestRssi_kept _)
  all_goals exact h1

theorem verifyFailed_kept (s : State) : Kept s (verifyFailed s) :=
  (updTun_kept _ s rfl).trans (plainTune_kept _ _ _ _)

/-- The AF switch changes the target code and the list together (R188). -/
theorem verifySwitch_kept (s : State) : Kept s (verifySwitch s) := by
  have hband := ownBand_kept s.tun.probe.band s
  have hcode : ∀ a, a = ownBand s.tun.probe.band s → a.tun.code = s.tun.code := by
    rintro a rfl
    unfold ownBand
    split <;> simp
  have hswitch : Kept (ownBand s.tun.probe.band s)
      (updSd (fun d => { d with af := afSwitch s.tun.tunedCode s.tun.probe.original d.af })
        (if s.tun.tunedCode = s.tun.code then ownBand s.tun.probe.band s
         else requestWriteBack .code (updTun (fun t => { t with code := s.tun.tunedCode })
          (ownBand s.tun.probe.band s)))) := by
    split
    · rename_i h
      refine updSd_af_kept _ _ fun k => ?_
      rw [hcode _ rfl, ← h]
      exact k.switch _ _
    · refine .after (t := updSd (fun d => { d with af := afSwitch s.tun.tunedCode s.tun.probe.original d.af })
        (updTun (fun t => { t with code := s.tun.tunedCode }) (ownBand s.tun.probe.band s))) ?_ ?_
      · have := requestWriteBack_kept .code rfl
          (updSd (fun d => { d with af := afSwitch s.tun.tunedCode s.tun.probe.original d.af })
            (updTun (fun t => { t with code := s.tun.tunedCode }) (ownBand s.tun.probe.band s)))
        rw [requestWriteBack_eq] at this ⊢
        exact this
      · exact af_kept rfl rfl rfl fun k => (afListLaw_iff _).2 (((afListLaw_iff _).1 k).switch _ _)
  exact (((hband.trans hswitch).trans (tunerGoto_kept _ _)).trans (updTun_kept _ _ rfl)).trans (longOutcome_kept _ _)

theorem verifyHanded_kept (code : Word) (s : State) : Kept s (verifyHanded code s) :=
  .ite (fun _ => .ite (fun _ => verifySwitch_kept s) fun _ => verifyFailed_kept s) fun _ => .refl s

theorem verifyExpiry_kept (s : State) : Kept s (verifyExpiry s) := .ite (fun _ => verifyFailed_kept s) fun _ => .refl s

theorem setPilot_kept (on : Bool) (s : State) : Kept s (setPilot on s) := updTun_kept _ s rfl

theorem setTuned_kept (band : Band) (code : Nat) (s : State) : Kept s (setTuned band code s) := by
  unfold setTuned
  exact .after (updSd_kept _ _ (notice_af _ _ _)) (updTun_kept _ s rfl)

theorem frontEndFault_kept (s : State) : Kept s (frontEndFault s) :=
  ((tunerGoto_kept _ s).trans (updTun_kept _ _ rfl)).trans (longOutcome_kept _ _)

theorem exchangeFailed_kept (o : Outstanding) (s : State) : Kept s (exchangeFailed o s) := by
  refine .ite (fun _ => updFe_kept _ s) fun _ => .ite (fun _ => updFe_kept _ s) fun _ => ?_
  dsimp only
  split
  · exact (updFe_kept _ s).trans (longOutcome_kept _ _)
  · exact (updFe_kept _ s).trans (frontEndFault_kept _)

theorem tuneEnded_kept (purpose : TunePurpose) (locked : Bool) (s : State) : Kept s (tuneEnded purpose locked s) := by
  unfold tuneEnded
  split
  · exact (tunerGoto_kept _ s).trans (updTun_kept _ _ rfl)
  · exact .ite (fun _ => updTun_kept _ s rfl) fun _ => seekNext_kept s
  · exact .ite (fun _ => updTun_kept _ s rfl) fun _ => probeNext_kept s
  · exact updTun_kept _ s rfl
  · exact .refl s

theorem tuneAccepted_kept (o : Outstanding) (band : Band) (code : Nat) (purpose : TunePurpose) (locked fault : Bool)
    (s : State) : Kept s (tuneAccepted o band code purpose locked fault s) := by
  have h1 : Kept s (if locked then setTuned band code s else s) :=
    .ite (fun _ => setTuned_kept _ _ s) fun _ => .refl s
  exact .ite (fun _ => h1.trans (exchangeFailed_kept o _)) fun _ => .ite (fun _ => h1.trans (updFe_kept _ _))
    fun _ => (h1.trans (updFe_kept _ _)).trans (tuneEnded_kept _ _ _)

theorem responseAccepted_kept (o : Outstanding) (body : List Byte) (s : State) :
    Kept s (responseAccepted o body s) := by
  have h1 : Kept s (setPilot ((statusOf body).getLsbD 1) (updFe (fun f => { f with responseTimer := false }) s)) :=
    (updFe_kept _ s).trans (setPilot_kept _ _)
  unfold responseAccepted
  dsimp only
  split
  · exact h1.trans (tuneAccepted_kept _ _ _ _ _ _ _)
  · exact .ite (fun _ => h1.trans (exchangeFailed_kept o _)) fun _ => h1.trans (updFe_kept _ _)
  · exact .ite (fun _ => h1.trans (exchangeFailed_kept o _)) fun _ => h1.trans (updFe_kept _ _)

theorem frameHanded_kept (body : List Byte) (s : State) : Kept s (frameHanded body s) := by
  unfold frameHanded
  split
  · exact .ite (fun _ => responseAccepted_kept _ body s) fun _ => .refl s
  · exact .refl s

theorem frontEndRestart_kept (s : State) : Kept s (frontEndRestart s) :=
  .ite (fun _ => sendTune_kept _ _ _ s) fun _ => .refl s

theorem assemblerExpiry_kept (s : State) : Kept s (assemblerExpiry s) := by
  unfold assemblerExpiry
  split
  · exact .refl s
  · rename_i c rest _
    have h2 : Kept s (if c.brk
        then frontEndRestart (updFe (fun f => { f with rxQueue := rest, assembler := (s.fe.assembler.take c).1 }) s)
        else updFe (fun f => { f with rxQueue := rest, assembler := (s.fe.assembler.take c).1 }) s) :=
      .ite (fun _ => (updFe_kept _ s).trans (frontEndRestart_kept _)) fun _ => updFe_kept _ s
    dsimp only
    split
    · exact h2.trans (frameHanded_kept _ _)
    · exact h2

theorem responseExpiry_kept (s : State) : Kept s (responseExpiry s) := by
  refine .ite (fun _ => ?_) fun _ => .refl s
  dsimp only
  split
  · exact (updFe_kept _ s).trans (exchangeFailed_kept _ _)
  · exact updFe_kept _ s

theorem tuneCommand_kept (s : State) : Kept s (tuneCommand s) :=
  (((abandonOperation_kept s).trans (updTun_kept _ _ rfl)).trans (clearContent_kept _)).trans (plainTune_kept _ _ _ _)

theorem seekCommand_kept (up : Bool) (s : State) : Kept s (seekCommand up s) :=
  .ite (fun _ => ((abandonOperation_kept s).trans (updTun_kept _ _ rfl)).trans (seekNext_kept _))
    fun _ => (((abandonOperation_kept s).trans (updTun_kept _ _ rfl)).trans (tunerGoto_kept _ _)).trans (seekNext_kept _)

theorem stopSeek_kept (s : State) : Kept s (stopSeek s) := by
  have h2 : Kept s (updTun (fun t => { t with reason := .seekStopped })
      (updSd Station.clearContent (ownCode s.tun.seek.step s))) :=
    ((ownCode_kept _ s).trans (clearContent_kept _)).trans (updTun_kept _ _ rfl)
  have h3 := ((h2.trans (abandonRssi_kept _)).trans (tunerGoto_kept .settling _)).trans
    (updTun_kept (fun t => { t with settleTimer := true }) _ rfl)
  unfold stopSeek
  dsimp only
  split
  · exact (h2.trans (updFe_kept _ _)).trans (tunerGoto_kept _ _)
  all_goals exact h3

theorem stopCommand_kept (s : State) : Kept s (stopCommand s) := by
  unfold stopCommand
  split
  · exact stopSeek_kept s
  · exact probeNoSwitch_kept s
  all_goals exact .refl s

theorem offCommand_kept (s : State) : Kept s (offCommand s) := by
  unfold offCommand
  exact .after (updFe_kept _ _) (.after (clearContent_kept _) (.after (tunerGoto_kept _ _)
    (.after (updTun_kept _ _ rfl) (abandonOperation_kept s))))

theorem tunerAct_kept (c : TunerCommand) (s : State) : Kept s (tunerAct c s) := by
  cases c with
  | tune => exact tuneCommand_kept s
  | seek up => exact seekCommand_kept up s
  | stop => exact stopCommand_kept s
  | off => exact offCommand_kept s
  | store n => exact updTun_kept (fun t => { t with transfer := .storing n 0 (presetSnapshot s) }) s rfl
  | _ n => exact .after (updTun_kept (fun t => { t with transfer := .recalling n [] }) _ rfl) (discardRecall_kept s)

theorem tunerCommand_kept (v : Word) (s : State) : Kept s (tunerCommand v s) := by
  unfold tunerCommand
  split
  · exact answerTuner_kept _ s
  · exact .ite (fun _ => ((answerTuner_kept _ s).trans (tunerAct_kept _ _)).trans (normWeak_kept _))
      fun _ => answerTuner_kept _ s

/-! ### Presets (R169, R176, R188) -/

/-- The target code after the tuner's own change of it. -/
theorem ownTarget_code (band : Band) (code : Nat) (s : State) : (ownTarget band code s).tun.code = code := by
  unfold ownTarget ownCode changeCode
  split
  · rename_i h
    exact h.symm
  · rename_i h
    simp

theorem recallValid_kept (band : Band) (words : List Word) (s : State) : Kept s (recallValid band words s) := by
  have hcode : ∀ x : State, (recallClear x).tun.code = x.tun.code := fun x => by simp
  refine .after (plainTune_kept _ _ _ _) ?_
  refine .trans (((abandonOperation_kept s).trans (updTun_kept (fun t => { t with backoff := false }) _ rfl)).trans
    ((ownTarget_kept band (words.getD 1 0).toNat _).trans (updTun_kept (fun t =>
      { t with expected := if flag (words.getD 0 0) 7 then some (words.getD 2 0) else none }) _ rfl))) ?_
  refine .trans (.after (publish_kept _ _) (clearContent_kept _)) (updSd_af_kept _ _ fun _ => ?_)
  have : ∀ x : State, (publish x (updSd Station.clearContent x)).tun.code = x.tun.code := hcode
  rw [this]
  simp only [updTun_tun, ownTarget_code]
  exact afPreload_ok _ _

theorem judgeRecall_kept (words : List Word) (s : State) : Kept s (judgeRecall words s) := by
  unfold judgeRecall
  dsimp only
  split
  · exact .ite (fun _ => recallValid_kept _ words s) fun _ => longOutcome_kept _ s
  · exact longOutcome_kept _ s

theorem recallDone_kept (words : List Word) (s : State) : Kept s (recallDone words s) := by
  unfold recallDone
  split
  · exact .ite (fun _ => updTun_kept _ s rfl)
      fun _ => ((updTun_kept _ s rfl).trans (judgeRecall_kept _ _)).trans (normWeak_kept _)
  · exact .refl s

/-! ### The station data decoder (R180 to R188) -/

theorem confirmCode_af (d : Station) (expected : Option Word) (code : Word) (target : Nat)
    (h : AfOk target d.af) : AfOk target (d.confirmCode expected code).af := by
  have hchange : ∀ other : Bool, AfOk target (if other then d.changeStation code
      else d.updConfirmed fun c => { c with code := some code }).af := by
    intro other
    cases other
    · exact h
    · exact afOk_nil _
  exact hchange _

theorem receiveCode_kept (code : Word) (s : State) : Kept s (receiveCode code s) :=
  .ite (fun _ => .ite (fun _ => verifyHanded_kept code s) fun _ => updSd_af_kept _ s (confirmCode_af _ _ _ _))
    fun _ => updSd_kept _ s rfl

theorem receiveAf_ok (d : Station) (target : Nat) (w : Word) (h : AfOk target d.af) :
    AfOk target (d.receiveAf target w).af := by
  unfold Station.receiveAf
  split
  · exact h.offer _
  · exact h

theorem receiveP1_af (d : Station) (w : Word) : (d.receiveP1 w).af = d.af := by
  have hcat : ∀ n, (d.receiveCategory n).af = d.af := by
    intro n
    unfold Station.receiveCategory
    split <;> rfl
  unfold Station.receiveP1 Station.receiveToggle
  dsimp only
  split
  · exact hcat _
  · split <;> exact hcat _

theorem receiveName_af (d : Station) (seg : Nat) (w : Word) : (d.receiveName seg w).af = d.af := by
  unfold Station.receiveName
  split <;> rfl

theorem receiveText_af (d : Station) (seg : Nat) (w : Word × Word) : (d.receiveText seg w).af = d.af := by
  unfold Station.receiveText
  split <;> rfl

theorem receiveP2_ok (d : Station) (target : Nat) (p1 w : Word) (h : AfOk target d.af) :
    AfOk target (d.receiveP2 target p1 w).af := by
  unfold Station.receiveP2
  split
  · exact receiveAf_ok _ _ _ h
  · split
    · rwa [receiveName_af]
    · exact h
  · exact h

theorem receiveP3_ok (d : Station) (target : Nat) (p1 w : Word) (h : AfOk target d.af) :
    AfOk target (d.receiveP3 target p1 w).af := by
  unfold Station.receiveP3
  split
  · exact receiveAf_ok _ _ _ h
  · split
    · rwa [receiveText_af]
    · exact h
  · exact h

theorem joinGroup_ok (d : Station) (target p : Nat) (w : Word) (h : AfOk target d.af) :
    AfOk target (d.joinGroup target p w).af := by
  unfold Station.joinGroup
  split
  · rwa [receiveP1_af]
  · split
    · exact h
    · split
      · exact receiveP2_ok _ _ _ _ h
      · exact receiveP3_ok _ _ _ _ h

theorem handBlock_kept (p : Nat) (w : Word) (s : State) : Kept s (handBlock p w s) :=
  .ite (fun _ => .after (receiveCode_kept w _) (updSd_kept _ s rfl)) fun _ =>
    .ite (fun _ => .refl s) fun _ => updSd_af_kept _ s (joinGroup_ok _ _ _ _)

theorem acquireBlock_kept (bits : List Bool) (s : State) : Kept s (acquireBlock bits s) :=
  .ite (fun _ => .ite (fun _ => .after (handBlock_kept _ _ _) ((updSd_kept _ s rfl).trans (updSd_kept _ _ rfl)))
    fun _ => updSd_kept _ s rfl) fun _ => updSd_kept _ s rfl

theorem syncedBlock_kept (bits : List Bool) (s : State) : Kept s (syncedBlock bits s) :=
  .ite (fun _ => .after (handBlock_kept _ _ _) (updSd_kept _ s rfl)) fun _ => updSd_kept _ s rfl

theorem searchBit_af (d : Station) (b : Bool) : (d.searchBit b).af = d.af := by
  unfold Station.searchBit
  dsimp only
  repeat' split
  all_goals rfl

theorem takeBit_kept (b : Bool) (s : State) : Kept s (takeBit b s) := by
  have h1 : Kept s (updSd (fun d => { d with gapTimer := true }) s) := updSd_kept _ s rfl
  refine .ite (fun _ => ?_) fun _ => .refl s
  dsimp only
  split
  · exact h1
  · exact h1.trans (updSd_kept _ _ (searchBit_af _ _))
  · exact .ite (fun _ => h1.trans (updSd_kept _ _ rfl)) fun _ => h1.trans (acquireBlock_kept _ _)
  · exact .ite (fun _ => h1.trans (updSd_kept _ _ rfl)) fun _ => h1.trans (syncedBlock_kept _ _)

theorem takeBlock_kept (block : BitVec 24) (s : State) : Kept s (takeBlock block s) := by
  unfold takeBlock
  induction bitsOf blockBits block.toNat generalizing s with
  | nil => exact .refl s
  | cons b bs ih => exact ((takeBit_kept b s).trans (publish_kept _ _)).trans (ih _)

theorem gapExpiry_kept (s : State) : Kept s (gapExpiry s) := .ite (fun _ => updSd_kept _ s rfl) fun _ => .refl s

end Sys2Proof.Machine

end

section

set_option autoImplicit false

namespace Sys2Proof.Machine

/-! ### The reset state (R21) -/

theorem zoneLaw_restart : ZoneLaw .restart := by
  constructor <;> decide

theorem pathLaw_restart {s : State} (hz : ∀ z, s.zones.get z = .restart) (ha : s.pool.active = .zero)
    (hl : s.pool.lines = .all []) (haf : AfListLaw s) : PathLaw s := by
  refine ⟨fun z => ?_, fun z => ?_, ⟨?_, fun ch => ?_⟩, haf⟩
  · rw [hz]
    exact zoneLaw_restart
  · rw [hz]
    decide
  · rw [ha]
    decide
  · simp [ha, hl, PoolSet.zero]

theorem amplifierLaw_restart {s : State} (hmem : MemoryCanonical s) (hq : WriteBackQueueLaw s) (hd : MarksInOrder s)
    (hg : ∀ ch, (s.gain.chans.get ch).applied = gainFloor)
    (hm : ∀ m, (s.mods.get m).state = .off ∧ (s.mods.get m).order = false) : AmplifierLaw s := by
  refine ⟨hmem, hq, hd, fun ch _ => hg ch, fun m h => ?_, fun m h => ?_, fun ch => ?_⟩
  · simp [hm m] at h
  · simp [hm m] at h
  · rw [hg ch]
    decide

theorem resetRise_kept (aps1 aps0 : Bool) (s : State) : Kept s (resetRise aps1 aps0 s) := by
  refine ⟨fun k => amplifierLaw_restart k.memory ⟨List.nodup_nil, by simp [resetRise, State.reset]⟩ ?_ ?_ ?_,
    fun _ => pathLaw_restart ?_ rfl rfl ⟨by simp [resetRise, State.reset, Station.reset, afLimit],
      by simp [resetRise, State.reset, Station.reset], by simp [resetRise, State.reset, Station.reset]⟩⟩
  · simp [MarksInOrder, resetRise, State.reset]
  · simp [resetRise, State.reset, Gain.reset, ChanGain.restart, gainFloor]
  · simp [resetRise, ModuleRec.reset]
  · simp [resetRise, State.reset]

/-! ### Arrivals (R8) -/

theorem restartAudioBlocks_kept (s : State) : Kept s (restartAudioBlocks s) := by
  refine ⟨fun k => ?_, fun k => pathLaw_restart ?_ rfl rfl k.af⟩
  · have hg : ∀ ch, ((restartAudioBlocks s).gain.chans.get ch).applied = gainFloor := by
      simp [restartAudioBlocks, Gain.restart, ChanGain.restart, gainFloor]
    refine ⟨k.memory, k.queue, k.marks, fun ch _ => hg ch, k.powered, k.orders, fun ch => ?_⟩
    rw [hg ch]
    decide
  · simp [restartAudioBlocks]

theorem restartAudioCommand_kept (s : State) : Kept s (restartAudioCommand s) := by
  have h0 : Kept s (restartAudioBlocks (discardFetch .ms2 (discardFetch .ms1 s))) :=
    ((discardFetch_kept .ms1 s).trans (discardFetch_kept .ms2 _)).trans (restartAudioBlocks_kept _)
  have h1 := fun rs => (h0.trans (markAll_kept rs _)).trans (windDownReports_kept _)
  unfold restartAudioCommand
  exact .after (answerSystem_kept _ _) ((h1 _).trans (.same rfl rfl))

theorem systemCommand_kept (v : Word) (s : State) : Kept s (systemCommand v s) :=
  .ite (fun _ => restartAudioCommand_kept s) fun _ => .ite (fun _ => selfRecheckCommand_kept s)
    fun _ => answerSystem_kept _ s

theorem clearTripCommand_kept (m : AmpModule) (s : State) : Kept s (clearTripCommand m s) :=
  .ite (fun _ => answerModule_kept _ s) fun h => .ite (fun _ => answerModule_kept _ s)
    fun _ => (clearTripTaken_kept m s (not_not.1 h)).trans (answerModule_kept _ _)

theorem moduleCommand_kept (v : Word) (s : State) : Kept s (moduleCommand v s) :=
  .ite (fun _ => answerModule_kept _ s) fun _ => .ite (fun _ => clearTripCommand_kept _ s) fun _ =>
    .ite (fun _ => clearTripCommand_kept _ s) fun _ => .ite (fun _ => clearTripCommand_kept _ s)
      fun _ => answerModule_kept _ s

theorem attnAckArrival_kept (v : Word) (s : State) : Kept s (attnAckArrival v s) :=
  .of_same (requestWriteBack_kept _ rfl _) rfl rfl

/-- A wait limit that the filter carries lies in its slot's range. -/
def ArrivesInRange (sl : Slot) (v : Word) : Prop := ∀ z, sl = .waitLimit z → 500 ≤ v.toNat ∧ v.toNat ≤ 10000

theorem arrive_kept (sl : Slot) (v : Word) (s : State) (h : ArrivesInRange sl v) : Kept s (arrive sl v s) := by
  cases sl with
  | systemCmd => exact systemCommand_kept v s
  | attnEnable => exact .same rfl rfl
  | attnAck => exact attnAckArrival_kept v s
  | setupLock => exact setupLockArrival_kept v s
  | knobZone => exact updKnob_kept (fun k => { k with zone := zoneOfWord v }) s
  | knobStep => exact updKnob_kept (fun k => { k with step := v.toNat }) s
  | source z => exact sourceArrival_kept z _ s
  | volume z => exact volumeArrival_kept z _ s
  | mute z => exact updZoneGain_kept z _ s
  | fadeRate z => exact fadeRateArrival_kept z _ s
  | waitLimit z => exact waitLimitArrival_kept z _ s (h z rfl)
  | lipsync z => exact lipsyncArrival_kept z _ s
  | decodeMode => exact decodeModeArrival_kept _ s
  | steerSpeed => exact .same rfl rfl
  | format l => exact formatArrival_kept l _ s
  | srcTrim src => exact .same rfl rfl
  | desc m d => exact updReader_kept m _ s
  | fill m => exact updReader_kept m _ s
  | streamCmd m => exact streamCommand_kept m v s
  | speaker p => exact speakerArrival_kept p v s
  | maxVolume z => exact maxVolumeArrival_kept z _ s
  | moduleEn m => exact moduleEnArrival_kept m _ s
  | trim ch => exact .same rfl rfl
  | dist ch => exact distArrival_kept ch _ s
  | moduleCmd => exact moduleCommand_kept v s
  | seqLen => exact seqLenArrival_kept _ s
  | measureCmd => exact measureCommand_kept v s
  | entry n w => exact entryArrival_kept n w v s
  | region => exact (regionArrival_kept _ s).trans (normWeak_kept _)
  | band => exact (bandArrival_kept _ s).trans (normWeak_kept _)
  | code => exact (changeCode_kept _ s).trans (normWeak_kept _)
  | tunerCmd => exact tunerCommand_kept v s
  | seekThr => exact updTun_kept (fun t => { t with seekThr := v.toNat }) s rfl
  | blendThr => exact updTun_kept (fun t => { t with blendThr := v.toNat }) s rfl
  | afThr => exact updTun_kept (fun t => { t with afThr := v.toNat }) s rfl
  | afFollow => exact (updTun_kept (fun t => { t with afFollow := v = 1 }) s rfl).trans (normWeak_kept _)
  | feDivisor => exact updFe_kept (fun f => f.setDivisor v.toNat) s

/-! ### Host accesses and bursts (R1 to R16) -/

theorem rawCarry_kept (a : HostAccess) (s : State) : Kept s (rawCarry a s) :=
  .ite (fun _ => .ite (fun _ => .refl s) fun _ => .same rfl rfl) fun _ =>
    .ite (fun _ => mem_kept s _ (Memory.wf_writeLanes _ _ _ _)) fun _ =>
      .ite (fun _ => .same rfl rfl) fun _ => .same rfl rfl

theorem reportWrite_kept (off : Nat) (s : State) : Kept s (reportWrite off s) :=
  .ite (fun _ => relock_kept s) fun _ => .refl s

/-- What the filter delivers lies in its slot's range (R190). -/
theorem judge_arrives_range (s : State) (off : Nat) (lanes : Lanes) (v w : Word) (sl : Slot)
    (h : judge s off lanes v = .arrives sl w) : ArrivesInRange sl w := by
  rintro z rfl
  have hw : filterValue s (.waitLimit z) v = some w := by
    unfold judge at h
    split at h
    · rename_i sl' _
      unfold judgeSlot at h
      split at h
      · cases h
      · split at h
        · cases h
        · split at h
          · cases h
          · split at h
            · cases h
              assumption
            · cases h
    · split at h <;> cases h
  have : ranged 500 10000 v = some w := hw
  rw [ranged_eq _ _ _ (by decide)] at this
  obtain rfl := Option.some.inj this
  rw [BitVec.toNat_ofNat]
  omega

theorem blockWrite_kept (off : Nat) (r : BlockReason) (s : State) : Kept s (blockWrite off r s) :=
  .after (raise_kept _ _) (.of_same (markDirty_kept _ _) rfl rfl)

theorem applyVerdict_kept (a : HostAccess) (off : Nat) (v : Verdict) (s : State)
    (h : ∀ sl w, v = .arrives sl w → ArrivesInRange sl w) : Kept s (applyVerdict a off v s) := by
  cases v with
  | through => exact rawCarry_kept a s
  | arrives sl w =>
    exact (mem_kept s _ (Memory.wf_writeWord _ _ _)).trans (arrive_kept sl w _ (h sl w rfl))
  | blocked r => exact blockWrite_kept off r s

theorem hostCarry_kept (a : HostAccess) (s : State) : Kept s (hostCarry a s) := by
  refine .ite (fun _ => rawCarry_kept a s) fun _ => ?_
  split
  · exact rawCarry_kept a s
  · exact (reportWrite_kept _ s).trans (applyVerdict_kept a _ _ _ fun sl w => judge_arrives_range _ _ _ _ _ _)

theorem takePort_kept (a : HostAccess) (whole : Bool) (s : State) : Kept s (takePort a whole s) :=
  .ite (fun _ => (hostCarry_kept a s).trans (.same rfl rfl)) fun _ => (setPort_kept _ s).trans (hostCarry_kept a _)

theorem carryHeld_kept (s : State) : Kept s (carryHeld s) := by
  unfold carryHeld
  split
  · exact .ite (fun _ => .refl s) fun _ => .of_same (takePort_kept _ _ _) rfl rfl
  · exact .refl s

theorem releaseHeld_kept (s : State) : Kept s (releaseHeld s) := by
  unfold releaseHeld
  split
  · exact .of_same (takePort_kept _ _ _) rfl rfl
  · exact .refl s

theorem holdAccess_kept (a : HostAccess) (whole : Bool) (s : State) : Kept s (holdAccess a whole s) := .same rfl rfl

theorem offerAccess_kept (a : HostAccess) (whole : Bool) (s : State) : Kept s (offerAccess a whole s) := by
  refine .ite (fun _ => .refl s) fun _ => .ite (fun _ => takePort_kept a whole s) fun _ =>
    .ite (fun _ => holdAccess_kept a whole s) fun _ => ?_
  split
  · exact holdAccess_kept a whole s
  all_goals exact .ite (fun _ => holdAccess_kept a whole s) fun _ => takePort_kept a whole s

theorem endAccess_kept (s : State) : Kept s (endAccess s) := by
  unfold endAccess
  split
  · exact .same rfl rfl
  · exact .refl s

theorem writeBurst_kept (owner : BurstOwner) (addr : Nat) (words : List Word) (s : State) :
    Kept s (writeBurst owner addr words s) :=
  (mem_kept s _ (Memory.wf_writeWords _ _ _)).trans (setPort_kept _ _)

theorem recordBurst_kept (owner : BurstOwner) (r : Rec) (s : State) : Kept s (recordBurst owner r s) :=
  (kept_of_marks (t := { s with dirty := s.dirty.filter fun x => x != r }) rfl
    fun h => h.filter _).trans (writeBurst_kept owner _ _ _)

theorem restoreBurst_kept (p : RestorePass) (s : State) : Kept s (restoreBurst p s) := by
  unfold restoreBurst
  split
  · exact .after (writeBurst_kept _ _ _ _) (queue_filter_kept _ _ s rfl)
  · exact .of_same (recordBurst_kept _ _ _) rfl rfl
  · exact .refl s

theorem writeBackBurst_kept (s : State) : Kept s (writeBackBurst s) :=
  .after (writeBurst_kept _ _ _ _) (queue_filter_kept _ _ s rfl)

theorem storeBurst_kept (n k : Nat) (snap : List Word) (s : State) : Kept s (storeBurst n k snap s) :=
  .ite (fun _ => .after (updTun_kept _ _ rfl) (writeBurst_kept _ _ _ s))
    fun _ => .after (longOutcome_kept _ _) (.after (updTun_kept _ _ rfl) (writeBurst_kept _ _ _ s))

theorem presetBurst_kept (s : State) : Kept s (presetBurst s) := by
  unfold presetBurst
  split
  · exact .refl s
  · exact .ite (fun _ => setPort_kept _ s) fun _ => setPort_kept _ s
  · exact storeBurst_kept _ _ _ s

theorem issue_kept (q : Request) (s : State) : Kept s (issue q s) := by
  unfold issue
  split
  · split
    · exact restoreBurst_kept _ s
    · exact .refl s
  · exact setPort_kept _ s
  · exact writeBackBurst_kept s
  · exact presetBurst_kept s
  · exact recordBurst_kept _ _ s

theorem partTurn_kept (s : State) : Kept s (partTurn s) := by
  unfold partTurn
  split
  · refine .ite (fun _ => carryHeld_kept s) fun _ => ?_
    split
    · exact issue_kept _ s
    · exact carryHeld_kept s
  · exact .refl s

/-! ### The audio blocks and the clock (R21 to R23, R135) -/

/-- A clock that becomes good asks less of the modules. -/
theorem clockGood_kept (s : State) (b : Bool) : Kept s { s with clock := .good, audioStarted := b } :=
  ⟨fun k => ⟨k.memory, k.queue, k.marks, k.silent, fun m hm => ⟨(k.powered m hm).1, rfl⟩, k.orders, k.gains⟩,
    .congr rfl⟩

/-- What starts anew with the audio blocks beside the lines and the zones: the readers' converters, the decoder's
window, the knob and the delay pool. -/
def resumeOthers (s : State) : State :=
  { s with
    ms := .ofFn fun m => resumeReader (s.ms.get m)
    dec := s.dec.newWindow
    knob := s.knob.resume
    pool := { s.pool with presence := s.bass.staged.presence } }

theorem resumeOthers_kept (s : State) : Kept s (resumeOthers s) := .same rfl rfl

theorem resumeAudio_eq (s : State) :
    resumeAudio s = recompute (resumeOthers (resumeZone .z2 (resumeZone .z1
      { resumeLines s with clock := .good, audioStarted := true }))) := by
  simp only [resumeAudio, resumeOthers]

theorem resumeAudio_kept (s : State) : Kept s (resumeAudio s) := by
  have hzones := (((resumeLines_kept s).trans (clockGood_kept _ true)).trans (resumeZone_kept .z1 _)).trans
    (resumeZone_kept .z2 _)
  rw [resumeAudio_eq]
  exact .after (recompute_kept _) (hzones.trans (resumeOthers_kept _))

theorem clockProven_kept (s : State) : Kept s (clockProven s) :=
  .ite (fun _ => .refl s) fun _ => .after (startModules_kept _)
    (.ite (fun _ => clockGood_kept s s.audioStarted) fun _ => resumeAudio_kept s)

/-- With the clock gone every module trips, so that none keeps power (R135). -/
theorem clockAbsence_kept (s : State) : Kept s (clockAbsence s) := by
  refine .ite (fun _ => ?_) fun _ => .refl s
  have hd : Kept s (discardFetch .ms2 (discardFetch .ms1 s)) :=
    (discardFetch_kept .ms1 s).trans (discardFetch_kept .ms2 _)
  refine .after (raise_kept _ _) ⟨fun k => ?_, fun k => ?_⟩
  · obtain ⟨memory, queue, marks, silent, -, orders, gains⟩ := hd.amp k
    refine (trip_law .c _ _ (trip_law .b _ _ (trip_law .a _ _ (s := stopAudio s)
      ⟨memory, queue, marks, silent, orders, gains⟩))).off fun m hm => ?_
    simp only [trip_hasPower] at hm
    cases m <;> simp at hm
  · refine ((trip_kept .a .clock 0 _).trans ((trip_kept .b .clock 0 _).trans (trip_kept .c .clock 0 _))).path ?_
    exact PathLaw.congr (s := discardFetch .ms2 (discardFetch .ms1 s)) (t := stopAudio s) rfl (hd.path k)

theorem passEnd_kept (p : RestorePass) (s : State) : Kept s (passEnd p s) := by
  have h1 : Kept s (raise .restoreDone { updAgent (fun g => { g with restore := none }) s with meterTimer := true }) :=
    .of_same (raise_kept _ _) rfl rfl
  exact .ite (fun _ => h1.trans (resumeAudio_kept _)) fun _ => h1

theorem burstResult_kept (b : Burst) (s : State) : Kept s (burstResult b s) := by
  unfold burstResult
  split
  · split
    · exact .ite (fun _ => passEnd_kept _ s) fun _ => .refl s
    · exact .refl s
  · exact .ite (fun _ => .refl s) fun _ => fetchDone_kept _ _ _ s
  · exact .ite (fun _ => .refl s) fun _ => recallDone_kept _ s
  all_goals exact .refl s

theorem burstDone_kept (b : Burst) (s : State) : Kept s (burstDone b s) := .of_same (burstResult_kept b _) rfl rfl

theorem cutBurst_kept (s : State) : Kept s (cutBurst s) := by
  unfold cutBurst
  split
  · rename_i b _
    have hm : Kept s { s with mem := (if b.isWrite
        then s.mem.writeWords (b.addr + 2 * cyclesRun s.free b.words.length)
          (b.replaced.drop (cyclesRun s.free b.words.length)) else s.mem) } := by
      refine mem_kept s _ fun h => ?_
      split
      · exact Memory.wf_writeWords _ _ _ h
      · exact h
    exact hm.trans (.same rfl rfl)
  · exact .refl s

theorem resetFall_kept (s : State) : Kept s (resetFall s) :=
  (cutBurst_kept s).trans (.of_same (releaseHeld_kept _) rfl rfl)

/-! ### Audio frames and the knob (R94 to R106) -/

/-- A delay line keeps its length (R111). -/
theorem lineStep_length (line : List Sample) (x : Sample) : (lineStep line x).2.length = line.length := by
  cases line <;> simp [lineStep]

theorem outputFrame_kept (xs : PerChan Sample) (s : State) : Kept s (outputFrame xs s) := by
  refine ⟨.congr ?_, fun k => ⟨k.zones, k.limits, ⟨k.pool.1, fun ch => ?_⟩, k.af⟩⟩
  · simp [ampFields, outputFrame, outputSample]
  · simp only [outputFrame, PerChan.get_ofFn, lineStep_length]
    exact k.pool.2 ch

theorem audioFrameStep_kept (quiet : List SaLine) (taL taR : Sample) (s : State) :
    Kept s (audioFrameStep quiet taL taR s) :=
  .ite (fun _ => (outputFrame_kept _ s).trans (.same rfl rfl)) fun _ => .refl s

theorem slewExpiry_kept (s : State) : Kept s (slewExpiry s) :=
  .ite (fun _ => (slewAll_kept s).trans (windDownReports_kept _)) fun _ => .refl s

theorem meterExpiry_kept (s : State) : Kept s (meterExpiry s) :=
  .ite (fun _ => (mapChans_kept _ s fun _ => rfl).trans (markAll_kept _ _)) fun _ => .refl s

theorem knobExpiry_kept (ps : KnobPins) (s : State) : Kept s (knobExpiry ps s) := by
  refine .ite (fun _ => ?_) fun _ => .refl s
  dsimp only
  split
  · exact .same rfl rfl
  · split
    · exact .of_same (detent_kept _ _ _) rfl rfl
    · exact .same rfl rfl
  · exact .same rfl rfl

theorem knobChange_kept (p : KnobPin) (level : Bool) (s : State) : Kept s (knobChange p level s) := by
  cases p <;> exact .same rfl rfl

/-! ### Commands -/

/-- An outcome is a next state to which the laws pass on. -/
def KeepsOn (s : State) (o : Host.Outcome State Fault Refusal) : Prop := ∀ t, o = .next t → Kept s t

theorem keepsOn_next {s t : State} (h : Kept s t) : KeepsOn s (.next t) := by
  rintro _ ⟨⟩
  exact h

theorem act_keeps {f : State → State} (s : State) (h : ∀ x, Kept x (f x)) : KeepsOn s (act f s) :=
  keepsOn_next (.ite (fun _ => .refl s) fun _ => (h s).trans (publish_kept _ _))

theorem actTwice_keeps {f g : State → State} (s : State) (hf : ∀ x, Kept x (f x)) (hg : ∀ x, Kept x (g x)) :
    KeepsOn s (actTwice f g s) :=
  keepsOn_next (.ite (fun _ => .refl s) fun _ =>
    (((hf s).trans (publish_kept _ _)).trans (hg _)).trans (publish_kept _ _))

theorem access_keeps {f : State → State} (s : State) (h : ∀ x, Kept x (f x)) : KeepsOn s (access f s) :=
  keepsOn_next (.ite (fun _ => h s) fun _ => (h s).trans (publish_kept _ _))

theorem pinChange_keeps {f : State → State} (s : State) (h : ∀ x, Kept x (f x)) : KeepsOn s (pinChange f s) :=
  keepsOn_next (h s)

theorem slotRow_keeps (sl : Slot) (lanes : Lanes) (v : Word) (s : State) : KeepsOn s (slotRow sl lanes v s) :=
  access_keeps s fun x => offerAccess_kept _ true x

theorem act_if_keeps (p : State → Bool) {f : State → State} (s : State) (h : ∀ x, Kept x (f x)) :
    KeepsOn s (act (fun t => if p t then f t else t) s) :=
  act_keeps s fun x => .ite (fun _ => h x) fun _ => .refl x

theorem act_norm_keeps {f : State → State} (s : State) (h : ∀ x, Kept x (f x)) :
    KeepsOn s (act (fun t => normWeak (f t)) s) := act_keeps s fun x => (h x).trans (normWeak_kept _)

/-- Every command keeps the laws. -/
theorem exec_keeps (i : Instr) (s : State) : KeepsOn s (exec i s) := by
  rcases hrow : writeRow i with _ | ⟨sl, lanes, v⟩
  case some => rw [exec_writeRow i sl lanes v s hrow]; exact slotRow_keeps sl lanes v s
  cases i with
  | rstnFall => exact pinChange_keeps s resetFall_kept
  | rstnRise a b => exact pinChange_keeps s (resetRise_kept a b)
  | hostAccessBegin a => exact access_keeps s (offerAccess_kept a false)
  | hostAccessEnd => exact access_keeps s endAccess_kept
  | slotWrite off lanes v => exact access_keeps s fun x => offerAccess_kept _ true x
  | partBurstIssue => exact act_keeps s partTurn_kept
  | partBurstEnd =>
    show KeepsOn s (execPartBurstEnd s)
    unfold execPartBurstEnd
    split
    · exact actTwice_keeps s (burstDone_kept _) carryHeld_kept
    · exact keepsOn_next (.refl s)
  | meterTimerExpiry => exact act_keeps s meterExpiry_kept
  | saWindowEnd l => exact act_if_keeps State.audioRuns s (lineStepWith_kept l SaState.windowEnd)
  | saFrame l slots => exact act_if_keeps State.audioRuns s (updLine_kept l fun x => x.frame slots)
  | npcmChange l level => exact pinChange_keeps s (npcmPinChange_kept l level)
  | npcmStable l => exact act_keeps s (npcmStable_kept l)
  | streamFrameInstant m => exact act_keeps s (frameInstant_kept m)
  | fadeTimerExpiry z => exact act_if_keeps State.restartTimersRun s (fadeStep_kept z)
  | waitTimerExpiry z => exact act_if_keeps State.restartTimersRun s (waitTick_kept z)
  | steerWindowEnd => exact act_keeps s fun x => .ite (fun _ => .same rfl rfl) fun _ => .refl x
  | audioFrame quiet ta => exact act_keeps s (audioFrameStep_kept quiet _ _)
  | slewTimerExpiry => exact act_keeps s slewExpiry_kept
  | knobPinChange p level => exact pinChange_keeps s (knobChange_kept p level)
  | knobFilterExpiry ps => exact act_keeps s (knobExpiry_kept ps)
  | startTimerExpiry m => exact act_keeps s (startExpiry_kept m)
  | stopTimerExpiry m => exact act_keeps s (stopExpiry_kept m)
  | ampfltChange m level => exact pinChange_keeps s fun x => updModule_kept m _ x rfl rfl
  | faultLineTrip m => exact act_keeps s (faultLineTrip_kept m)
  | clockAbsence => exact act_keeps s clockAbsence_kept
  | clockProven => exact act_keeps s clockProven_kept
  | converterTimerExpiry u => exact act_keeps s (converterStep_kept u)
  | divisorTakeUp => exact act_keeps s (updFe_kept _)
  | frameSent => exact act_keeps s (updFe_kept _)
  | characterReceived d p st n => exact act_keeps s (updFe_kept _)
  | assemblerTimerExpiry => exact act_norm_keeps s assemblerExpiry_kept
  | responseTimerExpiry => exact act_norm_keeps s responseExpiry_kept
  | settleTimerExpiry => exact act_norm_keeps s settleExpiry_kept
  | readingTimerExpiry => exact act_keeps s readingExpiry_kept
  | queryTimerExpiry => exact act_keeps s queryExpiry_kept
  | verifyTimerExpiry => exact act_norm_keeps s verifyExpiry_kept
  | backoffTimerExpiry => exact act_keeps s fun x => updTun_kept _ x rfl
  | stationBlock block => exact act_norm_keeps s (takeBlock_kept block)
  | gapTimerExpiry => exact act_keeps s gapExpiry_kept
  | stationDataBit b => exact act_norm_keeps s (takeBit_kept b)
  | _ => simp [writeRow] at hrow

/-- Every step keeps the laws: the command at the front of the queue runs, and nothing else happens. -/
theorem step_keeps (s : State) : KeepsOn s (step s) := by
  unfold step
  split
  · exact keepsOn_next (.refl s)
  · exact fun t ht => .of_same (exec_keeps _ _ t ht) rfl rfl

/-- Settles O59: every operation keeps the amplifier law, and so does every step (`step_keeps`). -/
theorem amplifierLawKeptByEveryStep : Obligations.AmplifierLawKeptByEveryStep := by
  unfold Obligations.AmplifierLawKeptByEveryStep
  intro s t ⟨hmem, hqueue, hmarks, hsilent, hpowered, horders, hgains⟩ hstep
  have k := (step_keeps s t hstep).amp ⟨hmem, hqueue, hmarks, hsilent, hpowered, horders, hgains⟩
  exact ⟨k.memory, k.queue, k.marks, k.silent, k.powered, k.orders, k.gains⟩

/-- Settles O60: every operation keeps the path law, and so does every step (`step_keeps`). -/
theorem zonePoolAndAfLawsKeptByEveryStep : Obligations.ZonePoolAndAfLawsKeptByEveryStep := by
  unfold Obligations.ZonePoolAndAfLawsKeptByEveryStep
  intro s t ⟨hzones, hlimits, hpool, haf⟩ hstep
  have k := (step_keeps s t hstep).path ⟨hzones, hlimits, hpool, haf⟩
  exact ⟨k.zones, k.limits, k.pool, k.af⟩

/-- Settles O3: the reset state holds the restart values of the laws. -/
theorem resetStateMeetsInvariants : Obligations.ResetStateMeetsInvariants := by
  unfold Obligations.ResetStateMeetsInvariants
  have ha : AmplifierLaw State.reset := by
    refine amplifierLaw_restart State.reset_memory_wf ⟨List.nodup_nil, by simp [State.reset]⟩ ?_ ?_ ?_
    · simp [MarksInOrder, State.reset]
    · simp [State.reset, Gain.reset, ChanGain.restart, gainFloor]
    · simp [State.reset, ModuleRec.reset]
  have hp : PathLaw State.reset := pathLaw_restart (by simp [State.reset]) rfl rfl
    ⟨by simp [State.reset, Station.reset, afLimit], by simp [State.reset, Station.reset],
      by simp [State.reset, Station.reset]⟩
  exact ⟨ha.memory, ha.queue, ha.marks, ha.silent, ha.powered, ha.orders, hp.pool, hp.af, hp.zones, hp.limits, ha.gains⟩

end Sys2Proof.Machine

end

/-! The queue, the reset pin and the port (R1 to R8, R12, R21, R104). -/

section

set_option autoImplicit false

namespace Sys2Proof.Machine

/-! ### The queue and the reset state -/

/-- Settles O1, by the definition of a step. -/
theorem stepTakesFrontCommand : Obligations.StepTakesFrontCommand := by
  unfold Obligations.StepTakesFrontCommand
  intro c rest s
  rfl

/-- Every slot reads after reset as its row's reset word (R192). -/
theorem slotValue_reset (sl : Slot) : slotValue State.reset sl = resetWord sl := by
  cases sl with
  | entry n k => revert n k; decide
  | desc m d => cases m <;> cases d <;> rfl
  | source z | volume z | mute z | fadeRate z | waitLimit z | lipsync z | maxVolume z => cases z <;> rfl
  | format l => cases l <;> rfl
  | srcTrim src => rcases src with l | m | _ <;> [cases l; cases m; skip] <;> rfl
  | fill m | streamCmd m => cases m <;> rfl
  | speaker p => cases p <;> rfl
  | moduleEn m => cases m <;> rfl
  | trim ch => rcases ch with x | _ | _ <;> [cases x; skip; skip] <;> rfl
  | dist ch => cases ch <;> rfl
  | _ => rfl

/-- Settles O2, field by field of the reset state, and slot by slot. -/
theorem resetStateHoldsStatedValues : Obligations.ResetStateHoldsStatedValues := by
  unfold Obligations.ResetStateHoldsStatedValues
  refine ⟨rfl, rfl, rfl, rfl, rfl, rfl, rfl, rfl, rfl, rfl, fun l => ?lines, fun m => ?streams, fun z => ?zones,
    fun src => ?view, rfl, rfl, rfl, rfl, rfl, rfl, fun ch => ?terms, rfl, rfl, fun ch => ?filters, fun z => ?volumes,
    fun ch => ?gains, fun src => ?trims, rfl, rfl, rfl, rfl, rfl, rfl, fun ch => ?dists, rfl, fun ch => ?lengths, fun z => ?grants,
    fun m => ?modules, rfl, rfl, ?entries, rfl, rfl, rfl, rfl, rfl, rfl, rfl, rfl, rfl, rfl, rfl, rfl, rfl, rfl, rfl, rfl, rfl, rfl, rfl, rfl, rfl, rfl, rfl, rfl, rfl, rfl, rfl,
    rfl, rfl, rfl, rfl, rfl, rfl, rfl, rfl, rfl, rfl, rfl, rfl, rfl, rfl, rfl, rfl, rfl, rfl, rfl, rfl, rfl, rfl, rfl, rfl, rfl, rfl, rfl, rfl, slotValue_reset⟩
  case lines => cases l <;> decide
  case streams => cases m <;> decide
  case zones => cases z <;> decide
  case view => rcases src with l | m | _ <;> [cases l; cases m; skip] <;> rfl
  case terms | filters | dists => cases ch <;> decide
  case volumes | grants => cases z <;> decide
  case gains | lengths => rcases ch with x | _ | _ <;> [cases x; skip; skip] <;> decide
  case trims => rcases src with l | m | _ <;> [cases l; cases m; skip] <;> rfl
  case modules => cases m <;> decide
  case entries => decide

end Sys2Proof.Machine

end

/-! The reset pin (R2, R21, R161) and the knob's filters (R104). -/

section

set_option autoImplicit false

namespace Sys2Proof.Machine

/-! ### RSTN falls (R2) -/

/-- The port after a fall of RSTN: the host's, or free. -/
def portCut (p : Port) : Port := if p = .host then .host else .free

/-- A cut changes memory, the counter of free values and the port, and nothing else. -/
theorem cutBurst_eq (s : State) :
    cutBurst s = { s with
      mem := (cutBurst s).mem, free := (cutBurst s).free, agent := { s.agent with port := portCut s.agent.port } } := by
  have hagent : (cutBurst s).agent = { s.agent with port := portCut s.agent.port } := by
    unfold cutBurst
    rcases hp : s.agent.port with _ | _ | b
    · rw [show portCut .free = s.agent.port from hp.symm]
    · rw [show portCut .host = s.agent.port from hp.symm]
    · simp [portCut]
  apply State.ext_fields <;> simp [hagent]

/-- A cut leaves memory as it is but for the words of a write burst. -/
theorem cutBurst_mem_read (s : State) (h : ∀ b, s.agent.port = .part b → b.isWrite = false) :
    (cutBurst s).mem = s.mem := by
  unfold cutBurst
  rcases hp : s.agent.port with _ | _ | b
  · rfl
  · rfl
  · simp [h b hp]

theorem cutBurst_canonical (s : State) (h : MemoryCanonical s) : MemoryCanonical (cutBurst s) := by
  unfold cutBurst
  rcases s.agent.port with _ | _ | b
  · exact h
  · exact h
  · show Memory.wf (if b.isWrite then _ else _) = true
    split
    · exact Memory.wf_writeWords _ _ _ h
    · exact h

theorem cyclesRun_bounds (draw len : Nat) (h : 1 ≤ len) : 1 ≤ cyclesRun draw len ∧ cyclesRun draw len ≤ len := by
  unfold cyclesRun clampNat
  split
  · omega
  · split <;> omega

/-- A write burst ends at a word cycle `k`: the words from it on are the replaced ones again (R2). -/
theorem cutBurst_write (s : State) (b : Burst) (hm : MemoryCanonical s) (hp : s.agent.port = .part b)
    (hw : b.isWrite = true) (hne : b.words ≠ []) (hl : b.replaced.length = b.words.length) :
    ∃ k, 1 ≤ k ∧ k ≤ b.words.length
      ∧ (∀ i w, k ≤ i → b.replaced[i]? = some w → (cutBurst s).mem.readWord (b.addr + 2 * i) = w)
      ∧ ∀ a, a < b.addr + 2 * k ∨ b.addr + 2 * b.words.length ≤ a → (cutBurst s).mem.read a = s.mem.read a := by
  obtain ⟨h1, hk⟩ := cyclesRun_bounds s.free b.words.length (List.length_pos_of_ne_nil hne)
  refine ⟨cyclesRun s.free b.words.length, h1, hk, fun i w hi hr => ?_, fun a ha => ?_⟩
  all_goals
    have hmem : (cutBurst s).mem = s.mem.writeWords (b.addr + 2 * cyclesRun s.free b.words.length)
        (b.replaced.drop (cyclesRun s.free b.words.length)) := by simp [cutBurst, hp, hw]
    rw [hmem]
  · obtain ⟨hlt, hget⟩ := List.getElem?_eq_some_iff.1 hr
    have hd : i - cyclesRun s.free b.words.length < (b.replaced.drop (cyclesRun s.free b.words.length)).length := by
      rw [List.length_drop]
      omega
    have := Memory.readWord_writeWords _ s.mem (b.addr + 2 * cyclesRun s.free b.words.length) _ hm hd
    rw [List.getElem_drop] at this
    rw [show b.addr + 2 * i = b.addr + 2 * cyclesRun s.free b.words.length
      + 2 * (i - cyclesRun s.free b.words.length) by omega, this, ← hget]
    congr 1
    omega
  · apply Memory.read_writeWords_ne
    rw [List.length_drop]
    omega

/-- An access carried unchanged changes memory, the word read and the counter of free values alone (R1). -/
theorem rawCarry_eq (a : HostAccess) (s : State) :
    rawCarry a s = { s with
      mem := (rawCarry a s).mem, readData := (rawCarry a s).readData, free := (rawCarry a s).free } := by
  apply State.ext_fields <;> simp

/-- The port's state plays no part in an access carried unchanged. -/
theorem rawCarry_updAgent (a : HostAccess) (g : Agent → Agent) (s : State) :
    rawCarry a (updAgent g s) = updAgent g (rawCarry a s) := by
  by_cases hf : fittedBytes s.strap ≤ accessAddr a <;> by_cases hw : a.isWrite = true
  · simp [rawCarry, hf, hw]
  · simp [rawCarry, updAgent, hf, hw]
  · simp [rawCarry, updAgent, hf, hw]
  · by_cases hl : a.lanes = .full <;> simp [rawCarry, updAgent, hf, hw, hl]

/-- What an access carried unchanged does to memory and to the word read (R1; above the memory fitted, log 5). -/
structure CarriedUnchanged (a : HostAccess) (s t : State) : Prop where
  read : a.isWrite = false → (∀ x, t.mem.read x = s.mem.read x)
    ∧ (accessAddr a < fittedBytes s.strap →
        (a.lanes.lo = true → t.readData.extractLsb' 0 8 = s.mem.read (accessAddr a))
          ∧ (a.lanes.hi = true → t.readData.extractLsb' 8 8 = s.mem.read (accessAddr a + 1)))
  write : a.isWrite = true → t.readData = s.readData
    ∧ (fittedBytes s.strap ≤ accessAddr a → ∀ x, t.mem.read x = s.mem.read x)
    ∧ (accessAddr a < fittedBytes s.strap → ∀ x, t.mem.read x =
        if a.lanes.lo = true ∧ x = accessAddr a then a.data.extractLsb' 0 8
        else if a.lanes.hi = true ∧ x = accessAddr a + 1 then a.data.extractLsb' 8 8
        else s.mem.read x)

theorem rawCarry_unchanged (a : HostAccess) (s : State) (hm : MemoryCanonical s) :
    CarriedUnchanged a s (rawCarry a s) := by
  refine ⟨fun h => ⟨fun x => by rw [rawCarry_read a s h], fun hf => ?_⟩, fun h => ⟨?_, fun hf x => ?_, fun hf x => ?_⟩⟩
  · exact (rawCarry_read_lanes a s h hf).2
  · simp only [rawCarry, h, if_true]
    split <;> rfl
  · rw [rawCarry, if_pos hf, if_pos h]
  · rw [rawCarry_write_eq a s h hf]
    exact Memory.read_writeLanes _ _ _ _ _ hm

/-- A held access that is released with RSTN low is carried unchanged (R2). -/
theorem releaseHeld_low (s : State) (h : HeldAccess) (hh : s.agent.held = some h) (hr : s.rstnLow = true) :
    releaseHeld s = { s with
        mem := (rawCarry h.access s).mem, readData := (rawCarry h.access s).readData,
        free := (rawCarry h.access s).free,
        agent := { s.agent with
          port := if h.whole = true then .free else .host, held := none,
          lastPart := if h.whole = true then false else s.agent.lastPart } } := by
  have hcarry : ∀ g, hostCarry h.access (updAgent g s) =
      { s with
        mem := (rawCarry h.access s).mem, readData := (rawCarry h.access s).readData,
        free := (rawCarry h.access s).free, agent := g s.agent } := by
    intro g
    rw [hostCarry_low _ _ (show (updAgent g s).rstnLow = true from hr)]
    rw [rawCarry_updAgent]
    conv_lhs => rw [rawCarry_eq]
    rfl
  have hhost : hostCarry h.access (setPort .host (updAgent (fun g => { g with held := none }) s)) = _ :=
    hcarry fun g => { g with port := .host, held := none }
  simp only [releaseHeld, hh, takePort]
  split
  · rw [hcarry]
    rfl
  · exact hhost

/-- Settles O4: the cut of the burst, then the held access carried unchanged. -/
theorem resetPinFallsCutsBurst : Obligations.ResetPinFallsCutsBurst := by
  unfold Obligations.ResetPinFallsCutsBurst
  intro s hm
  have hlow : (resetFall s).rstnLow = true := by simp [resetFall]
  refine ⟨resetFall s, rfl, hlow, fun m => by simp [ampEnabled, hlow], fun ch => by simp [linkOut, linksLow, hlow],
    by simp [attentionLow, hlow], by simp [waitLow, hlow], fun n => ftxLevel_low _ n hlow, fun hheld => ?_,
    fun h hheld hlen => ?_⟩
  · have hrel : resetFall s = { cutBurst s with rstnLow := true } := by
      have : (cutBurst s).agent.held = none := by rw [cutBurst_eq]; exact hheld
      simp [resetFall, releaseHeld, this]
    rw [hrel]
    refine ⟨?_, fun hr a => by rw [← cutBurst_mem_read s hr], fun b hp hw hne hl => cutBurst_write s b hm hp hw hne hl⟩
    rw [cutBurst_eq]
    rfl
  · obtain ⟨u, hu⟩ : ∃ u : State, u = { cutBurst s with rstnLow := true } := ⟨_, rfl⟩
    have hagent : u.agent = { s.agent with port := portCut s.agent.port } := by rw [hu, cutBurst_eq]
    have hmem : u.mem = (cutBurst s).mem := by rw [hu]
    have hrel : resetFall s = releaseHeld u := by rw [hu]; rfl
    obtain ⟨hread, hwrite⟩ := rawCarry_unchanged h.access u (show u.mem.wf = true from hmem ▸ cutBurst_canonical s hm)
    rw [show u.strap = s.strap by rw [hu]; simp, hmem] at hread hwrite
    rw [show u.readData = s.readData by rw [hu]; simp] at hwrite
    rw [hrel, releaseHeld_low u h (by rw [hagent]; exact hheld) (by rw [hu])]
    refine ⟨?_, (cutBurst s).mem.read, fun hr a => by rw [cutBurst_mem_read s hr], fun b hp hw hne => ?_, hread, hwrite⟩
    · apply State.ext_fields <;> simp [hagent] <;> simp [hu]
    · obtain ⟨k, h1, hk, hwords, hbytes⟩ := cutBurst_write s b hm hp hw hne (hlen b hp hw)
      refine ⟨k, h1, hk, fun i w hi hr => ?_, hbytes⟩
      rw [← hwords i w hi hr]
      exact ⟨(readWord_bytes _ _).1.symm, (readWord_bytes _ _).2.symm⟩

/-! ### RSTN rises (R21) -/

/-- Settles O5, by the definition of the reset state. -/
theorem resetPinRisesRestoresReset : Obligations.ResetPinRisesRestoresReset := by
  unfold Obligations.ResetPinRisesRestoresReset
  intro aps1 aps0 s
  refine ⟨resetRise aps1 aps0 s, rfl, rfl, fun l => ?_, rfl, fun m => ?_, fun a => rfl⟩
  · simp [resetRise, State.reset, SaState.restart]
  · simp [resetRise, State.reset, ModuleRec.reset]

/-! ### The knob's filters (R104) -/

theorem expire_namesA (x : Contact) (ps : KnobPins) :
    x.expire (expiryNamesA ps)
      = if ps ≠ .knb ∧ x.timer = true then { x with timer := false, taken := some x.pin } else x := by
  cases ps <;> simp [Contact.expire, expiryNamesA]

theorem expire_namesB (x : Contact) (ps : KnobPins) :
    x.expire (expiryNamesB ps)
      = if ps ≠ .kna ∧ x.timer = true then { x with timer := false, taken := some x.pin } else x := by
  cases ps <;> simp [Contact.expire, expiryNamesB]

/-- No record shows the knob's contacts. -/
theorem publish_knob (s : State) (k : Knob) : publish s { s with knob := k } = { s with knob := k } :=
  publish_same _ _ rfl rfl rfl rfl rfl rfl rfl rfl rfl rfl rfl rfl rfl rfl

/-- Settles O47, by the pins' filters and the pair they give. -/
theorem knobFiltersTakeTheFirstPair : Obligations.KnobFiltersTakeTheFirstPair := by
  unfold Obligations.KnobFiltersTakeTheFirstPair
  refine ⟨fun level s => ⟨fun h => ?_, fun h => ?_, fun h => ?_, fun h => ?_⟩, fun ps s hr => ?_⟩
  · exact congrArg Host.Outcome.next (by simp [knobChange, Contact.change, h])
  · exact congrArg Host.Outcome.next (by simp [knobChange, Contact.change, h])
  · exact congrArg Host.Outcome.next (by simp [knobChange, Contact.change, h])
  · exact congrArg Host.Outcome.next (by simp [knobChange, Contact.change, h])
  · intro a b a' b'
    have ha : s.knob.a.expire (expiryNamesA ps) = a' := expire_namesA _ _
    have hb : s.knob.b.expire (expiryNamesB ps) = b' := expire_namesB _ _
    have hexec : exec (.knobFilterExpiry ps) s = .next (publish s (knobExpiry ps s)) := act_high _ s hr
    clear_value a' b'
    refine ⟨fun hruns => ?_, fun hruns hnone => ?_, fun hruns href x y hx hy => ?_⟩
    · rw [hexec, knobExpiry, if_neg (by simp [hruns])]
      exact congrArg Host.Outcome.next (publish_knob s s.knob)
    · have hpair : Knob.pair { s.knob with a := a', b := b' } = none := by
        rcases hnone with h | h <;> simp [Knob.pair, h]
      rw [hexec, knobExpiry, if_pos hruns, ha, hb]
      simp only [hpair, publish_knob]
    · have hpair : Knob.pair { s.knob with a := a', b := b' } = some (x, y) := by simp [Knob.pair, hx, hy]
      rw [hexec, knobExpiry, if_pos hruns, ha, hb]
      simp only [hpair]
      simp only [href, publish_knob]

end Sys2Proof.Machine

end

/-! Host accesses at the port (R12, R21), the write filter (R3 to R8) and the slots that hold a setting. -/

section

set_option autoImplicit false

namespace Sys2Proof.Machine

/-! ### Accesses held on WAITN (R12, R21) -/

/-- A host access is held behind a burst, a restore pass that holds it, or the part's turn (R12, R21). -/
theorem offerAccess_held (a : HostAccess) (whole : Bool) (s : State) (hr : s.rstnLow = false)
    (hh : s.agent.held = none)
    (h : (∃ b, s.agent.port = .part b)
      ∨ (s.agent.port = .free ∧ (restoreHolds s a = true ∨ partsTurn s = true))) :
    offerAccess a whole s = holdAccess a whole s := by
  have hbusy : hostBusy s = false := by
    rcases h with ⟨b, hb⟩ | ⟨hf, -⟩
    · simp [hostBusy, hb, hh]
    · simp [hostBusy, hf, hh]
  simp only [offerAccess, hbusy, hr, Bool.false_eq_true, if_false]
  split
  · rfl
  · rename_i hno
    rcases h with ⟨b, hb⟩ | ⟨hf, hrest | hturn⟩
    · simp [hb]
    · exact absurd hrest hno
    · simp [hf, hturn]

/-- A held access shows on WAITN, and no record shows it (R12). -/
theorem access_held (f : State → State) (a : HostAccess) (whole : Bool) (s : State) (hr : s.rstnLow = false)
    (h : f s = holdAccess a whole s) :
    ∃ t, access f s = .next t ∧ waitLow t = true
      ∧ t = { s with agent := { s.agent with held := some ⟨a, whole⟩ } } := by
  refine ⟨holdAccess a whole s, ?_, by simp [waitLow, holdAccess, hr], rfl⟩
  rw [access_high _ _ hr, h]
  exact congrArg Host.Outcome.next (publish_same _ _ rfl rfl rfl rfl rfl rfl rfl rfl rfl rfl rfl rfl rfl rfl)

/-- A restore pass holds an access to the control region or the report area (R21). -/
theorem restoreHolds_of_offset (s : State) (a : HostAccess) (off : Nat) (hr : s.agent.restore.isSome = true)
    (ho : accessOffset s a = some off) (h : off < 0x1000) : restoreHolds s a = true := by
  simp [restoreHolds, hr, ho, reportEnd, h]

/-- A restore pass that does not run, or an access beside the two regions, holds nothing back. -/
theorem restoreHolds_of_mayGo (s : State) (a : HostAccess) (h : MayGo s a) : restoreHolds s a = false := by
  rcases h with h | h
  · simp [restoreHolds, h]
  · unfold restoreHolds
    split
    · rename_i off ho
      have hout : ¬off < reportEnd := not_lt.2 (h off ho)
      rw [decide_eq_false hout, Bool.and_false]
    · rw [Bool.and_false]

/-- Settles O7, for a write row and for a single access alike. -/
theorem hostAccessHeldOnWait : Obligations.HostAccessHeldOnWait := by
  unfold Obligations.HostAccessHeldOnWait
  refine ⟨fun i sl lanes v s hi hr hh h => ?_, fun a s hr hh h => ?_⟩
  · have hoff : accessOffset s (slotAccess s sl.offset lanes v) = some sl.offset :=
      accessOffset_slotAccess s sl.offset lanes v (by have := offset_lt sl; omega) (offset_even sl)
    rw [exec_writeRow i sl lanes v s hi]
    refine access_held (hostWrite sl.offset lanes v) _ true s hr (offerAccess_held _ true s hr hh (h.imp_right fun ⟨hf, hor⟩ => ⟨hf, ?_⟩))
    exact hor.imp_left fun hrest =>
      restoreHolds_of_offset s _ _ hrest hoff (by have := offset_lt sl; omega)
  · refine access_held (beginAccess a) a false s hr (offerAccess_held _ false s hr hh (h.imp_right fun ⟨hf, hor⟩ => ⟨hf, ?_⟩))
    exact hor.imp_left fun ⟨hrest, off, ho, hlt⟩ => restoreHolds_of_offset s a off hrest ho hlt

/-! ### Words that no slot has (R3) -/

/-- At an open port a host write is carried in one step. -/
theorem hostWrite_open (off : Nat) (lanes : Lanes) (v : Word) (s : State) (h : PortOpen s) (hlt : off < 0x10000)
    (he : off % 2 = 0) :
    access (hostWrite off lanes v) s =
      .next (publish s (updAgent (fun g => { g with port := .free, lastPart := false })
        (applyVerdict (slotAccess s off lanes v) off (judge s off lanes v) (reportWrite off s)))) := by
  obtain ⟨h1, h2, h3, h4, h5⟩ := h
  have ho := accessOffset_slotAccess s off lanes v hlt he
  have hb : hostBusy s = false := by simp [hostBusy, h2, h3]
  have hr : restoreHolds s (slotAccess s off lanes v) = false := by simp [restoreHolds, h4]
  have hc : hostCarry (slotAccess s off lanes v) s =
      applyVerdict (slotAccess s off lanes v) off (judge s off lanes v) (reportWrite off s) := by
    unfold hostCarry
    rw [ho]
    simp only [h1, slotAccess_isWrite, Bool.not_true, Bool.or_self, Bool.false_eq_true, if_false,
      slotAccess_lanes, slotAccess_data]
  have hw : hostWrite off lanes v s = takePort (slotAccess s off lanes v) true s := by
    unfold hostWrite offerAccess
    simp only [hb, h1, hr, h2, h5, Bool.false_eq_true, if_false]
  rw [access_high _ _ h1, hw, takePort, if_pos rfl, hc]

/-- A report of a control-region write other than to SETUP_LOCK relocks a PENDING lock (R138). -/
theorem reportWrite_control (off : Nat) (s : State) (hlt : off < 0x400) (hne : off ≠ Slot.setupLock.offset) :
    reportWrite off s = { s with
      lock := if s.lock = .pending then .locked else s.lock
      agent := { s.agent with
        queue := queueWith s.agent.queue (if s.lock = .pending then [.setupLock] else []) } } := by
  rw [reportWrite, if_pos ⟨hlt, hne⟩, relock]
  split
  · rw [requestWriteBack_eq]
    rfl
  · rfl

/-- Settles O8: the filter lets the access through, and its report relocks. -/
theorem unassignedWordWriteCarried : Obligations.UnassignedWordWriteCarried := by
  unfold Obligations.UnassignedWordWriteCarried
  intro off lanes v s h hm hlt he hslot
  have hne : off.toNat ≠ Slot.setupLock.offset := fun e => by simp [e] at hslot
  have haddr := accessAddr_slotAccess s off.toNat lanes v (by omega) he
  have hfit : accessAddr (slotAccess s off.toNat lanes v) < fittedBytes s.strap := by
    have := apertureBase_add s
    omega
  have hj : judge s off.toNat lanes v = .through := by
    rw [judge, hslot]
    exact if_neg fun hr => absurd hr.1 (by simp only [reportStart]; omega)
  refine ⟨_, hostWrite_open off.toNat lanes v s h (by omega) he, ?_⟩
  rw [hj, applyVerdict, rawCarry_write_eq _ _ rfl (by rw [(reportWrite_fields _ _).2.2.1]; exact hfit),
    reportWrite_control off.toNat s hlt hne, haddr, slotAccess_lanes, slotAccess_data]
  generalize hy : updAgent (fun g => { g with port := .free, lastPart := false }) _ = y
  have hpub : publish s y = { y with dirty := (publish s y).dirty } := by
    have e := publish_eq s y
    rwa [publish_att s y (by rw [← hy]; rfl)] at e
  refine ⟨?_, SetsMarks.exact [] s y (.same s y (by rw [← hy]; rfl)) (by rw [← hy]; exact id), fun a => ?_⟩
  · rw [hpub, ← hy]
    simp only [updAgent, h.free]
  · rw [hpub, ← hy]
    exact Memory.read_writeLanes s.mem _ _ _ _ hm

end Sys2Proof.Machine

end

/-! The filter's blocks in their order (R5, R7), and the slots that hold a setting (R18, R19, R36, R137). -/

section

set_option autoImplicit false

namespace Sys2Proof.Machine

/-! ### The filter's blocks (R5, R7) -/

/-- A word outside a slot's values is not carried (R5, checks 5 to 7). -/
theorem filterValue_of_blocked (s : State) (sl : Slot) (v : Word) (h : valueBlocked s sl v) :
    filterValue s sl v = none := by
  have hmembers : ∀ ns : List Nat, v.toNat ∉ ns → members ns v = none := fun ns hns => if_neg hns
  cases sl with
  | entry n k =>
    match k with
    | 0 =>
      refine if_neg fun hc => ?_
      simp only [field] at hc
      obtain ⟨h1, h2, h3, h4⟩ := hc
      rcases h with h | h | h | h
      · exact h h1
      all_goals omega
    | 1 | 2 => exact absurd h id
    | 3 =>
      refine if_neg fun hc => ?_
      simp only [field] at hc
      obtain ⟨h1, h2, h3, h4⟩ := hc
      rcases h with h | h | h | h
      · exact h h1
      all_goals omega
  | desc m d =>
    cases d with
    | baseLo => exact if_pos h
    | baseHi => exact if_neg (Nat.not_le.2 h)
    | size => exact absurd h id
    | channels => exact hmembers [2, 8] (by simpa [valueBlocked] using h)
    | width => exact hmembers [16, 24] (by simpa [valueBlocked] using h)
    | rate => exact hmembers [0, 1, 2] (by simp only [valueBlocked] at h; simp; omega)
  | speaker p =>
    cases p <;> simp only [valueBlocked] at h
    case frontSize => rw [filterValue, filterSpeaker, hmembers [0, 1] (by simp; omega)]; rfl
    case back => rw [filterValue, filterSpeaker, hmembers [0, 1, 2] (by simp; omega)]; rfl
    all_goals exact hmembers _ (by simp; omega)
  | attnEnable | attnAck => exact if_neg h
  | fill m => exact if_neg (Nat.not_lt.2 h)
  | knobZone | source _ | mute _ | moduleEn _ | format _ | region | band | afFollow | fadeRate _ | decodeMode
  | steerSpeed =>
    simp only [valueBlocked] at h
    exact hmembers _ (by simp; omega)
  | knobStep | waitLimit _ | lipsync _ | dist _ | seqLen | code | seekThr | blendThr | afThr | feDivisor | volume _
  | srcTrim _ | trim _ | maxVolume _ | systemCmd | streamCmd _ | moduleCmd | measureCmd | tunerCmd | setupLock =>
    exact absurd h id

theorem stateForbids_iff (s : State) (sl : Slot) : stateForbids s sl = true ↔ stateBlocked s sl := by
  cases sl <;> simp [stateForbids, stateBlocked, Reader.active]

/-- No lockable slot has a check of its owner's state (R5, check 4). -/
theorem not_lockable_of_stateBlocked (s : State) (sl : Slot) (h : stateBlocked s sl) : sl.isLockable = false := by
  cases sl with
  | desc m d => rfl
  | region => rfl
  | _ => exact absurd h id

theorem judgeSlot_state (s : State) (sl : Slot) (v : Word) (h : stateBlocked s sl) :
    judgeSlot s sl .full v = .blocked .state := by
  rw [judgeSlot, if_neg fun hl => hl rfl, not_lockable_of_stateBlocked s sl h, Bool.false_and, if_neg Bool.false_ne_true,
    if_pos ((stateForbids_iff s sl).2 h)]

theorem stateForbids_false (s : State) (sl : Slot) (h : ¬stateBlocked s sl) : stateForbids s sl = false :=
  Bool.eq_false_iff.2 fun hf => h ((stateForbids_iff s sl).1 hf)

/-- No slot lies in the report area (R192). -/
theorem slotAt_report (off : Nat) (h : 0x400 ≤ off) : slotAt off = none := by
  rcases hs : slotAt off with _ | sl
  · rfl
  · have := slotAt_some off sl hs
    have := offset_lt sl
    omega

/-- Settles O9, by the verdict of each check. -/
theorem filterBlocksInOrder : Obligations.FilterBlocksInOrder := by
  unfold Obligations.FilterBlocksInOrder
  refine ⟨fun i sl lanes v s hi h => ?_, fun off lanes v s h hlo hhi he => ?_⟩
  · rw [exec_writeRow i sl lanes v s hi]
    refine ⟨fun hl => ?_, fun hl hlock hs => ?_, fun hl hst => ?_, fun hl hlock hst hv => ?_⟩
    · exact writeBlocked_row sl lanes v .partialWrite s h (judgeSlot_partial s sl lanes v hl)
    · subst hl
      exact writeBlocked_row sl _ v .locked s h (judgeSlot_locked s sl v hlock hs)
    · subst hl
      exact writeBlocked_row sl _ v .state s h (judgeSlot_state s sl v hst)
    · subst hl
      refine writeBlocked_row sl _ v .value s h ?_
      rw [judgeSlot_value s sl v hlock (stateForbids_false s sl hst), filterValue_of_blocked s sl v hv]
  · have hj : judge s off.toNat lanes v = .blocked .partOwned := by
      rw [judge, slotAt_report off.toNat hlo]
      exact if_pos ⟨hlo, hhi⟩
    have hrep : reportWrite off.toNat s = s := by
      rw [reportWrite]
      exact if_neg fun hr => absurd hr.1 (Nat.not_lt.2 hlo)
    refine ⟨_, hostWrite_open off.toNat lanes v s h (by omega) he, ?_⟩
    rw [hj, hrep, applyVerdict]
    generalize hy : updAgent (fun g => { g with port := .free, lastPart := false })
      (blockWrite off.toNat .partOwned s) = y
    have hyatt : y.att = { s.att with
        pending := s.att.pending ||| 0x0001#16, blockOffset := off, blockReason := .partOwned } := by
      rw [← hy]
      simp [blockWrite, numWord, causeMask, causeBit]
    have hpub : publish s y = { y with dirty := (publish s y).dirty } := by
      have e := publish_eq s y
      rwa [publish_att s y (by rw [← hy]; simp [blockWrite])] at e
    refine ⟨?_, ?_, fun a => ?_⟩
    · rw [hpub]
      apply State.ext_fields <;> simp [hyatt] <;> simp [← hy, h.free]
    · intro x
      rw [mem_publish_dirty _ _ (by rw [← hy]; simp), ← hy, updAgent_dirty, mem_blockWrite_dirty, or_assoc]
    · rw [hpub, ← hy]
      simp

/-! ### Attention and the lock (R18, R19, R137) -/

/-- Two words share a set bit exactly when their conjunction is not 0. -/
theorem and_ne_zero_iff (x y : Word) :
    x &&& y ≠ 0 ↔ ∃ k, k < 16 ∧ x.getLsbD k = true ∧ y.getLsbD k = true := by
  refine ⟨fun h => ?_, fun ⟨k, hk, hx, hy⟩ h => ?_⟩
  · by_contra hno
    refine h (BitVec.eq_of_getLsbD_eq fun k hk => ?_)
    rw [BitVec.getLsbD_and, show (0 : Word).getLsbD k = false from BitVec.getLsbD_zero, Bool.and_eq_false_iff]
    by_contra hboth
    rw [not_or, Bool.not_eq_false, Bool.not_eq_false] at hboth
    exact hno ⟨k, hk, hboth⟩
  · have := congrArg (BitVec.getLsbD · k) h
    simp [hx, hy] at this

/-- A further write-back request joins those of a write. -/
theorem queueAfter_one (s : State) (sl x : Slot) :
    queueAfter s sl [x] =
      if x ∈ queueAfter s sl [] then queueAfter s sl [] else queueAfter s sl [] ++ [x] := by
  simp [queueAfter, queueWith, List.foldl_append]

/-- A taken write whose owner's action asks for one write-back: `u` without the request. -/
theorem writeTaken_of_request (sl x : Slot) (lanes : Lanes) (v w : Word) (s u : State) (h : PortOpen s)
    (hm : MemoryCanonical s) (hj : judgeSlot s sl lanes v = .arrives sl w)
    (ha : ∀ (m : Memory) (q : List Slot) (l : SetupLock), l = lockAfter s sl s.lock →
      arrive sl w { s with mem := m, lock := l, agent := { s.agent with queue := q } } =
        requestWriteBack x { u with mem := m, lock := lockAfter s sl u.lock, agent := { u.agent with queue := q } })
    (hu : u.agent = s.agent) (hsd : u.sd = s.sd) (hd : u.dirty = s.dirty) :
    ∃ t, slotRow sl lanes v s = .next t ∧ WriteTaken sl w [x] [] s u t := by
  refine writeTaken_of_arrive sl lanes v w [x] [] s u h hm hj ?_ hu hsd ?_
  · intro y hy
    rw [reportWrite_offset] at hy
    subst hy
    rw [ha _ _ _ rfl, requestWriteBack_eq, queueAfter_one]
  · intro y hy r
    rw [reportWrite_offset] at hy
    subst hy
    rw [ha _ _ _ rfl]
    simp [hd]

/-- A taken write whose owner's action is an update that takes the lock the report has left. -/
theorem writeTaken_of_lock (sl : Slot) (lanes : Lanes) (v w : Word) (s u : State) (h : PortOpen s)
    (hm : MemoryCanonical s) (hj : judgeSlot s sl lanes v = .arrives sl w)
    (ha : ∀ (m : Memory) (q : List Slot) (l : SetupLock), l = lockAfter s sl s.lock →
      arrive sl w { s with mem := m, lock := l, agent := { s.agent with queue := q } } =
        { u with mem := m, lock := lockAfter s sl u.lock, agent := { u.agent with queue := q } })
    (hu : u.agent = s.agent) (hsd : u.sd = s.sd) (hd : u.dirty = s.dirty) :
    ∃ t, slotRow sl lanes v s = .next t ∧ WriteTaken sl w [] [] s u t := by
  refine writeTaken_of_arrive sl lanes v w [] [] s u h hm hj ?_ hu hsd ?_
  · intro y hy
    rw [reportWrite_offset] at hy
    subst hy
    rw [ha _ _ _ rfl]
  · intro y hy r
    rw [reportWrite_offset] at hy
    subst hy
    rw [ha _ _ _ rfl]
    simp [hd]

/-- A write to SETUP_LOCK leaves the lock to its table (R138). -/
theorem lockAfter_setupLock (s : State) (l : SetupLock) : lockAfter s .setupLock l = l :=
  if_neg fun h => h.2 rfl

/-- SETUP_LOCK with its write-back (R137). -/
theorem setupLock_requests (v : Word) (s : State) (h : PortOpen s) (hm : MemoryCanonical s)
    (hne : v ≠ lockWord (lockNext s.lock v)) :
    ∃ t, exec (.setupLockWrite .full v) s = .next t
      ∧ WriteTaken .setupLock v [.setupLock] [] s { s with lock := lockNext s.lock v } t := by
  refine writeTaken_of_request .setupLock .setupLock .full v v s _ h hm
    (judgeSlot_arrives s _ v v nofun rfl rfl) (fun m q l hl => ?_) rfl rfl rfl
  rw [lockAfter_setupLock] at hl
  simp only [arrive, setupLockArrival, hl, hne, if_false, lockAfter_setupLock]

/-- SETUP_LOCK with a word that is the new state's own (R137). -/
theorem setupLock_plain (v : Word) (s : State) (h : PortOpen s) (hm : MemoryCanonical s)
    (heq : v = lockWord (lockNext s.lock v)) :
    ∃ t, exec (.setupLockWrite .full v) s = .next t
      ∧ WriteTaken .setupLock v [] [] s { s with lock := lockNext s.lock v } t := by
  refine writeTaken_of_lock .setupLock .full v v s _ h hm
    (judgeSlot_arrives s _ v v nofun rfl rfl) (fun m q l hl => ?_) rfl rfl rfl
  rw [lockAfter_setupLock] at hl
  simp only [arrive, setupLockArrival, hl, lockAfter_setupLock]
  exact if_pos heq

/-- Settles O11, by the lock's table and the two arrivals. -/
theorem ackAndLockWritesFollowTheirRules : Obligations.AckAndLockWritesFollowTheirRules := by
  unfold Obligations.AckAndLockWritesFollowTheirRules
  refine ⟨fun s => ?_, fun v s h hm => ⟨fun hv => ?_, fun hv hl => ?_, fun hv hl => ?_, fun hv => ?_, fun h0 h1 => ?_⟩⟩
  · rw [← and_ne_zero_iff]
    simp [attentionLow]
  · exact writeTaken_of_request .attnAck .attnAck .full v v s _ h hm
      (judgeSlot_arrives s _ v v nofun rfl (if_pos hv)) (fun m q l hl => by subst hl; rfl) rfl rfl rfl
  · subst hv
    have hnext : lockNext s.lock 0 = .pending := by simp [lockNext, hl]
    exact hnext ▸ setupLock_requests 0 s h hm (by rw [hnext]; decide)
  · subst hv
    have hnext : lockNext s.lock 0 = .unlocked := by
      rcases hs : s.lock
      · rfl
      · exact absurd hs hl
      · rfl
    exact hnext ▸ setupLock_plain 0 s h hm (by rw [hnext]; decide)
  · subst hv
    have hnext : lockNext s.lock 1 = .locked := by simp [lockNext]
    exact hnext ▸ setupLock_plain 1 s h hm (by rw [hnext]; decide)
  · have hnext : lockNext s.lock v = .locked := if_neg h0
    exact hnext ▸ setupLock_requests v s h hm (by rw [hnext]; exact h1)

end Sys2Proof.Machine

end

/-! The slots that hold a setting and act on nothing else (R19, R36, R37, R54, R67, R90, R100, R107, R155, R172). -/

section

set_option autoImplicit false

namespace Sys2Proof.Machine

theorem numWord_toNat (n : Nat) (h : n < 0x10000) : (numWord n).toNat = n := by
  simp [numWord, Nat.mod_eq_of_lt h]

theorem levelWord_toInt (x : Int) (hlo : -32768 ≤ x) (hhi : x < 32768) : (levelWord x).toInt = x := by
  rw [levelWord, BitVec.toInt_ofInt]
  exact Int.bmod_eq_of_le (by simpa using hlo) (by simpa using hhi)

theorem clampNat_le (lo hi x : Nat) (h : lo ≤ hi) : clampNat lo hi x ≤ hi := by
  unfold clampNat
  (repeat' split) <;> omega

theorem clampInt_bounds (lo hi x : Int) (h : lo ≤ hi) : lo ≤ clampInt lo hi x ∧ clampInt lo hi x ≤ hi := by
  unfold clampInt
  (repeat' split) <;> omega

/-- A range without an upper end that a word can pass clamps at its lower end alone. -/
theorem clampNat_low (lo : Nat) (v : Word) : clampNat lo 65535 v.toNat = max lo v.toNat := by
  have := v.isLt
  unfold clampNat
  (repeat' split) <;> omega

/-- A range from 0 clamps at its upper end alone. -/
theorem clampNat_zero (hi x : Nat) : clampNat 0 hi x = min hi x := by
  unfold clampNat
  (repeat' split) <;> omega

/-- A write that the filter lets through to an owner that takes the word as a setting. -/
theorem settingTaken (sl : Slot) (v w : Word) (s u : State) (h : PortOpen s) (hm : MemoryCanonical s)
    (hlock : sl.isLockable = false) (hst : stateForbids s sl = false) (hf : filterValue s sl v = some w)
    (ha : ∀ (m : Memory) (q : List Slot) (l : SetupLock),
      arrive sl w { s with mem := m, lock := l, agent := { s.agent with queue := q } } =
        { u with mem := m, lock := l, agent := { u.agent with queue := q } })
    (hu : u.agent = s.agent) (hl : u.lock = s.lock) (hsd : u.sd = s.sd) (hd : u.dirty = s.dirty) :
    ∃ t, slotRow sl .full v s = .next t ∧ WriteTaken sl w [] [] s u t :=
  writeTaken_of_update sl .full v w s u h hm
    (judgeSlot_arrives s sl v w (fun hc => by simp [hlock] at hc) hst hf) ha hu hl hsd hd

/-- Settles O12, slot by slot: what the filter carries, and the owner's update. -/
theorem settingWritesTakeTheWord : Obligations.SettingWritesTakeTheWord := by
  unfold Obligations.SettingWritesTakeTheWord
  intro v s h hm
  have hnum : ∀ lo hi, lo ≤ hi → hi ≤ 65535 → (numWord (clampNat lo hi v.toNat)).toNat = clampNat lo hi v.toNat :=
    fun lo hi hlh hhi => numWord_toNat _ (by have := clampNat_le lo hi v.toNat hlh; omega)
  have htrim : (levelWord (clampInt (-48) 48 v.toInt)).toInt = clampInt (-48) 48 v.toInt := by
    obtain ⟨h1, h2⟩ := clampInt_bounds (-48) 48 v.toInt (by decide)
    exact levelWord_toInt _ (by omega) (by omega)
  have hthr := hnum 0 1023 (by decide) (by decide)
  rw [clampNat_zero] at hthr
  refine ⟨fun hv => ?enable, fun z hv => ?rate, fun sp hv => ?speed, fun z on hv => ?mute, fun m hv => ?fill, ?divisor,
    fun z hv => ?zone, ?step, fun src off hoff => ?srcTrim, fun ch off hoff => ?trim, ?seek, ?blend, ?af⟩
  case enable =>
    exact settingTaken .attnEnable v v s _ h hm rfl rfl (if_pos hv) (fun _ _ _ => rfl) rfl rfl rfl rfl
  case rate =>
    exact settingTaken (.fadeRate z) v v s _ h hm rfl rfl (members_mem _ v hv) (fun _ _ _ => rfl) rfl rfl rfl rfl
  case speed =>
    refine settingTaken .steerSpeed v v s _ h hm rfl rfl ?_ (fun _ _ _ => ?_) rfl rfl rfl rfl
    all_goals simp only [List.mem_cons, Prod.mk.injEq, List.not_mem_nil, or_false] at hv
    · rcases hv with ⟨rfl, -⟩ | ⟨rfl, -⟩ | ⟨rfl, -⟩ <;> rfl
    · rcases hv with ⟨rfl, rfl⟩ | ⟨rfl, rfl⟩ | ⟨rfl, rfl⟩ <;> rfl
  case mute =>
    refine settingTaken (.mute z) v v s _ h hm rfl rfl ?_ (fun _ _ _ => ?_) rfl rfl rfl rfl
    all_goals simp only [List.mem_cons, Prod.mk.injEq, List.not_mem_nil, or_false] at hv
    · rcases hv with ⟨rfl, -⟩ | ⟨rfl, -⟩ <;> rfl
    · rcases hv with ⟨rfl, rfl⟩ | ⟨rfl, rfl⟩ <;> rfl
  case fill =>
    exact settingTaken (.fill m) v v s _ h hm rfl rfl (if_pos hv) (fun _ _ _ => rfl) rfl rfl rfl rfl
  case divisor =>
    have hw := hnum 2 65535 (by decide) (by decide)
    rw [← clampNat_low]
    refine settingTaken .feDivisor v _ s _ h hm rfl rfl rfl (fun _ _ _ => ?_) rfl rfl rfl rfl
    simp only [arrive, hw]
    rfl
  case zone =>
    refine settingTaken .knobZone v v s _ h hm rfl rfl ?_ (fun _ _ _ => ?_) rfl rfl rfl rfl
    all_goals simp only [List.mem_cons, Prod.mk.injEq, List.not_mem_nil, or_false] at hv
    · rcases hv with ⟨rfl, -⟩ | ⟨rfl, -⟩ <;> rfl
    · rcases hv with ⟨rfl, rfl⟩ | ⟨rfl, rfl⟩ <;> rfl
  case step =>
    have hw := hnum 1 8 (by decide) (by decide)
    refine settingTaken .knobStep v _ s _ h hm rfl rfl rfl (fun _ _ _ => ?_) rfl rfl rfl rfl
    simp only [arrive, hw]
    rfl
  case srcTrim =>
    rw [exec_writeRow _ _ _ _ s hoff]
    refine settingTaken (.srcTrim src) v _ s _ h hm rfl rfl rfl (fun _ _ _ => ?_) rfl rfl rfl rfl
    simp only [arrive, htrim]
    rfl
  case trim =>
    rw [exec_writeRow _ _ _ _ s hoff]
    refine settingTaken (.trim ch) v _ s _ h hm rfl rfl rfl (fun _ _ _ => ?_) rfl rfl rfl rfl
    simp only [arrive, htrim]
    rfl
  case seek =>
    refine settingTaken .seekThr v _ s _ h hm rfl rfl (by rw [← clampNat_zero]; rfl) (fun _ _ _ => ?_) rfl rfl rfl rfl
    simp only [arrive, hthr]
    rfl
  case blend =>
    refine settingTaken .blendThr v _ s _ h hm rfl rfl (by rw [← clampNat_zero]; rfl) (fun _ _ _ => ?_) rfl rfl rfl rfl
    simp only [arrive, hthr]
    rfl
  case af =>
    refine settingTaken .afThr v _ s _ h hm rfl rfl (by rw [← clampNat_zero]; rfl) (fun _ _ _ => ?_) rfl rfl rfl rfl
    simp only [arrive, hthr]
    rfl

/-- Settles O13, descriptor by descriptor. -/
theorem streamDescriptorTakesTheWord : Obligations.StreamDescriptorTakesTheWord := by
  unfold Obligations.StreamDescriptorTakesTheWord
  intro m v s h hm hstop
  have hst : ∀ d, stateForbids s (.desc m d) = false := fun d => by simp [stateForbids, Reader.active, hstop]
  refine ⟨fun hv => ?_, fun hv => ?_, ?_, fun hv => ?_, fun hv => ?_, fun hv => ?_⟩
  · exact settingTaken (.desc m .baseLo) v v s _ h hm rfl (hst _) (if_neg (by rw [flag, hv]; decide)) (fun _ _ _ => rfl)
      rfl rfl rfl rfl
  · exact settingTaken (.desc m .baseHi) v v s _ h hm rfl (hst _) (if_pos hv) (fun _ _ _ => rfl) rfl rfl rfl rfl
  · have hw : (numWord (clampNat 64 65535 v.toNat)).toNat = clampNat 64 65535 v.toNat :=
      numWord_toNat _ (by have := clampNat_le 64 65535 v.toNat (by decide); omega)
    rw [← clampNat_low]
    refine settingTaken (.desc m .size) v _ s _ h hm rfl (hst _) rfl (fun _ _ _ => ?_) rfl rfl rfl rfl
    simp only [arrive, Reader.putDesc, hw]
    rfl
  · exact settingTaken (.desc m .channels) v v s _ h hm rfl (hst _) (members_mem _ v hv) (fun _ _ _ => rfl)
      rfl rfl rfl rfl
  · exact settingTaken (.desc m .width) v v s _ h hm rfl (hst _) (members_mem _ v hv) (fun _ _ _ => rfl)
      rfl rfl rfl rfl
  · exact settingTaken (.desc m .rate) v v s _ h hm rfl (hst _) (members_mem _ v (by simp; omega)) (fun _ _ _ => rfl)
      rfl rfl rfl rfl

end Sys2Proof.Machine

end

/-! What the arrivals of the zone switch and the decoder do (R51 to R53, R59, R60, R67). -/

section

set_option autoImplicit false

namespace Sys2Proof.Machine

/-! ### A write that has reached its owner -/

/-- The state in which a slot's owner finds a write that has passed the filter: the word is in memory, and the
filter has reported it (R8, R138). -/
def arrived (sl : Slot) (w : Word) (s : State) : State :=
  { s with
    mem := s.mem.writeWord (slotAddr s sl) w
    lock := lockAfter s sl s.lock
    agent := { s.agent with queue := queueAfter s sl [] } }

/-- A taken write by its owner's action on the state in which the write arrives. -/
theorem rowTaken (sl : Slot) (v w : Word) (reqs : List Slot) (always : List Rec) (s u : State) (h : PortOpen s)
    (hm : MemoryCanonical s) (hj : judgeSlot s sl .full v = .arrives sl w)
    (hu : u.agent = s.agent) (hsd : u.sd = s.sd)
    (hy : arrive sl w (arrived sl w s) = { u with
      mem := (arrived sl w s).mem, lock := lockAfter s sl u.lock, dirty := (arrive sl w (arrived sl w s)).dirty,
      agent := { u.agent with queue := queueAfter s sl reqs } })
    (hd : SetsMarks always s (arrive sl w (arrived sl w s)))
    (hst : s.att.pending &&& causeMask .station ≠ 0 → u.att.pending &&& causeMask .station ≠ 0) :
    ∃ t, slotRow sl .full v s = .next t ∧ WriteTaken sl w reqs always s u t :=
  writeTaken_sameStation sl .full v w reqs always s u h hm hj _ _ rfl rfl hy hu hsd hd hst

/-- A pending STATION cause stands where the attention state does. -/
theorem pending_same {s u : State} (h : u.att = s.att)
    (hs : s.att.pending &&& causeMask .station ≠ 0) : u.att.pending &&& causeMask .station ≠ 0 := by rwa [h]

/-! ### A zone's moves mark its record (R16, R50) -/

theorem zoneStateCode_injective {x y : ZoneState} (h : zoneStateCode x = zoneStateCode y) : x = y := by
  have hplace : ∀ x, ([.silent, .fadingOut, .waiting, .fadingIn, .playing, .reconfiguring] : List ZoneState)[
      zoneStateCode x]? = some x := fun x => by cases x <;> rfl
  exact Option.some.inj ((hplace x).symm.trans (h ▸ hplace y))

theorem zoneStateCode_lt (x : ZoneState) : zoneStateCode x < 16 := by cases x <;> decide

/-- A zone record shows the zone's state. -/
theorem state_of_zoneFlags {r r' : ZoneRec} (h : zoneFlags r = zoneFlags r') : r.state = r'.state := by
  have hflags : ∀ x : ZoneRec, (zoneFlags x).toNat % 16 = zoneStateCode x.state := by
    intro x
    have := zoneStateCode_lt x.state
    simp only [zoneFlags, numWord, BitVec.toNat_ofNat, bitAt]
    (repeat' split) <;> omega
  exact zoneStateCode_injective (by rw [← hflags r, ← hflags r', h])

theorem zoneRecord_changed {s t : State} {z : Zone} (h : (t.zones.get z).state ≠ (s.zones.get z).state) :
    recWords s (.zone z) ≠ recWords t (.zone z) := by
  intro e
  simp only [recWords, zoneWords, List.cons_append, List.cons.injEq] at e
  exact h (state_of_zoneFlags e.1).symm

/-- The marks of an action that moves a zone: its record, where the zone's state changes. -/
theorem setsMarks_moved {always : List Rec} {s y : State} (z : Zone)
    (h : ∀ r, r ∈ y.dirty ↔ r ∈ s.dirty ∨ r ∈ always ∨ (r = .zone z ∧ (y.zones.get z).state ≠ (s.zones.get z).state)) :
    SetsMarks always s y := by
  refine ⟨fun r hr => ?_, fun r hr => (h r).2 (.inl hr), fun r hr => (h r).2 (.inr (.inl hr))⟩
  rcases (h r).1 hr with h1 | h1 | ⟨rfl, h1⟩
  · exact .inl h1
  · exact .inr (.inl h1)
  · exact .inr (.inr ⟨rfl, zoneRecord_changed h1⟩)

/-! ### SOURCE (R51 to R53, R65) -/

/-- The words of SOURCE and the sources they name (R47). -/
def sourceWordsOf : List (Word × Option Source) :=
  [(0#16, none), (1#16, some (Source.sa .sa1)), (2#16, some (.sa .sa2)), (3#16, some (.sa .sa3)),
    (4#16, some (.sa .sa4)), (5#16, some (.ms .ms1)), (6#16, some (.ms .ms2)), (7#16, some .tuner)]

theorem sourceOfWord_of_mem : ∀ p ∈ sourceWordsOf,
    sourceOfWord p.1 = p.2 ∧ members [0, 1, 2, 3, 4, 5, 6, 7] p.1 = some p.1 := by
  decide

/-- The marks of a connection step: a new stay in WAITING marks the record, any other move where the state changes. -/
theorem mem_connect_dirty (z : Zone) (src : Option Source) (s : State) (r : Rec) :
    r ∈ (connect z src s).dirty ↔
      r ∈ s.dirty ∨ r = .zone z ∧ ((∃ x, src = some x ∧ s.view.get x = false)
        ∨ ((connect z src s).zones.get z).state ≠ (s.zones.get z).state) := by
  rcases src with _ | x
  · simp only [connect, enterSilent, mem_moveZone_dirty, moveZone_zones]
    simp
  · rcases hx : s.view.get x with _ | _
    · simp only [connect, hx, Bool.false_eq_true, if_false, enterWaiting, markDirty_dirty, mem_insertRec]
      simp [or_comm, hx]
    · simp only [connect, hx, if_true, enterFadeIn, mem_moveZone_dirty, moveZone_zones]
      simp [hx]

/-- A SOURCE value that the zone acts on or keeps moves its zone alone. -/
theorem sourceTaken (z : Zone) (v : Word) (src : Option Source) (always : List Rec) (r' : ZoneRec) (s : State)
    (h : PortOpen s) (hm : MemoryCanonical s) (hv : (v, src) ∈ sourceWordsOf)
    (hz : ∀ x : State, x.zones = s.zones → x.view = s.view → x.audioRuns = s.audioRuns →
      (sourceArrival z src x).zones = s.zones.set z r' ∧ ∀ r, r ∈ (sourceArrival z src x).dirty ↔
        r ∈ x.dirty ∨ r ∈ always ∨ (r = .zone z ∧ r'.state ≠ (s.zones.get z).state)) :
    ∃ t, exec (.sourceWrite z .full v) s = .next t
      ∧ WriteTaken (.source z) v [] always s { s with zones := s.zones.set z r' } t := by
  obtain ⟨hsrc, hmem⟩ := sourceOfWord_of_mem _ hv
  have harr : ∀ x, arrive (.source z) v x = sourceArrival z src x := fun x => by rw [arrive, hsrc]
  obtain ⟨hzones, hdirty⟩ := hz (arrived (.source z) v s) rfl rfl rfl
  refine rowTaken (.source z) v v [] always s _ h hm (judgeSlot_arrives s _ v v nofun rfl hmem) rfl rfl ?_ ?_ id
  · rw [harr]
    apply State.ext_fields <;> simp [hzones] <;> rfl
  · rw [harr]
    refine setsMarks_moved z fun r => ?_
    rw [hdirty, hzones, PerZone.get_set_self]
    rfl

/-- Settles O14, state by state of the zone. -/
theorem sourceWriteMovesTheZone : Obligations.SourceWriteMovesTheZone := by
  unfold Obligations.SourceWriteMovesTheZone
  intro z v src s h hm hv r marked into
  have hact : ∀ x : State, x.audioRuns = true → sourceArrival z src x = sourceAct z src x := fun x hx => if_pos hx
  refine ⟨fun hruns => ?_, fun hruns hst => ⟨fun hsame => ?_, fun hother => ?_⟩, fun hruns hst => ?_,
    fun hruns hst => ?_⟩
  · refine sourceTaken z v src [] _ s h hm hv fun x hxz hxv hxr => ?_
    rw [sourceArrival, if_neg (by simp [hxr, hruns]), updZone_zones, hxz]
    exact ⟨rfl, fun y => by simp [r]⟩
  · refine sourceTaken z v src [] _ s h hm hv fun x hxz hxv hxr => ?_
    have hx : sourceAct z src x = x := by
      simp only [sourceAct, hxz]
      simp only [List.mem_cons, List.not_mem_nil, or_false] at hst
      rcases hst with hst | hst | hst <;> simp [r] at hst <;> simp [hst, hsame, r]
    rw [hact x (hxr.trans hruns), hx, hxz, PerZone.set_get]
    exact ⟨rfl, fun y => by simp [r]⟩
  · refine sourceTaken z v src [] _ s h hm hv fun x hxz hxv hxr => ?_
    have hx : sourceAct z src x = startFadeOut z src x := by
      simp only [sourceAct, hxz]
      simp only [List.mem_cons, List.not_mem_nil, or_false] at hst
      have hne : ¬src = (s.zones.get z).connected := hother
      rcases hst with hst | hst | hst <;> simp [r] at hst <;> simp [hst, hne]
    rw [hact x (hxr.trans hruns), hx, startFadeOut, moveZone_zones, hxz]
    exact ⟨rfl, fun y => by simp [mem_moveZone_dirty, hxz]⟩
  · refine sourceTaken z v src [] _ s h hm hv fun x hxz hxv hxr => ?_
    have hx : sourceAct z src x = updZone z (fun r => { r with pending := src }) x := by
      simp only [sourceAct, hxz]
      simp only [r] at hst
      simp [hst]
    rw [hact x (hxr.trans hruns), hx, updZone_zones, hxz]
    exact ⟨rfl, fun y => by simp [r]⟩
  · have hx : ∀ x : State, x.zones = s.zones → sourceAct z src x = connect z src x := by
      intro x hxz
      simp only [sourceAct, hxz]
      simp only [List.mem_cons, List.not_mem_nil, or_false] at hst
      rcases hst with hst | hst <;> simp [r] at hst <;> simp [hst]
    refine ⟨fun hnone => ?_, fun y hsome hview => ?_, fun y hsome hview => ?_⟩
    · refine sourceTaken z v src [] _ s h hm hv fun x hxz hxv hxr => ?_
      rw [hact x (hxr.trans hruns), hx x hxz]
      refine ⟨by rw [connect_zones, hxz, hnone]; rfl, fun y => ?_⟩
      rw [mem_connect_dirty, connect_zones]
      simp [hnone, hxz]
    · refine sourceTaken z v src [] _ s h hm hv fun x hxz hxv hxr => ?_
      rw [hact x (hxr.trans hruns), hx x hxz]
      refine ⟨by rw [connect_zones, hxz, hsome]; simp [hxv, hview]; rfl, fun y => ?_⟩
      rw [mem_connect_dirty, connect_zones]
      simp [hsome, hxz, hxv, hview]
    · refine sourceTaken z v src [.zone z] _ s h hm hv fun x hxz hxv hxr => ?_
      rw [hact x (hxr.trans hruns), hx x hxz]
      refine ⟨by rw [connect_zones, hxz, hsome]; simp [hxv, hview]; rfl, fun y => ?_⟩
      rw [mem_connect_dirty, connect_zones]
      simp [hsome, hxz, hxv, hview]
      tauto

end Sys2Proof.Machine

end

/-! The arrivals of the decoder, the gain stage, the wait limit, the supervisor and the measurement unit (R59, R60,
R67, R77, R99, R101, R126 to R128, R142). -/

section

set_option autoImplicit false

namespace Sys2Proof.Machine

/-! ### Marks of one operation after another -/

/-- A mark of a record whose content has changed. -/
theorem SetsMarks.mark {always : List Rec} {s y : State} (h : SetsMarks always s y) (r : Rec)
    (hr : r.isStream = false) (hc : recWords s r ≠ recWords y r) : SetsMarks always s (markDirty r y) := by
  have hsame : ∀ x, recWords (markDirty r y) x = recWords y x := fun x =>
    (recWords_congr y (markDirty r y) rfl rfl rfl rfl rfl rfl rfl rfl rfl rfl rfl rfl rfl rfl x).symm
  refine ⟨fun x hx => ?_, fun x hx => ?_, fun x hx => ?_⟩
  · rw [markDirty_dirty, mem_insertRec] at hx
    rw [hsame]
    rcases hx with rfl | hx
    · exact .inr (.inr ⟨hr, hc⟩)
    · exact h.only x hx
  · rw [markDirty_dirty, mem_insertRec]
    exact .inr (h.keeps x hx)
  · rw [markDirty_dirty, mem_insertRec]
    exact .inr (h.sets x hx)

/-- A raised cause, where the attention state was as before, marks the attention record it changes. -/
theorem SetsMarks.raise {always : List Rec} {s y : State} (h : SetsMarks always s y) (c : Cause) (ha : y.att = s.att) :
    SetsMarks always s (raise c y) := by
  have hsame : ∀ x, x ≠ .attention → recWords (Machine.raise c y) x = recWords y x := fun x hx => by
    rw [raise_eq]
    exact recWords_att_dirty y _ _ x hx
  refine ⟨fun x hx => ?_, fun x hx => ?_, fun x hx => ?_⟩
  · rw [mem_raise_dirty] at hx
    by_cases hatt : x = .attention
    · subst hatt
      rcases hx with hx | ⟨-, hb⟩
      · rcases h.only _ hx with h1 | h1 | ⟨-, h1⟩
        · exact .inl h1
        · exact .inr (.inl h1)
        · exact absurd (by simp [recWords, attentionWords, ha]) h1
      · refine .inr (.inr ⟨rfl, fun e => ?_⟩)
        simp only [recWords, attentionWords, raise_att, ha, List.cons.injEq, and_true] at e
        rw [ha, e] at hb
        have := congrArg (BitVec.getLsbD · (causeBit c)) hb
        cases c <;> simp [causeMask, causeBit] at this
    · rw [hsame x hatt]
      rcases hx with hx | ⟨hx, -⟩
      · exact h.only x hx
      · exact absurd hx hatt
  · rw [mem_raise_dirty]
    exact .inl (h.keeps x hx)
  · rw [mem_raise_dirty]
    exact .inl (h.sets x hx)

/-! ### Updates of one item, one after another -/

theorem zones_upd_upd {α : Type} (t : PerZone α) (z : Zone) (f g : α → α) :
    (t.upd z f).upd z g = t.set z (g (f (t.get z))) := by
  refine PerZone.ext_get _ _ fun i => ?_
  by_cases hi : i = z <;> simp [PerZone.get_upd, PerZone.get_set, hi]

theorem modules_upd_upd {α : Type} (t : PerModule α) (m : AmpModule) (f g : α → α) :
    (t.upd m f).upd m g = t.set m (g (f (t.get m))) := by
  refine PerModule.ext_get _ _ fun i => ?_
  by_cases hi : i = m <;> simp [PerModule.get_upd, PerModule.get_set, hi]

/-! ### DECODE_MODE (R60, R67, R77) -/

/-- The words of DECODE_MODE. -/
def modeWordsOf : List (Word × DecodeMode) := [(0#16, .direct), (1#16, .matrix), (2#16, .stereo)]

theorem modeOfWord_of_mem : ∀ p ∈ modeWordsOf, modeOfWord p.1 = p.2 ∧ members [0, 1, 2] p.1 = some p.1 := by decide

/-- Settles O15, by the request that a changed mode makes. -/
theorem decodeModeWriteStagesOrApplies : Obligations.DecodeModeWriteStagesOrApplies := by
  unfold Obligations.DecodeModeWriteStagesOrApplies
  intro v m s h hm hv r into
  obtain ⟨hmode, hmem⟩ := modeOfWord_of_mem _ hv
  have hj := judgeSlot_arrives s .decodeMode v v nofun rfl hmem
  have harr : ∀ x, arrive .decodeMode v x = decodeModeArrival m x := fun x => by rw [arrive, hmode]
  have hquiet : ∀ x : State, x.zones = s.zones → x.audioRuns = s.audioRuns →
      (zoneQuiet x .z1 = true ↔ s.audioRuns = true ∧ r.state ∈ [ZoneState.waiting, .silent]) := by
    intro x hz hr
    rw [zoneQuiet_iff, AppliesAtOnce, hz, hr]
    rfl
  refine ⟨fun hsame => ?_, fun hne hruns hst => ?_, fun hne hno => ?_⟩
  · have hact : decodeModeArrival m (arrived .decodeMode v s) = arrived .decodeMode v s := by
      subst hsame
      exact if_pos rfl
    refine rowTaken .decodeMode v v [] [] s s h hm hj rfl rfl ?_ ?_ id
    all_goals rw [harr, hact]
    · rfl
    · exact .same _ _ rfl
  · have hact : decodeModeArrival m (arrived .decodeMode v s)
        = decodeApply { arrived .decodeMode v s with dec := { s.dec with staged := m } } := by
      exact (if_neg hne).trans (if_pos ((hquiet _ rfl rfl).2 ⟨hruns, hst⟩))
    refine rowTaken .decodeMode v v [] [.zone .z1] s _ h hm hj rfl rfl ?_ ?_ id
    all_goals rw [harr, hact]
    · rfl
    · exact .marks _ _ _ fun x => by simp [decodeApply, arrived, or_comm]
  · have hact : decodeModeArrival m (arrived .decodeMode v s)
        = holdChange .decode .z1 { arrived .decodeMode v s with dec := { s.dec with staged := m } } := by
      exact (if_neg hne).trans (if_neg fun hq => hno ((hquiet _ rfl rfl).1 hq).1 ((hquiet _ rfl rfl).1 hq).2)
    refine rowTaken .decodeMode v v [] [] s _ h hm hj rfl rfl ?_ ?_ id
    all_goals rw [harr, hact]
    · apply State.ext_fields <;> simp [holdChange] <;> rfl
    · refine setsMarks_moved .z1 fun x => ?_
      simp only [holdChange, mem_moveZone_dirty, moveZone_zones, PerZone.get_upd_self]
      simp [arrived]

/-! ### VOLUME and MAX_VOLUME (R90, R99, R101) -/

/-- Settles O17: the filter keeps VOLUME at the ceiling, and MAX_VOLUME lowers a V above it. -/
theorem volumeWritesKeepTheCeiling : Obligations.VolumeWritesKeepTheCeiling := by
  unfold Obligations.VolumeWritesKeepTheCeiling
  intro z v s h hm g
  have hwide : ∀ x : Int, gainFloor ≤ x → x ≤ gainCeiling → (levelWord x).toInt = x := fun x h1 h2 =>
    levelWord_toInt x (by simp only [gainFloor] at h1; omega) (by simp only [gainCeiling] at h2; omega)
  refine ⟨fun hlo hhi => ?_, fun hlock n hn => ?_⟩
  · obtain ⟨h1, h2⟩ := clampInt_bounds gainFloor g.maxVolume v.toInt hlo
    have hword := hwide _ h1 (h2.trans hhi)
    refine writeTaken_of_update (.volume z) .full v _ s _ h hm (judgeSlot_arrives s _ v _ nofun rfl rfl) ?_
      rfl rfl rfl rfl
    intro m q l
    rw [arrive, hword, volumeArrival]
    exact if_neg (not_lt.2 h2)
  · obtain ⟨h1, h2⟩ := clampInt_bounds gainFloor gainCeiling v.toInt (by decide)
    rw [← hn] at h1 h2
    have hword := hwide n h1 h2
    have hj : judgeSlot s (.maxVolume z) .full v = .arrives (.maxVolume z) (levelWord n) :=
      judgeSlot_arrives s _ v _ (fun _ => hlock) rfl (by rw [hn]; rfl)
    by_cases hlow : n < g.volume
    · rw [if_pos hlow, min_eq_right hlow.le]
      refine writeTaken_of_request (.maxVolume z) (.volume z) .full v _ s _ h hm hj (fun m q l hl => ?_) rfl rfl rfl
      rw [arrive, hword, maxVolumeArrival]
      refine (if_pos hlow).trans (congrArg _ ?_)
      apply State.ext_fields <;> simp [hl, zones_upd_upd, g]
    · rw [if_neg hlow, min_eq_left (not_lt.1 hlow)]
      refine writeTaken_of_update (.maxVolume z) .full v _ s _ h hm hj (fun m q l => ?_) rfl rfl rfl rfl
      rw [arrive, hword, maxVolumeArrival]
      exact if_neg hlow

/-- A command of the part's own by what its action makes of the state. -/
theorem ownStep_of_eq (f : State → State) (always : List Rec) (s u y : State) (h : s.rstnLow = false) (hf : f s = y)
    (hy : y = { u with dirty := y.dirty }) (hmem : u.mem = s.mem) (hsd : u.sd = s.sd) (hd : SetsMarks always s y)
    (hst : s.att.pending &&& causeMask .station ≠ 0 → u.att.pending &&& causeMask .station ≠ 0) :
    ∃ t, act f s = .next t ∧ OwnStep always s u t := by
  subst hf
  exact ownStep_sameStation f always s u h hy hmem hsd hd hst

/-! ### WAIT_LIMIT and the waiting time (R59) -/

/-- A raised no-signal flag changes the zone's record. -/
theorem zoneRecord_noSignal {s t : State} {z : Zone} (hs : (s.zones.get z).noSignal = false)
    (ht : (t.zones.get z).noSignal = true) : recWords s (.zone z) ≠ recWords t (.zone z) := by
  have hbit : ∀ x : ZoneRec, (zoneFlags x).toNat / 32 % 2 = if x.noSignal then 1 else 0 := by
    intro x
    have := zoneStateCode_lt x.state
    simp only [zoneFlags, numWord, BitVec.toNat_ofNat, bitAt]
    (repeat' split) <;> omega
  intro e
  simp only [recWords, zoneWords, List.cons_append, List.cons.injEq] at e
  have := hbit (s.zones.get z)
  rw [e.1, hbit, hs, ht] at this
  simp at this

/-- The wait limit is checked on a stay whose flag is clear (R59). -/
theorem checkLimit_eq (z : Zone) (s : State) :
    checkLimit z s = if (s.zones.get z).state = .waiting ∧ (s.zones.get z).noSignal = false
      ∧ (s.zones.get z).waitLimit ≤ (s.zones.get z).waited then limitReached z s else s := by
  simp [checkLimit, and_assoc]

/-- A reached limit sets the flag and makes ZONE_NOSIGNAL pending (R59). -/
theorem limitReached_eq (z : Zone) (s : State) :
    limitReached z s = { s with
      zones := s.zones.upd z fun r => { r with noSignal := true }
      att := { s.att with pending := s.att.pending ||| 0x0008#16 }
      dirty := (limitReached z s).dirty } := by
  apply State.ext_fields <;> simp [limitReached, causeMask, causeBit]

theorem limitReached_marks (z : Zone) (s y : State) (hatt : y.att = s.att) (hd : y.dirty = s.dirty)
    (hs : (s.zones.get z).noSignal = false) : SetsMarks [] s (limitReached z y) := by
  have h0 : SetsMarks [] s (updZone z (fun r => { r with noSignal := true }) y) := .same _ _ hd
  refine (h0.raise .zoneNoSignal hatt).mark (.zone z) rfl (zoneRecord_noSignal hs ?_)
  simp

theorem or_keeps {p q mask : Word} (h : p &&& mask ≠ 0) : (p ||| q) &&& mask ≠ 0 := by
  rw [and_ne_zero_iff] at h ⊢
  obtain ⟨k, hk, hp, hmask⟩ := h
  exact ⟨k, hk, by simp [hp], hmask⟩

/-- Settles O18: the arrival and the expiry check the limit, and a reached limit raises the flag. -/
theorem waitLimitRaisesNoSignal : Obligations.WaitLimitRaisesNoSignal := by
  unfold Obligations.WaitLimitRaisesNoSignal
  intro z s r
  refine ⟨fun v n h hm hn => ?_, fun hruns hst hflag => ?_, fun hruns hno => ?_, fun hrst hstop => ?_⟩
  · have hle := clampNat_le 500 10000 v.toNat (by decide)
    have hword : (numWord n).toNat = n := numWord_toNat n (by omega)
    have hj : judgeSlot s (.waitLimit z) .full v = .arrives (.waitLimit z) (numWord n) :=
      judgeSlot_arrives s _ v _ nofun rfl (by rw [hn]; rfl)
    have harr : ∀ x : State, x.zones = s.zones → x.audioRuns = s.audioRuns →
        arrive (.waitLimit z) (numWord n) x =
          if s.audioRuns = true ∧ r.state = .waiting ∧ r.noSignal = false ∧ n ≤ r.waited then
            limitReached z (updZone z (fun r => { r with waitLimit := n }) x)
          else updZone z (fun r => { r with waitLimit := n }) x := by
      intro x hz hr
      rw [arrive, hword, waitLimitArrival, checkLimit_eq]
      by_cases hruns : s.audioRuns = true <;> simp [hz, hr, hruns, r]
    intro reached
    refine ⟨fun hno => ?_, fun hyes => ?_⟩
    · refine rowTaken (.waitLimit z) v _ [] [] s _ h hm hj rfl rfl ?_ ?_ id
      all_goals rw [harr (arrived (.waitLimit z) (numWord n) s) rfl rfl, if_neg hno]
      · rfl
      · exact .same _ _ rfl
    · refine rowTaken (.waitLimit z) v _ [] [] s _ h hm hj rfl rfl ?_ ?_ or_keeps
      all_goals rw [harr (arrived (.waitLimit z) (numWord n) s) rfl rfl, if_pos hyes]
      · rw [limitReached_eq]
        apply State.ext_fields <;> simp [arrived, zones_upd_upd, r]
      · exact limitReached_marks z s _ rfl rfl hyes.2.2.1
  · have hwait : ∀ b, waitTick z s = b → (fun t : State => if t.restartTimersRun then waitTick z t else t) s = b :=
      fun b hb => (if_pos hruns.2).trans hb
    have htick : waitTick z s = checkLimit z (updZone z (fun r => { r with waited := r.waited + 1 }) s) := by
      rw [waitTick]
      exact if_pos (by simp only [r] at hst hflag; simp [hst, hflag])
    refine ⟨fun hlt => ?_, fun hle => ?_⟩
    · have heq : waitTick z s = updZone z (fun r => { r with waited := r.waited + 1 }) s := by
        rw [htick, checkLimit_eq]
        exact if_neg fun hc => by simp at hc; simp only [r] at hlt; omega
      exact ownStep_of_eq _ [] s _ _ hruns.1 (hwait _ heq) rfl rfl rfl (.same _ _ rfl) id
    · have heq : waitTick z s = limitReached z (updZone z (fun r => { r with waited := r.waited + 1 }) s) := by
        rw [htick, checkLimit_eq]
        exact if_pos (by simp only [r] at hst hflag hle; simp [hst, hflag]; omega)
      refine ownStep_of_eq _ [] s _ _ hruns.1 (hwait _ heq) ?_ rfl rfl ?_ or_keeps
      · rw [limitReached_eq]
        apply State.ext_fields <;> simp [zones_upd_upd, r]
      · exact limitReached_marks z s _ rfl rfl hflag
  · have htick : waitTick z s = s := by
      rw [waitTick]
      exact if_neg (by simp only [r] at hno; rcases hno with hno | hno <;> simp [hno])
    exact ownStep_of_eq _ [] s s s hruns.1 ((if_pos hruns.2).trans htick) rfl rfl rfl (.same _ _ rfl) id
  · refine (act_high _ s hrst).trans (congrArg Host.Outcome.next ?_)
    rw [if_neg (by simp [hstop])]
    exact publish_same _ _ rfl rfl rfl rfl rfl rfl rfl rfl rfl rfl rfl rfl rfl rfl

end Sys2Proof.Machine

end

/-! The arrivals of the amplifier supervisor and of the measurement unit (R126 to R128, R142). -/

section

set_option autoImplicit false

namespace Sys2Proof.Machine

/-! ### MODULE_EN (R126 to R128) -/

/-- A MODULE_EN arrival that makes its module `r'` and the gain stage `g`. -/
theorem moduleEnTaken (m : AmpModule) (v : Word) (on : Bool) (r' : ModuleRec) (g : Gain) (s : State) (h : PortOpen s)
    (hm : MemoryCanonical s) (hlock : s.lock = .unlocked) (hv : (v, on) ∈ [(0#16, false), (1#16, true)])
    (hact : ∀ x : State, x.mods = s.mods → x.gain = s.gain → x.meas = s.meas → x.clock = s.clock →
      (moduleEnArrival m on x).mods = s.mods.set m r' ∧ (moduleEnArrival m on x).gain = g) :
    ∃ t, exec (.moduleEnWrite m .full v) s = .next t
      ∧ WriteTaken (.moduleEn m) v [] [] s { s with mods := s.mods.set m r', gain := g } t := by
  have hword : decide (v = 1) = on ∧ members [0, 1] v = some v := by
    simp only [List.mem_cons, Prod.mk.injEq, List.not_mem_nil, or_false] at hv
    rcases hv with ⟨rfl, rfl⟩ | ⟨rfl, rfl⟩ <;> decide
  have harr : ∀ x, arrive (.moduleEn m) v x = moduleEnArrival m on x := fun x => by rw [arrive, hword.1]
  obtain ⟨hmods, hgain⟩ := hact (arrived (.moduleEn m) v s) rfl rfl rfl rfl
  refine rowTaken (.moduleEn m) v v [] [] s _ h hm (judgeSlot_arrives s _ v v (fun _ => hlock) rfl hword.2) rfl rfl ?_ ?_
    id
  all_goals rw [harr]
  · apply State.ext_fields <;> simp [hmods, hgain] <;> rfl
  · exact .same _ _ (by simp [arrived])

theorem modules_set_upd {α : Type} (t : PerModule α) (m : AmpModule) (a : α) (f : α → α) :
    (t.set m a).upd m f = t.set m (f a) := by
  refine PerModule.ext_get _ _ fun i => ?_
  by_cases hi : i = m <;> simp [PerModule.get_upd, PerModule.get_set, hi]

/-- Withdrawing the enable of a module in ON places the order, and the module winds down at once if it can. -/
theorem windDown_ordered (m : AmpModule) (x : State) (r : ModuleRec) (hr : x.mods.get m = r) (hena : r.enable = true)
    (hst : r.state = .on) :
    moduleEnArrival m false x =
      let y := { x with mods := x.mods.set m { r with enable := false, order := true } }
      if moduleAtFloor x m = true then stopModule m y else y := by
  have hact : moduleEnArrival m false x
      = windDownReport m { x with mods := x.mods.set m { r with enable := false, order := true } } := by
    simp [moduleEnArrival, hr, hena, hst, updModule, modules_upd_upd]
  rw [hact, windDownReport]
  simp [hst, show ∀ y : State, y.gain = x.gain → moduleAtFloor y m = moduleAtFloor x m from fun y hy => by
    rw [moduleAtFloor, hy, moduleAtFloor]]

/-- Settles O21, state by state of the module. -/
theorem moduleEnableStartsAndWindsDown : Obligations.ModuleEnableStartsAndWindsDown := by
  unfold Obligations.ModuleEnableStartsAndWindsDown
  intro m v on s h hm hlock hv r floored atFloor into
  have hinto : ∀ (r' : ModuleRec) (g : Gain), (∀ x : State, x.mods = s.mods → x.gain = s.gain → x.meas = s.meas →
      x.clock = s.clock → (moduleEnArrival m on x).mods = s.mods.set m r' ∧ (moduleEnArrival m on x).gain = g) →
      into r' g := fun r' g => moduleEnTaken m v on r' g s h hm hlock hv
  have hr : s.mods.get m = r := rfl
  have hfl : flooredChans (fun ch => chanModule ch == m) s.gain = floored := rfl
  clear_value r floored
  refine ⟨fun hsame => hinto _ _ fun x hx hg _ _ => ?_, fun hon hoff => ⟨fun hst hpass hgood => ?_, fun hst hbad => ?_,
    fun hst => ?_, fun hst => ?_⟩, fun hon hena => ⟨fun hst => ?_, fun hst hat => ?_, fun hst hnot => ?_, fun hst => ?_⟩⟩
  · have : moduleEnArrival m on x = x := if_pos (by rw [hx, hr, hsame])
    rw [this, ← hr, PerModule.set_get]
    exact ⟨hx, hg⟩
  all_goals
    subst hon
    refine hinto _ _ fun x hx hg hmeas hclock => ?_
  · simp [moduleEnArrival, startModule, startAllowed, hx, hr, hoff, hst, hmeas, hpass, hclock, hgood, hg, modules_upd_upd]
  · rcases hbad with hbad | hbad <;>
      simp [moduleEnArrival, startModule, startAllowed, hx, hr, hoff, hst, hmeas, hclock, hbad, hg, PerModule.upd]
  · simp [moduleEnArrival, hx, hr, hoff, hst, hg, modules_upd_upd]
  · simp only [List.mem_cons, List.not_mem_nil, or_false] at hst
    rcases hst with hst | hst | hst <;> simp [moduleEnArrival, hx, hr, hoff, hst, hg, PerModule.upd]
  · simp [moduleEnArrival, stopModule, hx, hr, hena, hst, hg, modules_upd_upd, floorModule, floorChans_gain, hfl]
  · rw [windDown_ordered m x r (by rw [hx, hr]) hena hst, if_pos ((moduleAtFloor_iff x m).mpr (by rw [hg]; exact hat)),
      stopModule, floorModule, floorChans_gain]
    simp [hg, hx, modules_set_upd, hfl, floorChans]
  · rw [windDown_ordered m x r (by rw [hx, hr]) hena hst, if_neg fun hat => hnot fun ch hc => hg ▸ (moduleAtFloor_iff x m).mp hat ch hc]
    exact ⟨by rw [hx], hg⟩
  · simp only [List.mem_cons, List.not_mem_nil, or_false] at hst
    rcases hst with hst | hst | hst <;> simp [moduleEnArrival, hx, hr, hena, hst, hg, PerModule.upd]

/-! ### SEQ_LEN and the entry words (R142) -/

/-- The conversion in progress after a discard. -/
theorem discardConv_eq (m : Meas) (p : Nat → Bool) :
    m.discardConv p = { m with
      conv := m.conv.map fun c =>
        match c.owner with
        | .entry i d => { c with owner := .entry i (d || p i) }
        | _ => c } := by
  rcases m with ⟨_, _, _, _, _, _, _ | ⟨⟨_, _⟩ | _ | _ | _ | _, _, _⟩, _, _, _, _, _, _, _, _, _⟩ <;> rfl

/-- A SEQ_LEN arrival (R142). -/
theorem seqLenArrival_eq (n : Nat) (s : State) :
    seqLenArrival n s = { s with
      meas := { s.meas with
        seqLen := n, position := 0,
        entries := s.meas.entries.mapIdx fun i e =>
          if n ≤ i then { e with code := none, count := 0, violation := false } else e
        conv := s.meas.conv.map fun c =>
          match c.owner with
          | .entry i _ => { c with owner := .entry i true }
          | _ => c }
      dirty := if n < s.meas.seqLen then insertRec .entries s.dirty else s.dirty } := by
  simp only [seqLenArrival, discardConv_eq, Bool.or_true]
  split <;> rfl

/-- An arrival on a word of an entry (R142). -/
theorem entryArrival_eq (n : Fin 16) (k : Fin 4) (w : Word) (s : State) :
    entryArrival n k w s = { s with
      meas := { s.meas with
        entries := s.meas.entries.set n.val
          { s.meas.entry n.val with
            code := none, count := 0, violation := false,
            w0 := if k = 0 then w else (s.meas.entry n.val).w0
            w1 := if k = 1 then w else (s.meas.entry n.val).w1
            w2 := if k = 2 then w else (s.meas.entry n.val).w2
            w3 := if k = 3 then w else (s.meas.entry n.val).w3 }
        conv := s.meas.conv.map fun c =>
          match c.owner with
          | .entry i d => { c with owner := .entry i (d || i == n.val) }
          | _ => c }
      dirty := insertRec .entries s.dirty } := by
  simp only [entryArrival, discardConv_eq]
  fin_cases k <;> rfl

/-- What the filter carries to a slot that is not VOLUME depends on no max volume. -/
theorem filterValue_carried (s : State) (sl : Slot) (v : Word) (hsl : sl ≠ .volume .z1 ∧ sl ≠ .volume .z2)
    (h : ¬valueBlocked s sl v) : filterValue s sl v = some (carriedWord s sl v) := by
  have hsame : ∀ g, filterValue { s with gain := g } sl v = filterValue s sl v
      ∧ carriedWord { s with gain := g } sl v = carriedWord s sl v
      ∧ (valueBlocked { s with gain := g } sl v ↔ valueBlocked s sl v) := by
    intro g
    cases sl with
    | volume z => cases z <;> simp at hsl
    | desc m d => cases d <;> exact ⟨rfl, rfl, Iff.rfl⟩
    | speaker p => cases p <;> exact ⟨rfl, rfl, Iff.rfl⟩
    | entry n k => fin_cases k <;> exact ⟨rfl, rfl, Iff.rfl⟩
    | _ => exact ⟨rfl, rfl, Iff.rfl⟩
  obtain ⟨hf, hc, hb⟩ := hsame Gain.reset
  rw [← hf, ← hc]
  exact filterValue_of_not_blocked _ sl v (fun z => by cases z <;> simp [Gain.reset, gainFloor]) (mt hb.1 h)

/-- Settles O22: both writes discard codes and clear entries, and the entries' record is marked. -/
theorem sequenceWritesResetEntries : Obligations.SequenceWritesResetEntries := by
  unfold Obligations.SequenceWritesResetEntries
  intro v s h hm hlock
  constructor
  · rintro n rfl
    have hle : min 16 v.toNat < 0x10000 := by omega
    have hj : judgeSlot s .seqLen .full v = .arrives .seqLen (numWord (min 16 v.toNat)) :=
      judgeSlot_arrives s _ v _ (fun _ => hlock) rfl (by
        rw [filterValue_carried s _ v (by simp) id]
        simp [carriedWord, numWord])
    have harr : ∀ x, arrive .seqLen (numWord (min 16 v.toNat)) x = seqLenArrival (min 16 v.toNat) x := fun x => by
      rw [arrive, numWord_toNat _ hle]
    refine rowTaken .seqLen v _ [] _ s _ h hm hj rfl rfl ?_ ?_ id
    all_goals rw [harr, seqLenArrival_eq]
    · rfl
    · refine .marks _ _ _ fun x => ?_
      rw [show (arrived .seqLen (numWord (min 16 v.toNat)) s).meas = s.meas from rfl]
      by_cases hlt : min 16 v.toNat < s.meas.seqLen
      · simp only [hlt, if_true, mem_insertRec, List.mem_singleton]
        exact or_comm
      · simp [hlt, arrived]
  · rintro n k w hno hw
    have hj : judgeSlot s (.entry n k) .full v = .arrives (.entry n k) w :=
      judgeSlot_arrives s _ v _ (fun _ => hlock) rfl (by
        rw [filterValue_carried s _ v (by simp) hno, hw]
        fin_cases k <;> simp [carriedWord, numWord])
    refine rowTaken (.entry n k) v w [] [.entries] s _ h hm hj rfl rfl ?_ ?_ id
    all_goals rw [show ∀ x, arrive (.entry n k) w x = entryArrival n k w x from fun _ => rfl,
      entryArrival_eq]
    · rfl
    · exact .marks _ _ _ fun x => (mem_insertRec _ _ _).trans (by rw [List.mem_singleton]; exact or_comm)

end Sys2Proof.Machine

end

/-! The gain stage's timers, the panel knob's steps and the modules' timers (R92 to R94, R98, R105, R106, R127, R129,
R131, R132). -/

section

set_option autoImplicit false

namespace Sys2Proof.Machine

/-- A command whose action finds nothing to do. -/
theorem act_same {f : State → State} {s : State} (h : s.rstnLow = false) (hf : f s = s) : act f s = .next s := by
  rw [act_high f s h, hf]
  exact congrArg _ (publish_same _ _ rfl rfl rfl rfl rfl rfl rfl rfl rfl rfl rfl rfl rfl rfl)

/-! ### The slew and meter timers (R92 to R94, R98) -/

theorem restartTimersRun_iff (s : State) :
    s.restartTimersRun = true ↔ s.audioRuns = true ∧ ∀ n, s.agent.restore ≠ some ⟨.audio, n⟩ := by
  unfold State.restartTimersRun State.partialPass
  rcases s.agent.restore with _ | ⟨_ | _, n⟩ <;> simp

/-- The target of a channel (R92). -/
theorem target_eq (s : State) (ch : Chan) :
    target s ch =
      let z := chanZone ch
      let r := s.zones.get z
      let m := s.mods.get (chanModule ch)
      let here := match ch with | .main x => s.bass.active.presence.get x | .zl => true | .zr => true
      let steer := match ch with | .main x => s.dec.activeTerms.get x | .zl => 0 | .zr => 0
      let trim := match r.connected with | some x => s.gain.srcTrims.get x | none => 0
      if (s.gain.zones.get z).mute = true ∨ here = false ∨ r.gateOpen = false ∨ r.fade = -320 ∨ m.state ≠ .on
          ∨ m.order = true then -320
      else clampInt (-320) 32
        ((s.gain.zones.get z).volume + s.gain.trims.get ch + trim + steer + m.derate + r.fade) := by
  cases ch <;>
    exact if_congr (by simp [forced, chanPresent, gainFloor, or_assoc]) rfl rfl

theorem mem_meterRecords (r : Rec) : r ∈ meterRecords ↔ ∃ ch, r = .meter ch := by
  constructor
  · rintro h
    obtain ⟨ch, -, rfl⟩ := List.mem_map.mp h
    exact ⟨ch, rfl⟩
  · rintro ⟨ch, rfl⟩
    rcases ch with (_ | _ | _ | _ | _ | _ | _ | _ | _ | _) | _ | _ <;> decide

/-- Settles O46, timer by timer. -/
theorem slewAndMeterTimersServeTheChannels : Obligations.SlewAndMeterTimersServeTheChannels := by
  unfold Obligations.SlewAndMeterTimersServeTheChannels
  refine ⟨fun s => by simp [State.audioRuns], restartTimersRun_iff, mem_meterRecords,
    fun s h => ?_, fun s h => ⟨fun hstop => ?_, fun hruns => ?_⟩⟩
  · intro goal
    have hgoal : ∀ ch, target s ch = goal ch := target_eq s
    clear_value goal
    refine ⟨fun hstop => act_same h (if_neg (by simp [hstop])), fun hruns => ?_⟩
    have heq : slewExpiry s = windDownReports (slewAll s) := if_pos hruns
    obtain ⟨t, ht, hown⟩ := ownStep_of_eq slewExpiry [] s
      { s with gain := (slewAll s).gain, mods := (windDownReports (slewAll s)).mods } _ h heq
      (by rw [windDownReports_eq]; rfl) rfl rfl (.same _ _ (by simp [slewAll])) id
    have hmods : t.mods = (windDownReports (slewAll s)).mods := by rw [hown.rest]
    have hgain : t.gain = (slewAll s).gain := by rw [hown.rest]
    refine ⟨t, ht, ⟨?_, hown.marks, hown.bytes⟩, fun ch => ?_, fun m => ?_⟩
    · rw [hmods, hgain]
      exact hown.rest
    · rw [hgain, ← hgoal]
      simp [slewAll, mapChans, slewStep]
    · have := windDownReports_spec (slewAll s) m
      rw [hmods, hgain]
      rw [windDownReports_gain] at this
      exact this
  · exact act_same h (if_neg (by simp [hstop]))
  · refine ownStep_of_eq meterExpiry meterRecords s _ _ h (if_pos hruns) (by rw [markAll_eq]; rfl) rfl rfl
      ?_ id
    exact .marks _ _ _ fun x => by simp [or_comm]

/-! ### Knob steps (R105, R106, R102) -/

/-- The count of a pair against the reference pair (R105). -/
theorem knobCount_eq : ∀ old new : Bool × Bool,
    let cycle := [((false, false), (false, true)), ((false, true), (true, true)), ((true, true), (true, false)),
      ((true, false), (false, false))]
    knobCount old new = if (old, new) ∈ cycle then 1 else if (new, old) ∈ cycle then -1 else 0 := by
  decide

/-- A volume that a detent sets (R102). -/
theorem detentVolume_eq (z : Zone) (v : Int) (s : State) :
    detentVolume z v s = { s with
      gain := { s.gain with zones := s.gain.zones.set z { s.gain.zones.get z with volume := v } }
      agent := { s.agent with
        queue := queueWith s.agent.queue (if v = (s.gain.zones.get z).volume then [] else [.volume z]) } } := by
  unfold detentVolume
  split
  · rename_i hv
    simp [queueWith, show ({ s.gain.zones.get z with volume := v } : ZoneGain) = s.gain.zones.get z from by rw [hv]]
  · rw [requestWriteBack_eq]
    rfl

/-- A clockwise detent of a muted zone (R102). -/
theorem detent_muted (z : Zone) (s : State) (h : (s.gain.zones.get z).mute = true) :
    detent z true s = { s with
      gain := { s.gain with zones := s.gain.zones.set z { s.gain.zones.get z with mute := false } }
      agent := { s.agent with queue := queueWith s.agent.queue [.mute z] } } := by
  simp only [detent, h, if_true, requestWriteBack_eq]
  rfl

/-- A clockwise detent (R102). -/
theorem detent_up (z : Zone) (s : State) (h : (s.gain.zones.get z).mute = false) :
    detent z true s
      = detentVolume z (min ((s.gain.zones.get z).volume + s.knob.step) (s.gain.zones.get z).maxVolume) s := by
  simp [detent, h]

/-- An anticlockwise detent (R102). -/
theorem detent_down (z : Zone) (s : State) :
    detent z false s = detentVolume z (max ((s.gain.zones.get z).volume - s.knob.step) gainFloor) s := rfl

/-- Settles O48, by what the count brings the accumulator to. -/
theorem knobStepCountsAgainstReference : Obligations.KnobStepCountsAgainstReference := by
  unfold Obligations.KnobStepCountsAgainstReference
  intro ps old x y s hruns href a b a' b' cycle count sum k z g into level hx hy
  have ha : s.knob.a.expire (expiryNamesA ps) = a' := expire_namesA _ _
  have hb : s.knob.b.expire (expiryNamesB ps) = b' := expire_namesB _ _
  have hcount : knobCount old (x, y) = count := knobCount_eq old (x, y)
  have hexec : exec (.knobFilterExpiry ps) s = .next (publish s (knobExpiry ps s)) := act_high _ s hruns.1
  clear_value a' b' count
  have hpair : Knob.pair { s.knob with a := a', b := b' } = some (x, y) := by simp [Knob.pair, hx, hy]
  have hstep : knobExpiry ps s = match (accumulate s.knob.acc count).2 with
      | some clockwise => detent z clockwise { s with knob := k (accumulate s.knob.acc count).1 }
      | none => { s with knob := k (accumulate s.knob.acc count).1 } := by
    rw [knobExpiry, if_pos hruns.2, ha, hb]
    simp only [hpair]
    simp only [href, hcount]
    rfl
  have hinto : ∀ (g' : ZoneGain) (reqs : List Slot), knobExpiry ps s = { s with
      knob := k 0, gain := { s.gain with zones := s.gain.zones.set z g' }
      agent := { s.agent with queue := queueWith s.agent.queue reqs } } → into g' reqs := by
    intro g' reqs heq
    obtain ⟨t, ht, hown⟩ := ownStep_of_eq _ [] s
      { s with
        knob := k 0, gain := { s.gain with zones := s.gain.zones.set z g' }
        agent := { s.agent with queue := queueWith s.agent.queue reqs } } _ hruns.1 heq rfl rfl rfl (.same _ _ rfl) id
    exact ⟨t, ht, hown.rest, hown.marks⟩
  clear_value into
  have hup : 4 ≤ sum → knobExpiry ps s = detent z true { s with knob := k 0 } := fun hs => by
    rw [hstep, show accumulate s.knob.acc count = (0, some true) from if_pos hs]
  have hdown : sum ≤ -4 → knobExpiry ps s = detent z false { s with knob := k 0 } := fun hs => by
    rw [hstep, show accumulate s.knob.acc count = (0, some false) from (if_neg (by omega)).trans (if_pos hs)]
  refine ⟨fun hlo hhi => ?_, fun hs hmute => hinto _ _ ?_, fun hs hmute => hinto _ _ ?_, fun hs => hinto _ _ ?_⟩
  · have hmid : accumulate s.knob.acc count = (sum, none) := (if_neg (by omega)).trans (if_neg (by omega))
    rw [hexec, hstep, hmid]
    exact congrArg _ (publish_knob s _)
  · exact (hup hs).trans (detent_muted z { s with knob := k 0 } hmute)
  · rw [hup hs, detent_up z { s with knob := k 0 } hmute, detentVolume_eq]
  · rw [hdown hs, detent_down, detentVolume_eq]
    rfl

/-! ### The modules' timers and fault lines (R127, R129, R131, R132) -/

theorem modules_upd_set {α : Type} (t : PerModule α) (m : AmpModule) (a : α) (f : α → α) :
    (t.upd m f).set m a = t.set m a := by
  refine PerModule.ext_get _ _ fun i => ?_
  by_cases hi : i = m <;> simp [PerModule.get_upd, PerModule.get_set, hi]

/-- A trip of a module that is not TRIPPED (R131). -/
theorem trip_fresh (m : AmpModule) (cause : TripCause) (n : Nat) (s : State) (h : (s.mods.get m).state ≠ .tripped) :
    trip m cause n s = raise .module { s with
      mods := s.mods.set m { s.mods.get m with state := .tripped, order := false, cause := cause, tripEntry := n }
      gain := flooredModule m s.gain } :=
  if_neg h

/-- A module in OFF, by the start conditions (R127). -/
theorem startModule_off (m : AmpModule) (s : State) (r : ModuleRec) (hr : s.mods.get m = r) (hst : r.state = .off) :
    startModule m s = { s with
      mods := s.mods.set m { r with
        state := if r.enable = true ∧ s.meas.result = .pass ∧ s.clock = .good then .starting else .off } } := by
  have hiff : ((r.state == .off) && startAllowed s r) = true
      ↔ r.enable = true ∧ s.meas.result = .pass ∧ s.clock = .good := by
    simp [startAllowed, hst, and_assoc]
  unfold startModule
  rw [hr]
  by_cases hgo : r.enable = true ∧ s.meas.result = .pass ∧ s.clock = .good
  · rw [if_pos (hiff.2 hgo), if_pos hgo, ← hr]
    rfl
  · refine (if_neg (mt hiff.1 hgo)).trans ?_
    rw [if_neg hgo, ← hst, ← hr, PerModule.set_get]

/-- Settles O49, timer by timer. -/
theorem moduleTimersAndFaultLines : Obligations.ModuleTimersAndFaultLines := by
  unfold Obligations.ModuleTimersAndFaultLines
  intro m s r
  have hr : s.mods.get m = r := rfl
  refine ⟨?_, fun level => rfl, fun hrst => ⟨fun hst => ?_, fun hst => ?_, fun hst => ?_, fun hst => ?_, fun hno => ?_,
    fun hpin hst => ?_⟩⟩
  · simp [ampEnabled, r]
  · exact act_same hrst (if_neg hst)
  · exact ownStep_of_eq (startExpiry m) [] s _ _ hrst (if_pos hst) rfl rfl rfl (.same _ _ rfl) id
  · exact act_same hrst (if_neg hst)
  · refine ownStep_of_eq (stopExpiry m) [] s _ _ hrst ((if_pos hst).trans (startModule_off m _ { r with state := .off }
      (PerModule.get_upd_self _ _ _) rfl)) ?_ rfl rfl (.same _ _ rfl) id
    simp only [updModule, modules_upd_set]
    rfl
  · refine act_same hrst (if_neg ?_)
    rw [hr]
    rcases hno with hno | hno
    · simp [hno]
    · simp at hno
      simp [hno]
  · have hgo : faultLineTrip m s = trip m .faultLine 0 s := if_pos (by
      rw [hr, hpin]
      simpa using hst)
    have hfresh : (s.mods.get m).state ≠ .tripped := fun h => by simp [← hr, h] at hst
    refine ownStep_of_eq (faultLineTrip m) [] s _ _ hrst (hgo.trans (trip_fresh m _ 0 s hfresh)) ?_ rfl rfl ?_ or_keeps
    · rw [raise_eq]
      rfl
    · refine SetsMarks.raise ?_ .module rfl
      exact .same _ _ rfl

end Sys2Proof.Machine

end

/-! The commands of the command slots that ask for their outcome's write-back alone (R9, R22, R38, R134, R146, R151,
R165). -/

section

set_option autoImplicit false

namespace Sys2Proof.Machine

/-- The slots whose writes are commands (R9). -/
def isCommandSlot : Slot → Bool
  | .systemCmd | .streamCmd _ | .moduleCmd | .measureCmd | .tunerCmd => true
  | _ => false

/-- A command reaches its owner with the word as written, whatever the lock. -/
theorem judgeSlot_command (s : State) (sl : Slot) (v : Word) (hsl : isCommandSlot sl = true) :
    judgeSlot s sl .full v = .arrives sl v := by
  cases sl <;> simp only [isCommandSlot, Bool.false_eq_true] at hsl <;> exact judgeSlot_arrives s _ v v nofun rfl rfl

/-- A command whose owner's action ends in the request for the outcome's write-back. -/
theorem commandTaken (i : Instr) (sl : Slot) (v : Word) (s u : State) (h : PortOpen s) (hm : MemoryCanonical s)
    (hi : writeRow i = some (sl, .full, v)) (hsl : isCommandSlot sl = true) (hu : u.agent = s.agent) (hsd : u.sd = s.sd)
    (hd : u.dirty = s.dirty) (hatt : u.att = s.att)
    (hy : arrive sl v (arrived sl v s) = requestWriteBack sl { u with
      mem := (arrived sl v s).mem, lock := lockAfter s sl u.lock,
      agent := { u.agent with queue := queueAfter s sl [] } }) :
    ∃ t, exec i s = .next t ∧ WriteTaken sl v [sl] [] s u t := by
  rw [exec_writeRow i sl .full v s hi]
  refine rowTaken sl v v [sl] [] s u h hm (judgeSlot_command s sl v hsl) hu hsd ?_ (.same _ _ ?_) (pending_same hatt)
  · rw [hy, requestWriteBack_eq, queueAfter_one, hd]
  · rw [hy, requestWriteBack_dirty]
    exact hd

/-- The checks of START (R38). -/
theorem descriptorValid_iff (s : State) (r : Reader) :
    let base := r.baseHi.toNat * 0x10000 + r.baseLo.toNat
    let past := base + r.size * (r.channels * if r.width = 24 then 2 else 1) * 2
    descriptorValid s r = true ↔ r.fill < r.size ∧ past ≤ s.apertureBase + 0x10000
      ∧ (past ≤ s.apertureBase ∨ s.apertureBase + 0x1A00 ≤ base) := by
  simp only [descriptorValid, Bool.and_eq_true, Bool.or_eq_true, decide_eq_true_eq, and_assoc]
  exact Iff.rfl

/-! ### What the command slots' owners refuse -/

theorem streamCommand_stopped (m : StreamId) (v : Word) (s : State) (h : s.audioRuns = false) :
    streamCommand m v s = answerStream m .notAllowed s := by
  simp [streamCommand, streamStartCommand, streamStopCommand, h]

theorem streamStart_active (m : StreamId) (s : State) (h : (s.ms.get m).state ≠ .stopped) :
    streamCommand m 1 s = answerStream m .notAllowed s :=
  show streamStartCommand m s = _ from if_pos (by simp [Reader.active, h])

theorem streamStart_invalid (m : StreamId) (s : State) (h : s.audioRuns = true) (hst : (s.ms.get m).state = .stopped)
    (hv : ¬descriptorValid s (s.ms.get m) = true) : streamCommand m 1 s = answerStream m .invalid s := by
  have : streamCommand m 1 s = streamStartCommand m s := rfl
  rw [this, streamStartCommand]
  simp [h, Reader.active, hst, hv]

theorem streamCommand_other (m : StreamId) (v : Word) (s : State) (h : s.audioRuns = true) (h1 : v ≠ 1) (h2 : v ≠ 2) :
    streamCommand m v s = answerStream m .invalid s := by
  exact (if_neg h1).trans ((if_neg h2).trans (by rw [h]; rfl))

theorem moduleCommand_other (v : Word) (s : State) (h : v.toNat / 256 ≠ 1) :
    moduleCommand v s = answerModule .invalid s := by
  have := v.isLt
  exact if_pos (by simp only [field]; omega)

theorem moduleCommand_range (v : Word) (s : State) (h : v.toNat / 256 = 1) (hn : v.toNat % 256 = 0 ∨ 3 < v.toNat % 256) :
    moduleCommand v s = answerModule .range s := by
  have hin : field v 8 8 = 1 := by simp only [field]; omega
  have hfield : field v 0 8 = v.toNat % 256 := by simp [field]
  have hno : v.toNat % 256 ≠ 1 ∧ v.toNat % 256 ≠ 2 ∧ v.toNat % 256 ≠ 3 := by omega
  simp [moduleCommand, hin, hfield, hno]

/-- The word of a MEASURE request: its class, its input and its divider (R146). -/
theorem measureCommand_eq (v : Word) (s : State) :
    measureCommand v s =
      if v.toNat / 0x1000 ≠ 1 then answerMeasure .invalid s
      else if ¬(v.toNat / 16 % 256 ≤ 11 ∧ 1 ≤ v.toNat % 16 ∧ v.toNat % 16 ≤ 4) then answerMeasure .range s
      else if OnDemand.host ∈ s.meas.queue ∨ ∃ c, s.meas.conv = some c ∧ c.owner = .host then answerMeasure .busy s
      else answerMeasure .taken (measureTaken (v.toNat / 16 % 256) (v.toNat % 16) s) := by
  have hfields : field v 4 8 = v.toNat / 16 % 256 ∧ field v 0 4 = v.toNat % 16 := by simp [field]
  have hout : s.meas.hostOutstanding = true ↔ OnDemand.host ∈ s.meas.queue ∨ ∃ c, s.meas.conv = some c ∧ c.owner = .host := by
    rw [Meas.hostOutstanding, Bool.or_eq_true, List.contains_iff_mem]
    rcases s.meas.conv with _ | c <;> simp
  unfold measureCommand
  rw [hfields.1, hfields.2]
  refine if_congr (by omega) rfl (if_congr (by omega) rfl (if_congr hout rfl rfl))

/-- The words of the presets' commands (R165). -/
theorem tunerCommandOf_preset (v : Word) :
    (v.toNat / 256 = 1 → tunerCommandOf v = some (.recall (v.toNat % 256)))
    ∧ (v.toNat / 256 = 2 → tunerCommandOf v = some (.store (v.toNat % 256))) := by
  have hfields : field v 8 8 = v.toNat / 256 % 256 ∧ field v 0 8 = v.toNat % 256 := by simp [field]
  have hsmall : ∀ k : Word, k.toNat < 256 → 1 ≤ v.toNat / 256 → v ≠ k := fun k hk hv e => by subst e; omega
  constructor <;> intro hv <;>
    simp [tunerCommandOf, hfields, hv, hsmall 1#16 (by decide) (by omega), hsmall 2#16 (by decide) (by omega),
      hsmall 3#16 (by decide) (by omega), hsmall 4#16 (by decide) (by omega), hsmall 5#16 (by decide) (by omega)]

theorem tunerCommandOf_other (v : Word) (h : 5 < v.toNat ∨ v = 0) (h1 : ¬v.toNat / 256 = 1) (h2 : ¬v.toNat / 256 = 2) :
    tunerCommandOf v = none := by
  have hlt := v.isLt
  have hfield : field v 8 8 = v.toNat / 256 := by simp only [field]; omega
  have hne : ∀ k : Word, 1 ≤ k.toNat → k.toNat ≤ 5 → v ≠ k := fun k hk1 hk2 e => by
    subst e
    rcases h with h | h
    · omega
    · simp [h] at hk1
  simp [tunerCommandOf, hfield, h1, h2, hne 1#16 (by decide) (by decide), hne 2#16 (by decide) (by decide),
    hne 3#16 (by decide) (by decide), hne 4#16 (by decide) (by decide), hne 5#16 (by decide) (by decide)]

/-- A preset's command that is not taken. -/
theorem tunerCommand_refused (v : Word) (c : TunerCommand) (a : Answer) (s : State) (hc : tunerCommandOf v = some c)
    (ha : tunerAnswer s c = a) (hne : a ≠ .taken) : tunerCommand v s = answerTuner a s := by
  simp only [tunerCommand, hc]
  rw [ha]
  exact if_neg hne

/-- Settles O34, slot by slot. -/
theorem refusedCommandsChangeTheOutcomeAlone : Obligations.RefusedCommandsChangeTheOutcomeAlone := by
  unfold Obligations.RefusedCommandsChangeTheOutcomeAlone
  intro i sl v s h hm hi refused n isRecall isStore
  have href : ∀ ans, isCommandSlot sl = true → arrive sl v (arrived sl v s)
      = requestWriteBack sl { arrived sl v s with answers := ans } → refused ans := fun ans hsl hy =>
    commandTaken i sl v s { s with answers := ans } h hm hi hsl rfl rfl rfl rfl hy
  clear_value refused
  refine ⟨?system, ?stream, ?module, ?measure, ?tuner⟩
  case system =>
    rintro rfl
    refine ⟨fun h1 h2 => href _ rfl ((if_neg h1).trans (if_neg h2)), fun h2 hbusy => href _ rfl ?_⟩
    subst h2
    exact if_pos hbusy
  case stream =>
    rintro m rfl
    have hwith : ∀ a, streamCommand m v (arrived (.streamCmd m) v s) = answerStream m a (arrived (.streamCmd m) v s) →
        refused { s.answers with stream := s.answers.stream.set m a } := fun a hy => href _ rfl hy
    have hr : (arrived (.streamCmd m) v s).audioRuns = s.audioRuns := rfl
    have hv := descriptorValid_iff (arrived (.streamCmd m) v s) (s.ms.get m)
    refine ⟨fun hstop => hwith _ (streamCommand_stopped m v _ hstop),
      fun hruns h1 hst => hwith _ (h1 ▸ streamStart_active m _ hst), fun hruns h1 hst hbad => hwith _ ?_,
      fun hruns h1 h2 => hwith _ (streamCommand_other m v _ hruns h1 h2)⟩
    subst h1
    refine streamStart_invalid m _ hruns hst (mt hv.1 ?_)
    rintro ⟨hfill, hend, hpast⟩
    have hbase : (arrived (.streamCmd m) 1 s).apertureBase = s.apertureBase := rfl
    omega
  case module =>
    rintro rfl
    exact ⟨fun h1 => href _ rfl (moduleCommand_other v _ h1), fun h1 hn => href _ rfl (moduleCommand_range v _ h1 hn)⟩
  case measure =>
    rintro rfl
    have heq := measureCommand_eq v (arrived .measureCmd v s)
    exact ⟨fun hout => href _ rfl (heq.trans (if_pos hout)),
      fun hin hbad => href _ rfl (heq.trans ((if_neg (not_not.2 hin)).trans (if_pos hbad))),
      fun hin hgood hbusy => href _ rfl
        (heq.trans ((if_neg (not_not.2 hin)).trans ((if_neg (not_not.2 hgood)).trans (if_pos hbusy))))⟩
  case tuner =>
    rintro rfl
    obtain ⟨hrecall, hstore⟩ := tunerCommandOf_preset v
    refine ⟨fun hv h1 h2 => href _ rfl ?_, fun hform hn => href _ rfl ?_, fun h1 hn hbusy => href _ rfl ?_,
      fun h2 hn hbusy => href _ rfl ?_, fun h2 hn hnone hst => href _ rfl ?_⟩
    · simp only [arrive, tunerCommand, tunerCommandOf_other v hv h1 h2]
      rfl
    · rcases hform with h1 | h2
      · exact tunerCommand_refused v _ _ _ (hrecall h1) (if_pos hn) nofun
      · exact tunerCommand_refused v _ _ _ (hstore h2) (if_pos hn) nofun
    · obtain ⟨k, j, w, hb⟩ := hbusy
      refine tunerCommand_refused v _ .busy _ (hrecall h1) ((if_neg (Nat.not_lt.2 hn)).trans (if_pos ?_)) nofun
      simp [arrived, hb, Transfer.isStoring]
    · exact tunerCommand_refused v _ .busy _ (hstore h2) ((if_neg (Nat.not_lt.2 hn)).trans (if_pos hbusy)) nofun
    · refine tunerCommand_refused v _ .notAllowed _ (hstore h2)
        ((if_neg (Nat.not_lt.2 hn)).trans ((if_neg (not_not.2 hnone)).trans (if_pos ?_))) nofun
      simpa [arrived, Tuner.carries] using hst

end Sys2Proof.Machine

end

/-! The commands of the modules, of the measurement unit and of the presets that are taken (R130, R134, R144, R146,
R151, R169, R170). -/

section

set_option autoImplicit false

namespace Sys2Proof.Machine

/-! ### CLEAR_TRIP (R134) -/

/-- The entries that stand against a module (R134, R148). -/
theorem tripEntryStands_iff (s : State) (m : AmpModule) :
    tripEntryStands s m = true ↔ ∃ e ∈ s.meas.entries, e.violation = true ∧ e.action = .trip ∧ e.module = some m := by
  simp [tripEntryStands, and_assoc]

/-- Settles O28, by the steps of the judgement. -/
theorem clearTripFollowsItsSteps : Obligations.ClearTripFollowsItsSteps := by
  unfold Obligations.ClearTripFollowsItsSteps
  intro m n s h hm hn r against into
  obtain ⟨hword, hact⟩ : (0x01#8 ++ n : Word) = numWord (0x0100 + n.toNat)
      ∧ ∀ x, moduleCommand (numWord (0x0100 + n.toNat)) x = clearTripCommand m x := by
    simp only [List.mem_cons, Prod.mk.injEq, List.not_mem_nil, or_false] at hn
    rcases hn with ⟨rfl, rfl⟩ | ⟨rfl, rfl⟩ | ⟨rfl, rfl⟩ <;> exact ⟨by decide, fun _ => rfl⟩
  have hinto : ∀ (a : Answer) (r' : ModuleRec),
      (∀ x : State, x.mods = s.mods → x.meas = s.meas → x.clock = s.clock → clearTripCommand m x
        = answerModule a { x with mods := s.mods.set m r' }) → into a r' := fun a r' hy =>
    commandTaken (.clearTrip n .full) .moduleCmd _ s _ h hm (congrArg (fun w => some (Slot.moduleCmd, Lanes.full, w)) hword)
      rfl rfl rfl rfl rfl ((hact _).trans (hy _ rfl rfl rfl))
  have hr : s.mods.get m = r := rfl
  have hkeep : ∀ x : State, x.mods = s.mods → { x with mods := s.mods.set m r } = x := fun x hx => by
    rw [← hr, PerModule.set_get, ← hx]
  have hagainst : ∀ x : State, x.meas = s.meas → x.clock = s.clock →
      ((r.fltPin || tripEntryStands x m || (x.clock != .good) || (x.meas.result != .pass)) = true ↔ against) := by
    intro x hmeas hclock
    simp only [Bool.or_eq_true, tripEntryStands_iff, hmeas, hclock, against, bne_iff_ne]
    generalize (∃ e ∈ s.meas.entries, e.violation = true ∧ e.action = .trip ∧ e.module = some m) = stands
    tauto
  clear_value into against r
  refine ⟨fun hst => hinto _ _ fun x hx _ _ => ?_, fun hst hag => hinto _ _ fun x hx hmeas hclock => ?_,
    fun hst hag => hinto _ _ fun x hx hmeas hclock => ?_⟩
  all_goals unfold clearTripCommand; dsimp only; rw [hx, hr]
  · rw [if_pos hst, hkeep x hx]
  · rw [if_neg (not_not.2 hst), if_pos ((hagainst x hmeas hclock).2 hag), hkeep x hx]
  · have hgood : s.meas.result = .pass ∧ s.clock = .good := by
      have := mt (hagainst s rfl rfl).1 hag
      simp only [Bool.or_eq_true, not_or, Bool.not_eq_true, bne_eq_false_iff_eq] at this
      exact ⟨this.2, this.1.2⟩
    rw [if_neg (not_not.2 hst), if_neg (mt (hagainst x hmeas hclock).1 hag), clearTripTaken,
      startModule_off m _ _ (PerModule.get_upd_self _ _ _) rfl]
    simp only [updModule, modules_upd_set, hx, hr, hmeas, hclock, hgood, and_true]

/-! ### SELF_RECHECK and MEASURE (R130, R146, R151) -/

/-- Floor events one after another floor the channels of both. -/
theorem flooredChans_or (p q : Chan → Bool) (g : Gain) :
    flooredChans p (flooredChans q g) = flooredChans (fun ch => p ch || q ch) g := by
  simp only [flooredChans, PerChan.get_ofFn]
  congr 1
  refine PerChan.ext_get _ _ fun ch => ?_
  simp only [PerChan.get_ofFn]
  cases p ch <;> cases q ch <;> rfl

theorem flooredChans_none (p : Chan → Bool) (h : ∀ ch, p ch = false) (g : Gain) : flooredChans p g = g := by
  have hchans : (flooredChans p g).chans = g.chans := PerChan.ext_get _ _ fun ch => by simp [flooredChans, h]
  have heq : flooredChans p g = { g with chans := (flooredChans p g).chans } := rfl
  rw [heq, hchans]

/-- The modules that a self-check stops (R130). -/
def checkStops (s : State) (m : AmpModule) : Bool :=
  decide ((s.mods.get m).state = .starting ∨ (s.mods.get m).state = .on)

theorem selfCheckStop_eq (m : AmpModule) (s : State) :
    selfCheckStop m s = { s with
      mods := s.mods.set m (if checkStops s m then { s.mods.get m with state := .stopping, order := false }
        else s.mods.get m)
      gain := flooredChans (fun ch => chanModule ch == m && checkStops s m) s.gain } := by
  have hiff : ((s.mods.get m).state == .starting || (s.mods.get m).state == .on) = checkStops s m := by
    simp [checkStops, beq_eq_decide]
  unfold selfCheckStop
  dsimp only
  rw [hiff]
  cases checkStops s m
  · rw [flooredChans_none _ (by simp)]
    simp [PerModule.set_get]
  · simp [stopModule, floorModule, floorChans, mapChans, flooredChans, updModule, PerModule.upd]

/-- The self-check's result leaves PASS (R130). -/
theorem selfCheckStops_eq (s : State) :
    selfCheckStops s = { s with
      mods := .ofFn fun m =>
        if checkStops s m then { s.mods.get m with state := .stopping, order := false } else s.mods.get m
      gain := flooredChans (fun ch => checkStops s (chanModule ch)) s.gain } := by
  unfold selfCheckStops
  rw [selfCheckStop_eq, selfCheckStop_eq, selfCheckStop_eq]
  simp only [flooredChans_or]
  have hgain : (fun ch => chanModule ch == .c && checkStops s .c || (chanModule ch == .b && checkStops s .b
      || chanModule ch == .a && checkStops s .a)) = fun ch => checkStops s (chanModule ch) := by
    funext ch
    cases chanModule ch <;> simp [beq_eq_decide]
  rw [← hgain]
  apply State.ext_fields <;> simp [checkStops, PerModule.get_set]
  refine PerModule.ext_get _ _ fun m => ?_
  cases m <;> simp [PerModule.get_set]

/-- The word of a MEASURE request (R146). -/
theorem measureWord_eq (x : BitVec 8) (d : BitVec 4) :
    (0x1#4 ++ x ++ d : Word) = numWord (0x1000 + 16 * x.toNat + d.toNat) := by
  have hx := x.isLt
  have hd := d.isLt
  refine BitVec.eq_of_toNat_eq ?_
  rw [numWord_toNat _ (by omega), BitVec.toNat_append, BitVec.toNat_append, ← Nat.shiftLeft_add_eq_or_of_lt hx,
    ← Nat.shiftLeft_add_eq_or_of_lt hd]
  simp only [Nat.shiftLeft_eq, BitVec.toNat_ofNat]
  omega

/-- The word of a command with a number (R165). -/
theorem commandWord_eq (k : Nat) (n : BitVec 8) (hk : k < 256) :
    (BitVec.ofNat 8 k ++ n : Word) = numWord (256 * k + n.toNat) := by
  have hn := n.isLt
  refine BitVec.eq_of_toNat_eq ?_
  rw [numWord_toNat _ (by omega), BitVec.toNat_append, ← Nat.shiftLeft_add_eq_or_of_lt hn]
  simp only [Nat.shiftLeft_eq, BitVec.toNat_ofNat]
  omega

/-- Settles O26, request by request. -/
theorem requestsJoinTheConverterQueue : Obligations.RequestsJoinTheConverterQueue := by
  unfold Obligations.RequestsJoinTheConverterQueue
  intro s h hm
  refine ⟨fun hidle => ?_, fun x d hx hd1 hd4 hq hconv => ?_⟩
  · intro stops
    have harr : ∀ y, y.meas.result ≠ .running →
        arrive .systemCmd 0x0002#16 y = answerSystem .taken (startRecheck y) := fun y hy =>
      show selfRecheckCommand y = _ from if_neg hy
    refine commandTaken (.selfRecheck .full) .systemCmd _ s _ h hm rfl rfl rfl rfl rfl rfl ?_
    rw [harr (arrived .systemCmd 0x0002#16 s) hidle, startRecheck, selfCheckStops_eq]
    rfl
  · have hle := d.isLt
    have hword := numWord_toNat (0x1000 + 16 * x.toNat + d.toNat) (by omega)
    have h1 : (0x1000 + 16 * x.toNat + d.toNat) / 0x1000 = 1 := by omega
    have h2 : (0x1000 + 16 * x.toNat + d.toNat) / 16 % 256 = x.toNat := by omega
    have h3 : (0x1000 + 16 * x.toNat + d.toNat) % 16 = d.toNat := by omega
    refine commandTaken (.measure x d .full) .measureCmd _ s _ h hm
      (congrArg (fun w => some (Slot.measureCmd, Lanes.full, w)) (measureWord_eq x d)) rfl rfl rfl rfl rfl
      ((measureCommand_eq _ _).trans ?_)
    rw [hword, h1, h2, h3, if_neg (by simp), if_neg (by omega), if_neg]
    · rfl
    · rintro (hin | ⟨c, hc, hown⟩)
      · exact hq hin
      · exact hconv c hc hown

/-! ### RECALL and STORE (R169, R170) -/

/-- The weak count as AF follow leaves it (R173). -/
theorem normWeak_eq (s : State) : normWeak s = { s with tun := { s.tun with weak := weakKept s } } := by
  unfold normWeak weakKept
  split <;> rfl

/-- A taken command of the tuner that starts a preset transfer. -/
theorem transferTaken (i : Instr) (v : Word) (c : TunerCommand) (x : Transfer) (s : State) (h : PortOpen s)
    (hm : MemoryCanonical s) (hi : writeRow i = some (.tunerCmd, .full, v)) (hc : tunerCommandOf v = some c)
    (ha : ∀ y : State, y.tun = s.tun → tunerAnswer y c = .taken)
    (hact : ∀ y : State, y.agent.port = .free → y.tun = s.tun → y.sd = s.sd →
      tunerAct c y = { y with tun := { s.tun with transfer := x } }) :
    ∃ t, exec i s = .next t ∧ WriteTaken .tunerCmd v [.tunerCmd] [] s
      { s with
        answers := { s.answers with tuner := .taken }
        tun := { s.tun with transfer := x, weak := weakKept s } } t := by
  refine commandTaken i .tunerCmd v s _ h hm hi rfl rfl rfl rfl rfl ?_
  have harr : ∀ y, arrive .tunerCmd v y = tunerCommand v y := fun _ => rfl
  rw [harr, tunerCommand]
  simp only [hc]
  rw [ha (arrived .tunerCmd v s) rfl, if_pos rfl, hact (answerTuner .taken (arrived .tunerCmd v s)) ?_ (by simp [arrived])
    (by simp [arrived]), normWeak_eq, answerTuner, requestWriteBack_eq, requestWriteBack_eq]
  · rfl
  · rw [answerTuner, requestWriteBack_eq]
    exact h.free

/-- The snapshot that STORE takes (R170, 11.5). -/
theorem presetSnapshot_eq (s : State) :
    let d := s.sd.confirmed
    let whole := d.names.all Option.isSome
    let flags := (if s.tun.tunedBand = .am then 0x10 else 0) + (if whole = true then 0x40 else 0)
      + (if d.code.isSome = true then 0x80 else 0)
    let code := if s.tun.state = .verifying then s.tun.probe.original else s.tun.tunedCode
    let name := if whole = true then d.names.map fun x => x.getD 0 else [0, 0, 0, 0, 0, 0]
    let af := s.sd.af.take 8
    presetSnapshot s = [numWord flags, numWord code, d.code.getD 0] ++ name ++ [numWord af.length] ++ af.map numWord
      ++ List.replicate (8 - af.length) 0 := by
  have hband : ∀ b : Band, (match b with | .fm => 0 | .am => 0x10) = if b = .am then 0x10 else 0 := fun b => by
    cases b <;> rfl
  dsimp only
  rw [← hband]
  rfl

/-- Settles O33, by the transfer that each command starts. -/
theorem presetCommandsStartTransfers : Obligations.PresetCommandsStartTransfers := by
  unfold Obligations.PresetCommandsStartTransfers
  intro n s h hm hn into
  have hle : 256 * 2 + n.toNat < 0x10000 := by omega
  have hword : ∀ k, k < 3 → (numWord (256 * k + n.toNat)).toNat = 256 * k + n.toNat := fun k hk =>
    numWord_toNat _ (by omega)
  refine ⟨fun hno => ?_, fun hnone hst => ?_⟩
  · refine transferTaken (.recall n .full) _ (.recall n.toNat) _ s h hm
      (congrArg (fun w => some (Slot.tunerCmd, Lanes.full, w)) (commandWord_eq 1 n (by omega))) ?_ (fun y hy => ?_)
      fun y hport htun hsd => ?_
    · rw [(tunerCommandOf_preset _).1] <;> rw [hword 1 (by omega)]
      · congr 2
        omega
      · omega
    · refine (if_neg (Nat.not_lt.2 hn)).trans (if_neg ?_)
      rw [hy]
      cases hx : s.tun.transfer with
      | storing k j w => exact absurd hx (hno k j w)
      | _ => simp [Transfer.isStoring]
    · show recallCommand n.toNat y = _
      rw [recallCommand, discardRecall]
      cases hx : y.tun.transfer <;> simp [hport, updTun, htun]
  · intro d whole flags code name af
    rw [← presetSnapshot_eq s]
    refine transferTaken (.store n .full) _ (.store n.toNat) _ s h hm
      (congrArg (fun w => some (Slot.tunerCmd, Lanes.full, w)) (commandWord_eq 2 n (by omega))) ?_ (fun y hy => ?_)
      fun y hport htun hsd => ?_
    · rw [(tunerCommandOf_preset _).2] <;> rw [hword 2 (by omega)]
      · congr 2
        omega
      · omega
    · refine (if_neg (Nat.not_lt.2 hn)).trans ((if_neg ?_).trans (if_neg ?_))
      · rw [hy]
        exact not_not.2 hnone
      · rw [hy]
        simpa [Tuner.carries, or_iff_not_imp_left] using hst
    · show storeCommand n.toNat y = _
      simp only [storeCommand, presetSnapshot, hsd, updTun, htun]

end Sys2Proof.Machine

end

/-! The marks of the zone switch's steps (R26, R59, R77, R118), and the commands that bring about a change of a source's
carrying status. -/

section

set_option autoImplicit false

namespace Sys2Proof.Machine

/-! ### What the zones' steps mark -/

/-- Every mark that stood stands, and beside them only the zones' records and the delay record are marked. -/
structure PathMarked (s t : State) : Prop where
  keeps : ∀ r ∈ s.dirty, r ∈ t.dirty
  only : ∀ r ∈ t.dirty, r ∈ s.dirty ∨ r ∈ pathRecords

theorem PathMarked.same {s t : State} (h : t.dirty = s.dirty) : PathMarked s t :=
  ⟨fun _ hr => h ▸ hr, fun _ hr => .inl (h ▸ hr)⟩

theorem PathMarked.refl (s : State) : PathMarked s s := .same rfl

theorem PathMarked.trans {s t u : State} (h : PathMarked s t) (k : PathMarked t u) : PathMarked s u :=
  ⟨fun r hr => k.keeps r (h.keeps r hr), fun r hr => (k.only r hr).elim (h.only r) .inr⟩

theorem PathMarked.after {s t u : State} (h : PathMarked t u) (e : t.dirty = s.dirty) : PathMarked s u :=
  (PathMarked.same e).trans h

theorem zone_mem_pathRecords (z : Zone) : Rec.zone z ∈ pathRecords := by cases z <;> decide

theorem delay_mem_pathRecords : Rec.delay ∈ pathRecords := by decide

/-- A mark of a zone's record or of the delay record. -/
theorem markDirty_pathMarked {r : Rec} (s : State) (h : r ∈ pathRecords) : PathMarked s (markDirty r s) :=
  ⟨fun x hx => by simp [hx], fun x hx => by
    rw [markDirty_dirty, mem_insertRec] at hx
    exact hx.elim (fun e => .inr (e ▸ h)) .inl⟩

theorem moveZone_pathMarked (z : Zone) (f : ZoneRec → ZoneRec) (s : State) : PathMarked s (moveZone z f s) :=
  ⟨fun r hr => (mem_moveZone_dirty z f s r).2 (.inl hr), fun r hr =>
    ((mem_moveZone_dirty z f s r).1 hr).imp_right fun h => by rw [h.1]; exact zone_mem_pathRecords z⟩

theorem windDownReports_dirty (s : State) : (windDownReports s).dirty = s.dirty := by rw [windDownReports_eq]

theorem closeGate_pathMarked (z : Zone) (s : State) : PathMarked s (closeGate z s) := by
  refine .same ?_
  rw [closeGate, windDownReports_dirty]
  rfl

theorem delayApply_pathMarked (z : Zone) (s : State) : PathMarked s (delayApply z s) := by
  unfold delayApply
  split
  · have h : ∀ x : State, PathMarked x (markAll [.delay, .zone z] x) := fun x =>
      (markDirty_pathMarked x delay_mem_pathRecords).trans (markDirty_pathMarked _ (zone_mem_pathRecords z))
    exact (h _).after rfl
  · exact (markDirty_pathMarked _ delay_mem_pathRecords).after rfl

theorem holdChange_pathMarked (k : ChangeKind) (z : Zone) (s : State) : PathMarked s (holdChange k z s) :=
  moveZone_pathMarked z _ s

theorem examineZone_pathMarked (z : Zone) (s : State) : PathMarked s (examineZone z s).1 := by
  unfold examineZone
  dsimp only
  split
  · exact .refl s
  split
  · exact .same rfl
  split
  · split
    · exact (delayApply_pathMarked z _).after rfl
    · exact (holdChange_pathMarked .delay z _).after rfl
  · exact .same rfl

theorem examine_pathMarked (n : Nat) (s : State) : PathMarked s (examine n s) := by
  induction n generalizing s with
  | zero => exact .refl s
  | succ n ih =>
    rw [examine]
    dsimp only
    have h1 := examineZone_pathMarked .z1 s
    have h2 := h1.trans (examineZone_pathMarked .z2 _)
    split
    · exact h1.trans (ih _)
    · split
      · exact h2.trans (ih _)
      · exact h2

theorem examineZones_pathMarked (s : State) : PathMarked s (examineZones s) := examine_pathMarked 3 s

theorem examineAfter_pathMarked (h : HeldChanges) (s : State) : PathMarked s (examineAfter h s) := by
  unfold examineAfter
  split
  · exact examineZones_pathMarked s
  · exact .refl s

theorem decodeApply_pathMarked (s : State) : PathMarked s (decodeApply s) :=
  (markDirty_pathMarked _ (zone_mem_pathRecords .z1)).after rfl

theorem applyHeld_pathMarked (z : Zone) (s : State) : PathMarked s (applyHeld z s) := by
  unfold applyHeld
  dsimp only
  generalize hx : updZone z (fun r => { r with held := .empty }) s = x
  have h0 : PathMarked s x := .same (hx ▸ rfl)
  generalize hy : (if (s.zones.get z).held.decode = true then decodeApply x else x) = y
  have h1 : PathMarked x y := by
    subst hy
    split
    · exact decodeApply_pathMarked x
    · exact .refl x
  generalize hw : (if (s.zones.get z).held.speakers = true then speakersApply y else y) = w
  have h2 : PathMarked y w := by
    subst hw
    split
    · exact .same rfl
    · exact .refl y
  refine (h0.trans h1).trans (h2.trans ?_)
  split
  · exact delayApply_pathMarked z w
  · exact .refl w

theorem enterWaiting_pathMarked (z : Zone) (s : State) : PathMarked s (enterWaiting z s) :=
  (markDirty_pathMarked _ (zone_mem_pathRecords z)).after rfl

theorem connect_pathMarked (z : Zone) (src : Option Source) (s : State) : PathMarked s (connect z src s) := by
  unfold connect
  dsimp only
  generalize hx : updZone z (fun r => { r with connected := src, pending := src }) s = x
  refine PathMarked.after (t := x) ?_ (hx ▸ rfl)
  split
  · exact moveZone_pathMarked z _ _
  · split
    · exact moveZone_pathMarked z _ _
    · exact enterWaiting_pathMarked z _

theorem fadeOutEnd_pathMarked (z : Zone) (s : State) : PathMarked s (fadeOutEnd z s) :=
  (((closeGate_pathMarked z s).trans (applyHeld_pathMarked z _)).trans (connect_pathMarked z _ _)).trans
    (examineAfter_pathMarked _ _)

theorem reconfigureEnd_pathMarked (z : Zone) (s : State) : PathMarked s (reconfigureEnd z s) :=
  (((closeGate_pathMarked z s).trans (applyHeld_pathMarked z _)).trans (moveZone_pathMarked z _ _)).trans
    (examineAfter_pathMarked _ _)

theorem zoneLoss_pathMarked (z : Zone) (s : State) : PathMarked s (zoneLoss z s) := by
  have hdrop : PathMarked s (dropFade z s) := .same rfl
  unfold zoneLoss
  split
  · exact (closeGate_pathMarked z s).trans (enterWaiting_pathMarked z _)
  · exact (closeGate_pathMarked z s).trans (enterWaiting_pathMarked z _)
  · exact hdrop.trans (fadeOutEnd_pathMarked z _)
  · exact (((hdrop.trans (closeGate_pathMarked z _)).trans (applyHeld_pathMarked z _)).trans
      (enterWaiting_pathMarked z _)).trans (examineAfter_pathMarked _ _)
  · exact .refl s
  · exact .refl s

theorem zoneCarrying_pathMarked (z : Zone) (src : Source) (on : Bool) (s : State) :
    PathMarked s (zoneCarrying z src on s) := by
  unfold zoneCarrying zoneReturn
  split
  · split
    · split
      · exact moveZone_pathMarked z _ s
      · exact .refl s
    · exact zoneLoss_pathMarked z s
  · exact .refl s

theorem fadeStep_pathMarked (z : Zone) (s : State) : PathMarked s (fadeStep z s) := by
  have hset : ∀ f, PathMarked s (updZone z f s) := fun f => .same rfl
  unfold fadeStep
  dsimp only
  split
  · exact moveZone_pathMarked z _ s
  · split
    · exact (hset _).trans (fadeOutEnd_pathMarked z _)
    · exact hset _
  · split
    · exact (hset _).trans (reconfigureEnd_pathMarked z _)
    · exact hset _
  · exact .refl s
  · exact .refl s
  · exact .refl s

theorem recompute_pathMarked (s : State) : PathMarked s (recompute s) :=
  (examineZones_pathMarked _).after rfl

/-! ### Marks between two bounds -/

/-- The marks an effect sets itself, before publication: those that stood, those of `always`, some of `perhaps`, and
those of records that it changes. -/
structure SetsBetween (always perhaps : List Rec) (s y : State) : Prop where
  only : ∀ r ∈ y.dirty, r ∈ s.dirty ∨ r ∈ always ∨ r ∈ perhaps ∨ (r.isStream = false ∧ recWords s r ≠ recWords y r)
  keeps : ∀ r ∈ s.dirty, r ∈ y.dirty
  sets : ∀ r ∈ always, r ∈ y.dirty

theorem SetsMarks.between {always : List Rec} {s y : State} (perhaps : List Rec) (h : SetsMarks always s y) :
    SetsBetween always perhaps s y :=
  ⟨fun r hr => (h.only r hr).imp_right (.imp_right .inr), h.keeps, h.sets⟩

/-- The records of `perhaps` that an effect marks are marked as if always. -/
theorem SetsBetween.marked {always perhaps : List Rec} {s y : State} (h : SetsBetween always perhaps s y) :
    ∃ marked, SetsMarks marked s y ∧ (∀ r ∈ always, r ∈ marked) ∧ ∀ r ∈ marked, r ∈ always ∨ r ∈ perhaps := by
  refine ⟨always ++ perhaps.filter (· ∈ y.dirty), ⟨fun r hr => ?_, h.keeps, fun r hr => ?_⟩, fun r hr => by simp [hr],
    fun r hr => ?_⟩
  · rcases h.only r hr with h1 | h1 | h1 | h1
    · exact .inl h1
    · exact .inr (.inl (by simp [h1]))
    · exact .inr (.inl (by simp [h1, hr]))
    · exact .inr (.inr h1)
  · simp only [List.mem_append, List.mem_filter, decide_eq_true_eq] at hr
    exact hr.elim (h.sets r) And.right
  · simp only [List.mem_append, List.mem_filter] at hr
    exact hr.imp_right And.left

theorem SetsBetween.publish {always perhaps : List Rec} {s y : State} (h : SetsBetween always perhaps s y)
    (hst : s.att.pending &&& causeMask .station ≠ 0 → y.att.pending &&& causeMask .station ≠ 0) :
    MarksBetween always perhaps s (publish s y) := by
  obtain ⟨marked, hm, hl, hu⟩ := h.marked
  exact marksBetween_of_exactly (hm.exact marked s y hst) hl hu

/-- Marks of the zones' steps after an effect. -/
theorem PathMarked.between {s y t : State} (k : PathMarked y t) (hd : y.dirty = s.dirty) :
    SetsBetween [] pathRecords s t :=
  ⟨fun r hr => (k.only r hr).elim (fun h => .inl (hd ▸ h)) fun h => .inr (.inr (.inl h)),
    fun r hr => k.keeps r (hd ▸ hr), by simp⟩

/-! ### A change of carrying status (R26, R48) -/

/-- A carrying event's marks: the source's record, the attention record where SOURCE is new, and those of the zones'
steps while the audio blocks run. -/
theorem carryingEvent_marks (src : Source) (on : Bool) (s : State) :
    PathMarked (markDirty (.source src) (raise .source s)) (carryingEvent src on s)
      ∧ (s.audioRuns = false → (carryingEvent src on s).dirty = (markDirty (.source src) (raise .source s)).dirty) := by
  have hview : (markDirty (.source src) (raise .source { s with view := s.view.set src on })).dirty
      = (markDirty (.source src) (raise .source s)).dirty := by
    simp only [markDirty_dirty, raise]
    split <;> rfl
  refine ⟨?_, fun h => ?_⟩
  · unfold carryingEvent
    dsimp only
    refine (PathMarked.same hview).trans ?_
    split
    · exact (zoneCarrying_pathMarked .z1 src on _).trans (zoneCarrying_pathMarked .z2 src on _)
    · exact .refl _
  · rw [carryingEvent_stopped src on s h, hview]

/-- A change of carrying status from `was` to `now`, as an event where there is one. -/
def eventOf (src : Source) (was now : Bool) (s : State) : State := if was = now then s else carryingEvent src now s

theorem eventOf_att (src : Source) (was now : Bool) (s : State) :
    (eventOf src was now s).att = sourceNotice was now s.att := by
  unfold eventOf sourceNotice
  split
  · rfl
  · exact carryingEvent_att src now s

theorem eventOf_rest (src : Source) (was now : Bool) (s : State) :
    eventOf src was now s = afterCarrying s (eventOf src was now s) := by
  unfold eventOf
  split
  · rfl
  · exact carryingEvent_rest src now s

/-- Causes join the pending ones, and nothing else of the attention state changes. -/
def Grows (a b : Attention) : Prop := ∃ p, b = { a with pending := a.pending ||| p }

theorem Grows.refl (a : Attention) : Grows a a := ⟨0, by simp⟩

theorem Grows.trans {a b c : Attention} (h : Grows a b) (k : Grows b c) : Grows a c := by
  obtain ⟨p, rfl⟩ := h
  obtain ⟨q, rfl⟩ := k
  exact ⟨p ||| q, by simp [BitVec.or_assoc]⟩

theorem grows_raise (c : Cause) (s : State) : Grows s.att (raise c s).att := ⟨causeMask c, by rw [raise_att]⟩

theorem grows_notice (was now : Bool) (a : Attention) : Grows a (sourceNotice was now a) := by
  unfold sourceNotice
  split
  · exact .refl a
  · exact ⟨_, rfl⟩

/-- A pending cause stays pending. -/
theorem Grows.station {a b : Attention} (h : Grows a b) (hs : a.pending &&& causeMask .station ≠ 0) :
    b.pending &&& causeMask .station ≠ 0 := by
  obtain ⟨p, rfl⟩ := h
  exact or_keeps hs

/-- What has grown and stands as it did has not changed in between. -/
theorem Grows.between {a b c : Attention} (h : Grows a b) (k : Grows b c) (e : c.pending = a.pending) : b = a := by
  obtain ⟨p, rfl⟩ := h
  obtain ⟨q, rfl⟩ := k
  have hp : a.pending ||| p = a.pending := by
    refine BitVec.eq_of_getLsbD_eq fun i _ => ?_
    have := congrArg (BitVec.getLsbD · i) e
    simp only [BitVec.getLsbD_or] at this ⊢
    cases h1 : a.pending.getLsbD i <;> cases h2 : p.getLsbD i <;> simp_all
  rw [hp]

/-- How a step that always marks `always` reaches its state `z` before publication by a change of carrying status:
the event finds the state `y`, and what follows it leaves what the event changes. Beside SOURCE the attention state
has grown to `a`. -/
structure ByEvent (always : List Rec) (src : Source) (was now : Bool) (s y z : State) (a : Attention) : Prop where
  runs : y.audioRuns = s.audioRuns
  att : z.att = sourceNotice was now a
  view : z.view = (eventOf src was now y).view
  paths : SamePaths (eventOf src was now y) z
  before : Grows s.att y.att
  beyond : Grows y.att a
  keeps : ∀ r ∈ s.dirty, r ∈ y.dirty
  found : ∀ r ∈ y.dirty, r ∈ s.dirty ∨ r ∈ always ∨ (r = .attention ∧ y.att ≠ s.att)
  carried : ∀ r ∈ (eventOf src was now y).dirty, r ∈ z.dirty
  after : ∀ r ∈ z.dirty, r ∈ (eventOf src was now y).dirty ∨ r ∈ always ∨ (r = .attention ∧ a ≠ y.att)
  sets : ∀ r ∈ always, r ∈ z.dirty

section ByEvent

variable {always : List Rec} {src : Source} {was now : Bool} {s y z t : State} {a : Attention}
  (h : ByEvent always src was now s y z a)

include h

/-- Where the attention record shows no change, nothing has joined the pending causes. -/
theorem ByEvent.quiet (e : recWords s .attention = recWords z .attention) :
    y.att = s.att ∧ a = y.att ∧ (was ≠ now → s.att.pending &&& causeMask .source ≠ 0) := by
  have hp : z.att.pending = s.att.pending := by
    simp only [recWords, attentionWords, List.cons.injEq, and_true] at e
    exact e.1.symm
  have hz : Grows a z.att := by rw [h.att]; exact grows_notice was now a
  have hy : y.att = s.att := h.before.between (h.beyond.trans hz) hp
  have ha : a = s.att := (h.before.trans h.beyond).between hz hp
  refine ⟨hy, ha.trans hy.symm, fun hne hb => ?_⟩
  rw [h.att, sourceNotice, if_neg hne, ha] at hp
  have h1 := congrArg (BitVec.getLsbD · 1) hp
  have h2 := congrArg (BitVec.getLsbD · 1) hb
  simp [causeMask, causeBit] at h1 h2
  simp [h1] at h2

/-- The marks of such a step. -/
theorem ByEvent.marks : SetsBetween (always ++ carryingMarks src was now) (pathMarks was now s) s z := by
  have hatt : ∀ r, r = .attention ∧ (y.att ≠ s.att ∨ a ≠ y.att ∨ (was ≠ now ∧ y.att.pending &&& causeMask .source = 0)) →
      r.isStream = false ∧ recWords s r ≠ recWords z r := by
    rintro r ⟨rfl, hr⟩
    refine ⟨rfl, fun e => ?_⟩
    obtain ⟨hy, ha, hs⟩ := h.quiet e
    rcases hr with hr | hr | ⟨hne, hr⟩
    · exact hr hy
    · exact hr ha
    · exact hs hne (hy ▸ hr)
  have hfound : ∀ r ∈ y.dirty, r ∈ s.dirty ∨ r ∈ always ++ carryingMarks src was now
      ∨ r ∈ pathMarks was now s ∨ (r.isStream = false ∧ recWords s r ≠ recWords z r) := fun r hr => by
    rcases h.found r hr with h1 | h1 | ⟨h1, h2⟩
    · exact .inl h1
    · exact .inr (.inl (List.mem_append_left _ h1))
    · exact .inr (.inr (.inr (hatt r ⟨h1, .inl h2⟩)))
  have hevent : ∀ r ∈ (eventOf src was now y).dirty, r ∈ s.dirty ∨ r ∈ always ++ carryingMarks src was now
      ∨ r ∈ pathMarks was now s ∨ (r.isStream = false ∧ recWords s r ≠ recWords z r) := fun r hr => by
    by_cases hsame : was = now
    · rw [eventOf, if_pos hsame] at hr
      exact hfound r hr
    rw [eventOf, if_neg hsame] at hr
    obtain ⟨hpath, hstopped⟩ := carryingEvent_marks src now y
    have hcase : r ∈ (markDirty (.source src) (raise .source y)).dirty ∨ r ∈ pathMarks was now s := by
      by_cases hruns : s.audioRuns = true
      · exact (hpath.only r hr).imp_right fun hp => by rwa [pathMarks, if_pos ⟨hsame, hruns⟩]
      · rw [hstopped (by rw [h.runs]; simpa using hruns)] at hr
        exact .inl hr
    rcases hcase with h1 | h1
    · rw [markDirty_dirty, mem_insertRec, mem_raise_dirty] at h1
      rcases h1 with h1 | h1 | ⟨h1, h2⟩
      · exact .inr (.inl (by simp [carryingMarks, hsame, h1]))
      · exact hfound r h1
      · exact .inr (.inr (.inr (hatt r ⟨h1, .inr (.inr ⟨hsame, h2⟩)⟩)))
    · exact .inr (.inr (.inl h1))
  refine ⟨fun r hr => ?_, fun r hr => ?_, fun r hr => ?_⟩
  · rcases h.after r hr with h1 | h1 | ⟨h1, h2⟩
    · exact hevent r h1
    · exact .inr (.inl (List.mem_append_left _ h1))
    · exact .inr (.inr (.inr (hatt r ⟨h1, .inr (.inl h2)⟩)))
  · refine h.carried r ?_
    by_cases hsame : was = now
    · rw [eventOf, if_pos hsame]
      exact h.keeps r hr
    · rw [eventOf, if_neg hsame]
      exact (carryingEvent_marks src now y).1.keeps r (by simp [mem_raise_dirty, h.keeps r hr])
  · rcases List.mem_append.1 hr with h1 | h1
    · exact h.sets r h1
    · by_cases hsame : was = now
      · simp [carryingMarks, hsame] at h1
      · refine h.carried r ?_
        rw [eventOf, if_neg hsame]
        exact (carryingEvent_marks src now y).1.keeps r (by simp [carryingMarks, hsame] at h1; simp [h1])

theorem ByEvent.station (hs : s.att.pending &&& causeMask .station ≠ 0) : z.att.pending &&& causeMask .station ≠ 0 := by
  rw [h.att]
  exact ((h.before.trans h.beyond).trans (grows_notice was now a)).station hs

theorem ByEvent.change {x : State} (k : PathsAgree y x) (hv : t.view = z.view) (ht : SamePaths z t) :
    CarryingChange src was now x t :=
  carryingChange_congr (carryingChange_spec src was now y) k (hv.trans h.view) ⟨ht.zones.trans h.paths.zones,
    ht.gain.trans h.paths.gain, ht.mods.trans h.paths.mods, ht.dec.trans h.paths.dec, ht.bass.trans h.paths.bass,
    ht.pool.trans h.paths.pool⟩

end ByEvent

theorem publish_samePaths (s z : State) : SamePaths z (publish s z) := by
  constructor <;> simp

/-- The notice of a step that may change station content (R189). -/
theorem publish_stationNotice (s z : State) : StationNotice [] s z.att (publish s z) := by
  have hsame : ∀ r, r.isStation = true → recWords (publish s z) r = recWords z r := fun r hr => by
    rw [publish_eq]
    exact recWords_att_dirty z _ _ r fun e => by simp [e, Rec.isStation] at hr
  have hatt := publish_att_eq s z
  have hany : (changedRecords s z).any Rec.isStation = true
      ↔ ∃ r, r.isStation = true ∧ recWords s r ≠ recWords (publish s z) r := by
    rw [List.any_eq_true]
    constructor
    · rintro ⟨r, hr, hst⟩
      exact ⟨r, hst, by rw [hsame r hst]; exact ((mem_changedRecords s z r).1 hr).2⟩
    · rintro ⟨r, hst, hr⟩
      rw [hsame r hst] at hr
      exact ⟨r, (mem_changedRecords s z r).2 ⟨by cases r <;> simp_all [Rec.isStation, Rec.isStream], hr⟩, hst⟩
  refine ⟨?_, fun ⟨r, hst, hr⟩ => ?_, fun hno => ?_⟩
  · rw [hatt]
    split <;> rfl
  · rw [hatt, if_pos (hany.2 ⟨r, hst, by simpa using hr⟩)]
    rfl
  · rw [hatt, if_neg fun hc => ?_]
    obtain ⟨r, hst, hr⟩ := hany.1 hc
    exact hr (hno r hst).2

/-- A command of the part's own that brings about a change of carrying status. -/
theorem carryingStep_of_event (f : State → State) (always : List Rec) (src : Source) (was now : Bool) (s u y z : State)
    (h : s.rstnLow = false) (hf : f s = z) (hev : ByEvent always src was now s y z u.att) (k : PathsAgree y s)
    (hz : z = afterCarrying u z) (hsd : u.sd = s.sd) :
    ∃ t, act f s = .next t ∧ CarryingStep always src was now s u t := by
  have hzsd : z.sd = s.sd := by rw [hz]; exact hsd
  refine ⟨publish s z, by rw [act_high f s h, hf], ?_, ?_, hev.change k (by simp) (publish_samePaths s z),
    hev.marks.publish hev.station⟩
  · have hset : ∀ a d, { z with att := a, dirty := d } = afterCarrying u { z with att := a, dirty := d } :=
      fun a d => by rw [hz]; rfl
    rw [publish_eq]
    exact hset _ _
  · rw [publish_att s z hzsd, hev.att]

/-- A write whose owner's action brings about a change of carrying status. -/
theorem writeDone_of_event (sl : Slot) (v w : Word) (reqs : List Slot) (always : List Rec) (src : Source)
    (was now : Bool) (s u y z : State) (h : PortOpen s) (hm : MemoryCanonical s)
    (hj : judgeSlot s sl .full v = .arrives sl w) (hf : arrive sl w (arrived sl w s) = z)
    (hev : ByEvent always src was now s y z u.att)
    (hz : z = { afterCarrying u z with
      mem := (arrived sl w s).mem, lock := lockAfter s sl u.lock,
      agent := { u.agent with queue := queueAfter s sl reqs } })
    (hport : u.agent.port = .free) :
    ∃ t, slotRow sl .full v s = .next t
      ∧ WriteDone sl w reqs (always ++ carryingMarks src was now) (pathMarks was now s) s (afterCarrying u t) t
      ∧ StationNotice [] s (sourceNotice was now u.att) t ∧ t.view = z.view ∧ SamePaths z t
      ∧ (u.sd = s.sd → t.att = sourceNotice was now u.att) := by
  obtain ⟨marked, hmarks, hl, hu⟩ := hev.marks.marked
  obtain ⟨ht, hrest, hexact, hword, hbytes⟩ := writeTaken_port sl .full v w reqs marked s
    { afterCarrying u z with att := (publish s z).att } h hm hj (arrived sl w s) z rfl hf.symm
    (by rw [hz]; rfl) hport rfl hmarks hev.station
  set t := publish s (updAgent (fun g => { g with port := .free, lastPart := false }) z) with hdef
  have hview : t.view = z.view := by simp [hdef]
  have hpaths : SamePaths z t := by constructor <;> simp [hdef]
  have hnotice : StationNotice [] s z.att t :=
    publish_stationNotice s (updAgent (fun g => { g with port := .free, lastPart := false }) z)
  refine ⟨t, ht, ⟨?_, marksBetween_of_exactly hexact hl hu, hword, hbytes⟩, hev.att ▸ hnotice, hview, hpaths,
    fun hsd => ?_⟩
  · have hatt : t.att = (publish s z).att := by rw [hrest]
    rw [hrest]
    simp only [afterCarrying, ← hview, ← hatt, ← hpaths.zones, ← hpaths.gain, ← hpaths.mods, ← hpaths.dec, ← hpaths.bass,
      ← hpaths.pool]
  · rw [← hev.att, hdef, publish_att]
    · rfl
    · rw [hz]
      exact hsd

end Sys2Proof.Machine

end

/-! What the serial lines and the streams do of their own and by their commands (R26 to R35, R38, R39). -/

section

set_option autoImplicit false

namespace Sys2Proof.Machine

/-- A step of a line, with the event it brings about (R26). -/
theorem lineStepWith_eq (l : SaLine) (f : SaState → SaState) (s : State) :
    lineStepWith l f s
      = eventOf (.sa l) (s.sa.get l).carries (f (s.sa.get l)).carries (updLine l f s) := by
  unfold lineStepWith lineCarryingFrom eventOf
  rw [show ((updLine l f s).sa.get l) = f (s.sa.get l) from PerLine.get_upd_self _ _ _]
  exact if_congr eq_comm rfl rfl

/-- Two states agree in what an event reads where they have the same zones, lines and streams. -/
theorem pathsAgree_of_eq {s u : State} (h : SamePaths s u) (hv : u.view = s.view) (hr : u.audioRuns = s.audioRuns)
    (hsa : u.sa = s.sa) (hms : u.ms = s.ms) : PathsAgree s u :=
  ⟨h, hv, hr, fun x => by cases x <;> simp [sourceSet, hsa, hms]⟩

theorem eventOf_keeps (src : Source) (was now : Bool) (s : State) (r : Rec) (h : r ∈ s.dirty) :
    r ∈ (eventOf src was now s).dirty := by
  unfold eventOf
  split
  · exact h
  · exact (carryingEvent_marks src now s).1.keeps r (by simp [mem_raise_dirty, h])

/-- An event finds the state that its own step has made, with `always` marked and the attention state grown. -/
theorem byEvent_own (always : List Rec) (src : Source) (was now : Bool) (s y : State) (hr : y.audioRuns = s.audioRuns)
    (hg : Grows s.att y.att) (hk : ∀ r ∈ s.dirty, r ∈ y.dirty) (hs : ∀ r ∈ always, r ∈ y.dirty)
    (hf : ∀ r ∈ y.dirty, r ∈ s.dirty ∨ r ∈ always ∨ (r = .attention ∧ y.att ≠ s.att)) :
    ByEvent always src was now s y (eventOf src was now y) y.att where
  runs := hr
  att := eventOf_att src was now y
  view := rfl
  paths := ⟨rfl, rfl, rfl, rfl, rfl, rfl⟩
  before := hg
  beyond := .refl _
  keeps := hk
  found := hf
  carried _ h := h
  after _ h := .inl h
  sets r h := eventOf_keeps src was now y r (hs r h)

/-- An event finds the state that its own step has made, with `always` marked. -/
theorem byEvent_self (always : List Rec) (src : Source) (was now : Bool) (s y : State) (hr : y.audioRuns = s.audioRuns)
    (ha : y.att = s.att) (hd : ∀ r, r ∈ y.dirty ↔ r ∈ s.dirty ∨ r ∈ always) :
    ByEvent always src was now s y (eventOf src was now y) y.att :=
  byEvent_own always src was now s y hr (ha ▸ .refl _) (fun r h => (hd r).2 (.inl h)) (fun r h => (hd r).2 (.inr h))
    fun r h => ((hd r).1 h).imp_right .inl

/-- A raised cause changes the attention state where it marks the attention record. -/
theorem raise_att_ne (c : Cause) (s : State) (h : s.att.pending &&& causeMask c = 0) : (raise c s).att ≠ s.att := by
  intro e
  have hp := congrArg Attention.pending e
  rw [raise_att] at hp
  rw [← hp] at h
  have hb := congrArg (BitVec.getLsbD · (causeBit c)) h
  cases c <;> simp [causeMask, causeBit] at hb

theorem eventOf_same (src : Source) (b : Bool) (s : State) : eventOf src b b s = s := if_pos rfl

/-- A change of carrying status marks the source's record (R26). -/
theorem mem_eventOf_dirty (src : Source) {was now : Bool} (h : was ≠ now) (s : State) :
    Rec.source src ∈ (eventOf src was now s).dirty := by
  rw [eventOf, if_neg h]
  exact (carryingEvent_marks src now s).1.keeps _ (by simp)

/-! ### FORMAT (R28, R31, R35) -/

/-- A line that carries, by its lock and its NPCM level (R25). -/
theorem carries_iff (x : SaState) : x.carries = true ↔ x.lock = .locked ∧ x.npcmTaken = false := by
  simp [SaState.carries]

/-- Settles O24, by the lock state of the line. -/
theorem formatWriteUnlocksTheLine : Obligations.FormatWriteUnlocksTheLine := by
  unfold Obligations.FormatWriteUnlocksTheLine
  intro l v f s h hm hv x into
  obtain ⟨hword, hmem⟩ : formatOfWord v = f ∧ members [0, 1] v = some v := by
    simp only [List.mem_cons, Prod.mk.injEq, List.not_mem_nil, or_false] at hv
    rcases hv with ⟨rfl, rfl⟩ | ⟨rfl, rfl⟩ <;> decide
  have hj : judgeSlot s (.format l) .full v = .arrives (.format l) v := judgeSlot_arrives s _ v v nofun rfl hmem
  have harr : ∀ y, arrive (.format l) v y = formatArrival l f y := fun y => by rw [arrive, hword]
  have hinto : ∀ x', formatArrival l f (arrived (.format l) v s)
      = { arrived (.format l) v s with sa := s.sa.set l x' } → into x' := by
    intro x' heq
    refine rowTaken (.format l) v v [] [] s _ h hm hj rfl rfl ?_ ?_ id
    all_goals rw [harr, heq]
    · rfl
    · exact .same _ _ rfl
  have hx : s.sa.get l = x := rfl
  have hstep : ∀ y : State, y.sa = s.sa → y.audioRuns = s.audioRuns → f ≠ x.format → s.audioRuns = true →
      formatArrival l f y = eventOf (.sa l) x.carries ({ x with format := f } : SaState).formatChange.carries
        { y with sa := s.sa.set l ({ x with format := f } : SaState).formatChange } := by
    intro y hy hr hne hruns
    have hset : updLine l (fun x => ({ x with format := f } : SaState).formatChange) y
        = { y with sa := s.sa.set l ({ x with format := f } : SaState).formatChange } := by
      rw [updLine, hy, PerLine.upd, hx]
    unfold formatArrival
    rw [if_neg (by rw [hy, hx]; exact hne), if_pos (by rw [hr, hruns]), lineStepWith_eq, hset, hy, hx]
  have hstays : f ≠ x.format → s.audioRuns = true →
      x.carries = ({ x with format := f } : SaState).formatChange.carries →
      into ({ x with format := f } : SaState).formatChange := fun hne hruns hsame =>
    hinto _ ((hstep (arrived (.format l) v s) rfl rfl hne hruns).trans (if_pos hsame))
  clear_value into
  refine ⟨fun hsame => ?_, fun hne hstop => ?_, fun hne hruns => ⟨fun hst => ?_, fun hst => ?_, fun hst hnpcm => ?_,
    fun hst hnpcm => ?_⟩⟩
  · refine hinto _ ((if_pos (by rw [← hx] at hsame; exact hsame)).trans ?_)
    rw [← hx, PerLine.set_get]
    rfl
  · refine hinto _ ((if_neg (by rw [← hx] at hne; exact hne)).trans ((if_neg (by rw [← Bool.not_eq_true] at hstop; exact hstop)).trans ?_))
    rfl
  · have hchange : ({ x with format := f } : SaState).formatChange = { x with format := f } := by
      simp only [List.mem_cons, List.not_mem_nil, or_false] at hst
      rcases hst with hst | hst <;> simp [SaState.formatChange, hst]
    have := hstays hne hruns (by rw [hchange]; rfl)
    rwa [hchange] at this
  · have hchange : ({ x with format := f } : SaState).formatChange
        = { x with format := f, runClass := none, runCount := 0, otherRun := 0 } := by
      simp [SaState.formatChange, hst, SaState.clearRuns]
    have := hstays hne hruns (by rw [hchange]; rfl)
    rwa [hchange] at this
  all_goals
    have hchange : ({ x with format := f } : SaState).formatChange = { x with
        format := f, lock := .measuring, lockedClass := none, misses := 0, conv := .empty,
        runClass := none, runCount := 0, otherRun := 0 } := by
      simp [SaState.formatChange, hst, SaState.clearRuns, SaState.leaveLocked]
  · have := hstays hne hruns (by rw [hchange]; simp [SaState.carries, beq_eq_decide, hst, hnpcm])
    rwa [hchange] at this
  · intro u
    have hcarries : x.carries = true ∧ ({ x with format := f } : SaState).formatChange.carries = false := by
      rw [hchange]
      simp [SaState.carries, beq_eq_decide, hst, hnpcm]
    have heq := hstep (arrived (.format l) v s) rfl rfl hne hruns
    rw [hcarries.1, hcarries.2, hchange] at heq
    set y : State := { arrived (.format l) v s with sa := u.sa } with hy
    obtain ⟨t, ht, hdone, -, hview, hpaths, hatt⟩ := writeDone_of_event (.format l) v v [] [] (.sa l) true false s u y _ h
      hm hj ((harr _).trans heq) (byEvent_self [] _ _ _ s y rfl rfl fun r => by simp [hy, arrived])
      (eventOf_rest _ _ _ y) h.free
    exact ⟨t, ht, hdone, hatt rfl, carryingLost_congr (carryingEvent_lost (.sa l) y hruns)
      (pathsAgree_of_eq ⟨rfl, rfl, rfl, rfl, rfl, rfl⟩ rfl rfl rfl rfl) hview hpaths⟩

/-! ### A line's own events (R29 to R34) -/

/-- A step of a line that keeps its carrying status. -/
theorem lineStep_own (f : State → State) (l : SaLine) (g : SaState → SaState) (y' : SaState) (s : State)
    (h : s.rstnLow = false) (hf : f s = lineStepWith l g s) (hg : g (s.sa.get l) = y')
    (hsame : (s.sa.get l).carries = y'.carries) :
    ∃ t, act f s = .next t ∧ OwnStep [] s { s with sa := s.sa.set l y' } t := by
  refine ownStep_of_eq f [] s _ { s with sa := s.sa.set l y' } h ?_ rfl rfl rfl (.same _ _ rfl) id
  rw [hf, lineStepWith_eq, hg]
  refine (if_pos hsame).trans ?_
  rw [updLine, PerLine.upd, hg]

/-- A line that keeps its format is the same to the zones. -/
theorem pathsAgree_line (l : SaLine) (x' : SaState) (s : State) (h : x'.format = (s.sa.get l).format) :
    PathsAgree { s with sa := s.sa.set l x' } s := by
  refine ⟨⟨rfl, rfl, rfl, rfl, rfl, rfl⟩, rfl, rfl, fun x => ?_⟩
  cases x with
  | sa k =>
    by_cases hk : k = l
    · subst hk
      simp [sourceSet, h]
    · simp [sourceSet, PerLine.get_set, hk]
  | _ => rfl

/-- A step of a line that moves its carrying status. -/
theorem lineStep_moves (f : State → State) (l : SaLine) (g : SaState → SaState) (y' : SaState) (now : Bool) (s : State)
    (h : s.rstnLow = false) (hf : f s = lineStepWith l g s) (hg : g (s.sa.get l) = y')
    (hwas : (s.sa.get l).carries = !now) (hnow : y'.carries = now) (hformat : y'.format = (s.sa.get l).format) :
    ∃ t, act f s = .next t ∧ CarryingStep [] (.sa l) (!now) now s { s with sa := s.sa.set l y' } t := by
  have heq : f s = eventOf (.sa l) (!now) now { s with sa := s.sa.set l y' } := by
    rw [hf, lineStepWith_eq, hg, hwas, hnow, updLine, PerLine.upd, hg]
  exact carryingStep_of_event f [] (.sa l) (!now) now s { s with sa := s.sa.set l y' } _ _ h heq
    (byEvent_self [] _ _ _ s { s with sa := s.sa.set l y' } rfl rfl fun r => by simp) (pathsAgree_line l y' s hformat)
    (eventOf_rest _ _ _ _) rfl

/-- The class of an FCK count, by its rate class where it has one (R29). -/
theorem classify_eq (n : Nat) :
    let cls : Option RateClass :=
      if 31 ≤ n ∧ n ≤ 33 then some .k32 else if 43 ≤ n ∧ n ≤ 46 then some .k44
      else if 47 ≤ n ∧ n ≤ 49 then some .k48 else if 87 ≤ n ∧ n ≤ 90 then some .k88
      else if 94 ≤ n ∧ n ≤ 98 then some .k96 else none
    classify n = (if n = 0 then .silent else match cls with | some c => .rate c | none => .other)
      ∧ (n = 0 → cls = none) := by
  intro cls
  refine ⟨?_, fun h => by simp [cls, h]⟩
  unfold classify
  simp only [cls]
  (repeat' split) <;> simp_all

/-- The lock rule of a LOCKED line (R31). -/
theorem lockRule_locked (x : SaState) (k : WindowClass) (h : x.lock = .locked) :
    x.lockRule k =
      if x.lockedClass.map WindowClass.rate = some k then { x with misses := 0 }
      else if x.misses + 1 < 3 then { x with misses := x.misses + 1 }
      else x.leaveLocked (if k = .silent then .noClock else .measuring) := by
  simp only [SaState.lockRule, h]

/-- Settles O38, by the lock state and the window's class. -/
theorem saWindowEndFollowsLockTable : Obligations.SaWindowEndFollowsLockTable := by
  unfold Obligations.SaWindowEndFollowsLockTable
  intro l s h x n cls rates others y lockedY into moves
  obtain ⟨hclass, hsilent⟩ : classify n = (if n = 0 then .silent else match cls with | some c => .rate c | none => .other)
      ∧ (n = 0 → cls = none) := classify_eq n
  have hx : s.sa.get l = x := rfl
  have hn : x.edges = n := rfl
  have hend : x.windowEnd = { (x.countRuns (classify n)).lockRule (classify n) with
      edges := 0, afterSilence := decide (n = 0) } := rfl
  have hruns : x.countRuns (classify n) = { x with runClass := cls, runCount := rates, otherRun := others } := by
    rw [hclass]
    by_cases h0 : n = 0
    · simp [h0, SaState.countRuns, SaState.clearRuns, rates, others, hsilent h0]
    · rcases hc : cls with _ | c <;> simp [h0, hc, SaState.countRuns, rates, others]
  rw [hruns] at hend
  have hf : s.audioRuns = true → (if s.audioRuns then lineStepWith l SaState.windowEnd s else s)
      = lineStepWith l SaState.windowEnd s := fun hr => if_pos hr
  have hinto : s.audioRuns = true → ∀ y', x.windowEnd = y' → x.carries = y'.carries → into y' := fun hr y' he hc =>
    lineStep_own _ l SaState.windowEnd y' s h (hf hr) he hc
  have hmoves : s.audioRuns = true → ∀ now y', x.windowEnd = y' → x.carries = (!now) → y'.carries = now →
      y'.format = x.format → moves now y' := fun hr now y' he hwas hnow hformat =>
    lineStep_moves _ l SaState.windowEnd y' now s h (hf hr) he hwas hnow hformat
  have hquiet : classify n = .silent ↔ n = 0 := by
    rw [hclass]
    by_cases h0 : n = 0
    · simp [h0]
    · cases cls <;> simp [h0]
  have hmatch : x.lockedClass.map WindowClass.rate = some (classify n) ↔ cls ≠ none ∧ x.lockedClass = cls := by
    rw [hclass]
    by_cases h0 : n = 0
    · cases hl : x.lockedClass <;> simp [h0, hsilent h0]
    · cases cls <;> cases hl : x.lockedClass <;> simp [h0]
  have hnone : n = 0 → rates = 0 := fun h0 => by simp [rates, hsilent h0]
  clear hclass hruns
  generalize classify n = k at *
  clear_value into moves
  clear_value cls rates others
  refine ⟨fun hstop => act_same h (if_neg (by simp [hstop])), fun hr => ⟨fun hst => ⟨fun h0 => ?_, fun h0 => ?_⟩,
    fun hst => ⟨fun h0 => ?_, fun hrun hnpcm => ?_, fun hrun hnpcm => ?_, fun h0 hrun hoth => ?_, fun h0 hrun hoth => ?_⟩,
    fun hst => ?_⟩⟩
  · exact hinto hr _ (by simp [hend, SaState.lockRule, hst, hquiet, h0, y]) rfl
  · exact hinto hr _ (by simp [hend, SaState.lockRule, hst, hquiet, h0, y]) (by simp [SaState.carries, beq_eq_decide, hst])
  · simp only [List.mem_cons, List.not_mem_nil, or_false] at hst
    rcases hst with hst | hst <;>
      exact hinto hr _ (by simp [hend, SaState.lockRule, hst, hquiet, h0, y]) (by simp [SaState.carries, beq_eq_decide, hst])
  · have h0 : n ≠ 0 := fun h0 => by omega
    simp only [List.mem_cons, List.not_mem_nil, or_false] at hst
    rcases hst with hst | hst <;>
      exact hinto hr _ (by simp [hend, SaState.lockRule, SaState.enterLocked, hst, hquiet, h0, hrun, lockedY, y])
        (by simp [SaState.carries, beq_eq_decide, hst, hnpcm, lockedY, y])
  · have h0 : n ≠ 0 := fun h0 => by omega
    simp only [List.mem_cons, List.not_mem_nil, or_false] at hst
    rcases hst with hst | hst <;>
      exact hmoves hr true _ (by simp [hend, SaState.lockRule, SaState.enterLocked, hst, hquiet, h0, hrun, lockedY, y])
        (by simp [SaState.carries, beq_eq_decide, hst]) (by simp [SaState.carries, hnpcm, lockedY, y]) rfl
  · have hfew : ¬4 ≤ rates := Nat.not_le.2 hrun
    simp only [List.mem_cons, List.not_mem_nil, or_false] at hst
    rcases hst with hst | hst <;>
      exact hinto hr _ (by simp [hend, SaState.lockRule, hst, hquiet, h0, hfew, hoth, y]) (by simp [SaState.carries, beq_eq_decide, hst])
  · have hfew : ¬4 ≤ rates := Nat.not_le.2 hrun
    have hnot : ¬4 ≤ others := Nat.not_le.2 hoth
    simp only [List.mem_cons, List.not_mem_nil, or_false] at hst
    rcases hst with hst | hst <;>
      exact hinto hr _ (by simp [hend, SaState.lockRule, hst, hquiet, h0, hfew, hnot, y]) (by simp [SaState.carries, beq_eq_decide, hst, y])
  · intro out
    dsimp only at hend
    rw [lockRule_locked { x with runClass := cls, runCount := rates, otherRun := others } k hst] at hend
    refine ⟨fun hc hsame => ?_, fun hc hmiss => ?_, fun hc hmiss hnpcm => ?_, fun hc hmiss hnpcm => ?_⟩
    · rw [if_pos (hmatch.2 ⟨hc, hsame⟩)] at hend
      exact hinto hr _ hend rfl
    all_goals
      have hno : ¬(cls ≠ none ∧ x.lockedClass = cls) := by tauto
      rw [if_neg (mt hmatch.1 hno)] at hend
    · rw [if_pos hmiss] at hend
      exact hinto hr _ hend rfl
    all_goals
      have hout : x.windowEnd = out := by
        rw [hend, if_neg (Nat.not_lt.2 hmiss)]
        simp [SaState.leaveLocked, hquiet, out, y]
    · exact hinto hr _ hout (by simp [SaState.carries, hnpcm, y, out])
    · refine hmoves hr false _ hout (by simp [SaState.carries, hst, hnpcm]) ?_ rfl
      by_cases h0 : n = 0 <;> simp [SaState.carries, beq_eq_decide, out, h0]

end Sys2Proof.Machine

end

/-! The lines' frames and NPCM pins, and the streams' commands, frame instants and fetches (R27, R33, R38 to R42). -/

section

set_option autoImplicit false

namespace Sys2Proof.Machine

/-! ### Frames and NPCM (R27, R33, R34) -/

/-- What a line's record shows of it (R45). -/
def lineShown (x : SaState) : LockState × Option RateClass × Format × Bool :=
  (x.lock, x.lockedClass, x.format, x.npcmTaken)

/-- A line whose record stays is published without a mark. -/
theorem publish_line (l : SaLine) (x' : SaState) (s : State) (h : lineShown x' = lineShown (s.sa.get l)) :
    publish s { s with sa := s.sa.set l x' } = { s with sa := s.sa.set l x' } := by
  refine publish_quiet s _ fun r _ => ?_
  cases r with
  | zone z => cases z <;> rfl
  | source x =>
    cases x with
    | sa k =>
      by_cases hk : k = l
      · subst hk
        simp only [lineShown, Prod.mk.injEq] at h
        obtain ⟨hlock, hclass, hformat, hnpcm⟩ := h
        simp [recWords, sourceWords, SaState.carries, hlock, hclass, hformat, hnpcm]
      · simp [recWords, sourceWords, PerLine.get_set, hk]
    | _ => rfl
  | _ => rfl

/-- A command of the part's own that changes a line and leaves its record. -/
theorem act_line (f : State → State) (l : SaLine) (x' : SaState) (s : State) (h : s.rstnLow = false)
    (hf : f s = { s with sa := s.sa.set l x' }) (hshown : lineShown x' = lineShown (s.sa.get l)) :
    act f s = .next { s with sa := s.sa.set l x' } := by
  rw [act_high f s h, hf, publish_line l x' s hshown]

/-- Settles O39, part by part. -/
theorem saFramesAndNpcmFollowTheLine : Obligations.SaFramesAndNpcmFollowTheLine := by
  unfold Obligations.SaFramesAndNpcmFollowTheLine
  refine ⟨fun l slots s hr => ?_, fun l level s => ?_, fun l s hr => ?_⟩
  · intro x w f y
    have hframe : slotFrame x.format slots = f := rfl
    have hgo : ∀ y', x.frame slots = y' → lineShown y' = lineShown x →
        exec (.saFrame l slots) s = .next { s with sa := s.sa.set l y' } := fun y' he hshown =>
      act_line _ l y' s hr.1 ((if_pos hr.2).trans (by rw [updLine, PerLine.upd, show s.sa.get l = x from rfl, he])) hshown
    refine ⟨fun hlock hnpcm => hgo _ ?_ rfl, fun hno => hgo _ ?_ rfl⟩
    · have hc : x.carries = true := (carries_iff x).2 ⟨hlock, hnpcm⟩
      simp [SaState.frame, hc, hframe, Converter.take, converterDepth, y]
    · have hc : x.carries = false := by
        rw [← Bool.not_eq_true, carries_iff]
        rintro ⟨h1, h2⟩
        rcases hno with hno | hno
        · exact hno h1
        · simp [h2] at hno
      simp [SaState.frame, hc, y]
  · intro x
    refine ⟨fun hsame => ?_, fun hne => ?_⟩
    · exact congrArg Host.Outcome.next (if_pos hsame)
    · exact congrArg Host.Outcome.next (if_neg hne)
  · intro x u
    have hgo : x.npcmTimer = true → (s.audioRuns && x.npcmTimer) = true := fun ht => by rw [hr.2, ht]; rfl
    have hstep : x.npcmTimer = true → x.npcmTaken ≠ x.npcmPin → npcmStable l s = markDirty (.source (.sa l))
        (eventOf (.sa l) x.carries ({ x with npcmTimer := false, npcmTaken := x.npcmPin, conv := .empty } : SaState).carries
          u) := by
      intro ht hne
      unfold npcmStable
      dsimp only
      refine (if_pos (hgo ht)).trans ((if_neg hne).trans ?_)
      rw [lineStepWith_eq]
      rfl
    refine ⟨fun ht => act_same hr.1 (if_neg (by simp [show (s.sa.get l).npcmTimer = false from ht])), fun ht hsame => ?_,
      fun ht hne hlock => ?_, fun ht hne hlock => ?_⟩
    · exact act_line _ l _ s hr.1 ((if_pos (hgo ht)).trans (if_pos hsame)) rfl
    · have heq := hstep ht hne
      rw [show x.carries = false by simp [SaState.carries, hlock], show ({ x with
        npcmTimer := false, npcmTaken := x.npcmPin, conv := .empty } : SaState).carries = false by
          simp [SaState.carries, hlock], eventOf_same] at heq
      refine ownStep_of_eq (npcmStable l) [.source (.sa l)] s u _ hr.1 heq rfl rfl rfl ?_ id
      exact .marks _ _ _ fun r => by simp [u, or_comm]
    · have hwas : x.carries = !x.npcmTaken := by simp [SaState.carries, hlock]
      have hnow : ({ x with npcmTimer := false, npcmTaken := x.npcmPin, conv := .empty } : SaState).carries = !x.npcmPin := by
        simp [SaState.carries, hlock]
      have heq := hstep ht hne
      rw [hwas, hnow] at heq
      have hmark := mem_eventOf_dirty (.sa l) (fun h => hne (Bool.not_inj h)) u (was := !x.npcmTaken) (now := !x.npcmPin)
      have hev := byEvent_self [] (.sa l) (!x.npcmTaken) (!x.npcmPin) s u rfl rfl fun r => by simp [u]
      refine carryingStep_of_event (npcmStable l) [] (.sa l) _ _ s u u _ hr.1 heq
        { hev with
          paths := ⟨rfl, rfl, rfl, rfl, rfl, rfl⟩
          carried := fun r h => ?_
          after := fun r h => .inl ?_
          sets := by simp } (pathsAgree_line l _ s rfl) ?_ rfl
      · rw [markDirty_dirty, mem_insertRec]
        exact .inr h
      · rw [markDirty_dirty, mem_insertRec] at h
        exact h.elim (fun e => e ▸ hmark) id
      · have hrest := eventOf_rest (.sa l) (!x.npcmTaken) (!x.npcmPin) u
        rw [hrest]
        rfl

/-! ### The streams' moves (R38 to R40) -/

/-- A stream that keeps its channel count is the same to the zones. -/
theorem pathsAgree_stream (m : StreamId) (r' : Reader) (s y : State) (hp : SamePaths y s) (hv : y.view = s.view)
    (hr : y.audioRuns = s.audioRuns) (hsa : y.sa = s.sa) (hms : y.ms = s.ms.set m r')
    (h : r'.channels = (s.ms.get m).channels) : PathsAgree y s := by
  refine ⟨hp, hv.symm, hr.symm, fun x => ?_⟩
  cases x with
  | sa k => simp [sourceSet, hsa]
  | ms k =>
    by_cases hk : k = m
    · subst hk
      simp [sourceSet, hms, h]
    · simp [sourceSet, hms, PerStream.get_set, hk]
  | tuner => rfl

/-- A move of a stream, with the event it brings about (R26, R43). -/
theorem enterStreamState_eq (m : StreamId) (next : StreamState) (s : State) :
    enterStreamState m next s
      = eventOf (.ms m) ((s.ms.get m).state == .running) (next == .running)
          (markDirty (.stream m) { s with ms := s.ms.set m { s.ms.get m with state := next } }) := by
  unfold enterStreamState eventOf
  exact if_congr eq_comm rfl rfl

/-- A fetch burst that is not in flight is not discarded. -/
theorem discardFetch_free (m : StreamId) (s : State) (h : s.agent.port = .free) : discardFetch m s = s := by
  rw [discardFetch, h]

/-- A stream updated before it moves (R38, R39). -/
theorem enterStreamState_upd (m : StreamId) (next : StreamState) (f : Reader → Reader) (s : State)
    (hf : (f (s.ms.get m)).state = (s.ms.get m).state) :
    enterStreamState m next (updReader m f s)
      = eventOf (.ms m) ((s.ms.get m).state == .running) (next == .running)
          (markDirty (.stream m) { s with ms := s.ms.set m { f (s.ms.get m) with state := next } }) := by
  have hget : (updReader m f s).ms.get m = f (s.ms.get m) := PerStream.get_upd_self _ _ _
  rw [enterStreamState_eq, hget, hf]
  congr 3
  refine PerStream.ext_get _ _ fun k => ?_
  by_cases hk : k = m <;> simp [updReader, PerStream.get_upd, PerStream.get_set, hk]

theorem answerStream_eq (m : StreamId) (a : Answer) (s : State) :
    answerStream m a s = requestWriteBack (.streamCmd m)
      { s with answers := { s.answers with stream := s.answers.stream.set m a } } := rfl

/-- Settles O27, by the stream's state. -/
theorem streamCommandsStartAndStop : Obligations.StreamCommandsStartAndStop := by
  unfold Obligations.StreamCommandsStartAndStop
  intro m s h hm hruns r base past ok stopped
  have hr : s.ms.get m = r := rfl
  have hstop : ∀ x : State, x.ms = s.ms → x.audioRuns = true → x.agent.port = .free → r.state ≠ .stopped →
      arrive (.streamCmd m) 0x0002#16 x = answerStream m .taken (eventOf (.ms m) (r.state == .running) false
        (markDirty (.stream m) { x with
          ms := s.ms.set m { r with state := .stopped, buffer := [], conv := .empty } })) := by
    intro x hx hxr hport hst
    have hcmd : arrive (.streamCmd m) 0x0002#16 x = streamStopCommand m x := rfl
    rw [hcmd, streamStopCommand, if_neg (by simp [hxr]), if_pos (by simp [hx, hr, Reader.active, hst]), streamStopTaken,
      discardFetch_free m x hport, enterStreamState_upd m .stopped _ x rfl, hx, hr]
    rfl
  refine ⟨fun hst hfill hend hpast => ?_, fun hst => ?_, fun hst => ?_, fun hst => ?_⟩
  · have hstart : ∀ x : State, x.ms = s.ms → x.audioRuns = true → x.strap = s.strap →
        arrive (.streamCmd m) 0x0001#16 x = answerStream m .taken (markDirty (.stream m) { x with
          ms := s.ms.set m
            { r with state := .priming, drain := 0, buffer := [], starvations := 0, conv := .empty } }) := by
      intro x hx hxr hstrap
      have hcmd : arrive (.streamCmd m) 0x0001#16 x = streamStartCommand m x := rfl
      have hbase : x.apertureBase = s.apertureBase := congrArg (fun b => fittedBytes b - 0x10000) hstrap
      have hvalid : descriptorValid x r = true := by
        refine (descriptorValid_iff x r).2 ?_
        rw [hbase]
        exact ⟨hfill, hend, hpast⟩
      rw [hcmd, streamStartCommand, hx, hr, if_neg (by simp [hxr, Reader.active, hst]), if_pos hvalid, streamStartTaken,
        enterStreamState_upd m .priming _ x rfl, hx, hr, hst]
      rfl
    refine rowTaken (.streamCmd m) _ _ [.streamCmd m] [.stream m] s _ h hm (judgeSlot_command s _ _ rfl) rfl rfl ?_ ?_ id
    all_goals rw [hstart (arrived (.streamCmd m) 0x0001#16 s) rfl hruns rfl, answerStream_eq, requestWriteBack_eq]
    · rw [queueAfter_one]
      rfl
    · exact .marks _ _ _ fun x => by simp [arrived, or_comm]
  · refine commandTaken (.streamStop m .full) (.streamCmd m) _ s _ h hm rfl rfl rfl rfl rfl rfl ?_
    have hidle : ∀ x : State, x.ms = s.ms → x.audioRuns = true →
        arrive (.streamCmd m) 0x0002#16 x = answerStream m .taken x := by
      intro x hx hxr
      have hcmd : arrive (.streamCmd m) 0x0002#16 x = streamStopCommand m x := rfl
      rw [hcmd, streamStopCommand, if_neg (by simp [hxr]), if_neg (by simp [hx, hr, Reader.active, hst])]
    exact hidle (arrived (.streamCmd m) 0x0002#16 s) rfl hruns
  · have hstill : r.state ≠ .stopped ∧ (r.state == .running) = false := by
      simp only [List.mem_cons, List.not_mem_nil, or_false] at hst
      rcases hst with hst | hst <;> simp [hst, beq_eq_decide]
    refine rowTaken (.streamCmd m) _ _ [.streamCmd m] [.stream m] s _ h hm (judgeSlot_command s _ _ rfl) rfl rfl ?_ ?_ id
    all_goals rw [hstop (arrived (.streamCmd m) 0x0002#16 s) rfl hruns h.free hstill.1, hstill.2, eventOf_same,
      answerStream_eq, requestWriteBack_eq]
    · rw [queueAfter_one]
      rfl
    · exact .marks _ _ _ fun x => by simp [arrived, or_comm]
  · have heq := hstop (arrived (.streamCmd m) 0x0002#16 s) rfl hruns h.free (by simp [hst])
    rw [hst, show (StreamState.running == .running) = true from rfl] at heq
    set y := markDirty (.stream m) { arrived (.streamCmd m) 0x0002#16 s with ms := stopped.ms } with hy
    have hrest := eventOf_rest (.ms m) true false y
    set e := eventOf (.ms m) true false y with he
    have hev : ByEvent [.stream m] (.ms m) true false s y e y.att :=
      byEvent_self _ _ _ _ s y rfl rfl fun r => by simp [hy, arrived, or_comm]
    rw [answerStream_eq, requestWriteBack_eq] at heq
    obtain ⟨t, ht, hdone, -, hview, hpaths, hatt⟩ := writeDone_of_event (.streamCmd m) _ _ [.streamCmd m] [.stream m] (.ms m)
      true false s stopped y _ h hm (judgeSlot_command s _ _ rfl) heq
      ⟨hev.runs, hev.att, hev.view, ⟨rfl, rfl, rfl, rfl, rfl, rfl⟩, hev.before, hev.beyond, hev.keeps, hev.found, hev.carried,
        hev.after, hev.sets⟩ (by rw [hrest, queueAfter_one]; rfl) h.free
    have hchange : CarryingChange (.ms m) true false s t := hev.change
      (pathsAgree_stream m { r with state := .stopped, buffer := [], conv := .empty } s y ⟨rfl, rfl, rfl, rfl, rfl, rfl⟩
        rfl rfl rfl rfl rfl) hview ⟨hpaths.zones, hpaths.gain, hpaths.mods, hpaths.dec, hpaths.bass, hpaths.pool⟩
    exact ⟨t, ht, hdone, hatt rfl, hchange.lost rfl rfl hruns⟩

end Sys2Proof.Machine

end

/-! The streams' frame instants and fetches (R40 to R42). -/

section

set_option autoImplicit false

namespace Sys2Proof.Machine

/-! ### The frames that ring words hold (R37) -/

/-- A sample of ring words (R37). -/
def ringSample (wide : Bool) (ws : List Word) (j : Nat) : Sample :=
  if wide then ws.getD (2 * j) 0 ++ (ws.getD (2 * j + 1) 0).extractLsb' 0 8 else ws.getD j 0 ++ 0#8

theorem samplesOfWords_narrow (ws : List Word) :
    samplesOfWords false ws = (List.range ws.length).map (ringSample false ws) := by
  induction ws with
  | nil => rfl
  | cons w rest ih =>
    have hstep : samplesOfWords false (w :: rest) = (w ++ 0#8) :: samplesOfWords false rest := by
      cases rest <;> rfl
    rw [hstep, ih, List.length_cons, List.range_succ_eq_map, List.map_cons, List.map_map]
    rfl

theorem samplesOfWords_wide (n : Nat) (ws : List Word) (h : ws.length = 2 * n) :
    samplesOfWords true ws = (List.range n).map (ringSample true ws) := by
  induction n generalizing ws with
  | zero =>
    rw [List.length_eq_zero_iff.1 h]
    rfl
  | succ n ih =>
    match ws, h with
    | w :: v :: rest, h =>
      have hstep : samplesOfWords true (w :: v :: rest)
          = (w ++ v.extractLsb' 0 8) :: samplesOfWords true rest := rfl
      rw [hstep, ih rest (by simp at h; omega), List.range_succ_eq_map, List.map_cons, List.map_map]
      refine congrArg₂ List.cons rfl (List.map_congr_left fun j _ => ?_)
      simp [ringSample, show 2 * (j + 1) = 2 * j + 1 + 1 by omega]

/-- The samples of ring words, each at its place (R37). -/
theorem samplesOfWords_eq (wide : Bool) (k : Nat) (ws : List Word) (h : ws.length = k * if wide then 2 else 1) :
    samplesOfWords wide ws = (List.range k).map (ringSample wide ws) := by
  cases wide with
  | false =>
    rw [samplesOfWords_narrow, h]
    simp
  | true => exact samplesOfWords_wide k ws (by simp at h; omega)

theorem stereoFrames_range (n : Nat) (f : Nat → Sample) :
    stereoFrames ((List.range (n * 2)).map f) = (List.range n).map fun i => .stereo (f (2 * i)) (f (2 * i + 1)) := by
  induction n generalizing f with
  | zero => rfl
  | succ n ih =>
    have hsplit : (List.range ((n + 1) * 2)).map f = f 0 :: f 1 :: (List.range (n * 2)).map fun j => f (j + 2) := by
      rw [show (n + 1) * 2 = n * 2 + 1 + 1 by omega, List.range_succ_eq_map, List.range_succ_eq_map]
      simp [Function.comp_def]
    rw [hsplit, stereoFrames, ih, List.range_succ_eq_map]
    simp [Function.comp_def, Nat.mul_add]

theorem eightFrames_range (n : Nat) (f : Nat → Sample) :
    eightFrames ((List.range (n * 8)).map f) = (List.range n).map fun i =>
      .eight (f (8 * i)) (f (8 * i + 1)) (f (8 * i + 2)) (f (8 * i + 3)) (f (8 * i + 4)) (f (8 * i + 5)) (f (8 * i + 6))
        (f (8 * i + 7)) := by
  induction n generalizing f with
  | zero => rfl
  | succ n ih =>
    have hsplit : (List.range ((n + 1) * 8)).map f = f 0 :: f 1 :: f 2 :: f 3 :: f 4 :: f 5 :: f 6 :: f 7
        :: (List.range (n * 8)).map fun j => f (j + 8) := by
      rw [show (n + 1) * 8 = 8 + n * 8 by omega, List.range_add, List.map_append, List.map_map]
      simp [List.range_succ, Function.comp_def, Nat.add_comm]
    rw [hsplit, eightFrames, ih, List.range_succ_eq_map]
    simp [Function.comp_def, Nat.mul_add]

/-- The frames that the words of a fetch hold (R37). -/
theorem framesOf_eq (r : Reader) (n : Nat) (ws : List Word) (hc : r.channels ∈ [2, 8])
    (h : ws.length = n * wordsOfFrame r) : r.framesOf ws = (List.range n).map (ringFrame r ws) := by
  have hwide : ∀ i k, ringSample (r.width == 24) ws (i * r.channels + k) =
      if r.width = 24 then
        ws.getD (2 * (i * r.channels + k)) 0 ++ (ws.getD (2 * (i * r.channels + k) + 1) 0).extractLsb' 0 8
      else ws.getD (i * r.channels + k) 0 ++ 0#8 := fun i k => by
    by_cases hw : r.width = 24 <;> simp [ringSample, hw]
  have hlen : ws.length = n * r.channels * if (r.width == 24) = true then 2 else 1 := by
    rw [h, wordsOfFrame, Nat.mul_assoc]
    simp only [beq_iff_eq]
  unfold Reader.framesOf ringFrame
  rw [samplesOfWords_eq _ _ _ hlen]
  simp only [← hwide]
  simp only [List.mem_cons, List.not_mem_nil, or_false] at hc
  rcases hc with hc | hc
  · simp only [hc]
    refine (stereoFrames_range n _).trans ?_
    simp [Nat.mul_comm]
  · simp only [hc]
    refine (eightFrames_range n _).trans ?_
    simp [Nat.mul_comm]

/-! ### The end of a part burst with no access held (R12) -/

/-- With no access held the end of a burst is what its requester does. -/
theorem partBurstEnd_unheld (b : Burst) (s : State) (h : s.rstnLow = false) (hport : s.agent.port = .part b)
    (hheld : (burstDone b s).agent.held = none) : exec .partBurstEnd s = act (burstDone b) s := by
  have hexec : exec .partBurstEnd s = execPartBurstEnd s := rfl
  have hnext : (publish s (burstDone b s)).agent.held = none := by simp [hheld]
  rw [hexec, execPartBurstEnd, hport]
  simp only
  rw [actTwice_high _ _ s h, act_high _ s h, carryHeld, hnext]
  exact congrArg _ (publish_same _ _ rfl rfl rfl rfl rfl rfl rfl rfl rfl rfl rfl rfl rfl rfl)

/-! ### Frame instants and fetches (R40 to R42) -/

/-- A command of the part's own that changes a stream and leaves its state. -/
theorem act_stream (f : State → State) (m : StreamId) (r' : Reader) (s : State) (h : s.rstnLow = false)
    (hf : f s = { s with ms := s.ms.set m r' }) (hst : r'.state = (s.ms.get m).state) :
    act f s = .next { s with ms := s.ms.set m r' } := by
  rw [act_high f s h, hf, publish_quiet]
  intro r hr
  cases r with
  | zone z => cases z <;> rfl
  | source x =>
    cases x with
    | ms k =>
      by_cases hk : k = m
      · subst hk
        simp [recWords, sourceWords, hst]
      · simp [recWords, sourceWords, PerStream.get_set, hk]
    | _ => rfl
  | stream k => simp [Rec.isStream] at hr
  | _ => rfl

/-- A frame instant on an empty buffer (R40). -/
theorem starve_step (m : StreamId) (s : State) (h : s.rstnLow = false) (f : State → State) (hf : f s = starve m s)
    (hst : (s.ms.get m).state = .running) :
    let r := s.ms.get m
    ∃ t, act f s = .next t ∧ CarryingStep [.stream m] (.ms m) true false s
      { s with
        ms := s.ms.set m { r with state := .starved, starvations := (r.starvations + 1) % 65536, conv := .empty }
        att := { s.att with pending := s.att.pending ||| 0x0004#16 } } t := by
  intro r
  set r' : Reader := { r with starvations := (r.starvations + 1) % 65536, conv := .empty } with hr'
  set x := raise .stream { s with ms := s.ms.set m r' } with hx
  have hxms : x.ms = s.ms.set m r' := by simp [hx]
  have hxget : x.ms.get m = r' := by rw [hxms, PerStream.get_set_self]
  set y := markDirty (.stream m) { x with ms := s.ms.set m { r' with state := .starved } } with hy
  have heq : f s = eventOf (.ms m) true false y := by
    rw [hf, starve, show updReader m _ s = { s with ms := s.ms.set m r' } from rfl, ← hx, enterStreamState_eq, hxget, hxms]
    have : (s.ms.set m r').set m { r' with state := .starved } = s.ms.set m { r' with state := .starved } := by
      refine PerStream.ext_get _ _ fun k => ?_
      by_cases hk : k = m <;> simp [PerStream.get_set, hk]
    rw [this, show (r'.state == StreamState.running) = true by rw [hr', hst]; rfl]
    rfl
  have hdirty : ∀ k, k ∈ y.dirty ↔ k = .stream m ∨ k ∈ s.dirty ∨ (k = .attention ∧ s.att.pending &&& causeMask .stream = 0) :=
    fun k => by rw [hy, markDirty_dirty, mem_insertRec, hx, mem_raise_dirty]
  have hatt : y.att = (raise .stream s).att := by simp [hy, hx]
  have hev : ByEvent [.stream m] (.ms m) true false s y (eventOf (.ms m) true false y) y.att := by
    refine byEvent_own _ _ _ _ s y ?_ (hatt ▸ grows_raise .stream s) (fun k hk => (hdirty k).2 (.inr (.inl hk)))
      (fun k hk => (hdirty k).2 (.inl (by simpa using hk))) fun k hk => ?_
    · simp [hy, hx, State.audioRuns]
    · rcases (hdirty k).1 hk with h1 | h1 | ⟨h1, h2⟩
      · exact .inr (.inl (by simp [h1]))
      · exact .inl h1
      · exact .inr (.inr ⟨h1, hatt ▸ raise_att_ne .stream s h2⟩)
  rw [show y.att = { s.att with pending := s.att.pending ||| 0x0004#16 } by rw [hatt, raise_att]; rfl] at hev
  refine carryingStep_of_event f [.stream m] (.ms m) true false s _ y _ h heq hev
    (pathsAgree_stream m { r' with state := .starved } s y ?_ ?_ ?_ ?_ rfl rfl) ?_ rfl
  · constructor <;> simp [hy, hx]
  · simp [hy, hx]
  · simp [hy, hx, State.audioRuns]
  · simp [hy, hx]
  · have hrest := eventOf_rest (.ms m) true false y
    rw [hrest]
    apply State.ext_fields <;> simp [afterCarrying, hy, hx, hr']

/-- The burst's frames join the buffer, and the stream runs where it has enough (R40, R42). -/
theorem fetchDone_eq (m : StreamId) (n : Nat) (ws : List Word) (s : State) :
    let r := s.ms.get m
    let r' := { r with buffer := r.buffer ++ r.framesOf ws, drain := (r.drain + n) % r.size }
    let runs := (r.state = .priming ∧ 256 ≤ r'.buffer.length) ∨ (r.state = .starved ∧ 64 ≤ r'.buffer.length)
    let x := markDirty (.stream m) { s with ms := s.ms.set m r' }
    (runs → fetchDone m n ws s = eventOf (.ms m) false true (markDirty (.stream m) { x with
      ms := s.ms.set m { r' with state := .running, conv := .empty } })) ∧ (¬runs → fetchDone m n ws s = x) := by
  intro r r' runs x
  have hget : x.ms.get m = r' := PerStream.get_set_self _ _ _
  have hset : ∀ a, x.ms.set m a = s.ms.set m a := fun a => PerStream.ext_get _ _ fun k => by
    by_cases hk : k = m <;> simp [x, PerStream.get_set, hk]
  have hrun : r.state ≠ .running → enterStreamState m .running (updReader m (fun r => { r with conv := .empty }) x)
      = eventOf (.ms m) false true (markDirty (.stream m) { x with
        ms := s.ms.set m { r' with state := .running, conv := .empty } }) := by
    intro hst
    rw [enterStreamState_upd m .running _ x rfl, hget, hset, show (r'.state == StreamState.running) = false by simpa using hst]
    rfl
  have hdone : fetchDone m n ws s = levelTests m x := rfl
  have hst' : r'.state = r.state := rfl
  refine ⟨fun h => ?_, fun h => ?_⟩ <;> rw [hdone, levelTests, hget]
  · rcases h with ⟨hst, hlen⟩ | ⟨hst, hlen⟩ <;> simp only [hst', hst] <;> rw [if_pos hlen] <;> exact hrun (by simp [hst])
  · simp only [hst']
    cases hst : r.state with
    | priming => exact if_neg fun hlen => h (.inl ⟨hst, hlen⟩)
    | starved => exact if_neg fun hlen => h (.inr ⟨hst, hlen⟩)
    | _ => rfl

/-- Settles O40: the frame instants by the buffer, the fetches by the level. -/
theorem streamsTakeAndGiveFrames : Obligations.StreamsTakeAndGiveFrames := by
  unfold Obligations.StreamsTakeAndGiveFrames
  refine ⟨fun m s h => ?_, fun m n b s hr hport howner hdiscard hheld => ?_⟩
  · intro r
    have hr : s.ms.get m = r := rfl
    refine ⟨fun hno => act_same h (if_neg ?_), fun hruns hst => ⟨fun f rest hbuf => ?_, fun hbuf => ?_⟩⟩
    · rw [hr]
      rcases hno with hno | hno <;> simp [hno]
    all_goals have hgo : (s.audioRuns && ((s.ms.get m).state == .running)) = true := by rw [hruns, hr, hst]; rfl
    · refine act_stream (frameInstant m) m _ s h ?_ rfl
      rw [frameInstant, if_pos hgo, hr, hbuf]
      simp only [updReader, PerStream.upd, hr, Converter.take, converterDepth]
    · refine starve_step m s h (frameInstant m) ?_ hst
      rw [frameInstant, if_pos hgo, hr, hbuf]
  · intro r hc hlen freed r' full runs
    have hframes : r.framesOf b.words = (List.range n).map (ringFrame r b.words) := framesOf_eq r n b.words hc hlen
    have hbuf : r'.buffer.length = full := by simp [r', full]
    have hdone : burstDone b s = fetchDone m n b.words freed := by
      have : burstDone b s = burstResult b freed := rfl
      rw [this, burstResult, howner]
      exact if_neg (by rw [hdiscard, show freed.audioRuns = true from hr.2]; simp)
    obtain ⟨hyes, hno⟩ := fetchDone_eq m n b.words freed
    have hget : freed.ms.get m = r := rfl
    rw [hget, hframes] at hyes hno
    have hiff : runs ↔ (r.state = .priming ∧ 256 ≤ r'.buffer.length) ∨ (r.state = .starved ∧ 64 ≤ r'.buffer.length) :=
      .of_eq (congrArg (fun k => (r.state = .priming ∧ 256 ≤ k) ∨ (r.state = .starved ∧ 64 ≤ k)) hbuf.symm)
    refine ⟨fun hn => ?_, fun hrun => ?_⟩
    · have heq := hdone.trans (hno (mt hiff.2 hn))
      rw [partBurstEnd_unheld b s hr.1 hport (by rw [heq]; exact hheld)]
      refine ownStep_of_eq (burstDone b) [.stream m] s _ _ hr.1 heq rfl rfl rfl ?_ id
      exact .marks _ _ _ fun x => by
        simp only [markDirty_dirty, mem_insertRec, List.mem_singleton, freed]
        exact or_comm
    · have heq := hdone.trans (hyes (hiff.1 hrun))
      rw [partBurstEnd_unheld b s hr.1 hport (by rw [heq, eventOf_rest]; exact hheld)]
      refine carryingStep_of_event (burstDone b) [.stream m] (.ms m) false true s
        { freed with ms := s.ms.set m { r' with state := .running, conv := .empty } } _ _ hr.1 heq
        (byEvent_self _ _ _ _ s _ rfl rfl fun x => by
          simp only [markDirty_dirty, mem_insertRec, List.mem_singleton, freed]
          tauto)
        (pathsAgree_stream m { r' with state := .running, conv := .empty } s _ ⟨rfl, rfl, rfl, rfl, rfl, rfl⟩ rfl rfl rfl rfl
          rfl) (eventOf_rest _ _ _ _) rfl

end Sys2Proof.Machine

end

/-! The fade timer and the ends of a fade (R54 to R56, R61). -/

section

set_option autoImplicit false

namespace Sys2Proof.Machine

/-! ### A fade's end, with its held changes -/

/-- A fade that ends at -320: the gate closes, the held changes are applied, the zone moves by `f`, and the delay pool
examines the zones if it had a notice (R55, R61). -/
def FadeDone (z : Zone) (f : ZoneRec → ZoneRec) (s t : State) : Prop :=
  ∃ a b c, GateClosed z s a ∧ ChangesApplied z a b ∧ ZoneMoved z f b c ∧ ExaminedFor (s.zones.get z).held c t

section
variable {z : Zone} {f : ZoneRec → ZoneRec} {s t : State}

/-- The record with which the zone leaves its fade, before an examination. -/
def afterFade (z : Zone) (f : ZoneRec → ZoneRec) (s : State) : ZoneRec :=
  f { s.zones.get z with gateOpen := false, held := .empty }

/-- What the zone's move leaves to the examination. -/
theorem fadeDone_moved {a b c : State} (ha : GateClosed z s a) (hb : ChangesApplied z a b) (hc : ZoneMoved z f b c) :
    c.zones = s.zones.set z (afterFade z f s) ∧ c.gain = flooredZone z s.gain ∧ c.mods = a.mods
      ∧ c = { s with
          zones := c.zones, gain := c.gain, mods := c.mods, dec := c.dec, bass := c.bass, pool := c.pool,
          dirty := c.dirty } := by
  have hz : c.zones = s.zones.set z (afterFade z f s) := by
    rw [hc, hb.rest, ha.rest]
    cases z <;> rfl
  have hg : c.gain = flooredZone z s.gain := by rw [hc, hb.rest, ha.rest]
  refine ⟨hz, hg, by rw [hc, hb.rest], ?_⟩
  rw [hc, hb.rest, ha.rest]

/-- A fade's end changes the zones and the blocks behind them alone. -/
theorem FadeDone.rest (h : FadeDone z f s t) : t = { s with
    zones := t.zones, gain := t.gain, mods := t.mods, dec := t.dec, bass := t.bass, pool := t.pool,
    dirty := t.dirty } := by
  obtain ⟨a, b, c, ha, hb, hc, hd⟩ := h
  rw [examinedFor_rest hd, (fadeDone_moved ha hb hc).2.2.2]

/-- The zone's channels stand at -320, and the modules that wind down by it stop (R93, R95). -/
theorem FadeDone.floors (h : FadeDone z f s t) : t.gain = flooredZone z s.gain ∧ WindDowns s t := by
  obtain ⟨a, b, c, ha, hb, hc, hd⟩ := h
  obtain ⟨-, hg, hm, -⟩ := fadeDone_moved ha hb hc
  have hg' : t.gain = c.gain := by rw [examinedFor_rest hd]
  have hm' : t.mods = c.mods := by rw [examinedFor_rest hd]
  refine ⟨hg'.trans hg, windDowns_congr ha.mods ?_ (hm'.trans hm)⟩
  rw [hg', hg, ha.rest]

/-- The zone's record has at most joined a DELAY request since its move. -/
theorem FadeDone.asked (h : FadeDone z f s t) : Asked (afterFade z f s) (t.zones.get z) := by
  obtain ⟨a, b, c, ha, hb, hc, hd⟩ := h
  have hz : c.zones.get z = afterFade z f s := by rw [(fadeDone_moved ha hb hc).1, PerZone.get_set_self]
  by_cases hdel : (s.zones.get z).held.delay = true
  · exact hz ▸ examined_asked (hd.1 hdel) z
  · rw [hd.2 (by simpa using hdel)]
    exact hz ▸ .refl _

/-- Without a held DELAY the other zone stays as it was. -/
theorem FadeDone.other (h : FadeDone z f s t) (hdel : (s.zones.get z).held.delay = false) :
    t.zones.get (otherZone z) = s.zones.get (otherZone z) := by
  obtain ⟨a, b, c, ha, hb, hc, hd⟩ := h
  rw [hd.2 hdel]
  show c.zones.get _ = _
  rw [(fadeDone_moved ha hb hc).1, PerZone.get_set_ne _ _ _ _ (otherZone_ne z)]

/-- The held changes have been applied (R61). -/
theorem FadeDone.held (h : FadeDone z f s t) (hf : ∀ r, (f r).held = r.held) : HeldApplied z s t := by
  obtain ⟨a, b, c, ha, hb, hc, hd⟩ := h
  have hz := (fadeDone_moved ha hb hc).1
  refine heldApplied_of ?_ ?_ ?_ ?_ hb ?_ ?_ ?_ ?_ ?_ hd
  · rw [ha.rest]
    simp
  · rw [ha.rest]
  · rw [ha.rest]
  · rw [ha.rest]
  · rw [hc]
  · rw [hc]
  · rw [hc]
  · rw [hz, PerZone.get_set_self, afterFade, hf]
  · rw [hz, PerZone.get_set_ne _ _ _ _ (otherZone_ne z)]

/-- A fade's end without a held change. -/
theorem FadeDone.unheld (h : FadeDone z f s t) (he : (s.zones.get z).held = .empty) :
    t = { s with
      zones := s.zones.set z (f { s.zones.get z with gateOpen := false }), gain := flooredZone z s.gain,
      mods := t.mods, dirty := t.dirty } := by
  have hfl := h.floors.1
  have hrest := h.rest
  obtain ⟨a, b, c, ha, hb, hc, hd⟩ := h
  have ht := hd.2 (by rw [he]; rfl)
  have hh : (a.zones.get z).held = .empty := by
    rw [ha.rest]
    simpa using he
  have hdec : t.dec = s.dec := by rw [ht, hc]; exact (hb.noDecode (by rw [hh]; rfl)).trans (by rw [ha.rest])
  have hbass : t.bass = s.bass := by rw [ht, hc]; exact (hb.noSpeakers (by rw [hh]; rfl)).trans (by rw [ha.rest])
  have hpool : t.pool = s.pool := by rw [ht, hc]; exact (hb.noDelay (by rw [hh]; rfl)).trans (by rw [ha.rest])
  have hzones : t.zones = s.zones.set z (f { s.zones.get z with gateOpen := false }) := by
    rw [ht]
    show c.zones = _
    rw [(fadeDone_moved ha hb hc).1, afterFade, ← he]
  rw [hdec, hbass, hpool, hfl, hzones] at hrest
  exact hrest

/-- The marks at a fade's end may be added to. -/
theorem FadeDone.marked (h : FadeDone z f s t) (d : List Rec) : FadeDone z f s { t with dirty := d } := by
  obtain ⟨a, b, c, ha, hb, hc, hd⟩ := h
  exact ⟨a, b, c, ha, hb, hc, examinedFor_marked d hd⟩

end

/-! ### The marks of a fade's end -/

/-- A closed gate marks nothing. -/
theorem closeGate_dirty (z : Zone) (s : State) : (closeGate z s).dirty = s.dirty := by
  rw [closeGate, windDownReports_dirty]
  rfl

/-- A held DELAY that finds room marks the delay record and the zone's (R118). -/
theorem applyHeld_delayMarked (z : Zone) (s : State) (hd : (s.zones.get z).held.delay = true)
    (hr : s.pool.hasRoom z = true) : Rec.delay ∈ (applyHeld z s).dirty ∧ Rec.zone z ∈ (applyHeld z s).dirty := by
  have key : ∀ x : State, x.pool = s.pool →
      Rec.delay ∈ (delayApply z x).dirty ∧ Rec.zone z ∈ (delayApply z x).dirty := by
    intro x hx
    unfold delayApply
    rw [hx, if_pos hr]
    simp [markAll]
  unfold applyHeld
  dsimp only
  rw [if_pos hd]
  apply key
  (repeat' split) <;> rfl

/-- The marks of a fade's end: those of its held DELAY stay. -/
theorem fadeEnd_delayMarked (z : Zone) (s y : State) (h : PathMarked (applyHeld z (closeGate z s)) y) :
    DelayMarked z s y := by
  intro hd hr
  have hpool : (closeGate z s).pool = s.pool := by rw [(closeGate_spec z s).rest]
  have hm := applyHeld_delayMarked z (closeGate z s) (by simpa using hd)
    ((hasRoom_iff _ z).2 (by rw [hpool]; exact hr))
  exact ⟨h.keeps _ hm.1, h.keeps _ hm.2⟩

/-- An empty set of held changes. -/
theorem applyHeld_empty (z : Zone) (s : State) (h : (s.zones.get z).held = .empty) : applyHeld z s = s := by
  have hz : updZone z (fun r => { r with held := .empty }) s = s := by
    apply State.ext_fields
    case h_zones =>
      show s.zones.set z { s.zones.get z with held := .empty } = s.zones
      rw [← h]
      exact PerZone.set_get _ _
    all_goals rfl
  unfold applyHeld
  rw [h]
  exact hz

/-! ### The timer -/

/-- A fade's step that ends the fade. -/
theorem fadeStep_floor (z : Zone) (s : State) (h : max gainFloor ((s.zones.get z).fade - (s.zones.get z).fadeRate)
      = gainFloor) :
    ((s.zones.get z).state = .fadingOut → fadeStep z s = fadeOutEnd z s)
      ∧ ((s.zones.get z).state = .reconfiguring → fadeStep z s = reconfigureEnd z s) := by
  refine ⟨fun hst => ?_, fun hst => ?_⟩
  · simp only [fadeStep, hst, h, if_true]
    exact fadeOutEnd_dropFade z s
  · simp only [fadeStep, hst, h, if_true]
    exact reconfigureEnd_dropFade z s

theorem connectedTo_held (view : PerSource Bool) (src : Option Source) (r : ZoneRec) :
    (connectedTo view src r).held = r.held := by
  unfold connectedTo
  dsimp only
  split
  · rfl
  · split <;> rfl

theorem connectedTo_connected (view : PerSource Bool) (src : Option Source) (r : ZoneRec) :
    (connectedTo view src r).connected = src := by
  unfold connectedTo
  dsimp only
  split
  · rfl
  · split <;> rfl

theorem connectedTo_fade (view : PerSource Bool) (src : Option Source) (r : ZoneRec) :
    (connectedTo view src r).fade = gainFloor := by
  unfold connectedTo
  dsimp only
  split
  · rfl
  · split <;> rfl

/-- A closed gate opens for a source that carries (R53). -/
theorem connectedTo_gateOpen (view : PerSource Bool) (src : Option Source) (r : ZoneRec) (h : r.gateOpen = false) :
    (connectedTo view src r).gateOpen = true ↔ ∃ x, src = some x ∧ view.get x = true := by
  unfold connectedTo
  dsimp only
  split
  · simp [h]
  · split <;> simp_all [fadedIn, waitsAnew]

/-- An action that leaves station content and the attention state as they are changes, when it is published, its
marks alone. -/
theorem act_marks {f : State → State} {s y : State} {always perhaps : List Rec} (h : s.rstnLow = false) (hf : f s = y)
    (hsd : y.sd = s.sd) (hatt : y.att = s.att) (hd : SetsBetween always perhaps s y) :
    ∃ d, act f s = .next { y with dirty := d } ∧ (∀ r ∈ y.dirty, r ∈ d)
      ∧ MarksBetween always perhaps s { y with dirty := d } := by
  have hp : publish s y = { y with dirty := (publish s y).dirty } := by
    conv_lhs => rw [publish_eq]
    rw [publish_att _ _ hsd]
  refine ⟨(publish s y).dirty, ?_, fun r hr => ?_, ?_⟩
  · rw [act_high f s h, hf, ← hp]
  · exact dirty_mem_publish s y r hr
  · rw [← hp]
    exact hd.publish fun k => by rwa [hatt]

/-- Settles O41, state by state of the zone. -/
theorem fadeTimerMovesTheFade : Obligations.FadeTimerMovesTheFade := by
  unfold Obligations.FadeTimerMovesTheFade
  intro z s hrst r up down into closes ends
  refine ⟨fun hstop => act_same hrst (if_neg (by simp [hstop])), fun hruns => ?_⟩
  have hf : (fun t => if t.restartTimersRun then fadeStep z t else t) s = fadeStep z s := if_pos hruns
  have hout : ∀ y, fadeStep z s = y → (fun t => if t.restartTimersRun then fadeStep z t else t) s = y :=
    fun y hy => hf.trans hy
  have hclose : ∀ (g : ZoneRec → ZoneRec) (r' : ZoneRec) (y : State), fadeStep z s = y → FadeDone z g s y →
      r.held = .empty → g { r with gateOpen := false } = r' → (∀ x, x ∈ y.dirty ↔ x ∈ s.dirty ∨ x = .zone z) →
      r'.state ≠ r.state → closes r' := by
    intro g r' y hy hdone he hg hd hne
    have hrest := hdone.unheld he
    have hzones : y.zones = s.zones.set z r' := by
      rw [hrest]
      exact congrArg (s.zones.set z) hg
    obtain ⟨t, ht, hown⟩ := ownStep_of_eq _ [] s
      { s with zones := s.zones.set z r', gain := flooredZone z s.gain, mods := y.mods } y hrst (hout y hy)
      (by rw [hg] at hrest; exact hrest) rfl rfl
      (setsMarks_moved z fun x => by rw [hd, hzones, PerZone.get_set_self]; simp [show r'.state ≠ (s.zones.get z).state from hne]) id
    have hmods : t.mods = y.mods := by rw [hown.rest]
    refine ⟨t, ht, hmods ▸ hown, windDowns_congr hdone.floors.2 ?_ hmods⟩
    rw [hown.rest, hdone.floors.1]
  have hends : ∀ (g : ZoneRec → ZoneRec) (x : Option Source) (isOpen : Prop) (y : State), fadeStep z s = y →
      FadeDone z g s y → (∀ q, (g q).held = q.held) →
      (afterFade z g s).connected = x → (afterFade z g s).fade = gainFloor →
      ((afterFade z g s).gateOpen = true ↔ isOpen) → DelayMarked z s y →
      (r.state = .fadingOut → ∀ d, FadeEnded z s { y with dirty := d }) →
      (r.state = .reconfiguring → ∀ d, ReconfiguringEnded z s { y with dirty := d }) → ends x isOpen := by
    intro g x isOpen y hy hdone hg hx hfade hopen hdm ho hr
    have hasked := hdone.asked
    obtain ⟨d, ht, hkeep, hmarks⟩ := act_marks hrst (hout y hy) (by rw [hdone.rest]) (by rw [hdone.rest])
      (((hy ▸ fadeStep_pathMarked z s : PathMarked s y)).between rfl)
    have hzone : y.zones.get z
        = { afterFade z g s with state := (y.zones.get z).state, held := (y.zones.get z).held } := hasked.rest
    refine ⟨_, ht, ?_, ?_, ?_, ?_, fun ch hch => ?_, ?_, fun h1 h2 => ?_, hdone.floors.1, ?_, hdone.other,
      fun h => ho h d, fun h => hr h d, hmarks⟩
    · have hrest := (hdone.marked d).rest
      exact hrest
    · show (y.zones.get z).connected = x
      rw [hzone]; exact hx
    · show (y.zones.get z).fade = gainFloor
      rw [hzone]; exact hfade
    · show (y.zones.get z).gateOpen = true ↔ isOpen
      rw [hzone]; exact hopen
    · show (y.gain.chans.get ch).applied = gainFloor
      rw [hdone.floors.1]
      simp [flooredZone, flooredChans, hch]
    · exact (hdone.marked d).held hg
    · exact ⟨hkeep _ (hdm h1 h2).1, hkeep _ (hdm h1 h2).2⟩
    · exact hdone.floors.2
  have hgate : ∀ x, x ∈ (closeGate z s).dirty ↔ x ∈ s.dirty := fun x => by rw [closeGate_dirty]
  refine ⟨fun hst => ?_, fun hst => ?_, fun hst hdown => ?_, fun hst hdown he => ?_, fun hst hdown he => ?_,
    fun hst hdown => ?_, fun hst hdown => ?_⟩
  · refine act_same hrst (hf.trans ?_)
    simp only [List.mem_cons, List.not_mem_nil, or_false] at hst
    rcases hst with hst | hst | hst <;> simp only [r] at hst <;> simp only [fadeStep, hst]
  · have hstep : fadeStep z s
        = moveZone z (fun r => { r with fade := up, state := if up = 0 then .playing else .fadingIn }) s := by
      simp only [r] at hst
      simp only [fadeStep, hst]
      rfl
    refine ownStep_of_eq _ [] s _ _ hrst (hout _ hstep) ?_ rfl rfl (setsMarks_moved z fun x => ?_) id
    · exact moveZone_spec z _ s
    · rw [mem_moveZone_dirty, moveZone_zones]
      simp
  · have hstep : fadeStep z s = updZone z (fun r => { r with fade := down }) s := by
      simp only [List.mem_cons, List.not_mem_nil, or_false] at hst
      rcases hst with hst | hst <;> simp only [r] at hst <;> simp only [fadeStep, hst] <;> exact if_neg hdown
    exact ownStep_of_eq _ [] s _ _ hrst (hout _ hstep) rfl rfl rfl (.same _ _ rfl) id
  · have hstep := (fadeStep_floor z s hdown).1 hst
    have hdone : FadeDone z _ s (fadeOutEnd z s) := fadeOutEnd_spec z s
    have hplain : fadeOutEnd z s = connect z r.pending (closeGate z s) := by
      rw [fadeOutEnd_eq, show (s.zones.get z).held = .empty from he, applyHeld_empty z _ (by simpa using he)]
      rfl
    have hne : ∀ x : ZoneRec, x.state ≠ .fadingOut → x.state ≠ r.state := fun x hx => hst ▸ hx
    have hd : ∀ g : ZoneRec, (connectedTo s.view r.pending { r with gateOpen := false }) = g → g.state ≠ .fadingOut →
        ∀ x, x ∈ (fadeOutEnd z s).dirty ↔ x ∈ s.dirty ∨ x = .zone z := by
      intro g hg hgs x
      have hz : ((fadeOutEnd z s).zones.get z).state = g.state := by
        rw [hdone.unheld he, ← hg]
        simp [r]
      rw [hplain] at hz ⊢
      rw [mem_connect_dirty, hz, hgate]
      have : g.state ≠ (s.zones.get z).state := (show (s.zones.get z).state = _ from hst) ▸ hgs
      simp [this]
    refine ⟨fun hp => ?_, fun x hp hv => ?_, fun x hp hv => ?_⟩
    · refine hclose _ _ _ hstep hdone he ?_ (hd _ rfl ?_) (hne _ nofun) <;> rw [hp] <;> simp [connectedTo]
    · refine hclose _ _ _ hstep hdone he ?_ (hd _ rfl ?_) (hne _ nofun) <;> rw [hp] <;> simp [connectedTo, hv, fadedIn]
    · refine hclose _ _ _ hstep hdone he ?_ (hd _ rfl ?_) (hne _ nofun) <;> rw [hp] <;> simp [connectedTo, hv, waitsAnew]
  · have hstep := (fadeStep_floor z s hdown).2 hst
    refine hclose fadedIn _ _ hstep (reconfigureEnd_spec z s) he rfl (fun x => ?_) (hst ▸ nofun)
    have hplain : reconfigureEnd z s = enterFadeIn z (closeGate z s) := by
      rw [reconfigureEnd, show (s.zones.get z).held = .empty from he, applyHeld_empty z _ (by simpa using he)]
      rfl
    rw [hplain, enterFadeIn, mem_moveZone_dirty, hgate]
    simp [show (s.zones.get z).state = .reconfiguring from hst]
  · refine hends _ _ _ _ ((fadeStep_floor z s hdown).1 hst) (fadeOutEnd_spec z s) (connectedTo_held _ _) ?_ ?_ ?_ ?_
      (fun _ d => fadeEnded_marked d (fadeOutEnd_spec z s)) (fun h => by simp [hst] at h)
    · exact connectedTo_connected _ _ _
    · exact connectedTo_fade _ _ _
    · exact connectedTo_gateOpen _ _ _ rfl
    · exact fadeEnd_delayMarked z s _ ((connect_pathMarked z _ _).trans (examineAfter_pathMarked _ _))
  · refine hends fadedIn _ _ _ ((fadeStep_floor z s hdown).2 hst) (reconfigureEnd_spec z s) (fun _ => rfl) rfl rfl
      (by simp [afterFade, fadedIn]) ?_ (fun h => by simp [hst] at h)
      (fun _ d => reconfiguringEnded_marked d (reconfigureEnd_spec z s))
    exact fadeEnd_delayMarked z s _ ((moveZone_pathMarked z _ _).trans (examineAfter_pathMarked _ _))

end Sys2Proof.Machine

end

/-! DIST and LIPSYNC, which compute the staged set anew (R111, R112, R114, R116 to R118, R122). -/

section

set_option autoImplicit false

namespace Sys2Proof.Machine

/-! ### A write whose action may mark records besides -/

/-- A taken write by its owner's action, whose marks lie between two bounds. -/
theorem rowDone (sl : Slot) (v w : Word) (reqs : List Slot) (always perhaps : List Rec) (s u : State) (h : PortOpen s)
    (hm : MemoryCanonical s) (hj : judgeSlot s sl .full v = .arrives sl w)
    (hu : u.agent = s.agent) (hsd : u.sd = s.sd) (hatt : u.att = s.att)
    (hy : arrive sl w (arrived sl w s) = { u with
      mem := (arrived sl w s).mem, lock := lockAfter s sl u.lock, dirty := (arrive sl w (arrived sl w s)).dirty,
      agent := { u.agent with queue := queueAfter s sl reqs } })
    (hd : SetsBetween always perhaps s (arrive sl w (arrived sl w s))) :
    ∃ t, slotRow sl .full v s = .next t ∧ WriteDone sl w reqs always perhaps s u t
      ∧ ∀ r ∈ (arrive sl w (arrived sl w s)).dirty, r ∈ t.dirty := by
  obtain ⟨marked, hmarks, hl, hp⟩ := hd.marked
  set y := arrive sl w (arrived sl w s) with hydef
  have hysd : y.sd = s.sd := by rw [hy]; exact hsd
  have hyatt : y.att = u.att := by rw [hy]
  have hst : s.att.pending &&& causeMask .station ≠ 0 → y.att.pending &&& causeMask .station ≠ 0 := fun k => by
    rwa [hyatt, hatt]
  obtain ⟨ht, hrest, hexact, hword, hbytes⟩ := writeTaken_port sl .full v w reqs marked s u h hm hj _ y rfl hydef
    (by rw [hyatt]; exact hy) (by rw [hu]; exact h.free) (by rw [publish_att _ _ hysd, hyatt]) hmarks hst
  exact ⟨_, ht, ⟨hrest, marksBetween_of_exactly hexact hl hp, hword, hbytes⟩,
    fun r hr => dirty_mem_publish _ _ r hr⟩

/-! ### What the examination marks (R118) -/

/-- The records that a DELAY change applied at once marks. -/
def DelayShown (z : Zone) (t : State) : Prop := Rec.delay ∈ t.dirty ∧ Rec.zone z ∈ t.dirty

theorem PathMarked.shown {z : Zone} {s t : State} (h : PathMarked s t) (k : DelayShown z s) : DelayShown z t :=
  ⟨h.keeps _ k.1, h.keeps _ k.2⟩

/-- A zone's examination brings about the agreement of a zone's sets only by applying its change. -/
theorem examineZone_shown (y z : Zone) (s : State) (hs : s.pool.sameSet z = false)
    (ht : (examineZone y s).1.pool.sameSet z = true) : DelayShown z (examineZone y s).1 := by
  have hkept : ∀ a : State, PoolRest s a → LinesKept z s.pool a.pool → a.pool.sameSet z ≠ true := fun a hr hl => by
    rw [sameSet_kept _ _ _ hr.staged hl, hs]
    simp
  have hother : z ≠ y → z = otherZone y := by cases y <;> cases z <;> simp [otherZone]
  rcases examineZone_spec y s with ⟨-, h⟩ | ⟨happ, h⟩
  · by_cases hz : z = y
    · exact absurd ht (hkept _ h.rest (hz ▸ h.lines))
    · exact absurd ht (hkept _ h.rest (hother hz ▸ h.other.lines))
  · by_cases hz : z = y
    · subst hz
      obtain ⟨hreq, -, hroom, hquiet⟩ := h.due
      have heq : examineZone z s = (delayApply z { s with pool := s.pool.setAlloc z .requested }, true) := by
        unfold examineZone
        rw [if_neg hreq, hs, hroom]
        exact if_pos ((zoneQuiet_iff _ z).2 hquiet)
      rw [heq, DelayShown]
      unfold delayApply
      rw [if_pos (show Pool.hasRoom (s.pool.setAlloc z .requested) z = true from hroom)]
      simp [markAll]
    · exact absurd ht (hkept _ h.rest (hother hz ▸ h.other.lines))

theorem examine_shown (n : Nat) (z : Zone) (s : State) (hs : s.pool.sameSet z = false)
    (ht : (examine n s).pool.sameSet z = true) : DelayShown z (examine n s) := by
  have goOn : ∀ (y : Zone) (a b : State), a.pool.sameSet z = false → (examineZone y a).1.pool.sameSet z = false ∨
      DelayShown z (examineZone y a).1 := fun y a _ ha => by
    by_cases hb : (examineZone y a).1.pool.sameSet z = true
    · exact .inr (examineZone_shown y z a ha hb)
    · exact .inl (by simpa using hb)
  induction n generalizing s with
  | zero => simp [examine, hs] at ht
  | succ n ih =>
    unfold examine at ht ⊢
    dsimp only at ht ⊢
    by_cases h1 : (examineZone .z1 s).2 = true
    · rw [if_pos h1] at ht ⊢
      rcases goOn .z1 s s hs with h | h
      · exact ih _ h ht
      · exact (examine_pathMarked n _).shown h
    · rw [if_neg h1] at ht ⊢
      by_cases h2 : (examineZone .z2 (examineZone .z1 s).1).2 = true
      · rw [if_pos h2] at ht ⊢
        rcases goOn .z1 s s hs with h | h
        · rcases goOn .z2 _ s h with h | h
          · exact ih _ h ht
          · exact (examine_pathMarked n _).shown h
        · exact ((examineZone_pathMarked .z2 _).trans (examine_pathMarked n _)).shown h
      · rw [if_neg h2] at ht ⊢
        rcases goOn .z1 s s hs with h | h
        · exact examineZone_shown .z2 z _ h ht
        · exact (examineZone_pathMarked .z2 _).shown h

/-! ### The examination as the state after it shows it -/

/-- A zone's lines stand at the same words of the pool. -/
theorem lineStart_kept {z : Zone} {p q : Pool} (h : LinesKept z p q) (ch : Chan) (hc : chanZone ch = z) :
    lineStart q.active ch = lineStart p.active ch := by
  have hlen : ∀ x, chanZone x = z → q.active.len.get x = p.active.len.get x := fun x hx => (h.2 x hx).1
  cases ch with
  | main m =>
    simp only [lineStart, mainWords]
    congr 1
    exact List.map_congr_left fun x _ => hlen (.main x) hc
  | zl => simp only [lineStart, hlen .zl hc]
  | zr => simp only [lineStart, hlen .zl hc, hlen .zr hc]

/-- Where the staged set is one that the pool has computed, an examination finds room exactly where there is room at
its end: a change of zone 2 applied at once leaves zone 1 its staged length (R115, R117). -/
theorem roomFound_iff {s t : State} (h : Examined s t) (z : Zone)
    (hstaged : s.pool.staged = computeSet s.pool.presence s.pool.dist s.pool.lipsync) :
    RoomFound s t z ↔ t.pool.hasRoom z = true := by
  refine ⟨fun hf => hf.elim id ?_, .inl⟩
  rintro ⟨rfl, hroom⟩
  have hst : t.pool.staged = s.pool.staged := by rw [h.rest]
  rw [hasRoom_iff] at hroom ⊢
  rw [hst]
  have hkept : LinesKept .z2 s.pool t.pool → t.pool.active.total .z2 = s.pool.active.total .z2 := fun k =>
    total_congr _ _ _ fun ch hc => (k.2 ch hc).1
  have hfit : s.pool.staged.total .z1 + s.pool.staged.total .z2 ≤ 65536 := by
    rw [hstaged] at hroom ⊢
    refine computeSet_totals_le _ _ _ ?_
    rw [computeSet_total_z1] at hroom
    omega
  by_cases hr : s.pool.alloc.get .z2 = .requested
  · exact (hkept (h.asked .z2 hr).2.2).symm ▸ hroom
  by_cases hs : s.pool.sameSet .z2 = true
  · exact (hkept (h.same .z2 hr hs).2.2).symm ▸ hroom
  have hs : s.pool.sameSet .z2 = false := by simpa using hs
  by_cases hf : RoomFound s t .z2
  · by_cases hq : AppliesAtOnce s .z2
    · have htot : t.pool.active.total .z2 = s.pool.staged.total .z2 :=
        total_congr _ _ _ fun ch hc => ((h.atOnce .z2 hr hs hf hq).2.2.2 ch hc).1
      exact htot.symm ▸ hfit
    · exact (hkept (h.request .z2 hr hs hf hq).2.1).symm ▸ hroom
  · exact (hkept (h.noRoom .z2 hr hs hf).2.2).symm ▸ hroom

/-- The pool after a request for a new distance or a new lip-sync delay, before the examination. -/
def requested (d : PerMain Nat) (l : PerZone Nat) (s : State) : State :=
  { s with pool := { s.pool with dist := d, lipsync := l, staged := computeSet s.pool.presence d l } }

/-- The arrivals of DIST and LIPSYNC. -/
theorem requestArrival_eq (d : PerMain Nat) (l : PerZone Nat) (s : State) :
    recomputeIfRunning { s with pool := { s.pool with dist := d, lipsync := l } }
      = if s.audioRuns = true then examineZones (requested d l s)
        else { s with pool := { s.pool with dist := d, lipsync := l } } := rfl

/-- Settles O19, by the examination that follows the new staged set. -/
theorem delayWritesRecomputeTheStagedSet : Obligations.DelayWritesRecomputeTheStagedSet := by
  unfold Obligations.DelayWritesRecomputeTheStagedSet
  refine ⟨fun c => ⟨?_, (total_eq c).2⟩, fun p => ⟨hasRoom_iff p .z1, hasRoom_iff p .z2, sameSet_iff p⟩, ?_⟩
  · simp [PoolSet.total, zoneChans, List.map_map, Function.comp_def]
  intro i sl v w d l s h hm hi
  obtain ⟨hrow, hj, harr⟩ : exec i s = slotRow sl .full v s ∧ judgeSlot s sl .full v = .arrives sl w
      ∧ ∀ x : State, x.pool = s.pool → arrive sl w x
        = recomputeIfRunning { x with pool := { x.pool with dist := d, lipsync := l } } := by
    rcases hi with ⟨ch, rfl, rfl, rfl, rfl, rfl⟩ | ⟨z, rfl, rfl, rfl, rfl, rfl⟩
    · refine ⟨rfl, judgeSlot_arrives s _ v _ (fun hc => by simp [Slot.isLockable] at hc) rfl
        (by rw [← clampNat_zero]; rfl), fun x hx => ?_⟩
      rw [arrive, numWord_toNat _ (by omega), distArrival, hx]
    · refine ⟨rfl, judgeSlot_arrives s _ v _ (fun hc => by simp [Slot.isLockable] at hc) rfl
        (by rw [← clampNat_zero]; rfl), fun x hx => ?_⟩
      rw [arrive, numWord_toNat _ (by omega), lipsyncArrival, hx]
  refine ⟨fun hstop => ?_, fun hruns => ?_⟩
  · have hy : arrive sl w (arrived sl w s)
        = { arrived sl w s with pool := { s.pool with dist := d, lipsync := l } } := by
      rw [harr (arrived sl w s) rfl, requestArrival_eq]
      exact if_neg (by rw [show (arrived sl w s).audioRuns = s.audioRuns from rfl, hstop]; simp)
    rw [hrow]
    refine rowTaken sl v w [] [] s _ h hm hj rfl rfl ?_ ?_ id
    · rw [hy]
      rfl
    · rw [hy]
      exact .same _ _ rfl
  · set x := requested d l (arrived sl w s) with hx
    have hy : arrive sl w (arrived sl w s) = examineZones x := by
      rw [harr (arrived sl w s) rfl, requestArrival_eq]
      exact if_pos hruns
    have hex := examineZones_spec x
    set e := examineZones x with he
    have hmarked : PathMarked x e := examineZones_pathMarked x
    have hfields : e = { ({ s with pool := e.pool, zones := e.zones } : State) with
        mem := (arrived sl w s).mem, lock := lockAfter s sl s.lock, dirty := (arrive sl w (arrived sl w s)).dirty,
        agent := { s.agent with queue := queueAfter s sl [] } } := by
      rw [hy]
      apply State.ext_fields
      case h_pool => rfl
      case h_zones => rfl
      case h_dirty => rfl
      all_goals
        rw [hex.rest]
        rfl
    obtain ⟨t, ht, hdone, hkeep⟩ := rowDone sl v w [] [] pathRecords s { s with pool := e.pool, zones := e.zones } h hm hj
      rfl rfl rfl (hy.trans hfields) (by rw [hy]; exact hmarked.between rfl)
    have hpool : t.pool = e.pool := by rw [hdone.rest]
    have hzones : t.zones = e.zones := by rw [hdone.rest]
    have hstaged : t.pool.staged = computeSet s.pool.presence d l := by
      rw [hpool, hex.rest]
      rfl
    rw [hrow]
    have hrest := hdone.rest
    rw [← hpool, ← hzones] at hrest
    refine ⟨t, ht, hrest, hdone.word, hdone.bytes, ?_, ?_, ?_, hstaged, hdone.marks, fun z => ?_, fun z => ?_⟩
    · rw [hpool, hex.rest]
      rfl
    · rw [hpool, hex.rest]
      rfl
    · rw [hpool, hex.rest]
      rfl
    · rw [hzones]
      exact (examined_asked hex z).rest
    intro quiet asked stays
    have hfound : RoomFound x e z ↔ t.pool.hasRoom z = true := hpool ▸ roomFound_iff hex z rfl
    have hsame : ({ s.pool with staged := t.pool.staged } : Pool).sameSet z = x.pool.sameSet z := by
      rw [hstaged]
      rfl
    have happ : AppliesAtOnce x z ↔ quiet := and_iff_right hruns
    have hstays : LinesKept z x.pool e.pool → stays := fun k =>
      ⟨fun ch hc => by
        rw [hpool]
        exact ⟨(k.2 ch hc).1, lineStart_kept k ch hc, (k.2 ch hc).2⟩, by rw [hpool]; exact k.1⟩
    rw [hsame, hzones]
    refine ⟨fun ha => ?_, fun ha hs => ?_, fun ha hs => ⟨fun hr => ?_, fun hr hq => ?_, fun hr hq => ?_⟩⟩
    · obtain ⟨h1, h2, h3⟩ := hex.asked z ha
      exact ⟨hpool ▸ h1, h2, hstays h3⟩
    · obtain ⟨h1, h2, h3⟩ := hex.same z ha hs
      exact ⟨hpool ▸ h1, h2, hstays h3⟩
    · obtain ⟨h1, h2, h3⟩ := hex.noRoom z ha hs (by rw [hfound, hr]; simp)
      exact ⟨hpool ▸ h1, h2, hstays h3⟩
    · obtain ⟨h1, h2, h3⟩ := hex.request z ha hs (hfound.2 hr) (mt happ.1 hq)
      refine ⟨hpool ▸ h1, hstays h2, by rw [h3], ?_⟩
      rw [h3]
      exact if_congr (and_iff_right hruns) rfl rfl
    · obtain ⟨h1, h2, h3, h4⟩ := hex.atOnce z ha hs (hfound.2 hr) (happ.2 hq)
      have hst : e.pool.staged = x.pool.staged := by rw [hex.rest]
      have hshown : DelayShown z e := examine_shown 3 z x hs ((sameSet_iff e.pool z).2
        ⟨fun ch hc => by rw [hst, ← (h4 ch hc).1], by rw [hst, ← h3]⟩)
      rw [hpool, hst]
      exact ⟨h1, h2, hkeep _ (hy ▸ hshown.1), hkeep _ (hy ▸ hshown.2), h3, h4⟩

end Sys2Proof.Machine

end

/-! The speaker slots (R79 to R83). -/

section

set_option autoImplicit false

namespace Sys2Proof.Machine

/-! ### The staged configuration that a word gives (R79 to R81) -/

/-- The largest word of a speaker slot. -/
def speakerBound : SpeakerSlot → Nat
  | .frontSize | .sub => 1
  | .center | .surround | .back | .top => 2
  | .crossover => 5

theorem word_le_two (w : Word) (h : w.toNat ≤ 2) : w = 0#16 ∨ w = 1#16 ∨ w = 2#16 := by bv_omega

theorem sizeWord_sizeOfWord (w : Word) (h : w.toNat ≤ 2) : sizeWord (sizeOfWord w) = w := by
  rcases word_le_two w h with rfl | rfl | rfl <;> rfl

theorem sizeWord_eq_two (x : SpeakerSize) : sizeWord x = 2 ↔ x = .absent := by cases x <;> decide

/-- A slot's word is the one put there, every other slot's the one it had (R79). -/
theorem word_put (c : SpeakerConfig) (p : SpeakerSlot) (w : Word) (q : SpeakerSlot) (h : w.toNat ≤ speakerBound p) :
    (c.put p w).word q = if q = p then w else c.word q := by
  by_cases hq : q = p
  · subst hq
    rw [if_pos rfl]
    have hone : speakerBound q = 1 → w = 0#16 ∨ w = 1#16 := fun hb => by rw [hb] at h; bv_omega
    cases q with
    | frontSize => rcases hone rfl with rfl | rfl <;> rfl
    | sub => rcases hone rfl with rfl | rfl <;> rfl
    | center | surround | back | top => exact sizeWord_sizeOfWord w h
    | crossover => simp [SpeakerConfig.put, SpeakerConfig.word, numWord]
  · rw [if_neg hq]
    cases p <;> cases q <;> first | rfl | exact absurd rfl hq

/-- A SUB word that makes SUB absent forces the front pair LARGE, and a SURROUND word that makes the pair absent the
back pair ABSENT (R80, R81). -/
theorem word_take (c : SpeakerConfig) (p : SpeakerSlot) (w : Word) (q : SpeakerSlot) (h : w.toNat ≤ speakerBound p) :
    (c.take p w).word q =
      if q = p then w
      else if p = .sub ∧ w = 1 ∧ q = .frontSize then 0
      else if p = .surround ∧ w = 2 ∧ q = .back then 2
      else c.word q := by
  have hput := word_put c p w q h
  have hfront : q = .frontSize → (c.take p w).word q = if p = .sub ∧ w = 1 then 0 else (c.put p w).word q := by
    rintro rfl
    by_cases hp : p = .sub
    · subst hp
      rcases (show w = 0#16 ∨ w = 1#16 by simp only [speakerBound] at h; bv_omega) with rfl | rfl
      · rfl
      · cases hc : c.front <;> simp [SpeakerConfig.take, SpeakerConfig.put, SpeakerConfig.needsFrontFix,
          SpeakerConfig.word, hc]
    · simp [SpeakerConfig.take, SpeakerConfig.needsFrontFix, SpeakerConfig.word, hp, beq_eq_decide]
  have hback : q = .back → (c.take p w).word q = if p = .surround ∧ w = 2 then 2 else (c.put p w).word q := by
    rintro rfl
    by_cases hp : p = .surround
    · subst hp
      rcases word_le_two w h with rfl | rfl | rfl
      · rfl
      · rfl
      · cases hc : c.back <;> simp [SpeakerConfig.take, SpeakerConfig.put, SpeakerConfig.needsBackFix,
          SpeakerConfig.word, sizeOfWord, sizeWord, hc]
    · simp [SpeakerConfig.take, SpeakerConfig.needsBackFix, SpeakerConfig.word, hp, beq_eq_decide]
  by_cases hf : q = .frontSize
  · rw [hfront hf, hput]
    subst hf
    by_cases hp : p = .sub <;> simp [hp]
  by_cases hb : q = .back
  · rw [hback hb, hput]
    subst hb
    by_cases hp : p = .surround <;> simp [hp]
  have hsame : (c.take p w).word q = (c.put p w).word q := by cases q <;> first | rfl | contradiction
  rw [hsame, hput]
  simp [hf, hb]

/-- The write-backs of the forced slots (R80, R81). -/
def forcedSlots (c : SpeakerConfig) (p : SpeakerSlot) (w : Word) : List Slot :=
  if p = .sub ∧ w = 1 ∧ c.word .frontSize = 1 then [.speaker .frontSize]
  else if p = .surround ∧ w = 2 ∧ c.word .back ≠ 2 then [.speaker .back] else []

/-! ### The SPEAKERS request (R60, R82, R83) -/

/-- A request leaves the zones and the configuration as `speakersRequested` says. -/
theorem requestSpeakers_eq (c : SpeakerConfig) (x : State) (h : c ≠ x.bass.staged) :
    let y := requestChange .speakers speakersApply { x with bass := { x.bass with staged := c } }
    y = { x with bass := (speakersRequested c x).bass, zones := (speakersRequested c x).zones, dirty := y.dirty }
      ∧ ∀ r, r ∈ y.dirty ↔ r ∈ x.dirty ∨ r = .zone .z1 ∧ (y.zones.get .z1).state ≠ (x.zones.get .z1).state := by
  intro y
  have hquiet : zoneQuiet { x with bass := { x.bass with staged := c } } .z1 = true
      ↔ x.audioRuns = true ∧ x.zones.z1.state ∈ [ZoneState.waiting, .silent] := zoneQuiet_iff _ _
  by_cases hq : x.audioRuns = true ∧ x.zones.z1.state ∈ [ZoneState.waiting, .silent]
  · have hy : y = speakersApply { x with bass := { x.bass with staged := c } } := if_pos (hquiet.2 hq)
    have hr : speakersRequested c x
        = { x with bass := { x.bass with staged := c, active := c, filters := .all .zero } } :=
      (if_neg h).trans (if_pos hq)
    rw [hr, hy]
    exact ⟨rfl, fun r => by simp [speakersApply]⟩
  · have hy : y = holdChange .speakers .z1 { x with bass := { x.bass with staged := c } } := if_neg (mt hquiet.1 hq)
    have hr : speakersRequested c x = _ := (if_neg h).trans (if_neg hq)
    rw [hr, hy]
    refine ⟨?_, fun r => ?_⟩
    · apply State.ext_fields <;> simp [holdChange]
      rfl
    · simp only [holdChange, mem_moveZone_dirty, moveZone_zones, PerZone.get_upd_self]

/-- A request reads and changes the zones and the configuration alone. -/
theorem speakersRequested_of (c : SpeakerConfig) (s x : State) (hb : x.bass = s.bass) (hz : x.zones = s.zones)
    (hr : x.audioRuns = s.audioRuns) :
    (speakersRequested c x).bass = (speakersRequested c s).bass
      ∧ (speakersRequested c x).zones = (speakersRequested c s).zones := by
  by_cases h : c = s.bass.staged
  · simp [speakersRequested, h, hb, hz]
  by_cases hq : s.audioRuns = true ∧ s.zones.z1.state ∈ [ZoneState.waiting, .silent]
  · simp only [speakersRequested, hb, hz, hr, if_neg h, if_pos hq, and_self]
  · simp only [speakersRequested, hb, hz, hr, if_neg h, if_neg hq, and_self]

/-! ### The arrival -/

theorem needsFrontFix_iff (c : SpeakerConfig) (p : SpeakerSlot) (w : Word) (h : w.toNat ≤ speakerBound p) :
    (c.put p w).needsFrontFix p = true ↔ p = .sub ∧ w = 1 ∧ c.word .frontSize = 1 := by
  by_cases hp : p = .sub
  · subst hp
    rcases (show w = 0#16 ∨ w = 1#16 by simp only [speakerBound] at h; bv_omega) with rfl | rfl
    · simp [SpeakerConfig.put, SpeakerConfig.needsFrontFix]
    · cases hc : c.front <;> simp [SpeakerConfig.put, SpeakerConfig.needsFrontFix, SpeakerConfig.word, hc]
  · simp [SpeakerConfig.needsFrontFix, hp]

theorem needsBackFix_iff (c : SpeakerConfig) (p : SpeakerSlot) (w : Word) (h : w.toNat ≤ speakerBound p) :
    (c.put p w).needsBackFix p = true ↔ p = .surround ∧ w = 2 ∧ c.word .back ≠ 2 := by
  by_cases hp : p = .surround
  · subst hp
    rcases word_le_two w h with rfl | rfl | rfl
    · simp [SpeakerConfig.put, SpeakerConfig.needsBackFix, sizeOfWord, beq_eq_decide]
    · simp [SpeakerConfig.put, SpeakerConfig.needsBackFix, sizeOfWord, beq_eq_decide]
    · cases hc : c.back <;> simp [SpeakerConfig.put, SpeakerConfig.needsBackFix, SpeakerConfig.word, sizeOfWord,
        sizeWord, hc]
  · simp [SpeakerConfig.needsBackFix, hp]

/-- A state whose forced slots have asked for their write-backs. -/
def withForced (p : SpeakerSlot) (w : Word) (x : State) : State :=
  { x with agent := { x.agent with queue := queueWith x.agent.queue (forcedSlots x.bass.staged p w) } }

/-- What a speaker slot's arrival does, by what it changes (R79 to R82). -/
theorem speakerArrival_eq (p : SpeakerSlot) (w : Word) (x : State) (h : w.toNat ≤ speakerBound p) :
    let old := x.bass.staged
    let new := old.take p w
    let z := withForced p w x
    let asked := requestChange .speakers speakersApply { z with bass := { z.bass with staged := new } }
    speakerArrival p w x =
      if new = old then z else if new.presence = old.presence then asked else presenceArrival asked := by
  intro old new z asked
  have hz : ∀ b : Bass,
      (if (old.put p w).needsBackFix p = true then
        requestWriteBack (.speaker .back)
          (if (old.put p w).needsFrontFix p = true then requestWriteBack (.speaker .frontSize) { x with bass := b }
            else { x with bass := b })
        else if (old.put p w).needsFrontFix p = true then requestWriteBack (.speaker .frontSize) { x with bass := b }
          else { x with bass := b }) = { z with bass := b } := by
    intro b
    simp only [needsBackFix_iff old p w h, needsFrontFix_iff old p w h, requestWriteBack_eq, z, withForced, forcedSlots]
    by_cases h1 : p = .sub ∧ w = 1 ∧ old.word .frontSize = 1
    · have h2 : ¬(p = .surround ∧ w = 2 ∧ old.word .back ≠ 2) := by simp [h1.1]
      rw [if_neg h2, if_pos h1, if_pos h1]
      simp [queueWith]
    · rw [if_neg h1, if_neg h1]
      by_cases h2 : p = .surround ∧ w = 2 ∧ old.word .back ≠ 2
      · rw [if_pos h2, if_pos h2]
        simp [queueWith]
      · rw [if_neg h2, if_neg h2]
        simp [queueWith]
  unfold speakerArrival
  dsimp only
  rw [hz]
  by_cases hno : new = old
  · rw [if_pos hno, if_pos hno]
    have hkeep : ({ z with bass := { z.bass with staged := old } } : State) = z := rfl
    exact (congrArg (fun c => ({ z with bass := { z.bass with staged := c } } : State)) hno).trans hkeep
  · rw [if_neg hno, if_neg hno]
    rfl

/-- The examination of a running pool that takes a changed presence set (R116). -/
theorem presenceArrival_examined (x b : State) (hr : x.audioRuns = true) (hk : PathsAgree x b) :
    ∃ e, Examined { b with pool := { x.pool with
        presence := x.bass.staged.presence
        staged := computeSet x.bass.staged.presence x.pool.dist x.pool.lipsync } } e
      ∧ presenceArrival x = { x with zones := e.zones, pool := e.pool, dirty := (presenceArrival x).dirty }
      ∧ PathMarked x (presenceArrival x) := by
  set pool : Pool := { x.pool with
    presence := x.bass.staged.presence
    staged := computeSet x.bass.staged.presence x.pool.dist x.pool.lipsync } with hpool
  have heq : presenceArrival x = examineZones { x with pool := pool } := if_pos hr
  have hex := examineZones_spec { x with pool := pool }
  obtain ⟨hexb, -⟩ := examined_onto hex
    (show PathsAgree _ { b with pool := pool } from
      ⟨⟨hk.paths.zones, hk.paths.gain, hk.paths.mods, hk.paths.dec, hk.paths.bass, rfl⟩, hk.view, hk.runs, hk.sets⟩)
  refine ⟨_, hexb, ?_, ?_⟩
  · rw [heq]
    apply State.ext_fields
    case h_zones => rfl
    case h_pool => rfl
    case h_dirty => rfl
    all_goals rw [hex.rest]
  · rw [heq]
    exact (examineZones_pathMarked { x with pool := pool }).after rfl

theorem speakersRequested_rest (c : SpeakerConfig) (s : State) :
    speakersRequested c s = { s with bass := (speakersRequested c s).bass, zones := (speakersRequested c s).zones }
      ∧ (speakersRequested c s).bass.staged = c := by
  by_cases h : c = s.bass.staged
  · simp [speakersRequested, h]
  by_cases hq : s.audioRuns = true ∧ s.zones.z1.state ∈ [ZoneState.waiting, .silent]
  · simp only [speakersRequested, if_neg h, if_pos hq, and_self]
  · simp only [speakersRequested, if_neg h, if_neg hq, and_self]

/-- A request changes a zone's state and its held changes at most. -/
theorem speakersRequested_zone (c : SpeakerConfig) (s : State) (z : Zone) :
    (speakersRequested c s).zones.get z
      = { s.zones.get z with
          state := ((speakersRequested c s).zones.get z).state
          held := ((speakersRequested c s).zones.get z).held } := by
  by_cases h : c = s.bass.staged
  · simp [speakersRequested, h]
  by_cases hq : s.audioRuns = true ∧ s.zones.z1.state ∈ [ZoneState.waiting, .silent]
  · simp only [speakersRequested, if_neg h, if_pos hq]
  · simp only [speakersRequested, if_neg h, if_neg hq]
    cases z <;> rfl

/-- A DELAY request keeps a zone's other held changes. -/
theorem Asked.speakers {r r' : ZoneRec} (h : Asked r r') : r'.held.speakers = r.held.speakers := by
  rcases h.held with e | e <;> rw [e]

/-- A zone that reconfigures goes on to do so. -/
theorem Asked.reconfiguring {r r' : ZoneRec} (h : Asked r r') (hs : r.state = .reconfiguring) :
    r'.state = .reconfiguring := by
  rcases h.state with e | ⟨-, e⟩
  · rw [e, hs]
  · exact e

/-- Settles O16: the configuration that the word gives, its request, and the examination of a changed presence
set. -/
theorem speakerWriteStagesConfiguration : Obligations.SpeakerWriteStagesConfiguration := by
  unfold Obligations.SpeakerWriteStagesConfiguration
  refine ⟨fun c ch => by cases ch <;> simp [SpeakerConfig.presence, PerMain.get], ?_⟩
  intro p v s h hm hlock hv old w
  have hw : carriedWord s (.speaker p) v = w := by
    cases p <;> simp [carriedWord, w, old]
  have hbound : w.toNat ≤ speakerBound p := by
    have hle : ¬speakerBound p < v.toNat := by cases p <;> exact hv
    simp only [w]
    split
    · exact Nat.zero_le _
    · split
      · rename_i hb
        rw [hb.1]
        decide
      · omega
  have hj : judgeSlot s (.speaker p) .full v = .arrives (.speaker p) w :=
    judgeSlot_arrives s _ v w (fun _ => hlock) rfl (hw ▸ filterValue_carried s _ v ⟨nofun, nofun⟩ hv)
  set x := arrived (.speaker p) w s with hx
  set new := old.take p w with hnew
  set reqs := forcedSlots old p w with hreqs
  set y := arrive (.speaker p) w x with hy
  set a := speakersRequested new s with ha
  have hqueue : (withForced p w x).agent.queue = queueWith s.agent.queue reqs := by
    simp [withForced, hx, arrived, queueAfter, hlock, queueWith, hreqs, old]
  have hq := speakerArrival_eq p w x hbound
  dsimp only at hq
  set z := withForced p w x with hz
  obtain ⟨hab, haz⟩ := speakersRequested_of new s z rfl rfl rfl
  set asked := requestChange .speakers speakersApply { z with bass := { z.bass with staged := new } } with hasked
  have hyq : y = if new = old then z else if new.presence = old.presence then asked else presenceArrival asked := hq
  have hask : new ≠ old → asked = { z with bass := a.bass, zones := a.zones, dirty := asked.dirty }
      ∧ SetsMarks [] s asked ∧ PathMarked z asked := fun hne => by
    obtain ⟨h1, h2⟩ := requestSpeakers_eq new z hne
    rw [hab, haz] at h1
    exact ⟨h1, setsMarks_moved .z1 fun r => by
      rw [List.mem_nil_iff, false_or]
      exact h2 r, fun r hr => (h2 r).2 (.inl hr), fun r hr =>
      ((h2 r).1 hr).imp_right fun h3 => by rw [h3.1]; exact zone_mem_pathRecords .z1⟩
  obtain ⟨hrest, hanew⟩ := speakersRequested_rest new s
  rw [← ha] at hrest hanew
  have hzsame : z = { s with mem := z.mem, agent := z.agent } := by
    apply State.ext_fields
    case h_lock => simp [hz, hx, withForced, arrived, lockAfter, hlock]
    all_goals rfl
  have hruns : new ≠ old → s.audioRuns = true → ∃ e,
      Examined { a with pool := { s.pool with
        presence := new.presence, staged := computeSet new.presence s.pool.dist s.pool.lipsync } } e
      ∧ presenceArrival asked = { z with
        bass := a.bass, zones := e.zones, pool := e.pool, dirty := (presenceArrival asked).dirty }
      ∧ PathMarked asked (presenceArrival asked) := fun hne hr => by
    have hfields := (hask hne).1
    have haud : asked.audioRuns = true := by rw [hfields]; exact hr
    obtain ⟨e, he, heq, hmk⟩ := presenceArrival_examined asked a haud (by
      rw [hfields, hrest]
      exact pathsAgree_of_eq ⟨rfl, rfl, rfl, rfl, rfl, rfl⟩ rfl rfl rfl rfl)
    have hpool : asked.pool = s.pool := by rw [hfields]; rfl
    have hbass : asked.bass = a.bass := by rw [hfields]
    rw [hpool, hbass, hanew] at he
    refine ⟨e, he, ?_, hmk⟩
    rw [heq, hfields]
  have hzform : z = { s with
      mem := x.mem, agent := { s.agent with queue := queueWith s.agent.queue reqs } } := by
    rw [← hqueue]
    exact hzsame
  have hpath : y = { z with bass := a.bass, zones := y.zones, pool := y.pool, dirty := y.dirty }
      ∧ (new.presence = old.presence ∨ s.audioRuns = false →
        y.zones = a.zones ∧ y.pool = s.pool ∧ SetsMarks [] s y)
      ∧ (new.presence ≠ old.presence → s.audioRuns = true → ∃ e,
        Examined { a with pool := { s.pool with
          presence := new.presence, staged := computeSet new.presence s.pool.dist s.pool.lipsync } } e
        ∧ y.zones = e.zones ∧ y.pool = e.pool ∧ SetsBetween [] pathRecords s y) := by
    by_cases hno : new = old
    · have has : a = s := if_pos hno
      rw [hyq, if_pos hno, has]
      exact ⟨rfl, fun _ => ⟨rfl, rfl, .same _ _ rfl⟩, fun h0 => absurd (congrArg SpeakerConfig.presence hno) h0⟩
    obtain ⟨hfields, hmarks, hpath⟩ := hask hno
    have hzones : asked.zones = a.zones := by rw [hfields]
    have hpool : asked.pool = s.pool := by rw [hfields]; rfl
    by_cases h0 : new.presence = old.presence
    · rw [hyq, if_neg hno, if_pos h0, hzones, hpool]
      exact ⟨hfields, fun _ => ⟨rfl, rfl, hmarks⟩, fun h1 => absurd h0 h1⟩
    · rw [hyq, if_neg hno, if_neg h0]
      by_cases hr : s.audioRuns = true
      · obtain ⟨e, he, heq, hmk⟩ := hruns hno hr
        refine ⟨?_, fun h1 => absurd h1 (by simp [h0, hr]), fun _ _ => ⟨e, he, ?_, ?_, (hpath.trans hmk).between rfl⟩⟩
        · conv_lhs => rw [heq]
          rw [heq]
        · rw [heq]
        · rw [heq]
      · have hstill : presenceArrival asked = asked := if_neg (by rw [hfields]; exact hr)
        rw [hstill, hzones, hpool]
        exact ⟨hfields, fun _ => ⟨rfl, rfl, hmarks⟩, fun _ h1 => absurd h1 hr⟩
  obtain ⟨hform, hquiet, hloud⟩ := hpath
  have hbetween : SetsBetween [] pathRecords s y := by
    by_cases h0 : new.presence = old.presence ∨ s.audioRuns = false
    · exact (hquiet h0).2.2.between _
    · obtain ⟨e, -, -, -, he⟩ := hloud (fun h => h0 (.inl h)) (by simpa using fun h => h0 (.inr h))
      exact he
  have hlockafter : ∀ l, lockAfter s (.speaker p) l = l := fun l => if_neg (by simp [hlock])
  have hqueueafter : queueAfter s (.speaker p) reqs = queueWith s.agent.queue reqs := by
    simp [queueAfter, hlock]
  have hu : y = { ({ s with bass := a.bass, zones := y.zones, pool := y.pool } : State) with
      mem := x.mem, lock := lockAfter s (.speaker p) s.lock, dirty := y.dirty
      agent := { s.agent with queue := queueAfter s (.speaker p) reqs } } := by
    rw [hlockafter, hqueueafter]
    conv_lhs => rw [hform, hzform]
  obtain ⟨t, ht, hdone, -⟩ := rowDone (.speaker p) v w reqs [] pathRecords s
    { s with bass := a.bass, zones := y.zones, pool := y.pool } h hm hj rfl rfl rfl hu hbetween
  have hexact : new.presence = old.presence → MarksExactly [] s t := fun h0 => by
    obtain ⟨t', ht', htaken⟩ := rowTaken (.speaker p) v w reqs [] s
      { s with bass := a.bass, zones := y.zones, pool := y.pool } h hm hj rfl rfl hu (hquiet (.inl h0)).2.2 id
    cases ht.symm.trans ht'
    exact htaken.marks
  have hbass : t.bass = a.bass := by rw [hdone.rest]
  have hzones : t.zones = y.zones := by rw [hdone.rest]
  have hpool : t.pool = y.pool := by rw [hdone.rest]
  have hstaged : t.bass.staged = new := by rw [hbass, hanew]
  have hasked : ∀ z, Asked (a.zones.get z) (t.zones.get z) := fun z => by
    rw [hzones]
    by_cases h0 : new.presence = old.presence ∨ s.audioRuns = false
    · rw [(hquiet h0).1]
      exact .refl _
    · obtain ⟨e, he, heq, -, -⟩ := hloud (fun h => h0 (.inl h)) (by simpa using fun h => h0 (.inr h))
      rw [heq]
      exact examined_asked he z
  refine ⟨t, ht, ?_, hdone.word, hdone.bytes, fun q => ?_, fun h0 => ?_, fun h0 hr hst => ?_, fun h0 hno => ?_,
    fun h0 => ?_, fun h0 hr => ?_, ?_, fun z => ?_, hdone.marks, hstaged ▸ hexact⟩
  · have hrest' := hdone.rest
    rw [hlockafter, hqueueafter, ← hbass, ← hzones, ← hpool] at hrest'
    exact hrest'
  · rw [hstaged]
    exact word_take old p w q hbound
  · rw [hstaged] at h0
    have has : a = s := if_pos h0
    obtain ⟨h1, h2, -⟩ := hquiet (.inl (congrArg SpeakerConfig.presence h0))
    rw [hbass, hzones, hpool, h1, h2, has]
    exact ⟨rfl, rfl, rfl⟩
  · rw [hstaged] at h0 ⊢
    have has : a = _ := (if_neg h0).trans (if_pos ⟨hr, hst⟩)
    rw [hbass, has]
    exact ⟨rfl, rfl⟩
  · rw [hstaged] at h0
    have has : a = _ := (if_neg h0).trans (if_neg fun hc => hno hc.1 hc.2)
    have hz1 := hasked .z1
    rw [has] at hz1
    rw [hbass, has]
    refine ⟨rfl, rfl, ?_, fun hr hst => ?_⟩
    · exact hz1.speakers
    · exact hz1.reconfiguring (if_pos ⟨hr, hst⟩)
  · rw [hstaged] at h0
    rw [hpool, (hquiet (.inl h0)).2.1]
  · rw [hstaged] at h0 ⊢
    obtain ⟨e, he, -, hep, -⟩ := hloud h0 hr
    rw [hpool, hep, he.rest]
    exact ⟨rfl, rfl⟩
  · rw [hstaged]
    refine ⟨hbass, fun h0 => ?_, fun h0 hr => ?_⟩
    · rw [hzones, hpool]
      exact ⟨(hquiet h0).1, (hquiet h0).2.1⟩
    · rw [hzones, hpool]
      obtain ⟨e, he, h1, h2, -⟩ := hloud h0 hr
      exact ⟨e, he, h1, h2⟩
  · have hown : a.zones.get z
        = { s.zones.get z with state := (a.zones.get z).state, held := (a.zones.get z).held } := by
      rw [ha]
      exact speakersRequested_zone new s z
    conv_lhs => rw [(hasked z).rest, hown]

end Sys2Proof.Machine

end

/-! REGION, BAND, CODE and AF_FOLLOW (R162, R173, R188). -/

section

set_option autoImplicit false

namespace Sys2Proof.Machine

theorem topCode_bound (r : Region) (b : Band) : topCode r b ≤ 205 := by cases r <;> cases b <;> decide

/-! ### The AF record (R189) -/

/-- The AF record has a word for each code, and twelve at least. -/
theorem length_afWords (s : State) : (afWords s).length = 1 + max s.sd.af.length 12 := by
  simp [afWords]
  omega

/-- A shorter AF list shows in the AF record. -/
theorem afRecord_shorter {s y : State} (h : y.sd.af.length < s.sd.af.length) : recWords s .af ≠ recWords y .af := by
  intro e
  have hlen := congrArg List.length (show afWords s = afWords y from e)
  rw [length_afWords, length_afWords] at hlen
  have hhead : numWord s.sd.af.length = numWord y.sd.af.length := (List.cons.inj e).1
  have hnat := congrArg BitVec.toNat hhead
  rw [numWord_toNat _ (by omega), numWord_toNat _ (by omega)] at hnat
  omega

/-- The attention state after codes have left the AF list, which is published as station content (R189). -/
theorem publish_att_af (s y : State) (hatt : y.att = s.att) (hsd : y.sd = { s.sd with af := y.sd.af })
    (hlen : y.sd.af = s.sd.af ∨ y.sd.af.length < s.sd.af.length) :
    (publish s y).att = { s.att with
      pending := if y.sd.af = s.sd.af then s.att.pending else s.att.pending ||| 0x0200#16 } := by
  have hany : (changedRecords s y).any Rec.isStation = true ↔ y.sd.af ≠ s.sd.af := by
    rw [List.any_eq_true]
    constructor
    · rintro ⟨r, hr, hst⟩ he
      rw [he] at hsd
      refine ((mem_changedRecords s y r).1 hr).2 ?_
      cases r <;> simp_all [recWords, summaryWords, nameWords, textWords, afWords, Rec.isStation]
    · intro he
      exact ⟨.af, (mem_changedRecords s y _).2 ⟨rfl, afRecord_shorter (hlen.resolve_left he)⟩, rfl⟩
  rw [publish_att_eq, hatt]
  by_cases he : y.sd.af = s.sd.af
  · rw [if_neg (by rw [hany]; exact fun h => h he), if_pos he]
  · rw [if_pos (hany.2 he), if_neg he]
    rfl

/-! ### The target code -/

/-- A changed CODE leaves the AF list (R188). -/
theorem changeCode_eq (code : Nat) (s : State) :
    changeCode code s = { s with
      tun := { s.tun with code := code }
      sd := { s.sd with af := if code = s.tun.code then s.sd.af else s.sd.af.filter fun x => x != code } } := by
  unfold changeCode
  split
  · rename_i h
    subst h
    rfl
  · rfl

/-- CODE lowered to the new top code (R162). -/
theorem lowerCode_eq (s : State) :
    let code := min s.tun.code (topCode s.tun.region s.tun.band)
    lowerCode s = { s with
      tun := { s.tun with code := code }
      sd := { s.sd with af := if code = s.tun.code then s.sd.af else s.sd.af.filter fun x => x != code }
      agent := { s.agent with queue := queueWith s.agent.queue (if code ≠ s.tun.code then [.code] else []) } } := by
  intro code
  unfold lowerCode ownCode
  by_cases h : code = s.tun.code
  · rw [if_pos h]
    simp [h, queueWith]
  · rw [if_neg h, requestWriteBack_eq, changeCode_eq]
    simp [h, queueWith, code]

/-- Settles O23, slot by slot: what the target takes, and what leaves the AF list. -/
theorem tunerTargetWritesTuneNothing : Obligations.TunerTargetWritesTuneNothing := by
  unfold Obligations.TunerTargetWritesTuneNothing
  refine ⟨by decide, fun s => ⟨rfl, ?_⟩, ?_⟩
  · simp [afActive, Option.isSome_iff_ne_none, beq_eq_decide, and_assoc]
  intro i sl v w f code s h hm hi
  set af := if code = s.tun.code then s.sd.af else s.sd.af.filter fun x => x != code with haf
  set reqs : List Slot := if (sl = .region ∨ sl = .band) ∧ code ≠ s.tun.code then [.code] else [] with hreqs
  set x := arrived sl w s with hx
  obtain ⟨hrow, hj, harr⟩ : writeRow i = some (sl, .full, v) ∧ judgeSlot s sl .full v = .arrives sl w
      ∧ arrive sl w x = normWeak { x with
        tun := f s.tun, sd := { s.sd with af := af }
        agent := { s.agent with queue := queueWith x.agent.queue reqs } } := by
    rcases hi with ⟨r, hv, hoff, rfl, rfl, rfl, hcode, rfl⟩ | ⟨b, hv, rfl, rfl, rfl, hcode, rfl⟩
      | ⟨rfl, rfl, rfl, hcode, rfl⟩ | ⟨on, hv, rfl, rfl, rfl, hcode, rfl⟩
    · have hmem : w.toNat ∈ [0, 1] ∧ regionOfWord w = r := by
        simp only [List.mem_cons, Prod.mk.injEq, List.not_mem_nil, or_false] at hv
        rcases hv with ⟨rfl, rfl⟩ | ⟨rfl, rfl⟩ <;> decide
      refine ⟨rfl, judgeSlot_arrives s _ w w nofun (by simp [stateForbids, hoff]) (members_mem _ w hmem.1), ?_⟩
      rw [arrive, hmem.2, regionArrival, lowerCode_eq, haf, hreqs, hcode]
      simp [hx, arrived]
    · have hmem : w.toNat ∈ [0, 1] ∧ bandOfWord w = b := by
        simp only [List.mem_cons, Prod.mk.injEq, List.not_mem_nil, or_false] at hv
        rcases hv with ⟨rfl, rfl⟩ | ⟨rfl, rfl⟩ <;> decide
      refine ⟨rfl, judgeSlot_arrives s _ w w nofun rfl (members_mem _ w hmem.1), ?_⟩
      rw [arrive, hmem.2, bandArrival, lowerCode_eq, haf, hreqs, hcode]
      simp [hx, arrived]
    · have hbound := topCode_bound s.tun.region s.tun.band
      have hn : (numWord code).toNat = code := numWord_toNat _ (by omega)
      refine ⟨rfl, judgeSlot_arrives s _ v _ nofun rfl (by rw [hcode, Nat.min_comm, ← clampNat_zero]; rfl), ?_⟩
      rw [arrive, hn, changeCode_eq, haf, hreqs]
      simp [hx, arrived, queueWith]
    · have hmem : w.toNat ∈ [0, 1] ∧ decide (w = 1) = on := by
        simp only [List.mem_cons, Prod.mk.injEq, List.not_mem_nil, or_false] at hv
        rcases hv with ⟨rfl, rfl⟩ | ⟨rfl, rfl⟩ <;> decide
      refine ⟨rfl, judgeSlot_arrives s _ w w nofun rfl (members_mem _ w hmem.1), ?_⟩
      rw [arrive, haf, hreqs, hcode, ← hmem.2]
      simp [hx, arrived, queueWith, updTun]
  set n : State := { x with
    tun := f s.tun, sd := { s.sd with af := af }
    agent := { s.agent with queue := queueWith x.agent.queue reqs } } with hn
  set y := arrive sl w x with hy
  have hlen : af = s.sd.af ∨ af.length < s.sd.af.length := by
    by_cases he : af = s.sd.af
    · exact .inl he
    · refine .inr ?_
      have hsub : af.Sublist s.sd.af := by
        rw [haf]
        split
        · exact .refl _
        · exact List.filter_sublist
      exact lt_of_le_of_ne hsub.length_le fun hl => he (hsub.eq_of_length hl)
  have hyn : y = { n with tun := { f s.tun with weak := weakKept n } } := by rw [harr, normWeak_eq]
  have hsd : y.sd = { s.sd with af := af } := by rw [hyn]
  have hatt : y.att = s.att := by rw [hyn]; rfl
  have hpub := publish_att_af s y hatt (by rw [hsd]) (by rw [hsd]; exact hlen)
  have hform : y = { ({ s with
        tun := { f s.tun with weak := weakKept n }, sd := { s.sd with af := af }, att := (publish s y).att } : State) with
      mem := x.mem, lock := lockAfter s sl s.lock, dirty := y.dirty, att := y.att
      agent := { s.agent with queue := queueAfter s sl reqs } } := by
    have hq : queueWith x.agent.queue reqs = queueAfter s sl reqs := by
      simp [hx, arrived, queueAfter, queueWith]
    conv_lhs => rw [hyn, hn, hq]
    rw [hatt, hyn]
    rfl
  obtain ⟨ht, htaken⟩ := writeTaken_general sl .full v w reqs [] s
    { s with tun := { f s.tun with weak := weakKept n }, sd := { s.sd with af := af }, att := (publish s y).att } h hm hj
    x y rfl hy hform rfl rfl (.same _ _ (by rw [hyn]; rfl)) (fun k => by rwa [hatt])
  · set t := publish s (updAgent (fun g => { g with port := .free, lastPart := false }) y) with htdef
    have htw : t.tun.weak = weakKept n := by rw [htaken.rest]
    have hta : t.att = (publish s y).att := by rw [htaken.rest]
    refine ⟨t, (exec_writeRow i sl .full v s hrow).trans ht, ?_, ?_, ?_⟩
    · rw [htw, hta]
      exact htaken
    · have hts : t.sd.af = af := by rw [htaken.rest]
      rw [hta, hpub, hts, hsd]
    · rw [htw, htaken.rest]
      have hweak : (f s.tun).weak = s.tun.weak := by
        rcases hi with ⟨r, -, -, -, -, -, -, rfl⟩ | ⟨b, -, -, -, -, -, rfl⟩ | ⟨-, -, -, -, rfl⟩ | ⟨on, -, -, -, -, -, rfl⟩ <;>
          rfl
      rw [← hweak]
      rfl

end Sys2Proof.Machine

end

/-! The moves of the tuner (R160 to R164, R166, R178): a change of its state with what leaving LISTENING and
VERIFYING ends, the abandoned operation, and the command on the front-end line. -/

section

set_option autoImplicit false

namespace Sys2Proof.Machine

/-! ### The reading, the line and the decoder -/

theorem abandonRssi_eq (s : State) : abandonRssi s = { s with meas := readingAbandoned s.meas } := by
  have hq : ∀ q : OnDemand, (if q.isTuner then OnDemand.tuner true else q)
      = match q with | .tuner _ => .tuner true | q => q := fun q => by cases q <;> rfl
  unfold abandonRssi updMeas readingAbandoned
  simp only [hq] <;> rfl

theorem readingAbandoned_twice (m : Meas) : readingAbandoned (readingAbandoned m) = readingAbandoned m := by
  have hqueue : (readingAbandoned (readingAbandoned m)).queue = (readingAbandoned m).queue := by
    simp only [readingAbandoned, List.map_map]
    exact List.map_congr_left fun q _ => by cases q <;> rfl
  have hconv : (readingAbandoned (readingAbandoned m)).conv = (readingAbandoned m).conv := by
    simp only [readingAbandoned, Option.map_map]
    exact Option.map_congr fun c _ => by rcases c with ⟨o, x, d⟩; cases o <;> rfl
  have heta : readingAbandoned (readingAbandoned m) = { readingAbandoned m with
      queue := (readingAbandoned (readingAbandoned m)).queue
      conv := (readingAbandoned (readingAbandoned m)).conv } := rfl
  rw [heta, hqueue, hconv]

/-- A command abandoned for either of two reasons. -/
theorem abandon_abandon (f : FrontEnd) (p q : FeCommand → Bool) :
    (f.abandon p).abandon q = f.abandon fun c => p c || q c := by
  unfold FrontEnd.abandon
  simp only [Option.map_map, Function.comp_def]
  congr 1
  apply Option.map_congr
  intro o _
  by_cases hp : p o.cmd = true <;> by_cases hq : q o.cmd = true <;> simp [hp, hq]

theorem abandonsOf_eq (out : Bool) :
    abandonsOf out = fun c => c.isTune || (out && c.needsListening) := by
  funext c
  cases c with
  | tune b r k p => rfl
  | query => exact (Bool.and_true out).symm
  | standby => exact (Bool.and_false out).symm

/-- What a new operation abandons on the line (R160, R163). -/
theorem abandon_operation (f : FrontEnd) (out : Bool) :
    (if out = true then (f.abandon FeCommand.isTune).abandon FeCommand.needsListening else f.abandon FeCommand.isTune)
      = f.abandon (abandonsOf out) := by
  rw [abandonsOf_eq, abandon_abandon]
  cases out <;> simp

/-- A command sent behind an abandoned one (R160). -/
theorem sent_of_abandon (f : FrontEnd) (p : FeCommand → Bool) (c : FeCommand) :
    SentOnLine p c f ((f.abandon p).send c) := by
  cases ho : f.outstanding with
  | none =>
    have hsend : (f.abandon p).send c = f.start c := by simp [FrontEnd.send, FrontEnd.abandon, ho, FrontEnd.start]
    rw [hsend]
    exact ⟨rfl, fun _ => ⟨rfl, rfl, rfl, rfl⟩, fun o h => by simp [ho] at h⟩
  | some o =>
    have hsend : (f.abandon p).send c
        = { f with outstanding := some { o with abandoned := o.abandoned || p o.cmd }, pending := some c } := by
      by_cases hp : p o.cmd = true <;> simp [FrontEnd.send, FrontEnd.abandon, ho, hp]
    rw [hsend]
    refine ⟨rfl, fun h => by simp [ho] at h, fun o' h => ?_⟩
    cases Option.some.inj (ho.symm.trans h)
    exact ⟨rfl, rfl, rfl, rfl⟩

/-- A notice to the decoder (R178). -/
theorem notice_eq (d : Station) (was now : Bool) : d.notice was now = bitsMoved was now d := rfl

theorem notice_stopped (d : Station) (was : Bool) : d.notice was false = bitsStopped was d := by
  cases was <;> rfl

theorem bitsStopped_clearContent (was : Bool) (d : Station) :
    (bitsStopped was d).clearContent = bitsStopped was d.clearContent := by
  cases was <;> rfl

/-! ### A change of the tuner's state (R163) -/

/-- A state in which the tuner carries. -/
def listens (x : TunerState) : Bool := (x == .listening) || (x == .verifying)

theorem listens_iff (x : TunerState) : listens x = decide (x = .listening ∨ x = .verifying) := by
  cases x <;> rfl

theorem carries_eq (t : Tuner) : t.carries = listens t.state := rfl

/-- The tuner, the line, the reading and the decoder as the tuner enters a state, before the carrying event. -/
def tunerMoved (next : TunerState) (s : State) : State :=
  let left := listens s.tun.state && !listens next
  { s with
    tun := { s.tun with
      state := next, readingTimer := s.tun.readingTimer && !left, queryTimer := s.tun.queryTimer && !left
      verifyTimer := s.tun.verifyTimer && !left }
    fe := if left = true then s.fe.abandon FeCommand.needsListening else s.fe
    meas := if left = true then readingAbandoned s.meas else s.meas
    sd := s.sd.notice (takingBits s.tun) (listens next && (s.tun.tunedBand == .fm)) }

theorem tunerGoto_eq (next : TunerState) (s : State) :
    tunerGoto next s = eventOf .tuner (listens s.tun.state) (listens next) (tunerMoved next s) := by
  have hmove : (updSd (fun d => d.notice (takingBits s.tun) (takingBits (updTun (fun t => { t with state := next })
        (if listens s.tun.state && !listens next then leaveListening s else s)).tun))
      (updTun (fun t => { t with state := next }) (if listens s.tun.state && !listens next then leaveListening s else s)))
      = tunerMoved next s := by
    unfold tunerMoved
    by_cases hl : (listens s.tun.state && !listens next) = true
    · simp only [hl, if_true, leaveListening, abandonRssi_eq, updTun, updSd, takingBits, Bool.not_true, Bool.and_false]
      rfl
    · simp only [Bool.not_eq_true] at hl
      simp only [hl, updTun, updSd, takingBits, Bool.not_false, Bool.and_true]
      rfl
  unfold tunerGoto eventOf
  rw [← hmove]
  rfl

/-! ### The abandoned operation (R160, R166) -/

/-- The tuner's timers stop and its TUNE and its reading are abandoned. -/
theorem abandonTuning_eq (s : State) :
    abandonTuning s = { s with
      tun := { s.tun with settleTimer := false, verifyTimer := false }
      fe := s.fe.abandon FeCommand.isTune, meas := readingAbandoned s.meas } := by
  unfold abandonTuning
  rw [abandonRssi_eq]
  rfl

/-- At a free port a recall fetch is a request that is withdrawn (R169). -/
theorem discardRecall_eq (s : State) (h : s.agent.port = .free) :
    discardRecall s = { s with tun := { s.tun with transfer := storeOnly s.tun.transfer } } := by
  unfold discardRecall
  cases ht : s.tun.transfer with
  | recalling n ws => simp only [updTun, h]; rfl
  | none =>
    show s = { s with tun := { s.tun with transfer := .none } }
    rw [← ht]
  | storing n k ws =>
    show s = { s with tun := { s.tun with transfer := .storing n k ws } }
    rw [← ht]

/-- A plain tune, before the carrying event of leaving LISTENING or VERIFYING (R164). -/
def plainMoved (s : State) : State :=
  let out := listens s.tun.state
  { s with
    tun := { s.tun with
      state := .tuning, settleTimer := false, verifyTimer := false
      readingTimer := s.tun.readingTimer && !out, queryTimer := s.tun.queryTimer && !out }
    fe := s.fe.abandon (abandonsOf out)
    meas := readingAbandoned s.meas
    sd := bitsStopped (takingBits s.tun) s.sd }

/-- The move of an abandoned operation to a state in which the tuner does not carry. -/
theorem tunerMoved_abandoned (next : TunerState) (s : State) (h : listens next = false) :
    tunerMoved next (abandonTuning s) = { plainMoved s with tun := { (plainMoved s).tun with state := next } } := by
  rw [abandonTuning_eq]
  unfold tunerMoved plainMoved
  have hfe := abandon_operation s.fe (listens s.tun.state)
  have htake : takingBits { s.tun with settleTimer := false, verifyTimer := false } = takingBits s.tun := rfl
  simp only [h, Bool.not_false, Bool.and_true, Bool.false_and, htake, notice_stopped, readingAbandoned_twice, ite_self, ← hfe]

/-- A plain tune (R164). -/
theorem plainTune_eq (band : Band) (code : Nat) (reason : TuneReason) (s : State) :
    let e := eventOf .tuner (listens s.tun.state) false (plainMoved s)
    plainTune band code reason s = { e with
      tun := { (plainMoved s).tun with reason := reason }
      fe := (s.fe.abandon (abandonsOf (listens s.tun.state))).send (.tune band s.tun.region code .plain) } := by
  intro e
  have hgoto : tunerGoto .tuning (abandonTuning s) = e := by
    rw [tunerGoto_eq, tunerMoved_abandoned .tuning s rfl, abandonTuning_eq]
    rfl
  have hrest : e = afterCarrying (plainMoved s) e := eventOf_rest _ _ _ _
  have htun : e.tun = (plainMoved s).tun := by rw [hrest]; rfl
  have hfe : e.fe = s.fe.abandon (abandonsOf (listens s.tun.state)) := by rw [hrest]; rfl
  unfold plainTune sendTune updFe updTun
  rw [hgoto, htun, hfe]
  rfl

end Sys2Proof.Machine

end

/-! The commands of the tuner that start, turn and end an operation (R166 to R168, R171). -/

section

set_option autoImplicit false

namespace Sys2Proof.Machine

/-! ### A command with the carrying event of leaving LISTENING or VERIFYING -/

/-- What follows an event and leaves what it changes. -/
theorem byEvent_after (src : Source) (was now : Bool) (s y z : State) (hr : y.audioRuns = s.audioRuns)
    (ha : y.att = s.att) (hd : y.dirty = s.dirty) (hz : z.att = (eventOf src was now y).att)
    (hv : z.view = (eventOf src was now y).view) (hp : SamePaths (eventOf src was now y) z)
    (hk : z.dirty = (eventOf src was now y).dirty) : ByEvent [] src was now s y z y.att where
  runs := hr
  att := hz.trans (eventOf_att src was now y)
  view := hv
  paths := hp
  before := ha ▸ .refl _
  beyond := .refl _
  keeps r h := hd ▸ h
  found r h := .inl (hd ▸ h)
  carried r h := hk ▸ h
  after r h := .inl (hk ▸ h)
  sets r h := by simp at h

/-- A taken command of the tuner, with the change of carrying status that its action brings about. -/
theorem tunerTaken (i : Instr) (v : Word) (c : TunerCommand) (reqs : List Slot) (was now : Bool) (s y u : State)
    (T : Tuner) (h : PortOpen s) (hm : MemoryCanonical s) (hi : writeRow i = some (.tunerCmd, .full, v))
    (hc : tunerCommandOf v = some c) (ha : tunerAnswer (arrived .tunerCmd v s) c = .taken)
    (hy : y = { s with
      mem := y.mem, lock := y.lock, agent := y.agent, answers := y.answers, tun := y.tun, fe := y.fe
      meas := y.meas, sd := y.sd })
    (hact : tunerAct c (answerTuner .taken (arrived .tunerCmd v s)) = { afterCarrying u (eventOf .tuner was now y) with
      mem := (arrived .tunerCmd v s).mem, lock := lockAfter s .tunerCmd s.lock, tun := T
      agent := { s.agent with queue := queueAfter s .tunerCmd reqs } })
    (hu : u = { s with
      answers := { s.answers with tuner := .taken }, tun := { T with weak := weakKept { u with tun := T } }
      fe := u.fe, meas := u.meas, sd := u.sd }) :
    ∃ t, exec i s = .next t
      ∧ WriteDone .tunerCmd v reqs (carryingMarks .tuner was now) (pathMarks was now s) s (afterCarrying u t) t
      ∧ CarryingChange .tuner was now s t ∧ StationNotice [] s (sourceNotice was now s.att) t := by
  set e := eventOf .tuner was now y with he
  set z := normWeak (tunerAct c (answerTuner .taken (arrived .tunerCmd v s))) with hz
  have hweak : weakKept { u with tun := T } = weakKept (tunerAct c (answerTuner .taken (arrived .tunerCmd v s))) := by
    rw [hact]
    rfl
  have hzf : z = { afterCarrying u e with
      mem := (arrived .tunerCmd v s).mem, lock := lockAfter s .tunerCmd s.lock
      agent := { s.agent with queue := queueAfter s .tunerCmd reqs } } := by
    rw [hz, normWeak_eq, ← hweak, hact, hu]
    rfl
  have harr : arrive .tunerCmd v (arrived .tunerCmd v s) = z := by
    show tunerCommand v _ = z
    unfold tunerCommand
    rw [hc]
    simp only [ha, if_true]
    exact hz.symm
  have hev : ByEvent [] .tuner was now s y z u.att := by
    have hatt : u.att = y.att := by rw [hy, hu]
    rw [hatt]
    refine byEvent_after .tuner was now s y z ?_ ?_ ?_ ?_ ?_ ?_ ?_
    · rw [hy]; rfl
    · rw [hy]
    · rw [hy]
    all_goals rw [hzf]
    · rfl
    · rfl
    · exact ⟨rfl, rfl, rfl, rfl, rfl, rfl⟩
    · rfl
  have hlock : u.lock = s.lock := by rw [hu]
  have hagent : u.agent = s.agent := by rw [hu]
  obtain ⟨t, ht, hdone, hnotice, hview, hpaths, -⟩ := writeDone_of_event .tunerCmd v v reqs [] .tuner was now s u y z h hm
    (judgeSlot_command s _ v rfl) harr hev
    (by
      rw [hlock, hagent]
      conv_lhs => rw [hzf]
      rw [hzf]
      rfl)
    (by rw [hagent]; exact h.free)
  have hatt : u.att = s.att := by rw [hu]
  refine ⟨t, (exec_writeRow i .tunerCmd .full v s hi).trans ht, hdone, ?_, hatt ▸ hnotice⟩
  refine hev.change ?_ hview hpaths
  rw [hy]
  exact pathsAgree_of_eq ⟨rfl, rfl, rfl, rfl, rfl, rfl⟩ rfl rfl rfl rfl

/-- The state in which the tuner's owner acts on a taken command: the outcome's write-back has been asked for. -/
theorem answered_eq (v : Word) (s : State) :
    answerTuner .taken (arrived .tunerCmd v s) = { arrived .tunerCmd v s with
      answers := { s.answers with tuner := .taken }
      agent := { s.agent with queue := queueAfter s .tunerCmd [.tunerCmd] } } := by
  rw [answerTuner, requestWriteBack_eq, queueAfter_one]
  rfl

/-- Without a station code AF follow is not active, and the weak count is 0 (R173). -/
theorem weakKept_cleared (s : State) (h : s.tun.expected = none) (hc : s.sd.confirmed.code = none) :
    weakKept s = 0 := by
  have : afActive s = false := by simp [afActive, stationCode, h, hc]
  rw [weakKept, this]
  rfl

/-- TUNE, OFF and a seek abandon the operation in progress, a recall fetch included (R166). -/
theorem abandonOperation_eq (s : State) (h : s.agent.port = .free) :
    abandonOperation s = abandonTuning { s with tun := { s.tun with transfer := storeOnly s.tun.transfer } } := by
  unfold abandonOperation
  rw [discardRecall_eq, abandonTuning_eq, abandonTuning_eq]
  rw [abandonTuning_eq]
  exact h

theorem abandonTuning_twice (s : State) : abandonTuning (abandonTuning s) = abandonTuning s := by
  have hfe : (s.fe.abandon FeCommand.isTune).abandon FeCommand.isTune = s.fe.abandon FeCommand.isTune := by
    rw [abandon_abandon]
    simp
  rw [abandonTuning_eq (abandonTuning s), abandonTuning_eq s]
  simp only [hfe, readingAbandoned_twice]

theorem plainTune_abandoned (band : Band) (code : Nat) (reason : TuneReason) (s : State) :
    plainTune band code reason (abandonTuning s) = plainTune band code reason s := by
  unfold plainTune
  rw [abandonTuning_twice]

/-- TUNE (R166). -/
theorem tuneCommand_eq (s : State) (h : s.agent.port = .free) :
    tuneCommand s = plainTune s.tun.band s.tun.code .hostTune { s with
      tun := { s.tun with transfer := storeOnly s.tun.transfer, expected := none, backoff := false }
      sd := s.sd.clearContent } := by
  rw [← plainTune_abandoned, abandonTuning_eq]
  unfold tuneCommand
  rw [abandonOperation_eq s h, abandonTuning_eq]
  rfl

/-- A taken command that abandons the operation in progress, takes the tuner to a state in which it does not carry, and
sends a command on the line (R160, R166). -/
theorem tunerOperation (i : Instr) (v : Word) (c : TunerCommand) (next : TunerState) (cmd : FeCommand) (s : State)
    (X T : Tuner) (D D' : Station) (h : PortOpen s) (hm : MemoryCanonical s)
    (hi : writeRow i = some (.tunerCmd, .full, v)) (hc : tunerCommandOf v = some c)
    (ha : tunerAnswer (arrived .tunerCmd v s) c = .taken)
    (hact : ∀ a : State, a.agent.port = .free → a.tun = s.tun → a.sd = s.sd → a.fe = s.fe →
      let x := { a with tun := X, sd := D }
      let e := eventOf .tuner (listens s.tun.state) false
        { plainMoved x with tun := { (plainMoved x).tun with state := next } }
      tunerAct c a = { e with
        tun := T, fe := (s.fe.abandon (abandonsOf (listens s.tun.state))).send cmd, sd := D' }) :
    let out := decide (s.tun.state = .listening ∨ s.tun.state = .verifying)
    ∃ t, exec i s = .next t
      ∧ WriteDone .tunerCmd v [.tunerCmd] (carryingMarks .tuner out false) (pathMarks out false s) s
          (afterCarrying
            { s with
              answers := { s.answers with tuner := .taken }
              tun := { T with weak := weakKept { s with tun := T, sd := D' } }
              fe := t.fe, meas := readingAbandoned s.meas, sd := D' } t) t
      ∧ SentOnLine (abandonsOf out) cmd s.fe t.fe
      ∧ CarryingChange .tuner out false s t
      ∧ StationNotice [] s (sourceNotice out false s.att) t := by
  intro out
  have hout : listens s.tun.state = out := listens_iff _
  set a := answerTuner .taken (arrived .tunerCmd v s) with hadef
  have hform := answered_eq v s
  rw [← hadef] at hform
  set x : State := { a with tun := X, sd := D } with hx
  set y : State := { plainMoved x with tun := { (plainMoved x).tun with state := next } } with hy
  set F := (s.fe.abandon (abandonsOf out)).send cmd with hF
  set u : State := { s with
    answers := { s.answers with tuner := .taken }
    tun := { T with weak := weakKept { s with tun := T, sd := D' } }
    fe := F, meas := readingAbandoned s.meas, sd := D' } with hu
  have hya : y = { s with
      mem := (arrived .tunerCmd v s).mem, lock := lockAfter s .tunerCmd s.lock
      agent := { s.agent with queue := queueAfter s .tunerCmd [.tunerCmd] }
      answers := { s.answers with tuner := .taken }, tun := y.tun, fe := y.fe, meas := readingAbandoned s.meas
      sd := y.sd } := by
    rw [hy, hx, hform]
    rfl
  have hact' := hact a (by rw [hform]; exact h.free) (by rw [hform]; rfl) (by rw [hform]; rfl) (by rw [hform]; rfl)
  dsimp only at hact'
  rw [hout, ← hx, ← hy, ← hF] at hact'
  obtain ⟨t, ht, hdone, hchange, hnotice⟩ := tunerTaken i v c [.tunerCmd] out false s y u T h hm hi hc ha (by rw [hya])
    (by
      rw [hact']
      have hrest := eventOf_rest .tuner out false y
      generalize eventOf .tuner out false y = e at hrest ⊢
      conv_lhs => rw [hrest, hya]
      rfl)
    rfl
  have hfe : t.fe = F := by rw [hdone.rest]; rfl
  rw [hu, ← hfe] at hdone
  exact ⟨t, ht, hdone, hfe ▸ sent_of_abandon _ _ _, hchange, hnotice⟩

/-- Settles O29: a plain tune of the target, from the abandoned operation. -/
theorem tuneStartsAPlainTune : Obligations.TuneStartsAPlainTune := by
  unfold Obligations.TuneStartsAPlainTune
  intro s h hm out
  have hout : listens s.tun.state = out := listens_iff _
  set X : Tuner := { s.tun with transfer := storeOnly s.tun.transfer, expected := none, backoff := false } with hX
  have hop := tunerOperation (.tune .full) 0x0001#16 .tune .tuning (.tune s.tun.band s.tun.region s.tun.code .plain) s X
    { X with
      state := .tuning, settleTimer := false, verifyTimer := false, readingTimer := s.tun.readingTimer && !out
      queryTimer := s.tun.queryTimer && !out, reason := .hostTune }
    s.sd.clearContent (bitsStopped (takingBits s.tun) s.sd.clearContent) h hm rfl rfl rfl
    fun a hfree htun hsd hfe => by
      have hsame : ({ plainMoved { a with tun := X, sd := s.sd.clearContent } with
          tun := { (plainMoved { a with tun := X, sd := s.sd.clearContent }).tun with state := .tuning } } : State)
          = plainMoved { a with tun := X, sd := s.sd.clearContent } := rfl
      dsimp only
      rw [hsame]
      show tuneCommand a = _
      rw [tuneCommand_eq a hfree, htun, hsd, plainTune_eq]
      have hrest := eventOf_rest .tuner (listens s.tun.state) false (plainMoved { a with tun := X, sd := s.sd.clearContent })
      rw [← hout, ← hfe]
      dsimp only
      generalize eventOf .tuner (listens s.tun.state) false (plainMoved { a with tun := X, sd := s.sd.clearContent }) = e
        at hrest ⊢
      rw [hrest]
      rfl
  rw [weakKept_cleared] at hop
  · exact hop
  · rfl
  · show (bitsStopped (takingBits s.tun) s.sd.clearContent).confirmed.code = none
    cases takingBits s.tun <;> rfl

/-- The tuner's move out of an abandoned operation. -/
theorem tunerGoto_abandoned (next : TunerState) (s : State) (h : listens next = false) :
    tunerGoto next (abandonTuning s) = eventOf .tuner (listens s.tun.state) false
      { plainMoved s with tun := { (plainMoved s).tun with state := next } } := by
  rw [tunerGoto_eq, tunerMoved_abandoned next s h, h, abandonTuning_eq]

/-- OFF (R171). -/
theorem offCommand_eq (s : State) (h : s.agent.port = .free) :
    let x : State := { s with
      tun := { s.tun with
        transfer := storeOnly s.tun.transfer, expected := none, backoff := false, readingTimer := false
        queryTimer := false } }
    let e := eventOf .tuner (listens s.tun.state) false { plainMoved x with tun := { (plainMoved x).tun with state := .off } }
    offCommand s = { e with fe := e.fe.send .standby, sd := e.sd.clearContent } := by
  intro x e
  have hgoto : tunerGoto .off (abandonTuning x) = e := tunerGoto_abandoned .off x rfl
  rw [← hgoto, abandonTuning_eq]
  unfold offCommand
  rw [abandonOperation_eq s h, abandonTuning_eq]
  rfl

/-- Settles O32: the abandoned operation's move to OFF, with STANDBY on the line. -/
theorem tunerOffSendsStandby : Obligations.TunerOffSendsStandby := by
  unfold Obligations.TunerOffSendsStandby
  intro s h hm out
  set X : Tuner := { s.tun with
    transfer := storeOnly s.tun.transfer, expected := none, backoff := false, readingTimer := false, queryTimer := false }
  have hop := tunerOperation (.tunerOff .full) 0x0005#16 .off .off .standby s X
    { X with state := .off, settleTimer := false, verifyTimer := false } s.sd
    (bitsStopped (takingBits s.tun) s.sd.clearContent) h hm rfl rfl rfl
    fun a hfree htun hsd hfe => by
      dsimp only
      show offCommand a = _
      rw [offCommand_eq a hfree, htun, hsd]
      dsimp only
      rw [← bitsStopped_clearContent, ← hfe]
      have hrest := eventOf_rest .tuner (listens s.tun.state) false { plainMoved { a with tun := X } with
        tun := { (plainMoved { a with tun := X }).tun with state := .off } }
      have hown : ({ a with tun := X, sd := s.sd } : State) = { a with tun := X } := by rw [← hsd]
      rw [hown]
      generalize eventOf .tuner (listens s.tun.state) false { plainMoved { a with tun := X } with
        tun := { (plainMoved { a with tun := X }).tun with state := .off } } = e at hrest ⊢
      rw [hrest, ← hsd]
      rfl
  rw [weakKept_cleared] at hop
  · exact hop
  · rfl
  · show (bitsStopped (takingBits s.tun) s.sd.clearContent).confirmed.code = none
    cases takingBits s.tun <;> rfl

/-! ### A seek (R167) -/

theorem stepCode_eq (top : Nat) (up : Bool) (code : Nat) :
    stepCode top up code
      = if up = true then (if code < top then code + 1 else 0) else if code = 0 then top else code - 1 := rfl

/-- A step of one code never leads back to where it started. -/
theorem stepCode_ne (r : Region) (b : Band) (up : Bool) (code : Nat) : stepCode (topCode r b) up code ≠ code := by
  have htop : 0 < topCode r b := by cases r <;> cases b <;> decide
  rw [stepCode_eq]
  (repeat' split) <;> omega

/-- A seek that has just taken its start sends its first step's TUNE. -/
theorem seekNext_started (k : Seek) (s : State) (h : s.tun.seek = { k with start := k.step }) :
    let next := stepCode (topCode k.region k.band) k.up k.step
    seekNext s = { s with
      tun := { s.tun with seek := { k with start := k.step, step := next }, phase := .exchange }
      fe := s.fe.send (.tune k.band k.region next .seekStep) } := by
  intro next
  unfold seekNext
  simp only [h]
  rw [if_neg (stepCode_ne k.region k.band k.up k.step)]
  rfl

/-- Out of a state in which the tuner does not carry, an operation that keeps that state. -/
theorem abandonTuning_still (s : State) (h : listens s.tun.state = false) : abandonTuning s
    = { plainMoved s with tun := { (plainMoved s).tun with state := s.tun.state } } := by
  rw [abandonTuning_eq]
  have htake : takingBits s.tun = false := by
    show (listens s.tun.state && _) = false
    rw [h]
    rfl
  have hall : abandonsOf false = FeCommand.isTune := by
    rw [abandonsOf_eq]
    simp
  unfold plainMoved
  simp only [h, htake, hall, Bool.not_false, Bool.and_true]
  rfl

/-- SEEK_UP and SEEK_DOWN (R167): the seek's start and step, from the abandoned operation. -/
theorem seekCommand_eq (up : Bool) (s : State) (h : s.agent.port = .free) :
    let k : Seek := if s.tun.state = .seeking then { s.tun.seek with up := up }
      else ⟨s.tun.band, s.tun.region, s.tun.code, s.tun.code, up⟩
    let next := stepCode (topCode k.region k.band) up k.step
    let x : State := { s with
      tun := { s.tun with
        transfer := storeOnly s.tun.transfer, seek := { k with start := k.step }
        expected := if s.tun.state = .seeking then s.tun.expected else none
        backoff := if s.tun.state = .seeking then s.tun.backoff else false } }
    let e := eventOf .tuner (listens s.tun.state) false
      { plainMoved x with tun := { (plainMoved x).tun with state := .seeking } }
    seekCommand up s = { e with
      tun := { e.tun with seek := { k with start := k.step, step := next }, phase := .exchange }
      fe := e.fe.send (.tune k.band k.region next .seekStep) } := by
  intro k next x e
  have hup : k.up = up := by
    simp only [k]
    split <;> rfl
  refine Eq.trans ?_ ((seekNext_started k e ?_).trans (by dsimp only; rw [hup]))
  rotate_left
  · rw [show e = afterCarrying _ e from eventOf_rest _ _ _ _]
    rfl
  unfold seekCommand
  rw [abandonOperation_eq s h]
  by_cases hs : s.tun.state = .seeking
  · have hstill : listens s.tun.state = false := by rw [hs]; rfl
    have he : e = abandonTuning x := by
      rw [abandonTuning_still x hstill]
      simp only [e, hstill, eventOf, if_true]
      rw [show x.tun.state = .seeking from hs]
    rw [if_pos hs, he]
    simp only [k, x, if_pos hs, abandonTuning_eq]
    rfl
  · have he : e = tunerGoto .seeking (abandonTuning x) := (tunerGoto_abandoned .seeking x rfl).symm
    rw [if_neg hs, he]
    refine congrArg (fun y => seekNext (tunerGoto .seeking y)) ?_
    simp only [k, x, if_neg hs, abandonTuning_eq]
    rfl

/-- Settles O30: a seek's next step, from the abandoned operation. -/
theorem seekCommandsStepTheCode : Obligations.SeekCommandsStepTheCode := by
  unfold Obligations.SeekCommandsStepTheCode
  intro i up v s h hm hi out k top next
  have hnext : next = stepCode (topCode k.region k.band) up k.step := rfl
  obtain ⟨hrow, hcmd⟩ : writeRow i = some (.tunerCmd, .full, v) ∧ tunerCommandOf v = some (.seek up) := by
    simp only [List.mem_cons, Prod.mk.injEq, List.not_mem_nil, or_false] at hi
    rcases hi with ⟨rfl, rfl, rfl⟩ | ⟨rfl, rfl, rfl⟩ <;> exact ⟨rfl, rfl⟩
  have hk : (if s.tun.state = .seeking then { s.tun.seek with up := up }
      else ⟨s.tun.band, s.tun.region, s.tun.code, s.tun.code, up⟩ : Seek) = { k with up := up } := by
    simp only [k]
    split <;> rfl
  clear_value next
  set X : Tuner := { s.tun with
    transfer := storeOnly s.tun.transfer, seek := { k with up := up, start := k.step }
    expected := if s.tun.state = .seeking then s.tun.expected else none
    backoff := if s.tun.state = .seeking then s.tun.backoff else false }
  obtain ⟨t, ht, hdone, hsent, hchange, hnotice⟩ := tunerOperation i v (.seek up) .seeking
    (.tune k.band k.region next .seekStep) s X
    { X with
      state := .seeking, phase := .exchange, seek := { k with up := up, start := k.step, step := next }
      settleTimer := false, verifyTimer := false, readingTimer := s.tun.readingTimer && !out
      queryTimer := s.tun.queryTimer && !out }
    s.sd (bitsStopped (takingBits s.tun) s.sd) h hm hrow hcmd rfl
    fun a hfree htun hsd hfe => by
      have hout : listens s.tun.state = out := listens_iff _
      have heq := seekCommand_eq up a hfree
      dsimp only at heq ⊢
      rw [htun, hk] at heq
      show seekCommand up a = _
      rw [heq, ← hout, ← hnext]
      have hown : ({ a with tun := X, sd := s.sd } : State) = { a with tun := X } := by rw [← hsd]
      rw [hown]
      have hrest := eventOf_rest .tuner (listens s.tun.state) false { plainMoved { a with tun := X } with
        tun := { (plainMoved { a with tun := X }).tun with state := .seeking } }
      generalize eventOf .tuner (listens s.tun.state) false { plainMoved { a with tun := X } with
        tun := { (plainMoved { a with tun := X }).tun with state := .seeking } } = e at hrest ⊢
      rw [hrest, ← hsd, ← hfe]
      rfl
  have hactive : afActive t = afActive { s with
      tun := { X with
        state := .seeking, phase := .exchange, seek := { k with up := up, start := k.step, step := next }
        settleTimer := false, verifyTimer := false, readingTimer := s.tun.readingTimer && !out
        queryTimer := s.tun.queryTimer && !out }
      sd := bitsStopped (takingBits s.tun) s.sd } := by
    rw [hdone.rest]
    rfl
  refine ⟨t, ht, ?_, hsent, hchange, hnotice⟩
  rw [hactive]
  exact hdone

end Sys2Proof.Machine

end

/-! STOP (R168): the commands of the tuner that change no carrying status. -/

section

set_option autoImplicit false

namespace Sys2Proof.Machine

/-- Marks between two empty bounds. -/
theorem marksExactly_of_between {s t : State} (h : MarksBetween [] [] s t) : MarksExactly [] s t := fun r =>
  ⟨fun hr => (h.most r hr).imp_right (.imp_right fun k => k.resolve_left (by simp)), fun hr => h.least r hr⟩

/-- A taken command of the tuner that changes no carrying status. -/
theorem tunerTaken_still (i : Instr) (v : Word) (c : TunerCommand) (reqs : List Slot) (s u : State)
    (T : Tuner) (h : PortOpen s) (hm : MemoryCanonical s) (hi : writeRow i = some (.tunerCmd, .full, v))
    (hc : tunerCommandOf v = some c) (ha : tunerAnswer (arrived .tunerCmd v s) c = .taken)
    (hact : tunerAct c (answerTuner .taken (arrived .tunerCmd v s)) = { u with
      mem := (arrived .tunerCmd v s).mem, lock := lockAfter s .tunerCmd s.lock, tun := T
      agent := { s.agent with queue := queueAfter s .tunerCmd reqs } })
    (hu : u = { s with
      answers := { s.answers with tuner := .taken }, tun := { T with weak := weakKept { u with tun := T } }
      fe := u.fe, meas := u.meas, sd := u.sd }) :
    ∃ t, exec i s = .next t ∧ WriteTaken .tunerCmd v reqs [] s { u with att := t.att } t
      ∧ StationNotice [] s s.att t := by
  set y := tunerAct c (answerTuner .taken (arrived .tunerCmd v s)) with hy
  have hpath : u.view = s.view ∧ u.att = s.att ∧ u.dirty = s.dirty ∧ SamePaths s u := by
    rw [hu]
    exact ⟨rfl, rfl, rfl, rfl, rfl, rfl, rfl, rfl, rfl⟩
  have hform : y = { s with
      mem := (arrived .tunerCmd v s).mem, lock := lockAfter s .tunerCmd s.lock, tun := T
      agent := { s.agent with queue := queueAfter s .tunerCmd reqs }, answers := { s.answers with tuner := .taken }
      fe := u.fe, meas := u.meas, sd := u.sd } := by
    rw [hact]
    apply State.ext_fields
    all_goals first | rfl | (rw [hu])
  obtain ⟨t, ht, hdone, hchange, hnotice⟩ := tunerTaken i v c reqs false false s y u T h hm hi hc ha
    (by rw [hform])
    (by
      show y = _
      rw [show eventOf .tuner false false y = y from rfl, hact]
      rfl)
    hu
  obtain ⟨hview, hsame⟩ := hchange.same rfl
  refine ⟨t, ht, ⟨?_, marksExactly_of_between hdone.marks, hdone.word, hdone.bytes⟩, hnotice⟩
  have hrest := hdone.rest
  have hu' : afterCarrying u t = { u with att := t.att, dirty := t.dirty } := by
    obtain ⟨h1, h2, h3, h4⟩ := hpath
    unfold afterCarrying
    rw [hview, hsame.zones, hsame.gain, hsame.mods, hsame.dec, hsame.bass, hsame.pool, ← h1, ← h4.zones, ← h4.gain,
      ← h4.mods, ← h4.dec, ← h4.bass, ← h4.pool]
  rw [hu'] at hrest
  exact hrest

/-- A move between states in which the tuner does not carry. -/
theorem tunerGoto_still (next : TunerState) (s : State) (h : listens s.tun.state = false) (hn : listens next = false) :
    tunerGoto next s = { s with tun := { s.tun with state := next } } := by
  have htake : takingBits s.tun = false := by
    show (listens s.tun.state && _) = false
    rw [h]
    rfl
  rw [tunerGoto_eq, h, hn]
  show tunerMoved next s = _
  unfold tunerMoved
  simp only [h, hn, htake, Bool.false_and, Bool.not_false, Bool.and_true]
  rfl

/-- Without an AF list AF follow is not active, and the weak count is 0 (R173). -/
theorem weakKept_noAf (s : State) (h : s.sd.af = []) : weakKept s = 0 := by
  have : afActive s = false := by simp [afActive, h]
  rw [weakKept, this]
  rfl

theorem weakKept_backoff (s : State) (h : s.tun.backoff = true) : weakKept s = 0 := by
  have : afActive s = false := by simp [afActive, h]
  rw [weakKept, this]
  rfl

/-- The tuner's own change of the target code before a content clear (R162, R168). -/
theorem ownCode_cleared (code : Nat) (s : State) :
    updSd Station.clearContent (ownCode code s) = { s with
      tun := { s.tun with code := code }, sd := s.sd.clearContent
      agent := { s.agent with queue := queueWith s.agent.queue (if code = s.tun.code then [] else [.code]) } } := by
  unfold ownCode
  split
  · rename_i h
    subst h
    rfl
  · rw [requestWriteBack_eq, changeCode_eq]
    simp [updSd, queueWith, Station.clearContent]

/-- A step's TUNE goes on as a plain one (R168). -/
theorem stepToPlain_eq (f : FrontEnd) : f.stepToPlain = { f with
    outstanding := f.outstanding.map fun o =>
      match o.cmd with
      | .tune b r c .seekStep => if o.abandoned = true then o else { o with cmd := .tune b r c .plain }
      | _ => o
    pending := f.pending.map fun c =>
      match c with
      | .tune b r c .seekStep => .tune b r c .plain
      | c => c } := by
  have ho : ∀ o : Outstanding, (if o.abandoned = true then o else { o with cmd := o.cmd.toPlain })
      = match o.cmd with
        | .tune b r c .seekStep => if o.abandoned = true then o else { o with cmd := .tune b r c .plain }
        | _ => o := by
    rintro ⟨c, a, d⟩
    cases c with
    | tune b r k p => cases p <;> dsimp only <;> split <;> rfl
    | query | standby => exact ite_self _
  have hp : ∀ c : FeCommand, c.toPlain = match c with | .tune b r k .seekStep => .tune b r k .plain | c => c := by
    intro c
    cases c with
    | tune b r k p => cases p <;> rfl
    | query | standby => rfl
  have heta : f.stepToPlain = { f with
      outstanding := f.outstanding.map fun o => if o.abandoned = true then o else { o with cmd := o.cmd.toPlain }
      pending := f.pending.map FeCommand.toPlain } := rfl
  rw [heta, funext ho, funext hp]

/-- STOP in a seek's exchange (R168). -/
theorem stopSeek_exchange (s : State) (hst : s.tun.state = .seeking) (hph : s.tun.phase = .exchange) :
    stopSeek s = { s with
      tun := { s.tun with code := s.tun.seek.step, reason := .seekStopped, state := .tuning }
      fe := s.fe.stepToPlain, sd := s.sd.clearContent
      agent := { s.agent with
        queue := queueWith s.agent.queue (if s.tun.seek.step = s.tun.code then [] else [.code]) } } := by
  unfold stopSeek
  rw [ownCode_cleared, hph]
  dsimp only
  rw [tunerGoto_still]
  · rfl
  · show listens s.tun.state = false
    rw [hst]
    rfl
  · rfl

/-- STOP while a seek's step settles or is read (R168). -/
theorem stopSeek_later (s : State) (hst : s.tun.state = .seeking) (hph : s.tun.phase ≠ .exchange) :
    stopSeek s = { s with
      tun := { s.tun with code := s.tun.seek.step, reason := .seekStopped, state := .settling, settleTimer := true }
      sd := s.sd.clearContent, meas := readingAbandoned s.meas
      agent := { s.agent with
        queue := queueWith s.agent.queue (if s.tun.seek.step = s.tun.code then [] else [.code]) } } := by
  have hgoto : ∀ y : State, y.tun.state = .seeking →
      tunerGoto .settling y = { y with tun := { y.tun with state := .settling } } := fun y hy =>
    tunerGoto_still .settling y (by rw [hy]; rfl) rfl
  unfold stopSeek
  rw [ownCode_cleared]
  cases hp : s.tun.phase with
  | exchange => exact absurd hp hph
  | settling | firstReading | secondReading k =>
    dsimp only
    rw [abandonRssi_eq, hgoto]
    · rfl
    · exact hst

/-- A probe that ends without a switch, while the tuner does not carry (R174). -/
theorem probeNoSwitch_eq (s : State) (h : listens s.tun.state = false) :
    probeNoSwitch s = { s with
      tun := { s.tun with
        state := .tuning, backoff := true, reason := .noSwitch, settleTimer := false, verifyTimer := false }
      fe := (s.fe.abandon (abandonsOf false)).send (.tune s.tun.probe.band s.tun.region s.tun.probe.original .plain)
      meas := readingAbandoned s.meas } := by
  unfold probeNoSwitch
  rw [plainTune_eq]
  have htake : takingBits s.tun = false := by
    show (listens s.tun.state && _) = false
    rw [h]
    rfl
  have hl : listens (updTun (fun t => { t with backoff := true }) s).tun.state = false := h
  have ht : takingBits (updTun (fun t => { t with backoff := true }) s).tun = false := htake
  simp only [hl, eventOf, if_true, plainMoved, ht, Bool.not_false, Bool.and_true]
  rfl

/-- Where the decoder stays, no cause is new. -/
theorem stationNotice_unchanged {s t : State} {base : Attention} (h : StationNotice [] s base t) (hsd : t.sd = s.sd) :
    t.att = base := by
  have hp := h.same fun r hr => ⟨by simp, by
    cases r <;> simp_all [recWords, summaryWords, nameWords, textWords, afWords, Rec.isStation]⟩
  rw [h.rest, hp]

/-- Settles O31, by what the tuner was doing. -/
theorem stopEndsSeekOrProbe : Obligations.StopEndsSeekOrProbe := by
  unfold Obligations.StopEndsSeekOrProbe
  intro s h hm ok code reqs found
  have hform := answered_eq 0x0004#16 s
  set a := answerTuner .taken (arrived .tunerCmd 0x0004#16 s) with ha
  have hatun : a.tun = s.tun := by rw [hform]; rfl
  have hstop : tunerAct .stop a = stopCommand a := rfl
  have hqueue : queueWith a.agent.queue (if code = s.tun.code then [] else [.code]) = queueAfter s .tunerCmd reqs := by
    rw [hform]
    simp only [reqs]
    split <;> simp [queueAfter, queueWith]
  refine ⟨fun hst => ?_, fun hst hph => ?_, fun hst hph => ?_, fun hst => ?_⟩
  · have hact : tunerAct .stop a = a := by
      rw [hstop, stopCommand, hatun]
      cases hs : s.tun.state <;> simp_all
    obtain ⟨t, ht, htaken, hnotice⟩ := tunerTaken_still (.tunerStop .full) 0x0004#16 .stop [.tunerCmd] s
      { s with answers := ok, tun := { s.tun with weak := weakKept s } } s.tun h hm rfl rfl rfl
      (by rw [← ha, hact, hform]; rfl) rfl
    have hatt : t.att = s.att := stationNotice_unchanged hnotice (by rw [htaken.rest])
    rw [hatt] at htaken
    exact ⟨t, ht, htaken⟩
  · have hact : tunerAct .stop a = stopSeek a := by
      rw [hstop, stopCommand, hatun, hst]
    rw [stopSeek_exchange a (hatun ▸ hst) (hatun ▸ hph), hatun] at hact
    have hdone := tunerTaken_still (.tunerStop .full) 0x0004#16 .stop reqs s
      { s with
        answers := ok, tun := { found with state := .tuning }, sd := s.sd.clearContent, fe := s.fe.stepToPlain }
      { found with state := .tuning, weak := s.tun.weak } h hm rfl rfl rfl
      (by rw [← ha, hact, hqueue, hform]; rfl) (by rw [weakKept_noAf _ rfl])
    rw [stepToPlain_eq] at hdone
    exact hdone
  · have hact : tunerAct .stop a = stopSeek a := by
      rw [hstop, stopCommand, hatun, hst]
    rw [stopSeek_later a (hatun ▸ hst) (hatun ▸ hph), hatun] at hact
    exact tunerTaken_still (.tunerStop .full) 0x0004#16 .stop reqs s
      { s with
        answers := ok, tun := { found with state := .settling, settleTimer := true }, sd := s.sd.clearContent
        meas := readingAbandoned s.meas }
      { found with state := .settling, settleTimer := true, weak := s.tun.weak } h hm rfl rfl rfl
      (by rw [← ha, hact, hqueue, hform]; rfl) (by rw [weakKept_noAf _ rfl])
  · have hact : tunerAct .stop a = probeNoSwitch a := by
      rw [hstop, stopCommand, hatun, hst]
    rw [probeNoSwitch_eq a (by rw [hatun, hst]; rfl), hatun] at hact
    have hafe : a.fe = s.fe := by rw [hform]; rfl
    rw [hafe] at hact
    set F := (s.fe.abandon (abandonsOf false)).send (.tune s.tun.probe.band s.tun.region s.tun.probe.original .plain)
    obtain ⟨t, ht, htaken, hnotice⟩ := tunerTaken_still (.tunerStop .full) 0x0004#16 .stop [.tunerCmd] s
      { s with
        answers := ok, fe := F, meas := readingAbandoned s.meas
        tun := { s.tun with
          state := .tuning, backoff := true, reason := .noSwitch, weak := 0, settleTimer := false,
          verifyTimer := false } }
      { s.tun with state := .tuning, backoff := true, reason := .noSwitch, settleTimer := false, verifyTimer := false }
      h hm rfl rfl rfl (by rw [← ha, hact, hform]; rfl) (by rw [weakKept_backoff _ rfl])
    have hatt : t.att = s.att := stationNotice_unchanged hnotice (by rw [htaken.rest])
    have hfe : t.fe = F := by rw [htaken.rest]
    rw [hatt, ← hfe] at htaken
    exact ⟨t, ht, htaken, hfe ▸ sent_of_abandon _ _ _⟩

end Sys2Proof.Machine

end

/-! RESTART_AUDIO (R22, R35, R43, R64, R78, R88, R103, R108, R121). -/

section

set_option autoImplicit false

namespace Sys2Proof.Machine

/-- After the restart every channel stands at -320, so that a module ON under an order has wound down (R93, R108). -/
theorem restart_windDowns (s : State) (m : AmpModule) :
    (windDownReports (restartAudioBlocks s)).mods.get m
      = if (s.mods.get m).order = true ∧ (s.mods.get m).state = .on then
          { s.mods.get m with state := .stopping, order := false }
        else s.mods.get m := by
  have hfloor : ∀ ch, ((windDownReports (restartAudioBlocks s)).gain.chans.get ch).applied = gainFloor := fun ch => by
    rw [windDownReports_gain]
    simp [restartAudioBlocks, Gain.restart]
    rfl
  obtain ⟨hdue, hno⟩ := windDownReports_spec (restartAudioBlocks s) m
  by_cases h : (s.mods.get m).order = true ∧ (s.mods.get m).state = .on
  · rw [if_pos h]
    exact hdue ⟨h.1, h.2, fun ch _ => hfloor ch⟩
  · rw [if_neg h]
    exact hno fun hd => h ⟨hd.1, hd.2.1⟩

/-- Settles O25, block by block. -/
theorem restartAudioRestartsTheBlocks : Obligations.RestartAudioRestartsTheBlocks := by
  unfold Obligations.RestartAudioRestartsTheBlocks
  intro s h hm
  set x := arrived .systemCmd 0x0001#16 s with hx
  set b := restartAudioBlocks x with hb
  set always := [Rec.stream .ms1, .stream .ms2].filter fun r => recWords s r ≠ recWords State.reset r with halways
  have hchanged : changedStreams x b = always := by
    unfold changedStreams
    rw [halways]
    refine List.filter_congr fun r hr => ?_
    have hsame : recWords x r = recWords s r ∧ recWords b r = recWords State.reset r := by
      simp only [List.mem_cons, List.not_mem_nil, or_false] at hr
      rcases hr with rfl | rfl <;> exact ⟨rfl, rfl⟩
    rw [hsame.1, hsame.2]
    simp [bne, beq_eq_decide]
  set y := arrive .systemCmd 0x0001#16 x with hy
  set u : State := { s with
    answers := { s.answers with system := .taken }
    agent := { s.agent with restore := some ⟨.audio, 0⟩ }
    meterTimer := false, sa := b.sa, ms := b.ms, zones := b.zones, view := b.view, dec := State.reset.dec
    bass := { s.bass with active := s.bass.staged, filters := State.reset.bass.filters }
    gain := b.gain, pool := b.pool, mods := (windDownReports b).mods } with hu
  have hcmd : y = answerSystem .taken { windDownReports (markAll (changedStreams x b) b) with
      agent := { (windDownReports (markAll (changedStreams x b) b)).agent with restore := some ⟨.audio, 0⟩ } } := by
    have hfree : ∀ m, discardFetch m x = x := fun m => discardFetch_free m x h.free
    show restartAudioCommand x = _
    unfold restartAudioCommand
    rw [hfree, hfree]
  rw [answerSystem, requestWriteBack_eq, windDownReports_eq, markAll_eq] at hcmd
  have hform : y = { u with
      mem := x.mem, lock := lockAfter s .systemCmd u.lock, dirty := y.dirty, att := y.att
      agent := { u.agent with queue := queueAfter s .systemCmd [.systemCmd] } } := by
    rw [queueAfter_one]
    conv_lhs => rw [hcmd]
    rw [hcmd, hu, windDownReports_eq]
    rfl
  have hmarks : SetsMarks always s y := by
    refine .marks _ _ _ fun r => ?_
    have hd : y.dirty = (markAll (changedStreams x b) b).dirty := by
      rw [hcmd, markAll_eq]
    rw [hd, mem_markAll_dirty, hchanged]
    exact or_comm
  have hysd : y.sd = s.sd := by rw [hform]
  have hyatt : y.att = s.att := by
    rw [hcmd]
    rfl
  obtain ⟨t, ht, htaken⟩ : ∃ t, slotRow .systemCmd .full 0x0001#16 s = .next t
      ∧ WriteTaken .systemCmd 0x0001#16 [.systemCmd] always s u t := ⟨_, writeTaken_port .systemCmd .full 0x0001#16 0x0001#16 [.systemCmd] always s u h hm
    (judgeSlot_command s _ _ rfl) x y rfl hy hform h.free (by rw [publish_att _ _ hysd, hyatt]) hmarks
    (fun k => by rwa [hyatt])⟩
  refine ⟨t, (exec_writeRow _ _ _ _ s rfl).trans ht, ?_, fun l => ?_, fun m => ?_, fun z => ?_, fun src => ?_,
    fun ch => ?_, fun src => ?_, fun z => ?_, ?_, fun m => ?_⟩
  · have hsa : t.sa = b.sa := by rw [htaken.rest]
    have hms : t.ms = b.ms := by rw [htaken.rest]
    have hzones : t.zones = b.zones := by rw [htaken.rest]
    have hview : t.view = b.view := by rw [htaken.rest]
    have hgain : t.gain = b.gain := by rw [htaken.rest]
    have hpool : t.pool = b.pool := by rw [htaken.rest]
    have hmods : t.mods = (windDownReports b).mods := by rw [htaken.rest]
    rw [hsa, hms, hzones, hview, hgain, hpool, hmods]
    exact htaken
  all_goals rw [htaken.rest]
  · simp [hu, hb, restartAudioBlocks, State.reset, hx, arrived, SaState.restart]
  · cases m <;> rfl
  · cases z <;> rfl
  · rcases src with (_ | _ | _ | _) | (_ | _) | _ <;> rfl
  · refine ⟨?_, ?_⟩
    · simp [hu, hb, restartAudioBlocks, State.reset, hx, arrived, Gain.restart, Gain.reset]
    · simp [hu, hb, restartAudioBlocks, Gain.restart]
  · simp [hu, hb, restartAudioBlocks, Gain.restart]
  · simp [hu, hb, restartAudioBlocks, Gain.restart, hx, arrived, ZoneGain.restart]
  · rfl
  · exact restart_windDowns x m

end Sys2Proof.Machine

end

/-! The steering window's end, the frames that the paths take and make, and one audio frame (R25, R34, R44, R49, R66 to
R76, R84 to R87, R97, R98, R111, R123). -/

section

set_option autoImplicit false

namespace Sys2Proof.Machine

/-! ### The steering window (R72 to R76) -/

theorem zoneSet_eight (s : State) (z : Zone) : zoneSet s z = .eight ↔
    (∃ l, (s.zones.get z).connected = some (.sa l) ∧ (s.sa.get l).format = .tdm8)
      ∨ ∃ m, (s.zones.get z).connected = some (.ms m) ∧ (s.ms.get m).channels = 8 := by
  unfold zoneSet
  rcases hc : (s.zones.get z).connected with _ | (l | m | _)
  · simp
  · cases hf : (s.sa.get l).format <;> simp [sourceSet, hf]
  · by_cases hm : (s.ms.get m).channels = 8 <;> simp [sourceSet, hm]
  · simp [sourceSet]

/-- Settles O43, by the parts of `Decoder.windowEnd`. -/
theorem steeringWindowStagesTerms : Obligations.SteeringWindowStagesTerms := by
  unfold Obligations.SteeringWindowStagesTerms
  refine ⟨zoneSet_eight, fun s h => ?_⟩
  intro d k moved env lr cs f b ld rd low staged
  refine ⟨fun hstop => act_same h (if_neg (by simp [hstop])), fun hruns => ?_⟩
  have hk : (2 : Int) ^ speedShift d.speed = k := by
    simp only [k]
    cases d.speed <;> rfl
  have henv : envelopesStep (speedShift d.speed) d.env d.sums = env := by
    simp only [envelopesStep, envelopeStep, hk, env, moved]
  have hterms : termSet d.active (zoneSet s .z1) env = staged := by
    simp only [staged]
    cases d.active <;> cases zoneSet s .z1 <;> rfl
  have hend : d.windowEnd (zoneSet s .z1)
      = { d with env := env, activeTerms := d.stagedTerms, stagedTerms := staged, sums := .zero, frames := 0 } := by
    rw [← hterms, ← henv]
    rfl
  have hstep : steerWindow s = { s with dec := d.windowEnd (zoneSet s .z1) } := if_pos hruns
  rw [hend] at hstep
  exact ownStep_of_eq steerWindow [] s _ _ h hstep rfl rfl rfl (.same _ _ rfl) id

/-! ### The buses (R66 to R71, R84 to R87) -/

theorem zeroFrame_zeros (set : ChannelSet) :
    zeroFrame set = SrcFrame.stereo 0 0 ∨ zeroFrame set = .eight 0 0 0 0 0 0 0 0 := by
  cases set
  · exact .inl rfl
  · exact .inr rfl

theorem isSmall_iff (c : SpeakerConfig) (ch : MainChan) : c.isSmall ch = true ↔ smallChan c ch := by
  cases ch <;> simp [SpeakerConfig.isSmall, smallChan]

/-- The fold of the absent channels (R84). -/
theorem foldBuses_get (c : SpeakerConfig) (x : PerMain Int) (ch : MainChan) :
    (foldBuses c x).get ch = foldedBus c x ch := by
  have hget : (foldBuses c x).get ch
      = if c.presence.get ch = true then (foldTop c (foldCenter c (foldSurround c (foldBack c x)))).get ch else 0 := by
    simp [foldBuses]
  rw [hget]
  by_cases hb : c.back = .absent <;> by_cases hs : c.surround = .absent <;> by_cases hc : c.center = .absent <;>
    by_cases ht : c.top = .absent <;>
    simp only [foldTop, foldCenter, foldSurround, foldBack, foldedBus, hb, hs, hc, ht, if_true, if_false] <;>
    cases ch <;> simp [SpeakerConfig.presence, PerMain.get, hb, hs, hc, ht] <;> rfl

theorem cascade_of (sec : FilterSection → Int → Int × FilterSection) (a b : FilterSection) (x : Int) :
    CascadeOf sec a b x (cascade sec a b x).1 (cascade sec a b x).2.1 (cascade sec a b x).2.2 := ⟨rfl, rfl, rfl⟩

/-- The split of a bus (R85). -/
theorem splitBus_of (code : Nat) (small : Bool) (fb : FilterBank) (x : Int) :
    SplitOf code (small = true) fb x (splitBus code small fb x).1 (splitBus code small fb x).2.1
      (splitBus code small fb x).2.2 := by
  refine ⟨fun h => ?_, fun h => ?_, fun h => ?_⟩
  · simp [splitBus, h]
  · simp only [splitBus, h, if_true]
    exact cascade_of _ _ _ _
  · simp only [splitBus, h, if_true]
    exact cascade_of _ _ _ _

/-- The high part of each channel, and its low part, in one frame (R85). -/
def highParts (b : Bass) (x : Buses) : PerMain Int :=
  .ofFn fun ch => (splitBus b.active.crossover (b.active.isSmall ch) (b.filters.get ch) (foldedBus b.active x.ch ch)).1

def lowParts (b : Bass) (x : Buses) : PerMain Int :=
  .ofFn fun ch => (splitBus b.active.crossover (b.active.isSmall ch) (b.filters.get ch) (foldedBus b.active x.ch ch)).2.1

theorem lowParts_sw (b : Bass) (x : Buses) : (lowParts b x).sw = 0 := rfl

/-- The sum of the low parts, which SW has none of (R86). -/
theorem sum_lowParts (lo : PerMain Int) (h : lo.sw = 0) :
    (mainChans.map fun ch => lo.get ch).sum
      = lo.fl + lo.fr + lo.c + lo.sl + lo.sr + lo.bl + lo.br + lo.tl + lo.tr := by
  simp only [mainChans, List.map_cons, List.map_nil, List.sum_cons, List.sum_nil, PerMain.get, h]
  omega

/-- What the bass manager makes of the buses (R84 to R87). -/
theorem process_managed (b : Bass) (x : Buses) :
    BassManaged b x (b.process x).1 (b.process x).2 (highParts b x) (lowParts b x) := by
  have hpart : ∀ ch, splitBus b.active.crossover (b.active.isSmall ch) (b.filters.get ch)
      ((foldBuses b.active x.ch).get ch)
      = splitBus b.active.crossover (b.active.isSmall ch) (b.filters.get ch) (foldedBus b.active x.ch ch) := fun ch => by
    rw [foldBuses_get]
  have hsum := sum_lowParts (lowParts b x) rfl
  have hproc : b.process x = (if b.active.subPresent then
        { highParts b x with
          sw := sat (sat ((mainChans.map fun ch => (lowParts b x).get ch).sum) + scaleLfe x.lfe) }
      else
        let q := sat (sat ((mainChans.map fun ch => (lowParts b x).get ch).sum) + x.lfe)
        { highParts b x with
          fl := sat ((highParts b x).fl + scaleK q), fr := sat ((highParts b x).fr + scaleK q), sw := 0 },
      .ofFn fun ch => (splitBus b.active.crossover (b.active.isSmall ch) (b.filters.get ch)
        (foldedBus b.active x.ch ch)).2.2) := by
    unfold Bass.process
    simp only [hpart]
    rfl
  rw [hproc, hsum]
  refine ⟨fun ch => ?_, fun h => ?_, fun h => ?_⟩
  · have hof := splitBus_of b.active.crossover (b.active.isSmall ch) (b.filters.get ch) (foldedBus b.active x.ch ch)
    have hsmall : (b.active.isSmall ch = true) = smallChan b.active ch := propext (isSmall_iff _ _)
    rw [hsmall] at hof
    simpa [highParts, lowParts] using hof
  · intro lim sum
    rw [if_pos h]
    exact ⟨rfl, fun ch hch => by cases ch <;> first | rfl | contradiction⟩
  · intro lim sum q add
    rw [if_neg (by simp [h])]
    exact ⟨rfl, rfl, rfl, fun ch h1 h2 h3 => by cases ch <;> first | rfl | contradiction⟩

/-- Settles O44, by what the connected source delivers, the decode modes and the bass manager. -/
theorem framesFormTheBuses : Obligations.FramesFormTheBuses := by
  unfold Obligations.FramesFormTheBuses
  refine ⟨fun s quiet taL taR z => ?_, fun l r => ⟨rfl, rfl, rfl, rfl⟩, fun b x => ⟨_, _, process_managed b x⟩,
    fun fl fr c lfe sl sr bl br => ⟨rfl, rfl, rfl, rfl⟩⟩
  intro r zeros mean
  have hset : ∀ src, r.connected = some src → sourceSet s src = zoneSet s z := fun src h => by
    unfold zoneSet
    rw [show (s.zones.get z).connected = some src from h]
  have hopen : ∀ src, r.gateOpen = true → r.connected = some src →
      zoneFrame s quiet taL taR z = delivered s quiet taL taR src := fun src hg hc => by
    unfold zoneFrame
    dsimp only
    rw [show (s.zones.get z).gateOpen = true from hg, show (s.zones.get z).connected = some src from hc]
  refine ⟨fun h => ?_, fun hg hc => ?_, fun l hg hc => ?_, fun m hg hc => ?_⟩
  · have hz : zoneFrame s quiet taL taR z = zeroFrame (zoneSet s z) := by
      unfold zoneFrame
      dsimp only
      split
      · rename_i src hgo hco
        rcases h with h | h
        · simp [r, hgo] at h
        · simp [r, hco] at h
      · rfl
    rw [hz]
    exact zeroFrame_zeros _
  · have hlist : s.tun.carries = true ↔ s.tun.state ∈ [TunerState.listening, .verifying] := by
      simp [Tuner.carries]
    rw [hopen _ hg hc]
    refine ⟨fun hst => ?_, fun hst => ?_⟩
    · exact if_neg (fun h => hst (hlist.mp h))
    · exact if_pos (hlist.mpr hst)
  · intro x off
    have hdel : delivered s quiet taL taR (.sa l)
        = if off then zeroFrame (sourceSet s (.sa l))
          else convertedFrame s.free (sourceIndex (.sa l)) (sourceSet s (.sa l)) := by
      by_cases hnow : (x.carries && !x.silent (decide (l ∈ quiet))) = true
      · have hoff : off ↔ x.conv.age < 48 := by
          simp only [off, SaState.carries, SaState.silent] at hnow ⊢
          grind
        have hconv : delivered s quiet taL taR (.sa l)
            = converterFrame s.free (sourceIndex (.sa l)) (sourceSet s (.sa l)) x.conv := if_pos hnow
        simp only [hconv, converterFrame, latencyFrames, hoff]
        congr
      · have hoff : off := by
          simp only [off, SaState.carries, SaState.silent] at hnow ⊢
          grind
        rw [if_pos hoff]
        exact if_neg hnow
    rw [hopen _ hg hc, hdel, hset _ hc]
    exact ⟨fun h => by rw [if_pos h]; exact zeroFrame_zeros _, fun h => if_neg h⟩
  · intro off
    have hdel : delivered s quiet taL taR (.ms m)
        = if off then zeroFrame (sourceSet s (.ms m))
          else convertedFrame s.free (sourceIndex (.ms m)) (sourceSet s (.ms m)) := by
      by_cases hrun : (s.ms.get m).state = .running
      · have hoff : off ↔ (s.ms.get m).conv.age < 48 := by simp [off, hrun]
        have hconv : delivered s quiet taL taR (.ms m)
            = converterFrame s.free (sourceIndex (.ms m)) (sourceSet s (.ms m)) (s.ms.get m).conv := if_pos hrun
        simp only [hconv, converterFrame, latencyFrames, hoff]
        congr
      · rw [if_pos (show off from .inl hrun)]
        exact if_neg hrun
    rw [hopen _ hg hc, hdel, hset _ hc]
    exact ⟨fun h => by rw [if_pos h]; exact zeroFrame_zeros _, fun h => if_neg h⟩

/-! ### One audio frame (R97, R111, R123) -/

theorem linkSlot_parts (x : Sample) : (linkSlot x).extractLsb' 8 24 = x ∧ (linkSlot x).extractLsb' 0 8 = 0 := by
  constructor <;> apply BitVec.eq_of_getLsbD_eq <;> intro i hi <;>
    simp only [linkSlot, BitVec.getLsbD_extractLsb', BitVec.getLsbD_append] <;> simp <;> omega

/-- What a frame changes, laid out field by field. -/
def framed (quiet : List SaLine) (taL taR : Sample) (s : State) : State :=
  let f := zoneFrame s quiet taL taR .z1
  let p := pathOutputs s f (zoneFrame s quiet taL taR .z2)
  let x := outputFrame p.1 s
  let c := tickConverters s
  { s with
    pool := { s.pool with lines := x.pool.lines }, gain := { s.gain with chans := x.gain.chans }
    links := x.links, bass := { s.bass with filters := p.2 }
    dec := if s.restartTimersRun then s.dec.takeFrame f else s.dec, sa := c.sa, ms := c.ms
    free := s.free + 1 }

theorem audioFrameStep_framed (quiet : List SaLine) (taL taR : Sample) (s : State) (hr : s.audioRuns = true) :
    audioFrameStep quiet taL taR s = framed quiet taL taR s := if_pos hr

theorem takeFrame_setting (d : Decoder) (f : SrcFrame) :
    (d.takeFrame f).active = d.active ∧ (d.takeFrame f).speed = d.speed := by
  unfold Decoder.takeFrame
  split <;> exact ⟨rfl, rfl⟩

theorem framed_decoder (quiet : List SaLine) (taL taR : Sample) (s : State) :
    (framed quiet taL taR s).dec.active = s.dec.active ∧ (framed quiet taL taR s).dec.speed = s.dec.speed := by
  simp only [framed]
  split
  · exact takeFrame_setting _ _
  · exact ⟨rfl, rfl⟩

theorem framed_line (quiet : List SaLine) (taL taR : Sample) (s : State) (l : SaLine) :
    (framed quiet taL taR s).sa.get l = let x := s.sa.get l
      if x.lock = .locked ∧ x.npcmTaken = false then { x with conv := { x.conv with age := x.conv.age + 1 } } else x := by
  simp only [framed, tickConverters, PerLine.get_ofFn, carries_iff]
  rfl

theorem framed_stream (quiet : List SaLine) (taL taR : Sample) (s : State) (m : StreamId) :
    (framed quiet taL taR s).ms.get m = let x := s.ms.get m
      if x.state = .running then { x with conv := { x.conv with age := x.conv.age + 1 } } else x := by
  simp only [framed, tickConverters, PerStream.get_ofFn]
  rfl

theorem framed_chan (quiet : List SaLine) (taL taR : Sample) (s : State) (ch : Chan) :
    (framed quiet taL taR s).gain.chans.get ch = (outputSample (s.gain.chans.get ch)
      (lineStep (s.pool.lines.get ch) ((pathOutputs s (zoneFrame s quiet taL taR .z1)
        (zoneFrame s quiet taL taR .z2)).1.get ch)).1.toInt).2 := by
  simp only [framed, outputFrame, PerChan.get_ofFn]

/-- No record shows what a frame changes. -/
theorem framed_recWords (quiet : List SaLine) (taL taR : Sample) (s : State) (r : Rec) (hr : r.isStream = false) :
    recWords s r = recWords (framed quiet taL taR s) r := by
  obtain ⟨hactive, hspeed⟩ := framed_decoder quiet taL taR s
  cases r with
  | zone z =>
    cases z
    · simp only [recWords, zoneWords, zoneDecodeWords, hactive, hspeed]
      rfl
    · rfl
  | source x =>
    cases x with
    | sa l =>
      simp only [recWords, sourceWords, framed_line]
      split <;> rfl
    | ms m =>
      simp only [recWords, sourceWords, framed_stream]
      split <;> rfl
    | tuner => rfl
  | meter ch =>
    simp only [recWords, meterWords, framed_chan]
    rfl
  | stream m => simp [Rec.isStream] at hr
  | _ => rfl

/-- Settles O45, by the fields of `framed`. -/
theorem audioFrameRunsThePaths : Obligations.AudioFrameRunsThePaths := by
  unfold Obligations.AudioFrameRunsThePaths
  refine ⟨rfl, rfl, rfl, fun ch m => ?_, fun ch => ?_, fun s ch => ⟨fun h => ?_, fun h hc => ?_⟩, fun s => ?_,
    fun quiet ta s h => ?_⟩
  · rcases ch with (_ | _ | _ | _ | _ | _ | _ | _ | _ | _) | _ | _ <;> cases m <;> decide
  · rcases ch with _ | _ | _ <;> simp [chanZone]
  · exact if_pos (by simpa [linksLow] using h)
  · rw [linkOut, if_neg (by simp [linksLow, h, hc])]
    exact linkSlot_parts _
  · simp [taClocksRun, State.audioRuns]
  intro taL taR f p mix entering pair q
  have hexec : exec (.audioFrame quiet ta) s = act (audioFrameStep quiet taL taR) s := rfl
  refine ⟨fun hstop => ?_, fun hruns => ⟨framed quiet taL taR s, ?_, rfl, fun ch => ?_, ?_, framed_line _ _ _ s,
    framed_stream _ _ _ s⟩⟩
  · exact act_same h (if_neg (by simp [hstop]))
  · rw [hexec, act_high _ s h, audioFrameStep_framed _ _ _ s hruns, publish_quiet _ _ (framed_recWords _ _ _ s)]
  · intro line g x y z
    have hin : (pathOutputs s f (zoneFrame s quiet taL taR .z2)).1.get ch = entering ch := by
      rcases ch with m | _ | _
      · simp [pathOutputs, entering, p, f, toSample]
      · rfl
      · rfl
    have hline : lineStep line (entering ch) = (x, (entering ch :: line).dropLast) := by
      simp only [x]
      cases line <;> rfl
    have hout : outputSample g x.toInt = (BitVec.ofInt 24 z,
        { g with peak := max g.peak z.natAbs, clip := g.clip || decide (y ≠ z) }) := by
      have hclip : (y != z) = decide (y ≠ z) := by rw [bne, beq_eq_decide, decide_not]
      rw [← hclip]
      rfl
    refine ⟨?_, ?_, ?_⟩
    · simp only [framed, outputFrame, PerChan.get_ofFn]
      rw [hin, hline]
    · simp only [framed, outputFrame, PerChan.get_ofFn]
      rw [hin, hline]
      exact congrArg Prod.fst hout
    · rw [framed_chan, hin, hline]
      exact congrArg Prod.snd hout
  · by_cases hrun : s.restartTimersRun = true <;> by_cases hfr : s.dec.frames < 48 <;>
      simp only [framed, Decoder.takeFrame, hrun, hfr, if_true, if_false, and_self, and_true, and_false,
        Bool.false_eq_true]
    rfl

end Sys2Proof.Machine

end

/-! The steps of the tuner that are the part's own (R163, R164, R172 to R175): how one marks and raises, the readings it
asks for, and its timers. -/

section

set_option autoImplicit false

namespace Sys2Proof.Machine

/-! ### A step of the tuner -/

/-- A step that may change station content. -/
theorem stationStep_of_eq (f : State → State) (s u y : State) (h : s.rstnLow = false) (hf : f s = y)
    (hy : y = { u with dirty := y.dirty }) (hd : SetsMarks [] s y)
    (hst : s.att.pending &&& causeMask .station ≠ 0 → u.att.pending &&& causeMask .station ≠ 0) :
    ∃ t, act f s = .next t ∧ StationStep s u t := by
  have hatt : y.att = u.att := by rw [hy]
  refine ⟨publish s y, by rw [act_high f s h, hf], ?_, hatt ▸ publish_stationNotice s y,
    hd.exact [] s y (by rw [hatt]; exact hst)⟩
  have hset : ∀ a d, { y with att := a, dirty := d } = { u with att := a, dirty := d } := fun a d => by rw [hy]
  rw [publish_eq]
  exact hset _ _

/-- TUNER_EVENT joins the pending causes (R164). -/
def told (a : Attention) : Attention := { a with pending := a.pending ||| 0x0100#16 }

theorem raise_tuner (s : State) : raise .tuner s = { s with att := told s.att, dirty := (raise .tuner s).dirty } := by
  have hatt : (raise .tuner s).att = told s.att := raise_att .tuner s
  rw [← hatt]
  unfold raise
  split <;> rfl

theorem setsMarks_told (s y : State) (hd : y.dirty = s.dirty) (ha : y.att = s.att) : SetsMarks [] s (raise .tuner y) :=
  (SetsMarks.same s y hd).raise .tuner ha

theorem told_station {a : Attention} (h : a.pending &&& causeMask .station ≠ 0) :
    (told a).pending &&& causeMask .station ≠ 0 := or_keeps h

theorem told_notice (was now : Bool) (a : Attention) : sourceNotice was now (told a) = told (sourceNotice was now a) := by
  unfold sourceNotice told
  split
  · rfl
  · rw [BitVec.or_assoc, BitVec.or_comm 0x0100#16, ← BitVec.or_assoc]

/-- The tuner, the front-end line, the measurement unit, the decoder and the memory agent of a state in place of
another's. -/
def tunerParts (u s : State) : State :=
  { s with agent := u.agent, tun := u.tun, fe := u.fe, meas := u.meas, sd := u.sd }

/-- A step of the tuner with the change of carrying status it brings about. -/
theorem tunerStep_of_event (f : State → State) (was now : Bool) (s u y z : State)
    (h : s.rstnLow = false) (hf : f s = z) (hev : ByEvent [] .tuner was now s y z u.att) (k : PathsAgree y s)
    (hz : z = afterCarrying u z) :
    ∃ t, act f s = .next t ∧ TunerStep was now s u t := by
  refine ⟨publish s z, by rw [act_high f s h, hf], ?_, hev.change k (by simp) (publish_samePaths s z),
    hev.att ▸ publish_stationNotice s z, hev.marks.publish hev.station⟩
  have hset : ∀ a d, { z with att := a, dirty := d } = afterCarrying u { z with att := a, dirty := d } :=
    fun a d => by rw [hz]; rfl
  rw [publish_eq]
  exact hset _ _

theorem tunerParts_agree (x s : State) : PathsAgree (tunerParts x s) s :=
  pathsAgree_of_eq ⟨rfl, rfl, rfl, rfl, rfl, rfl⟩ rfl rfl rfl rfl

/-- The state after an event that the tuner's parts of `u` follow. -/
theorem tunerStep (f : State → State) (was now : Bool) (s u x : State) (h : s.rstnLow = false)
    (hf : f s = tunerParts u (eventOf .tuner was now (tunerParts x s))) :
    ∃ t, act f s = .next t ∧ TunerStep was now s (tunerParts u s) t := by
  refine tunerStep_of_event f was now s (tunerParts u s) (tunerParts x s) _ h hf ?_ (tunerParts_agree x s) ?_
  · exact byEvent_after .tuner was now s (tunerParts x s) _ rfl rfl rfl rfl rfl ⟨rfl, rfl, rfl, rfl, rfl, rfl⟩ rfl
  · have hrest := eventOf_rest .tuner was now (tunerParts x s)
    generalize eventOf .tuner was now (tunerParts x s) = e at hrest ⊢
    rw [hrest]
    rfl

/-- The same with a long outcome's report (R164). -/
theorem tunerStep_told (f : State → State) (was now : Bool) (s u x : State) (h : s.rstnLow = false)
    (hf : f s = raise .tuner (tunerParts u (eventOf .tuner was now (tunerParts x s)))) :
    ∃ t, act f s = .next t ∧ TunerStep was now s { tunerParts u s with att := told s.att } t := by
  set e := eventOf .tuner was now (tunerParts x s) with he
  have hatt : e.att = sourceNotice was now s.att := eventOf_att .tuner was now (tunerParts x s)
  refine tunerStep_of_event f was now s { tunerParts u s with att := told s.att } (tunerParts x s) _ h hf ?_
    (tunerParts_agree x s) ?_
  · refine ⟨rfl, ?_, ?_, ?_, .refl _, ⟨_, rfl⟩, fun r hr => hr, fun r hr => .inl hr, fun r hr => ?_, fun r hr => ?_,
      fun r hr => by simp at hr⟩
    · rw [told_notice, ← hatt]
      exact raise_att .tuner _
    · rw [raise_tuner]
      rfl
    · rw [raise_tuner]
      exact ⟨rfl, rfl, rfl, rfl, rfl, rfl⟩
    · exact (mem_raise_dirty _ _ _).2 (.inl hr)
    · rcases (mem_raise_dirty _ _ _).1 hr with h1 | ⟨rfl, h1⟩
      · exact .inl h1
      · refine .inr (.inr ⟨rfl, fun k => ?_⟩)
        have hp : s.att.pending ||| 0x0100#16 = s.att.pending := congrArg Attention.pending k
        have h1 : e.att.pending &&& causeMask .tuner = 0 := h1
        rw [hatt] at h1
        have h8 := congrArg (BitVec.getLsbD · 8) hp
        have h9 := congrArg (BitVec.getLsbD · 8) h1
        unfold sourceNotice at h9
        split at h9 <;> simp [causeMask, causeBit] at h8 h9 <;> simp [h8] at h9
  · rw [raise_tuner]
    have hrest : e = afterCarrying (tunerParts x s) e := eventOf_rest .tuner was now (tunerParts x s)
    clear_value e
    rw [hrest]
    rfl

/-! ### Entry to LISTENING and VERIFYING (R164, R174) -/

/-- The tuner as its blend and its timers start. -/
def readingsBegun (x : Tuner) : Tuner :=
  { x with stereo := false, lowRun := 0, highRun := 0, readingTimer := true, queryTimer := true }

/-- The decoder as the tuner enters LISTENING or VERIFYING (R178, R186). -/
def decoderEntered (x : Tuner) (d : Station) : Station :=
  bitsMoved (takingBits x) (decide (x.tunedBand = .fm)) (if x.tunedBand = .am then d.clearContent else d)

theorem takingBits_away {x : Tuner} (h : listens x.state = false) : takingBits x = false := by
  show (listens x.state && _) = false
  rw [h]
  rfl

theorem entered_eq (next : TunerState) (g : Tuner → Tuner) (s : State) (h : listens s.tun.state = false)
    (hn : listens next = true) (hg : ∀ t, (g t).tunedBand = t.tunedBand) :
    clearOnAm (updTun g (startReadings (tunerGoto next s)))
      = tunerParts { s with
          tun := g (readingsBegun { s.tun with state := next }), sd := decoderEntered s.tun s.sd }
        (eventOf .tuner false true (tunerMoved next s)) := by
  have hmoved : tunerMoved next s = { s with
      tun := { s.tun with state := next }, sd := bitsMoved false (s.tun.tunedBand == .fm) s.sd } := by
    unfold tunerMoved
    simp only [h, hn, takingBits_away h, notice_eq, Bool.false_and, Bool.true_and, Bool.not_false, Bool.and_true]
    rfl
  rw [tunerGoto_eq, h, hn, hmoved]
  have hrest := eventOf_rest .tuner false true { s with
      tun := { s.tun with state := next }, sd := bitsMoved false (s.tun.tunedBand == .fm) s.sd }
  generalize eventOf .tuner false true _ = e at hrest ⊢
  rw [hrest]
  unfold clearOnAm decoderEntered
  simp only [updTun, startReadings, updSd, hg, afterCarrying, tunerParts, takingBits_away h]
  cases s.tun.tunedBand <;> rfl

theorem enterListening_eq (s : State) (h : listens s.tun.state = false) :
    enterListening s = tunerParts { s with
        tun := { readingsBegun s.tun with state := .listening, weak := 0 }, sd := decoderEntered s.tun s.sd }
      (eventOf .tuner false true (tunerMoved .listening s)) :=
  entered_eq .listening (fun t => { t with weak := 0 }) s h rfl fun _ => rfl

/-- Every part of a moved state that is not the tuner's is as it was. -/
theorem tunerMoved_parts (next : TunerState) (s : State) : tunerMoved next s = tunerParts (tunerMoved next s) s := rfl

theorem plainMoved_parts (s : State) : plainMoved s = tunerParts (plainMoved s) s := rfl

/-! ### The tuner's timers (R164, R172 to R175) -/

theorem requestRssi_eq (s : State) : requestRssi s = { s with meas := readingAsked s.meas } := by
  have hq : ∀ q : OnDemand, (if q.isTuner then OnDemand.tuner false else q)
      = match q with | .tuner _ => .tuner false | q => q := fun q => by cases q <;> rfl
  have hany : s.meas.queue.any OnDemand.isTuner = true
      ↔ OnDemand.tuner true ∈ s.meas.queue ∨ OnDemand.tuner false ∈ s.meas.queue := by
    rw [List.any_eq_true]
    constructor
    · rintro ⟨q, hm, hq⟩
      cases q with
      | tuner b => cases b <;> simp [hm]
      | _ => simp [OnDemand.isTuner] at hq
    · rintro (h | h)
      · exact ⟨_, h, rfl⟩
      · exact ⟨_, h, rfl⟩
  unfold requestRssi updMeas readingAsked
  simp only [hq, hany] <;> rfl

/-- A reading of the tuner's is outstanding. -/
theorem rssiOutstanding_iff (m : Meas) : rssiOutstanding m = true
    ↔ OnDemand.tuner false ∈ m.queue ∨ ∃ c, m.conv = some c ∧ c.owner = .tuner false := by
  unfold rssiOutstanding
  cases hc : m.conv <;> simp

theorem longOutcome_eq (o : LongOutcome) (s : State) : longOutcome o s
    = raise .tuner { s with tun := { s.tun with outcome := o, outcomeCount := (s.tun.outcomeCount + 1) % 65536 } } := rfl

theorem weakKept_of_zero {s : State} (h : s.tun.weak = 0) : weakKept s = 0 := by
  unfold weakKept
  split
  · exact h
  · rfl

/-- A weak count of 0 stays (R173). -/
theorem normWeak_zero {s : State} (h : s.tun.weak = 0) : normWeak s = s := by
  rw [normWeak_eq, weakKept_of_zero h]
  rw [← h]

/-- A step of the tuner that changes neither its carrying status nor the decoder, and marks nothing. -/
theorem tunerOwn (f : State → State) (s u : State) (h : s.rstnLow = false)
    (hf : f s = { s with agent := u.agent, tun := u.tun, fe := u.fe, meas := u.meas }) :
    ∃ t, act f s = .next t ∧ OwnStep [] s { s with agent := u.agent, tun := u.tun, fe := u.fe, meas := u.meas } t :=
  ownStep_of_eq f [] s _ _ h hf rfl rfl rfl (.same _ _ rfl) id

/-- A step that leaves the tuner as it is but for the weak count (R173). -/
theorem tunerIdle (f : State → State) (s : State) (h : s.rstnLow = false) (hf : f s = s) :
    ∃ t, act (fun x => normWeak (f x)) s = .next t ∧ OwnStep [] s { s with tun := { s.tun with weak := weakKept s } } t :=
  tunerOwn _ s { s with tun := { s.tun with weak := weakKept s } } h (by rw [hf, normWeak_eq])

/-- A failed verification (R175). -/
theorem verifyFailed_eq (s : State) (h : s.tun.state = .verifying) :
    let e := eventOf .tuner true false (plainMoved { s with tun := { s.tun with backoff := true } })
    verifyFailed s = tunerParts { s with
        tun := { s.tun with
          state := .tuning, reason := .verifyFailed, backoff := true, settleTimer := false,
          readingTimer := false, queryTimer := false, verifyTimer := false }
        fe := (s.fe.abandon (abandonsOf true)).send
          (.tune s.tun.probe.band s.tun.region s.tun.probe.original .plain)
        meas := readingAbandoned s.meas, sd := bitsStopped (takingBits s.tun) s.sd } e := by
  intro e
  have hl : listens s.tun.state = true := by rw [h]; rfl
  have hrest : e = _ := eventOf_rest .tuner true false _
  unfold verifyFailed
  rw [plainTune_eq]
  simp only [updTun, hl]
  change ({ e with tun := _, fe := _ } : State) = _
  clear_value e
  rw [hrest]
  simp only [afterCarrying, plainMoved, tunerParts, hl, Bool.not_true, Bool.and_false]
  rfl

/-- Entry to LISTENING or VERIFYING leaves what AF follow goes by, on FM (R173). -/
theorem weakKept_entered (s y : State) (hsd : y.sd = decoderEntered s.tun s.sd)
    (ht : y.tun.afFollow = s.tun.afFollow ∧ y.tun.tunedBand = s.tun.tunedBand ∧ y.tun.band = s.tun.band
      ∧ y.tun.expected = s.tun.expected ∧ y.tun.backoff = s.tun.backoff ∧ y.tun.weak = s.tun.weak) :
    weakKept y = weakKept s := by
  obtain ⟨h1, h2, h3, h4, h5, h6⟩ := ht
  have hactive : afActive y = afActive s := by
    cases hb : s.tun.tunedBand with
    | am =>
      have hno : (Band.am == Band.fm) = false := rfl
      simp [afActive, h2, hb, hno]
    | fm =>
      have hkeep : (decoderEntered s.tun s.sd).confirmed = s.sd.confirmed ∧ (decoderEntered s.tun s.sd).af = s.sd.af := by
        unfold decoderEntered bitsMoved
        simp only [hb]
        split
        · exact ⟨rfl, rfl⟩
        · exact ⟨rfl, rfl⟩
      simp only [afActive, stationCode, h1, h2, h3, h4, h5, hsd, hkeep.1, hkeep.2]
  rw [weakKept, weakKept, hactive, h6]

/-- The outcome that a plain tune reports when it has settled (R164). -/
theorem settleExpiry_plain (s : State) (hon : s.tun.settleTimer = true) (hst : s.tun.state = .settling) :
    settleExpiry s = raise .tuner (tunerParts { s with
        tun := { readingsBegun s.tun with
          state := .listening, settleTimer := false, weak := 0
          outcome := reasonOutcome s.tun.reason, outcomeCount := (s.tun.outcomeCount + 1) % 65536 }
        sd := decoderEntered s.tun s.sd }
      (eventOf .tuner false true (tunerParts (tunerMoved .listening { s with tun := { s.tun with settleTimer := false } }) s))) := by
  have hl : listens s.tun.state = false := by rw [hst]; rfl
  have hopen : settleExpiry s = longOutcome (reasonOutcome s.tun.reason)
      (enterListening { s with tun := { s.tun with settleTimer := false } }) := by
    unfold settleExpiry
    rw [if_pos hon, hst]
    rfl
  rw [hopen, longOutcome_eq, enterListening_eq { s with tun := { s.tun with settleTimer := false } } hl]
  rfl

/-- The switch has settled: the verification begins (R174). -/
theorem settleExpiry_switch (s : State) (hon : s.tun.settleTimer = true) (hst : s.tun.state = .probing)
    (hsw : s.tun.probe.switching = true) :
    settleExpiry s = tunerParts { s with
        tun := { readingsBegun s.tun with state := .verifying, settleTimer := false, verifyTimer := true }
        sd := decoderEntered s.tun s.sd }
      (eventOf .tuner false true (tunerParts (tunerMoved .verifying { s with tun := { s.tun with settleTimer := false } }) s)) := by
  have hl : listens s.tun.state = false := by rw [hst]; rfl
  have hopen : settleExpiry s = clearOnAm (updTun (fun t => { t with verifyTimer := true })
      (startReadings (tunerGoto .verifying { s with tun := { s.tun with settleTimer := false } }))) := by
    unfold settleExpiry
    rw [if_pos hon, hst]
    dsimp only
    rw [if_pos hsw]
    rfl
  rw [hopen]
  exact entered_eq .verifying (fun t => { t with verifyTimer := true }) { s with tun := { s.tun with settleTimer := false } }
    hl rfl fun _ => rfl

/-- A step has settled: its first reading is asked for (R167). -/
theorem settleExpiry_step (s : State) (hon : s.tun.settleTimer = true)
    (hst : s.tun.state = .seeking ∨ s.tun.state = .probing ∧ s.tun.probe.switching = false) :
    settleExpiry s = { s with
      meas := readingAsked s.meas, tun := { s.tun with phase := .firstReading, settleTimer := false } } := by
  unfold settleExpiry
  rw [if_pos hon]
  rcases hst with hst | ⟨hst, hsw⟩
  · rw [hst]
    dsimp only
    rw [requestRssi_eq]
    rfl
  · rw [hst]
    dsimp only
    rw [if_neg (by rw [hsw]; simp), requestRssi_eq]
    rfl

/-- Settles O56, timer by timer. -/
theorem tunerTimersMoveTheTuner : Obligations.TunerTimersMoveTheTuner := by
  unfold Obligations.TunerTimersMoveTheTuner
  intro s h x b idle begun sd asks waits
  have hsettle : exec .settleTimerExpiry s = act (fun t => normWeak (settleExpiry t)) s := rfl
  have hverify : exec .verifyTimerExpiry s = act (fun t => normWeak (verifyExpiry t)) s := rfl
  have hreading : exec .readingTimerExpiry s = act readingExpiry s := rfl
  have hquery : exec .queryTimerExpiry s = act queryExpiry s := rfl
  have hasks : x.state = .seeking ∨ x.state = .probing ∧ x.probe.switching = false → x.settleTimer = true → asks := by
    intro hst hon
    obtain ⟨t, ht, hown⟩ := tunerOwn (fun x => normWeak (settleExpiry x)) s { s with
      meas := readingAsked s.meas, tun := { x with phase := .firstReading, settleTimer := false, weak := weakKept s } } h
      (by rw [settleExpiry_step s hon hst, normWeak_eq]; rfl)
    exact ⟨t, ht, hown⟩
  refine ⟨fun hoff => ?_, fun hon => ⟨fun hst => ?_, fun hst => ?_, fun hst hsw => ?_, fun hst hsw => ?_⟩,
    fun hon hno => ?_, fun hno => ?_, fun hon ho hp => ?_, fun hno => ?_, fun hno => ?_, fun hon hst => ?_, ?_⟩
  · exact tunerIdle settleExpiry s h (if_neg (by rw [show s.tun.settleTimer = false from hoff]; simp))
  · have hz : normWeak (settleExpiry s) = settleExpiry s := normWeak_zero (by
      rw [settleExpiry_plain s hon hst, raise_tuner]
      rfl)
    obtain ⟨t, ht, hstep⟩ := tunerStep_told (fun x => normWeak (settleExpiry x)) false true s _ _ h
      (hz.trans (settleExpiry_plain s hon hst))
    exact ⟨t, ht, hstep⟩
  · exact hasks (.inl hst) hon
  · exact hasks (.inr ⟨hst, hsw⟩) hon
  · have hform := settleExpiry_switch s hon hst hsw
    obtain ⟨t, ht, hstep⟩ := tunerStep (fun x => normWeak (settleExpiry x)) false true s
      { s with sd := sd, tun := { begun x with state := .verifying, verifyTimer := true, weak := weakKept s } } _ h (by
        show normWeak (settleExpiry s) = _
        rw [normWeak_eq, weakKept_entered s (settleExpiry s) (by rw [hform]; rfl) (by rw [hform]; exact
          ⟨rfl, rfl, rfl, rfl, rfl, rfl⟩), hform]
        rfl)
    exact ⟨t, ht, hstep⟩
  · rw [hreading]
    refine tunerOwn _ s { s with meas := readingAsked s.meas } h ?_
    have hout : rssiOutstanding s.meas = false := by
      rw [← Bool.not_eq_true, rssiOutstanding_iff]
      exact hno
    rw [readingExpiry, show s.tun.readingTimer = true from hon, hout, requestRssi_eq]
    rfl
  · rw [hreading]
    refine act_same h ?_
    have hout : (s.tun.readingTimer && !rssiOutstanding s.meas) = false := by
      rcases hno with hno | hno
      · rw [show s.tun.readingTimer = false from hno]
        rfl
      · rw [(rssiOutstanding_iff _).mpr hno]
        exact Bool.and_false _
    rw [readingExpiry, hout]
    rfl
  · rw [hquery]
    have hsend : queryExpiry s = { s with fe := s.fe.start .query } := by
      rw [queryExpiry, show s.tun.queryTimer = true from hon]
      show updFe FrontEnd.sendQuery s = _
      rw [updFe, FrontEnd.sendQuery, if_pos ⟨ho, hp⟩]
    obtain ⟨t, ht, hown⟩ := tunerOwn _ s { s with fe := s.fe.start .query } h hsend
    have hfe : t.fe = s.fe.start .query := by rw [hown.rest]
    refine ⟨t, ht, by rw [hfe]; exact hown, ?_⟩
    rw [hfe]
    exact ⟨rfl, fun _ => ⟨rfl, rfl, rfl, rfl⟩, fun o h => by simp [ho] at h⟩
  · rw [hquery]
    refine act_same h ?_
    unfold queryExpiry
    split
    · rename_i hq
      have hne : ¬(s.fe.outstanding = none ∧ s.fe.pending = none) := by
        rintro ⟨h1, h2⟩
        rcases hno with hno | hno | hno
        · rw [show s.tun.queryTimer = false from hno] at hq
          simp at hq
        · exact hno h1
        · exact hno h2
      rw [updFe, FrontEnd.sendQuery, if_neg hne]
    · rfl
  · exact tunerIdle verifyExpiry s h (if_neg (by
      rcases hno with hno | hno
      · rw [show s.tun.verifyTimer = false from hno]; simp
      · simp [show s.tun.state ≠ .verifying from hno]))
  · have hfail : verifyExpiry s = verifyFailed s := by
      unfold verifyExpiry
      rw [show s.tun.verifyTimer = true from hon, show s.tun.state = .verifying from hst]
      rfl
    obtain ⟨t, ht, hstep⟩ := tunerStep (fun x => normWeak (verifyExpiry x)) true false s
      { s with
        fe := (s.fe.abandon (abandonsOf true)).send (.tune x.probe.band x.region x.probe.original .plain)
        meas := readingAbandoned s.meas, sd := bitsStopped (takingBits x) s.sd
        tun := { x with
          state := .tuning, reason := .verifyFailed, backoff := true, weak := 0, settleTimer := false,
          readingTimer := false, queryTimer := false, verifyTimer := false } }
      (plainMoved { s with tun := { s.tun with backoff := true } }) h (by
        show normWeak (verifyExpiry s) = _
        rw [hfail, verifyFailed_eq s hst, normWeak_eq, weakKept_backoff _ rfl]
        rfl)
    have hfe : t.fe = (s.fe.abandon (abandonsOf true)).send (.tune x.probe.band x.region x.probe.original .plain) := by
      rw [hstep.rest]
      rfl
    exact ⟨t, ht, hfe ▸ hstep, hfe ▸ sent_of_abandon _ _ _⟩
  · exact tunerOwn _ s { s with tun := { s.tun with backoff := false } } h rfl

end Sys2Proof.Machine

end

/-! The front-end line (R155 to R161): its frames and characters, the receive queue, the assembler, and the events that
change nothing else. -/

section

set_option autoImplicit false

namespace Sys2Proof.Machine

/-! ### Frames (R158, R159) -/

theorem foldl_add_toNat (cs : List Byte) (x : Byte) :
    (cs.foldl (fun x c => x + c) x).toNat = (x.toNat + (cs.map BitVec.toNat).sum) % 256 := by
  induction cs generalizing x with
  | nil => simp [Nat.mod_eq_of_lt x.isLt]
  | cons c cs ih =>
    simp only [List.foldl_cons, List.map_cons, List.sum_cons, ih, BitVec.toNat_add]
    omega

theorem charSum_toNat (cs : List Byte) : (charSum cs).toNat = (cs.map BitVec.toNat).sum % 256 := by
  rw [charSum, foldl_add_toNat]
  simp

/-- A received sum of 0 (R158). -/
theorem sum_zero_iff (len : Nat) (got : List Byte) (d : Byte) :
    BitVec.ofNat 8 len + charSum got + d = 0 ↔ (len + (got.map BitVec.toNat).sum + d.toNat) % 256 = 0 := by
  rw [← BitVec.toNat_inj]
  simp only [BitVec.toNat_add, BitVec.toNat_ofNat, charSum_toNat]
  constructor <;> intro h <;> simp_all

/-- The CHK of a frame brings the sum from LEN on to 0 (R158). -/
theorem frame_sum (body : List Byte) : (((frameOfBody body).drop 1).map BitVec.toNat).sum % 256 = 0 := by
  have hdrop : (frameOfBody body).drop 1
      = BitVec.ofNat 8 body.length :: (body ++ [-(BitVec.ofNat 8 body.length + charSum body)]) := by
    simp [frameOfBody]
  have hneg : ∀ x : Byte, (x.toNat + (-x).toNat) % 256 = 0 := fun x => by
    have := x.isLt
    simp only [BitVec.toNat_neg]
    omega
  have hsum := hneg (BitVec.ofNat 8 body.length + charSum body)
  simp only [BitVec.toNat_add, charSum_toNat] at hsum
  rw [hdrop]
  simp only [List.map_cons, List.map_append, List.map_nil, List.sum_cons, List.sum_append, List.sum_nil]
  omega

theorem bandByte_toNat (b : Band) (r : Region) :
    (bandByte b r).toNat = (if b = .am then 1 else 0) + if r = .b then 16 else 0 := by
  cases b <;> cases r <;> rfl

theorem ofNat_mod_byte (n : Nat) : BitVec.ofNat 8 (n % 256) = BitVec.ofNat 8 n := by
  apply BitVec.eq_of_toNat_eq
  simp

/-- A response answers a command (R159). -/
theorem matches_iff (c : FeCommand) (body : List Byte) : c.matches body = true ↔ answersTo c body := by
  unfold FeCommand.matches answersTo
  cases c with
  | tune b r k p =>
    constructor
    · intro h
      split at h <;> simp_all
    · rintro ⟨st, rfl⟩
      simp
  | query | standby =>
    constructor
    · intro h
      split at h <;> simp_all
    · rintro ⟨st, rfl⟩
      simp

/-! ### Characters (R155 to R157) -/

theorem bitsOf_byte (d : Byte) : bitsOf 8 d.toNat = ((List.range 8).map d.getLsbD).reverse := rfl

theorem foldl_parity (bs : List Bool) (x : Bool) :
    bs.foldl (fun x b => x != b) x = decide ((bs.countP id + if x = true then 1 else 0) % 2 = 1) := by
  induction bs generalizing x with
  | nil => cases x <;> rfl
  | cons b bs ih =>
    rw [List.foldl_cons, ih, List.countP_cons]
    cases x <;> cases b <;> simp
    omega

/-- The parity of a character (R155). -/
theorem evenParity_eq (d : Byte) (p : Bool) : evenParity d p
    = decide ((((List.range 8).filter fun i => d.getLsbD i).length + if p = true then 1 else 0) % 2 = 0) := by
  have hcount : (bitsOf 8 d.toNat).countP id = ((List.range 8).filter fun i => d.getLsbD i).length := by
    rw [bitsOf_byte, List.countP_reverse, List.countP_map, List.countP_eq_length_filter]
    rfl
  rw [evenParity, foldl_parity, hcount]
  rcases Nat.mod_two_eq_zero_or_one (((List.range 8).filter fun i => d.getLsbD i).length + if p = true then 1 else 0)
    with h | h <;> simp [h]

/-- Each character of a frame takes eleven bit times (R156). -/
theorem frameLevels_getD (frame : List Byte) (i k : Nat) (d : Byte) (h : frame[i]? = some d) (hk : k < 11) :
    (frameLevels frame).getD (11 * i + k) true = (charLevels d).getD k true := by
  induction frame generalizing i with
  | nil => simp at h
  | cons c cs ih =>
    have hcons : frameLevels (c :: cs) = charLevels c ++ frameLevels cs := rfl
    rw [hcons]
    cases i with
    | zero =>
      simp only [List.getElem?_cons_zero, Option.some.injEq] at h
      subst h
      rw [Nat.mul_zero, Nat.zero_add, List.getD_append _ _ _ _ (by rw [charLevels_length]; exact hk)]
    | succ i =>
      rw [List.getD_append_right _ _ _ _ (by rw [charLevels_length]; omega), charLevels_length,
        show 11 * (i + 1) + k - 11 = 11 * i + k by omega]
      exact ih i (by simpa using h)

theorem charLevels_data (d : Byte) (k : Nat) (h : k < 8) : (charLevels d).getD (1 + k) true = d.getLsbD k := by
  have : k = 0 ∨ k = 1 ∨ k = 2 ∨ k = 3 ∨ k = 4 ∨ k = 5 ∨ k = 6 ∨ k = 7 := by omega
  rcases this with rfl | rfl | rfl | rfl | rfl | rfl | rfl | rfl <;> rfl

/-- A full queue's tail takes the overrun mark (R157). -/
theorem markOverrun_concat (init : List RxChar) (y : RxChar) :
    markOverrun (init ++ [y]) = init ++ [{ y with overrun := true }] := by
  induction init with
  | nil => rfl
  | cons c cs ih =>
    rw [List.cons_append, List.cons_append, ← ih]
    cases h : cs ++ [y] with
    | nil => simp at h
    | cons a as => rfl

/-- The marks of a received character (R157). -/
theorem markedChar_eq (data : Byte) (parity stop : Bool) (idle : Nat) (first brk : Bool) (ones : Nat)
    (hb : brk = decide (data = 0 ∧ parity = false ∧ stop = false))
    (ho : ones = ((List.range 8).filter fun i => data.getLsbD i).length + if parity = true then 1 else 0) :
    markedChar data parity stop idle first
      = ⟨data, brk, decide (ones % 2 = 1), !stop && !brk, decide (4 ≤ idle) || first, false⟩ := by
  have hbrk : ((data == 0) && !parity && !stop) = brk := by
    rw [hb]
    cases parity <;> cases stop <;> simp [beq_eq_decide]
  have hodd : (!evenParity data parity) = decide (ones % 2 = 1) := by
    rw [evenParity_eq, ← ho]
    rcases Nat.mod_two_eq_zero_or_one ones with h | h <;> simp [h]
  unfold markedChar
  rw [hbrk, hodd]

/-! ### Events of the line -/

/-- A command of the part's own that changes the line alone. -/
theorem act_frontEnd (g : FrontEnd → FrontEnd) (s : State) (h : s.rstnLow = false) :
    act (updFe g) s = .next { s with fe := g s.fe } := by
  rw [act_high _ s h, publish_quiet]
  · rfl
  · intro r _
    cases r with
    | zone z => cases z <;> rfl
    | source x => cases x <;> rfl
    | _ => rfl

/-- A command sent on the line while nothing is abandoned (R160). -/
theorem sent_plain (f : FrontEnd) (c : FeCommand) : SentOnLine (fun _ => false) c f (f.send c) := by
  have hkeep : f.abandon (fun _ => false) = f := by
    rcases f with ⟨_, _, _, _, _, _, _, o, _, _⟩
    cases o <;> rfl
  have := sent_of_abandon f (fun _ => false) c
  rwa [hkeep] at this

/-- The assembler's expiry on a character that completes no frame handed on (R158, R161). -/
theorem assemblerExpiry_taken (s : State) (c : RxChar) (rest : List RxChar) (a : Assembler) (h : s.fe.rxQueue = c :: rest)
    (ht : (s.fe.assembler.take c).1 = a)
    (hn : ∀ body, (s.fe.assembler.take c).2 = some body → ∀ o, s.fe.outstanding = some o → o.cmd.matches body = false) :
    assemblerExpiry s = let s1 := { s with fe := { s.fe with rxQueue := rest, assembler := a } }
      if c.brk = true then frontEndRestart s1 else s1 := by
  set s1 : State := { s with fe := { s.fe with rxQueue := rest, assembler := a } } with hs1
  have hs2 : updFe (fun f => { f with rxQueue := rest, assembler := (s.fe.assembler.take c).1 }) s = s1 := by rw [ht]; rfl
  unfold assemblerExpiry
  rw [h]
  dsimp only
  rw [hs2]
  cases hr : (s.fe.assembler.take c).2 with
  | none => rfl
  | some body =>
    have hbrk : c.brk = false := by
      cases hb : c.brk with
      | false => rfl
      | true => simp [Assembler.take, RxChar.isError, hb] at hr
    rw [hbrk]
    show frameHanded body s1 = s1
    unfold frameHanded
    split
    · rename_i o ho
      rw [if_neg (by rw [hn body hr o ho]; simp)]
    · rfl

/-- Settles O54, event by event. -/
theorem lineMovesFramesAndCharacters : Obligations.LineMovesFramesAndCharacters := by
  unfold Obligations.LineMovesFramesAndCharacters
  refine ⟨fun c => ⟨fun b r code k hc => ?_, fun hc => ?_, fun hc => ?_, frame_sum c.body⟩, fun s h => ?_⟩
  · subst hc
    refine ⟨bandByte b r, -(4#8 + charSum (FeCommand.tune b r code k).body), ?_, bandByte_toNat b r⟩
    rw [ofNat_mod_byte]
    rfl
  · subst hc
    exact ⟨_, rfl⟩
  · subst hc
    exact ⟨_, rfl⟩
  intro f chars
  have hsent : exec .frameSent s = act (updFe FrontEnd.frameSent) s := rfl
  have htakeUp : exec .divisorTakeUp s = act (updFe FrontEnd.takeUp) s := rfl
  refine ⟨fun htx => ⟨?_, fun n => ?_⟩, fun frame rest htx i d hd => ?_, fun x rest htx => ?_,
    fun data parity stop idle => ?_, ?_, ?_⟩
  · rw [hsent, act_frontEnd _ s h, FrontEnd.frameSent, show s.fe.txFrames = [] from htx]
  · rw [ftxLevel, h, show s.fe.txFrames = [] from htx]
    rfl
  · have hlevel : ∀ n, ftxLevel s n = (frameLevels frame).getD n true := fun n => by
      rw [ftxLevel, h, show s.fe.txFrames = frame :: rest from htx]
      rfl
    have hat : ∀ k, k < 11 → ftxLevel s (11 * i + k) = (charLevels d).getD k true := fun k hk => by
      rw [hlevel, frameLevels_getD frame i k d hd hk]
    have hparity : ftxLevel s (11 * i + 9) = parityBit d := (hat 9 (by omega)).trans rfl
    refine ⟨hat 0 (by omega), fun k hk => ?_, ?_, hat 10 (by omega)⟩
    · rw [Nat.add_assoc, hat _ (by omega), charLevels_data d k hk]
    · rw [hparity, parityBit, evenParity_eq]
      rcases Nat.mod_two_eq_zero_or_one ((List.range 8).filter fun k => d.getLsbD k).length with hm | hm
      · simp [hm]
      · simp [hm]
        omega
  · rw [hsent, act_frontEnd _ s h, FrontEnd.frameSent, show s.fe.txFrames = x :: rest from htx]
    simp [f]
  · intro ones brk c
    have hexec : exec (.characterReceived data parity stop idle) s
        = act (updFe fun f => f.receive data parity stop idle) s := rfl
    have hc : markedChar data parity stop idle s.fe.rxFirst = c := markedChar_eq _ _ _ _ _ _ _ rfl rfl
    refine ⟨fun hroom => ?_, fun init y hfull hq => ?_⟩
    · rw [hexec, act_frontEnd _ s h, FrontEnd.receive, hc, if_pos (show s.fe.rxQueue.length < rxDepth from hroom)]
    · rw [hexec, act_frontEnd _ s h, FrontEnd.receive, if_neg (show ¬s.fe.rxQueue.length < rxDepth from by
        simpa [rxDepth] using hfull), show s.fe.rxQueue = init ++ [y] from hq, markOverrun_concat]
  · intro quiet
    have hq : (s.fe.divisorWaiting && s.fe.txFrames.isEmpty && s.fe.rxQueue.isEmpty && (s.fe.assembler == .hunt)) = true
        ↔ quiet := by
      simp [quiet, f, and_assoc]
    refine ⟨fun hy => ?_, fun hn => ?_⟩
    · rw [htakeUp, act_frontEnd _ s h, FrontEnd.takeUp, if_pos (hq.mpr hy)]
    · rw [htakeUp, act_frontEnd _ s h, FrontEnd.takeUp, if_neg (fun k => hn (hq.mp k))]
  · intro b into
    have hexec : exec .assemblerTimerExpiry s = act (fun t => normWeak (assemblerExpiry t)) s := rfl
    refine ⟨fun hq => ?_, fun c rest hq => ?_⟩
    · refine tunerIdle assemblerExpiry s h ?_
      unfold assemblerExpiry
      rw [show s.fe.rxQueue = [] from hq]
    intro next bad a out
    have hbad : c.isError = true ↔ bad := by simp [RxChar.isError, bad, or_assoc]
    have hcarries : s.tun.carries = true ↔ out := by simp [Tuner.carries, out]
    have hnext : ∀ a', (s.fe.assembler.take c).1 = a' → (c.brk = false ∨ ¬out) →
        (∀ body, (s.fe.assembler.take c).2 = some body →
          ∀ o, s.fe.outstanding = some o → o.cmd.matches body = false) → next a' := by
      intro a' ha hb hn
      have heq := assemblerExpiry_taken s c rest a' hq ha hn
      have hstill : assemblerExpiry s = { s with fe := { s.fe with rxQueue := rest, assembler := a' } } := by
        rw [heq]
        dsimp only
        split
        · rename_i hbrk
          refine if_neg fun hc => ?_
          rcases hb with hb | hb
          · rw [hb] at hbrk
            simp at hbrk
          · exact hb (hcarries.mp hc)
        · rfl
      exact tunerOwn (fun x => normWeak (assemblerExpiry x)) s
        { s with fe := { s.fe with rxQueue := rest, assembler := a' }, tun := { s.tun with weak := weakKept s } } h
        (by rw [hstill, normWeak_eq]; rfl)
    have herror : bad → s.fe.assembler.take c = (.hunt, none) := fun hb => if_pos (hbad.mpr hb)
    have hfeed : ¬bad → s.fe.assembler.take c = a.feed c.data := fun hb => if_neg fun k => hb (hbad.mp k)
    have hgood : ¬bad → c.brk = false ∨ ¬out := fun hb => .inl (by simpa using fun k => hb (.inl k))
    have hfed : ∀ a', ¬bad → (a.feed c.data) = (a', none) → next a' := fun a' hb hf =>
      hnext a' (by rw [hfeed hb, hf]) (hgood hb) (by rw [hfeed hb, hf]; simp)
    refine ⟨fun hb hno => ?_, fun hbrk hout => ?_, fun hb => ⟨fun ha => ?_, fun ha h1 h2 => ?_, fun ha h1 => ?_,
      fun len got ha => ⟨fun hlen => ?_, fun hlen hno => ?_⟩⟩⟩
    · exact hnext .hunt (by rw [herror hb]) hno (by rw [herror hb]; simp)
    · have hb : bad := .inl hbrk
      have heq := assemblerExpiry_taken s c rest .hunt hq (by rw [herror hb]) (by rw [herror hb]; simp)
      set F : FrontEnd := { f with rxQueue := rest, assembler := .hunt }
      set cmd : FeCommand := .tune s.tun.tunedBand s.tun.region s.tun.tunedCode .retune
      have hsend : assemblerExpiry s = { s with fe := F.send cmd } := by
        rw [heq]
        dsimp only
        rw [if_pos hbrk]
        exact if_pos (hcarries.mpr hout)
      obtain ⟨t, ht, hown⟩ := tunerOwn (fun x => normWeak (assemblerExpiry x)) s
        { s with fe := F.send cmd, tun := { s.tun with weak := weakKept s } } h (by rw [hsend, normWeak_eq]; rfl)
      have hfe : t.fe = F.send cmd := by rw [hown.rest]
      exact ⟨t, ht, hfe ▸ hown, hfe ▸ sent_plain F cmd⟩
    · exact hfed _ hb (by rw [ha]; rfl)
    · exact hfed _ hb (by rw [ha]; exact congrArg (·, none) (if_pos ⟨h1, h2⟩))
    · exact hfed _ hb (by rw [ha]; exact congrArg (·, none) (if_neg (by omega)))
    · exact hfed _ hb (by rw [ha]; exact if_pos hlen)
    · have hf : a.feed c.data = (.hunt, if BitVec.ofNat 8 len + charSum got + c.data = 0 then some got else none) := by
        rw [ha]
        exact if_neg (by omega)
      refine hnext .hunt (by rw [hfeed hb, hf]) (hgood hb) fun body hbody o ho => ?_
      rw [hfeed hb, hf] at hbody
      dsimp only at hbody
      split at hbody
      · rename_i hsum
        cases Option.some.inj hbody
        rw [sum_zero_iff] at hsum
        rcases hno with hno | hno | ⟨o', ho', hno⟩
        · exact absurd hsum hno
        · rw [show s.fe.outstanding = none from hno] at ho
          simp at ho
        · cases Option.some.inj (ho.symm.trans ho')
          rw [← Bool.not_eq_true, matches_iff]
          exact hno
      · simp at hbody

end Sys2Proof.Machine

end

/-! The steps of a seek and of a probe (R167, R174), and how an exchange ends (R160, R164). -/

section

set_option autoImplicit false

namespace Sys2Proof.Machine

/-! ### The target (R162, R188) -/

/-- The AF list without a code that becomes the target (R188). -/
def afWithout (code target : Nat) (af : List Nat) : List Nat :=
  if code = target then af else af.filter fun y => y != code

/-- The write-backs that a change of the target asks for (R162). -/
def targetAsked (band : Band) (code : Nat) (x : Tuner) : List Slot :=
  (if band = x.band then [] else [.band]) ++ if code = x.code then [] else [.code]

/-- The tuner's own action sets the target band (R162). -/
theorem ownBand_eq (band : Band) (s : State) : ownBand band s = { s with
    tun := { s.tun with band := band }
    agent := { s.agent with queue := queueWith s.agent.queue (if band = s.tun.band then [] else [.band]) } } := by
  unfold ownBand
  split
  · rename_i h
    subst h
    rfl
  · rw [requestWriteBack_eq]
    rfl

theorem queue_targetAsked (band : Band) (code : Nat) (x : Tuner) (q : List Slot) :
    queueWith q (targetAsked band code x)
      = queueWith (queueWith q (if band = x.band then [] else [.band])) (if code = x.code then [] else [.code]) := by
  rw [targetAsked, queueWith, List.foldl_append]
  rfl

/-- The tuner's own action sets the target (R162). -/
theorem ownTarget_eq (band : Band) (code : Nat) (s : State) : ownTarget band code s = { s with
    tun := { s.tun with band := band, code := code }
    sd := { s.sd with af := afWithout code s.tun.code s.sd.af }
    agent := { s.agent with queue := queueWith s.agent.queue (targetAsked band code s.tun) } } := by
  rw [ownTarget, ownBand_eq, queue_targetAsked]
  unfold ownCode afWithout
  dsimp only
  split
  · rename_i h
    subst h
    rfl
  · rename_i h
    rw [requestWriteBack_eq, changeCode_eq]
    simp only [if_neg h]
    rfl

/-! ### The next step of a seek (R167) -/

theorem seekNext_next (s : State) :
    let k := s.tun.seek
    let next := stepCode (topCode k.region k.band) k.up k.step
    next ≠ k.start → seekNext s = { s with
      tun := { s.tun with seek := { k with step := next }, phase := .exchange }
      fe := s.fe.send (.tune k.band k.region next .seekStep) } := fun h => if_neg h

/-- A plain tune out of a state in which the tuner does not carry (R164). -/
theorem plainTune_still (band : Band) (code : Nat) (reason : TuneReason) (s : State) (h : listens s.tun.state = false) :
    plainTune band code reason s = { s with
      tun := { s.tun with state := .tuning, reason := reason, settleTimer := false, verifyTimer := false }
      fe := (s.fe.abandon (abandonsOf false)).send (.tune band s.tun.region code .plain)
      meas := readingAbandoned s.meas } := by
  rw [plainTune_eq]
  simp only [h, eventOf, if_true, plainMoved, takingBits_away h, Bool.not_false, Bool.and_true]
  rfl

/-- A seek that has come back to where it started (R167). -/
theorem seekNext_wrapped (s : State) (hs : listens s.tun.state = false) :
    let k := s.tun.seek
    stepCode (topCode k.region k.band) k.up k.step = k.start → seekNext s = { s with
      tun := { s.tun with
        state := .tuning, band := k.band, code := k.start, reason := .seekWrapped, settleTimer := false,
        verifyTimer := false }
      fe := (s.fe.abandon (abandonsOf false)).send (.tune k.band s.tun.region k.start .plain)
      meas := readingAbandoned s.meas
      sd := { s.sd with af := afWithout k.start s.tun.code s.sd.af }
      agent := { s.agent with queue := queueWith s.agent.queue (targetAsked k.band k.start s.tun) } } := by
  intro k h
  have hopen : seekNext s = plainTune k.band k.start .seekWrapped (ownTarget k.band k.start s) := if_pos h
  rw [hopen, ownTarget_eq, plainTune_still]
  exact hs

/-! ### The next step of a probe (R174) -/

theorem probeNext_candidate (s : State) (code : Nat) (rest : List Nat) (h : s.tun.probe.todo = code :: rest) :
    probeNext s = { s with
      tun := { s.tun with probe := { s.tun.probe with todo := rest, current := code }, phase := .exchange }
      fe := s.fe.send (.tune s.tun.probe.band s.tun.region code .probeStep) } := by
  unfold probeNext
  dsimp only
  rw [h]
  rfl

theorem probeNext_switch (s : State) (code mean : Nat) (h : s.tun.probe.todo = [])
    (hb : s.tun.probe.best = some (code, mean)) (hm : s.tun.probe.mean + 24 ≤ mean) :
    probeNext s = { s with
      tun := { s.tun with probe := { s.tun.probe with current := code, switching := true }, phase := .exchange }
      fe := s.fe.send (.tune s.tun.probe.band s.tun.region code .switch) } := by
  unfold probeNext
  dsimp only
  rw [h, hb]
  exact if_pos hm

theorem probeNext_stays (s : State) (h : s.tun.probe.todo = [])
    (hb : ∀ y n, s.tun.probe.best = some (y, n) → n < s.tun.probe.mean + 24) : probeNext s = probeNoSwitch s := by
  unfold probeNext
  dsimp only
  rw [h]
  cases hbest : s.tun.probe.best with
  | none => rfl
  | some b => exact if_neg (Nat.not_le.mpr (hb b.1 b.2 hbest))

/-! ### The weak count of a step's end (R173) -/

theorem weakKept_normWeak (s : State) : weakKept (normWeak s) = weakKept s := by
  have hactive : afActive (normWeak s) = afActive s := by rw [normWeak_eq]; rfl
  rw [weakKept, hactive, normWeak_eq]
  unfold weakKept
  split
  · simp_all
  · rfl

/-- What the weak count goes by after a step that changes it last. -/
theorem weakKept_of_station {s u t : State} (h : StationStep s u t) : weakKept t = weakKept u := by
  rw [h.rest]
  rfl

/-- A step of the tuner with a new target: codes that leave the AF list are published as station content (R189). -/
theorem tunerRetargeted (f : State → State) (s u : State) (h : s.rstnLow = false)
    (hf : f s = { s with agent := u.agent, tun := u.tun, fe := u.fe, meas := u.meas, sd := u.sd }) :
    ∃ t, act (fun x => normWeak (f x)) s = .next t ∧ StationStep s { s with
        agent := u.agent, tun := { u.tun with weak := weakKept t }, fe := u.fe, meas := u.meas, sd := u.sd } t := by
  set v : State := { s with agent := u.agent, tun := u.tun, fe := u.fe, meas := u.meas, sd := u.sd } with hv
  obtain ⟨t, ht, hstep⟩ := stationStep_of_eq (fun x => normWeak (f x)) s (normWeak v) (normWeak v) h (by rw [hf]) rfl
    (.same _ _ (by rw [normWeak_eq])) (by rw [normWeak_eq]; exact id)
  have hweak : weakKept t = weakKept v := by rw [weakKept_of_station hstep, weakKept_normWeak]
  refine ⟨t, ht, ?_⟩
  rw [hweak]
  have hform : normWeak v = { v with tun := { v.tun with weak := weakKept v } } := normWeak_eq v
  rw [hform] at hstep
  exact hstep

end Sys2Proof.Machine

end

/-! How an exchange ends: responses, failures and timeouts (R159 to R161, R163, R164, R167, R174). -/

section

set_option autoImplicit false

namespace Sys2Proof.Machine

/-! ### The end and the failure of an exchange (R160) -/

theorem endExchange_eq (f : FrontEnd) : f.endExchange = exchangeOver f := by
  unfold FrontEnd.endExchange exchangeOver
  cases f.pending <;> rfl

theorem exchangeFailed_first (o : Outstanding) (s : State) (h : o.resent = false) :
    exchangeFailed o s = { s with fe := resentOnce o s.fe } := by
  unfold exchangeFailed
  rw [h]
  rfl

theorem exchangeFailed_abandoned (o : Outstanding) (s : State) (h : o.resent = true) (ha : o.abandoned = true) :
    exchangeFailed o s = { s with fe := exchangeOver s.fe } := by
  unfold exchangeFailed
  rw [h, ha, ← endExchange_eq]
  rfl

theorem exchangeFailed_standby (o : Outstanding) (s : State) (h : o.resent = true) (ha : o.abandoned = false)
    (hc : o.cmd = .standby) :
    exchangeFailed o s = longOutcome .feFault { s with fe := s.fe.giveUp } := by
  unfold exchangeFailed
  rw [h, ha, hc]
  rfl

/-- A second failure brings FAULT (R160). -/
theorem exchangeFailed_fault (o : Outstanding) (s : State) (h : o.resent = true) (ha : o.abandoned = false)
    (hc : o.cmd ≠ .standby) :
    let out := listens s.tun.state
    exchangeFailed o s = raise .tuner (tunerParts { s with
        fe := s.fe.giveUp, sd := bitsStopped (takingBits s.tun) s.sd
        meas := if out = true then readingAbandoned s.meas else s.meas
        tun := { s.tun with
          state := .fault, settleTimer := false, outcome := .feFault
          outcomeCount := (s.tun.outcomeCount + 1) % 65536
          readingTimer := s.tun.readingTimer && !out, queryTimer := s.tun.queryTimer && !out
          verifyTimer := s.tun.verifyTimer && !out } }
      (eventOf .tuner out false (tunerMoved .fault { s with fe := s.fe.giveUp }))) := by
  intro out
  have hopen : exchangeFailed o s = frontEndFault { s with fe := s.fe.giveUp } := by
    unfold exchangeFailed
    rw [h, ha]
    cases hcmd : o.cmd with
    | standby => exact absurd hcmd hc
    | tune b r k p => rfl
    | query => rfl
  have hgoto : tunerGoto .fault { s with fe := s.fe.giveUp }
      = eventOf .tuner out false (tunerMoved .fault { s with fe := s.fe.giveUp }) := tunerGoto_eq _ _
  have hrest := eventOf_rest .tuner out false (tunerMoved .fault { s with fe := s.fe.giveUp })
  rw [hopen, frontEndFault, hgoto, longOutcome_eq]
  generalize eventOf .tuner out false _ = e at hrest ⊢
  rw [hrest]
  have hl : listens TunerState.fault = false := rfl
  simp only [updTun, afterCarrying, tunerMoved, tunerParts, hl, Bool.not_false, Bool.and_true, Bool.false_and,
    notice_stopped, out, FrontEnd.giveUp, FrontEnd.abandon, Option.map_none, ite_self]

theorem normWeak_raise (s : State) :
    normWeak (raise .tuner s) = raise .tuner { s with tun := { s.tun with weak := weakKept s } } := by
  have hkeep : ∀ a d, weakKept { s with att := a, dirty := d } = weakKept s := fun _ _ => rfl
  rw [normWeak_eq]
  unfold raise
  split <;> rfl

/-- The weak count where the decoder is only told to stop (R178). -/
theorem weakKept_stopped (s : State) (was : Bool) (x : Station) (h : s.sd = bitsStopped was x) :
    weakKept s = weakKept { s with sd := x } := by
  have hkeep : s.sd.confirmed = x.confirmed ∧ s.sd.af = x.af := by
    rw [h]
    cases was <;> exact ⟨rfl, rfl⟩
  unfold weakKept afActive stationCode
  simp only [hkeep.1, hkeep.2]

/-- A tuner of which a response has changed nothing that its failure goes by. -/
structure SameOperation (x y : Tuner) : Prop where
  state : y.state = x.state
  takes : takingBits y = takingBits x
  weak : y.weak = x.weak
  count : y.outcomeCount = x.outcomeCount
  reading : y.readingTimer = x.readingTimer
  query : y.queryTimer = x.queryTimer
  verify : y.verifyTimer = x.verifyTimer

theorem SameOperation.refl (x : Tuner) : SameOperation x x := ⟨rfl, rfl, rfl, rfl, rfl, rfl, rfl⟩

/-- A step of the line and the tuner alone. -/
theorem tunerOwn_weak {g : State → State} {s : State} {f : FrontEnd} {y : Tuner} (h : s.rstnLow = false)
    (hg : g s = { s with fe := f, tun := y }) (hy : y.weak = s.tun.weak) :
    ∃ t, act (fun x => normWeak (g x)) s = .next t ∧ OwnStep [] s { s with fe := f, tun := { y with weak := t.tun.weak } } t
      ∧ t.tun.weak = weakKept { s with tun := { y with weak := s.tun.weak } } := by
  have hweak : weakKept { s with fe := f, tun := y } = weakKept { s with tun := { y with weak := s.tun.weak } } := by
    rw [← hy]
    rfl
  obtain ⟨t, ht, hown⟩ := tunerOwn (fun x => normWeak (g x)) s
    { s with fe := f, tun := { y with weak := weakKept { s with tun := { y with weak := s.tun.weak } } } } h
    (by rw [hg, normWeak_eq, hweak])
  have ht' : t.tun.weak = weakKept { s with tun := { y with weak := s.tun.weak } } := by rw [hown.rest]
  exact ⟨t, ht, ht' ▸ hown, ht'⟩

section Failure

variable {g : State → State} {o : Outstanding} {s : State} {f : FrontEnd} {y : Tuner} (h : s.rstnLow = false)
  (hg : g s = exchangeFailed o { s with fe := f, tun := y }) (hy : y.weak = s.tun.weak)

include h hg hy

/-- A first failure sends the frame again (R160). -/
theorem failed_first (ho : o.resent = false) :
    ∃ t, act (fun x => normWeak (g x)) s = .next t
      ∧ OwnStep [] s { s with fe := resentOnce o f, tun := { y with weak := t.tun.weak } } t
      ∧ t.tun.weak = weakKept { s with tun := { y with weak := s.tun.weak } } :=
  tunerOwn_weak h (hg.trans (exchangeFailed_first o _ ho)) hy

/-- A second failure of an abandoned command ends its exchange (R160). -/
theorem failed_abandoned (ho : o.resent = true) (ha : o.abandoned = true) :
    ∃ t, act (fun x => normWeak (g x)) s = .next t
      ∧ OwnStep [] s { s with fe := exchangeOver f, tun := { y with weak := t.tun.weak } } t
      ∧ t.tun.weak = weakKept { s with tun := { y with weak := s.tun.weak } } :=
  tunerOwn_weak h (hg.trans (exchangeFailed_abandoned o _ ho ha)) hy

/-- A second failure of STANDBY is reported (R160). -/
theorem failed_standby (ho : o.resent = true) (ha : o.abandoned = false) (hc : o.cmd = .standby) :
    ∃ t, act (fun x => normWeak (g x)) s = .next t
      ∧ OwnStep [] s { s with
          fe := f.giveUp, att := told s.att
          tun := { y with
            outcome := .feFault, outcomeCount := (y.outcomeCount + 1) % 65536
            weak := weakKept { s with tun := { y with weak := s.tun.weak } } } } t := by
  set z : State := { s with
    fe := f.giveUp
    tun := { y with
      outcome := .feFault, outcomeCount := (y.outcomeCount + 1) % 65536
      weak := weakKept { s with tun := { y with weak := s.tun.weak } } } } with hz
  have hz' : normWeak (g s) = raise .tuner z := by
    rw [hg, exchangeFailed_standby o _ ho ha hc, longOutcome_eq, normWeak_raise, hz, ← hy]
    rfl
  refine ownStep_of_eq _ [] s _ _ h hz' ?_ rfl rfl (setsMarks_told s z rfl rfl) told_station
  rw [raise_tuner]

/-- A second failure of another command brings FAULT (R160). -/
theorem failed_fault (hs : SameOperation s.tun y) (ho : o.resent = true) (ha : o.abandoned = false)
    (hc : o.cmd ≠ .standby) :
    let out := listens s.tun.state
    ∃ t, act (fun x => normWeak (g x)) s = .next t
      ∧ TunerStep out false s { s with
          fe := f.giveUp, att := told s.att, sd := bitsStopped (takingBits s.tun) s.sd
          meas := if out = true then readingAbandoned s.meas else s.meas
          tun := { y with
            state := .fault, settleTimer := false, outcome := .feFault
            outcomeCount := (s.tun.outcomeCount + 1) % 65536
            weak := weakKept { s with tun := { y with weak := s.tun.weak } }
            readingTimer := s.tun.readingTimer && !out, queryTimer := s.tun.queryTimer && !out
            verifyTimer := s.tun.verifyTimer && !out } } t := by
  intro out
  have hform := exchangeFailed_fault o { s with fe := f, tun := y } ho ha hc
  dsimp only at hform
  rw [hs.state, hs.takes, hs.count, hs.reading, hs.query, hs.verify] at hform
  refine tunerStep_told (fun x => normWeak (g x)) out false s { s with
      fe := f.giveUp, sd := bitsStopped (takingBits s.tun) s.sd
      meas := if out = true then readingAbandoned s.meas else s.meas
      tun := { y with
        state := .fault, settleTimer := false, outcome := .feFault
        outcomeCount := (s.tun.outcomeCount + 1) % 65536
        weak := weakKept { s with tun := { y with weak := s.tun.weak } }
        readingTimer := s.tun.readingTimer && !out, queryTimer := s.tun.queryTimer && !out
        verifyTimer := s.tun.verifyTimer && !out } }
    (tunerMoved .fault { s with fe := f.giveUp, tun := y }) h ?_
  show normWeak (g s) = _
  rw [hg, hform, normWeak_raise]
  refine congrArg (raise .tuner) ?_
  rw [weakKept_stopped _ (takingBits s.tun) s.sd rfl, ← hy]
  rfl

end Failure

/-! ### Accepted responses (R159, R163, R164, R172) -/

theorem setPilot_eq (on : Bool) (s : State) : setPilot on s = { s with tun := pilotTaken on s.tun } := by
  have hst : (s.tun.stereo && (on || !s.tun.pilot))
      = if s.tun.pilot = true ∧ on = false then false else s.tun.stereo := by
    cases s.tun.pilot <;> cases on <;> simp
  have hopen : setPilot on s = { s with
      tun := { s.tun with pilot := on, stereo := s.tun.stereo && (on || !s.tun.pilot) } } := rfl
  rw [hopen, hst]
  rfl

/-- The tuned band and code of a response change nothing of the decoder where it takes bits neither before nor after,
or where the band stays (R163, R178). -/
theorem setTuned_eq (band : Band) (code : Nat) (s : State) (h : listens s.tun.state = false ∨ s.tun.tunedBand = band) :
    setTuned band code s = { s with tun := { s.tun with tunedBand := band, tunedCode := code } } := by
  have htake : takingBits { s.tun with tunedBand := band, tunedCode := code } = takingBits s.tun := by
    rcases h with h | h
    · rw [takingBits_away h]
      exact takingBits_away h
    · rw [← h]
      rfl
  have hstay : s.sd.notice (takingBits s.tun) (takingBits s.tun) = s.sd := if_pos rfl
  have hopen : setTuned band code s = { s with
      tun := { s.tun with tunedBand := band, tunedCode := code }
      sd := s.sd.notice (takingBits s.tun) (takingBits { s.tun with tunedBand := band, tunedCode := code }) } := rfl
  rw [hopen, htake, hstay]

/-- The state in which an accepted response finds its exchange. -/
def responded (body : List Byte) (rest : List RxChar) (s : State) : State :=
  { s with
    fe := { s.fe with rxQueue := rest, assembler := .hunt, responseTimer := false }
    tun := pilotTaken ((body.getD 1 0).getLsbD 1) s.tun }

section Response

variable {o : Outstanding} {body : List Byte} {rest : List RxChar} {s : State} (hc : FrameCompletes s.fe body rest)
  (ho : s.fe.outstanding = some o) (ha : answersTo o.cmd body)

include hc ho ha

/-- The assembler's expiry that completes a matching response. -/
theorem assemblerExpiry_response : assemblerExpiry s
    = match o.cmd with
      | .tune band _ code purpose =>
        tuneAccepted o band code purpose ((body.getD 1 0).getLsbD 0) ((body.getD 1 0).getLsbD 2) (responded body rest s)
      | .query | .standby =>
        if (body.getD 1 0).getLsbD 2 then exchangeFailed o (responded body rest s)
        else updFe FrontEnd.endExchange (responded body rest s) := by
  obtain ⟨c, len, hq, has, hlen, hgap, hbrk, hpar, hfra, hove, hsum⟩ := hc
  have htake : s.fe.assembler.take c = (.hunt, some body) := by
    have herr : c.isError = false := by simp [RxChar.isError, hbrk, hpar, hfra, hove]
    unfold Assembler.take
    rw [herr, hgap, has]
    show (Assembler.body len body).feed c.data = _
    unfold Assembler.feed
    dsimp only
    rw [if_neg (Nat.not_lt.mpr hlen), if_pos ((sum_zero_iff _ _ _).mpr hsum)]
  have hopen : assemblerExpiry s
      = responseAccepted o body { s with fe := { s.fe with rxQueue := rest, assembler := .hunt } } := by
    unfold assemblerExpiry
    rw [hq]
    dsimp only
    rw [htake, hbrk]
    show frameHanded body { s with fe := { s.fe with rxQueue := rest, assembler := .hunt } } = _
    unfold frameHanded
    dsimp only
    rw [ho]
    exact if_pos ((matches_iff _ _).mpr ha)
  rw [hopen]
  unfold responseAccepted
  dsimp only
  rw [setPilot_eq]
  rfl

/-- An accepted response to QUERY or STANDBY. -/
theorem response_plain (hk : o.cmd ∈ [FeCommand.query, .standby]) : assemblerExpiry s
    = if (body.getD 1 0).getLsbD 2 then exchangeFailed o (responded body rest s)
      else updFe FrontEnd.endExchange (responded body rest s) := by
  rw [assemblerExpiry_response hc ho ha]
  cases hcmd : o.cmd with
  | tune b r k p => simp [hcmd] at hk
  | query | standby => rfl

variable {band : Band} {region : Region} {code : Nat} {purpose : TunePurpose}
  (hk : o.cmd = .tune band region code purpose)

include hk

/-- An accepted response to a TUNE that has not locked. -/
theorem response_unlocked (hl : (body.getD 1 0).getLsbD 0 = false) : assemblerExpiry s
    = if (body.getD 1 0).getLsbD 2 || unlockedFails purpose then exchangeFailed o (responded body rest s)
      else if o.abandoned then updFe FrontEnd.endExchange (responded body rest s)
      else tuneEnded purpose false (updFe FrontEnd.endExchange (responded body rest s)) := by
  rw [assemblerExpiry_response hc ho ha, hk]
  dsimp only
  rw [hl]
  rfl

/-- An accepted response to a TUNE that has locked. -/
theorem response_locked (hl : (body.getD 1 0).getLsbD 0 = true)
    (hb : listens s.tun.state = false ∨ s.tun.tunedBand = band) :
    let w : State := { responded body rest s with
      tun := { (responded body rest s).tun with tunedBand := band, tunedCode := code } }
    assemblerExpiry s = if (body.getD 1 0).getLsbD 2 then exchangeFailed o w
      else if o.abandoned then updFe FrontEnd.endExchange w
      else tuneEnded purpose true (updFe FrontEnd.endExchange w) := by
  intro w
  have htuned : setTuned band code (responded body rest s) = w := setTuned_eq band code _ hb
  rw [assemblerExpiry_response hc ho ha, hk]
  dsimp only
  rw [hl, ← htuned]
  unfold tuneAccepted
  simp only [if_true, Bool.not_true, Bool.false_and, Bool.or_false]

end Response

/-- Settles O55, by the response and the purpose of its command. -/
theorem exchangesEndOrFail : Obligations.ExchangesEndOrFail := by
  unfold Obligations.ExchangesEndOrFail
  refine ⟨fun o body rest s h hc ho ha => ?_, fun o body rest s h hc ho ha hre => ?_, fun s h => ?_⟩
  · intro st locked fault f x into
    have hexec : exec .assemblerTimerExpiry s = act (fun t => normWeak (assemblerExpiry t)) s := rfl
    have hinto : ∀ (y : Tuner) (fe : FrontEnd), y.weak = s.tun.weak →
        assemblerExpiry s = { s with fe := fe, tun := y } → into y fe := fun y fe hy hg => tunerOwn_weak h hg hy
    have hend : ∀ w : State, w.fe = f → updFe FrontEnd.endExchange w = { w with fe := exchangeOver f } := fun w hw => by
      rw [updFe, endExchange_eq, hw]
    have hover : updFe FrontEnd.endExchange (responded body rest s) = { s with fe := exchangeOver f, tun := x } :=
      hend _ rfl
    refine ⟨fun hcmd => ?_, fun band region code purpose hcmd => ?_⟩
    · have hform := response_plain hc ho ha hcmd
      refine ⟨fun hf => hinto _ _ rfl ?_, fun hf hre => hinto _ _ rfl ?_⟩
      · rw [hform, show (body.getD 1 0).getLsbD 2 = false from hf, hover]
        rfl
      · rw [hform, if_pos hf, exchangeFailed_first o _ hre]
        rfl
    intro y settles
    have haway : s.tun.state ∉ [TunerState.listening, .verifying] → listens s.tun.state = false := fun hst => by
      rw [listens_iff]
      simpa using hst
    set w : State := { s with fe := f, tun := y } with hw
    have hlocked : locked = true → (listens s.tun.state = false ∨ s.tun.tunedBand = band) → assemblerExpiry s
        = if fault = true then exchangeFailed o w
          else if o.abandoned = true then { s with fe := exchangeOver f, tun := y }
          else tuneEnded purpose true { s with fe := exchangeOver f, tun := y } := fun hl hb => by
      have hform := response_locked hc ho ha hcmd hl hb
      dsimp only at hform
      rw [hform, hend _ rfl]
      rfl
    have hunlocked : locked = false → assemblerExpiry s
        = if (fault || unlockedFails purpose) = true then exchangeFailed o { s with fe := f, tun := x }
          else if o.abandoned = true then { s with fe := exchangeOver f, tun := x }
          else tuneEnded purpose false { s with fe := exchangeOver f, tun := x } := fun hl => by
      rw [response_unlocked hc ho ha hcmd hl, hover]
      rfl
    have hstep : locked = false → fault = false → o.abandoned = false → unlockedFails purpose = false →
        assemblerExpiry s = tuneEnded purpose false { s with fe := exchangeOver f, tun := x } := fun hl hf hab hp => by
      rw [hunlocked hl, hf, hp, hab]
      rfl
    have lineStep : ∀ {T : Tuner} {cmd : FeCommand},
        assemblerExpiry s = { s with fe := (exchangeOver f).send cmd, tun := T } →
        weakKept { s with tun := T } = weakKept s →
        ∃ t, exec .assemblerTimerExpiry s = .next t
          ∧ OwnStep [] s { s with fe := t.fe, tun := { T with weak := weakKept s } } t
          ∧ SentOnLine (fun _ => false) cmd (exchangeOver f) t.fe := fun {T cmd} hg hw => by
      obtain ⟨t, ht, hown⟩ := tunerOwn (fun x => normWeak (assemblerExpiry x)) s
        { s with fe := (exchangeOver f).send cmd, tun := { T with weak := weakKept s } } h
        (by rw [hg, normWeak_eq, ← hw]; rfl)
      have hfe : t.fe = (exchangeOver f).send cmd := by rw [hown.rest]
      exact ⟨t, ht, hfe ▸ hown, hfe ▸ sent_plain _ _⟩
    refine ⟨fun hre hl hor => ?_, fun hre hl hf hst => ?_, fun hf hab => ⟨fun hl hst => ?_, fun hl hp => ?_⟩,
      fun hf hl hab => ⟨fun hp hst => ?_, fun hp hst => ?_, fun hp hst => ?_, fun hp hb => ?_⟩,
      fun hf hl hab hp hst k left htodo => ?_, fun hf hl hab hp hst htodo => ?_, fun hf hl hab hp hst => ?_⟩
    · refine hinto _ _ rfl ?_
      have hfails : (fault || unlockedFails purpose) = true := by
        rcases hor with hf | hp
        · rw [hf]
          rfl
        · have : unlockedFails purpose = true := by
            simp only [List.mem_cons, List.not_mem_nil, or_false] at hp
            rcases hp with rfl | rfl | rfl <;> rfl
          rw [this, Bool.or_true]
      rw [hunlocked hl, if_pos hfails, exchangeFailed_first o _ hre]
    · refine hinto _ _ rfl ?_
      rw [hlocked hl (.inl (haway hst)), if_pos hf, exchangeFailed_first o _ hre]
    · refine hinto _ _ rfl ?_
      rw [hlocked hl (.inl (haway hst)), if_neg (by rw [hf]; simp), if_pos hab]
    · refine hinto _ _ rfl ?_
      have hno : unlockedFails purpose = false := by
        simp only [List.mem_cons, List.not_mem_nil, or_false] at hp
        rcases hp with rfl | rfl <;> rfl
      rw [hunlocked hl, hf, hno, if_neg (by simp), if_pos hab]
    · refine hinto _ _ rfl ?_
      have hlis : listens s.tun.state = false := by rw [hst]; rfl
      rw [hlocked hl (.inl hlis), if_neg (by rw [hf]; simp), if_neg (by rw [hab]; simp), hp]
      have hgoto := tunerGoto_still .settling ({ s with fe := exchangeOver f, tun := y }) hlis rfl
      exact (congrArg (updTun fun t => { t with settleTimer := true }) hgoto).trans rfl
    · refine hinto _ _ rfl ?_
      have hlis : listens s.tun.state = false := by rw [hst]; rfl
      rw [hlocked hl (.inl hlis), if_neg (by rw [hf]; simp), if_neg (by rw [hab]; simp), hp]
      rfl
    · refine hinto _ _ rfl ?_
      have hlis : listens s.tun.state = false := by rw [hst]; rfl
      rw [hlocked hl (.inl hlis), if_neg (by rw [hf]; simp), if_neg (by rw [hab]; simp)]
      simp only [List.mem_cons, List.not_mem_nil, or_false] at hp
      rcases hp with rfl | rfl <;> rfl
    · refine hinto _ _ rfl ?_
      rw [hlocked hl (.inr hb), if_neg (by rw [hf]; simp), if_neg (by rw [hab]; simp), hp]
      rfl
    · have hform := hstep hl hf hab (by rw [hp]; rfl)
      rw [hp] at hform
      exact lineStep (hform.trans (probeNext_candidate { s with fe := exchangeOver f, tun := x } k left htodo)) rfl
    · have hform := hstep hl hf hab (by rw [hp]; rfl)
      rw [hp] at hform
      intro p
      refine ⟨fun y n hbest hmean => ?_, fun hno => ?_⟩
      · exact lineStep (hform.trans
          (probeNext_switch { s with fe := exchangeOver f, tun := x } y n htodo hbest hmean)) rfl
      · have hlis : listens x.state = false := by
          rw [show x.state = .probing from hst]
          rfl
        have hend := (hform.trans (probeNext_stays { s with fe := exchangeOver f, tun := x } htodo hno)).trans
          (probeNoSwitch_eq { s with fe := exchangeOver f, tun := x } hlis)
        obtain ⟨t, ht, hown⟩ := tunerOwn (fun x => normWeak (assemblerExpiry x)) s { s with
            fe := ((exchangeOver f).abandon (abandonsOf false)).send (.tune p.band s.tun.region p.original .plain)
            meas := readingAbandoned s.meas
            tun := { x with
              state := .tuning, reason := .noSwitch, backoff := true, weak := 0, settleTimer := false
              verifyTimer := false } } h (by rw [hend, normWeak_eq, weakKept_backoff _ rfl]; rfl)
        have hfe : t.fe = ((exchangeOver f).abandon (abandonsOf false)).send
          (.tune p.band s.tun.region p.original .plain) := by rw [hown.rest]
        exact ⟨t, ht, hfe ▸ hown, hfe ▸ sent_of_abandon _ _ _⟩
    · have hform := hstep hl hf hab (by rw [hp]; rfl)
      rw [hp] at hform
      intro k top step
      have hlis : listens x.state = false := by
        rw [show x.state = .seeking from hst]
        rfl
      refine ⟨fun hne => ?_, fun heq => ?_⟩
      · exact lineStep (hform.trans (seekNext_next { s with fe := exchangeOver f, tun := x } hne)) rfl
      · have hend := hform.trans (seekNext_wrapped { s with fe := exchangeOver f, tun := x } hlis heq)
        obtain ⟨t, ht, hstat⟩ := tunerRetargeted assemblerExpiry s { s with
            tun := { x with
              state := .tuning, band := k.band, code := k.start, reason := .seekWrapped, settleTimer := false
              verifyTimer := false }
            fe := ((exchangeOver f).abandon (abandonsOf false)).send (.tune k.band s.tun.region k.start .plain)
            meas := readingAbandoned s.meas
            sd := { s.sd with af := afWithout k.start x.code s.sd.af }
            agent := { s.agent with queue := queueWith s.agent.queue (targetAsked k.band k.start x) } } h hend
        have hfe : t.fe = ((exchangeOver f).abandon (abandonsOf false)).send
          (.tune k.band s.tun.region k.start .plain) := by rw [hstat.rest]
        exact ⟨t, ht, hfe ▸ hstat, hfe ▸ sent_of_abandon _ _ _⟩
  · intro st locked fault f x lis out given toldNow y hy faulted
    have hexec : exec .assemblerTimerExpiry s = act (fun t => normWeak (assemblerExpiry t)) s := rfl
    have hout : listens s.tun.state = out := by
      rw [listens_iff]
      exact decide_eq_decide.mpr (by simp [lis])
    have hg : assemblerExpiry s = exchangeFailed o { s with fe := f, tun := y } ∧ SameOperation s.tun y := by
      rcases hy with ⟨hcmd, hf, rfl⟩ | ⟨band, region, code, purpose, hcmd, ⟨hl, rfl, hor⟩ | ⟨hl, hf, haway, rfl⟩⟩
      · refine ⟨?_, rfl, rfl, rfl, rfl, rfl, rfl, rfl⟩
        rw [response_plain hc ho ha hcmd, if_pos hf]
        rfl
      · refine ⟨?_, rfl, rfl, rfl, rfl, rfl, rfl, rfl⟩
        have hfails : (fault || unlockedFails purpose) = true := by
          rcases hor with hf | hp
          · rw [hf]
            rfl
          · have : unlockedFails purpose = true := by
              simp only [List.mem_cons, List.not_mem_nil, or_false] at hp
              rcases hp with rfl | rfl | rfl <;> rfl
            rw [this, Bool.or_true]
        rw [response_unlocked hc ho ha hcmd hl, if_pos hfails]
        rfl
      · have hlis : listens s.tun.state = false := by
          rw [hout]
          simpa [out] using haway
        refine ⟨?_, rfl, ?_, rfl, rfl, rfl, rfl, rfl⟩
        · have hform := response_locked hc ho ha hcmd hl (.inl hlis)
          dsimp only at hform
          rw [hform, if_pos hf]
          rfl
        · rw [takingBits_away hlis]
          exact takingBits_away hlis
    obtain ⟨hg, hs⟩ := hg
    have hcount : faulted.outcomeCount = (y.outcomeCount + 1) % 65536 := by rw [hs.count]
    refine ⟨fun hab => ?_, fun hab hcmd => ?_, fun hab hcmd => ?_⟩
    · obtain ⟨t, ht, hown, hw⟩ := failed_abandoned h hg hs.weak hre hab
      exact ⟨t, ht, by rw [hw] at hown; exact hown⟩
    · obtain ⟨t, ht, hown⟩ := failed_standby h hg hs.weak hre hab hcmd
      rw [hs.count] at hown
      exact ⟨t, ht, hown⟩
    · rw [← hout]
      exact failed_fault (y := y) h hg hs.weak hs hre hab hcmd
  · intro f b into faulted given toldNow out
    have hexec : exec .responseTimerExpiry s = act (fun t => normWeak (responseExpiry t)) s := rfl
    have hout : listens s.tun.state = out := listens_iff _
    refine ⟨fun hoff => ?_, fun hon hno => ?_, fun o hon ho => ?_⟩
    · exact tunerIdle responseExpiry s h (if_neg (by rw [hoff]; simp))
    · have hform : responseExpiry s = { s with fe := f } := by
        unfold responseExpiry
        rw [if_pos hon]
        dsimp only
        rw [show s.fe.outstanding = none from hno]
        rfl
      exact tunerOwn (fun x => normWeak (responseExpiry x)) s
        { s with fe := f, tun := { s.tun with weak := weakKept s } } h (by rw [hform, normWeak_eq]; rfl)
    · have hg : responseExpiry s = exchangeFailed o { s with fe := f, tun := s.tun } := by
        unfold responseExpiry
        rw [if_pos hon]
        dsimp only
        rw [show s.fe.outstanding = some o from ho]
        rfl
      refine ⟨fun hre => ?_, fun hre hab => ?_, fun hre hab hcmd => ?_, fun hre hab hcmd => ?_⟩
      · obtain ⟨t, ht, hown, hw⟩ := failed_first h hg rfl hre
        exact ⟨t, ht, by rw [hw] at hown; exact hown⟩
      · obtain ⟨t, ht, hown, hw⟩ := failed_abandoned h hg rfl hre hab
        exact ⟨t, ht, by rw [hw] at hown; exact hown⟩
      · exact failed_standby h hg rfl hre hab hcmd
      · rw [← hout]
        exact failed_fault (y := s.tun) h hg rfl (.refl _) hre hab hcmd

end Sys2Proof.Machine

end

/-! The converter's choice of its next conversion, and the readings it hands to the tuner (R140, R144, R145, R163, R167,
R172 to R174). -/

section

set_option autoImplicit false

namespace Sys2Proof.Machine

/-! ### The converter's choice (R145) -/

theorem startOnDemand_front (m : Meas) (q : OnDemand) (rest : List OnDemand) :
    startOnDemand { m with queue := q :: rest } = { m with
      queue := if q = .selfCheck false then .selfCheck true :: rest else rest
      hostStatus := if q = .host then .converting else m.hostStatus
      conv := some (match q with
        | .tuner x => ⟨.tuner x, 9, 1⟩
        | .host => ⟨.host, m.hostInput, m.hostDivider⟩
        | .selfCheck false => ⟨.ref, 10, 1⟩
        | .selfCheck true => ⟨.halfRef, 11, 1⟩) } := by
  cases q with
  | selfCheck b => cases b <;> rfl
  | _ => rfl

theorem conversionChosen (m : Meas) : ConversionChosen m (chooseConversion m) := by
  refine ⟨fun hq hno => ?_, fun hq hrr hlen => ?_, fun q rest hq hor => ?_⟩
  · unfold chooseConversion
    rw [if_neg (by simp [hq]), if_neg (by rintro ⟨h1, h2⟩; rcases hno with h | h <;> simp_all), startOnDemand, hq]
  · intro e
    have hfields : e.input = e.w0.toNat % 16 ∧ e.divider = e.w0.toNat / 256 % 8 := by
      simp [Entry.input, Entry.divider, field]
    unfold chooseConversion
    rw [if_neg (by rintro ⟨h1, h2⟩; rcases hq with h | h; exacts [h1 h, absurd h2 (by omega)]),
      if_pos ⟨hrr, by omega⟩, ← hfields.1, ← hfields.2]
    rfl
  · have hne : m.queue ≠ [] := by simp [hq]
    have hfront : startOnDemand m = _ :=
      (congrArg startOnDemand (show m = { m with queue := q :: rest } by rw [← hq])).trans (startOnDemand_front m q rest)
    unfold chooseConversion
    rw [hfront]
    by_cases hc : m.onDemandCount < 2
    · rw [if_pos ⟨hne, hc⟩]
      simp only [if_pos hc] <;> rfl
    · rw [if_neg (fun h => hc h.2), if_neg (by rintro ⟨h1, h2⟩; rcases hor with h | h | h <;> simp_all)]
      simp only [if_neg hc] <;> rfl

/-- One expiry of the converter's timer, before the weak count follows. -/
def converterDone (v : Int) (s : State) : State :=
  match completedRssi v s with
  | some code => deliverRssi code (converterExpiry v s)
  | none => converterExpiry v s

theorem exec_converter (v : Int) (s : State) :
    exec (.converterTimerExpiry v) s = act (fun x => normWeak (converterDone v x)) s := rfl

/-! ### A reading for the tuner (R163, R172, R173) -/

/-- The tuner after the blend has taken a reading (R172). -/
theorem blend_eq (x : Tuner) (code : Nat) :
    let low := if code < x.blendThr then x.lowRun + 1 else 0
    let high := if x.blendThr + 16 ≤ code then x.highRun + 1 else 0
    x.blend code = { x with
      lowRun := low, highRun := high
      stereo := if x.tunedBand = .am ∨ 3 ≤ low then false else if 3 ≤ high ∧ x.pilot = true then true else x.stereo } := by
  intro low high
  have hst : (if x.tunedBand = .am then false else if 3 ≤ low then false
        else if 3 ≤ high ∧ x.pilot = true then true else x.stereo)
      = if x.tunedBand = .am ∨ 3 ≤ low then false else if 3 ≤ high ∧ x.pilot = true then true else x.stereo := by
    by_cases h1 : x.tunedBand = .am <;> by_cases h2 : 3 ≤ low <;> simp [h1, h2]
  rw [← hst]
  rfl

section Delivery

variable (code : Nat) (s : State)

theorem deliverRssi_idle (h : s.tun.state ∈ [TunerState.off, .tuning, .settling, .fault]) :
    deliverRssi code s = { s with tun := { s.tun with lastRssi := code } } := by
  simp only [List.mem_cons, List.not_mem_nil, or_false] at h
  unfold deliverRssi
  rcases h with h | h | h | h <;> rw [h] <;> rfl

theorem deliverRssi_verifying (h : s.tun.state = .verifying) :
    deliverRssi code s = { s with tun := ({ s.tun with lastRssi := code } : Tuner).blend code } := by
  unfold deliverRssi
  rw [h]
  rfl

theorem deliverRssi_listening (h : s.tun.state = .listening) :
    deliverRssi code s = updTun (fun t => { t with previous := code })
      (weakReading code { s with tun := ({ s.tun with lastRssi := code } : Tuner).blend code }) := by
  unfold deliverRssi
  rw [h]
  rfl

theorem deliverRssi_step (h : s.tun.state ∈ [TunerState.seeking, .probing]) :
    deliverRssi code s = stepReading code { s with tun := { s.tun with lastRssi := code } } := by
  simp only [List.mem_cons, List.not_mem_nil, or_false] at h
  unfold deliverRssi
  rcases h with h | h <;> rw [h] <;> rfl

theorem stepReading_none (h : s.tun.phase ∈ [StepPhase.exchange, .settling]) : stepReading code s = s := by
  simp only [List.mem_cons, List.not_mem_nil, or_false] at h
  unfold stepReading
  rcases h with h | h <;> rw [h]

theorem stepReading_first (h : s.tun.phase = .firstReading) : stepReading code s = { s with
    meas := readingAsked s.meas, tun := { s.tun with phase := .secondReading code } } := by
  unfold stepReading
  rw [h]
  dsimp only
  rw [requestRssi_eq]
  rfl

theorem stepReading_second (first : Nat) (h : s.tun.phase = .secondReading first) :
    stepReading code s = stepRated ((first + code) / 2) s := by
  unfold stepReading
  rw [h]

end Delivery

/-- The earliest best rating of a probe (R174). -/
theorem rate_eq (p : Probe) (mean : Nat) : p.rate mean = { p with
    best := match p.best with
      | some (y, n) => if n < mean then some (p.current, mean) else some (y, n)
      | none => some (p.current, mean) } := by
  unfold Probe.rate
  cases hb : p.best with
  | none => rfl
  | some b =>
    dsimp only
    split
    · rfl
    · rw [← hb]

/-- A seek has found a station (R167). -/
theorem seekFound_eq (s : State) (h : listens s.tun.state = false) :
    let k := s.tun.seek
    seekFound s = raise .tuner (tunerParts { s with
        tun := { readingsBegun s.tun with
          state := .listening, band := k.band, code := k.step, weak := 0
          outcome := .seekFound, outcomeCount := (s.tun.outcomeCount + 1) % 65536 }
        sd := bitsMoved false (decide (s.tun.tunedBand = .fm)) s.sd.clearContent
        agent := { s.agent with queue := queueWith s.agent.queue (targetAsked k.band k.step s.tun) } }
      (eventOf .tuner false true (tunerParts (tunerMoved .listening
        (updSd Station.clearContent (ownTarget k.band k.step s))) s))) := by
  intro k
  have hopen : seekFound s = longOutcome .seekFound (enterListening (updSd Station.clearContent (ownTarget k.band k.step s))) := rfl
  have htarget : updSd Station.clearContent (ownTarget k.band k.step s) = { s with
      tun := { s.tun with band := k.band, code := k.step }, sd := s.sd.clearContent
      agent := { s.agent with queue := queueWith s.agent.queue (targetAsked k.band k.step s.tun) } } := by
    rw [ownTarget_eq]
    rfl
  have hsd : decoderEntered s.tun s.sd.clearContent = bitsMoved false (decide (s.tun.tunedBand = .fm)) s.sd.clearContent := by
    unfold decoderEntered
    rw [takingBits_away h]
    have htwice : s.sd.clearContent.clearContent = s.sd.clearContent := rfl
    rw [htwice, ite_self]
  rw [hopen, htarget, longOutcome_eq, enterListening_eq { s with
      tun := { s.tun with band := k.band, code := k.step }, sd := s.sd.clearContent
      agent := { s.agent with queue := queueWith s.agent.queue (targetAsked k.band k.step s.tun) } } h, ← hsd]
  rfl

/-! ### The weak count and the start of a probe (R173, R174) -/

theorem band_of_active {s : State} (h : afActive s = true) : s.tun.tunedBand = .fm := by
  simp only [afActive, Bool.and_eq_true, beq_iff_eq] at h
  obtain ⟨⟨⟨⟨⟨_, hband⟩, _⟩, _⟩, _⟩, _⟩ := h
  exact hband

/-- What leaving LISTENING and a plain tune behind it abandon (R160). -/
theorem abandons_left : abandonsOf true = fun c => c.needsListening || abandonsOf false c := by
  funext c
  cases c with
  | tune b r k p => cases p <;> rfl
  | _ => rfl

theorem weakReading_off (code : Nat) (s : State) (h : afActive s = false) : weakReading code s = s := by
  unfold weakReading
  rw [if_neg (by rw [h]; simp)]

theorem weakReading_counts (code : Nat) (s : State) (h : afActive s = true) :
    let w := if code < s.tun.afThr then s.tun.weak + 1 else 0
    w < 10 → weakReading code s = { s with tun := { s.tun with weak := w } } := by
  intro w hw
  unfold weakReading
  rw [if_pos h]
  exact if_neg (Nat.not_le.mpr hw)

theorem weakReading_probes (code : Nat) (s : State) (h : afActive s = true) :
    let w := if code < s.tun.afThr then s.tun.weak + 1 else 0
    10 ≤ w → weakReading code s = probeStart ((s.tun.previous + code) / 2) s := by
  intro w hw
  unfold weakReading
  rw [if_pos h]
  exact if_pos hw

/-- The probe that starts out of LISTENING (R173). -/
def probeOf (mean : Nat) (s : State) : Probe :=
  { band := s.tun.tunedBand, original := s.tun.tunedCode, mean := mean,
    todo := s.sd.af.filter fun code => code ≤ topCode s.tun.region .fm, current := 0, best := none,
    verifyCode := (stationCode s).getD 0, switching := false }

/-- The tuner's parts as a probe starts, before its first step. -/
def probeEntered (mean : Nat) (s : State) : State :=
  { s with
    meas := readingAbandoned s.meas, fe := s.fe.abandon FeCommand.needsListening, sd := bitsStopped true s.sd
    tun := { s.tun with
      state := .probing, weak := 0, readingTimer := false, queryTimer := false, verifyTimer := false
      probe := probeOf mean s } }

theorem probeStart_eq (mean : Nat) (s : State) (h : s.tun.state = .listening) (hb : s.tun.tunedBand = .fm) :
    probeStart mean s = probeNext (tunerParts (probeEntered mean s) (eventOf .tuner true false (tunerMoved .probing s))) := by
  have hl : listens s.tun.state = true := by rw [h]; rfl
  have htake : takingBits s.tun = true := by
    show (listens s.tun.state && _) = true
    rw [hl, hb]
    rfl
  have hopen : probeStart mean s
      = probeNext (updTun (fun t => { t with probe := probeOf mean s, weak := 0 }) (tunerGoto .probing s)) := rfl
  have hn : listens TunerState.probing = false := rfl
  have hmoved : tunerMoved .probing s = { s with
      meas := readingAbandoned s.meas, fe := s.fe.abandon FeCommand.needsListening, sd := bitsStopped true s.sd
      tun := { s.tun with
        state := .probing, readingTimer := false, queryTimer := false, verifyTimer := false } } := by
    unfold tunerMoved
    simp only [hl, hn, htake, notice_stopped, Bool.not_false, Bool.and_true, Bool.not_true, Bool.and_false,
      Bool.false_and, if_true]
  have hrest := eventOf_rest .tuner true false (tunerMoved .probing s)
  rw [hopen, tunerGoto_eq, hl, hn]
  generalize eventOf .tuner true false _ = e at hrest ⊢
  rw [hrest, hmoved]
  rfl

/-- A probe with a candidate sends its first step's TUNE (R174). -/
theorem probeStart_candidate (mean : Nat) (s : State) (h : s.tun.state = .listening) (hb : s.tun.tunedBand = .fm)
    (k : Nat) (rest : List Nat) (hc : (probeOf mean s).todo = k :: rest) :
    probeStart mean s = tunerParts { probeEntered mean s with
        fe := (s.fe.abandon FeCommand.needsListening).send (.tune s.tun.tunedBand s.tun.region k .probeStep)
        tun := { (probeEntered mean s).tun with
          phase := .exchange, probe := { probeOf mean s with todo := rest, current := k } } }
      (eventOf .tuner true false (tunerMoved .probing s)) := by
  rw [probeStart_eq mean s h hb, probeNext_candidate _ k rest hc]
  rfl

/-- A probe without a candidate ends at once (R174). -/
theorem probeStart_none (mean : Nat) (s : State) (h : s.tun.state = .listening) (hb : s.tun.tunedBand = .fm)
    (hc : (probeOf mean s).todo = []) :
    probeStart mean s = tunerParts { probeEntered mean s with
        fe := ((s.fe.abandon FeCommand.needsListening).abandon (abandonsOf false)).send
          (.tune s.tun.tunedBand s.tun.region s.tun.tunedCode .plain)
        tun := { (probeEntered mean s).tun with
          state := .tuning, backoff := true, reason := .noSwitch, settleTimer := false } }
      (eventOf .tuner true false (tunerMoved .probing s)) := by
  have hnone : ∀ y n, (probeOf mean s).best = some (y, n) → n < (probeOf mean s).mean + 24 := fun y n hbest => by
    simp [probeOf] at hbest
  rw [probeStart_eq mean s h hb, probeNext_stays _ hc hnone, probeNoSwitch_eq]
  · have hmeas := readingAbandoned_twice s.meas
    simp only [tunerParts, probeEntered, hmeas]
    rfl
  · rfl

theorem converterDone_reading (v : Int) (c : Conversion) (s : State) (h : s.meas.conv = some c)
    (ho : c.owner = .tuner false) : converterDone v s
      = deliverRssi (codeOf v c) { s with meas := chooseConversion { s.meas with conv := none } } := by
  have hcode : completedRssi v s = some (codeOf v c) := by
    unfold completedRssi
    rw [h]
    exact if_pos ho
  have hdone : completeConversion v s = { s with meas := { s.meas with conv := none } } := by
    unfold completeConversion
    rw [h]
    dsimp only
    rw [ho]
    rfl
  unfold converterDone
  rw [hcode]
  show deliverRssi _ (converterExpiry v s) = _
  rw [converterExpiry, hdone]
  rfl

/-- Settles O53, by the tuner's state and the step's phase. -/
theorem readingsDriveBlendProbeAndSteps : Obligations.ReadingsDriveBlendProbeAndSteps := by
  unfold Obligations.ReadingsDriveBlendProbeAndSteps
  intro v c s h hc ho code x m low high plain blended w codes into sends k top next
  have hm' := conversionChosen m
  set m' := chooseConversion m with hm
  have hform : converterDone v s = deliverRssi code { s with meas := m' } := converterDone_reading v c s hc ho
  set b : State := { s with meas := m', tun := { x with lastRssi := code } } with hb
  have hblend : ({ x with lastRssi := code } : Tuner).blend code = { blended with weak := x.weak } := blend_eq _ _
  have hinto : ∀ (T : Tuner) (g : Meas → Meas), converterDone v s = { s with meas := g m', tun := T } →
      into { T with weak := weakKept { s with tun := T } } g := fun T g hg => by
    obtain ⟨t, ht, hown⟩ := tunerOwn (fun x => normWeak (converterDone v x)) s
      { s with meas := g m', tun := { T with weak := weakKept { s with tun := T } } } h
      (by rw [hg, normWeak_eq]; rfl)
    exact ⟨t, ht, m', hm', hown⟩
  have hsends : ∀ (cmd : FeCommand) (T : Tuner), converterDone v s = { s with meas := m', fe := s.fe.send cmd, tun := T } →
      sends cmd { T with weak := weakKept { s with tun := T } } := fun cmd T hg => by
    obtain ⟨t, ht, hown⟩ := tunerOwn (fun x => normWeak (converterDone v x)) s
      { s with meas := m', fe := s.fe.send cmd, tun := { T with weak := weakKept { s with tun := T } } } h
      (by rw [hg, normWeak_eq]; rfl)
    have hfe : t.fe = s.fe.send cmd := by rw [hown.rest]
    exact ⟨t, ht, m', hm', hfe ▸ hown, hfe ▸ sent_plain _ _⟩
  refine ⟨fun hst => ?_, fun hst => ?_, fun hst ha => ?_, fun hst ha hw => ?_, fun hst ha hw k rest hcodes => ?_,
    fun hst ha hw hcodes => ?_, fun hst => ⟨fun hph => ?_, fun hph => ?_, fun first hph => ?_⟩⟩
  · refine hinto { x with lastRssi := code } id (hform.trans ?_)
    exact deliverRssi_idle code { s with meas := m' } hst
  · refine hinto { blended with weak := x.weak } id (hform.trans ?_)
    rw [deliverRssi_verifying code { s with meas := m' } hst, hblend]
    rfl
  · refine hinto { blended with weak := x.weak, previous := code } id (hform.trans ?_)
    rw [deliverRssi_listening code { s with meas := m' } hst, hblend, weakReading_off]
    · rfl
    · exact ha
  · have hdone : converterDone v s = { s with meas := id m', tun := { blended with weak := w, previous := code } } := by
      rw [hform, deliverRssi_listening code { s with meas := m' } hst, hblend, weakReading_counts]
      · rfl
      · exact ha
      · exact hw
    have hkeep : weakKept { s with tun := { blended with weak := w, previous := code } } = w := if_pos ha
    have := hinto _ id hdone
    rw [hkeep] at this
    exact this
  · have hfm : x.tunedBand = .fm := band_of_active ha
    set S : State := { s with meas := m', tun := { blended with weak := x.weak } } with hS
    have hdone : converterDone v s = updTun (fun t => { t with previous := code })
        (tunerParts { probeEntered ((x.previous + code) / 2) S with
          fe := (s.fe.abandon FeCommand.needsListening).send (.tune x.tunedBand x.region k .probeStep)
          tun := { (probeEntered ((x.previous + code) / 2) S).tun with
            phase := .exchange, probe := { probeOf ((x.previous + code) / 2) S with todo := rest, current := k } } }
          (eventOf .tuner true false (tunerMoved .probing S))) := by
      rw [hform, deliverRssi_listening code { s with meas := m' } hst, hblend, weakReading_probes]
      · exact congrArg _ (probeStart_candidate _ S hst hfm k rest hcodes)
      · exact ha
      · exact hw
    set F := (s.fe.abandon FeCommand.needsListening).send (.tune x.tunedBand x.region k .probeStep) with hF
    obtain ⟨t, ht, hstep⟩ := tunerStep (fun x => normWeak (converterDone v x)) true false s
      { s with
        meas := readingAbandoned m', fe := F, sd := bitsStopped true s.sd
        tun := { blended with
          state := .probing, phase := .exchange, previous := code, weak := 0, readingTimer := false,
          queryTimer := false, verifyTimer := false
          probe := { probeOf ((x.previous + code) / 2) S with todo := rest, current := k } } }
      (tunerMoved .probing S) h (by
        show normWeak (converterDone v s) = _
        rw [normWeak_zero (by rw [hdone]; rfl), hdone]
        rfl)
    have hfe : t.fe = F := by rw [hstep.rest]; rfl
    have hneeds : endsWithListening = FeCommand.needsListening := by
      funext c
      cases c with
      | tune b r k p => cases p <;> rfl
      | _ => rfl
    refine ⟨t, ht, m', hm', hfe ▸ hstep, ?_⟩
    rw [hfe, hneeds, ← hfm]
    exact sent_of_abandon _ _ _
  · have hfm : x.tunedBand = .fm := band_of_active ha
    set S : State := { s with meas := m', tun := { blended with weak := x.weak } } with hS
    have hdone : converterDone v s = updTun (fun t => { t with previous := code })
        (tunerParts { probeEntered ((x.previous + code) / 2) S with
          fe := ((s.fe.abandon FeCommand.needsListening).abandon (abandonsOf false)).send
            (.tune x.tunedBand x.region x.tunedCode .plain)
          tun := { (probeEntered ((x.previous + code) / 2) S).tun with
            state := .tuning, backoff := true, reason := .noSwitch, settleTimer := false } }
          (eventOf .tuner true false (tunerMoved .probing S))) := by
      rw [hform, deliverRssi_listening code { s with meas := m' } hst, hblend, weakReading_probes]
      · exact congrArg _ (probeStart_none _ S hst hfm hcodes)
      · exact ha
      · exact hw
    set F := ((s.fe.abandon FeCommand.needsListening).abandon (abandonsOf false)).send
      (.tune x.tunedBand x.region x.tunedCode .plain) with hF
    have hnone : probeOf ((x.previous + code) / 2) S = { probeOf ((x.previous + code) / 2) S with todo := [] } :=
      congrArg (fun l => ({ probeOf ((x.previous + code) / 2) S with todo := l } : Probe)) hcodes
    obtain ⟨t, ht, hstep⟩ := tunerStep (fun x => normWeak (converterDone v x)) true false s
      { s with
        meas := readingAbandoned m', fe := F, sd := bitsStopped true s.sd
        tun := { blended with
          state := .tuning, reason := .noSwitch, backoff := true, previous := code, weak := 0,
          settleTimer := false, readingTimer := false, queryTimer := false, verifyTimer := false
          probe := { probeOf ((x.previous + code) / 2) S with todo := [] } } }
      (tunerMoved .probing S) h (by
        show normWeak (converterDone v s) = _
        rw [normWeak_zero (by rw [hdone]; rfl), hdone, ← hnone]
        rfl)
    have hfe : t.fe = F := by rw [hstep.rest]; rfl
    refine ⟨t, ht, m', hm', hfe ▸ hstep, ?_⟩
    rw [hfe, hF, abandon_abandon, ← abandons_left]
    exact sent_of_abandon _ _ _
  · exact hinto { x with lastRssi := code } id (hform.trans ((deliverRssi_step code { s with meas := m' } hst).trans
      (stepReading_none code b hph)))
  · exact hinto { x with lastRssi := code, phase := .secondReading code } readingAsked
      (hform.trans ((deliverRssi_step code { s with meas := m' } hst).trans (stepReading_first code b hph)))
  · intro mean p best
    have hrated : converterDone v s = stepRated mean b :=
      hform.trans ((deliverRssi_step code { s with meas := m' } hst).trans (stepReading_second code b first hph))
    have hseek : x.state = .seeking → converterDone v s = if x.seekThr ≤ mean then seekFound b else seekNext b :=
      fun hs => hrated.trans (if_pos hs)
    have hprobe : x.state = .probing → converterDone v s = probeNext { b with
        tun := { b.tun with probe := { p with best := best } } } := fun hs => by
      rw [hrated, stepRated, if_neg (by rw [show b.tun.state = .probing from hs]; simp)]
      have hrate : p.rate mean = { p with best := best } := rate_eq p mean
      rw [← hrate]
      rfl
    refine ⟨fun hs hlow hne => ?_, fun hs hlow heq => ?_, fun hs hhigh => ?_, fun hs y rest htodo => ?_,
      fun hs htodo y n hbest hmean => ?_, fun hs htodo y n hbest hmean => ?_⟩
    · have hdone := (hseek hs).trans ((if_neg (Nat.not_le.mpr hlow)).trans (seekNext_next b hne))
      exact hsends _ _ hdone
    · have hl : listens b.tun.state = false := by
        rw [show b.tun.state = .seeking from hs]
        rfl
      have hdone := (hseek hs).trans ((if_neg (Nat.not_le.mpr hlow)).trans (seekNext_wrapped b hl heq))
      obtain ⟨t, ht, hstat⟩ := tunerRetargeted (converterDone v) s { s with
          tun := { x with
            lastRssi := code, state := .tuning, band := k.band, code := k.start, reason := .seekWrapped
            settleTimer := false, verifyTimer := false }
          fe := (s.fe.abandon (abandonsOf false)).send (.tune k.band x.region k.start .plain)
          meas := readingAbandoned m'
          sd := { s.sd with af := afWithout k.start x.code s.sd.af }
          agent := { s.agent with queue := queueWith s.agent.queue (targetAsked k.band k.start x) } } h hdone
      have hfe : t.fe = (s.fe.abandon (abandonsOf false)).send (.tune k.band x.region k.start .plain) := by
        rw [hstat.rest]
      exact ⟨t, ht, m', hm', hfe ▸ hstat, hfe ▸ sent_of_abandon _ _ _⟩
    · have hl : listens b.tun.state = false := by
        rw [show b.tun.state = .seeking from hs]
        rfl
      have hdone := (hseek hs).trans ((if_pos hhigh).trans (seekFound_eq b hl))
      obtain ⟨t, ht, hstep⟩ := tunerStep_told (fun x => normWeak (converterDone v x)) false true s
        { s with
          meas := m', sd := bitsMoved false (decide (x.tunedBand = .fm)) s.sd.clearContent
          agent := { s.agent with queue := queueWith s.agent.queue (targetAsked k.band k.step x) }
          tun := { plain with
            state := .listening, band := k.band, code := k.step, weak := 0, stereo := false,
            lowRun := 0, highRun := 0, readingTimer := true, queryTimer := true,
            outcome := .seekFound, outcomeCount := (x.outcomeCount + 1) % 65536 } }
        (tunerMoved .listening (updSd Station.clearContent (ownTarget k.band k.step b))) h (by
          show normWeak (converterDone v s) = _
          rw [normWeak_zero (by rw [hdone, raise_tuner]; rfl), hdone]
          rfl)
      exact ⟨t, ht, m', hm', hstep⟩
    · exact hsends _ _ ((hprobe hs).trans (probeNext_candidate _ y rest htodo))
    · exact hsends _ _ ((hprobe hs).trans (probeNext_switch _ y n htodo hbest hmean))
    · have hl : listens b.tun.state = false := by
        rw [show b.tun.state = .probing from hs]
        rfl
      have hno : ∀ y' n', best = some (y', n') → n' < p.mean + 24 := fun y' n' hb' => by
        cases Option.some.inj (hbest.symm.trans hb')
        exact hmean
      have hdone := (hprobe hs).trans ((probeNext_stays
        { b with tun := { b.tun with probe := { p with best := best } } } htodo hno).trans (probeNoSwitch_eq _ hl))
      obtain ⟨t, ht, hown⟩ := tunerOwn (fun x => normWeak (converterDone v x)) s { s with
          meas := readingAbandoned m'
          fe := (s.fe.abandon (abandonsOf false)).send (.tune p.band x.region p.original .plain)
          tun := { plain with
            state := .tuning, reason := .noSwitch, backoff := true, weak := 0,
            settleTimer := false, verifyTimer := false, probe := { p with best := best } } } h (by
          show normWeak (converterDone v s) = _
          rw [hdone, normWeak_eq, weakKept_backoff _ rfl])
      have hfe : t.fe = (s.fe.abandon (abandonsOf false)).send (.tune p.band x.region p.original .plain) := by
        rw [hown.rest]
      exact ⟨t, ht, m', hm', hfe ▸ hown, hfe ▸ sent_of_abandon _ _ _⟩

end Sys2Proof.Machine

end

/-! The converter's other requesters (R140, R143 to R150): the host, the self-check and the round-robin's entries. -/

section

set_option autoImplicit false

namespace Sys2Proof.Machine

/-! ### One expiry that hands the tuner nothing -/

theorem converterDone_other (v : Int) (s : State) (h : ∀ c, s.meas.conv = some c → c.owner ≠ .tuner false) :
    converterDone v s = converterExpiry v s := by
  have hnone : completedRssi v s = none := by
    unfold completedRssi
    cases hc : s.meas.conv with
    | none => rfl
    | some c => exact if_neg (h c hc)
  unfold converterDone
  rw [hnone]

/-- A step that follows the choice of the next conversion. -/
theorem converterStep_of (v : Int) (always : List Rec) (s u y : State) (h : s.rstnLow = false)
    (ho : ∀ c, s.meas.conv = some c → c.owner ≠ .tuner false) (hd : completeConversion v s = y)
    (hy : y = { u with dirty := y.dirty }) (hsd : u.sd = s.sd) (htun : u.tun = s.tun) (hmem : u.mem = s.mem)
    (hm : SetsMarks always s { y with meas := chooseConversion y.meas, tun := { s.tun with weak := weakKept s } })
    (hst : s.att.pending &&& causeMask .station ≠ 0 → u.att.pending &&& causeMask .station ≠ 0) :
    ∃ t, exec (.converterTimerExpiry v) s = .next t ∧ t.meas = chooseConversion u.meas
      ∧ OwnStep always s { u with meas := t.meas, tun := { s.tun with weak := weakKept s } } t := by
  set z : State := { y with meas := chooseConversion y.meas, tun := { s.tun with weak := weakKept s } } with hz
  have hsd' : y.sd = s.sd := by rw [hy]; exact hsd
  have htun' : y.tun = s.tun := by rw [hy]; exact htun
  have hmeas : y.meas = u.meas := by rw [hy]
  have hdone : normWeak (converterDone v s) = z := by
    have hexp : converterExpiry v s = { y with meas := chooseConversion y.meas } := by rw [converterExpiry, hd]; rfl
    have hweak : weakKept { y with meas := chooseConversion y.meas } = weakKept s := by
      unfold weakKept afActive stationCode
      simp only [htun', hsd']
    rw [converterDone_other v s ho, hexp, normWeak_eq, hweak]
    simp only [htun', hz]
  obtain ⟨t, ht, hown⟩ := ownStep_of_eq (fun x => normWeak (converterDone v x)) always s
    { u with meas := chooseConversion u.meas, tun := { s.tun with weak := weakKept s } } z h hdone
    (by rw [hz, hmeas, hy]) hmem hsd hm hst
  have hmt : t.meas = chooseConversion u.meas := by rw [hown.rest]
  exact ⟨t, ht, hmt, hmt ▸ hown⟩

/-! ### The self-check (R150) -/

theorem startModule_eq (m : AmpModule) (s : State) : startModule m s = { s with
    mods := s.mods.set m
      (if (s.mods.get m).state = .off ∧ (s.mods.get m).enable = true ∧ s.meas.result = .pass ∧ s.clock = .good
        then { s.mods.get m with state := .starting } else s.mods.get m) } := by
  have hiff : (((s.mods.get m).state == .off) && startAllowed s (s.mods.get m)) = true
      ↔ (s.mods.get m).state = .off ∧ (s.mods.get m).enable = true ∧ s.meas.result = .pass ∧ s.clock = .good := by
    simp [startAllowed, and_assoc]
  unfold startModule
  dsimp only
  split
  · rename_i h
    rw [if_pos (hiff.1 h)]
    rfl
  · rename_i h
    rw [if_neg (mt hiff.2 h), PerModule.set_get]

/-- Every module in OFF that may start (R127). -/
theorem startModules_eq (s : State) : startModules s = { s with
    mods := .ofFn fun m =>
      let r := s.mods.get m
      if r.state = .off ∧ r.enable = true ∧ s.meas.result = .pass ∧ s.clock = .good
        then { r with state := .starting } else r } := by
  unfold startModules
  rw [startModule_eq, startModule_eq, startModule_eq]
  apply State.ext_fields <;> rfl

theorem raise_form (c : Cause) (s : State) :
    raise c s = { s with att := (raise c s).att, dirty := (raise c s).dirty } := by
  unfold raise
  split <;> rfl

theorem checkPasses_iff (ref half : Nat) :
    checkPasses ref half = true ↔ 500 ≤ ref ∧ ref ≤ 524 ∧ 248 ≤ half ∧ half ≤ 264 := by
  simp [checkPasses, and_assoc]

/-- The measurement unit after a check with its verdict (R150). -/
def checkDone (half : Nat) (result : CheckResult) (m : Meas) : Meas :=
  { m with
    refCode := m.checkRef, halfRefCode := half, result := result
    position := if m.roundRobin = true then m.position else 0, roundRobin := true }

/-- The marks of a check's end. -/
def checkMarks (s : State) : List Rec := insertRec .onDemand (insertRec .device s.dirty)

theorem selfCheckDone_pass (half : Nat) (s : State) (h : checkPasses s.meas.checkRef half = true) :
    selfCheckDone half s = { s with
      meas := checkDone half .pass s.meas, dirty := checkMarks s
      mods := .ofFn fun x =>
        let r := s.mods.get x
        if r.state = .off ∧ r.enable = true ∧ s.clock = .good then { r with state := .starting } else r } := by
  have hopen : selfCheckDone half s
      = startModules { s with meas := checkDone half .pass s.meas, dirty := checkMarks s } := by
    unfold selfCheckDone
    rw [h]
    rfl
  rw [hopen, startModules_eq]
  simp only [checkDone, true_and]

theorem selfCheckDone_fail (half : Nat) (s : State) (h : checkPasses s.meas.checkRef half = false) :
    let y := raise .selfCheck { s with meas := checkDone half .fail s.meas, dirty := checkMarks s }
    selfCheckDone half s = { y with
      mods := .ofFn fun x =>
        if checkStops s x then { s.mods.get x with state := .stopping, order := false } else s.mods.get x
      gain := flooredChans (fun ch => checkStops s (chanModule ch)) s.gain } := by
  intro y
  have hopen : selfCheckDone half s = selfCheckStops y := by
    unfold selfCheckDone
    rw [h]
    rfl
  have hy : y = { s with meas := checkDone half .fail s.meas, att := y.att, dirty := y.dirty } := raise_form _ _
  rw [hopen, selfCheckStops_eq]
  clear_value y
  rw [hy]
  rfl

theorem mem_checkMarks (s : State) (r : Rec) : r ∈ checkMarks s ↔ r ∈ s.dirty ∨ r ∈ [Rec.device, .onDemand] := by
  simp only [checkMarks, mem_insertRec, List.mem_cons, List.not_mem_nil, or_false]
  tauto

/-- Settles O51, by the owner of the conversion. -/
theorem converterServesItsRequesters : Obligations.ConverterServesItsRequesters := by
  unfold Obligations.ConverterServesItsRequesters
  intro v s h m b marked into
  have hinto : ∀ M : Meas, (∀ c, s.meas.conv = some c → c.owner ≠ .tuner false) →
      completeConversion v s = { s with meas := M } → into { b with meas := M } := fun M ho hd => by
    obtain ⟨t, ht, hmt, hown⟩ := converterStep_of v [] s { s with meas := M } _ h ho hd rfl rfl rfl rfl
      (.same _ _ rfl) id
    exact ⟨t, ht, hmt ▸ conversionChosen M, hown⟩
  refine ⟨fun hn => ?_, fun c hc => ?_⟩
  · have hd : completeConversion v s = { s with meas := s.meas } := by
      unfold completeConversion
      rw [hn]
    exact hinto s.meas (fun c hc => by rw [hn] at hc; simp at hc) hd
  intro code pass done stops
  have hcode : convCode v c.divider = code := rfl
  have hother : c.owner ≠ .tuner false → ∀ c', s.meas.conv = some c' → c'.owner ≠ .tuner false := fun ho c' hc' => by
    cases Option.some.inj (hc.symm.trans hc')
    exact ho
  refine ⟨fun ho => ?_, fun n ho => ?_, fun ho => ?_, fun ho => ?_, fun ho hp => ?_, fun ho hp => ?_⟩
  · refine hinto m (hother (by rw [ho]; simp)) ?_
    unfold completeConversion
    rw [hc]
    dsimp only
    rw [ho]
    rfl
  · refine hinto m (hother (by rw [ho]; simp)) ?_
    unfold completeConversion
    rw [hc]
    dsimp only
    rw [ho]
    rfl
  · refine hinto _ (hother (by rw [ho]; simp)) ?_
    unfold completeConversion
    rw [hc]
    dsimp only
    rw [ho]
    rfl
  · refine hinto _ (hother (by rw [ho]; simp)) ?_
    unfold completeConversion
    rw [hc]
    dsimp only
    rw [ho]
    rfl
  all_goals
    have hd : completeConversion v s = selfCheckDone code { s with meas := m } := by
      unfold completeConversion
      rw [hc]
      dsimp only
      rw [ho]
      rfl
    have hpass : checkPasses s.meas.checkRef code = true ↔ pass := checkPasses_iff _ _
    have howner := hother (by rw [ho]; simp)
  · obtain ⟨t, ht, hmt, hown⟩ := converterStep_of v [.device, .onDemand] s { s with
        meas := checkDone code .pass m
        mods := .ofFn fun x =>
          let r := s.mods.get x
          if r.state = .off ∧ r.enable = true ∧ s.clock = .good then { r with state := .starting } else r }
      _ h howner (hd.trans (selfCheckDone_pass code { s with meas := m } (hpass.mpr hp))) rfl rfl rfl rfl
      (.marks _ _ _ (mem_checkMarks s)) id
    have hdone : checkDone code .pass m = done := by simp only [done, if_pos hp]; rfl
    rw [hdone] at hmt hown
    exact ⟨t, ht, hmt ▸ conversionChosen done, hown⟩
  · set y : State := raise .selfCheck { s with meas := checkDone code .fail m, dirty := checkMarks s } with hy
    have hatt : y.att = { s.att with pending := s.att.pending ||| 0x0080#16 } := raise_att _ _
    obtain ⟨t, ht, hmt, hown⟩ := converterStep_of v [.device, .onDemand] s { s with
        meas := checkDone code .fail m, att := y.att
        mods := .ofFn fun x =>
          if checkStops s x then { s.mods.get x with state := .stopping, order := false } else s.mods.get x
        gain := flooredChans (fun ch => checkStops s (chanModule ch)) s.gain }
      _ h howner (hd.trans (selfCheckDone_fail code { s with meas := m } (by
        rw [← Bool.not_eq_true]
        exact fun k => hp (hpass.mp k)))) (by
          conv_lhs => rw [raise_form]
          rfl) rfl rfl rfl
      (.raised _ _ { s with meas := checkDone code .fail m, dirty := checkMarks s } _ .selfCheck (mem_checkMarks s) rfl rfl rfl)
      (by rw [hatt]; exact or_keeps)
    have hdone : checkDone code .fail m = done := by simp only [done, if_neg hp]; rfl
    rw [hdone, hatt] at hown
    rw [hdone] at hmt
    exact ⟨t, ht, hmt ▸ conversionChosen done, hown⟩

end Sys2Proof.Machine

end

/-! The codes of the round-robin's entries, and what they do (R131, R133, R143, R147 to R149). -/

section

set_option autoImplicit false

namespace Sys2Proof.Machine

/-! ### An entry's fields (R141, R192) -/

/-- The module that an entry's word names. -/
def named (e : Entry) (x : AmpModule) : Prop := e.w3.toNat / 16 % 4 = match x with | .a => 1 | .b => 2 | .c => 3

theorem module_iff (e : Entry) (x : AmpModule) : e.module = some x ↔ named e x := by
  have hfield : field e.w3 4 2 = e.w3.toNat / 16 % 4 := rfl
  have hlt : e.w3.toNat / 16 % 4 < 4 := Nat.mod_lt _ (by omega)
  unfold Entry.module named
  rw [hfield]
  cases x <;> (repeat' split) <;> simp_all

theorem module_none (e : Entry) : e.module = none ↔ e.w3.toNat / 16 % 4 = 0 := by
  have hfield : field e.w3 4 2 = e.w3.toNat / 16 % 4 := rfl
  have hlt : e.w3.toNat / 16 % 4 < 4 := Nat.mod_lt _ (by omega)
  unfold Entry.module
  rw [hfield]
  (repeat' split) <;> simp_all
  omega

theorem action_eq (e : Entry) :
    e.action = if e.w3.toNat % 4 = 0 then .report else if e.w3.toNat % 4 = 1 then .derate else .trip := by
  have hfield : field e.w3 0 2 = e.w3.toNat % 4 := by simp [field]
  unfold Entry.action
  rw [hfield]

/-- An entry after a code (R147). -/
theorem takeCode_eq (e : Entry) (code : Nat) :
    let debounce := e.w3.toNat / 256 % 16
    let out := decide (code < e.w1.toNat ∨ e.w2.toNat < code)
    let turns := out ≠ e.violation ∧ debounce ≤ e.count + 1
    e.takeCode code = { e with
      code := some code
      count := if out = e.violation ∨ debounce ≤ e.count + 1 then 0 else e.count + 1
      violation := if turns then out else e.violation } := by
  intro debounce out turns
  have hout : e.outOfRange code = out := (Bool.decide_or _ _).symm
  have hdeb : e.debounce = debounce := rfl
  unfold Entry.takeCode
  rw [hout, hdeb]
  by_cases h1 : out = e.violation
  · simp [turns, h1]
  · by_cases h2 : debounce ≤ e.count + 1
    · have : (!e.violation) = out := by cases hv : e.violation <;> cases ho : out <;> simp_all
      simp [turns, h1, h2, this]
    · simp [turns, h1, h2]

/-! ### What an action does (R131, R133, R148, R149) -/

/-- A trip of a module (R131): what it makes of the modules. -/
def tripped (n : Nat) (r : ModuleRec) : ModuleRec :=
  if r.state = .tripped then r else { r with state := .tripped, order := false, cause := .measure, tripEntry := n }

/-- The cause that an entry's action raises on entering violation (R131, R148). -/
def firedCause (e : Entry) (s : State) : Option Cause :=
  match e.action, e.module with
  | .report, _ => some .measure
  | .trip, some x => if (s.mods.get x).state = .tripped then none else some .module
  | _, _ => none

/-- A state with a cause raised, where there is one. -/
def withCause (c : Option Cause) (s : State) : State :=
  match c with
  | some c => raise c s
  | none => s

theorem withCause_form (c : Option Cause) (s : State) :
    withCause c s = { s with att := (withCause c s).att, dirty := (withCause c s).dirty } := by
  cases c with
  | none => rfl
  | some c => exact raise_form c s

/-- The bits that a raised cause sets. -/
def causeBits : Option Cause → Word
  | some c => causeMask c
  | none => 0

theorem withCause_att (c : Option Cause) (s : State) :
    (withCause c s).att = { s.att with pending := s.att.pending ||| causeBits c } := by
  cases c with
  | none => simp [withCause, causeBits]
  | some c => exact raise_att c s

/-- What a raised cause changes depends on the attention state and the marks alone. -/
theorem raise_modules (c : Cause) (s : State) (M : PerModule ModuleRec) (G : Gain) :
    raise c { s with mods := M, gain := G } = { raise c s with mods := M, gain := G } := by
  unfold raise
  split <;> rfl

/-- The modules after an entry's action on entering violation (R131). -/
def firedModules (n : Nat) (e : Entry) (M : PerModule ModuleRec) : PerModule ModuleRec :=
  .ofFn fun x => if e.action = .trip ∧ e.module = some x then tripped n (M.get x) else M.get x

/-- The gain stage after an entry's action on entering violation (R95, R131). -/
def firedGain (e : Entry) (g : Gain) : Gain :=
  if e.action = .trip then flooredChans (fun ch => e.module == some (chanModule ch)) g else g

theorem firedModules_same (n : Nat) (e : Entry) (M : PerModule ModuleRec)
    (h : ∀ x, e.action = .trip → e.module = some x → (M.get x).state = .tripped) : firedModules n e M = M := by
  refine PerModule.ext_get _ _ fun x => ?_
  simp only [firedModules, PerModule.get_ofFn]
  split
  · rename_i hx
    exact if_pos (h x hx.1 hx.2)
  · rfl

/-- What an entry's action does on entering violation (R148). -/
theorem fireAction_eq (n : Nat) (e : Entry) (s : State) : fireAction n e s
    = { withCause (firedCause e s) s with mods := firedModules n e s.mods, gain := firedGain e s.gain } := by
  have hstay : ∀ (c : Option Cause), e.action ≠ .trip → withCause c s
      = { withCause c s with mods := firedModules n e s.mods, gain := firedGain e s.gain } := fun c hno => by
    rw [firedModules_same n e s.mods (fun x h => absurd h hno), firedGain, if_neg hno]
    rw [withCause_form]
  unfold fireAction
  cases ha : e.action with
  | report =>
    have hc : firedCause e s = some .measure := by simp [firedCause, ha]
    rw [hc]
    exact hstay (some .measure) (by rw [ha]; simp)
  | derate =>
    have hc : firedCause e s = none := by simp [firedCause, ha]
    rw [hc]
    exact hstay none (by rw [ha]; simp)
  | trip =>
    cases hm : e.module with
    | none =>
      have hmods := firedModules_same n e s.mods (fun x _ h => by rw [hm] at h; simp at h)
      have hgain : firedGain e s.gain = s.gain := by
        rw [firedGain, if_pos ha]
        exact flooredChans_none _ (fun ch => by rw [hm]; rfl) _
      simp [firedCause, ha, hm, hmods, hgain, withCause]
    | some x =>
      have hgain : firedGain e s.gain = flooredModule x s.gain := by
        rw [firedGain, if_pos ha, hm, flooredModule]
        congr 1
        funext ch
        cases chanModule ch <;> cases x <;> rfl
      by_cases hst : (s.mods.get x).state = .tripped
      · have hmods := firedModules_same n e s.mods (fun y _ h => by
          rw [hm] at h
          cases Option.some.inj h
          exact hst)
        simp only [firedCause, ha, hm, if_pos hst, withCause, hmods, hgain]
        exact if_pos hst
      · have hmods : firedModules n e s.mods = s.mods.set x (tripped n (s.mods.get x)) := by
          refine PerModule.ext_get _ _ fun y => ?_
          simp only [firedModules, PerModule.get_ofFn, ha, hm, true_and, PerModule.get_set, Option.some.injEq]
          by_cases hy : y = x
          · simp [hy]
          · simp [hy, Ne.symm hy]
        simp only [firedCause, ha, hm, if_neg hst, withCause, hmods, hgain]
        rw [trip_fresh x .measure n s hst, raise_modules, tripped, if_neg hst]

/-- The modules after the down notice of an entry's conversion (R149). -/
theorem derateDown_eq (e : Entry) (s : State) : derateDown e s = { s with
    mods := .ofFn fun x =>
      let r := s.mods.get x
      if e.action = .derate ∧ e.violation = true ∧ e.module = some x
        then { r with derate := clampInt (-48) 0 (r.derate + -2) } else r } := by
  have hstay : ∀ M : PerModule ModuleRec, (∀ x, M.get x = s.mods.get x) → s = { s with mods := M } := fun M h => by
    rw [PerModule.ext_get M s.mods h]
  unfold derateDown
  cases ha : e.action with
  | report | trip => exact hstay _ fun x => by simp
  | derate =>
    cases hm : e.module with
    | none => exact hstay _ fun x => by simp
    | some y =>
      dsimp only
      split
      · rename_i hv
        refine congrArg (fun M => ({ s with mods := M } : State)) (PerModule.ext_get _ _ fun x => ?_)
        simp only [PerModule.get_ofFn, PerModule.get_upd, hv, true_and, Option.some.injEq]
        by_cases hx : x = y
        · simp [hx]
        · simp [hx, Ne.symm hx]
      · rename_i hv
        exact hstay _ fun x => by simp [hv]

theorem derateUp_eq (y : AmpModule) (s : State) : derateUp y s = { s with
    mods := .ofFn fun x =>
      let r := s.mods.get x
      if x = y ∧ s.meas.derating x = false then { r with derate := clampInt (-48) 0 (r.derate + 1) } else r } := by
  have hstay : ∀ M : PerModule ModuleRec, (∀ x, M.get x = s.mods.get x) → s = { s with mods := M } := fun M h => by
    rw [PerModule.ext_get M s.mods h]
  unfold derateUp
  split
  · rename_i hd
    refine hstay _ fun x => ?_
    simp only [PerModule.get_ofFn]
    refine if_neg ?_
    rintro ⟨rfl, hno⟩
    rw [hd] at hno
    simp at hno
  · rename_i hd
    refine congrArg (fun M => ({ s with mods := M } : State)) (PerModule.ext_get _ _ fun x => ?_)
    simp only [PerModule.get_ofFn, PerModule.get_upd]
    by_cases hx : x = y
    · simp [hx, hd]
    · simp [hx]

/-- The up notices of a completed pass (R149). -/
theorem passCompleted_eq (s : State) : passCompleted s = { s with
    mods := .ofFn fun x =>
      let r := s.mods.get x
      if s.meas.derating x = true then r else { r with derate := clampInt (-48) 0 (r.derate + 1) } } := by
  unfold passCompleted
  rw [derateUp_eq, derateUp_eq, derateUp_eq]
  refine congrArg (fun M => ({ s with mods := M } : State)) (PerModule.ext_get _ _ fun x => ?_)
  cases x <;> simp [PerModule.get_ofFn] <;> split <;> simp_all

/-! ### A kept code (R147 to R149) -/

theorem markDirty_eq (r : Rec) (s : State) : markDirty r s = { s with dirty := insertRec r s.dirty } := rfl

/-- The marks of an entry's kept code: the entries' record, and that of the module it names. -/
def entryMarks (o : Option AmpModule) : List Rec :=
  .entries :: match o with
    | some x => [.module x]
    | none => []

/-- The state in which an entry has taken its code and its records are marked. -/
def entryTaken (n : Nat) (E : Entry) (s : State) : State :=
  { s with
    meas := { s.meas with entries := s.meas.entries.set n E }
    dirty := match E.module with
      | some x => insertRec (.module x) (insertRec .entries s.dirty)
      | none => insertRec .entries s.dirty }

theorem mem_entryTaken (n : Nat) (E : Entry) (s : State) (r : Rec) :
    r ∈ (entryTaken n E s).dirty ↔ r ∈ s.dirty ∨ r ∈ entryMarks E.module := by
  unfold entryTaken entryMarks
  cases E.module <;> simp only [mem_insertRec, List.mem_cons, List.not_mem_nil, or_false] <;> tauto

/-- A module's derate after an entry's conversion, before the end of a pass (R149). -/
def downModule (E : Entry) (x : AmpModule) (r : ModuleRec) : ModuleRec :=
  if E.action = .derate ∧ E.violation = true ∧ E.module = some x
    then { r with derate := clampInt (-48) 0 (r.derate + -2) } else r

theorem downModule_eq (E : Entry) (x : AmpModule) (r : ModuleRec) : downModule E x r = { r with
    derate := if E.action = .derate ∧ E.violation = true ∧ E.module = some x then clampInt (-48) 0 (r.derate - 2)
      else r.derate } := by
  unfold downModule
  split <;> rfl

theorem tripped_derate (n : Nat) (r : ModuleRec) : (tripped n r).derate = r.derate := by
  unfold tripped
  split <;> rfl

/-- The modules after an entry's kept code (R131, R149). -/
def entryModules (n : Nat) (E : Entry) (entered : Bool) (M : PerModule ModuleRec) : PerModule ModuleRec :=
  .ofFn fun x => downModule E x (if entered then (firedModules n E M).get x else M.get x)

theorem takeEntryCode_eq (n code : Nat) (s : State) :
    let E := (s.meas.entry n).takeCode code
    let entered := E.violation && !(s.meas.entry n).violation
    let S := entryTaken n E s
    takeEntryCode n code s = { withCause (if entered then firedCause E S else none) S with
      mods := entryModules n E entered s.mods, gain := if entered then firedGain E s.gain else s.gain } := by
  intro E entered S
  have hmodule : E.module = (s.meas.entry n).module := by
    have : E.w3 = (s.meas.entry n).w3 := by simp only [E, takeCode_eq]
    unfold Entry.module
    rw [this]
  have hmarked : (match E.module with
      | some m => markDirty (.module m) (markDirty .entries (updMeas (fun m => m.updEntry n fun _ => E) s))
      | none => markDirty .entries (updMeas (fun m => m.updEntry n fun _ => E) s)) = S := by
    simp only [S, entryTaken]
    cases E.module <;> rfl
  have hopen : takeEntryCode n code s = derateDown E (if entered then fireAction n E S else S) := by
    rw [← hmarked]
    rfl
  rw [hopen, derateDown_eq]
  cases he : entered
  · simp only [Bool.false_eq_true, if_false, withCause, entryModules, downModule]
    rfl
  · simp only [if_true, fireAction_eq, entryModules, downModule]
    rfl

/-- The modules after the end of a pass (R149). -/
def passModules (m : Meas) (M : PerModule ModuleRec) : PerModule ModuleRec :=
  .ofFn fun x => if m.derating x = true then M.get x
    else { M.get x with derate := clampInt (-48) 0 ((M.get x).derate + 1) }

theorem withCause_meas (c : Option Cause) (s : State) : (withCause c s).meas = s.meas := by
  rw [withCause_form]

/-- The conversion of an entry that keeps its code (R143). -/
theorem completeConversion_entry (v : Int) (c : Conversion) (n : Nat) (s : State) (h : s.meas.conv = some c)
    (ho : c.owner = .entry n false) :
    let b : State := { s with meas := { s.meas with conv := none } }
    let E := (s.meas.entry n).takeCode (codeOf v c)
    let entered := E.violation && !(s.meas.entry n).violation
    let S := entryTaken n E b
    let M := entryModules n E entered s.mods
    completeConversion v s = { withCause (if entered then firedCause E S else none) S with
      mods := if n + 1 = s.meas.seqLen then passModules S.meas M else M
      gain := if entered then firedGain E s.gain else s.gain } := by
  intro b E entered S M
  have hopen : completeConversion v s
      = if n + 1 = s.meas.seqLen then passCompleted (takeEntryCode n (codeOf v c) b) else takeEntryCode n (codeOf v c) b := by
    unfold completeConversion
    rw [h]
    dsimp only
    rw [ho]
    rfl
  have htake := takeEntryCode_eq n (codeOf v c) b
  rw [hopen, htake]
  split
  · rw [passCompleted_eq]
    simp only [withCause_meas]
    rfl
  · rfl

/-- The marks of an effect that may raise a cause. -/
theorem SetsMarks.raisedBy {always : List Rec} {s y z : State} (c : Option Cause)
    (h : ∀ r, r ∈ y.dirty ↔ r ∈ s.dirty ∨ r ∈ always) (ha : y.att = s.att) (hz : z.dirty = (withCause c y).dirty)
    (hza : z.att = (withCause c y).att) : SetsMarks always s z := by
  cases c with
  | none => exact .marks always s z fun r => by rw [hz]; exact h r
  | some c => exact .raised always s y z c h ha hz hza

/-- Settles O52, by the entry's new violation state and its action. -/
theorem entryCodesDriveTheirActions : Obligations.EntryCodesDriveTheirActions := by
  unfold Obligations.EntryCodesDriveTheirActions
  intro v c n s h hc ho hn code e debounce out turns e' entered action namedBy m hit derated nobody
  set b : State := { s with meas := { s.meas with conv := none } } with hb
  have he' : e.takeCode code = e' := takeCode_eq e code
  have hentered : (e'.violation && !e.violation) = true ↔ entered := by
    simp only [e', entered]
    by_cases ht : turns
    · rw [if_pos ht]
      have hne := ht.1
      cases hv : e.violation <;> cases hout : out <;> simp_all
    · rw [if_neg ht]
      simp [ht]
  have hmodule : ∀ x, e'.module = some x ↔ namedBy x := module_iff e'
  have htrip : e'.action = .trip ↔ 2 ≤ action := by
    rw [action_eq]
    show (if action = 0 then _ else if action = 1 then _ else _) = _ ↔ _
    split
    · simp; omega
    · split
      · simp; omega
      · simp; omega
  have hdown : e'.action = .derate ↔ action = 1 := by
    rw [action_eq]
    show (if action = 0 then _ else if action = 1 then _ else _) = _ ↔ _
    split
    · simp; omega
    · split <;> simp_all
  have hreport : e'.action = .report ↔ action = 0 := by
    rw [action_eq]
    show (if action = 0 then _ else if action = 1 then _ else _) = _ ↔ _
    split
    · simp_all
    · split <;> simp_all
  have hcomp := completeConversion_entry v c n s hc ho
  dsimp only at hcomp
  have hcode : codeOf v c = code := rfl
  have hold : s.meas.entry n = e := rfl
  rw [hcode, hold, he', ← hb] at hcomp
  set S := entryTaken n e' b with hS
  set ent : Bool := e'.violation && !e.violation with hent
  set cause := if ent = true then firedCause e' S else none with hcause
  set M := entryModules n e' ent s.mods with hM
  set M' := if n + 1 = s.meas.seqLen then passModules S.meas M else M with hM'
  set G := if ent = true then firedGain e' s.gain else s.gain with hG
  obtain ⟨t, ht, hmt, hown⟩ := converterStep_of v (entryMarks e'.module) s
    { s with meas := m, mods := M', gain := G, att := (withCause cause S).att } _ h
    (fun c' hc' => by
      cases Option.some.inj (hc.symm.trans hc')
      rw [ho]
      simp) hcomp
    (by conv_lhs => rw [withCause_form]
        rfl) rfl rfl rfl
    (.raisedBy cause (mem_entryTaken n e' b) rfl rfl rfl)
    (fun k => by
      show (withCause cause S).att.pending &&& _ ≠ 0
      rw [withCause_att]
      exact or_keeps k)
  have hmods : t.mods = M' := by rw [hown.rest]
  have hatt : t.att = { s.att with pending := s.att.pending ||| causeBits cause } := by
    rw [hown.rest]
    exact withCause_att cause S
  have hmarks : entryMarks e'.module
      = .entries :: (if nobody then [] else [.module (if namedBy .a then .a else if namedBy .b then .b else .c)]) := by
    unfold entryMarks
    cases hx : e'.module with
    | none => rw [if_pos (show nobody from (module_none e').mp hx)]
    | some x =>
      have hnone : ¬nobody := fun k => by
        rw [(module_none e').mpr k] at hx
        simp at hx
      rw [if_neg hnone]
      have hby : ∀ y, namedBy y ↔ y = x := fun y => by
        rw [← hmodule, hx, Option.some.injEq]
        exact eq_comm
      simp only [hby]
      cases x <;> rfl
  have hgain : G = if entered ∧ 2 ≤ action then
      flooredChans (fun ch => decide (namedBy (chanModule ch))) s.gain else s.gain := by
    have hfun : (fun ch => e'.module == some (chanModule ch)) = fun ch => decide (namedBy (chanModule ch)) := by
      funext ch
      rw [Bool.eq_iff_iff, decide_eq_true_eq, ← hmodule, beq_iff_eq]
    simp only [hG, firedGain, hentered, htrip, hfun]
    by_cases h1 : entered <;> by_cases h2 : 2 ≤ action <;> simp [h1, h2]
  have hcauseOf : cause = if entered then firedCause e' S else none := by simp only [hcause, hentered]
  have hmod : ∀ x, M.get x = downModule e' x (if hit x then tripped n (s.mods.get x) else s.mods.get x) := fun x => by
    simp only [hM, entryModules, firedModules, PerModule.get_ofFn, hentered, htrip, hmodule, hit]
    by_cases h1 : entered <;> simp [h1]
  have hderated : ∀ x, S.meas.derating x = true ↔ derated x := fun x => by
    show m.derating x = true ↔ _
    simp [Meas.derating, derated, and_assoc]
  refine ⟨t, ht, hmt ▸ conversionChosen m, ?_, fun x => ?_, ?_, fun he ha => ?_, fun hx => ?_, fun hno hall => ?_⟩
  · rw [hmods, ← hmarks, ← hgain]
    have hatt' : t.att = (withCause cause S).att := by rw [hown.rest]
    rw [hatt']
    exact hown
  · intro r r'
    have hr' : r' = if n + 1 = s.meas.seqLen ∧ ¬derated x
        then { M.get x with derate := clampInt (-48) 0 ((M.get x).derate + 1) } else M.get x := by
      simp only [r', hmods, hM', ← hderated]
      split
      · rename_i hlast
        simp only [passModules, PerModule.get_ofFn, hlast, true_and]
        split <;> simp_all
      · rename_i hlast
        simp [hlast]
    set base := if hit x then tripped n r else r with hbase
    have hbd : base.derate = r.derate := by
      rw [hbase]
      split
      · exact tripped_derate n r
      · rfl
    have hMx : M.get x = { base with
        derate := if action = 1 ∧ e'.violation = true ∧ namedBy x then clampInt (-48) 0 (r.derate - 2) else r.derate } := by
      have hdown' := downModule_eq e' x base
      rw [hbd] at hdown'
      simp only [hdown, hmodule] at hdown'
      exact (hmod x).trans hdown'
    have hkept : r'.state = base.state ∧ r'.order = base.order ∧ r'.cause = base.cause ∧ r'.tripEntry = base.tripEntry
        ∧ r'.enable = base.enable ∧ r'.fltPin = base.fltPin := by
      rw [hr', hMx]
      split <;> exact ⟨rfl, rfl, rfl, rfl, rfl, rfl⟩
    obtain ⟨h1, h2, h3, h4, h5, h6⟩ := hkept
    refine ⟨fun hh hst => ?_, fun hno => ?_, ?_, ?_, fun p hp => ⟨fun hlast hnd => ?_, fun hno => ?_⟩⟩
    · have hb : base = { r with state := .tripped, order := false, cause := .measure, tripEntry := n } := by
        rw [hbase, if_pos hh]
        exact if_neg hst
      rw [h1, h2, h3, h4, hb]
      exact ⟨rfl, rfl, rfl, rfl⟩
    · have hb : base = r := by
        rw [hbase]
        split
        · rename_i hh
          rcases hno with hno | hno
          · exact absurd hh hno
          · exact if_pos hno
        · rfl
      rw [h1, h2, h3, h4, hb]
      exact ⟨rfl, rfl, rfl, rfl⟩
    · rw [h5, hbase]
      unfold tripped
      split
      · split <;> rfl
      · rfl
    · rw [h6, hbase]
      unfold tripped
      split
      · split <;> rfl
      · rfl
    · rw [hr', if_pos ⟨hlast, hnd⟩, hMx, hp]
    · rw [hr', if_neg (by rintro ⟨k1, k2⟩; rcases hno with hno | hno; exacts [hno k1, k2 hno]), hMx, hp]
  · rw [hatt]
  · rw [hatt, hcauseOf, if_pos he]
    have hfc : firedCause e' S = some .measure := by simp [firedCause, hreport.mpr ha]
    rw [hfc]
    rfl
  · obtain ⟨x, ⟨he, ha, hnm⟩, hst⟩ := hx
    have hfc : firedCause e' S = some .module := by
      simp only [firedCause, htrip.mpr ha, (hmodule x).mpr hnm]
      exact if_neg hst
    rw [hatt, hcauseOf, if_pos he, hfc]
    rfl
  · have hnone : cause = none := by
      rw [hcauseOf]
      split
      · rename_i he
        unfold firedCause
        split
        · rename_i ha
          exact absurd ⟨he, hreport.mp ha⟩ hno
        · rename_i x ha hx
          exact if_pos (hall x ⟨he, htrip.mp ha, (hmodule x).mp hx⟩)
        · rfl
      · rfl
    rw [hatt, hnone]
    simp [causeBits]

end Sys2Proof.Machine

end

/-! The bits of the station data decoder (R179, R180): the check byte, blocks, and the bits that only fill the window. -/

section

set_option autoImplicit false

namespace Sys2Proof.Machine

/-! ### The check byte (R179) -/

/-- A polynomial times x^8 + x^2 + x + 1. -/
def polyTimes (q : BitVec 24) : BitVec 24 := (q <<< 8) ^^^ (q <<< 2) ^^^ (q <<< 1) ^^^ q

/-- A bit as a polynomial. -/
def bitPoly (b : Bool) : BitVec 24 := if b then 1 else 0

theorem shiftLeft_xor (x y : BitVec 24) (k : Nat) : (x ^^^ y) <<< k = x <<< k ^^^ y <<< k := by
  apply BitVec.eq_of_getLsbD_eq
  intro i hi
  simp only [BitVec.getLsbD_shiftLeft, BitVec.getLsbD_xor]
  cases decide (i < 24) <;> cases decide (i < k) <;> simp

theorem shiftLeft_comm (x : BitVec 24) (j k : Nat) : (x <<< j) <<< k = (x <<< k) <<< j := by
  rw [← BitVec.shiftLeft_add, ← BitVec.shiftLeft_add, Nat.add_comm]

theorem polyTimes_shift (q t : BitVec 24) : polyTimes ((q <<< 1) ^^^ t) = polyTimes q <<< 1 ^^^ polyTimes t := by
  unfold polyTimes
  simp only [shiftLeft_xor, shiftLeft_comm q 1]
  ac_rfl

/-- One bit into the register, as a division step (R179). -/
theorem crcStep_divides (c : Byte) (b : Bool) :
    (c.setWidth 24 <<< 1) ^^^ (bitPoly b <<< 8) = polyTimes (bitPoly (c.msb != b)) ^^^ (crcStep c b).setWidth 24 := by
  revert c b
  decide

/-- The bits of a register that lie below a place. -/
def BelowBit (n : Nat) (q : BitVec 24) : Prop := ∀ i, n ≤ i → q.getLsbD i = false

theorem belowBit_next (n : Nat) (q : BitVec 24) (t : Bool) (h : BelowBit n q) :
    BelowBit (n + 1) ((q <<< 1) ^^^ bitPoly t) := by
  intro i hi
  have hq := h (i - 1) (by omega)
  have ht : (bitPoly t).getLsbD i = false := by
    unfold bitPoly
    cases t
    · simp
    · simp
      omega
  rw [BitVec.getLsbD_xor, ht, BitVec.getLsbD_shiftLeft, hq]
  simp

/-- The bits divided so far (R179): the number they form, times x^8, is a multiple of the polynomial and the register. -/
theorem crc_divides (bs : List Bool) (n : Nat) (c : Byte) (q : BitVec 24) (v : Nat) (hq : BelowBit n q)
    (h : (BitVec.ofNat 24 v) <<< 8 = polyTimes q ^^^ c.setWidth 24) :
    ∃ q', BelowBit (n + bs.length) q'
      ∧ (BitVec.ofNat 24 (bs.foldl (fun n b => 2 * n + (if b then 1 else 0)) v)) <<< 8
        = polyTimes q' ^^^ (bs.foldl crcStep c).setWidth 24 := by
  induction bs generalizing n c q v with
  | nil => exact ⟨q, hq, h⟩
  | cons b bs ih =>
    have hval : BitVec.ofNat 24 (2 * v + if b then 1 else 0) = (BitVec.ofNat 24 v <<< 1) ^^^ bitPoly b := by
      apply BitVec.eq_of_getLsbD_eq
      intro i hi
      rw [BitVec.getLsbD_ofNat, BitVec.getLsbD_xor, BitVec.getLsbD_shiftLeft, BitVec.getLsbD_ofNat]
      unfold bitPoly
      cases i with
      | zero => cases b <;> simp [Nat.testBit_zero]
      | succ i =>
        have hdiv : (2 * v + 1) / 2 = v := by omega
        have hlt : i < 24 := by omega
        cases b <;> simp [Nat.testBit_succ, hi, hdiv, hlt]
    have hstep : (BitVec.ofNat 24 (2 * v + if b then 1 else 0)) <<< 8
        = polyTimes ((q <<< 1) ^^^ bitPoly (c.msb != b)) ^^^ (crcStep c b).setWidth 24 := by
      rw [hval, shiftLeft_xor, shiftLeft_comm, h, shiftLeft_xor, polyTimes_shift, BitVec.xor_assoc, crcStep_divides,
        ← BitVec.xor_assoc]
    obtain ⟨q', hb, hq'⟩ := ih (n + 1) _ _ _ (belowBit_next n q _ hq) hstep
    refine ⟨q', ?_, hq'⟩
    rw [List.length_cons, Nat.add_comm bs.length, ← Nat.add_assoc]
    exact hb

/-- Bits, the first one most significant, give their number back (R180). -/
theorem foldl_bits (n v k : Nat) :
    (bitsOf n v).foldl (fun n b => 2 * n + (if b then 1 else 0)) k = k * 2 ^ n + v % 2 ^ n := by
  induction n generalizing k with
  | zero => simp [bitsOf, Nat.mod_one]
  | succ n ih =>
    have hcons : bitsOf (n + 1) v = v.testBit n :: bitsOf n v := by
      simp only [bitsOf, List.range_succ_eq_map, List.map_cons, List.map_map]
      congr 1
      refine List.map_congr_left fun i _ => ?_
      simp only [Function.comp]
      congr 1
      omega
    have hsplit : v % 2 ^ (n + 1) = 2 ^ n * (if v.testBit n then 1 else 0) + v % 2 ^ n := by
      rw [Nat.pow_succ, Nat.mod_mul, Nat.testBit_eq_decide_div_mod_eq]
      rcases Nat.mod_two_eq_zero_or_one (v / 2 ^ n) with h | h <;> simp [h] <;> omega
    rw [hcons, List.foldl_cons, ih, hsplit, Nat.pow_succ]
    ring

theorem numOfBits_bitsOf (n v : Nat) : numOfBits (bitsOf n v) = v % 2 ^ n := by
  rw [numOfBits, foldl_bits]
  simp

/-- The check byte of a word (R179). -/
theorem crc8_divides (w : Word) : ∃ q : BitVec 24, q.toNat < 2 ^ 16
    ∧ w ++ crc8 w = (q <<< 8) ^^^ (q <<< 2) ^^^ (q <<< 1) ^^^ q := by
  obtain ⟨q, hq, h⟩ := crc_divides (bitsOf 16 w.toNat) 0 0 0 0 (fun i _ => by simp) (by decide)
  have hnum : (bitsOf 16 w.toNat).foldl (fun n b => 2 * n + (if b then 1 else 0)) 0 = w.toNat := by
    rw [foldl_bits, Nat.mod_eq_of_lt w.isLt]
    simp
  rw [hnum] at h
  refine ⟨q, ?_, ?_⟩
  · refine Nat.lt_pow_two_of_testBit _ fun i hi => ?_
    exact hq i (by simpa [bitsOf_length] using hi)
  · have hcat : w ++ crc8 w = (BitVec.ofNat 24 w.toNat) <<< 8 ^^^ (crc8 w).setWidth 24 := by
      apply BitVec.eq_of_getLsbD_eq
      intro i hi
      simp only [BitVec.getLsbD_append, BitVec.getLsbD_xor, BitVec.getLsbD_shiftLeft, BitVec.getLsbD_setWidth,
        BitVec.getLsbD_ofNat]
      by_cases h8 : i < 8
      · simp [h8, hi]
      · have hhigh : (crc8 w).getLsbD i = false := BitVec.getLsbD_of_ge _ _ (by omega)
        have hlt : i - 8 < 24 := by omega
        have hw : (crc8 w).toNat.testBit i = false := hhigh
        simp [h8, hi, hw, hlt, BitVec.getLsbD]
    rw [hcat, h]
    show polyTimes q ^^^ (crc8 w).setWidth 24 ^^^ (crc8 w).setWidth 24 = _
    rw [BitVec.xor_assoc, BitVec.xor_self, BitVec.xor_zero]
    rfl

end Sys2Proof.Machine

end

/-! What a command of several publications marks (R16, R189), and the bits that only fill the window (R180). -/

section

set_option autoImplicit false

namespace Sys2Proof.Machine

/-! ### Publication after publication -/

/-- A record's mark stands where a search for its place finds it. -/
def Stands (r : Rec) (rs : List Rec) : Prop := insertRec r rs = rs

theorem insertRec_stands (r : Rec) (rs : List Rec) : Stands r (insertRec r rs) := by
  unfold Stands
  induction rs with
  | nil => simp [insertRec]
  | cons x xs ih =>
    by_cases hx : x = r
    · simp [insertRec, hx]
    · by_cases ho : r.offset < x.offset
      · simp [insertRec, hx, ho]
      · simp [insertRec, hx, ho, ih]

/-- A mark that stands keeps its place as another is set. -/
theorem Stands.insert {r : Rec} {rs : List Rec} (q : Rec) (h : Stands r rs) : Stands r (insertRec q rs) := by
  induction rs with
  | nil => simp [Stands, insertRec] at h
  | cons x xs ih =>
    by_cases hx : x = r
    · subst hx
      by_cases hq : x = q
      · subst hq
        simp [Stands, insertRec]
      · by_cases ho : q.offset < x.offset
        · have hno : ¬x.offset < q.offset := by omega
          simp [Stands, insertRec, hq, ho, hno, Ne.symm hq]
        · simp [Stands, insertRec, hq, ho]
    · have hro : ¬r.offset < x.offset := fun ho => by
        have := congrArg List.length h
        simp [insertRec, hx, ho] at this
      have hxs : Stands r xs := by simpa [Stands, insertRec, hx, hro] using h
      by_cases hq : x = q
      · simpa [insertRec, hq] using hq ▸ h
      · by_cases ho : q.offset < x.offset
        · have hqr : q ≠ r := fun e => hro (e ▸ ho)
          have hno : ¬r.offset < q.offset := by omega
          simp [Stands, insertRec, hq, ho, hqr, hno, hx, hro]
          exact hxs
        · have := ih hxs
          simp only [Stands] at this
          simp [Stands, insertRec, hq, ho, hx, hro, this]

theorem stands_after {r : Rec} (rs : List Rec) (l : List Rec) (h : Stands r l) :
    Stands r (rs.foldl (fun d r => insertRec r d) l) := by
  induction rs generalizing l with
  | nil => exact h
  | cons q qs ih => exact ih _ (h.insert q)

theorem stands_of_mem {r : Rec} (rs : List Rec) (l : List Rec) (h : r ∈ rs) :
    Stands r (rs.foldl (fun d r => insertRec r d) l) := by
  induction rs generalizing l with
  | nil => simp at h
  | cons q qs ih =>
    rcases List.mem_cons.1 h with rfl | h
    · exact stands_after qs _ (insertRec_stands _ _)
    · exact ih _ h

theorem foldl_stands (rs : List Rec) (l : List Rec) (h : ∀ r ∈ rs, Stands r l) :
    rs.foldl (fun d r => insertRec r d) l = l := by
  induction rs with
  | nil => rfl
  | cons q qs ih =>
    rw [List.foldl_cons, show insertRec q l = l from h q (by simp)]
    exact ih fun r hr => h r (by simp [hr])

theorem publish_shown (s z : State) (r : Rec) (h : r ≠ .attention) : recWords (publish s z) r = recWords z r := by
  rw [publish_eq]
  exact recWords_att_dirty z _ _ r h

/-- A cause that is pending already is not raised again. -/
theorem raise_again (c : Cause) (s : State) (h : s.att.pending &&& causeMask c ≠ 0) : raise c s = s := if_neg h

/-- What has been published is not published again. -/
theorem publish_publish (s z : State) : publish s (publish s z) = publish s z := by
  set base : State := if (changedRecords s z).any Rec.isStation = true then raise .station z else z with hbase
  set y := publish s z with hy
  have hform : y = markAll (changedRecords s z) base := rfl
  have hdirty : y.dirty = (changedRecords s z).foldl (fun d r => insertRec r d) base.dirty := by
    rw [hform, markAll_eq]
  have hatt : y.att = base.att := by rw [hform, markAll_eq]
  have hstands : ∀ r ∈ changedRecords s y, Stands r y.dirty := by
    intro r hr
    obtain ⟨hst, hne⟩ := (mem_changedRecords s y r).1 hr
    rw [hdirty]
    by_cases hz : recWords s r = recWords z r
    · have hatt' : r = .attention := by
        by_contra hno
        exact hne (hz.trans (publish_shown s z r hno).symm)
      subst hatt'
      have hany : (changedRecords s z).any Rec.isStation = true := by
        by_contra hno
        have : y.att = z.att := by rw [hatt, hbase, if_neg hno]
        exact hne (hz.trans (by simp [recWords, attentionWords, this]))
      have hbit : z.att.pending &&& causeMask .station = 0 := by
        by_contra hno
        have : y.att = z.att := by rw [hatt, hbase, if_pos hany, raise_again _ _ hno]
        exact hne (hz.trans (by simp [recWords, attentionWords, this]))
      have hmark : base.dirty = insertRec .attention z.dirty := by
        rw [hbase, if_pos hany]
        unfold raise
        rw [if_pos hbit]
        rfl
      rw [hmark]
      exact stands_after _ _ (insertRec_stands _ _)
    · exact stands_of_mem _ _ ((mem_changedRecords s z r).2 ⟨hst, hz⟩)
  have hraise : (if (changedRecords s y).any Rec.isStation = true then raise .station y else y) = y := by
    split
    · rename_i hany
      obtain ⟨r, hr, hrs⟩ := List.any_eq_true.1 hany
      obtain ⟨hst, hne⟩ := (mem_changedRecords s y r).1 hr
      rw [publish_shown s z r (fun e => by simp [e, Rec.isStation] at hrs)] at hne
      have hany' : (changedRecords s z).any Rec.isStation = true :=
        List.any_eq_true.2 ⟨r, (mem_changedRecords s z r).2 ⟨hst, hne⟩, hrs⟩
      refine raise_again _ _ ?_
      rw [hatt, hbase, if_pos hany', raise_att]
      intro e
      have := congrArg (BitVec.getLsbD · 9) e
      simp [causeMask, causeBit] at this
    · rfl
  have hopen : publish s y = markAll (changedRecords s y)
      (if (changedRecords s y).any Rec.isStation = true then raise .station y else y) := rfl
  rw [hopen, hraise, markAll_eq, foldl_stands _ _ hstands]

/-- Publication goes by the records shown before and after. -/
theorem publish_congr {s x z : State} (h : ∀ r, recWords x r = recWords s r) : publish x z = publish s z := by
  have hrs : changedRecords x z = changedRecords s z := by
    unfold changedRecords
    simp only [h]
  unfold publish
  rw [hrs]

/-- No record shows the weak count. -/
theorem normWeak_shown (s : State) (r : Rec) : recWords (normWeak s) r = recWords s r := by
  rw [normWeak_eq]
  cases r with
  | zone z => cases z <;> rfl
  | source x => cases x <;> rfl
  | _ => rfl

theorem publish_normWeak (s z : State) : publish s (normWeak z) = normWeak (publish s z) := by
  have hrs : changedRecords s (normWeak z) = changedRecords s z := by
    unfold changedRecords
    simp only [normWeak_shown]
  have hweak : ∀ (a : Attention) (d : List Rec),
      normWeak { z with att := a, dirty := d } = { normWeak z with att := a, dirty := d } := fun a d => by
    rw [normWeak_eq, normWeak_eq]
    rfl
  have hparts : (normWeak z).att = z.att ∧ (normWeak z).dirty = z.dirty := by
    rw [normWeak_eq]
    exact ⟨rfl, rfl⟩
  have hatt : (publish s (normWeak z)).att = (publish s z).att := by
    rw [publish_att_eq, publish_att_eq, hrs, hparts.1]
  have hdirty : (publish s (normWeak z)).dirty = (publish s z).dirty := by
    unfold publish
    rw [hrs, markAll_eq, markAll_eq]
    have hbase : (if (changedRecords s z).any Rec.isStation = true then raise .station (normWeak z) else normWeak z).dirty
        = (if (changedRecords s z).any Rec.isStation = true then raise .station z else z).dirty := by
      unfold raise
      rw [hparts.1]
      split
      · split
        · simp only [markDirty_dirty, hparts.2]
        · exact hparts.2
      · exact hparts.2
    simp only [hbase]
  rw [publish_eq s (normWeak z), hatt, hdirty, ← hweak, ← publish_eq]

/-! ### Bits that only fill the window (R180) -/

theorem takingBits_iff (x : Tuner) :
    takingBits x = true ↔ x.state ∈ [TunerState.listening, .verifying] ∧ x.tunedBand = .fm := by
  simp [takingBits]

/-- A bit of an unfinished block. -/
theorem takeBit_fills (b : Bool) (s : State) (ht : takingBits s.tun = true) (hs : s.sd.sync ∈ [SyncState.acquiring, .synced])
    (hw : (s.sd.window ++ [b]).length < 24) :
    takeBit b s = { s with sd := { s.sd with window := s.sd.window ++ [b], gapTimer := true } } := by
  unfold takeBit
  rw [if_pos ht]
  simp only [List.mem_cons, List.not_mem_nil, or_false] at hs
  rcases hs with hs | hs
  · rw [hs]
    exact if_pos hw
  · rw [hs]
    exact if_pos hw

/-- No record shows the window. -/
theorem window_shown (s : State) (w : List Bool) (g : Bool) (r : Rec) :
    recWords { s with sd := { s.sd with window := w, gapTimer := g } } r = recWords s r := by
  cases r with
  | zone z => cases z <;> rfl
  | source x => cases x <;> rfl
  | _ => rfl

theorem takeBits_fill (bs : List Bool) (s : State) (ht : takingBits s.tun = true)
    (hs : s.sd.sync ∈ [SyncState.acquiring, .synced]) (hw : (s.sd.window ++ bs).length < 24) :
    bs.foldl (fun t b => publish t (takeBit b t)) s
      = { s with sd := { s.sd with window := s.sd.window ++ bs, gapTimer := s.sd.gapTimer || !bs.isEmpty } } := by
  induction bs generalizing s with
  | nil => simp
  | cons b bs ih =>
    have hlen : (s.sd.window ++ [b]).length < 24 := by
      simp only [List.length_append, List.length_cons] at hw ⊢
      simp
      omega
    rw [List.foldl_cons, takeBit_fills b s ht hs hlen, publish_quiet s _ fun r _ => (window_shown s _ _ r).symm,
      ih { s with sd := { s.sd with window := s.sd.window ++ [b], gapTimer := true } } ht hs (by simpa using hw)]
    simp

/-- The state before the last bit of a block that begins with an empty window. -/
def blockOpen (init : List Bool) (s : State) : State :=
  { s with sd := { s.sd with window := init, gapTimer := true } }

/-- STATION_BLOCK in SYNCED with an empty window: its last bit completes the block (R180, R181). -/
theorem exec_stationBlock (block : BitVec 24) (s : State) (h : s.rstnLow = false) (ht : takingBits s.tun = true)
    (hs : s.sd.sync = .synced) (hw : s.sd.window = []) :
    ∃ init, exec (.stationBlock block) s
      = act (fun _ => normWeak (syncedBlock (bitsOf 24 block.toNat) (blockOpen init s))) s := by
  have hlen : (bitsOf 24 block.toNat).length = 24 := bitsOf_length _ _
  have hne : bitsOf 24 block.toNat ≠ [] := fun k => by simp [k] at hlen
  set bits := bitsOf 24 block.toNat with hbits
  set init := bits.dropLast with hinit
  have hsplit : bits = init ++ [bits.getLast hne] := (List.dropLast_append_getLast hne).symm
  have hil : init.length = 23 := by simp [hinit, hlen]
  have hfill : init.foldl (fun t b => publish t (takeBit b t)) s = blockOpen init s := by
    rw [takeBits_fill init s ht (by simp [hs]) (by simp [hw, hil]), hw]
    have : init.isEmpty = false := by
      cases hi : init with
      | nil => simp [hi] at hil
      | cons a as => rfl
    simp [blockOpen, this]
  have hlast : takeBit (bits.getLast hne) (blockOpen init s) = syncedBlock bits (blockOpen init s) := by
    unfold takeBit
    rw [if_pos (show takingBits (blockOpen init s).tun = true from ht)]
    have hsync : (blockOpen init s).sd.sync = .synced := hs
    have hwin : (blockOpen init s).sd.window ++ [bits.getLast hne] = bits := hsplit.symm
    rw [hsync, hwin]
    exact if_neg (by rw [hlen]; simp [blockBits])
  have htake : takeBlock block s = publish (blockOpen init s) (syncedBlock bits (blockOpen init s)) := by
    unfold takeBlock
    show bits.foldl _ s = _
    conv_lhs => rw [hsplit]
    rw [List.foldl_append, hfill, List.foldl_cons, List.foldl_nil, hlast]
  refine ⟨init, ?_⟩
  have hexec : exec (.stationBlock block) s = act (fun t => normWeak (takeBlock block t)) s := rfl
  rw [hexec, act_high _ s h, act_high _ s h, htake, publish_congr (x := blockOpen init s) (fun r => window_shown s init true r),
    ← publish_normWeak, publish_publish]

end Sys2Proof.Machine

end

/-! A block handed to the group assembly (R175, R181 to R185, R187, R188). -/

section

set_option autoImplicit false

namespace Sys2Proof.Machine

/-! ### Fields of an information word -/

theorem flag_eq (w : Word) (i : Nat) : flag w i = decide (w.toNat / 2 ^ i % 2 = 1) := by
  rw [flag, BitVec.getLsbD, Nat.testBit_eq_decide_div_mod_eq]

theorem field_eq (w : Word) (lo n : Nat) : field w lo n = w.toNat / 2 ^ lo % 2 ^ n := rfl

/-! ### Receptions (R183 to R185, R187) -/

/-- The code is another station's (R183). -/
def OtherStation (confirmed expected : Option Word) (w : Word) : Prop :=
  (∃ h, confirmed = some h ∧ h ≠ w) ∨ (confirmed = none ∧ ∃ h, expected = some h ∧ h ≠ w)

theorem confirmCode_same (d : Station) (x : Option Word) (w : Word) (h : ¬OtherStation d.confirmed.code x w) :
    d.confirmCode x w = { d with confirmed := { d.confirmed with code := some w } } := by
  unfold Station.confirmCode
  refine if_neg fun k => h ?_
  cases hc : d.confirmed.code with
  | some held => exact .inl ⟨held, rfl, by simpa [hc] using k⟩
  | none =>
    cases hx : x with
    | some held => exact .inr ⟨rfl, held, rfl, by simpa [hc, hx] using k⟩
    | none => simp [hc, hx] at k

theorem confirmCode_other (d : Station) (x : Option Word) (w : Word) (h : OtherStation d.confirmed.code x w) :
    d.confirmCode x w = d.changeStation w := by
  unfold Station.confirmCode
  refine if_pos ?_
  rcases h with ⟨held, hc, hne⟩ | ⟨hc, held, hx, hne⟩
  · simpa [hc] using hne
  · simpa [hc, hx] using hne

/-- A P1 handed over in LISTENING (R184). -/
theorem receiveP1_eq (d : Station) (w : Word) :
    let n := w.toNat
    let cat := n / 8 % 32
    let toggle := decide (n % 2 = 1)
    let turned := d.toggleRef = some (!toggle)
    let bare := fun (c : Content) => if turned then { c with texts := List.replicate 12 none } else c
    d.receiveP1 w = { d with
      traffic := decide (n / 4 % 2 = 1), speech := decide (n / 2 % 2 = 1), toggle := toggle
      toggleRef := some toggle
      candidate := bare { d.candidate with category := some cat }
      confirmed := bare (if d.candidate.category = some cat then { d.confirmed with category := some cat }
        else d.confirmed) } := by
  intro n cat toggle turned bare
  have hcat : d.receiveCategory (field w 3 5) = { d with
      candidate := { d.candidate with category := some cat }
      confirmed := if d.candidate.category = some cat then { d.confirmed with category := some cat }
        else d.confirmed } := by
    have hf : field w 3 5 = cat := rfl
    unfold Station.receiveCategory
    rw [hf]
    split
    · rename_i h
      rw [← h]
      rfl
    · rfl
  have hflags : flag w 2 = decide (n / 4 % 2 = 1) ∧ flag w 1 = decide (n / 2 % 2 = 1) ∧ flag w 0 = toggle := by
    simp only [flag_eq, n, toggle]
    simp
  obtain ⟨h2, h1, h0⟩ := hflags
  unfold Station.receiveP1
  rw [hcat, h2, h1, h0]
  unfold Station.receiveToggle
  cases hr : d.toggleRef with
  | none => simp [bare, turned, hr]
  | some held =>
    by_cases hh : held = toggle
    · have hno : ¬turned := by
        simp only [turned, hr, hh, Option.some.injEq]
        cases toggle <;> simp
      simp [bare, hno, hh]
    · have hyes : turned := by
        simp only [turned, hr, Option.some.injEq]
        cases held <;> cases ht : toggle <;> simp_all
      simp [bare, hyes, hh, Content.clearTexts]

/-- An AF value (R187). -/
theorem receiveAf_eq (d : Station) (target : Nat) (w : Word) :
    let n := w.toNat
    d.receiveAf target w = { d with
      af := if 1 ≤ n ∧ n ≤ 206 ∧ d.af.length < 12 ∧ n - 1 ∉ d.af ∧ n - 1 ≠ target then d.af ++ [n - 1] else d.af } := by
  intro n
  unfold Station.receiveAf afOffer
  by_cases h1 : 1 ≤ n ∧ n ≤ 206
  · rw [if_pos h1]
    obtain ⟨ha, hb⟩ := h1
    simp only [ha, hb, true_and]
    rfl
  · rw [if_neg h1, if_neg fun k => h1 ⟨k.1, k.2.1⟩]

/-- A name segment (R185). -/
theorem receiveName_eq (d : Station) (seg : Nat) (w : Word) :
    let known := d.candidate.names.getD seg none = some w
    d.receiveName seg w = { d with
      candidate := if known then d.candidate else { d.candidate with names := d.candidate.names.set seg (some w) }
      confirmed := if known then { d.confirmed with names := d.confirmed.names.set seg (some w) } else d.confirmed } := by
  intro known
  unfold Station.receiveName
  by_cases hk : known
  · rw [if_pos hk, if_pos hk, if_pos hk]
    rfl
  · rw [if_neg hk, if_neg hk, if_neg hk]
    rfl

/-- A text segment (R185). -/
theorem receiveText_eq (d : Station) (seg : Nat) (q : Word × Word) :
    let known := d.candidate.texts.getD seg none = some q
    d.receiveText seg q = { d with
      candidate := if known then d.candidate else { d.candidate with texts := d.candidate.texts.set seg (some q) }
      confirmed := if known then { d.confirmed with texts := d.confirmed.texts.set seg (some q) } else d.confirmed } := by
  intro known
  unfold Station.receiveText
  by_cases hk : known
  · rw [if_pos hk, if_pos hk, if_pos hk]
    rfl
  · rw [if_neg hk, if_neg hk, if_neg hk]
    rfl

/-- The use of a P2 (R182). -/
theorem receiveP2_of (d : Station) (target : Nat) (k w : Word) :
    (groupType k = 0 → d.receiveP2 target k w = d.receiveAf target w)
    ∧ (groupType k = 1 → d.receiveP2 target k w
        = if groupSegment k ≤ 5 then d.receiveName (groupSegment k) w else d)
    ∧ (2 ≤ groupType k → d.receiveP2 target k w = d) := by
  unfold Station.receiveP2
  refine ⟨fun h => by simp only [h], fun h => by simp only [h], fun h => ?_⟩
  split
  · omega
  · omega
  · rfl

/-- The use of a P3 (R182). -/
theorem receiveP3_of (d : Station) (target : Nat) (k w : Word) :
    (groupType k = 0 → d.receiveP3 target k w = d.receiveAf target w)
    ∧ (∀ q, groupType k = 2 → d.group.p2 = some q → d.receiveP3 target k w
        = if groupSegment k ≤ 11 then d.receiveText (groupSegment k) (q, w) else d)
    ∧ (groupType k ≠ 0 → groupType k ≠ 2 ∨ d.group.p2 = none → d.receiveP3 target k w = d) := by
  unfold Station.receiveP3
  refine ⟨fun h => by simp only [h], fun q h hq => by simp only [h, hq], fun h0 hno => ?_⟩
  split
  · rename_i h
    exact absurd h h0
  · rename_i h hq
    rcases hno with hno | hno
    · exact absurd h hno
    · rw [hno] at hq
      simp at hq
  · rfl

/-! ### The end of a verification (R175, R188) -/

/-- The AF list after an AF switch (R188). -/
theorem afSwitch_eq (tuned original : Nat) (af : List Nat) : afSwitch tuned original af
    = if tuned ∈ af then
        (if original ∈ af then af.filter fun y => y != tuned else af.map fun y => if y = tuned then original else y)
      else if af.length < 12 ∧ original ≠ tuned ∧ original ∉ af then af ++ [original] else af := by
  have hoffer : afOffer tuned original af
      = if af.length < 12 ∧ original ≠ tuned ∧ original ∉ af then af ++ [original] else af := by
    unfold afOffer
    simp only [and_comm (a := original ∉ af)]
    rfl
  unfold afSwitch
  rw [hoffer]
  rfl

theorem tunerGoto_within (next : TunerState) (s : State) (h : listens s.tun.state = true) (hn : listens next = true) :
    tunerGoto next s = { s with tun := { s.tun with state := next } } := by
  have htake : takingBits s.tun = (s.tun.tunedBand == .fm) := by
    show (listens s.tun.state && _) = _
    rw [h]
    rfl
  have hstay : ∀ b, s.sd.notice b b = s.sd := fun b => if_pos rfl
  rw [tunerGoto_eq, h, hn]
  show tunerMoved next s = _
  unfold tunerMoved
  simp only [h, hn, htake, hstay, Bool.not_true, Bool.and_false, Bool.true_and, Bool.not_false, Bool.and_true]
  rfl

/-- A successful verification (R175). -/
theorem verifySwitch_eq (s : State) (h : s.tun.state = .verifying) :
    let x := s.tun
    let pr := x.probe
    verifySwitch s = raise .tuner { s with
      sd := { s.sd with af := afSwitch x.tunedCode pr.original s.sd.af }
      agent := { s.agent with queue := queueWith s.agent.queue (targetAsked pr.band x.tunedCode x) }
      tun := { x with
        state := .listening, band := pr.band, code := x.tunedCode, verifyTimer := false, weak := 0
        outcome := .afSwitched, outcomeCount := (x.outcomeCount + 1) % 65536 } } := by
  intro x pr
  have htarget : (let s1 := ownBand pr.band s
      if x.tunedCode = s.tun.code then s1
      else requestWriteBack .code (updTun (fun t => { t with code := x.tunedCode }) s1))
      = { s with
        tun := { x with band := pr.band, code := x.tunedCode }
        agent := { s.agent with queue := queueWith s.agent.queue (targetAsked pr.band x.tunedCode x) } } := by
    dsimp only
    rw [ownBand_eq, queue_targetAsked]
    split
    · rename_i hc
      have hcode := congrArg (fun c => ({ x with band := pr.band, code := c } : Tuner)) hc
      exact congrArg (fun T => ({ s with tun := T, agent := _ } : State)) hcode.symm
    · rw [requestWriteBack_eq]
      rfl
  have hopen : verifySwitch s = longOutcome .afSwitched
      (updTun (fun t => { t with verifyTimer := false, weak := 0 })
        (tunerGoto .listening (updSd (fun d => { d with af := afSwitch x.tunedCode pr.original d.af })
          (let s1 := ownBand pr.band s
           if x.tunedCode = s.tun.code then s1
           else requestWriteBack .code (updTun (fun t => { t with code := x.tunedCode }) s1))))) := rfl
  rw [hopen, htarget, longOutcome_eq, tunerGoto_within]
  · rfl
  · show listens s.tun.state = true
    rw [h]
    rfl
  · rfl

/-! ### A block handed over (R182) -/

section Handed

variable {i : Instr} {g : State → State} {s : State} (h : s.rstnLow = false)
  (hexec : exec i s = act (fun x => normWeak (g x)) s)

include h hexec

/-- A command that takes the decoder to `d`. -/
theorem decoderTaken_of (d : Station) (hg : g s = { s with sd := d }) : DecoderTaken i s d := by
  set u : State := { s with sd := d, tun := { s.tun with weak := weakKept { s with sd := d } } } with hu
  obtain ⟨t, ht, hstep⟩ := stationStep_of_eq (fun x => normWeak (g x)) s u u h
    (by rw [hg, normWeak_eq]) rfl (.same _ _ rfl) id
  have hw : t.tun.weak = weakKept { s with sd := d } := by rw [hstep.rest]
  exact ⟨t, hexec.trans ht, by rw [hw]; exact hstep, hw⟩

/-- What a command that hands over a block makes of the state. -/
theorem blockHanded_of (w : Word) (p : Nat) (e : Station)
    (hst : s.tun.state ∈ [TunerState.listening, .verifying]) (hfm : s.tun.tunedBand = .fm)
    (hg : g s = handBlock p w { s with sd := e }) : BlockHanded i w p e s := by
  have htaken : ∀ d, handBlock p w { s with sd := e } = { s with sd := d } → DecoderTaken i s d := fun d hd =>
    decoderTaken_of h hexec d (hg.trans hd)
  have hzero : ∀ w', handBlock 0 w' { s with sd := e }
      = receiveCode w' { s with sd := { e with group := ⟨some w', none, none, none⟩ } } := fun _ => rfl
  have hjoin : p ≠ 0 → s.tun.state = .listening →
      handBlock p w { s with sd := e } = { s with sd := e.joinGroup s.tun.code p w } := fun hp0 hl => by
    unfold handBlock
    rw [if_neg hp0, if_neg (by rw [show ({ s with sd := e } : State).tun.state = .listening from hl]; simp)]
    rfl
  have hstay : p ≠ 0 → s.tun.state = .verifying → handBlock p w { s with sd := e } = { s with sd := e } := fun hp0 hv => by
    unfold handBlock
    rw [if_neg hp0]
    exact if_pos hv
  refine ⟨fun hp0 hne => ?_, fun hp0 heq hl => ?_, fun hp0 heq hv hw => ?_, fun hp0 heq hv hw => ?_,
    fun hp1 hv => htaken _ (hstay (by omega) hv), fun hp1 hl => ?_, fun hp2 hno => ?_, fun hp2 hl k hk => ?_⟩
  · subst hp0
    refine htaken _ ((hzero w).trans ?_)
    unfold receiveCode
    rw [if_neg (by exact hne)]
    rfl
  · subst hp0
    intro fresh other bare
    have hconfirm : handBlock 0 w { s with sd := e } = { s with sd := fresh.confirmCode s.tun.expected w } := by
      rw [hzero w]
      unfold receiveCode
      rw [if_pos (by exact heq), if_neg (by rw [show State.tun _ = s.tun from rfl, hl]; simp)]
      rfl
    refine ⟨fun hno => htaken _ (hconfirm.trans ?_), fun ho => htaken _ (hconfirm.trans ?_)⟩
    · rw [confirmCode_same fresh s.tun.expected w hno]
    · rw [confirmCode_other fresh s.tun.expected w ho]
      rfl
  · subst hp0
    intro x pr
    have hz : g s = verifySwitch { s with sd := { e with group := ⟨some w, none, none, none⟩ } } := by
      rw [hg, hzero w]
      unfold receiveCode
      rw [if_pos (by exact heq), if_pos (by exact hv)]
      unfold verifyHanded
      rw [if_pos (by exact hv), if_pos (by exact hw)]
    have hform := verifySwitch_eq { s with sd := { e with group := ⟨some w, none, none, none⟩ } } hv
    dsimp only at hform
    rw [afSwitch_eq] at hform
    set z : State := { s with
      sd := { e with
        group := ⟨some w, none, none, none⟩
        af := if x.tunedCode ∈ e.af then
            (if pr.original ∈ e.af then e.af.filter fun y => y != x.tunedCode
              else e.af.map fun y => if y = x.tunedCode then pr.original else y)
          else if e.af.length < 12 ∧ pr.original ≠ x.tunedCode ∧ pr.original ∉ e.af then e.af ++ [pr.original]
          else e.af }
      agent := { s.agent with queue := queueWith s.agent.queue (targetAsked pr.band x.tunedCode x) }
      tun := { x with
        state := .listening, band := pr.band, code := x.tunedCode, verifyTimer := false, weak := 0,
        outcome := .afSwitched, outcomeCount := (x.outcomeCount + 1) % 65536 } } with hzdef
    have hraise : g s = raise .tuner z := hz.trans hform
    have hkeep : normWeak (g s) = raise .tuner z := by
      rw [hraise]
      exact normWeak_zero (by rw [raise_tuner])
    obtain ⟨t, ht, hstep⟩ := stationStep_of_eq (fun x => normWeak (g x)) s { z with att := told s.att } _ h hkeep
      (raise_tuner z) (setsMarks_told s z rfl rfl) told_station
    exact ⟨t, hexec.trans ht, hstep⟩
  · subst hp0
    intro x pr
    have hz : g s = verifyFailed { s with sd := { e with group := ⟨some w, none, none, none⟩ } } := by
      rw [hg, hzero w]
      unfold receiveCode
      rw [if_pos (by exact heq), if_pos (by exact hv)]
      unfold verifyHanded
      rw [if_pos (by exact hv), if_neg (by exact hw)]
    have htake : takingBits s.tun = true := (takingBits_iff _).mpr ⟨hst, hfm⟩
    set F := (s.fe.abandon (abandonsOf true)).send (.tune pr.band x.region pr.original .plain) with hF
    have hform := verifyFailed_eq { s with sd := { e with group := ⟨some w, none, none, none⟩ } } hv
    dsimp only at hform
    rw [htake] at hform
    obtain ⟨t, ht, hstep⟩ := tunerStep (fun x => normWeak (g x)) true false s
      { s with
        fe := F, meas := readingAbandoned s.meas
        sd := bitsStopped true { e with group := ⟨some w, none, none, none⟩ }
        tun := { x with
          state := .tuning, reason := .verifyFailed, backoff := true, weak := 0, settleTimer := false,
          readingTimer := false, queryTimer := false, verifyTimer := false } }
      (plainMoved { s with
        sd := { e with group := ⟨some w, none, none, none⟩ }, tun := { s.tun with backoff := true } }) h (by
        show normWeak (g s) = _
        rw [hz, hform, normWeak_eq, weakKept_backoff _ rfl]
        rfl)
    have hfe : t.fe = F := by
      rw [hstep.rest]
      rfl
    exact ⟨t, hexec.trans ht, hfe ▸ hstep, hfe ▸ sent_of_abandon _ _ _⟩
  · subst hp1
    intro n cat toggle turned bare
    refine htaken _ ((hjoin (by simp) hl).trans ?_)
    have hp1 := receiveP1_eq { e with group := { e.group with p1 := some w } } w
    exact congrArg (fun d => ({ s with sd := d } : State)) hp1
  · rcases (by simpa using hst : s.tun.state = .listening ∨ s.tun.state = .verifying) with hl | hv
    · refine htaken _ ((hjoin (by omega) hl).trans (congrArg (fun d => ({ s with sd := d } : State)) ?_))
      unfold Station.joinGroup
      rw [if_neg (by omega), hno]
    · exact htaken _ (hstay (by omega) hv)
  · intro n G kind seg
    have hpos : p = 2 ∨ 3 ≤ p := by omega
    have hjoined : e.joinGroup s.tun.code p w
        = if p = 2 then G.receiveP2 s.tun.code k w else G.receiveP3 s.tun.code k w := by
      unfold Station.joinGroup
      rw [if_neg (by omega), hk]
      dsimp only
      split
      · rename_i hp
        simp only [G, if_pos hp]
      · rename_i hp
        simp only [G, if_neg hp]
    have hset : ∀ d, e.joinGroup s.tun.code p w = d → DecoderTaken i s d := fun d hd =>
      htaken d ((hjoin (by omega) hl).trans (congrArg (fun d => ({ s with sd := d } : State)) hd))
    have htype : groupType k = kind := by
      have := k.isLt
      show k.toNat / 2 ^ 12 % 2 ^ 4 = k.toNat / 4096
      omega
    have hseg : groupSegment k = seg := rfl
    have hpart : (p = 2 → e.joinGroup s.tun.code p w = G.receiveP2 s.tun.code k w)
        ∧ (3 ≤ p → e.joinGroup s.tun.code p w = G.receiveP3 s.tun.code k w) := by
      refine ⟨fun hp => hjoined.trans (if_pos hp), fun hp => hjoined.trans (if_neg (by omega))⟩
    have hkeep : G.af = e.af ∧ G.candidate = e.candidate ∧ G.confirmed = e.confirmed := ⟨rfl, rfl, rfl⟩
    have hp2 : 3 ≤ p → G.group.p2 = e.group.p2 := fun hp => by
      simp only [G]
      rw [if_neg (by omega)]
    obtain ⟨hjoin2, hjoin3⟩ := hpart
    obtain ⟨htwoAf, htwoName, htwoElse⟩ := receiveP2_of G s.tun.code k w
    obtain ⟨hthreeAf, hthreeText, hthreeElse⟩ := receiveP3_of G s.tun.code k w
    rw [htype] at htwoAf htwoName htwoElse hthreeAf hthreeText hthreeElse
    refine ⟨fun hkind => ?_, fun hkind hp hs => ?_, fun hkind hp => ?_, fun hkind hp hs q hq => ?_, fun hother => ?_⟩
    · intro offers
      refine hset _ (Eq.trans ?_ (receiveAf_eq G s.tun.code w))
      rcases hpos with hp | hp
      · rw [hjoin2 hp, htwoAf hkind]
      · rw [hjoin3 hp, hthreeAf hkind]
    · refine hset _ (Eq.trans ?_ (receiveName_eq G seg w))
      rw [hjoin2 hp, htwoName hkind, hseg, if_pos hs]
    · refine hset _ ?_
      rw [hjoin2 hp, htwoElse (by omega)]
    · have hp : 3 ≤ p := hp.ge
      refine hset _ (Eq.trans ?_ (receiveText_eq G seg (q, w)))
      rw [hjoin3 hp, hthreeText q hkind ((hp2 hp).trans hq), hseg, if_pos hs]
    · refine hset _ ?_
      rcases hpos with hp | hp
      · rw [hjoin2 hp]
        by_cases h1 : kind = 1
        · rw [htwoName h1, hseg, if_neg (by omega)]
        · exact htwoElse (by omega)
      · rw [hjoin3 hp]
        by_cases hk2 : kind = 2
        · cases hq : e.group.p2 with
          | none => exact hthreeElse (by omega) (.inr ((hp2 hp).trans hq))
          | some q =>
            have hlong : 11 < seg := by
              rcases hother with h | h | ⟨-, -, h | h⟩
              · omega
              · omega
              · rw [hq] at h
                simp at h
              · exact h
            rw [hthreeText q hk2 ((hp2 hp).trans hq), hseg, if_neg (by omega)]
        · exact hthreeElse (by omega) (.inl hk2)

end Handed

end Sys2Proof.Machine

end

/-! The bits and the blocks of the station signal (R178 to R181, R186). -/

section

set_option autoImplicit false

namespace Sys2Proof.Machine

/-! ### The sync state under a block handed over -/

/-- The part of the decoder that the judgement of a block sets. -/
def SyncKept (d e : Station) : Prop := e.sync = d.sync ∧ e.badCount = d.badCount ∧ e.expected = d.expected

theorem confirmCode_sync (d : Station) (x : Option Word) (w : Word) : SyncKept d (d.confirmCode x w) := by
  by_cases h : OtherStation d.confirmed.code x w
  · rw [confirmCode_other d x w h]
    exact ⟨rfl, rfl, rfl⟩
  · rw [confirmCode_same d x w h]
    exact ⟨rfl, rfl, rfl⟩

theorem receiveP2_sync (d : Station) (target : Nat) (k w : Word) : SyncKept d (d.receiveP2 target k w) := by
  unfold Station.receiveP2
  split
  · rw [receiveAf_eq]
    exact ⟨rfl, rfl, rfl⟩
  · split
    · rw [receiveName_eq]
      exact ⟨rfl, rfl, rfl⟩
    · exact ⟨rfl, rfl, rfl⟩
  · exact ⟨rfl, rfl, rfl⟩

theorem receiveP3_sync (d : Station) (target : Nat) (k w : Word) : SyncKept d (d.receiveP3 target k w) := by
  unfold Station.receiveP3
  split
  · rw [receiveAf_eq]
    exact ⟨rfl, rfl, rfl⟩
  · split
    · rw [receiveText_eq]
      exact ⟨rfl, rfl, rfl⟩
    · exact ⟨rfl, rfl, rfl⟩
  · exact ⟨rfl, rfl, rfl⟩

theorem joinGroup_sync (d : Station) (target p : Nat) (w : Word) : SyncKept d (d.joinGroup target p w) := by
  unfold Station.joinGroup
  split
  · rw [receiveP1_eq]
    exact ⟨rfl, rfl, rfl⟩
  · split
    · exact ⟨rfl, rfl, rfl⟩
    · split
      · exact receiveP2_sync _ _ _ _
      · exact receiveP3_sync _ _ _ _

/-- The sync state after a block has been handed over: a code that refutes the tuned one ends the taking of bits. -/
structure HandedSync (s t : State) : Prop where
  sync : t.sd.sync = (if takingBits t.tun = true then s.sd.sync else .idle)
  badCount : t.sd.badCount = s.sd.badCount
  expected : t.sd.expected = s.sd.expected

theorem handedSync_of_decoder {s t : State} (ht : takingBits t.tun = true) (h : SyncKept s.sd t.sd) : HandedSync s t :=
  ⟨by rw [if_pos ht, h.1], h.2.1, h.2.2⟩

theorem verifyHanded_sync (w : Word) (s : State) (hv : s.tun.state = .verifying) (ht : takingBits s.tun = true) :
    HandedSync s (verifyHanded w s) := by
  unfold verifyHanded
  rw [if_pos hv]
  split
  · rw [verifySwitch_eq s hv, raise_tuner]
    exact handedSync_of_decoder ((takingBits_iff _).mpr ⟨by simp, ((takingBits_iff _).mp ht).2⟩) ⟨rfl, rfl, rfl⟩
  · have hform := verifyFailed_eq s hv
    dsimp only at hform
    rw [hform, ht]
    exact ⟨rfl, rfl, rfl⟩

theorem handBlock_sync (p : Nat) (w : Word) (s : State) (ht : takingBits s.tun = true) :
    HandedSync s (handBlock p w s) := by
  unfold handBlock
  split
  · unfold receiveCode
    split
    · split
      · rename_i hv
        obtain ⟨h1, h2, h3⟩ := verifyHanded_sync w (updSd (fun d => { d with group := { Group.empty with p0 := some w } }) s) hv ht
        exact ⟨h1, h2, h3⟩
      · exact handedSync_of_decoder ht (confirmCode_sync _ _ _)
    · exact handedSync_of_decoder ht ⟨rfl, rfl, rfl⟩
  · split
    · exact handedSync_of_decoder ht ⟨rfl, rfl, rfl⟩
    · exact handedSync_of_decoder ht (joinGroup_sync _ _ _ _)

/-! ### The validity of a block (R179) -/

/-- Validity as the spec writes it. -/
theorem validAt_iff (block p : Nat) : validAt block p = true
    ↔ BitVec.ofNat 8 block = crc8 (BitVec.ofNat 16 (block / 256)) ^^^
        (match p with | 0 => 0x3C#8 | 1 => 0x5A#8 | 2 => 0x96#8 | _ => 0xE1#8) := by
  rw [validAt, beq_iff_eq]
  rfl

theorem validPosition_some (block p : Nat) (hp : p ≤ 3) (h : validAt block p = true)
    (hfirst : ∀ q, q < p → ¬validAt block q = true) : validPosition block = some p := by
  unfold validPosition
  rw [List.find?_eq_some_iff_append]
  refine ⟨h, List.range' 0 p, List.range' (p + 1) (3 - p), ?_, fun q hq => ?_⟩
  · obtain rfl | rfl | rfl | rfl : p = 0 ∨ p = 1 ∨ p = 2 ∨ p = 3 := by omega
    all_goals rfl
  · have : q < p := by simpa using hq
    simpa using hfirst q this

theorem validPosition_none (block : Nat) (h : ∀ p, p ≤ 3 → ¬validAt block p = true) : validPosition block = none := by
  unfold validPosition
  rw [List.find?_eq_none]
  intro q hq
  refine h q ?_
  simp only [List.mem_cons, List.not_mem_nil, or_false] at hq
  omega

/-! ### A bit in each sync state (R180, R181) -/

section Bit

variable (bit : Bool) (s : State) (ht : takingBits s.tun = true)

include ht

theorem takeBit_search (h : s.sd.sync = .search) :
    takeBit bit s = { s with sd := { s.sd with gapTimer := true }.searchBit bit } := by
  unfold takeBit
  rw [if_pos ht, h]
  rfl

theorem takeBit_acquires (h : s.sd.sync = .acquiring) (hw : 24 ≤ (s.sd.window ++ [bit]).length) :
    takeBit bit s = acquireBlock (s.sd.window ++ [bit]) { s with sd := { s.sd with gapTimer := true } } := by
  unfold takeBit
  rw [if_pos ht, h]
  exact if_neg (by unfold blockBits; omega)

theorem takeBit_synced (h : s.sd.sync = .synced) (hw : 24 ≤ (s.sd.window ++ [bit]).length) :
    takeBit bit s = syncedBlock (s.sd.window ++ [bit]) { s with sd := { s.sd with gapTimer := true } } := by
  unfold takeBit
  rw [if_pos ht, h]
  exact if_neg (by unfold blockBits; omega)

end Bit

/-- The fourth valid block (R180). -/
theorem acquire_hands (bit : Bool) (s : State) (ht : takingBits s.tun = true) (h : s.sd.sync = .acquiring)
    (hw : 24 ≤ (s.sd.window ++ [bit]).length)
    (hv : validAt (numOfBits (s.sd.window ++ [bit])) s.sd.expected = true) (hn : 4 ≤ s.sd.validCount + 1) :
    takeBit bit s = handBlock s.sd.expected (BitVec.ofNat 16 (numOfBits (s.sd.window ++ [bit]) / 256))
      { s with
        sd := { s.sd with
          window := [], validCount := s.sd.validCount + 1, expected := (s.sd.expected + 1) % 4, sync := .synced
          badCount := 0, gapTimer := true } } := by
  rw [takeBit_acquires bit s ht h hw]
  unfold acquireBlock
  exact (if_pos hv).trans (if_pos hn)

theorem exec_stationBit (bit : Bool) (s : State) :
    exec (.stationDataBit bit) s = act (fun x => normWeak (takeBit bit x)) s := rfl

/-- A bit that changes the decoder alone. -/
theorem stationBit_decoder (bit : Bool) (s : State) (h : s.rstnLow = false) (d : Station)
    (hd : takeBit bit s = { s with sd := d }) (haf : d.af = s.sd.af) (hc : d.confirmed = s.sd.confirmed) :
    ∃ t, exec (.stationDataBit bit) s = .next t
      ∧ StationStep s { s with tun := { s.tun with weak := weakKept s }, sd := d } t := by
  obtain ⟨t, he, hstep, hw⟩ := decoderTaken_of h (exec_stationBit bit s) d hd
  have hkeep : weakKept { s with sd := d } = weakKept s := by
    unfold weakKept afActive stationCode
    dsimp only
    rw [haf, hc]
  rw [hw, hkeep] at hstep
  exact ⟨t, he, hstep⟩

/-- The information word of a block. -/
theorem blockInfo_eq (n : Nat) : blockInfo n = BitVec.ofNat 16 (n / 256) := rfl

theorem crc8_1234 : crc8 0x1234#16 = 0xF1#8 := by decide +kernel

/-- Settles O57, by the sync state and the validity of the block that the bit completes. -/
theorem stationBitsFindSync : Obligations.StationBitsFindSync := by
  refine ⟨crc8_divides, crc8_1234, takingBits_iff, fun bit s h => ?_⟩
  intro d takes b w seen valid into
  have hexec := exec_stationBit bit s
  have hvalid : ∀ bits p, valid bits p ↔ validAt (numOfBits bits) p = true := fun bits p => (validAt_iff _ p).symm
  have hinto : ∀ d' : Station, takeBit bit s = { s with sd := { d' with gapTimer := true } } → d'.af = d.af →
      d'.confirmed = d.confirmed → into d' := fun d' hd haf hc => stationBit_decoder bit s h _ hd haf hc
  refine ⟨fun hno => ?_, fun htakes => ?_, fun hg htakes => ?_, fun hg => ?_⟩
  · have hnot : ¬takingBits s.tun = true := fun k => hno ((takingBits_iff _).mp k)
    rw [hexec]
    exact tunerIdle _ s h (if_neg hnot)
  · have ht : takingBits s.tun = true := (takingBits_iff _).mpr htakes
    obtain ⟨hst, hfm⟩ := htakes
    refine ⟨fun hs hbad => ?_, fun p hp hs hlen hv hfirst => ?_, fun hs hlen => ?_, fun hs hlen hv => ?_,
      fun hs hlen hv hn => ?_, fun hs hlen hv hn => ?_, fun hs hlen hv hn => ?_, fun hs hlen hv => ?_,
      fun hs hlen hv => ?_⟩
    · refine hinto _ ?_ rfl rfl
      rw [takeBit_search bit s ht hs]
      unfold Station.searchBit
      by_cases hshort : seen.length < 24
      · exact congrArg (fun e => ({ s with sd := e } : State)) (if_pos hshort)
      · have hnone := validPosition_none (numOfBits seen) fun p hp k =>
          (hbad.resolve_left hshort) p hp ((hvalid seen p).mpr k)
        refine congrArg (fun e => ({ s with sd := e } : State)) ((if_neg hshort).trans ?_)
        rw [show slide _ bit = seen from rfl, hnone]
    · refine hinto _ ?_ rfl rfl
      rw [takeBit_search bit s ht hs]
      unfold Station.searchBit
      have hsome := validPosition_some (numOfBits seen) p hp ((hvalid seen p).mp hv) fun q hq k =>
        hfirst q hq ((hvalid seen q).mpr k)
      refine congrArg (fun e => ({ s with sd := e } : State))
        ((if_neg (show ¬seen.length < 24 by omega)).trans ?_)
      rw [show slide _ bit = seen from rfl, hsome]
      rfl
    · exact hinto _ (takeBit_fills bit s ht hs hlen) rfl rfl
    · refine hinto _ ?_ rfl rfl
      rw [takeBit_acquires bit s ht hs hlen]
      unfold acquireBlock
      exact if_neg fun k => hv ((hvalid _ _).mpr k)
    · refine hinto _ ?_ rfl rfl
      rw [takeBit_acquires bit s ht hs hlen]
      unfold acquireBlock
      exact (if_pos ((hvalid _ _).mp hv)).trans (if_neg (by exact Nat.not_le.mpr hn))
    · have hform := acquire_hands bit s ht hs hlen ((hvalid _ _).mp hv) hn
      have hkeep := handBlock_sync d.expected (BitVec.ofNat 16 (numOfBits w / 256))
        { s with
          sd := { d with
            window := [], validCount := d.validCount + 1, expected := (d.expected + 1) % 4, sync := .synced
            badCount := 0, gapTimer := true } } ht
      refine ⟨_, by rw [hexec, act_high _ s h], ?_⟩
      rw [hform, publish_eq, normWeak_eq]
      exact ⟨hkeep.sync, hkeep.badCount, hkeep.expected⟩
    · exact blockHanded_of h hexec _ _ _ hst hfm (acquire_hands bit s ht hs hlen ((hvalid _ _).mp hv) hn)
    · refine blockHanded_of h hexec _ _ _ hst hfm ?_
      rw [takeBit_synced bit s ht hs hlen]
      unfold syncedBlock
      exact if_pos ((hvalid _ _).mp hv)
    · refine hinto _ ?_ rfl rfl
      rw [takeBit_synced bit s ht hs hlen]
      unfold syncedBlock
      refine (if_neg fun k => hv ((hvalid _ _).mpr k)).trans ?_
      have hsync : (if 24 ≤ d.badCount + 1 then SyncState.search else d.sync)
          = if 24 ≤ d.badCount + 1 then .search else .synced := by
        rw [hs]
      rw [← hsync]
      rfl
  · have ht : takingBits s.tun = true := (takingBits_iff _).mpr htakes
    refine stationStep_of_eq gapExpiry s
      { s with sd := { d with window := [], group := .empty, sync := .search, gapTimer := false } }
      { s with sd := { d with window := [], group := .empty, sync := .search, gapTimer := false } } h ?_ rfl
      (.same _ _ rfl) id
    unfold gapExpiry
    rw [if_pos (by rw [show s.sd.gapTimer = true from hg, ht]; rfl)]
    rfl
  · have hnot : ¬(s.sd.gapTimer && takingBits s.tun) = true := by
      rcases hg with hg | hg
      · rw [show s.sd.gapTimer = false from hg]
        simp
      · rw [Bool.and_eq_true]
        exact fun k => hg ((takingBits_iff _).mp k.2)
    exact act_same h (if_neg hnot)

/-- Settles O58, by the validity of the block. -/
theorem stationBlocksConfirmOnRepeat : Obligations.StationBlocksConfirmOnRepeat := by
  refine ⟨fun _ => rfl, fun block s h hst hfm hs hw hp => ?_⟩
  intro w p valid d
  have ht : takingBits s.tun = true := (takingBits_iff _).mpr ⟨hst, hfm⟩
  obtain ⟨init, hexec⟩ := exec_stationBlock block s h ht hs hw
  have hnum : numOfBits (bitsOf 24 block.toNat) = block.toNat := by
    rw [numOfBits_bitsOf, Nat.mod_eq_of_lt block.isLt]
  have hinfo : BitVec.ofNat 16 (block.toNat / 256) = w := by
    apply BitVec.eq_of_toNat_eq
    simp [w, Nat.shiftRight_eq_div_pow]
  have hcheck : BitVec.ofNat 8 block.toNat = block.extractLsb' 0 8 := by
    apply BitVec.eq_of_toNat_eq
    simp
  have hvalid : validAt block.toNat p = true ↔ valid := by
    have hform := validAt_iff block.toNat p
    rw [hinfo, hcheck] at hform
    exact hform
  refine ⟨fun hv => ?_, fun hv => ?_⟩
  · refine decoderTaken_of h hexec _ ?_
    unfold syncedBlock
    rw [hnum]
    refine (if_neg fun k => hv (hvalid.mp k)).trans ?_
    have hsync : (if 24 ≤ s.sd.badCount + 1 then SyncState.search else s.sd.sync)
        = if 24 ≤ s.sd.badCount + 1 then .search else .synced := by
      rw [hs]
    show ({ s with sd := _ } : State) = _
    refine congrArg (fun e => ({ s with sd := e } : State)) ?_
    rw [← hsync, show d = { s.sd with window := [], gapTimer := true, expected := (p + 1) % 4 } by rw [← hw]]
    rfl
  · refine blockHanded_of h hexec w p _ hst hfm ?_
    unfold syncedBlock
    rw [hnum]
    refine (if_pos (hvalid.mpr hv)).trans ?_
    rw [show blockInfo block.toNat = w from hinfo,
      show d = { s.sd with window := [], gapTimer := true, expected := (p + 1) % 4 } by rw [← hw]]
    rfl

end Sys2Proof.Machine

end

/-! What the records hold and where they stand (R190, R193, R194). -/

section

set_option autoImplicit false

namespace Sys2Proof.Machine

/-! ### Codes and flags (R193) -/

theorem flagBits_nil : flagBits [] = 0 := rfl

theorem flagBits_cons (b : Bool) (i : Nat) (fs : List (Bool × Nat)) : flagBits ((b, i) :: fs) = bitAt b i + flagBits fs := by
  simp [flagBits, bitAt]

theorem sourceCode_place (x : Option Source) : sourceCode x = placeIn sourceNames x := by
  rcases x with _ | ⟨l | m | _⟩
  · rfl
  · cases l <;> rfl
  · cases m <;> rfl
  · rfl

theorem zoneStateCode_place (x : ZoneState) :
    zoneStateCode x = placeIn [.silent, .fadingOut, .waiting, .fadingIn, .playing, .reconfiguring] x := by
  cases x <;> rfl

theorem lockStateCode_place (x : LockState) :
    lockStateCode x = placeIn [.noClock, .measuring, .locked, .unsupported] x := by
  cases x <;> rfl

theorem classCode_place (x : Option RateClass) :
    classCode x = placeIn [none, some .k32, some .k44, some .k48, some .k88, some .k96] x := by
  rcases x with _ | c
  · rfl
  · cases c <;> rfl

theorem formatCode_place (x : Format) : formatCode x = placeIn [.stereo, .tdm8] x := by
  cases x <;> rfl

theorem streamStateCode_place (x : StreamState) : streamStateCode x = placeIn streamNames x := by
  cases x <;> rfl

theorem moduleStateCode_place (x : ModuleState) :
    moduleStateCode x = placeIn [.off, .starting, .on, .stopping, .tripped] x := by
  cases x <;> rfl

theorem causeCode_place (x : TripCause) : causeCode x = placeIn [.none, .faultLine, .measure, .clock] x := by
  cases x <;> rfl

theorem reasonCode_place (x : BlockReason) :
    reasonCode x = placeIn [.none, .partialWrite, .partOwned, .locked, .state, .value] x := by
  cases x <;> rfl

theorem resultCode_place (x : CheckResult) : resultCode x = placeIn [.running, .pass, .fail] x := by
  cases x <;> rfl

theorem clockCode_place (x : ClockState) : clockCode x = placeIn [.unproven, .good, .failed] x := by
  cases x <;> rfl

theorem allocCode_place (x : AllocState) : allocCode x = placeIn [.settled, .requested, .waitingRoom] x := by
  cases x <;> rfl

theorem hostStatusCode_place (x : HostStatus) :
    hostStatusCode x = placeIn [.none, .waiting, .converting, .done] x := by
  cases x <;> rfl

theorem tunerStateCode_place (x : TunerState) : tunerStateCode x
    = placeIn [.off, .tuning, .settling, .listening, .seeking, .probing, .verifying, .fault] x := by
  cases x <;> rfl

theorem outcomeCode_place (x : LongOutcome) : outcomeCode x
    = placeIn [.none, .tuned, .seekFound, .seekNone, .seekStopped, .recalled, .stored, .afSwitched, .afReturned,
        .afStayed, .invalid, .feFault] x := by
  cases x <;> rfl

theorem syncCode_place (x : SyncState) : syncCode x = placeIn [.idle, .search, .acquiring, .synced] x := by
  cases x <;> rfl

theorem modeCode_place (x : DecodeMode) : modeCode x = placeIn [.direct, .matrix, .stereo] x := by
  cases x <;> rfl

theorem speedCode_place (x : SteerSpeed) : speedCode x = placeIn [.fast, .normal, .slow] x := by
  cases x <;> rfl

theorem lockWord_place (x : SetupLock) : lockWord x = BitVec.ofNat 16 (placeIn [.unlocked, .locked, .pending] x) := by
  cases x <;> rfl

/-! ### Lists of fields -/

theorem packFlags_shifted (bs : List Bool) (k : Nat) :
    packFlags bs * 2 ^ k = ((bs.mapIdx fun i b => (b, i + k)).map fun f => if f.1 then 2 ^ f.2 else 0).sum := by
  induction bs generalizing k with
  | nil => simp [packFlags]
  | cons b bs ih =>
    have hnext := ih (k + 1)
    have hidx : ∀ i, i + (k + 1) = i + 1 + k := fun i => by omega
    simp only [hidx] at hnext
    simp only [List.mapIdx_cons, List.map_cons, List.sum_cons, packFlags, Nat.add_mul, Nat.zero_add]
    rw [← hnext]
    have hpow : 2 * packFlags bs * 2 ^ k = packFlags bs * 2 ^ (k + 1) := by ring
    rw [hpow]
    cases b <;> simp [bitAt]

/-- Flags packed from bit 0 upward stand each at its place (R194). -/
theorem packFlags_eq {α : Type} (l : List (Option α)) :
    packFlags (l.map Option.isSome) = flagBits (l.mapIdx fun i x => (x.isSome, i)) := by
  have h := packFlags_shifted (l.map Option.isSome) 0
  rw [Nat.pow_zero, Nat.mul_one] at h
  rw [h, flagBits]
  congr 2
  apply List.ext_getElem? fun i => ?_
  simp only [List.getElem?_mapIdx, List.getElem?_map, Option.map_map]
  rfl

/-- A list cut to `n` words and filled up with zeros. -/
theorem padded_eq {α : Type} (n : Nat) (f : α → Word) (l : List α) :
    let ws := (l.take n).map f
    ws ++ List.replicate (n - ws.length) 0 = (List.range n).map fun k => (l[k]?).elim 0 f := by
  intro ws
  have hws : ws.length = min n l.length := by simp [ws]
  apply List.ext_getElem? fun i => ?_
  by_cases hi : i < n
  · rw [List.getElem?_map, List.getElem?_range hi]
    by_cases hl : i < l.length
    · rw [List.getElem?_append_left (by omega)]
      simp [ws, hi, hl]
    · rw [List.getElem?_append_right (by omega), List.getElem?_replicate, if_pos (by omega)]
      have hnone : l[i]? = none := List.getElem?_eq_none (by omega)
      simp [hnone]
  · rw [List.getElem?_eq_none (by simp; omega), List.getElem?_eq_none (by simp; omega)]

/-- Two words per item. -/
theorem pairs_get {α : Type} (f g : α → Word) (l : List α) (i : Nat) (x : α) (h : l[i]? = some x) :
    (l.flatMap fun t => [f t, g t])[2 * i]? = some (f x) ∧ (l.flatMap fun t => [f t, g t])[2 * i + 1]? = some (g x) := by
  induction l generalizing i with
  | nil => simp at h
  | cons y l ih =>
    cases i with
    | zero =>
      simp only [List.getElem?_cons_zero, Option.some.injEq] at h
      simp [h]
    | succ i =>
      have hl := ih i (by simpa using h)
      rw [List.flatMap_cons, show 2 * (i + 1) = 2 * i + 2 by omega, show 2 * i + 2 + 1 = 2 * i + 1 + 2 by omega]
      exact hl

theorem textWords_get (s : State) (first i : Nat) (x : Option (Word × Word)) (hi : i < 6)
    (h : s.sd.confirmed.texts[first + i]? = some x) :
    (textWords s first)[2 * i]? = some (x.getD (0, 0)).1 ∧ (textWords s first)[2 * i + 1]? = some (x.getD (0, 0)).2 := by
  have hform : textWords s first = ((s.sd.confirmed.texts.drop first).take 6).flatMap
      fun t => [(t.getD (0, 0)).1, (t.getD (0, 0)).2] := by
    unfold textWords
    congr 1
    funext t
    cases t <;> rfl
  rw [hform]
  refine pairs_get _ _ _ i x ?_
  rw [List.getElem?_take, if_pos hi, List.getElem?_drop, h]

/-- The codes of the first three requests of the queue (R194). -/
theorem queueWord_eq (q : List OnDemand) : queueWord q
    = BitVec.ofNat 16 ((List.range 3).map fun k => 4 ^ k * (q[k]?).elim 0 requesterCode).sum := by
  have hsum : ∀ f : Nat → Nat, ((List.range 3).map f).sum = f 0 + f 1 + f 2 := fun f => by
    simp [List.range, List.range.loop, Nat.add_assoc]
  rw [hsum]
  rcases q with _ | ⟨a, _ | ⟨b, _ | ⟨c, q⟩⟩⟩
  all_goals simp [queueWord, numWord]

/-- The entries that name a module. -/
theorem moduleEntryWords_eq (s : State) (m : AmpModule) :
    moduleEntryWords s m = (List.range 8).map fun k =>
      (((List.range s.meas.entries.length).filter fun n => (s.meas.entry n).module = some m)[k]?).elim 0
        fun n => moduleEntryWord n (s.meas.entry n) := by
  have hidx : s.meas.entries.mapIdx (fun i e => (i, e))
      = (List.range s.meas.entries.length).map fun n => (n, s.meas.entry n) := by
    apply List.ext_getElem? fun i => ?_
    rw [List.getElem?_mapIdx, List.getElem?_map]
    by_cases hi : i < s.meas.entries.length
    · rw [List.getElem?_range hi, List.getElem?_eq_getElem hi]
      simp [Meas.entry, hi]
    · rw [List.getElem?_eq_none (by omega), List.getElem?_eq_none (by simpa using hi)]
      rfl
  have hnamed : ((s.meas.entries.mapIdx fun i e => (i, e)).filter fun p => p.2.module == some m)
      = ((List.range s.meas.entries.length).filter fun n => (s.meas.entry n).module = some m).map
        fun n => (n, s.meas.entry n) := by
    rw [hidx, List.filter_map]
    congr 1
    apply List.filter_congr fun n _ => ?_
    exact beq_eq_decide _ _
  have hpad := padded_eq 8 (fun n => moduleEntryWord n (s.meas.entry n))
    ((List.range s.meas.entries.length).filter fun n => (s.meas.entry n).module = some m)
  refine Eq.trans ?_ hpad
  unfold moduleEntryWords
  rw [hnamed]
  simp only [← List.map_take, List.map_map, Function.comp_def]

/-! ### The tables (R194) -/

theorem records_offsets : records.map Rec.offset = (List.range 37).map fun i => 0x0400 + 0x20 * i := by decide

theorem recordTable : RecordTable := by
  refine ⟨fun i r h => ?_, fun r => ?_, fun r => ?_⟩
  · have hrecords : records[i]? = some r := h
    have hoff := congrArg (fun l => l[i]?) records_offsets
    simp only [List.getElem?_map, hrecords, Option.map_some] at hoff
    by_cases hi : i < 37
    · rw [List.getElem?_range hi] at hoff
      simpa using hoff
    · rw [List.getElem?_eq_none (by simpa using hi)] at hoff
      simp at hoff
  · cases r <;> simp [Rec.isAudio]
  · cases r <;> simp [Rec.isStation]

/-- Every record's words, field by field (R190, R193, R194). -/
theorem recordsHold (s : State) : RecordsHold s (BitVec.ofNat 16) (BitVec.ofInt 16) where
  device := by
    rw [← resultCode_place, ← clockCode_place, ← lockWord_place]
    simp only [flagBits_cons, flagBits_nil]
    show deviceWords s = _
    unfold deviceWords strapValue
    rw [Nat.add_comm (bitAt s.strap.1 1), Nat.add_zero]
    rfl
  attention := by
    rw [← reasonCode_place]
    rfl
  zone := fun z => by
    intro r
    rw [← zoneStateCode_place, ← sourceCode_place, ← sourceCode_place, ← modeCode_place, ← speedCode_place]
    simp only [flagBits_cons, flagBits_nil, Nat.add_zero, ← Nat.add_assoc]
    cases z <;> rfl
  line := fun l => by
    intro x
    rw [← lockStateCode_place, ← classCode_place, ← formatCode_place]
    simp only [flagBits_cons, flagBits_nil, Nat.add_zero]
    rfl
  stream := fun m => by
    intro x
    rw [← streamStateCode_place]
    refine ⟨?_, rfl⟩
    show sourceWords s (.ms m) = _
    unfold sourceWords bitAt
    simp only [beq_iff_eq]
    rfl
  radio := by
    show sourceWords s .tuner = _
    unfold sourceWords
    have hcarries : bitAt s.tun.carries 0 = if s.tun.state ∈ [TunerState.listening, .verifying] then 1 else 0 := by
      simp [bitAt, Tuner.carries]
    have hstereo : bitAt (!s.tun.stereo) 0 = if s.tun.stereo then 0 else 1 := by
      cases h : s.tun.stereo <;> simp [bitAt]
    rw [hcarries, hstereo]
    rfl
  meter := fun ch => by
    intro c
    simp only [flagBits_cons, flagBits_nil, Nat.add_zero]
    rfl
  module := fun m => by
    intro r naming
    rw [← moduleStateCode_place, ← causeCode_place]
    simp only [flagBits_cons, flagBits_nil, Nat.add_zero, ← Nat.add_assoc]
    show moduleWords s m = _
    unfold moduleWords
    rw [moduleEntryWords_eq]
    refine congrArg₂ (· ++ ·) rfl (List.map_congr_left fun k _ => ?_)
    show (naming[k]?).elim 0 _ = _
    cases naming[k]? <;> rfl
  entries := by
    have hrange : List.range 16 = entryNumbers.map Fin.val := by decide
    rw [hrange, List.map_map]
    simp only [flagBits_cons, flagBits_nil, Nat.add_zero]
    rfl
  onDemand := by
    rw [← hostStatusCode_place]
    show onDemandWords s = _
    unfold onDemandWords
    have hqueue : queueWord s.meas.queue = BitVec.ofNat 16 ((List.range 3).map fun k => 4 ^ k *
        match s.meas.queue[k]? with
        | none => 0
        | some (.tuner _) => 1
        | some .host => 2
        | some (.selfCheck _) => 3).sum := by
      rw [queueWord_eq]
      refine congrArg (fun l : List Nat => BitVec.ofNat 16 l.sum) (List.map_congr_left fun k _ => ?_)
      rcases s.meas.queue[k]? with _ | r
      · rfl
      · cases r <;> rfl
    exact congrArg (List.cons · _) hqueue
  tuner := by
    rw [← tunerStateCode_place, ← outcomeCode_place]
    simp only [flagBits_cons, flagBits_nil, Nat.add_zero, ← Nat.add_assoc]
    show tunerWords s = _
    unfold tunerWords
    dsimp only
    rw [show (s.tun.tunedBand == .am) = decide (s.tun.tunedBand = .am) from beq_eq_decide _ _]
    cases h : s.tun.transfer <;> rfl
  summary := by
    intro c
    rw [← syncCode_place, ← packFlags_eq, ← packFlags_eq]
    simp only [flagBits_cons, flagBits_nil, Nat.add_zero, ← Nat.add_assoc]
    show summaryWords s = _
    unfold summaryWords
    dsimp only
    have href : (s.sd.toggleRef == some true) = s.sd.toggleRef.getD false := by
      rcases s.sd.toggleRef with _ | b
      · rfl
      · cases b <;> rfl
    rw [href]
    rfl
  name := rfl
  text := fun i x hx hi => by
    intro held
    by_cases h6 : i < 6
    · have hheld : held = textWords s 0 := if_pos h6
      rw [hheld, Nat.mod_eq_of_lt h6]
      exact textWords_get s 0 i x h6 (by rwa [Nat.zero_add])
    · have hheld : held = textWords s 6 := if_neg h6
      rw [hheld, show i % 6 = i - 6 by omega]
      exact textWords_get s 6 (i - 6) x (by omega) (by rwa [show 6 + (i - 6) = i by omega])
  af := fun hlen => by
    show numWord s.sd.af.length :: (s.sd.af.map numWord ++ List.replicate (12 - s.sd.af.length) 0) = _
    congr 1
    apply List.ext_getElem? fun i => ?_
    by_cases hi : i < 12
    · rw [List.getElem?_map, List.getElem?_range hi]
      by_cases hl : i < s.sd.af.length
      · rw [List.getElem?_append_left (by simpa using hl)]
        simp [hl, numWord]
      · rw [List.getElem?_append_right (by simpa using hl), List.getElem?_replicate,
          if_pos (by rw [List.length_map]; omega)]
        simp [hl]
    · rw [List.getElem?_eq_none (by simp; omega), List.getElem?_eq_none (by simp; omega)]
  delay := by
    rw [← allocCode_place, ← allocCode_place]
    rfl

end Sys2Proof.Machine

end

/-! The part's turn at a free port (R12 to R16, R41). -/

section

set_option autoImplicit false

namespace Sys2Proof.Machine

/-! ### Bursts -/

/-- A write burst beside a change into `u`. -/
theorem burstWritten (owner : BurstOwner) (addr : Nat) (words : List Word) (s u t : State) (hm : MemoryCanonical s)
    (ht : t = { u with
      mem := s.mem.writeWords addr words
      agent := { u.agent with
        port := .part ⟨owner, addr, true, words, s.mem.readWords addr words.length, false⟩ } }) :
    BurstWritten owner addr words s u t := by
  subst ht
  refine ⟨⟨_, Memory.readWords_length _ _ _, fun i hi => Memory.readWords_get _ _ _ i hi, rfl⟩, fun i w hw => ?_,
    fun a ha => Memory.read_writeWords_ne words s.mem addr a ha⟩
  obtain ⟨hi, rfl⟩ := List.getElem?_eq_some_iff.1 hw
  exact Memory.readWord_writeWords words s.mem addr i hm hi

/-- A read burst. -/
theorem readBurst_eq (owner : BurstOwner) (addr n : Nat) (s : State) :
    ∃ ws : List Word, ws.length = n ∧ (∀ i, i < n → ws[i]? = some (s.mem.readWord (addr + 2 * i)))
      ∧ readBurst owner addr n s
        = { s with agent := { s.agent with port := .part ⟨owner, addr, false, ws, [], false⟩ } } :=
  ⟨_, Memory.readWords_length _ _ _, fun i hi => Memory.readWords_get _ _ _ i hi, rfl⟩

/-! ### Requests (R14, R41) -/

theorem fetchWanted_iff (s : State) (m : StreamId) (hp : s.agent.port = .free) :
    fetchWanted s m = true ↔ FetchDue s m := by
  have hfree : fetchInFlight s m = false := by simp [fetchInFlight, hp]
  have hform : fetchWanted s m = true ↔ s.audioRuns = true ∧ (s.ms.get m).state ≠ .stopped
      ∧ 0 < framesAvailable (s.ms.get m)
      ∧ (s.ms.get m).buffer.length + 16 / wordsOfFrame (s.ms.get m) ≤ 512 := by
    unfold fetchWanted Reader.active
    simp only [hfree, Bool.not_false, Bool.and_true, Bool.and_eq_true, decide_eq_true_eq, bne_iff_ne, and_assoc]
    exact Iff.rfl
  rw [hform]
  exact ⟨fun ⟨h1, h2, h3, h4⟩ => ⟨h1, h2, h3, h4⟩, fun h => ⟨h.runs, h.active, h.frames, h.room⟩⟩

theorem fetchRequest_some (s : State) (b : Bool) (m : StreamId) (hp : s.agent.port = .free) (hd : FetchDue s m)
    (hb : fetchUrgent s m = b) : fetchRequest s b m = some (.fetch m) := by
  unfold fetchRequest
  rw [if_pos (by rw [(fetchWanted_iff s m hp).2 hd, hb, beq_self_eq_true]; rfl)]

theorem fetchRequest_none (s : State) (b : Bool) (m : StreamId) (hp : s.agent.port = .free)
    (h : ¬(FetchDue s m ∧ fetchUrgent s m = b)) : fetchRequest s b m = none := by
  unfold fetchRequest
  refine if_neg fun k => h ?_
  rw [Bool.and_eq_true, beq_iff_eq, fetchWanted_iff s m hp] at k
  exact k

/-- A stream asks for an urgent fetch (R41). -/
def UrgentDue (s : State) (m : StreamId) : Prop := FetchDue s m ∧ (s.ms.get m).buffer.length < 128

theorem urgent_iff (s : State) (m : StreamId) : UrgentDue s m ↔ FetchDue s m ∧ fetchUrgent s m = true := by
  rw [fetchUrgent, decide_eq_true_eq]
  rfl

/-- The requests below a restore pass and the urgent fetches, by rank (R14). -/
theorem nextRequest_lower (s : State) (hp : s.agent.port = .free) (hr : s.agent.restore = none) (h1 : ¬UrgentDue s .ms1)
    (h2 : ¬UrgentDue s .ms2) : nextRequest s
    = [if s.agent.queue.isEmpty then none else some .writeBack,
        if s.tun.transfer = .none then none else some .preset,
        s.dirty.head?.map .report, fetchRequest s false .ms1, fetchRequest s false .ms2].findSome? id := by
  unfold nextRequest requestRanks
  rw [hr, fetchRequest_none s true .ms1 hp (by rwa [← urgent_iff]), fetchRequest_none s true .ms2 hp (by rwa [← urgent_iff])]
  rfl

/-! ### Turns -/

theorem restoreHolds_iff (s : State) (a : HostAccess) : restoreHolds s a = false ↔ MayGo s a := by
  refine ⟨fun h => ?_, restoreHolds_of_mayGo s a⟩
  unfold restoreHolds at h
  rw [Bool.and_eq_false_iff] at h
  rcases h with h | h
  · exact .inl (by simpa using h)
  · refine .inr fun off ho => ?_
    rw [ho] at h
    exact Nat.not_lt.1 (of_decide_eq_false h)

theorem heldMayGo_iff (s : State) : heldMayGo s = true ↔ ∃ h, s.agent.held = some h ∧ MayGo s h.access := by
  unfold heldMayGo
  cases hh : s.agent.held with
  | none => simp
  | some h => simp [← restoreHolds_iff]

section Turn

variable {s : State} (hr : s.rstnLow = false) (hp : s.agent.port = .free)
  (hgo : ¬(s.agent.lastPart = true ∧ ∃ h, s.agent.held = some h ∧ MayGo s h.access))

include hp hgo in
/-- The turn of a request. -/
theorem partTurn_issues (q : Request) (hq : nextRequest s = some q) : partTurn s = issue q s := by
  unfold partTurn
  rw [hp]
  simp only
  rw [if_neg (by rwa [Bool.and_eq_true, heldMayGo_iff]), hq]

include hp hgo in
/-- A turn without a request. -/
theorem partTurn_none (hq : nextRequest s = none) : partTurn s = carryHeld s := by
  unfold partTurn
  rw [hp]
  simp only
  rw [if_neg (by rwa [Bool.and_eq_true, heldMayGo_iff]), hq]

include hr in
/-- A turn that no record shows. -/
theorem issue_quiet (t : State) (ht : partTurn s = t) (hshown : ∀ r, r.isStream = false → recWords s r = recWords t r) :
    exec .partBurstIssue s = .next t := by
  have hexec : exec .partBurstIssue s = act partTurn s := rfl
  rw [hexec, act_high _ s hr, ht, publish_quiet s t hshown]

include hr hp hgo in
/-- A stream's turn (R41). -/
theorem fetch_issued (m : StreamId) (hq : nextRequest s = some (.fetch m)) :
    ∃ t, exec .partBurstIssue s = .next t ∧ FetchIssued m s t := by
  obtain ⟨ws, hlen, hws, hform⟩ := readBurst_eq (.fetch m (s.ms.get m).burstFrames) (s.ms.get m).fetchAddr
    ((s.ms.get m).burstFrames * (s.ms.get m).frameWords) s
  refine ⟨_, issue_quiet hr _ ((partTurn_issues hp hgo _ hq).trans hform) fun r _ => ?_, ws, hlen,
    fun i hi => hws i (hlen ▸ hi), rfl⟩
  exact recWords_congr _ _ rfl rfl rfl rfl rfl rfl rfl rfl rfl rfl rfl rfl rfl rfl r

end Turn

/-! ### The write-back run (R11) -/

theorem writeBackTail_queued (n : Nat) (last : Slot) (q : List Slot) : ∀ sl ∈ writeBackTail n last q, sl ∈ q := by
  induction n generalizing last with
  | zero => simp [writeBackTail]
  | succ n ih =>
    intro sl hsl
    unfold writeBackTail at hsl
    split at hsl
    · rename_i x hx
      rcases List.mem_cons.1 hsl with rfl | hsl
      · exact List.mem_of_find?_eq_some hx
      · exact ih x sl hsl
    · simp at hsl

/-- Each entry of a run stands at the next word above the one before it. -/
def ConsecutiveSlots (run : List Slot) : Prop := run.IsChain fun a b => b.offset = a.offset + 2

theorem writeBackTail_chain (n : Nat) (last : Slot) (q : List Slot) :
    ConsecutiveSlots (last :: writeBackTail n last q) := by
  induction n generalizing last with
  | zero => simp [writeBackTail, ConsecutiveSlots]
  | succ n ih =>
    unfold writeBackTail
    split
    · rename_i x hx
      have hoff := List.find?_some hx
      exact List.isChain_cons_cons.2 ⟨by simpa using hoff, ih x⟩
    · simp [ConsecutiveSlots]

theorem writeBackTail_length (n : Nat) (last : Slot) (q : List Slot) : (writeBackTail n last q).length ≤ n := by
  induction n generalizing last with
  | zero => simp [writeBackTail]
  | succ n ih =>
    unfold writeBackTail
    split
    · simpa using ih _
    · simp

/-- A run that ends early ends at a gap of the queue. -/
theorem writeBackTail_whole (n : Nat) (last : Slot) (q : List Slot) (h : (writeBackTail n last q).length < n) :
    ∀ a, (last :: writeBackTail n last q).getLast? = some a → ∀ b ∈ q, b.offset ≠ a.offset + 2 := by
  induction n generalizing last with
  | zero => simp at h
  | succ n ih =>
    unfold writeBackTail at h ⊢
    split
    · rename_i x hx
      simp only [hx, List.length_cons] at h
      rw [List.getLast?_cons_cons]
      exact ih x (by omega)
    · rename_i hx
      intro a ha b hb
      simp only [List.getLast?_singleton, Option.some.injEq] at ha
      have := List.find?_eq_none.1 hx b hb
      rw [← ha]
      simpa using this

theorem consecutive_steps {run : List Slot} (h : ConsecutiveSlots run) (i : Nat) (a b : Slot) (ha : run[i]? = some a)
    (hb : run[i + 1]? = some b) : b.offset = a.offset + 2 := by
  obtain ⟨hi, rfl⟩ := List.getElem?_eq_some_iff.1 ha
  obtain ⟨hj, rfl⟩ := List.getElem?_eq_some_iff.1 hb
  exact List.isChain_iff_getElem.1 h i hj

/-- No slot of an entry above the head's place stands before the head. -/
theorem chain_below {a : Slot} {run : List Slot} (h : ConsecutiveSlots (a :: run)) : ∀ b ∈ run, a.offset < b.offset := by
  induction run generalizing a with
  | nil => simp
  | cons c run ih =>
    obtain ⟨hac, hc⟩ := List.isChain_cons_cons.1 h
    intro b hb
    rcases List.mem_cons.1 hb with rfl | hb
    · omega
    · have := ih hc b hb
      omega

theorem writeBackTaken (q : List Slot) : WriteBackTaken q (writeBackRun q) := by
  cases q with
  | nil => exact ⟨rfl, by simp [writeBackRun], by simp [writeBackRun], by simp [writeBackRun], by simp [writeBackRun]⟩
  | cons a rest =>
    have hchain : ConsecutiveSlots (writeBackRun (a :: rest)) := writeBackTail_chain 15 a rest
    refine ⟨rfl, fun sl hsl => ?_, Nat.succ_le_succ (writeBackTail_length 15 a rest), fun i x y hx hy =>
      consecutive_steps hchain i x y hx hy, fun hlen x hx b hb => ?_⟩
    · rcases List.mem_cons.1 hsl with rfl | hsl
      · exact List.mem_cons_self
      · exact List.mem_cons_of_mem _ (writeBackTail_queued 15 a rest sl hsl)
    · rcases List.mem_cons.1 hb with rfl | hb
      · have hlast : x ∈ b :: writeBackTail 15 b rest := List.mem_of_getLast? hx
        rcases List.mem_cons.1 hlast with rfl | hlast
        · omega
        · have := chain_below hchain x hlast
          omega
      · exact writeBackTail_whole 15 a rest (Nat.lt_of_succ_lt_succ hlen) x hx b hb

end Sys2Proof.Machine

end

/-! The part's turn by rank (R14). -/

section

set_option autoImplicit false

namespace Sys2Proof.Machine

/-- The marks stand in order, so that the lowest one is the first (R16). -/
theorem head_of_lowest {s : State} (hd : MarksInOrder s) {r : Rec} (hr : r ∈ s.dirty)
    (hlow : ∀ x ∈ s.dirty, r.offset ≤ x.offset) : s.dirty.head? = some r := by
  unfold MarksInOrder at hd
  cases hs : s.dirty with
  | nil => simp [hs] at hr
  | cons a rest =>
    rw [hs] at hd hr hlow
    obtain ⟨ha, -⟩ := List.pairwise_cons.1 hd
    rcases List.mem_cons.1 hr with rfl | hrest
    · rfl
    · have h1 := ha r hrest
      have h2 := hlow a List.mem_cons_self
      omega

/-- One of a STORE's four bursts (R170). -/
theorem storePiece_eq (snap : List Word) (hlen : snap.length = 18) (base k addr : Nat) (ws : List Word) (hk : k < 4)
    (h : [(base, [snap.getD 0 0]), (base + 2, (snap.drop 1).take 16), (base + 34, [snap.getD 17 0]),
      (base, [snap.getD 0 0 ||| 1])][k]? = some (addr, ws)) :
    addr = base + 2 * (storePiece snap k).1 ∧ ws = (storePiece snap k).2 := by
  have hfirst : snap.take 1 = [snap.getD 0 0] := by
    rw [List.take_one, List.head?_eq_getElem?, List.getElem?_eq_getElem (by omega)]
    simp [hlen]
  have hlast : (snap.drop 17).take 1 = [snap.getD 17 0] := by
    rw [List.take_one, List.head?_drop, List.getElem?_eq_getElem (by omega)]
    simp [hlen]
  obtain rfl | rfl | rfl | rfl : k = 0 ∨ k = 1 ∨ k = 2 ∨ k = 3 := by omega
  all_goals
    simp only [List.getElem?_cons_zero, List.getElem?_cons_succ, Option.some.injEq, Prod.mk.injEq] at h
    obtain ⟨rfl, rfl⟩ := h
  · exact ⟨rfl, hfirst.symm⟩
  · exact ⟨rfl, rfl⟩
  · exact ⟨rfl, hlast.symm⟩
  · exact ⟨rfl, rfl⟩

/-- A STORE's first three bursts go on with the transfer (R170). -/
theorem storeBurst_goesOn (n k : Nat) (snap : List Word) (s : State) (hk : k < 3) : storeBurst n k snap s
    = { s with
        mem := s.mem.writeWords (presetAddr s n + 2 * (storePiece snap k).1) (storePiece snap k).2
        agent := { s.agent with
          port := .part ⟨.store n, presetAddr s n + 2 * (storePiece snap k).1, true, (storePiece snap k).2,
            s.mem.readWords (presetAddr s n + 2 * (storePiece snap k).1) (storePiece snap k).2.length, false⟩ }
        tun := { s.tun with transfer := .storing n (k + 1) snap } } := by
  unfold storeBurst
  exact if_pos hk

/-- A STORE's last burst ends the transfer and reports STORED (R164, R170). -/
theorem storeBurst_ends (n : Nat) (snap : List Word) (s : State) : storeBurst n 3 snap s
    = raise .tuner { s with
        mem := s.mem.writeWords (presetAddr s n + 2 * (storePiece snap 3).1) (storePiece snap 3).2
        agent := { s.agent with
          port := .part ⟨.store n, presetAddr s n + 2 * (storePiece snap 3).1, true, (storePiece snap 3).2,
            s.mem.readWords (presetAddr s n + 2 * (storePiece snap 3).1) (storePiece snap 3).2.length, false⟩ }
        tun := { s.tun with
          transfer := .none, outcome := .stored, outcomeCount := (s.tun.outcomeCount + 1) % 65536 } } := rfl

/-- The progress of a STORE shows on no record. -/
theorem storing_shown (s : State) (m : Memory) (g : Agent) (n k k' : Nat) (snap snap' : List Word)
    (h : s.tun.transfer = .storing n k snap) (r : Rec) :
    recWords s r = recWords { s with mem := m, agent := g, tun := { s.tun with transfer := .storing n k' snap' } } r := by
  cases r with
  | zone z => cases z <;> rfl
  | source x => cases x <;> rfl
  | tuner =>
    show tunerWords s = tunerWords _
    unfold tunerWords
    dsimp only
    rw [h]
    rfl
  | _ => rfl

section Ours

variable {s : State} (hm : MemoryCanonical s) (hr : s.rstnLow = false) (hp : s.agent.port = .free)
  (hrest : s.agent.restore = none) (h1 : ¬UrgentDue s .ms1) (h2 : ¬UrgentDue s .ms2)
  (hgo : ¬(s.agent.lastPart = true ∧ ∃ h, s.agent.held = some h ∧ MayGo s h.access))


include hm hr hp hrest h1 h2 hgo in
/-- The write-backs' turn (R11). -/
theorem writeBack_issued (hq : s.agent.queue ≠ []) : ∃ t, exec .partBurstIssue s = .next t
    ∧ ∃ run a, WriteBackTaken s.agent.queue run ∧ run.head? = some a
      ∧ BurstWritten .writeBack (slotAddr s a) (run.map (slotValue s)) s
        { s with agent := { s.agent with queue := s.agent.queue.filter fun sl => sl ∉ run } } t := by
  have hnext : nextRequest s = some .writeBack := by
    rw [nextRequest_lower s hp hrest h1 h2, if_neg (by simpa using hq)]
    rfl
  have htake := writeBackTaken s.agent.queue
  set run := writeBackRun s.agent.queue with hrun
  obtain ⟨a, ha⟩ : ∃ a, run.head? = some a := by
    rw [htake.head]
    cases hs : s.agent.queue with
    | nil => exact absurd hs hq
    | cons a rest => exact ⟨a, rfl⟩
  refine ⟨_, issue_quiet hr _ (partTurn_issues hp hgo _ hnext) fun r _ =>
    recWords_congr _ _ rfl rfl rfl rfl rfl rfl rfl rfl rfl rfl rfl rfl rfl rfl r, run, a, htake, ha, ?_⟩
  refine burstWritten _ _ _ _ _ _ hm ?_
  have haddr : s.apertureBase + runStart run = slotAddr s a := by
    unfold runStart
    rw [ha]
    rfl
  rw [← haddr]
  rfl

variable (hq : s.agent.queue = [])

include hp hrest h1 h2 hq in
theorem nextRequest_preset (ht : s.tun.transfer ≠ .none) : nextRequest s = some .preset := by
  rw [nextRequest_lower s hp hrest h1 h2, hq, if_neg ht]
  rfl

include hr hp hrest h1 h2 hgo hq in
/-- A recall's turn (R169). -/
theorem recall_issued (n addr : Nat) (got : List Word) (ht : s.tun.transfer = .recalling n got)
    (ha : addr = if got.isEmpty then presetAddr s n else presetAddr s n + 32) : ∃ t, exec .partBurstIssue s = .next t
    ∧ ∃ ws : List Word, ws.length = (if got.isEmpty then 16 else 2)
      ∧ (∀ i, i < ws.length → ws[i]? = some (s.mem.readWord (addr + 2 * i)))
      ∧ t = { s with agent := { s.agent with
          port := .part ⟨.recall n, addr, false, ws, [], false⟩ } } := by
  have hnext := nextRequest_preset hp hrest h1 h2 hq (by rw [ht]; simp)
  obtain ⟨ws, hlen, hws, hform⟩ := readBurst_eq (.recall n) addr (if got.isEmpty then 16 else 2) s
  have hburst : presetBurst s = readBurst (.recall n) addr (if got.isEmpty then 16 else 2) s := by
    unfold presetBurst
    rw [ht, ha]
    simp only
    split
    · rfl
    · rfl
  exact ⟨_, issue_quiet hr _ ((partTurn_issues hp hgo _ hnext).trans (hburst.trans hform)) fun r _ =>
    recWords_congr _ _ rfl rfl rfl rfl rfl rfl rfl rfl rfl rfl rfl rfl rfl rfl r, ws, hlen,
    fun i hi => hws i (hlen ▸ hi), rfl⟩

include hm hr hp hrest h1 h2 hgo hq in
/-- A STORE's turn (R170). -/
theorem store_issued (n k : Nat) (snap : List Word) (ht : s.tun.transfer = .storing n k snap) (hlen : snap.length = 18)
    (hk : k < 4) (addr : Nat) (ws : List Word)
    (hpiece : let base := s.apertureBase + 0x1000 + 64 * n
      [(base, [snap.getD 0 0]), (base + 2, (snap.drop 1).take 16), (base + 34, [snap.getD 17 0]),
        (base, [snap.getD 0 0 ||| 1])][k]? = some (addr, ws)) : ∃ t, exec .partBurstIssue s = .next t
    ∧ (k < 3 → BurstWritten (.store n) addr ws s
        { s with tun := { s.tun with transfer := .storing n (k + 1) snap } } t)
    ∧ (k = 3 → MarksExactly [] s t ∧ BurstWritten (.store n) addr ws s
        { s with
          tun := { s.tun with
            transfer := .none, outcome := .stored, outcomeCount := (s.tun.outcomeCount + 1) % 65536 }
          att := { s.att with pending := s.att.pending ||| 0x0100#16 }
          dirty := t.dirty } t) := by
  have hnext := nextRequest_preset hp hrest h1 h2 hq (by rw [ht]; simp)
  have hburst : partTurn s = storeBurst n k snap s := by
    rw [partTurn_issues hp hgo _ hnext]
    show presetBurst s = _
    unfold presetBurst
    rw [ht]
  obtain ⟨haddr, hwords⟩ := storePiece_eq snap hlen _ k addr ws hk hpiece
  by_cases hk3 : k < 3
  · refine ⟨_, issue_quiet hr _ (hburst.trans (storeBurst_goesOn n k snap s hk3)) fun r _ =>
      storing_shown s _ _ n k (k + 1) snap snap ht r, fun _ => ?_, fun h => by omega⟩
    refine burstWritten _ _ _ _ _ _ hm ?_
    rw [haddr, hwords]
    rfl
  · obtain rfl : k = 3 := by omega
    set z : State := { s with
      mem := s.mem.writeWords (presetAddr s n + 2 * (storePiece snap 3).1) (storePiece snap 3).2
      agent := { s.agent with
        port := .part ⟨.store n, presetAddr s n + 2 * (storePiece snap 3).1, true, (storePiece snap 3).2,
          s.mem.readWords (presetAddr s n + 2 * (storePiece snap 3).1) (storePiece snap 3).2.length, false⟩ }
      tun := { s.tun with
        transfer := .none, outcome := .stored, outcomeCount := (s.tun.outcomeCount + 1) % 65536 } } with hz
    have hy : partTurn s = raise .tuner z := hburst.trans (storeBurst_ends n snap s)
    have hatt : (raise .tuner z).att = told s.att := by rw [raise_tuner]
    have hsd : (raise .tuner z).sd = s.sd := by rw [raise_tuner]
    have hexec : exec .partBurstIssue s = act partTurn s := rfl
    refine ⟨publish s (raise .tuner z), by rw [hexec, act_high _ s hr, hy], fun h => absurd h hk3, fun _ => ⟨?_, ?_⟩⟩
    · exact (setsMarks_told s z rfl rfl).exact [] s _ (by rw [hatt]; exact told_station)
    · refine burstWritten _ _ _ _ _ _ hm ?_
      have hpub := publish_eq s (raise .tuner z)
      rw [publish_att s _ hsd, hatt] at hpub
      refine hpub.trans ?_
      rw [raise_tuner, haddr, hwords]
      rfl

variable (ht : s.tun.transfer = .none)

include hm hr hp hrest h1 h2 hgo hq ht in
/-- A report's turn (R16). -/
theorem report_issued (r : Rec) (hhead : s.dirty.head? = some r) : ∃ t, exec .partBurstIssue s = .next t
    ∧ BurstWritten (.report r) (s.apertureBase + r.offset) (recWords s r) s
        { s with dirty := s.dirty.filter fun x => x ≠ r } t := by
  have hnext : nextRequest s = some (.report r) := by
    rw [nextRequest_lower s hp hrest h1 h2, hq, ht, hhead]
    rfl
  refine ⟨_, issue_quiet hr _ (partTurn_issues hp hgo _ hnext) fun x _ =>
    recWords_congr _ _ rfl rfl rfl rfl rfl rfl rfl rfl rfl rfl rfl rfl rfl rfl x, ?_⟩
  refine burstWritten _ _ _ _ _ _ hm ?_
  have hfilter : (s.dirty.filter fun x => decide (x ≠ r)) = s.dirty.filter fun x => x != r :=
    List.filter_congr fun x _ => by simp [bne, beq_eq_decide]
  rw [hfilter]
  rfl

variable (hd : s.dirty = [])

include hp hrest h1 h2 hq ht hd in
theorem nextRequest_fetches : nextRequest s
    = [fetchRequest s false .ms1, fetchRequest s false .ms2].findSome? id := by
  rw [nextRequest_lower s hp hrest h1 h2, hq, ht, hd]
  rfl

include hr hp hrest h1 h2 hgo hq ht hd in
/-- The fetches that are not urgent come last (R14). -/
theorem lateFetch_issued :
    (FetchDue s .ms1 → ∃ t, exec .partBurstIssue s = .next t ∧ FetchIssued .ms1 s t)
    ∧ (¬FetchDue s .ms1 → FetchDue s .ms2 → ∃ t, exec .partBurstIssue s = .next t ∧ FetchIssued .ms2 s t)
    ∧ (¬FetchDue s .ms1 → ¬FetchDue s .ms2 → nextRequest s = none) := by
  have hnext := nextRequest_fetches hp hrest h1 h2 hq ht hd
  have hlate : ∀ m, ¬UrgentDue s m → FetchDue s m → fetchUrgent s m = false := fun m hu hdue => by
    by_contra hb
    exact hu ((urgent_iff s m).2 ⟨hdue, by simpa using hb⟩)
  have hnone : ∀ m, ¬FetchDue s m → fetchRequest s false m = none := fun m h =>
    fetchRequest_none s false m hp fun k => h k.1
  refine ⟨fun h => fetch_issued hr hp hgo .ms1 ?_, fun hno h => fetch_issued hr hp hgo .ms2 ?_, fun hno hno2 => ?_⟩
  · rw [hnext, fetchRequest_some s false .ms1 hp h (hlate .ms1 h1 h)]
    rfl
  · rw [hnext, hnone .ms1 hno, fetchRequest_some s false .ms2 hp h (hlate .ms2 h2 h)]
    rfl
  · rw [hnext, hnone .ms1 hno, hnone .ms2 hno2]
    rfl

end Ours

/-- Settles O35, by the rank of the request whose turn it is. -/
theorem partTakesItsTurnByRank : Obligations.PartTakesItsTurnByRank := by
  refine ⟨recordTable, fun s hm hd hr => ?_⟩
  intro urgent issues ours
  refine ⟨recordsHold s, fun hp => ?_, fun hp hrest hgo => ⟨fun h1 => ?_, fun h1 h2 => ?_⟩, fun ho hq => ?_,
    fun ho hq => ?_, fun ho hq ht => ?_⟩
  · refine ⟨s, issue_quiet hr s ?_ fun _ _ => rfl, rfl⟩
    unfold partTurn
    cases hs : s.agent.port with
    | free => exact absurd hs hp
    | _ => rfl
  · refine fetch_issued hr hp hgo .ms1 ?_
    obtain ⟨hdue, hu⟩ := (urgent_iff s .ms1).1 h1
    unfold nextRequest requestRanks
    rw [hrest, fetchRequest_some s true .ms1 hp hdue hu]
    rfl
  · refine fetch_issued hr hp hgo .ms2 ?_
    obtain ⟨hdue, hu⟩ := (urgent_iff s .ms2).1 h2
    unfold nextRequest requestRanks
    rw [hrest, fetchRequest_none s true .ms1 hp (by rwa [← urgent_iff]), fetchRequest_some s true .ms2 hp hdue hu]
    rfl
  · obtain ⟨hp, hrest, h1, h2, hgo⟩ := ho
    exact writeBack_issued hm hr hp hrest h1 h2 hgo hq
  · obtain ⟨hp, hrest, h1, h2, hgo⟩ := ho
    refine ⟨fun n ht => ?_, fun n w got ht => ?_, fun n k snap ht hlen hk => ?_⟩
    · obtain ⟨t, he, ws, hlen, hws, hform⟩ := recall_issued hr hp hrest h1 h2 hgo hq n (presetAddr s n) [] ht rfl
      exact ⟨t, he, ws, hlen, fun i hi => hws i (hlen ▸ hi), hform⟩
    · obtain ⟨t, he, ws, hlen, hws, hform⟩ := recall_issued hr hp hrest h1 h2 hgo hq n (presetAddr s n + 32) (w :: got) ht rfl
      exact ⟨t, he, ws, hlen, fun i hi => hws i (hlen ▸ hi), hform⟩
    · intro at' flags piece addr ws hpiece
      exact store_issued hm hr hp hrest h1 h2 hgo hq n k snap ht hlen hk addr ws hpiece
  · obtain ⟨hp, hrest, h1, h2, hgo⟩ := ho
    refine ⟨fun r hmem hlow => ?_, fun hdirty => ?_⟩
    · exact report_issued hm hr hp hrest h1 h2 hgo hq ht r (head_of_lowest hd hmem hlow)
    · obtain ⟨hone, htwo, hnone⟩ := lateFetch_issued hr hp hrest h1 h2 hgo hq ht hdirty
      refine ⟨hone, htwo, fun hno hno2 hheld => ⟨s, issue_quiet hr s ?_ fun _ _ => rfl, rfl⟩⟩
      rw [partTurn_none hp hgo (hnone hno hno2)]
      unfold carryHeld
      rw [hheld]

end Sys2Proof.Machine

end

/-! What the audio blocks mark as they run again (R26, R35, R59, R65, R118). -/

section

set_option autoImplicit false

namespace Sys2Proof.Machine

/-! ### Causes and their mark -/

/-- Causes join the pending ones, and beside the marks that stood only the attention record is marked, with a new
cause. -/
structure CauseMarked (s t : State) : Prop where
  grows : Grows s.att t.att
  keeps : ∀ r ∈ s.dirty, r ∈ t.dirty
  only : ∀ r ∈ t.dirty, r ∈ s.dirty ∨ (r = .attention ∧ t.att.pending ≠ s.att.pending)

theorem CauseMarked.same {s t : State} (ha : t.att = s.att) (hd : t.dirty = s.dirty) : CauseMarked s t :=
  ⟨ha ▸ .refl _, fun _ hr => hd ▸ hr, fun _ hr => .inl (hd ▸ hr)⟩

theorem CauseMarked.trans {s t u : State} (h : CauseMarked s t) (k : CauseMarked t u) : CauseMarked s u := by
  refine ⟨h.grows.trans k.grows, fun r hr => k.keeps r (h.keeps r hr), fun r hr => ?_⟩
  rcases k.only r hr with hr | ⟨rfl, hne⟩
  · rcases h.only r hr with hr | ⟨rfl, hne⟩
    · exact .inl hr
    · exact .inr ⟨rfl, fun e => hne (by rw [h.grows.between k.grows e])⟩
  · refine .inr ⟨rfl, fun e => hne ?_⟩
    rw [h.grows.between k.grows e, e]

theorem raise_causeMarked (c : Cause) (s : State) : CauseMarked s (raise c s) := by
  refine ⟨grows_raise c s, fun r hr => (mem_raise_dirty _ _ _).2 (.inl hr), fun r hr => ?_⟩
  rcases (mem_raise_dirty _ _ _).1 hr with h | ⟨rfl, hnew⟩
  · exact .inl h
  · refine .inr ⟨rfl, fun e => ?_⟩
    rw [raise_att] at e
    have hmask : s.att.pending &&& causeMask c = causeMask c := by
      refine BitVec.eq_of_getLsbD_eq fun i _ => ?_
      have := congrArg (BitVec.getLsbD · i) (show s.att.pending ||| causeMask c = s.att.pending from e)
      simp only [BitVec.getLsbD_or, BitVec.getLsbD_and] at this ⊢
      cases h1 : s.att.pending.getLsbD i <;> cases h2 : (causeMask c).getLsbD i <;> simp_all
    rw [hmask] at hnew
    revert hnew
    cases c <;> decide

/-- A new cause shows on the attention record. -/
theorem attentionRecord_pending {s t : State} (h : t.att.pending ≠ s.att.pending) :
    recWords s .attention ≠ recWords t .attention := by
  intro e
  simp only [recWords, attentionWords, List.cons.injEq] at e
  exact h e.1.symm

theorem CauseMarked.sets {s t : State} (h : CauseMarked s t) : SetsMarks [] s t := by
  refine ⟨fun r hr => ?_, h.keeps, by simp⟩
  rcases h.only r hr with hr | ⟨rfl, hne⟩
  · exact .inl hr
  · exact .inr (.inr ⟨rfl, attentionRecord_pending hne⟩)

/-! ### The marks -/

/-- The marks of the blocks' start: those that stood, the paths' records, the attention record with a new cause, and
the source record of a line that has lost its carrying status. -/
structure ResumeMarked (s t : State) : Prop where
  grows : Grows s.att t.att
  keeps : ∀ r ∈ s.dirty, r ∈ t.dirty
  drops : ∀ l, (t.sa.get l).carries = true → (s.sa.get l).carries = true
  only : ∀ r ∈ t.dirty, r ∈ s.dirty ∨ r ∈ pathRecords ∨ (r = .attention ∧ t.att.pending ≠ s.att.pending)
    ∨ ∃ l, r = .source (.sa l) ∧ (s.sa.get l).carries = true ∧ (t.sa.get l).carries = false

theorem ResumeMarked.trans {s t u : State} (h : ResumeMarked s t) (k : ResumeMarked t u) : ResumeMarked s u := by
  refine ⟨h.grows.trans k.grows, fun r hr => k.keeps r (h.keeps r hr), fun l hl => h.drops l (k.drops l hl), fun r hr => ?_⟩
  rcases k.only r hr with hr | hr | ⟨rfl, hne⟩ | ⟨l, rfl, hwas, hnow⟩
  · rcases h.only r hr with hr | hr | ⟨rfl, hne⟩ | ⟨l, rfl, hwas, hnow⟩
    · exact .inl hr
    · exact .inr (.inl hr)
    · exact .inr (.inr (.inl ⟨rfl, fun e => hne (by rw [h.grows.between k.grows e])⟩))
    · refine .inr (.inr (.inr ⟨l, rfl, hwas, ?_⟩))
      by_contra hc
      rw [k.drops l (by simpa using hc)] at hnow
      simp at hnow
  · exact .inr (.inl hr)
  · refine .inr (.inr (.inl ⟨rfl, fun e => hne ?_⟩))
    rw [h.grows.between k.grows e, e]
  · exact .inr (.inr (.inr ⟨l, rfl, h.drops l hwas, hnow⟩))

/-- A step that marks the paths' records alone. -/
theorem PathMarked.resumes {s t : State} (h : PathMarked s t) (ha : t.att = s.att) (hs : t.sa = s.sa) : ResumeMarked s t :=
  ⟨ha ▸ .refl _, h.keeps, fun l hl => by rwa [← hs], fun r hr => (h.only r hr).imp_right .inl⟩

/-- A step that marks a new cause alone. -/
theorem CauseMarked.resumes {s t : State} (h : CauseMarked s t) (hs : t.sa = s.sa) : ResumeMarked s t :=
  ⟨h.grows, h.keeps, fun l hl => by rwa [← hs], fun r hr => (h.only r hr).imp_right fun k => .inr (.inl k)⟩

theorem raise_resumes (c : Cause) (s : State) : ResumeMarked s (raise c s) :=
  (raise_causeMarked c s).resumes (by simp)

/-- A line resumes. -/
theorem resumeLine_resumes (l : SaLine) (s : State) (h : s.audioRuns = false) : ResumeMarked s (resumeLine l s) := by
  have hx : resumeLine l s = lineCarryingFrom l (s.sa.get l).carries
      { s with sa := s.sa.set l (lineResumed (s.sa.get l)) } := by
    unfold resumeLine lineStepWith updLine
    rw [lineResumed_eq]
    rfl
  have htake := resumeLine_spec l s h
  have hsa : (resumeLine l s).sa = s.sa.set l (lineResumed (s.sa.get l)) := by rw [htake.rest]
  have hdrops : ∀ k, ((resumeLine l s).sa.get k).carries = true → (s.sa.get k).carries = true := fun k hk => by
    rw [hsa, PerLine.get_set] at hk
    split at hk
    · rename_i e
      subst e
      by_cases hd : LineDropped (s.sa.get k)
      · exact (lineResumed_dropped _ hd).1
      · rwa [lineResumed_kept _ hd] at hk
    · exact hk
  by_cases hd : LineDropped (s.sa.get l)
  · obtain ⟨hw, hn⟩ := lineResumed_dropped _ hd
    obtain ⟨-, hatt⟩ := htake.dropped hd
    have hform : resumeLine l s = carryingEvent (.sa l) false { s with sa := s.sa.set l (lineResumed (s.sa.get l)) } := by
      rw [hx]
      unfold lineCarryingFrom
      simp only [PerLine.get_set_self]
      rw [hw, hn, if_neg (by decide)]
    have hmarks := (carryingEvent_marks (.sa l) false { s with sa := s.sa.set l (lineResumed (s.sa.get l)) }).2 h
    rw [← hform, markDirty_dirty] at hmarks
    refine ⟨⟨_, hatt⟩, fun r hr => ?_, hdrops, fun r hr => ?_⟩
    · rw [hmarks, mem_insertRec]
      exact .inr ((mem_raise_dirty _ _ _).2 (.inl hr))
    · rw [hmarks, mem_insertRec] at hr
      rcases hr with rfl | hr
      · refine .inr (.inr (.inr ⟨l, rfl, hw, ?_⟩))
        rw [hsa, PerLine.get_set_self]
        exact hn
      · rcases (mem_raise_dirty _ _ _).1 hr with hr | ⟨rfl, hnew⟩
        · exact .inl hr
        · have hraise := (raise_causeMarked .source s).only .attention ((mem_raise_dirty _ _ _).2 (.inr ⟨rfl, hnew⟩))
          rcases hraise with k | ⟨-, k⟩
          · exact .inl k
          · refine .inr (.inr (.inl ⟨rfl, ?_⟩))
            rw [raise_att] at k
            rw [hatt]
            exact k
  · obtain ⟨-, hatt⟩ := htake.kept hd
    have hdirty : (resumeLine l s).dirty = s.dirty := by
      rw [hx]
      unfold lineCarryingFrom
      simp only [PerLine.get_set_self]
      rw [if_pos (lineResumed_kept _ hd)]
    exact ⟨hatt ▸ .refl _, fun r hr => hdirty ▸ hr, hdrops, fun r hr => .inl (hdirty ▸ hr)⟩

theorem resumeLine_runs (l : SaLine) (s : State) : (resumeLine l s).audioRuns = s.audioRuns := by
  unfold State.audioRuns
  simp

theorem resumeLines_resumes (s : State) (h : s.audioRuns = false) : ResumeMarked s (resumeLines s) := by
  have h1 := (resumeLine_runs .sa1 s).trans h
  have h2 := (resumeLine_runs .sa2 _).trans h1
  have h3 := (resumeLine_runs .sa3 _).trans h2
  exact (((resumeLine_resumes .sa1 s h).trans (resumeLine_resumes .sa2 _ h1)).trans
    (resumeLine_resumes .sa3 _ h2)).trans (resumeLine_resumes .sa4 _ h3)

/-! ### The zones' steps (R65) -/

theorem resumeCarrying_pathMarked (z : Zone) (s : State) : PathMarked s (resumeCarrying z s) := by
  unfold resumeCarrying
  dsimp only
  split
  · split
    · exact .refl s
    · exact zoneCarrying_pathMarked z _ _ s
  · exact .refl s

theorem sourceAct_pathMarked (z : Zone) (src : Option Source) (s : State) : PathMarked s (sourceAct z src s) := by
  unfold sourceAct
  split
  · split
    · exact .refl s
    · exact moveZone_pathMarked z _ s
  · split
    · exact .refl s
    · exact moveZone_pathMarked z _ s
  · split
    · exact .refl s
    · exact moveZone_pathMarked z _ s
  · exact .same rfl
  · exact connect_pathMarked z src s
  · exact connect_pathMarked z src s

theorem resumeSource_pathMarked (z : Zone) (s : State) : PathMarked s (resumeSource z s) := by
  unfold resumeSource
  split
  · exact (sourceAct_pathMarked z _ _).after rfl
  · exact .refl s

theorem resumeHeld_pathMarked (z : Zone) (s : State) : PathMarked s (resumeHeld z s) := by
  unfold resumeHeld
  dsimp only
  split
  · exact .refl s
  · split
    · exact moveZone_pathMarked z _ s
    · exact moveZone_pathMarked z _ s
    · exact (applyHeld_pathMarked z s).trans (examineAfter_pathMarked _ _)
    · exact (applyHeld_pathMarked z s).trans (examineAfter_pathMarked _ _)
    · exact .refl s
    · exact .refl s

theorem checkLimit_resumes (z : Zone) (s : State) : ResumeMarked s (checkLimit z s) := by
  unfold checkLimit
  dsimp only
  split
  · have hzone : ResumeMarked s (updZone z (fun r => { r with noSignal := true }) s) :=
      (PathMarked.same (s := s) (t := updZone z (fun r => { r with noSignal := true }) s) rfl).resumes rfl rfl
    exact (hzone.trans (raise_resumes .zoneNoSignal _)).trans
      ((markDirty_pathMarked _ (zone_mem_pathRecords z)).resumes rfl rfl)
  · exact (PathMarked.refl s).resumes rfl rfl

theorem resumeZone_resumes (z : Zone) (s : State) : ResumeMarked s (resumeZone z s) :=
  ((((resumeCarrying_pathMarked z s).resumes (by simp) (by simp)).trans
    ((resumeSource_pathMarked z _).resumes (by simp) (by simp))).trans
    ((resumeHeld_pathMarked z _).resumes (by simp) (by simp))).trans (checkLimit_resumes z _)

theorem recompute_resumes (s : State) : ResumeMarked s (recompute s) :=
  (recompute_pathMarked s).resumes (by simp) (by simp)

theorem resumeOthers_resumes (s : State) : ResumeMarked s (resumeOthers s) :=
  (PathMarked.same (s := s) (t := resumeOthers s) rfl).resumes rfl rfl

/-- The whole start (R135). -/
theorem resumeAudio_resumes (s : State) (h : s.audioRuns = false) : ResumeMarked s (resumeAudio s) := by
  rw [resumeAudio_eq]
  set x := resumeLines s
  have hgood : ResumeMarked x { x with clock := .good, audioStarted := true } :=
    (PathMarked.same (s := x) (t := { x with clock := .good, audioStarted := true }) rfl).resumes rfl rfl
  set b := resumeZone .z2 (resumeZone .z1 { x with clock := .good, audioStarted := true })
  have hzones : ResumeMarked s b := (((resumeLines_resumes s h).trans hgood).trans (resumeZone_resumes .z1 _)).trans
    (resumeZone_resumes .z2 _)
  exact (hzones.trans (resumeOthers_resumes b)).trans (recompute_resumes _)

/-! ### The marks of a command that starts the blocks -/

/-- A line that has lost its carrying status shows it. -/
theorem lineRecord_lost {s t : State} {l : SaLine} (hs : (s.sa.get l).carries = true)
    (ht : (t.sa.get l).carries = false) : recWords s (.source (.sa l)) ≠ recWords t (.source (.sa l)) := by
  have hbit : ∀ x : SaState, (numWord (bitAt x.carries 0 + 0x10 * lockStateCode x.lock)).toNat % 2
      = if x.carries then 1 else 0 := fun x => by
    simp only [numWord, BitVec.toNat_ofNat, bitAt]
    split <;> omega
  intro e
  simp only [recWords, sourceWords, List.cons.injEq] at e
  have := hbit (s.sa.get l)
  rw [e.1, hbit, hs, ht] at this
  simp at this

theorem ResumeMarked.between {s y t : State} (h : ResumeMarked y t) (hd : y.dirty = s.dirty)
    (hg : Grows s.att y.att) (hs : y.sa = s.sa) : SetsBetween [] pathRecords s t := by
  refine ⟨fun r hr => ?_, fun r hr => h.keeps r (hd ▸ hr), by simp⟩
  rcases h.only r hr with hr | hr | ⟨rfl, hne⟩ | ⟨l, rfl, hwas, hnow⟩
  · exact .inl (hd ▸ hr)
  · exact .inr (.inr (.inl hr))
  · refine .inr (.inr (.inr ⟨rfl, attentionRecord_pending fun e => hne ?_⟩))
    rw [hg.between h.grows e, e]
  · exact .inr (.inr (.inr ⟨rfl, lineRecord_lost (by rwa [← hs]) hnow⟩))

/-! ### The blocks' start from a state with other marks -/

theorem examined_marks {w t : State} {e : List Rec} (h : Examined w t) : Examined w { t with dirty := e } :=
  ⟨by rw [h.rest], h.asked, h.same, h.noRoom, h.request, h.atOnce⟩

/-- The blocks' start does not go by the marks. -/
theorem resumed_of_marks (u : State) (d e : List Rec) (h : u.audioRuns = false) :
    Resumed u { resumeAudio { u with dirty := d } with dirty := e } := by
  have hlines := resumeLines_spec { u with dirty := d } h
  refine RunSteps.resumed (x := resumeLines { u with dirty := d })
    (a := resumeZone .z1 { resumeLines { u with dirty := d } with clock := .good, audioStarted := true })
    (b := resumeZone .z2 (resumeZone .z1 { resumeLines { u with dirty := d } with clock := .good, audioStarted := true }))
    ⟨⟨hlines.rest, hlines.lines, hlines.dropped, hlines.kept, hlines.gone, hlines.stays⟩, resumeZone_spec _ _,
      resumeZone_rest _ _, resumeZone_notice _ _, resumeZone_spec _ _, resumeZone_rest _ _, resumeZone_notice _ _,
      ?_, ?_, ?_⟩
  · intro m
    simp [resumeAudio, resumeReader]
  · simp [resumeAudio, Knob.resume]
  · refine examined_marks (examined_of_eq ?_)
    simp [resumeAudio, recompute, Decoder.newWindow]

end Sys2Proof.Machine

end

/-! The restore passes (R21 to R23, R17). -/

section

set_option autoImplicit false

namespace Sys2Proof.Machine

/-! ### The order of the slots and the records -/

theorem slots_sorted : slots.Pairwise fun a b => a.offset < b.offset := by decide +kernel

theorem records_sorted : records.Pairwise fun a b => a.offset < b.offset := by decide +kernel

theorem mem_records (r : Rec) : r ∈ records := by
  cases r with
  | zone z => cases z <;> decide
  | source x => rcases x with (_ | _ | _ | _) | (_ | _) | _ <;> decide
  | stream m => cases m <;> decide
  | meter x => rcases x with (_ | _ | _ | _ | _ | _ | _ | _ | _ | _) | _ | _ <;> decide
  | module m => cases m <;> decide
  | _ => decide

theorem mem_passSlots (k : PassKind) (sl : Slot) : sl ∈ passSlots k ↔ inPass k sl := by
  cases k with
  | full => simp [passSlots, inPass, mem_slots]
  | audio => simp [passSlots, inPass, mem_slots]

theorem mem_passRecords (k : PassKind) (r : Rec) : r ∈ passRecords k ↔ recInPass k r := by
  cases k with
  | full => simp [passRecords, recInPass, mem_records]
  | audio => simp [passRecords, recInPass, mem_records]

theorem passSlots_sorted (k : PassKind) : (passSlots k).Pairwise fun a b => a.offset < b.offset := by
  cases k with
  | full => exact slots_sorted
  | audio => exact List.Pairwise.filter Slot.isAudio slots_sorted

theorem passRecords_sorted (k : PassKind) : (passRecords k).Pairwise fun a b => a.offset < b.offset := by
  cases k with
  | full => exact records_sorted
  | audio => exact List.Pairwise.filter Rec.isAudio records_sorted

/-! ### Runs of slots -/

theorem slotRun_mem (n off : Nat) (l : List Slot) : ∀ sl ∈ slotRun n off l, sl ∈ l := by
  induction n generalizing off l with
  | zero => simp [slotRun]
  | succ n ih =>
    cases l with
    | nil => simp [slotRun]
    | cons a rest =>
      intro sl hsl
      unfold slotRun at hsl
      split at hsl
      · rcases List.mem_cons.1 hsl with rfl | hsl
        · exact List.mem_cons_self
        · exact List.mem_cons_of_mem _ (ih _ _ sl hsl)
      · simp at hsl

theorem slotRun_length (n off : Nat) (l : List Slot) : (slotRun n off l).length ≤ n := by
  induction n generalizing off l with
  | zero => simp [slotRun]
  | succ n ih =>
    cases l with
    | nil => simp [slotRun]
    | cons a rest =>
      unfold slotRun
      split
      · simpa using ih _ _
      · simp

/-- A run's slots stand at consecutive words. -/
theorem slotRun_offset (n off : Nat) (l : List Slot) (i : Nat) (a : Slot) (h : (slotRun n off l)[i]? = some a) :
    a.offset = off + 2 * i := by
  induction n generalizing off l i with
  | zero => simp [slotRun] at h
  | succ n ih =>
    cases l with
    | nil => simp [slotRun] at h
    | cons b rest =>
      unfold slotRun at h
      split at h
      · rename_i hb
        cases i with
        | zero =>
          simp only [List.getElem?_cons_zero, Option.some.injEq] at h
          rw [← h, hb]
          omega
        | succ i =>
          have := ih (off + 2) rest i (by simpa using h)
          omega
      · simp at h

/-- A run that ends early ends at a gap. -/
theorem slotRun_whole (n off : Nat) (l : List Slot) (hs : l.Pairwise fun a b => a.offset < b.offset)
    (hl : ∀ a ∈ l, off ≤ a.offset) (he : off % 2 = 0) (h : (slotRun n off l).length < n) :
    ∀ b ∈ l, b.offset ≠ off + 2 * (slotRun n off l).length := by
  induction n generalizing off l with
  | zero => simp at h
  | succ n ih =>
    cases l with
    | nil => simp
    | cons a rest =>
      obtain ⟨hrest, hsorted⟩ := List.pairwise_cons.1 hs
      unfold slotRun at h ⊢
      split at h
      · rename_i ha
        rw [if_pos ha]
        have hnext : ∀ x ∈ rest, off + 2 ≤ x.offset := fun x hx => by
          have h1 := hrest x hx
          have h2 := offset_even x
          omega
        have hgap := ih (off + 2) rest hsorted hnext (by omega) (by simpa using h)
        intro b hb
        rw [List.length_cons]
        rcases List.mem_cons.1 hb with rfl | hb
        · omega
        · have := hgap b hb
          omega
      · rename_i ha
        rw [if_neg ha]
        intro b hb
        have h1 := hl a List.mem_cons_self
        rcases List.mem_cons.1 hb with rfl | hb
        · simpa using ha
        · have h2 := hrest b hb
          simp only [List.length_nil]
          omega

theorem runEnd_eq (run : List Slot) (b : Slot) (h : run.getLast? = some b) : runEnd run = b.offset + 2 := by
  induction run with
  | nil => simp at h
  | cons a rest ih =>
    cases rest with
    | nil =>
      simp only [List.getLast?_singleton, Option.some.injEq] at h
      rw [← h]
      rfl
    | cons c rest =>
      rw [List.getLast?_cons_cons] at h
      exact ih h

/-! ### The next piece of a pass (R21) -/

/-- What is left of a pass's slots. -/
theorem mem_slotsLeft (p : RestorePass) (sl : Slot) :
    sl ∈ (passSlots p.kind).filter (fun sl => p.next ≤ sl.offset) ↔ inPass p.kind sl ∧ p.next ≤ sl.offset := by
  rw [List.mem_filter, mem_passSlots, decide_eq_true_eq]

theorem mem_recordsLeft (p : RestorePass) (r : Rec) :
    r ∈ (passRecords p.kind).filter (fun r => p.next ≤ r.offset) ↔ recInPass p.kind r ∧ p.next ≤ r.offset := by
  rw [List.mem_filter, mem_passRecords, decide_eq_true_eq]

theorem restorePiece_slots (p : RestorePass) (h : ∃ sl, inPass p.kind sl ∧ p.next ≤ sl.offset) :
    ∃ run a b, restorePiece p = .slots run ∧ PassRun p run ∧ run.head? = some a ∧ run.getLast? = some b := by
  obtain ⟨x, hx⟩ := h
  set left := (passSlots p.kind).filter (fun sl => p.next ≤ sl.offset) with hleft
  have hsorted : left.Pairwise fun a b => a.offset < b.offset := (passSlots_sorted p.kind).filter _
  have hmem : ∀ sl, sl ∈ left ↔ inPass p.kind sl ∧ p.next ≤ sl.offset := mem_slotsLeft p
  have hpiece : ∀ a rest, left = a :: rest → restorePiece p = .slots (slotRun maxBurst a.offset (a :: rest)) :=
    fun a rest e => by
      unfold restorePiece
      rw [← hleft, e]
  clear_value left
  cases left with
  | nil => exact absurd ((hmem x).2 hx) (by simp)
  | cons a rest =>
    have hlow : ∀ sl ∈ a :: rest, a.offset ≤ sl.offset := fun sl hsl => by
      rcases List.mem_cons.1 hsl with rfl | hsl
      · exact Nat.le_refl _
      · exact Nat.le_of_lt ((List.pairwise_cons.1 hsorted).1 sl hsl)
    set run := slotRun maxBurst a.offset (a :: rest) with hrun
    have hcons : run = a :: slotRun 15 (a.offset + 2) rest := by
      rw [hrun]
      exact if_pos rfl
    have hhead : run.head? = some a := by rw [hcons]; rfl
    have hlast : ∀ y, run.getLast? = some y → y.offset + 2 = a.offset + 2 * run.length := fun y hy => by
      rw [List.getLast?_eq_getElem?] at hy
      have := slotRun_offset _ _ _ _ _ hy
      have hpos : 0 < run.length := by rw [hcons]; simp
      omega
    refine ⟨run, a, run.getLast (by rw [hcons]; simp), hpiece a rest rfl, ⟨fun sl hsl => ?_, ⟨a, hhead, fun sl hin hle => ?_⟩,
      slotRun_length _ _ _, fun i y z hy hz => ?_, fun hshort y hy z hz he => ?_⟩, hhead, List.getLast?_eq_some_getLast _⟩
    · exact (hmem sl).1 (slotRun_mem _ _ _ sl hsl)
    · exact hlow sl ((hmem sl).2 ⟨hin, hle⟩)
    · have h1 := slotRun_offset _ _ _ _ _ hy
      have h2 := slotRun_offset _ _ _ _ _ hz
      omega
    · have hend := hlast y hy
      have hnext : p.next ≤ z.offset := by
        have := ((hmem a).1 List.mem_cons_self).2
        omega
      refine slotRun_whole maxBurst a.offset (a :: rest) hsorted hlow (offset_even a) hshort z
        ((hmem z).2 ⟨hz, hnext⟩) ?_
      rw [he, hend]

theorem slotsLeft_nil (p : RestorePass) (h : ∀ sl, inPass p.kind sl → sl.offset < p.next) :
    (passSlots p.kind).filter (fun sl => p.next ≤ sl.offset) = [] := by
  rw [List.eq_nil_iff_forall_not_mem]
  intro sl hsl
  obtain ⟨hin, hle⟩ := (mem_slotsLeft p sl).1 hsl
  have := h sl hin
  omega

theorem restorePiece_record (p : RestorePass) (h : ∀ sl, inPass p.kind sl → sl.offset < p.next) (r : Rec)
    (hr : recInPass p.kind r) (hle : p.next ≤ r.offset)
    (hlow : ∀ x, recInPass p.kind x → p.next ≤ x.offset → r.offset ≤ x.offset) : restorePiece p = .record r := by
  have hsorted : ((passRecords p.kind).filter (fun r => p.next ≤ r.offset)).Pairwise fun a b => a.offset < b.offset :=
    (passRecords_sorted p.kind).filter _
  have hmem := mem_recordsLeft p
  have hpiece : ∀ a rest, (passRecords p.kind).filter (fun r => p.next ≤ r.offset) = a :: rest →
      restorePiece p = .record a := fun a rest e => by
    unfold restorePiece
    rw [slotsLeft_nil p h, e]
  generalize (passRecords p.kind).filter (fun r => p.next ≤ r.offset) = left at hsorted hmem hpiece
  cases left with
  | nil => exact absurd ((hmem r).2 ⟨hr, hle⟩) (by simp)
  | cons a rest =>
    rw [hpiece a rest rfl]
    obtain ⟨ha, hna⟩ := (hmem a).1 List.mem_cons_self
    have h1 := hlow a ha hna
    rcases List.mem_cons.1 ((hmem r).2 ⟨hr, hle⟩) with rfl | hrest
    · rfl
    · have h2 := (List.pairwise_cons.1 hsorted).1 r hrest
      omega

/-- A pass is done when nothing of its range is left (R23). -/
theorem restorePiece_done (p : RestorePass) : restorePiece p = .done ↔ ¬PassGoesOn p := by
  refine ⟨fun h hgo => ?_, fun h => ?_⟩
  · by_cases hsl : ∃ sl, inPass p.kind sl ∧ p.next ≤ sl.offset
    · obtain ⟨run, _, _, he, -⟩ := restorePiece_slots p hsl
      rw [he] at h
      simp at h
    · obtain ⟨r, hr, hle⟩ := hgo.resolve_left hsl
      have hnil := slotsLeft_nil p fun sl hin => Nat.lt_of_not_le fun k => hsl ⟨sl, hin, k⟩
      unfold restorePiece at h
      rw [hnil] at h
      have hmem := (mem_recordsLeft p r).2 ⟨hr, hle⟩
      generalize (passRecords p.kind).filter (fun r => p.next ≤ r.offset) = left at h hmem
      cases left with
      | nil => simp at hmem
      | cons a rest => simp at h
  · have hnil := slotsLeft_nil p fun sl hin => Nat.lt_of_not_le fun k => h (.inl ⟨sl, hin, k⟩)
    have hrec : (passRecords p.kind).filter (fun r => p.next ≤ r.offset) = [] := by
      rw [List.eq_nil_iff_forall_not_mem]
      intro r hr
      exact h (.inr ⟨r, (mem_recordsLeft p r).1 hr⟩)
    unfold restorePiece
    rw [hnil, hrec]

/-! ### The value a pass writes (R21) -/

theorem restoreValue_eq (s : State) (sl : Slot) : restoreValue s sl = passWord s sl := by
  unfold restoreValue passWord
  by_cases hc : sl.isCommand = true
  · rw [if_pos hc, if_pos (.inl hc)]
  · rw [if_neg hc]
    by_cases ha : sl = .attnAck
    · rw [if_pos (.inr ha), ha]
      rfl
    · rw [if_neg (fun k => k.elim hc ha)]
      by_cases hl : sl = .setupLock
      · rw [if_pos hl, hl]
        rfl
      · rw [if_neg hl]
        split
        · exact absurd rfl hl
        · rfl

/-! ### The end of a pass (R23, R135) -/

/-- The state after a pass's last burst, before RESTORE_DONE. -/
def passOver (s : State) : State :=
  { s with agent := { s.agent with port := .free, lastPart := true, restore := none }, meterTimer := true }

theorem burstDone_restore (b : Burst) (p : RestorePass) (s : State) (ho : b.owner = .restore)
    (hp : s.agent.restore = some p) :
    burstDone b s = if restorePiece p = .done then
        (if p.kind = .full ∧ s.clock = .good then resumeAudio (raise .restoreDone (passOver s))
          else raise .restoreDone (passOver s))
      else { s with agent := { s.agent with port := .free, lastPart := true } } := by
  have hopen : burstDone b s = if restorePiece p = .done
      then passEnd p { s with agent := { s.agent with port := .free, lastPart := true } }
      else { s with agent := { s.agent with port := .free, lastPart := true } } := by
    unfold burstDone burstResult updAgent
    rw [ho]
    simp only [hp]
  have hend : passEnd p { s with agent := { s.agent with port := .free, lastPart := true } }
      = if p.kind = .full ∧ s.clock = .good then resumeAudio (raise .restoreDone (passOver s))
        else raise .restoreDone (passOver s) := by
    have hclock : (raise .restoreDone (passOver s)).clock = s.clock := by simp [passOver]
    have hform : passEnd p { s with agent := { s.agent with port := .free, lastPart := true } }
        = if (p.kind == .full) && ((raise .restoreDone (passOver s)).clock == .good)
          then resumeAudio (raise .restoreDone (passOver s)) else raise .restoreDone (passOver s) := rfl
    rw [hform, hclock]
    simp only [Bool.and_eq_true, beq_iff_eq]
  rw [hopen, hend]

/-- RESTORE_DONE joins the pending causes (R23). -/
theorem raise_restoreDone (s : State) : raise .restoreDone s = { s with
    att := { s.att with pending := s.att.pending ||| 0x0400#16 }, dirty := (raise .restoreDone s).dirty } := by
  have hatt : (raise .restoreDone s).att = { s.att with pending := s.att.pending ||| 0x0400#16 } :=
    raise_att .restoreDone s
  rw [← hatt]
  unfold raise
  split
  · rfl
  · rfl

/-- Settles O36, by what is left of the pass. -/
theorem restorePassWritesItsRange : Obligations.RestorePassWritesItsRange := by
  intro s p hm hr hrest
  refine ⟨fun hp hturn => ?_, fun b hb howner hheld => ⟨fun hgo => ?_, fun hdone => ⟨fun hq => ?_, fun hk hc ha => ?_⟩⟩⟩
  · have hno : ¬(s.agent.lastPart = true ∧ ∃ h, s.agent.held = some h ∧ MayGo s h.access) := by
      rintro ⟨hl, h, hh, hmay⟩
      rcases hturn with k | k
      · rw [hl] at k
        simp at k
      · exact k h hh hmay
    have hnext : nextRequest s = some .restore := by
      unfold nextRequest
      rw [hrest]
      rfl
    have hissue : partTurn s = restoreBurst p s := by
      rw [partTurn_issues hp hno _ hnext]
      unfold issue
      rw [hrest]
    refine ⟨fun hsl => ?_, fun hsl r hin hle hlow => ?_⟩
    · obtain ⟨run, a, b, hpiece, hrun, ha, hb⟩ := restorePiece_slots p hsl
      unfold restoreBurst at hissue
      rw [hpiece] at hissue
      dsimp only at hissue
      refine ⟨_, issue_quiet hr _ hissue fun r _ => recWords_congr _ _ rfl rfl rfl rfl rfl rfl rfl rfl rfl rfl rfl rfl
        rfl rfl r, run, a, b, hrun, ha, hb, burstWritten _ _ _ _ _ _ hm ?_⟩
      have haddr : s.apertureBase + runStart run = slotAddr s a := by
        unfold runStart
        rw [ha]
        rfl
      have hwords : run.map (restoreValue s) = run.map (passWord s) :=
        List.map_congr_left fun sl _ => restoreValue_eq s sl
      rw [haddr, hwords, runEnd_eq run b hb]
      rfl
    · unfold restoreBurst at hissue
      rw [restorePiece_record p hsl r hin hle hlow] at hissue
      dsimp only at hissue
      refine ⟨_, issue_quiet hr _ hissue fun x _ => recWords_congr _ _ rfl rfl rfl rfl rfl rfl rfl rfl rfl rfl rfl rfl
        rfl rfl x, burstWritten _ _ _ _ _ _ hm ?_⟩
      have hwords : recWords (updAgent (fun g => { g with restore := some ⟨p.kind, r.offset + 2⟩ }) s) r = recWords s r :=
        recWords_congr _ _ rfl rfl rfl rfl rfl rfl rfl rfl rfl rfl rfl rfl rfl rfl r
      have hfilter : (s.dirty.filter fun x => decide (x ≠ r)) = s.dirty.filter fun x => x != r :=
        List.filter_congr fun x _ => by simp [bne, beq_eq_decide]
      unfold recordBurst
      rw [hwords, hfilter]
      rfl
  · have hform := burstDone_restore b p s howner hrest
    rw [if_neg fun k => (restorePiece_done p).1 k hgo] at hform
    rw [partBurstEnd_unheld b s hr hb (by rw [hform]; exact hheld), act_high _ s hr, hform]
    exact congrArg _ (publish_same _ _ rfl rfl rfl rfl rfl rfl rfl rfl rfl rfl rfl rfl rfl rfl)
  · have hform := burstDone_restore b p s howner hrest
    rw [if_pos ((restorePiece_done p).2 hdone), if_neg (by
      rintro ⟨h1, h2⟩
      rcases hq with h | h
      · rw [h] at h1
        simp at h1
      · exact h h2)] at hform
    rw [partBurstEnd_unheld b s hr hb (by rw [hform]; simpa [passOver] using hheld)]
    refine ownStep_of_eq _ [] s _ _ hr hform (by rw [raise_restoreDone]; rfl) rfl rfl
      ((SetsMarks.same s (passOver s) rfl).raise .restoreDone rfl) or_keeps
  · have hform := burstDone_restore b p s howner hrest
    rw [if_pos ((restorePiece_done p).2 hdone), if_pos ⟨hk, hc⟩] at hform
    rw [partBurstEnd_unheld b s hr hb (by rw [hform]; simpa [passOver] using hheld), act_high _ s hr, hform]
    have hstop : (passOver s).audioRuns = false := by
      unfold State.audioRuns passOver
      rw [ha]
      rfl
    have hstop' : (raise .restoreDone (passOver s)).audioRuns = false := by
      rw [raise_restoreDone]
      exact hstop
    have hmarks := (raise_resumes .restoreDone (passOver s)).trans (resumeAudio_resumes _ hstop')
    refine ⟨_, rfl, ?_, (hmarks.between (s := s) rfl (.refl _) rfl).publish hmarks.grows.station⟩
    have hpub := publish_eq s (resumeAudio (raise .restoreDone (passOver s)))
    rw [publish_att s _ (by simp [passOver])] at hpub
    rw [hpub]
    have hres := resumed_of_marks { passOver s with
      att := { s.att with pending := s.att.pending ||| 0x0400#16 } } (raise .restoreDone (passOver s)).dirty
      (publish s (resumeAudio (raise .restoreDone (passOver s)))).dirty hstop
    have hsame : ({ passOver s with
        att := { s.att with pending := s.att.pending ||| 0x0400#16 }
        dirty := (raise .restoreDone (passOver s)).dirty } : State) = raise .restoreDone (passOver s) :=
      (raise_restoreDone (passOver s)).symm
    rw [hsame] at hres
    exact hres

end Sys2Proof.Machine

end

/-! The master clock's absence and its return (R124, R127, R135). -/

section

set_option autoImplicit false

namespace Sys2Proof.Machine

/-! ### The absence -/

/-- The port after the fetch in flight has been discarded (R15). -/
def fetchDiscarded : Port → Port
  | .part b => match b.owner with
    | .fetch _ _ => .part { b with discard := true }
    | _ => .part b
  | p => p

theorem discardFetch_away (m : StreamId) (s : State) (h : fetchInFlight s m = false) : discardFetch m s = s := by
  unfold discardFetch
  split
  · rw [h]
    rfl
  · rfl

theorem port_same {s : State} {p : Port} (h : s.agent.port = p) : { s with agent := { s.agent with port := p } } = s := by
  rw [← h]

theorem discardFetches_eq (s : State) : discardFetch .ms2 (discardFetch .ms1 s)
    = { s with agent := { s.agent with port := fetchDiscarded s.agent.port } } := by
  by_cases hf : ∃ b m n, s.agent.port = .part b ∧ b.owner = .fetch m n
  · obtain ⟨b, m, n, hp, ho⟩ := hf
    have hport : fetchDiscarded s.agent.port = .part { b with discard := true } := by
      simp only [hp, fetchDiscarded, ho]
    have hdisc : discardFetch m s = { s with agent := { s.agent with port := .part { b with discard := true } } } := by
      have hin : fetchInFlight s m = true := by simp [fetchInFlight, hp, ho]
      unfold discardFetch
      rw [hp]
      exact if_pos hin
    rw [hport]
    cases m with
    | ms1 =>
      rw [hdisc]
      exact discardFetch_away .ms2 _ (by simp [fetchInFlight, ho])
    | ms2 =>
      rw [discardFetch_away .ms1 s (by simp [fetchInFlight, hp, ho])]
      exact hdisc
  · have haway : ∀ m, fetchInFlight s m = false := fun m => by
      unfold fetchInFlight
      split
      · rename_i b hp
        split
        · rename_i x n ho
          exact absurd ⟨b, x, n, hp, ho⟩ hf
        · rfl
      · rfl
    have hport : fetchDiscarded s.agent.port = s.agent.port := by
      unfold fetchDiscarded
      split
      · rename_i b hp
        split
        · rename_i x n ho
          exact absurd ⟨b, x, n, hp, ho⟩ hf
        · exact hp.symm
      · rfl
    rw [discardFetch_away .ms1 s (haway .ms1), discardFetch_away .ms2 s (haway .ms2), hport]

theorem trip_causeMarked (m : AmpModule) (c : TripCause) (n : Nat) (s : State) : CauseMarked s (trip m c n s) := by
  unfold trip
  dsimp only
  split
  · exact .same rfl rfl
  · exact (CauseMarked.same (s := s) (t := updModule m _ (floorModule m s)) rfl rfl).trans (raise_causeMarked .module _)

/-- A module that the clock trips (R135). -/
def clockTripped (r : ModuleRec) : ModuleRec :=
  if r.state = .tripped then r
  else { r with state := .tripped, order := false, cause := .clock, tripEntry := 0 }

/-- The state after the clock has tripped a module, with its marks. -/
def clockTrip (m : AmpModule) (d : List Rec) (s : State) : State :=
  { s with
    mods := s.mods.set m (clockTripped (s.mods.get m)), gain := flooredModule m s.gain
    att := { s.att with pending := s.att.pending ||| if (s.mods.get m).state = .tripped then 0 else 0x0010#16 }
    dirty := d }

theorem trip_clock (m : AmpModule) (s : State) : ∃ d, trip m .clock 0 s = clockTrip m d s := by
  refine ⟨(trip m .clock 0 s).dirty, ?_⟩
  by_cases h : (s.mods.get m).state = .tripped
  · have hform : trip m .clock 0 s = floorModule m s := if_pos h
    rw [hform]
    unfold clockTrip
    apply State.ext_fields <;> simp [clockTripped, h, floorModule, floorChans, mapChans, flooredModule, flooredChans]
  · rw [trip_fresh m .clock 0 s h, raise_form]
    unfold clockTrip
    apply State.ext_fields <;> simp [clockTripped, h, causeMask, causeBit]

theorem flooredModules_all (g : Gain) :
    flooredModule .c (flooredModule .b (flooredModule .a g)) = flooredChans (fun _ => true) g := by
  have hform : ∀ m x, flooredModule m x = flooredChans (fun ch => chanModule ch == m) x := fun _ _ => rfl
  rw [hform, hform, hform, flooredChans_or, flooredChans_or]
  congr 1
  funext ch
  cases hm : chanModule ch <;> rfl

theorem tripBits_or (p : Word) (a b c : Prop) [Decidable a] [Decidable b] [Decidable c] :
    (((p ||| if a then 0 else 0x0010#16) ||| if b then 0 else 0x0010#16) ||| if c then 0 else 0x0010#16) ||| 0x0020#16
      = p ||| 0x0020#16 ||| if a ∧ b ∧ c then 0 else 0x0010#16 := by
  by_cases ha : a <;> by_cases hb : b <;> by_cases hc : c <;> simp [ha, hb, hc, BitVec.or_assoc]

theorem clockTrips (s : State) (d1 d2 d3 : List Rec) :
    clockTrip .c d3 (clockTrip .b d2 (clockTrip .a d1 s)) = { s with
      mods := .ofFn fun m => clockTripped (s.mods.get m), gain := flooredChans (fun _ => true) s.gain
      att := { s.att with
        pending := ((s.att.pending ||| if (s.mods.get .a).state = .tripped then 0 else 0x0010#16)
          ||| if (s.mods.get .b).state = .tripped then 0 else 0x0010#16)
          ||| if (s.mods.get .c).state = .tripped then 0 else 0x0010#16 }
      dirty := d3 } := by
  have hgain : (clockTrip .c d3 (clockTrip .b d2 (clockTrip .a d1 s))).gain = flooredChans (fun _ => true) s.gain :=
    flooredModules_all s.gain
  rw [← hgain]
  rfl

/-- What an absence makes of the state, but for the marks. -/
theorem clockAbsence_eq (s : State) (h : s.clock = .good) : clockAbsence s = { s with
    clock := .failed, links := .all 0, dec := { s.dec with sums := .zero, frames := 0 }
    gain := flooredChans (fun _ => true) s.gain
    mods := .ofFn fun m => clockTripped (s.mods.get m)
    agent := { s.agent with port := fetchDiscarded s.agent.port }
    att := { s.att with
      pending := s.att.pending ||| 0x0020#16
        ||| if (s.mods.get .a).state = .tripped ∧ (s.mods.get .b).state = .tripped ∧ (s.mods.get .c).state = .tripped
          then 0 else 0x0010#16 }
    dirty := (clockAbsence s).dirty } := by
  have hform : clockAbsence s
      = raise .clock (trip .c .clock 0 (trip .b .clock 0 (trip .a .clock 0 (stopAudio s)))) := if_pos h
  have hstop : stopAudio s = { s with
      clock := .failed, links := .all 0, dec := { s.dec with sums := .zero, frames := 0 }
      agent := { s.agent with port := fetchDiscarded s.agent.port } } := by
    unfold stopAudio
    rw [discardFetches_eq]
    rfl
  obtain ⟨d1, h1⟩ := trip_clock .a (stopAudio s)
  obtain ⟨d2, h2⟩ := trip_clock .b (clockTrip .a d1 (stopAudio s))
  obtain ⟨d3, h3⟩ := trip_clock .c (clockTrip .b d2 (clockTrip .a d1 (stopAudio s)))
  rw [h1, h2, h3, clockTrips, raise_form, raise_att, hstop] at hform
  have hbits := tripBits_or s.att.pending ((s.mods.get .a).state = .tripped) ((s.mods.get .b).state = .tripped)
    ((s.mods.get .c).state = .tripped)
  rw [← hbits]
  rw [congrArg State.dirty hform]
  exact hform

theorem clockAbsence_causeMarked (s : State) (h : s.clock = .good) : CauseMarked s (clockAbsence s) := by
  have hform : clockAbsence s
      = raise .clock (trip .c .clock 0 (trip .b .clock 0 (trip .a .clock 0 (stopAudio s)))) := if_pos h
  have hstop : CauseMarked s (stopAudio s) := by
    unfold stopAudio
    rw [discardFetches_eq]
    exact .same rfl rfl
  rw [hform]
  exact (((hstop.trans (trip_causeMarked .a .clock 0 _)).trans (trip_causeMarked .b .clock 0 _)).trans
    (trip_causeMarked .c .clock 0 _)).trans (raise_causeMarked .clock _)

/-! ### The return -/

/-- No module is ON. -/
def AllModulesDown (s : State) : Prop := ∀ m, (s.mods.get m).state ≠ .on

theorem windDowns_down {s t : State} (h : WindDowns s t) (hd : AllModulesDown s) : t.mods = s.mods :=
  PerModule.ext_get _ _ fun m => (h m).2 fun k => hd m k.2.1

theorem examinedFor_mods {c : HeldChanges} {s t : State} (h : ExaminedFor c s t) : t.mods = s.mods := by
  rw [examinedFor_rest h]

theorem fadeEnded_mods {z : Zone} {s t : State} (h : FadeEnded z s t) (hd : AllModulesDown s) : t.mods = s.mods := by
  obtain ⟨a, b, c, hgate, happlied, hmoved, hexamined⟩ := h
  rw [examinedFor_mods hexamined, hmoved, happlied.rest]
  exact windDowns_down hgate.mods hd

theorem zoneLost_mods {z : Zone} {s t : State} (h : ZoneLost z s t) (hd : AllModulesDown s) : t.mods = s.mods := by
  cases hst : (s.zones.get z).state with
  | waiting | silent => rw [h.closed (by simp [hst])]
  | playing | fadingIn =>
    obtain ⟨a, hgate, hmoved⟩ := h.played (by simp [hst])
    rw [hmoved]
    exact windDowns_down hgate.mods hd
  | fadingOut => exact fadeEnded_mods (h.faded hst) hd
  | reconfiguring =>
    obtain ⟨a, b, c, hgate, happlied, hmoved, hexamined⟩ := h.reconfigured hst
    rw [examinedFor_mods hexamined, hmoved, happlied.rest]
    exact windDowns_down hgate.mods hd

theorem statusTaken_mods {z : Zone} {s t : State} (h : StatusTaken z s t) (hd : AllModulesDown s) : t.mods = s.mods := by
  by_cases hb : zoneBehind s z
  · obtain ⟨x, hx, hiff⟩ := hb
    cases hv : s.view.get x with
    | true => rw [h.gained x hx hv (hiff.2 hv)]
    | false => exact zoneLost_mods (h.lost x hx hv fun k => by simp [hiff.1 k] at hv) hd
  · rw [h.still hb]

/-- While no module is ON, the blocks' start leaves the modules (R93). -/
theorem resumeZone_mods (z : Zone) (s : State) (hd : AllModulesDown s) : (resumeZone z s).mods = s.mods := by
  unfold resumeZone
  simp only [checkLimit_fields, resumeHeld_fields, resumeSource_fields]
  exact statusTaken_mods (resumeCarrying_spec z s) hd

theorem recompute_mods (s : State) : (recompute s).mods = s.mods := by simp

theorem resumeOthers_mods (s : State) : (resumeOthers s).mods = s.mods := rfl

theorem resumeAudio_mods (s : State) (h : s.audioRuns = false) (hd : AllModulesDown s) : (resumeAudio s).mods = s.mods := by
  have hlines : (resumeLines s).mods = s.mods := by rw [(resumeLines_spec s h).rest]
  have hone := resumeZone_mods .z1 { resumeLines s with clock := .good, audioStarted := true } fun m => by
    show ((resumeLines s).mods.get m).state ≠ .on
    rw [hlines]
    exact hd m
  have htwo := resumeZone_mods .z2 (resumeZone .z1 { resumeLines s with clock := .good, audioStarted := true }) fun m => by
    rw [hone]
    show ((resumeLines s).mods.get m).state ≠ .on
    rw [hlines]
    exact hd m
  rw [resumeAudio_eq, recompute_mods, resumeOthers_mods, htwo, hone]
  exact hlines

theorem fullPass_iff (s : State) : fullPass s = true ↔ ∃ n, s.agent.restore = some ⟨.full, n⟩ := by
  unfold fullPass
  split
  · rename_i p hp
    rw [hp]
    obtain ⟨k, n⟩ := p
    cases k with
    | full => simp
    | audio => simp
  · rename_i hp
    simp [hp]

theorem startModules_get (s : State) (m : AmpModule) : (startModules s).mods.get m
    = if (s.mods.get m).state = .off ∧ (s.mods.get m).enable = true ∧ s.meas.result = .pass ∧ s.clock = .good
        then { s.mods.get m with state := .starting } else s.mods.get m := by
  rw [startModules_eq, PerModule.get_ofFn]

theorem startModules_resumes (s : State) : ResumeMarked s (startModules s) :=
  (PathMarked.same (s := s) (t := startModules s) (by simp)).resumes (by simp) (by simp)

/-- The published state of an effect that gives a state other modules. -/
theorem publish_modules (s x y : State) (M : PerModule ModuleRec) (hy : y = { x with mods := M }) (hsd : y.sd = s.sd) :
    publish s y = { x with mods := (publish s y).mods, dirty := (publish s y).dirty } := by
  have hpub := publish_eq s y
  rw [publish_att s y hsd] at hpub
  generalize publish s y = t at hpub
  rw [congrArg State.mods hpub, hpub, hy]

/-- Settles O50, by the clock's state and the full restore pass. -/
theorem clockAbsenceTripsAndProvenClockResumes : Obligations.ClockAbsenceTripsAndProvenClockResumes := by
  have habsence : ∀ s, exec .clockAbsence s = act clockAbsence s := fun _ => rfl
  have hproven : ∀ s, exec .clockProven s = act clockProven s := fun _ => rfl
  refine ⟨fun s h => ⟨fun hc => ?_, fun hc => ?_⟩, fun s h => ?_⟩
  · rw [habsence]
    exact act_same h (if_neg hc)
  · rw [habsence]
    refine ownStep_of_eq clockAbsence [] s _ _ h rfl ?_ rfl rfl (clockAbsence_causeMarked s hc).sets ?_
    · exact clockAbsence_eq s hc
    · intro k
      exact or_keeps (or_keeps k)
  · intro started
    refine ⟨fun hc => ?_, fun hc hf => ?_, fun hc hf hp => ?_⟩
    · rw [hproven]
      exact act_same h (if_pos hc)
    · rw [hproven]
      have hform : clockProven s = startModules { s with clock := .good } := by
        unfold clockProven
        rw [if_neg hc, if_pos ((fullPass_iff s).2 hf)]
      rw [startModules_eq] at hform
      refine ownStep_of_eq clockProven [] s _ _ h hform ?_ rfl rfl (.same _ _ rfl) id
      simp only [and_true]
      rfl
    · rw [hproven]
      have hstop : s.audioRuns = false := by
        unfold State.audioRuns
        simp [hc]
      have hdown : AllModulesDown s := fun m k => hc (hp m (.inr k)).2
      have hform : clockProven s = startModules (resumeAudio s) := by
        unfold clockProven
        rw [if_neg hc, if_neg fun k => by obtain ⟨n, hn⟩ := (fullPass_iff s).1 k; exact hf n hn]
      have hres := resumeAudio_spec s hstop
      have hmods := resumeAudio_mods s hstop hdown
      have hclock : (resumeAudio s).clock = .good := by rw [hres.rest]
      have hmeas : (resumeAudio s).meas = s.meas := by rw [hres.rest]
      have hsdp : (clockProven s).sd = s.sd := by simp
      have hmarks : ResumeMarked s (clockProven s) := by
        rw [hform]
        exact (resumeAudio_resumes s hstop).trans (startModules_resumes _)
      refine ⟨publish s (clockProven s), act_high _ s h, fun m => ?_, ?_, resumeAudio s, hres, ?_⟩
      · have hkeep : (publish s (clockProven s)).mods = (clockProven s).mods := by simp
        rw [hkeep, hform, startModules_get, hmods, hclock, hmeas]
        simp [started]
      · exact (hmarks.between rfl (.refl _) rfl).publish hmarks.grows.station
      · exact publish_modules s (resumeAudio s) _ _ (hform.trans (startModules_eq _)) hsdp

end Sys2Proof.Machine

end

/-! The table of the control region (R192) and what its slots hold (R11, R190). -/

section

set_option autoImplicit false

namespace Sys2Proof.Machine

/-! ### Where the slots stand -/

theorem standFrom_of_offsets {off : Nat} {sls : List Slot}
    (h : sls.map Slot.offset = (List.range sls.length).map fun i => off + 2 * i) : StandFrom off sls := by
  intro i sl hi
  have hoff := congrArg (fun l => l[i]?) h
  simp only [List.getElem?_map, hi, Option.map_some] at hoff
  obtain ⟨hlt, -⟩ := List.getElem?_eq_some_iff.1 hi
  rw [List.getElem?_range hlt] at hoff
  simpa using hoff

theorem slots_audio : ∀ sl ∈ slots, sl.isAudio = true ↔
    (0x0020 ≤ sl.offset ∧ sl.offset ≤ 0x00AE) ∨ (0x00E0 ≤ sl.offset ∧ sl.offset ≤ 0x0112) := by decide +kernel

theorem slots_writeBack : ∀ sl ∈ slots, sl.takesWriteBack = true ↔
    sl ∈ [Slot.systemCmd, .attnAck, .setupLock, .volume .z1, .volume .z2, .mute .z1, .mute .z2, .streamCmd .ms1,
      .streamCmd .ms2, .speaker .frontSize, .speaker .back, .moduleCmd, .measureCmd, .band, .code, .tunerCmd] := by
  decide +kernel

theorem slots_command : ∀ sl ∈ slots, sl.isCommand = true ↔
    sl ∈ [Slot.systemCmd, .streamCmd .ms1, .streamCmd .ms2, .moduleCmd, .measureCmd, .tunerCmd] := by decide +kernel

theorem entry_offsets : ∀ n : Fin 16, [Slot.entry n 0, .entry n 1, .entry n 2, .entry n 3].map Slot.offset
    = (List.range 4).map fun i => 0x0160 + 8 * n.val + 2 * i := by decide

theorem slotTable : SlotTable where
  system := standFrom_of_offsets (by decide)
  zone := fun z off h => by
    simp only [List.mem_cons, Prod.mk.injEq, List.not_mem_nil, or_false] at h
    rcases h with ⟨rfl, rfl⟩ | ⟨rfl, rfl⟩
    · exact standFrom_of_offsets (by decide)
    · exact standFrom_of_offsets (by decide)
  decode := standFrom_of_offsets (by decide)
  format := standFrom_of_offsets (by decide)
  srcTrim := standFrom_of_offsets (by decide)
  stream := fun m off h => by
    simp only [List.mem_cons, Prod.mk.injEq, List.not_mem_nil, or_false] at h
    rcases h with ⟨rfl, rfl⟩ | ⟨rfl, rfl⟩
    · exact standFrom_of_offsets (by decide)
    · exact standFrom_of_offsets (by decide)
  speaker := standFrom_of_offsets (by decide)
  maxVolume := standFrom_of_offsets (by decide)
  moduleEn := standFrom_of_offsets (by decide)
  trim := standFrom_of_offsets (by decide)
  dist := standFrom_of_offsets (by decide)
  moduleCmd := standFrom_of_offsets (by decide)
  measure := standFrom_of_offsets (by decide)
  entry := fun n => standFrom_of_offsets (entry_offsets n)
  tuner := standFrom_of_offsets (by decide)
  found := fun off sl => ⟨slotAt_some off sl, fun h => h ▸ slotAt_offset sl⟩
  lockable := fun sl => by cases sl <;> simp [Slot.isLockable]
  command := fun sl => slots_command sl (mem_slots sl)
  audio := fun sl => slots_audio sl (mem_slots sl)
  writeBack := fun sl => slots_writeBack sl (mem_slots sl)

/-! ### What the slots hold -/

theorem bitAt_zero (b : Bool) : bitAt b 0 = if b = true then 1 else 0 := rfl

theorem zoneSelection_eq (r : ZoneRec) : zoneSelection r = r.kept.getD r.pending := by
  unfold zoneSelection
  cases r.kept <;> rfl

theorem sizeWord_place (x : SpeakerSize) :
    sizeWord x = BitVec.ofNat 16 (placeIn [SpeakerSize.large, .small, .absent] x) := by
  cases x <;> rfl

theorem slotsHold (s : State) : SlotsHold s (BitVec.ofNat 16) (BitVec.ofInt 16) where
  system := by
    refine ⟨rfl, rfl, lockWord_place s.lock, ?_, rfl⟩
    show numWord (zoneIndex s.knob.zone + 1) = _
    cases s.knob.zone <;> rfl
  zone := fun z => by
    intro r g
    refine ⟨?_, rfl, rfl, rfl, rfl, rfl, rfl⟩
    show numWord (sourceCode (zoneSelection r)) = _
    rw [sourceCode_place, zoneSelection_eq]
    rfl
  decode := by
    rw [← modeCode_place, ← speedCode_place]
    exact ⟨rfl, rfl⟩
  inputs := by
    refine ⟨fun l => ?_, fun _ => rfl⟩
    rw [← formatCode_place]
    rfl
  stream := fun m => ⟨rfl, rfl, rfl, rfl, rfl, rfl, rfl⟩
  speaker := by
    intro c size
    refine ⟨?_, sizeWord_place _, sizeWord_place _, sizeWord_place _, sizeWord_place _, ?_, rfl⟩
    · show c.word .frontSize = _
      cases h : c.front <;> simp [SpeakerConfig.word, h]
    · show c.word .sub = _
      cases h : c.subPresent <;> simp [SpeakerConfig.word, h]
  channels := ⟨fun _ => rfl, fun _ => rfl⟩
  modules := fun _ => rfl
  measure := ⟨rfl, fun _ => ⟨rfl, rfl, rfl, rfl⟩⟩
  tuner := by
    intro x
    refine ⟨?_, ?_, rfl, rfl, rfl, rfl, rfl, rfl⟩
    · show numWord (regionCode x.region) = _
      cases x.region <;> rfl
    · show numWord (bandCode x.band) = _
      cases x.band <;> rfl
  outcomes := fun a w h => by
    have hw : answerWord a = w := by
      simp only [List.mem_cons, Prod.mk.injEq, List.not_mem_nil, or_false] at h
      rcases h with ⟨rfl, rfl⟩ | ⟨rfl, rfl⟩ | ⟨rfl, rfl⟩ | ⟨rfl, rfl⟩ | ⟨rfl, rfl⟩
      all_goals rfl
    refine ⟨fun e => ?_, fun m e => ?_, fun e => ?_, fun e => ?_, fun e => ?_⟩
    all_goals
      rw [← hw, ← e]
      rfl

end Sys2Proof.Machine

end

/-! A slot's word after a taken write is its owner's value (R8, R11, R190). -/

section

set_option autoImplicit false

namespace Sys2Proof.Machine

/-! ### The words that the filter carries -/

theorem numWord_self (w : Word) : numWord w.toNat = w := by simp [numWord]

theorem levelWord_self (w : Word) : levelWord w.toInt = w := BitVec.ofInt_toInt

/-- An enumerated slot's carried word is one of its members. -/
theorem members_word {ns : List Nat} {v w : Word} (h : members ns v = some w) : ∃ n ∈ ns, w = numWord n := by
  unfold members at h
  split at h
  · rename_i hv
    cases h
    exact ⟨v.toNat, hv, (numWord_self v).symm⟩
  · simp at h

/-- A flag's word. -/
theorem members_flag {v w : Word} (h : members [0, 1] v = some w) : numWord (bitAt (decide (w = 1)) 0) = w := by
  obtain ⟨n, hn, rfl⟩ := members_word h
  simp only [List.mem_cons, List.not_mem_nil, or_false] at hn
  rcases hn with rfl | rfl
  · rfl
  · rfl

/-! ### The owners' values after an arrival -/

theorem sourceOfWord_code {v w : Word} (h : members [0, 1, 2, 3, 4, 5, 6, 7] v = some w) :
    numWord (sourceCode (sourceOfWord w)) = w := by
  obtain ⟨n, hn, rfl⟩ := members_word h
  simp only [List.mem_cons, List.not_mem_nil, or_false] at hn
  rcases hn with rfl | rfl | rfl | rfl | rfl | rfl | rfl | rfl
  all_goals rfl

/-- A SOURCE arrival is the zone's selection (R47, R51 to R53, R65). -/
theorem sourceArrival_selection (z : Zone) (src : Option Source) (x : State) (hz : ZoneLaw (x.zones.get z))
    (hk : x.audioRuns = true → (x.zones.get z).kept = none) :
    zoneSelection ((sourceArrival z src x).zones.get z) = src := by
  unfold sourceArrival
  split
  · rename_i hr
    have hkept := hk hr
    have hmove : ∀ (f : ZoneRec → ZoneRec) (t : State), ZoneMoved z f x t → (f (x.zones.get z)).kept = none →
        (f (x.zones.get z)).pending = src → zoneSelection (t.zones.get z) = src := fun f t ht h1 h2 => by
      rw [ht, zoneSelection_eq]
      simp [h1, h2]
    have hspec := sourceAct_spec z src x
    have hplay : (x.zones.get z).state ∈ [ZoneState.playing, .fadingIn, .reconfiguring] →
        zoneSelection ((sourceAct z src x).zones.get z) = src := fun hst => by
      by_cases hc : src = (x.zones.get z).connected
      · rw [hspec.same hst hc, zoneSelection_eq]
        have hp := hz.pending fun k => by rw [k] at hst; simp at hst
        simp [hkept, hp, hc]
      · exact hmove _ _ (hspec.other hst hc) hkept rfl
    have hclosed : (x.zones.get z).state ∈ [ZoneState.waiting, .silent] →
        zoneSelection ((sourceAct z src x).zones.get z) = src := fun hst => by
      refine hmove _ _ (hspec.closed hst) ?_ ?_
      · unfold connectedTo
        split
        · exact hkept
        · split
          · exact hkept
          · exact hkept
      · unfold connectedTo
        split
        · rfl
        · split
          · rfl
          · rfl
    cases hst : (x.zones.get z).state with
    | playing | fadingIn | reconfiguring => exact hplay (by simp [hst])
    | waiting | silent => exact hclosed (by simp [hst])
    | fadingOut => exact hmove _ _ (hspec.fading hst) hkept rfl
  · rw [zoneSelection_eq, updZone]
    simp

theorem checkLimit_waitLimit (z : Zone) (x : State) :
    ((checkLimit z x).zones.get z).waitLimit = (x.zones.get z).waitLimit := by
  rw [checkLimit_eq]
  split
  · rw [limitReached_eq]
    simp
  · rfl

theorem recomputeIfRunning_requests (x : State) :
    (recomputeIfRunning x).pool.dist = x.pool.dist ∧ (recomputeIfRunning x).pool.lipsync = x.pool.lipsync := by
  unfold recomputeIfRunning recompute
  split
  · rw [(examineZones_spec _).rest]
    exact ⟨rfl, rfl⟩
  · exact ⟨rfl, rfl⟩

theorem decodeModeArrival_staged (m : DecodeMode) (x : State) : (decodeModeArrival m x).dec.staged = m := by
  unfold decodeModeArrival requestChange decodeApply
  dsimp only
  split
  · rfl
  · split
    · rfl
    · simp

theorem formatArrival_format (l : SaLine) (f : Format) (x : State) : ((formatArrival l f x).sa.get l).format = f := by
  unfold formatArrival
  split
  · rename_i h
    exact h.symm
  · split
    · rw [lineStepWith_eq, eventOf_rest]
      simp only [afterCarrying, updLine, PerLine.get_upd_self]
      unfold SaState.formatChange SaState.leaveLocked SaState.clearRuns
      dsimp only
      split
      all_goals rfl
    · simp [updLine]

theorem members_bound {ns : List Nat} {v w : Word} (h : members ns v = some w) (b : Nat) (hb : ∀ n ∈ ns, n ≤ b) :
    w.toNat ≤ b := by
  obtain ⟨n, hn, rfl⟩ := members_word h
  have := hb n hn
  simp only [numWord, BitVec.toNat_ofNat]
  omega

theorem filterSpeaker_bound (c : SpeakerConfig) (p : SpeakerSlot) (v w : Word) (h : filterSpeaker c p v = some w) :
    w.toNat ≤ speakerBound p := by
  have hmap : ∀ (ns : List Nat) (b d : Nat) (f : Word → Word), (∀ u, f u = u ∨ f u = numWord d) → d ≤ b → b < 65536 →
      (∀ n ∈ ns, n ≤ b) → (members ns v).map f = some w → w.toNat ≤ b := fun ns b d f hf hd hlt hb hm => by
    obtain ⟨u, hu, rfl⟩ := Option.map_eq_some_iff.1 hm
    rcases hf u with e | e
    · rw [e]
      exact members_bound hu b hb
    · rw [e]
      simp only [numWord, BitVec.toNat_ofNat]
      omega
  cases p with
  | frontSize => exact hmap [0, 1] 1 0 _ (fun u => by split <;> simp [numWord]) (by simp) (by simp) (by simp) h
  | back => exact hmap [0, 1, 2] 2 2 _ (fun u => by split <;> simp [numWord]) (by simp) (by simp) (by simp) h
  | center => exact members_bound h 2 (by simp)
  | surround => exact members_bound h 2 (by simp)
  | top => exact members_bound h 2 (by simp)
  | sub => exact members_bound h 1 (by simp)
  | crossover => exact members_bound h 5 (by simp)

theorem speakerArrival_staged (p : SpeakerSlot) (w : Word) (x : State) (h : w.toNat ≤ speakerBound p) :
    (speakerArrival p w x).bass.staged = x.bass.staged.take p w := by
  have hreq : ∀ y : State, (requestChange .speakers speakersApply y).bass.staged = y.bass.staged := fun y => by
    unfold requestChange speakersApply
    split
    · rfl
    · simp
  have hforced : (withForced p w x).bass = x.bass := rfl
  rw [speakerArrival_eq p w x h]
  split
  · rename_i hsame
    rw [hforced, hsame]
  · split
    · exact hreq _
    · have hbass : ∀ y, (presenceArrival y).bass = y.bass := fun y => by simp
      rw [hbass]
      exact hreq _

theorem startModule_enable (m : AmpModule) (x : State) :
    ((startModule m x).mods.get m).enable = (x.mods.get m).enable := by
  rw [startModule_eq]
  simp only [PerModule.get_set_self]
  split
  · rfl
  · rfl

theorem windDownReport_enable (m : AmpModule) (x : State) :
    ((windDownReport m x).mods.get m).enable = (x.mods.get m).enable := by
  rw [windDownReport_eq]
  split
  · simp
  · rfl

theorem moduleEnArrival_enable (m : AmpModule) (on : Bool) (x : State) :
    ((moduleEnArrival m on x).mods.get m).enable = on := by
  unfold moduleEnArrival
  dsimp only
  split
  · assumption
  · split
    · rw [startModule_enable]
      simp [updModule]
    · simp [stopModule, updModule]
    · rw [windDownReport_enable]
      simp [updModule]
    · simp [updModule]
    · simp [updModule]

theorem requestCode_target (code : Nat) (x : State) :
    (ownCode code x).tun.region = x.tun.region ∧ (ownCode code x).tun.band = x.tun.band := by
  unfold ownCode
  split
  · exact ⟨rfl, rfl⟩
  · rw [requestWriteBack_eq, changeCode_eq]
    exact ⟨rfl, rfl⟩

theorem normWeak_target (x : State) : (normWeak x).tun.region = x.tun.region ∧ (normWeak x).tun.band = x.tun.band
    ∧ (normWeak x).tun.code = x.tun.code ∧ (normWeak x).tun.afFollow = x.tun.afFollow := by
  rw [normWeak_eq]
  exact ⟨rfl, rfl, rfl, rfl⟩

/-- A carried word is its owner's value after its arrival (R8, R11). -/
theorem slotValue_arrive (sl : Slot) (v w : Word) (x : State) (hf : filterValue x sl v = some w)
    (hc : sl.isCommand = false) (hack : sl ≠ .attnAck) (hlock : sl ≠ .setupLock) (hlen : x.meas.entries.length = 16)
    (hlow : ∀ z, gainFloor ≤ (x.gain.zones.get z).maxVolume) (hhigh : ∀ z, (x.gain.zones.get z).maxVolume ≤ gainCeiling)
    (hz : ZonesLaw x) (hk : x.audioRuns = true → ∀ z, (x.zones.get z).kept = none) :
    slotValue (arrive sl w x) sl = w := by
  cases sl with
  | systemCmd => simp [Slot.isCommand] at hc
  | streamCmd m => simp [Slot.isCommand] at hc
  | moduleCmd => simp [Slot.isCommand] at hc
  | measureCmd => simp [Slot.isCommand] at hc
  | tunerCmd => simp [Slot.isCommand] at hc
  | attnAck => exact absurd rfl hack
  | setupLock => exact absurd rfl hlock
  | attnEnable => rfl
  | knobZone =>
    obtain ⟨n, hn, rfl⟩ := members_word (ns := [1, 2]) hf
    simp only [List.mem_cons, List.not_mem_nil, or_false] at hn
    rcases hn with rfl | rfl
    · rfl
    · rfl
  | knobStep => exact numWord_self w
  | source z =>
    show numWord (sourceCode (zoneSelection ((sourceArrival z (sourceOfWord w) x).zones.get z))) = w
    rw [sourceArrival_selection z _ x (hz z) fun hr => hk hr z]
    exact sourceOfWord_code hf
  | volume z =>
    have hw : levelRanged (-320) (x.gain.zones.get z).maxVolume v = some w := hf
    have h1 : (-320 : Int) ≤ (x.gain.zones.get z).maxVolume := hlow z
    have h2 : (x.gain.zones.get z).maxVolume ≤ 32 := hhigh z
    have hin := clampInt_bounds (-320) (x.gain.zones.get z).maxVolume v.toInt h1
    have hval : w.toInt ≤ (x.gain.zones.get z).maxVolume := by
      unfold levelRanged at hw
      cases hw
      rw [levelWord_toInt _ (by omega) (by omega)]
      exact hin.2
    show levelWord ((volumeArrival z w.toInt x).gain.zones.get z).volume = w
    unfold volumeArrival
    dsimp only
    rw [if_neg (by omega), updZoneGain]
    simp [levelWord_self]
  | mute z =>
    show numWord (bitAt ((muteArrival z (decide (w = 1)) x).gain.zones.get z).mute 0) = w
    simp only [muteArrival, updZoneGain, PerZone.get_upd_self]
    exact members_flag hf
  | fadeRate z =>
    show numWord ((fadeRateArrival z w.toNat x).zones.get z).fadeRate = w
    simp only [fadeRateArrival, updZone, PerZone.get_upd_self]
    exact numWord_self w
  | waitLimit z =>
    show numWord ((waitLimitArrival z w.toNat x).zones.get z).waitLimit = w
    have hlimit : ((waitLimitArrival z w.toNat x).zones.get z).waitLimit = w.toNat := by
      unfold waitLimitArrival
      dsimp only
      split
      · rw [checkLimit_waitLimit]
        simp [updZone]
      · simp [updZone]
    rw [hlimit]
    exact numWord_self w
  | lipsync z =>
    show numWord ((lipsyncArrival z w.toNat x).pool.lipsync.get z) = w
    unfold lipsyncArrival
    rw [(recomputeIfRunning_requests _).2]
    simp [numWord_self]
  | decodeMode =>
    show numWord (modeCode (decodeModeArrival (modeOfWord w) x).dec.staged) = w
    rw [decodeModeArrival_staged]
    obtain ⟨n, hn, rfl⟩ := members_word (ns := [0, 1, 2]) hf
    simp only [List.mem_cons, List.not_mem_nil, or_false] at hn
    rcases hn with rfl | rfl | rfl
    all_goals rfl
  | steerSpeed =>
    obtain ⟨n, hn, rfl⟩ := members_word (ns := [0, 1, 2]) hf
    simp only [List.mem_cons, List.not_mem_nil, or_false] at hn
    rcases hn with rfl | rfl | rfl
    all_goals rfl
  | format l =>
    show numWord (formatCode ((formatArrival l (formatOfWord w) x).sa.get l).format) = w
    rw [formatArrival_format]
    obtain ⟨n, hn, rfl⟩ := members_word (ns := [0, 1]) hf
    simp only [List.mem_cons, List.not_mem_nil, or_false] at hn
    rcases hn with rfl | rfl
    all_goals rfl
  | srcTrim src =>
    show levelWord ((x.gain.srcTrims.set src w.toInt).get src) = w
    simp [levelWord_self]
  | desc m d =>
    show ((updReader m (fun r => r.putDesc d w) x).ms.get m).descWord d = w
    simp only [updReader, PerStream.get_upd_self]
    cases d with
    | baseLo => rfl
    | baseHi => rfl
    | size => exact numWord_self w
    | channels => exact numWord_self w
    | width => exact numWord_self w
    | rate => exact numWord_self w
  | fill m =>
    show numWord ((fillArrival m w.toNat x).ms.get m).fill = w
    simp [fillArrival, updReader, numWord_self]
  | speaker p =>
    have hb : w.toNat ≤ speakerBound p := filterSpeaker_bound x.bass.staged p v w hf
    show (speakerArrival p w x).bass.staged.word p = w
    rw [speakerArrival_staged p w x hb, word_take _ _ _ _ hb, if_pos rfl]
  | maxVolume z =>
    show levelWord ((maxVolumeArrival z w.toInt x).gain.zones.get z).maxVolume = w
    unfold maxVolumeArrival
    dsimp only
    split
    · rw [requestWriteBack_eq]
      simp [updZoneGain, levelWord_self]
    · simp [updZoneGain, levelWord_self]
  | moduleEn m =>
    show numWord (bitAt ((moduleEnArrival m (decide (w = 1)) x).mods.get m).enable 0) = w
    rw [moduleEnArrival_enable]
    exact members_flag hf
  | trim ch =>
    show levelWord ((x.gain.trims.set ch w.toInt).get ch) = w
    simp [levelWord_self]
  | dist ch =>
    show numWord ((distArrival ch w.toNat x).pool.dist.get ch) = w
    unfold distArrival
    rw [(recomputeIfRunning_requests _).1]
    simp [numWord_self]
  | seqLen =>
    show numWord (seqLenArrival w.toNat x).meas.seqLen = w
    rw [seqLenArrival_eq]
    exact numWord_self w
  | entry n k =>
    show ((entryArrival n k w x).meas.entry n.val).word k = w
    have hn : n.val < x.meas.entries.length := by omega
    rw [entryArrival_eq]
    simp only [Meas.entry, List.getD_eq_getElem?_getD, List.getElem?_set_self hn, Option.getD_some]
    fin_cases k
    all_goals rfl
  | region =>
    show numWord (regionCode (normWeak (regionArrival (regionOfWord w) x)).tun.region) = w
    have hreg : (regionArrival (regionOfWord w) x).tun.region = regionOfWord w := (requestCode_target _ _).1
    rw [(normWeak_target _).1, hreg]
    obtain ⟨n, hn, rfl⟩ := members_word (ns := [0, 1]) hf
    simp only [List.mem_cons, List.not_mem_nil, or_false] at hn
    rcases hn with rfl | rfl
    all_goals rfl
  | band =>
    show numWord (bandCode (normWeak (bandArrival (bandOfWord w) x)).tun.band) = w
    have hband : (bandArrival (bandOfWord w) x).tun.band = bandOfWord w := (requestCode_target _ _).2
    rw [(normWeak_target _).2.1, hband]
    obtain ⟨n, hn, rfl⟩ := members_word (ns := [0, 1]) hf
    simp only [List.mem_cons, List.not_mem_nil, or_false] at hn
    rcases hn with rfl | rfl
    all_goals rfl
  | code =>
    show numWord (normWeak (changeCode w.toNat x)).tun.code = w
    rw [(normWeak_target _).2.2.1, changeCode_eq]
    exact numWord_self w
  | seekThr => exact numWord_self w
  | blendThr => exact numWord_self w
  | afThr => exact numWord_self w
  | afFollow =>
    show numWord (bitAt (normWeak (updTun (fun t => { t with afFollow := decide (w = 1) }) x)).tun.afFollow 0) = w
    rw [(normWeak_target _).2.2.2]
    exact members_flag hf
  | feDivisor => exact numWord_self w

/-! ### A taken write -/

theorem filterValue_arrived (s : State) (w : Word) (sl sl' : Slot) (v : Word) :
    filterValue (arrived sl w s) sl' v = filterValue s sl' v := by
  cases sl' <;> rfl

theorem slotValue_beside (s : State) (a : Attention) (d : List Rec) (g : Agent) (sl : Slot)
    (h : a.enable = s.att.enable) : slotValue { s with att := a, dirty := d, agent := g } sl = slotValue s sl := by
  cases sl with
  | attnEnable => exact h
  | _ => rfl

theorem publish_enable (s y : State) : (publish s y).att.enable = y.att.enable := by
  rw [publish_att_eq]
  split
  · rfl
  · rfl

theorem slotValue_publish (s y : State) (g : Agent) (sl : Slot) :
    slotValue (publish s { y with agent := g }) sl = slotValue y sl := by
  rw [publish_eq]
  exact slotValue_beside y _ _ g sl (publish_enable s _)

/-- Settles O10, by the owner of the slot. -/
theorem takenSlotWordIsOwnersValue : Obligations.TakenSlotWordIsOwnersValue := by
  refine ⟨slotTable, slotsHold, fun i sl v s hi h hm hc hack hset hlock hst hv hlen hlow hhigh hz hk => ?_⟩
  set w := carriedWord s sl v
  have hf : filterValue s sl v = some w := filterValue_of_not_blocked s sl v hlow hv
  have hj : judgeSlot s sl .full v = .arrives sl w := judgeSlot_arrives s sl v w hlock (stateForbids_false s sl hst) hf
  have harrived : ({ reportWrite sl.offset s with mem := s.mem.writeWord (slotAddr s sl) w } : State) = arrived sl w s := by
    rw [reportWrite_offset]
    rfl
  have hrow := slotRow_arrives sl .full v w s h hj
  rw [harrived] at hrow
  set y := arrive sl w (arrived sl w s) with hy
  have hmem : y.mem = s.mem.writeWord (slotAddr s sl) w := (arrive_fields sl w (arrived sl w s)).2.2.2.1
  have hkeep : (publish s (updAgent (fun g => { g with port := .free, lastPart := false }) y)).mem = y.mem := by simp
  refine ⟨_, (exec_writeRow i sl .full v s hi).trans hrow, ?_, ?_, fun a h0 h1 => ?_⟩
  · rw [hkeep, hmem]
    exact slot_word_written s sl w hm
  · refine (slotValue_publish s y _ sl).trans ?_
    exact slotValue_arrive sl v w (arrived sl w s) ((filterValue_arrived s w sl sl v).trans hf) hc hack hset hlen hlow hhigh hz hk
  · rw [hkeep, hmem]
    exact Memory.read_writeWord_ne _ _ _ _ h0 h1

end Sys2Proof.Machine

end

/-! What the memory agent hands over at the port (R12) is the agent's own: every act of the part's blocks and every
arrival does the same whoever holds the port, so an act may be seen before or after a hand-over. -/

section

set_option autoImplicit false

namespace Sys2Proof.Machine

/-- How the port stands beside a part burst: in the host's hands or free, who held it last, and the access held on
WAITN. -/
structure HandOver where
  host : Bool
  last : Bool
  held : Option HeldAccess

/-- A state with the port so handed over. -/
def HandOver.put (ho : HandOver) (s : State) : State :=
  { s with agent := { s.agent with port := if ho.host then .host else .free, lastPart := ho.last, held := ho.held } }

section

variable (ho : HandOver) (s : State)

@[simp] theorem put_fields :
    (ho.put s).pending = s.pending ∧ (ho.put s).rstnLow = s.rstnLow ∧ (ho.put s).strap = s.strap
    ∧ (ho.put s).mem = s.mem ∧ (ho.put s).readData = s.readData ∧ (ho.put s).att = s.att
    ∧ (ho.put s).dirty = s.dirty ∧ (ho.put s).meterTimer = s.meterTimer ∧ (ho.put s).answers = s.answers
    ∧ (ho.put s).sa = s.sa ∧ (ho.put s).ms = s.ms ∧ (ho.put s).zones = s.zones ∧ (ho.put s).view = s.view
    ∧ (ho.put s).dec = s.dec ∧ (ho.put s).bass = s.bass ∧ (ho.put s).gain = s.gain ∧ (ho.put s).knob = s.knob
    ∧ (ho.put s).pool = s.pool ∧ (ho.put s).mods = s.mods ∧ (ho.put s).clock = s.clock
    ∧ (ho.put s).audioStarted = s.audioStarted ∧ (ho.put s).lock = s.lock ∧ (ho.put s).links = s.links
    ∧ (ho.put s).meas = s.meas ∧ (ho.put s).fe = s.fe ∧ (ho.put s).tun = s.tun ∧ (ho.put s).sd = s.sd
    ∧ (ho.put s).free = s.free := by
  simp [HandOver.put]

@[simp] theorem put_queue : (ho.put s).agent.queue = s.agent.queue := rfl

@[simp] theorem put_restore : (ho.put s).agent.restore = s.agent.restore := rfl

@[simp] theorem put_audioRuns : (ho.put s).audioRuns = s.audioRuns := rfl

@[simp] theorem put_zoneQuiet (z : Zone) : zoneQuiet (ho.put s) z = zoneQuiet s z := rfl

@[simp] theorem put_recWords (r : Rec) : recWords (ho.put s) r = recWords s r := by cases r <;> rfl

/-- A case split between two states handed over alike is handed over as a whole. -/
@[simp] theorem ite_put (c : Prop) [Decidable c] (a b : State) :
    (if c then ho.put a else ho.put b) = ho.put (if c then a else b) := (apply_ite ho.put c a b).symm

/-! ### Marks, causes and the records of single items -/

@[simp] theorem markDirty_put (r : Rec) : markDirty r (ho.put s) = ho.put (markDirty r s) := rfl

@[simp] theorem updReader_put (m : StreamId) (f : Reader → Reader) :
    updReader m f (ho.put s) = ho.put (updReader m f s) := rfl

@[simp] theorem raise_put (c : Cause) : raise c (ho.put s) = ho.put (raise c s) := by
  unfold raise
  rw [← ite_put]
  rfl

@[simp] theorem updZone_put (z : Zone) (f : ZoneRec → ZoneRec) :
    updZone z f (ho.put s) = ho.put (updZone z f s) := rfl

@[simp] theorem mapChans_put (f : Chan → ChanGain → ChanGain) :
    mapChans f (ho.put s) = ho.put (mapChans f s) := rfl

@[simp] theorem floorChans_put (p : Chan → Bool) : floorChans p (ho.put s) = ho.put (floorChans p s) := rfl

@[simp] theorem floorZone_put (z : Zone) : floorZone z (ho.put s) = ho.put (floorZone z s) := rfl

@[simp] theorem updModule_put (m : AmpModule) (f : ModuleRec → ModuleRec) :
    updModule m f (ho.put s) = ho.put (updModule m f s) := rfl

@[simp] theorem floorModule_put (m : AmpModule) : floorModule m (ho.put s) = ho.put (floorModule m s) := rfl

@[simp] theorem stopModule_put (m : AmpModule) : stopModule m (ho.put s) = ho.put (stopModule m s) := rfl

@[simp] theorem windDownReport_put (m : AmpModule) :
    windDownReport m (ho.put s) = ho.put (windDownReport m s) := by
  unfold windDownReport
  rw [← ite_put]
  rfl

@[simp] theorem windDownReports_put : windDownReports (ho.put s) = ho.put (windDownReports s) := by
  simp [windDownReports]

/-! ### Zones and the delay pool -/

@[simp] theorem closeGate_put (z : Zone) : closeGate z (ho.put s) = ho.put (closeGate z s) := by
  simp [closeGate]

@[simp] theorem decodeApply_put : decodeApply (ho.put s) = ho.put (decodeApply s) := rfl

@[simp] theorem speakersApply_put : speakersApply (ho.put s) = ho.put (speakersApply s) := rfl

@[simp] theorem markAll_put (rs : List Rec) : markAll rs (ho.put s) = ho.put (markAll rs s) := by
  induction rs generalizing s with
  | nil => rfl
  | cons r rs ih => exact ih (markDirty r s)

@[simp] theorem delayApply_put (z : Zone) : delayApply z (ho.put s) = ho.put (delayApply z s) := by
  unfold delayApply
  rw [← ite_put]
  rfl

@[simp] theorem applyHeld_put (z : Zone) : applyHeld z (ho.put s) = ho.put (applyHeld z s) := by
  simp [applyHeld]

@[simp] theorem enterWaiting_put (z : Zone) : enterWaiting z (ho.put s) = ho.put (enterWaiting z s) := rfl

@[simp] theorem moveZone_put (z : Zone) (f : ZoneRec → ZoneRec) :
    moveZone z f (ho.put s) = ho.put (moveZone z f s) := by
  simp [moveZone]

@[simp] theorem holdChange_put (k : ChangeKind) (z : Zone) :
    holdChange k z (ho.put s) = ho.put (holdChange k z s) := by
  simp [holdChange]

/-- The examination of a zone, when its change is not yet requested, differs and has room. -/
def examineRoom (z : Zone) (s : State) : State × Bool :=
  if zoneQuiet s z then (delayApply z s, true) else (holdChange .delay z s, false)

theorem examineRoom_put (z : Zone) : examineRoom z (ho.put s) =
    (ho.put (examineRoom z s).1, (examineRoom z s).2) := by
  unfold examineRoom
  rw [put_zoneQuiet]
  split <;> simp

theorem examineZone_room {z : Zone} (hquiet : s.pool.alloc.get z ≠ .requested) (hset : s.pool.sameSet z = false)
    (hroom : s.pool.hasRoom z = true) :
    examineZone z s = examineRoom z { s with pool := s.pool.setAlloc z .requested } := by
  simp [examineZone, examineRoom, hquiet, hset, hroom]

theorem examineZone_put (z : Zone) :
    examineZone z (ho.put s) = (ho.put (examineZone z s).1, (examineZone z s).2) := by
  by_cases hquiet : s.pool.alloc.get z = .requested
  · simp [examineZone, hquiet]
  cases hset : s.pool.sameSet z
  case true => simp [examineZone, hquiet, hset]; rfl
  cases hroom : s.pool.hasRoom z
  case false => simp [examineZone, hquiet, hset, hroom]; rfl
  rw [examineZone_room s hquiet hset hroom]
  exact (examineZone_room (ho.put s) hquiet hset hroom).trans
    (examineRoom_put ho { s with pool := s.pool.setAlloc z .requested } z)

theorem examine_put (n : Nat) : examine n (ho.put s) = ho.put (examine n s) := by
  induction n generalizing s with
  | zero => rfl
  | succ n ih =>
    unfold examine
    simp only [examineZone_put, apply_ite ho.put, ih]

@[simp] theorem examineZones_put : examineZones (ho.put s) = ho.put (examineZones s) := examine_put ho s 3

@[simp] theorem examineAfter_put (held : HeldChanges) :
    examineAfter held (ho.put s) = ho.put (examineAfter held s) := by
  simp [examineAfter]

@[simp] theorem enterFadeIn_put (z : Zone) : enterFadeIn z (ho.put s) = ho.put (enterFadeIn z s) := by
  simp [enterFadeIn]

@[simp] theorem enterSilent_put (z : Zone) : enterSilent z (ho.put s) = ho.put (enterSilent z s) := by
  simp [enterSilent]

@[simp] theorem connect_put (z : Zone) (src : Option Source) :
    connect z src (ho.put s) = ho.put (connect z src s) := by
  simp only [connect, put_fields]
  split <;> simp

@[simp] theorem fadeOutEnd_put (z : Zone) : fadeOutEnd z (ho.put s) = ho.put (fadeOutEnd z s) := by
  simp [fadeOutEnd]

@[simp] theorem dropFade_put (z : Zone) : dropFade z (ho.put s) = ho.put (dropFade z s) := rfl

@[simp] theorem zoneLoss_put (z : Zone) : zoneLoss z (ho.put s) = ho.put (zoneLoss z s) := by
  cases h : (s.zones.get z).state <;> simp [zoneLoss, h]

@[simp] theorem zoneReturn_put (z : Zone) : zoneReturn z (ho.put s) = ho.put (zoneReturn z s) := by
  simp [zoneReturn]

@[simp] theorem zoneCarrying_put (z : Zone) (src : Source) (on : Bool) :
    zoneCarrying z src on (ho.put s) = ho.put (zoneCarrying z src on s) := by
  simp [zoneCarrying]

/-- A carrying event's view, cause and mark, before the zones act on it. -/
def eventMarked (src : Source) (on : Bool) (s : State) : State :=
  markDirty (.source src) (raise .source { s with view := s.view.set src on })

@[simp] theorem eventMarked_put (src : Source) (on : Bool) :
    eventMarked src on (ho.put s) = ho.put (eventMarked src on s) := by
  unfold eventMarked
  rw [← markDirty_put, ← raise_put]
  rfl

theorem carryingEvent_eventMarked (src : Source) (on : Bool) : carryingEvent src on s =
    if s.audioRuns then zoneCarrying .z2 src on (zoneCarrying .z1 src on (eventMarked src on s))
    else eventMarked src on s := rfl

@[simp] theorem carryingEvent_put (src : Source) (on : Bool) :
    carryingEvent src on (ho.put s) = ho.put (carryingEvent src on s) := by
  simp [carryingEvent_eventMarked]

/-! ### Streams -/

@[simp] theorem enterStreamState_put (m : StreamId) (next : StreamState) :
    enterStreamState m next (ho.put s) = ho.put (enterStreamState m next s) := by
  simp [enterStreamState]

@[simp] theorem levelTests_put (m : StreamId) : levelTests m (ho.put s) = ho.put (levelTests m s) := by
  simp only [levelTests, put_fields]
  split <;> simp

@[simp] theorem fetchDone_put (m : StreamId) (frames : Nat) (words : List Word) :
    fetchDone m frames words (ho.put s) = ho.put (fetchDone m frames words s) := by
  simp [fetchDone]

/-! ### The tuner -/

@[simp] theorem updTun_put (f : Tuner → Tuner) : updTun f (ho.put s) = ho.put (updTun f s) := rfl

@[simp] theorem normWeak_put : normWeak (ho.put s) = ho.put (normWeak s) := by
  unfold normWeak
  rw [← ite_put]
  rfl

@[simp] theorem longOutcome_put (o : LongOutcome) : longOutcome o (ho.put s) = ho.put (longOutcome o s) := by
  simp [longOutcome]

@[simp] theorem updSd_put (f : Station → Station) : updSd f (ho.put s) = ho.put (updSd f s) := rfl

@[simp] theorem updFe_put (f : FrontEnd → FrontEnd) : updFe f (ho.put s) = ho.put (updFe f s) := rfl

@[simp] theorem updMeas_put (f : Meas → Meas) : updMeas f (ho.put s) = ho.put (updMeas f s) := rfl

@[simp] theorem abandonRssi_put : abandonRssi (ho.put s) = ho.put (abandonRssi s) := rfl

@[simp] theorem abandonTuning_put : abandonTuning (ho.put s) = ho.put (abandonTuning s) := rfl

@[simp] theorem discardRecall_put : discardRecall (ho.put s) = ho.put (discardRecall s) := by
  cases h : s.tun.transfer with
  | none | storing n k w => simp [discardRecall, h]
  | recalling n got =>
    calc discardRecall (ho.put s)
        = ho.put (updTun (fun t => { t with transfer := .none }) s) := by
          simp only [discardRecall, put_fields, h]
          obtain ⟨host, last, held⟩ := ho; cases host <;> rfl
      _ = ho.put (discardRecall s) := by
          simp only [discardRecall, h]
          split
          · split <;> rfl
          · rfl

@[simp] theorem abandonOperation_put : abandonOperation (ho.put s) = ho.put (abandonOperation s) := by
  simp [abandonOperation]

@[simp] theorem leaveListening_put : leaveListening (ho.put s) = ho.put (leaveListening s) := rfl

@[simp] theorem tunerGoto_put (next : TunerState) : tunerGoto next (ho.put s) = ho.put (tunerGoto next s) := by
  simp [tunerGoto]

@[simp] theorem sendTune_put (band : Band) (code : Nat) (purpose : TunePurpose) :
    sendTune band code purpose (ho.put s) = ho.put (sendTune band code purpose s) := rfl

@[simp] theorem plainTune_put (band : Band) (code : Nat) (reason : TuneReason) :
    plainTune band code reason (ho.put s) = ho.put (plainTune band code reason s) := by
  simp [plainTune]

@[simp] theorem requestWriteBack_put (sl : Slot) :
    requestWriteBack sl (ho.put s) = ho.put (requestWriteBack sl s) := by
  unfold requestWriteBack
  rw [← ite_put]
  rfl

@[simp] theorem changeCode_put (code : Nat) : changeCode code (ho.put s) = ho.put (changeCode code s) := by
  simp [changeCode]

@[simp] theorem ownCode_put (code : Nat) : ownCode code (ho.put s) = ho.put (ownCode code s) := by
  simp [ownCode]

@[simp] theorem ownBand_put (band : Band) : ownBand band (ho.put s) = ho.put (ownBand band s) := by
  simp [ownBand]

@[simp] theorem ownTarget_put (band : Band) (code : Nat) :
    ownTarget band code (ho.put s) = ho.put (ownTarget band code s) := by
  simp [ownTarget]

theorem changedRecords_put (y : State) : changedRecords (ho.put s) (ho.put y) = changedRecords s y := by
  simp [changedRecords]

theorem publish_put (y : State) : publish (ho.put s) (ho.put y) = ho.put (publish s y) := by
  simp [publish, changedRecords_put]

@[simp] theorem recallClear_put : recallClear (ho.put s) = ho.put (recallClear s) := by
  simp [recallClear, publish_put]

@[simp] theorem recallValid_put (band : Band) (words : List Word) :
    recallValid band words (ho.put s) = ho.put (recallValid band words s) := by
  simp [recallValid]

@[simp] theorem judgeRecall_put (words : List Word) :
    judgeRecall words (ho.put s) = ho.put (judgeRecall words s) := by
  simp only [judgeRecall, put_fields]
  split <;> simp

@[simp] theorem recallDone_put (words : List Word) :
    recallDone words (ho.put s) = ho.put (recallDone words s) := by
  cases h : s.tun.transfer <;> simp [recallDone, h]

@[simp] theorem recompute_put : recompute (ho.put s) = ho.put (recompute s) :=
  examineZones_put ho
    { s with pool := { s.pool with staged := computeSet s.pool.presence s.pool.dist s.pool.lipsync } }

@[simp] theorem limitReached_put (z : Zone) : limitReached z (ho.put s) = ho.put (limitReached z s) := by
  simp [limitReached]

@[simp] theorem checkLimit_put (z : Zone) : checkLimit z (ho.put s) = ho.put (checkLimit z s) := by
  simp [checkLimit]

@[simp] theorem resumeCarrying_put (z : Zone) : resumeCarrying z (ho.put s) = ho.put (resumeCarrying z s) := by
  simp only [resumeCarrying, put_fields]
  split <;> simp

@[simp] theorem startFadeOut_put (z : Zone) (src : Option Source) :
    startFadeOut z src (ho.put s) = ho.put (startFadeOut z src s) := by
  simp [startFadeOut]

@[simp] theorem sourceAct_put (z : Zone) (src : Option Source) :
    sourceAct z src (ho.put s) = ho.put (sourceAct z src s) := by
  simp only [sourceAct, put_fields]
  split <;> simp

@[simp] theorem resumeSource_put (z : Zone) : resumeSource z (ho.put s) = ho.put (resumeSource z s) := by
  simp only [resumeSource, put_fields]
  split <;> simp

@[simp] theorem resumeHeld_put (z : Zone) : resumeHeld z (ho.put s) = ho.put (resumeHeld z s) := by
  cases h : (s.zones.get z).state <;> simp [resumeHeld, h]

@[simp] theorem resumeZone_put (z : Zone) : resumeZone z (ho.put s) = ho.put (resumeZone z s) := by
  simp [resumeZone]

/-! ### Audio that resumes -/

@[simp] theorem updLine_put (l : SaLine) (f : SaState → SaState) :
    updLine l f (ho.put s) = ho.put (updLine l f s) := rfl

@[simp] theorem lineCarryingFrom_put (l : SaLine) (was : Bool) :
    lineCarryingFrom l was (ho.put s) = ho.put (lineCarryingFrom l was s) := by
  simp [lineCarryingFrom]

@[simp] theorem lineStepWith_put (l : SaLine) (f : SaState → SaState) :
    lineStepWith l f (ho.put s) = ho.put (lineStepWith l f s) := by
  simp [lineStepWith]

@[simp] theorem resumeLine_put (l : SaLine) : resumeLine l (ho.put s) = ho.put (resumeLine l s) := by
  simp [resumeLine]

@[simp] theorem resumeLines_put : resumeLines (ho.put s) = ho.put (resumeLines s) := by
  simp [resumeLines]

/-- The clock counts as good and the audio blocks as started. -/
def audioClocked (s : State) : State := { s with clock := .good, audioStarted := true }

theorem audioClocked_put : audioClocked (ho.put s) = ho.put (audioClocked s) := rfl

theorem resumeOthers_put : resumeOthers (ho.put s) = ho.put (resumeOthers s) := rfl

theorem resumeAudio_blocks : resumeAudio s =
    recompute (resumeOthers (resumeZone .z2 (resumeZone .z1 (audioClocked (resumeLines s))))) := resumeAudio_eq s

@[simp] theorem resumeAudio_put : resumeAudio (ho.put s) = ho.put (resumeAudio s) := by
  simp [resumeAudio_blocks, audioClocked_put, resumeOthers_put]

/-- A restore pass gone from the list, with its cause and the meter timer (R17, R23). -/
def passOff (s : State) : State :=
  raise .restoreDone { updAgent (fun g => { g with restore := none }) s with meterTimer := true }

theorem passOff_put : passOff (ho.put s) = ho.put (passOff s) :=
  raise_put ho { updAgent (fun g => { g with restore := none }) s with meterTimer := true } _

theorem passEnd_passOff (p : RestorePass) : passEnd p s =
    if (p.kind == .full) && ((passOff s).clock == .good) then resumeAudio (passOff s) else passOff s := rfl

@[simp] theorem passEnd_put (p : RestorePass) : passEnd p (ho.put s) = ho.put (passEnd p s) := by
  simp [passEnd_passOff, passOff_put]

theorem burstResult_put (b : Burst) : burstResult b (ho.put s) = ho.put (burstResult b s) := by
  cases hb : b.owner with
  | restore => cases hr : s.agent.restore <;> simp [burstResult, hb, hr]
  | _ => simp [burstResult, hb]

end

end Sys2Proof.Machine

end

/-! Every arrival at its owner does the same whoever holds the port (R8, R12). -/

section

set_option autoImplicit false

namespace Sys2Proof.Machine

section

variable (ho : HandOver) (s : State)

/-! ### Gains, modules and the setup lock -/

@[simp] theorem updZoneGain_put (z : Zone) (f : ZoneGain → ZoneGain) :
    updZoneGain z f (ho.put s) = ho.put (updZoneGain z f s) := rfl

@[simp] theorem volumeArrival_put (z : Zone) (v : Int) :
    volumeArrival z v (ho.put s) = ho.put (volumeArrival z v s) := by
  simp [volumeArrival]

@[simp] theorem muteArrival_put (z : Zone) (on : Bool) :
    muteArrival z on (ho.put s) = ho.put (muteArrival z on s) := rfl

@[simp] theorem maxVolumeArrival_put (z : Zone) (m : Int) :
    maxVolumeArrival z m (ho.put s) = ho.put (maxVolumeArrival z m s) := by
  simp [maxVolumeArrival]

@[simp] theorem startModule_put (m : AmpModule) : startModule m (ho.put s) = ho.put (startModule m s) := by
  unfold startModule
  rw [← ite_put]
  rfl

@[simp] theorem moduleEnArrival_put (m : AmpModule) (on : Bool) :
    moduleEnArrival m on (ho.put s) = ho.put (moduleEnArrival m on s) := by
  cases on <;> cases h : (s.mods.get m).state <;> simp [moduleEnArrival, h]

@[simp] theorem setupLockArrival_put (v : Word) :
    setupLockArrival v (ho.put s) = ho.put (setupLockArrival v s) := by
  unfold setupLockArrival
  rw [← ite_put, ← requestWriteBack_put]
  rfl

/-! ### The delay pool, the zones and the speakers -/

@[simp] theorem recomputeIfRunning_put : recomputeIfRunning (ho.put s) = ho.put (recomputeIfRunning s) := by
  simp [recomputeIfRunning]

@[simp] theorem distArrival_put (ch : MainChan) (v : Nat) :
    distArrival ch v (ho.put s) = ho.put (distArrival ch v s) :=
  recomputeIfRunning_put ho { s with pool := { s.pool with dist := s.pool.dist.set ch v } }

@[simp] theorem lipsyncArrival_put (z : Zone) (v : Nat) :
    lipsyncArrival z v (ho.put s) = ho.put (lipsyncArrival z v s) :=
  recomputeIfRunning_put ho { s with pool := { s.pool with lipsync := s.pool.lipsync.set z v } }

@[simp] theorem sourceArrival_put (z : Zone) (src : Option Source) :
    sourceArrival z src (ho.put s) = ho.put (sourceArrival z src s) := by
  simp [sourceArrival]

@[simp] theorem fadeRateArrival_put (z : Zone) (v : Nat) :
    fadeRateArrival z v (ho.put s) = ho.put (fadeRateArrival z v s) := rfl

@[simp] theorem waitLimitArrival_put (z : Zone) (v : Nat) :
    waitLimitArrival z v (ho.put s) = ho.put (waitLimitArrival z v s) := by
  simp [waitLimitArrival]

theorem requestChange_put (k : ChangeKind) (now : State → State)
    (hnow : now (ho.put s) = ho.put (now s)) :
    requestChange k now (ho.put s) = ho.put (requestChange k now s) := by
  simp [requestChange, hnow]

@[simp] theorem decodeModeArrival_put (m : DecodeMode) :
    decodeModeArrival m (ho.put s) = ho.put (decodeModeArrival m s) := by
  unfold decodeModeArrival
  rw [apply_ite ho.put,
    ← requestChange_put ho _ _ _ (decodeApply_put ho _)]
  rfl

@[simp] theorem steerSpeedArrival_put (v : SteerSpeed) :
    steerSpeedArrival v (ho.put s) = ho.put (steerSpeedArrival v s) := rfl

@[simp] theorem presenceArrival_put : presenceArrival (ho.put s) = ho.put (presenceArrival s) := by
  unfold presenceArrival
  rw [← ite_put, ← recompute_put]
  rfl

/-- A speaker configuration staged. -/
def speakersStaged (c : SpeakerConfig) (s : State) : State := { s with bass := { s.bass with staged := c } }

theorem speakersStaged_put (c : SpeakerConfig) : speakersStaged c (ho.put s) = ho.put (speakersStaged c s) := rfl

/-- The write-backs of the slots that a speaker word forces (R80, R81). -/
def forcedAsked (p : SpeakerSlot) (c : SpeakerConfig) (s : State) : State :=
  let front := if c.needsFrontFix p then requestWriteBack (.speaker .frontSize) s else s
  if c.needsBackFix p then requestWriteBack (.speaker .back) front else front

@[simp] theorem forcedAsked_put (p : SpeakerSlot) (c : SpeakerConfig) :
    forcedAsked p c (ho.put s) = ho.put (forcedAsked p c s) := by
  simp [forcedAsked]

theorem speakerArrival_forced (p : SpeakerSlot) (v : Word) :
    let old := s.bass.staged
    let asked := forcedAsked p (old.put p v) (speakersStaged (old.take p v) s)
    let applied := requestChange .speakers speakersApply asked
    speakerArrival p v s =
      if old.take p v = old then asked
      else if (old.take p v).presence = old.presence then applied else presenceArrival applied := rfl

@[simp] theorem speakerArrival_put (p : SpeakerSlot) (v : Word) :
    speakerArrival p v (ho.put s) = ho.put (speakerArrival p v s) := by
  rw [speakerArrival_forced s, speakerArrival_forced (ho.put s)]
  simp only [put_fields, speakersStaged_put, forcedAsked_put,
    requestChange_put ho _ .speakers speakersApply (speakersApply_put ho _), presenceArrival_put, ite_put]

@[simp] theorem formatArrival_put (l : SaLine) (f : Format) :
    formatArrival l f (ho.put s) = ho.put (formatArrival l f s) := by
  simp [formatArrival]

/-! ### Streams and the measurement unit -/

@[simp] theorem answerStream_put (m : StreamId) (a : Answer) :
    answerStream m a (ho.put s) = ho.put (answerStream m a s) :=
  requestWriteBack_put ho { s with answers := { s.answers with stream := s.answers.stream.set m a } } _

@[simp] theorem streamStartTaken_put (m : StreamId) :
    streamStartTaken m (ho.put s) = ho.put (streamStartTaken m s) := by
  simp [streamStartTaken]

@[simp] theorem streamStartCommand_put (m : StreamId) :
    streamStartCommand m (ho.put s) = ho.put (streamStartCommand m s) := by
  have valid : ∀ r, descriptorValid (ho.put s) r = descriptorValid s r := fun _ => rfl
  simp [streamStartCommand, valid]

@[simp] theorem discardFetch_put (m : StreamId) : discardFetch m (ho.put s) = ho.put (discardFetch m s) := by
  calc discardFetch m (ho.put s)
      = ho.put s := by obtain ⟨host, last, held⟩ := ho; cases host <;> rfl
    _ = ho.put (discardFetch m s) := by
      unfold discardFetch
      split
      · split <;> rfl
      · rfl

@[simp] theorem streamStopTaken_put (m : StreamId) :
    streamStopTaken m (ho.put s) = ho.put (streamStopTaken m s) := by
  simp [streamStopTaken]

@[simp] theorem streamStopCommand_put (m : StreamId) :
    streamStopCommand m (ho.put s) = ho.put (streamStopCommand m s) := by
  simp [streamStopCommand]

@[simp] theorem streamCommand_put (m : StreamId) (v : Word) :
    streamCommand m v (ho.put s) = ho.put (streamCommand m v s) := by
  unfold streamCommand
  rw [put_audioRuns]
  simp only [streamStartCommand_put, streamStopCommand_put, answerStream_put, ite_put]

@[simp] theorem fillArrival_put (m : StreamId) (v : Nat) :
    fillArrival m v (ho.put s) = ho.put (fillArrival m v s) := rfl

@[simp] theorem seqLenArrival_put (v : Nat) : seqLenArrival v (ho.put s) = ho.put (seqLenArrival v s) := by
  simp [seqLenArrival]

@[simp] theorem entryArrival_put (n : Fin 16) (w : Fin 4) (v : Word) :
    entryArrival n w v (ho.put s) = ho.put (entryArrival n w v s) := rfl

@[simp] theorem answerMeasure_put (a : Answer) :
    answerMeasure a (ho.put s) = ho.put (answerMeasure a s) :=
  requestWriteBack_put ho { s with answers := { s.answers with measure := a } } _

@[simp] theorem measureTaken_put (input : Nat) (divider : Nat) :
    measureTaken input divider (ho.put s) = ho.put (measureTaken input divider s) := rfl

@[simp] theorem measureCommand_put (v : Word) : measureCommand v (ho.put s) = ho.put (measureCommand v s) := by
  simp [measureCommand]

/-! ### The tuner -/

@[simp] theorem lowerCode_put : lowerCode (ho.put s) = ho.put (lowerCode s) := by
  simp [lowerCode]

@[simp] theorem bandArrival_put (b : Band) : bandArrival b (ho.put s) = ho.put (bandArrival b s) := by
  simp [bandArrival]

@[simp] theorem regionArrival_put (r : Region) : regionArrival r (ho.put s) = ho.put (regionArrival r s) := by
  simp [regionArrival]

@[simp] theorem answerTuner_put (a : Answer) :
    answerTuner a (ho.put s) = ho.put (answerTuner a s) :=
  requestWriteBack_put ho { s with answers := { s.answers with tuner := a } } _

@[simp] theorem tuneCommand_put : tuneCommand (ho.put s) = ho.put (tuneCommand s) := by
  simp [tuneCommand]

@[simp] theorem seekNext_put : seekNext (ho.put s) = ho.put (seekNext s) := by
  simp [seekNext]

@[simp] theorem seekCommand_put (up : Bool) : seekCommand up (ho.put s) = ho.put (seekCommand up s) := by
  simp [seekCommand]

@[simp] theorem probeNoSwitch_put : probeNoSwitch (ho.put s) = ho.put (probeNoSwitch s) := by
  simp [probeNoSwitch]

@[simp] theorem stopSeek_put : stopSeek (ho.put s) = ho.put (stopSeek s) := by
  simp only [stopSeek, put_fields]
  split <;> simp

@[simp] theorem stopCommand_put : stopCommand (ho.put s) = ho.put (stopCommand s) := by
  simp only [stopCommand, put_fields]
  split <;> simp

@[simp] theorem offCommand_put : offCommand (ho.put s) = ho.put (offCommand s) := by
  simp [offCommand]

@[simp] theorem recallCommand_put (n : Nat) : recallCommand n (ho.put s) = ho.put (recallCommand n s) := by
  simp [recallCommand]

@[simp] theorem storeCommand_put (n : Nat) : storeCommand n (ho.put s) = ho.put (storeCommand n s) := rfl

@[simp] theorem tunerAct_put (c : TunerCommand) : tunerAct c (ho.put s) = ho.put (tunerAct c s) := by
  cases c <;> simp [tunerAct]

@[simp] theorem tunerCommand_put (v : Word) : tunerCommand v (ho.put s) = ho.put (tunerCommand v s) := by
  have answer : ∀ c, tunerAnswer (ho.put s) c = tunerAnswer s c := fun _ => rfl
  cases h : tunerCommandOf v <;> simp [tunerCommand, h, answer]

/-! ### The system and the modules -/

@[simp] theorem answerSystem_put (a : Answer) :
    answerSystem a (ho.put s) = ho.put (answerSystem a s) :=
  requestWriteBack_put ho { s with answers := { s.answers with system := a } } _

@[simp] theorem selfCheckStop_put (m : AmpModule) :
    selfCheckStop m (ho.put s) = ho.put (selfCheckStop m s) := by
  simp [selfCheckStop]

@[simp] theorem selfCheckStops_put : selfCheckStops (ho.put s) = ho.put (selfCheckStops s) := by
  simp [selfCheckStops]

@[simp] theorem startRecheck_put : startRecheck (ho.put s) = ho.put (startRecheck s) := by
  simp [startRecheck]

@[simp] theorem selfRecheckCommand_put : selfRecheckCommand (ho.put s) = ho.put (selfRecheckCommand s) := by
  simp [selfRecheckCommand]

@[simp] theorem restartAudioBlocks_put : restartAudioBlocks (ho.put s) = ho.put (restartAudioBlocks s) := rfl

@[simp] theorem restartAudioCommand_put : restartAudioCommand (ho.put s) = ho.put (restartAudioCommand s) := by
  have streams : ∀ y, changedStreams (ho.put s) (ho.put y) = changedStreams s y := fun _ => rfl
  simp only [restartAudioCommand, discardFetch_put, restartAudioBlocks_put, streams, markAll_put,
    windDownReports_put]
  rw [← answerSystem_put]
  rfl

@[simp] theorem systemCommand_put (v : Word) : systemCommand v (ho.put s) = ho.put (systemCommand v s) := by
  simp [systemCommand]

@[simp] theorem answerModule_put (a : Answer) :
    answerModule a (ho.put s) = ho.put (answerModule a s) :=
  requestWriteBack_put ho { s with answers := { s.answers with module := a } } _

@[simp] theorem clearTripTaken_put (m : AmpModule) :
    clearTripTaken m (ho.put s) = ho.put (clearTripTaken m s) := by
  simp [clearTripTaken]

@[simp] theorem clearTripCommand_put (m : AmpModule) :
    clearTripCommand m (ho.put s) = ho.put (clearTripCommand m s) := by
  have stands : tripEntryStands (ho.put s) m = tripEntryStands s m := rfl
  simp [clearTripCommand, stands]

@[simp] theorem moduleCommand_put (v : Word) : moduleCommand v (ho.put s) = ho.put (moduleCommand v s) := by
  simp [moduleCommand]

@[simp] theorem attnAckArrival_put (v : Word) :
    attnAckArrival v (ho.put s) = ho.put (attnAckArrival v s) :=
  requestWriteBack_put ho { s with att := { s.att with pending := s.att.pending &&& ~~~v } } _

/-! ### A write carried -/

@[simp] theorem updGain_put (f : Gain → Gain) : updGain f (ho.put s) = ho.put (updGain f s) := rfl

@[simp] theorem updKnob_put (f : Knob → Knob) : updKnob f (ho.put s) = ho.put (updKnob f s) := rfl

@[simp] theorem blockWrite_put (off : Nat) (r : BlockReason) :
    blockWrite off r (ho.put s) = ho.put (blockWrite off r s) :=
  raise_put ho (markDirty .attention { s with att := { s.att with blockOffset := numWord off, blockReason := r } }) _

@[simp] theorem relock_put : relock (ho.put s) = ho.put (relock s) := by
  unfold relock
  rw [← ite_put, ← requestWriteBack_put]
  rfl

@[simp] theorem reportWrite_put (off : Nat) : reportWrite off (ho.put s) = ho.put (reportWrite off s) := by
  simp [reportWrite]

@[simp] theorem rawCarry_put (a : HostAccess) : rawCarry a (ho.put s) = ho.put (rawCarry a s) := by
  unfold rawCarry
  simp only [apply_ite ho.put]
  rfl

@[simp] theorem arrive_put (sl : Slot) (v : Word) : arrive sl v (ho.put s) = ho.put (arrive sl v s) := by
  cases sl with
  | attnEnable => rfl
  | _ => simp [arrive]

end

end Sys2Proof.Machine

end

/-! A host access at a free port goes at once (R1, R2, R12), and the port's holder plays no part in what it does. -/

section

set_option autoImplicit false

namespace Sys2Proof.Machine

/-! ### What an access does, whoever holds the port -/

section

variable (ho : HandOver) (s : State)

@[simp] theorem applyVerdict_put (a : HostAccess) (off : Nat) (v : Verdict) :
    applyVerdict a off v (ho.put s) = ho.put (applyVerdict a off v s) := by
  cases v with
  | through => exact rawCarry_put ho s a
  | arrives sl w => exact arrive_put ho { s with mem := s.mem.writeWord (accessAddr a) w } sl w
  | blocked r => exact blockWrite_put ho s off r

@[simp] theorem judge_put (off : Nat) (lanes : Lanes) (v : Word) :
    judge (ho.put s) off lanes v = judge s off lanes v := by
  unfold judge
  cases slotAt off <;> rfl

theorem put_strap : (ho.put s).strap = s.strap := rfl

@[simp] theorem accessOffset_put (a : HostAccess) : accessOffset (ho.put s) a = accessOffset s a := by
  have hbase : (ho.put s).apertureBase = s.apertureBase := by
    have hput := apertureBase_add (ho.put s)
    rw [put_strap, ← apertureBase_add s] at hput
    exact Nat.add_right_cancel hput
  unfold accessOffset
  rw [hbase]

theorem hostCarry_put (a : HostAccess) : hostCarry a (ho.put s) = ho.put (hostCarry a s) := by
  unfold hostCarry
  simp only [accessOffset_put, put_fields]
  cases accessOffset s a with
  | none => simp only [rawCarry_put, ite_put]
  | some off => simp only [judge_put, reportWrite_put, applyVerdict_put, rawCarry_put, ite_put]

/-- No record shows the port. -/
theorem publish_put_left (y : State) : publish (ho.put s) y = publish s y :=
  publish_congr (put_recWords ho s)

theorem publish_put_right (y : State) : publish s (ho.put y) = ho.put (publish s y) := by
  rw [← publish_put_left ho s, publish_put]

end

/-- An access goes by its word address, its kind, its lanes and its word. -/
theorem hostCarry_congr {a b : HostAccess} (s : State) (haddr : accessAddr a = accessAddr b)
    (hwrite : a.isWrite = b.isWrite) (hlanes : a.lanes = b.lanes) (hdata : a.data = b.data) :
    hostCarry a s = hostCarry b s := by
  have hraw : ∀ t, rawCarry a t = rawCarry b t := fun t => by simp only [rawCarry, haddr, hwrite, hlanes, hdata]
  have hoff : accessOffset s a = accessOffset s b := by simp only [accessOffset, haddr]
  have hverdict : ∀ off v t, applyVerdict a off v t = applyVerdict b off v t := fun off v t => by
    cases v <;> simp only [applyVerdict, hraw, haddr]
  simp only [hostCarry, hraw, hoff, hwrite, hlanes, hdata, hverdict]

/-! ### An access that goes at once (R12) -/

theorem offerAccess_goes (a : HostAccess) (whole : Bool) (s : State) (hfree : s.agent.port = .free)
    (hheld : s.agent.held = none)
    (hgo : s.rstnLow = true ∨ restoreHolds s a = false ∧ partsTurn s = false) :
    offerAccess a whole s = takePort a whole s := by
  have hbusy : hostBusy s = false := by simp [hostBusy, hfree, hheld]
  unfold offerAccess
  rw [hbusy, hfree]
  rcases hgo with hlow | ⟨hrest, hturn⟩
  · simp [hlow]
  · simp [hrest, hturn]

/-- At a free port with nothing held the port stands as it was handed over. -/
theorem put_free {s : State} (hfree : s.agent.port = .free) (hheld : s.agent.held = none) :
    (⟨false, s.agent.lastPart, none⟩ : HandOver).put s = s := by
  have hagent : ({ s.agent with port := .free, lastPart := s.agent.lastPart, held := none } : Agent) = s.agent := by
    rw [← hfree, ← hheld]
  exact congrArg (fun g => ({ s with agent := g } : State)) hagent

/-- A single access leaves the port in the host's hands. -/
theorem takePort_single (a : HostAccess) (s : State) (hheld : s.agent.held = none) :
    takePort a false s = (⟨true, s.agent.lastPart, none⟩ : HandOver).put (hostCarry a s) := by
  rw [← hostCarry_put, takePort, if_neg Bool.false_ne_true]
  have hagent : ({ s.agent with port := .host } : Agent)
      = { s.agent with port := .host, lastPart := s.agent.lastPart, held := none } := by rw [← hheld]
  exact congrArg (fun g => hostCarry a { s with agent := g }) hagent

/-- A whole access leaves the port free, the host having held it last. -/
theorem takePort_whole (a : HostAccess) (s : State) (hfree : s.agent.port = .free) (hheld : s.agent.held = none) :
    takePort a true s = (⟨false, false, none⟩ : HandOver).put (hostCarry a s) := by
  have hcarried : (hostCarry a s).agent.held = none := by
    rw [← put_free hfree hheld, hostCarry_put]
    rfl
  rw [takePort, if_pos rfl]
  have hagent : ({ (hostCarry a s).agent with port := .free, lastPart := false } : Agent)
      = { (hostCarry a s).agent with port := .free, lastPart := false, held := none } := by rw [← hcarried]
  exact congrArg (fun g => ({ hostCarry a s with agent := g } : State)) hagent

/-- An access that nothing filters changes no record (R1). -/
theorem hostAccessBegin_carried (a : HostAccess) (s : State) (hfree : s.agent.port = .free)
    (hheld : s.agent.held = none) (hgo : s.rstnLow = true ∨ restoreHolds s a = false ∧ partsTurn s = false)
    (hraw : hostCarry a (setPort .host s) = rawCarry a (setPort .host s)) :
    exec (.hostAccessBegin a) s = .next (rawCarry a (setPort .host s)) := by
  have hcarry : beginAccess a s = rawCarry a (setPort .host s) := by
    rw [beginAccess, offerAccess_goes a false s hfree hheld hgo, takePort, if_neg Bool.false_ne_true, hraw]
  have hexec : exec (.hostAccessBegin a) s = access (beginAccess a) s := rfl
  have hquiet : publish s (rawCarry a (setPort .host s)) = rawCarry a (setPort .host s) :=
    publish_same _ _ (by simp) (by simp) (by simp) (by simp) (by simp) (by simp) (by simp) (by simp) (by simp)
      (by simp) (by simp) (by simp) (by simp) (by simp)
  rw [hexec, access, hcarry, hquiet, ite_self]

theorem rawCarry_hostReads (a : HostAccess) (s : State) (h : a.isWrite = false)
    (hf : accessAddr a < fittedBytes s.strap) : HostReads a s (rawCarry a (setPort .host s)) := by
  obtain ⟨hrest, hlow, hhigh⟩ := rawCarry_read_lanes a (setPort .host s) h hf
  exact ⟨hrest, hlow, hhigh, fun hl => by rw [rawCarry_read_eq a (setPort .host s) h hl hf]; exact ⟨rfl, rfl⟩⟩

theorem rawCarry_hostWrites (a : HostAccess) (s : State) (hm : MemoryCanonical s) (h : a.isWrite = true)
    (hf : accessAddr a < fittedBytes s.strap) :
    let t := rawCarry a (setPort .host s)
    t = { s with mem := t.mem, agent := { s.agent with port := .host } }
      ∧ ∀ x, t.mem.read x =
          if a.lanes.lo = true ∧ x = accessAddr a then a.data.extractLsb' 0 8
          else if a.lanes.hi = true ∧ x = accessAddr a + 1 then a.data.extractLsb' 8 8
          else s.mem.read x := by
  rw [rawCarry_write_eq a (setPort .host s) h hf]
  exact ⟨rfl, fun x => Memory.read_writeLanes _ _ _ _ _ hm⟩

/-! ### The aperture (R2) -/

theorem apertureBase_straps (s : State) : (s.strap, s.apertureBase) ∈
    [((false, false), 0xFF0000), ((false, true), 0x7F0000), ((true, false), 0x3F0000), ((true, true), 0x1F0000)] := by
  obtain ⟨a, b, hs⟩ : ∃ a b, s.strap = (a, b) := ⟨_, _, rfl⟩
  have hbase := apertureBase_add s
  rw [hs] at hbase ⊢
  have hbytes : fittedBytes (a, b) - 65536 = s.apertureBase := by omega
  rw [← hbytes]
  cases a <;> cases b <;> decide

theorem accessOffset_iff (a : HostAccess) (s : State) (off : Nat) :
    accessOffset s a = some off ↔ off ≤ 0xFFFF ∧ accessAddr a = s.apertureBase + off := by
  unfold accessOffset
  simp only
  split <;> simp <;> omega

/-! ### A write to the control region or the report area (R5 to R8) -/

/-- A single write in the aperture does what the write row of its offset does, with the port left in the host's
hands. -/
theorem hostAccessBegin_row (a : HostAccess) (off : BitVec 16) (s : State) (h : PortOpen s) (hw : a.isWrite = true)
    (hoff : accessOffset s a = some off.toNat) :
    ∃ t, exec (.slotWrite off a.lanes a.data) s = .next t
      ∧ exec (.hostAccessBegin a) s =
        .next { t with agent := { t.agent with port := .host, lastPart := s.agent.lastPart } } := by
  obtain ⟨hhigh, hfree, hheld, hrest, hturn⟩ := h
  obtain ⟨-, haddr⟩ := (accessOffset_iff a s _).1 hoff
  set row := slotAccess s off.toNat a.lanes a.data with hrow
  have heven : off.toNat % 2 = 0 := by
    have := apertureBase_add s
    have hword : accessAddr a = a.addr.toNat / 2 * 2 := rfl
    rcases fittedBytes_cases s.strap with e | e | e | e <;> omega
  have hsame : accessAddr row = accessAddr a := by
    rw [hrow, accessAddr_slotAccess s off.toNat _ _ off.isLt heven, haddr]
  have hgo : ∀ b, restoreHolds s b = false ∧ partsTurn s = false := fun b =>
    ⟨by simp [restoreHolds, hrest], hturn⟩
  have hbegin : beginAccess a s = (⟨true, s.agent.lastPart, none⟩ : HandOver).put (hostCarry a s) := by
    rw [beginAccess, offerAccess_goes a false s hfree hheld (.inr (hgo a)), takePort_single a s hheld]
  have hwhole : hostWrite off.toNat a.lanes a.data s = (⟨false, false, none⟩ : HandOver).put (hostCarry a s) := by
    rw [hostWrite, offerAccess_goes row true s hfree hheld (.inr (hgo row)), takePort_whole row s hfree hheld,
      hostCarry_congr s hsame (by rw [hw]; exact slotAccess_isWrite _ _ _ _) (slotAccess_lanes _ _ _ _)
        (slotAccess_data _ _ _ _)]
  refine ⟨(⟨false, false, none⟩ : HandOver).put (publish s (hostCarry a s)), ?_, ?_⟩
  · have hexec : exec (.slotWrite off a.lanes a.data) s = access (hostWrite off.toNat a.lanes a.data) s := rfl
    rw [hexec, access_high _ _ hhigh, hwhole, publish_put_right]
  · have hexec : exec (.hostAccessBegin a) s = access (beginAccess a) s := rfl
    rw [hexec, access_high _ _ hhigh, hbegin, publish_put_right]
    rfl

/-! ### The obligation -/

/-- With RSTN low a write row is carried unchanged, and the host held the port last (R2). -/
theorem writeRow_low (i : Instr) (sl : Slot) (lanes : Lanes) (v : Word) (s : State)
    (hi : writeRow i = some (sl, lanes, v)) (hm : MemoryCanonical s) (hlow : s.rstnLow = true)
    (hfree : s.agent.port = .free) (hheld : s.agent.held = none) :
    ∃ t, exec i s = .next t
      ∧ t = { s with mem := t.mem, agent := { s.agent with lastPart := false } }
      ∧ ∀ x, t.mem.read x =
          if lanes.lo = true ∧ x = slotAddr s sl then v.extractLsb' 0 8
          else if lanes.hi = true ∧ x = slotAddr s sl + 1 then v.extractLsb' 8 8
          else s.mem.read x := by
  have haddr : accessAddr (slotAccess s sl.offset lanes v) = slotAddr s sl :=
    accessAddr_slotAccess s sl.offset lanes v (by have := offset_lt sl; omega) (offset_even sl)
  have hfits : accessAddr (slotAccess s sl.offset lanes v) < fittedBytes s.strap := by
    rw [haddr, slotAddr, ← apertureBase_add s]
    have := offset_lt sl
    omega
  have hrow : hostWrite sl.offset lanes v s = (⟨false, false, none⟩ : HandOver).put
      { s with mem := s.mem.writeLanes (slotAddr s sl) lanes v } := by
    rw [hostWrite, offerAccess_goes _ true s hfree hheld (.inl hlow), takePort_whole _ s hfree hheld,
      hostCarry_low _ s hlow, rawCarry_write_eq _ s (slotAccess_isWrite _ _ _ _) hfits, haddr,
      slotAccess_lanes, slotAccess_data]
  refine ⟨(⟨false, false, none⟩ : HandOver).put { s with mem := s.mem.writeLanes (slotAddr s sl) lanes v },
    (exec_writeRow i sl lanes v s hi).trans ?_, ?_, ?_⟩
  · rw [slotRow, access, if_pos hlow, hrow]
  · have hagent : ({ s.agent with port := .free, lastPart := false, held := none } : Agent)
        = { s.agent with lastPart := false } := by rw [← hfree, ← hheld]
    exact congrArg (fun g => ({ s with mem := s.mem.writeLanes (slotAddr s sl) lanes v, agent := g } : State)) hagent
  · exact fun x => Memory.read_writeLanes _ _ _ _ _ hm

/-- Settles O6: an access that nothing holds back takes the port, where it is carried unchanged or, as a write in the
aperture, does what the write row of its offset does. -/
theorem hostAccessGoesAtFreePort : Obligations.HostAccessGoesAtFreePort := by
  unfold Obligations.HostAccessGoesAtFreePort
  refine ⟨apertureBase_straps, fun a s off => accessOffset_iff a s off,
    fun a s hm _ hfree hheld hturn hfits hgo => ?_,
    fun a off s hopen hw hoff _ => hostAccessBegin_row a off s hopen hw hoff,
    fun a s hm hlow hfree hheld hfits => ?_, writeRow_low, fun s hhost => ?_⟩
  · have hrest : s.rstnLow = true ∨ restoreHolds s a = false ∧ partsTurn s = false :=
      .inr ⟨restoreHolds_of_mayGo s a hgo, hturn⟩
    refine ⟨fun hread => ⟨_, hostAccessBegin_carried a s hfree hheld hrest (hostCarry_read a _ hread),
        rawCarry_hostReads a s hread hfits⟩,
      fun hwrite hout => ⟨_, hostAccessBegin_carried a s hfree hheld hrest (hostCarry_outside a _ hout),
        rawCarry_hostWrites a s hm hwrite hfits⟩⟩
  · have hbegin := hostAccessBegin_carried a s hfree hheld (.inl hlow) (hostCarry_low a _ hlow)
    exact ⟨fun hread => ⟨_, hbegin, rawCarry_hostReads a s hread hfits⟩,
      fun hwrite => ⟨_, hbegin, rawCarry_hostWrites a s hm hwrite hfits⟩⟩
  · have hexec : exec .hostAccessEnd s = access endAccess s := rfl
    have hend : endAccess s = { s with agent := { s.agent with port := .free, lastPart := false } } := by
      rw [endAccess, hhost]
      rfl
    rw [hexec, access, hend,
      publish_same s { s with agent := { s.agent with port := .free, lastPart := false } }
        rfl rfl rfl rfl rfl rfl rfl rfl rfl rfl rfl rfl rfl rfl, ite_self]

end Sys2Proof.Machine

end

/-! The end of a part burst: its requester takes up the result whoever is held on WAITN, and then a held access goes
as if it began there (R12, R15). -/

section

set_option autoImplicit false

namespace Sys2Proof.Machine

/-! ### The end of a burst and what is held -/

/-- The port as a burst's end leaves it, with an access held or none. -/
def burstOver (held : Option HeldAccess) : HandOver := ⟨false, true, held⟩

/-- A burst's end frees the port and gives the result to its requester, whatever is held. -/
theorem burstDone_eq (b : Burst) (s : State) : burstDone b s = (burstOver s.agent.held).put (burstResult b s) :=
  burstResult_put (burstOver s.agent.held) s b

theorem publish_refl (s : State) : publish s s = s :=
  publish_same s s rfl rfl rfl rfl rfl rfl rfl rfl rfl rfl rfl rfl rfl rfl

/-! ### A held access that goes -/

/-- A held access goes at a free port as its instruction would begin there (R12). -/
theorem heldAccess_begins (h : HeldAccess) (t : State) (hhigh : t.rstnLow = false) (hfree : t.agent.port = .free)
    (hheld : t.agent.held = none) (hturn : partsTurn t = false) (hgo : MayGo t h.access) :
    (h.whole = false → exec (.hostAccessBegin h.access) t = .next (publish t (takePort h.access h.whole t)))
      ∧ (h.whole = true → ∀ (off : BitVec 16) (l : Lanes) (v : Word), h.access = slotAccess t off.toNat l v →
          exec (.slotWrite off l v) t = .next (publish t (takePort h.access h.whole t))) := by
  have htaken := offerAccess_goes h.access h.whole t hfree hheld (.inr ⟨restoreHolds_of_mayGo t _ hgo, hturn⟩)
  refine ⟨fun hwhole => ?_, fun hwhole off l v hrow => ?_⟩
  · have hexec : exec (.hostAccessBegin h.access) t = access (beginAccess h.access) t := rfl
    rw [hexec, access_high _ _ hhigh, beginAccess, ← htaken, hwhole]
  · have hexec : exec (.slotWrite off l v) t = access (hostWrite off.toNat l v) t := rfl
    rw [hexec, access_high _ _ hhigh, hostWrite, ← hrow, ← htaken, hwhole]

/-- A held access that may go leaves WAITN and takes the port (R12). -/
theorem carryHeld_goes (h : HeldAccess) (s : State) (hheld : s.agent.held = some h) (hgo : MayGo s h.access) :
    carryHeld s = takePort h.access h.whole { s with agent := { s.agent with held := none } } := by
  rw [carryHeld, hheld]
  simp only
  rw [if_neg (by simp [restoreHolds_of_mayGo s _ hgo])]
  rfl

theorem carryHeld_stays (h : HeldAccess) (s : State) (hheld : s.agent.held = some h) (hgo : ¬MayGo s h.access) :
    carryHeld s = s := by
  rw [carryHeld, hheld]
  simp only
  rw [if_pos (by rw [← Bool.not_eq_false, restoreHolds_iff]; exact hgo)]

/-! ### A burst that ends with an access held -/

/-- The state that a burst's end gives with nothing held. -/
def burstEnded (b : Burst) (s : State) : State := (burstOver none).put (publish s (burstResult b s))

section Ended

variable (b : Burst) (h : HeldAccess) (s : State) (hhigh : s.rstnLow = false) (hport : s.agent.port = .part b)

include hhigh hport in
theorem partBurstEnd_released :
    exec .partBurstEnd { s with agent := { s.agent with held := none } } = .next (burstEnded b s) := by
  set u : State := { s with agent := { s.agent with held := none } } with hu
  have hdone : burstDone b u = (burstOver none).put (burstResult b s) := by
    have hsame : (burstOver none).put u = (burstOver none).put s := rfl
    rw [burstDone_eq, ← burstResult_put, ← burstResult_put, ← hsame]
  have hnone : (burstDone b u).agent.held = none := by rw [hdone]; rfl
  have hshown : ∀ y, publish u y = publish s y := fun y => publish_congr fun r =>
    recWords_congr u s rfl rfl rfl rfl rfl rfl rfl rfl rfl rfl rfl rfl rfl rfl r
  rw [partBurstEnd_unheld b u hhigh hport hnone, act_high _ u hhigh, hdone, hshown, publish_put_right]
  rfl

theorem burstEnded_mayGo (a : HostAccess) : MayGo ((burstOver (some h)).put (publish s (burstResult b s))) a
    ↔ MayGo (burstEnded b s) a := by
  unfold MayGo
  simp only [accessOffset_put, burstEnded]
  rfl

include hhigh hport in
theorem partBurstEnd_held (hheld : s.agent.held = some h) : exec .partBurstEnd s =
    let m := (burstOver (some h)).put (publish s (burstResult b s))
    .next (publish m (carryHeld m)) := by
  have hexec : exec .partBurstEnd s = execPartBurstEnd s := rfl
  rw [hexec, execPartBurstEnd, hport]
  simp only
  rw [actTwice_high _ _ s hhigh, burstDone_eq, hheld, publish_put_right]

include hhigh hport in
/-- A held access that may go when the burst has ended begins there. -/
theorem partBurstEnd_goes (hheld : s.agent.held = some h) (hgo : MayGo (burstEnded b s) h.access) :
    exec .partBurstEnd s =
      .next (publish (burstEnded b s) (takePort h.access h.whole (burstEnded b s))) := by
  have hm := carryHeld_goes h ((burstOver (some h)).put (publish s (burstResult b s))) rfl
    ((burstEnded_mayGo b h s _).2 hgo)
  rw [partBurstEnd_held b h s hhigh hport hheld]
  simp only
  rw [hm, publish_put_left, burstEnded, publish_put_left]
  rfl

include hhigh hport in
/-- A held access that a restore pass holds back stays held (R21). -/
theorem partBurstEnd_stays (hheld : s.agent.held = some h) (hgo : ¬MayGo (burstEnded b s) h.access) :
    exec .partBurstEnd s =
      .next { burstEnded b s with agent := { (burstEnded b s).agent with held := some h } } := by
  have hm := carryHeld_stays h ((burstOver (some h)).put (publish s (burstResult b s))) rfl
    ((burstEnded_mayGo b h s _).not.2 hgo)
  rw [partBurstEnd_held b h s hhigh hport hheld]
  simp only
  rw [hm, publish_refl]
  rfl

include hhigh in
theorem burstEnded_high : (burstEnded b s).rstnLow = false := by
  simp [burstEnded, hhigh]

theorem burstEnded_turn : partsTurn (burstEnded b s) = false := rfl

end Ended

end Sys2Proof.Machine

end

/-! A content clear in the course of a step, as a valid RECALL makes it: the records that it changes are marked at once,
and stay changed to the end of the step, the AF list apart (R186, R189; log 35). -/

section

set_option autoImplicit false

namespace Sys2Proof.Machine

/-! ### The clear itself -/

def contentCleared (s : State) : State := { s with sd := s.sd.clearContent }

/-- The records that a content clear changes. -/
def clearMarks (s : State) : List Rec := changedRecords s (contentCleared s)

theorem recallClear_eq (s : State) : recallClear s =
    { contentCleared s with att := (recallClear s).att, dirty := (recallClear s).dirty } :=
  publish_eq s (contentCleared s)

theorem mem_clearMarks (s : State) (r : Rec) :
    r ∈ clearMarks s ↔ r.isStream = false ∧ recWords s r ≠ recWords (contentCleared s) r := mem_changedRecords _ _ _

/-- Only the station records show station content. -/
theorem clearMarks_station {s : State} {r : Rec} (h : r ∈ clearMarks s) : r.isStation = true := by
  have hne := ((mem_clearMarks s r).1 h).2
  cases r with
  | zone z => cases z <;> exact absurd rfl hne
  | source x => cases x <;> exact absurd rfl hne
  | summary | name | text1 | text2 | af => rfl
  | _ => exact absurd rfl hne

theorem clearMarks_any (s : State) : (clearMarks s).any Rec.isStation = true ↔ clearMarks s ≠ [] := by
  cases h : clearMarks s with
  | nil => simp
  | cons r rs => simp [clearMarks_station (s := s) (r := r) (by simp [h])]

theorem recallClear_att (s : State) : (recallClear s).att =
    if clearMarks s = [] then s.att else { s.att with pending := s.att.pending ||| 0x0200#16 } := by
  have h := publish_att_eq s (contentCleared s)
  have hany := clearMarks_any s
  unfold clearMarks at hany
  rw [recallClear]
  refine h.trans ?_
  by_cases hno : clearMarks s = []
  · rw [if_neg (by rw [hany]; exact not_not.2 hno), if_pos hno]
    rfl
  · rw [if_pos (hany.2 hno), if_neg hno]
    rfl

theorem recallClear_grows (s : State) : Grows s.att (recallClear s).att := by
  rw [recallClear_att]
  split
  · exact .refl _
  · exact ⟨_, rfl⟩

theorem mem_recallClear (s : State) (r : Rec) : r ∈ (recallClear s).dirty
    ↔ r ∈ clearMarks s ∨ r ∈ (if (clearMarks s).any Rec.isStation = true then raise .station (contentCleared s)
        else contentCleared s).dirty := mem_markAll_dirty _ _ _

theorem recallClear_keeps {s : State} {r : Rec} (h : r ∈ s.dirty) : r ∈ (recallClear s).dirty := by
  rw [mem_recallClear]
  refine .inr ?_
  split
  · exact (mem_raise_dirty _ _ _).2 (.inl h)
  · exact h

theorem recallClear_sets {s : State} {r : Rec} (h : r ∈ clearMarks s) : r ∈ (recallClear s).dirty :=
  (mem_recallClear s r).2 (.inl h)

theorem recallClear_only {s : State} {r : Rec} (h : r ∈ (recallClear s).dirty) :
    r ∈ s.dirty ∨ r ∈ clearMarks s ∨ (r = .attention ∧ (recallClear s).att ≠ s.att) := by
  rw [mem_recallClear] at h
  rcases h with h | h
  · exact .inr (.inl h)
  split at h
  next hany =>
    rcases (mem_raise_dirty _ _ _).1 h with h | ⟨rfl, hbit⟩
    · exact .inl h
    · refine .inr (.inr ⟨rfl, ?_⟩)
      have hne := raise_att_ne .station (contentCleared s) hbit
      rw [raise_att] at hne
      rw [recallClear_att, if_neg ((clearMarks_any s).1 hany)]
      exact hne
  next => exact .inl h

/-! ### What stays of a clear at the end of its step -/

theorem bitAt_cases (b : Bool) (i : Nat) : bitAt b i = 0 ∨ bitAt b i = 2 ^ i := by
  unfold bitAt
  split
  · exact .inr rfl
  · exact .inl rfl

/-- No flag of the summary is set where its word tells a sync state alone. -/
theorem summary_bare (c c' : SyncState) (b4 b5 b6 b7 b8 b9 b10 : Bool)
    (h : numWord (syncCode c + bitAt b4 4 + bitAt b5 5 + bitAt b6 6 + bitAt b7 7 + bitAt b8 8 + bitAt b9 9
      + bitAt b10 10) = numWord (syncCode c')) :
    numWord (syncCode c + bitAt b4 4 + bitAt b5 5 + bitAt b6 6 + bitAt b7 7 + bitAt b8 8 + bitAt b9 9
      + bitAt b10 10) = numWord (syncCode c) := by
  have hc : syncCode c ≤ 3 := by cases c <;> decide
  have hc' : syncCode c' ≤ 3 := by cases c' <;> decide
  have hn := congrArg BitVec.toNat h
  simp only [numWord, BitVec.toNat_ofNat] at hn
  have h4 := bitAt_cases b4 4
  have h5 := bitAt_cases b5 5
  have h6 := bitAt_cases b6 6
  have h7 := bitAt_cases b7 7
  have h8 := bitAt_cases b8 8
  have h9 := bitAt_cases b9 9
  have h10 := bitAt_cases b10 10
  congr 1
  omega

/-- The summary record's words, from the decoder that they show. -/
def stationSummary (d : Station) : List Word := summaryWords { State.reset with sd := d }

/-- A decoder with no content. -/
def Station.cleared : Station := State.reset.sd.clearContent

section Content

variable {s x t : State} {q : Bool} {A P : List Nat} (hx : x.sd = { s.sd with af := A })
  (ht : t.sd = bitsStopped q { s.sd.clearContent with af := P })

include hx ht in
/-- What the clear changes stays changed, the AF list apart: sync alone can move besides. -/
theorem clearMarks_stand {r : Rec} (hr : r ∈ clearMarks x) (haf : r ≠ .af) : recWords s r ≠ recWords t r := by
  have hne := ((mem_clearMarks x r).1 hr).2
  have hsd : (contentCleared x).sd = { s.sd.clearContent with af := [] } := by
    show x.sd.clearContent = _
    rw [hx]
    rfl
  have hconf : t.sd.confirmed = (contentCleared x).sd.confirmed := by
    rw [ht, hsd, bitsStopped]
    split <;> rfl
  have hstation := clearMarks_station hr
  cases r with
  | name =>
    have h1 : recWords x .name = recWords s .name := by simp only [recWords, nameWords, hx]
    have h2 : recWords t .name = recWords (contentCleared x) .name := by simp only [recWords, nameWords, hconf]
    rw [h2, ← h1]
    exact hne
  | text1 =>
    have h1 : recWords x .text1 = recWords s .text1 := by simp only [recWords, textWords, hx]
    have h2 : recWords t .text1 = recWords (contentCleared x) .text1 := by simp only [recWords, textWords, hconf]
    rw [h2, ← h1]
    exact hne
  | text2 =>
    have h1 : recWords x .text2 = recWords s .text2 := by simp only [recWords, textWords, hx]
    have h2 : recWords t .text2 = recWords (contentCleared x) .text2 := by simp only [recWords, textWords, hconf]
    rw [h2, ← h1]
    exact hne
  | summary =>
    intro hsame
    have hbare : ∀ d : Station, d.confirmed = .empty → d.traffic = false → d.speech = false → d.toggleRef = none →
        stationSummary d = numWord (syncCode d.sync) :: (stationSummary .cleared).tail := fun d h1 h2 h3 h4 => by
      simp only [stationSummary, summaryWords, h1, h2, h3, h4]
      rfl
    have hend : stationSummary t.sd = numWord (syncCode t.sd.sync) :: (stationSummary .cleared).tail := by
      rw [ht, bitsStopped]
      split <;> exact hbare _ rfl rfl rfl rfl
    have hclear : stationSummary (contentCleared x).sd
        = numWord (syncCode s.sd.sync) :: (stationSummary .cleared).tail := by
      rw [hsd]
      exact hbare _ rfl rfl rfl rfl
    have hstart : stationSummary x.sd = stationSummary s.sd := by rw [hx]; rfl
    have hboth : stationSummary s.sd = stationSummary t.sd := hsame
    rw [hend] at hboth
    obtain ⟨hword, hrest⟩ := List.cons_eq_cons.1 hboth
    refine hne (hstart.trans (Eq.trans ?_ hclear.symm))
    exact List.cons_eq_cons.2 ⟨summary_bare _ _ _ _ _ _ _ _ _ hword, hrest⟩
  | af => exact absurd rfl haf
  | _ => simp [Rec.isStation] at hstation

include hx in
theorem clearMarks_af (hr : .af ∈ clearMarks x) : A ≠ [] := by
  rintro rfl
  refine ((mem_clearMarks x .af).1 hr).2 ?_
  simp only [recWords, afWords, contentCleared, hx, Station.clearContent]

/-- An empty AF record shows no list but the empty one. -/
theorem afWords_empty {s t : State} (ht : t.sd.af = []) (h : recWords s .af = recWords t .af) : s.sd.af = [] := by
  simp only [recWords, afWords, ht] at h
  have hlen := congrArg List.length h
  have hcount := congrArg BitVec.toNat (List.head_eq_of_cons_eq h)
  simp only [List.length_cons, List.length_append, List.length_map, List.length_replicate, List.length_nil] at hlen
  simp only [numWord, BitVec.toNat_ofNat, List.length_nil] at hcount
  exact List.length_eq_zero_iff.1 (by omega)

include hx ht in
/-- An AF list that stood is emptied by the clear, or its codes were the new target's own and none of them comes
back. -/
theorem af_moves {code : Nat} (hcode : code < 65536) (hlist : s.sd.af ≠ [])
    (hA : A = [] → ∀ y ∈ s.sd.af, y = code) (hP : ∀ y ∈ P, y ≤ 205 ∧ y ≠ code) :
    .af ∈ clearMarks x ∨ recWords s .af ≠ recWords t .af := by
  by_cases hempty : A = []
  · right
    have hshown : t.sd.af = P := by
      rw [ht, bitsStopped]
      split <;> rfl
    cases hp : P with
    | nil => exact fun h => hlist (afWords_empty (hshown.trans hp) h)
    | cons p ps =>
      obtain ⟨y, ys, hy⟩ := List.exists_cons_of_ne_nil hlist
      intro h
      simp only [recWords, afWords, hshown, hp, hy, List.map_cons, List.cons_append] at h
      have hfirst := congrArg BitVec.toNat (List.cons_eq_cons.1 (List.cons_eq_cons.1 h).2).1
      have hown := hA hempty y (by simp [hy])
      have hpre := hP p (by simp [hp])
      simp only [numWord, BitVec.toNat_ofNat] at hfirst
      omega
  · left
    refine (mem_clearMarks x .af).2 ⟨rfl, fun h => hempty ?_⟩
    have hafter : (contentCleared x).sd.af = [] := rfl
    have hbefore := afWords_empty hafter h
    rwa [hx] at hbefore

end Content

/-! ### Marks and notice of a step that clears in its course -/

section Course

variable {rs within cm pm : List Rec} {s t : State}
  (hstand : ∀ r ∈ rs, r ∈ within ∨ (r.isStream = false ∧ recWords s r ≠ recWords t r))
  (hwithin : ∀ r ∈ within, r ∈ rs ∨ (r.isStream = false ∧ recWords s r ≠ recWords t r))

include hstand hwithin in
/-- The records marked in the course of a step are those of `within`, beside records that the step changes. -/
theorem marksBetween_course (h : MarksBetween (rs ++ cm) pm s t) : MarksBetween (cm ++ within) pm s t := by
  refine ⟨fun r hr => ?_, fun r hr => ?_⟩
  · rcases hr with hr | hr | hr
    · exact h.least r (.inl hr)
    · rcases List.mem_append.1 hr with hr | hr
      · exact h.least r (.inr (.inl (by simp [hr])))
      · rcases hwithin r hr with hr | hr
        · exact h.least r (.inr (.inl (by simp [hr])))
        · exact h.least r (.inr (.inr hr))
    · exact h.least r (.inr (.inr hr))
  · rcases h.most r hr with hr | hr | hr | hr
    · exact .inl hr
    · rcases List.mem_append.1 hr with hr | hr
      · rcases hstand r hr with hr | hr
        · exact .inr (.inl (by simp [hr]))
        · exact .inr (.inr (.inr hr))
      · exact .inr (.inl (by simp [hr]))
    · exact .inr (.inr (.inl hr))
    · exact .inr (.inr (.inr hr))

include hstand hwithin in
/-- STATION is pending where the clear in the course of the step or the step as a whole has changed content. -/
theorem stationNotice_course {a base : Attention} (h : StationNotice [] s a t)
    (hstation : ∀ r ∈ rs, r.isStation = true)
    (ha : a = if rs = [] then base else { base with pending := base.pending ||| 0x0200#16 }) :
    StationNotice within s base t := by
  have hrest : t.att = { base with pending := t.att.pending } := by
    have h1 := h.rest
    rw [ha] at h1
    split at h1 <;> exact h1
  by_cases hno : rs = []
  · rw [if_pos hno] at ha
    subst ha
    refine ⟨hrest, fun ⟨r, hst, hr⟩ => h.changed ⟨r, hst, .inr ?_⟩,
      fun hall => h.same fun r hst => ⟨by simp, (hall r hst).2⟩⟩
    rcases hr with hr | hr
    · rcases hwithin r hr with hr | hr
      · simp [hno] at hr
      · exact hr.2
    · exact hr
  · rw [if_neg hno] at ha
    have hpending : t.att.pending = base.pending ||| 0x0200#16 := by
      by_cases hdiff : ∃ r, r.isStation = true ∧ (r ∈ ([] : List Rec) ∨ recWords s r ≠ recWords t r)
      · rw [h.changed hdiff, ha, BitVec.or_assoc, BitVec.or_self]
      · have hsame : ∀ r, r.isStation = true → r ∉ ([] : List Rec) ∧ recWords s r = recWords t r := fun r hst =>
          ⟨by simp, by_contra fun hne => hdiff ⟨r, hst, .inr hne⟩⟩
        rw [h.same hsame, ha]
    refine ⟨hrest, fun _ => hpending, fun hall => ?_⟩
    obtain ⟨r, rs', hr⟩ := List.exists_cons_of_ne_nil hno
    have hmem : r ∈ rs := by simp [hr]
    obtain ⟨hout, hsame⟩ := hall r (hstation r hmem)
    exact ((hstand r hmem).resolve_left hout).2.elim hsame

end Course

end Sys2Proof.Machine

end

/-! The completed fetch of a RECALL: an invalid record is reported, a valid one tunes its preset (R169, R176, R188,
R196), and with it the end of every part burst. -/

section

set_option autoImplicit false

namespace Sys2Proof.Machine

/-! ### The preloaded AF codes (R188) -/

/-- The codes of a preset record offered to an empty AF list. -/
def preloaded (target : Nat) (codes : List Nat) : List Nat :=
  codes.foldl (fun af c => if c ≤ 205 ∧ c ∉ af ∧ c ≠ target then af ++ [c] else af) []

theorem preload_step (target : Nat) (codes af : List Nat) (h : af.length + codes.length ≤ 12) :
    codes.foldl (fun af code => if code ≤ 205 then afOffer target code af else af) af
      = codes.foldl (fun af c => if c ≤ 205 ∧ c ∉ af ∧ c ≠ target then af ++ [c] else af) af := by
  induction codes generalizing af with
  | nil => rfl
  | cons c cs ih =>
    simp only [List.length_cons] at h
    have hroom : af.length < afLimit := by unfold afLimit; omega
    have hoffer : (if c ≤ 205 then afOffer target c af else af)
        = if c ≤ 205 ∧ c ∉ af ∧ c ≠ target then af ++ [c] else af := by
      by_cases hc : c ≤ 205 <;> simp [afOffer, hroom, hc]
    have hlen : (if c ≤ 205 ∧ c ∉ af ∧ c ≠ target then af ++ [c] else af).length ≤ af.length + 1 := by
      split <;> simp
    rw [List.foldl_cons, List.foldl_cons, hoffer]
    exact ih _ (by omega)

/-- Eight codes find room in the list of twelve. -/
theorem afPreload_eq (target : Nat) (codes : List Nat) (h : codes.length ≤ 8) :
    afPreload target codes = preloaded target codes := preload_step target codes [] (by simp; omega)

theorem preloaded_codes (target : Nat) (codes : List Nat) : ∀ y ∈ preloaded target codes, y ≤ 205 ∧ y ≠ target := by
  have hstep : ∀ (cs af : List Nat), (∀ y ∈ af, y ≤ 205 ∧ y ≠ target) →
      ∀ y ∈ cs.foldl (fun af c => if c ≤ 205 ∧ c ∉ af ∧ c ≠ target then af ++ [c] else af) af,
        y ≤ 205 ∧ y ≠ target := by
    intro cs
    induction cs with
    | nil => exact fun af h => h
    | cons c cs ih =>
      intro af h
      refine ih _ fun y hy => ?_
      dsimp only at hy
      split at hy
      next hc =>
        rcases List.mem_append.1 hy with hy | hy
        · exact h y hy
        · rw [List.mem_singleton.1 hy]
          exact ⟨hc.1, hc.2.2⟩
      next => exact h y hy
  exact hstep codes [] (by simp)

/-! ### A valid RECALL -/

/-- The target and the expected code of a valid RECALL, from the operation abandoned. -/
def recallTarget (band : Band) (code : Nat) (expected : Option Word) (x : State) : State :=
  { x with
    tun := { x.tun with
      transfer := storeOnly x.tun.transfer, backoff := false, band := band, code := code, expected := expected }
    sd := { x.sd with af := afWithout code x.tun.code x.sd.af }
    agent := { x.agent with queue := queueWith x.agent.queue (targetAsked band code x.tun) } }

/-- The state from which the plain tune of a valid RECALL starts: the content cleared with its marks, the record's
AF codes preloaded. -/
def recallReady (band : Band) (code : Nat) (expected : Option Word) (af : List Nat) (x : State) : State :=
  let c := recallClear (abandonTuning (recallTarget band code expected x))
  { recallTarget band code expected x with
    sd := { x.sd.clearContent with af := af }, att := c.att, dirty := c.dirty }

theorem recallValid_eq (band : Band) (words : List Word) (x : State) (hfree : x.agent.port = .free) :
    let w := fun i => words.getD i 0
    recallValid band words x = plainTune band (w 1).toNat .recall
      (recallReady band (w 1).toNat (if (w 0).getLsbD 7 = true then some (w 2) else none)
        (preloaded (w 1).toNat (((words.drop 10).take (min 8 (w 9).toNat)).map BitVec.toNat)) x) := by
  intro w
  set code := (w 1).toNat with hcode
  set expected : Option Word := if (w 0).getLsbD 7 = true then some (w 2) else none with hexp
  set codes := ((words.drop 10).take (min 8 (w 9).toNat)).map BitVec.toNat with hcodes
  have hlen : codes.length ≤ 8 := by
    rw [hcodes, List.length_map, List.length_take]
    omega
  have htarget : updTun (fun t => { t with expected := expected })
      (ownTarget band code (updTun (fun t => { t with backoff := false }) (abandonOperation x)))
      = abandonTuning (recallTarget band code expected x) := by
    rw [abandonOperation_eq x hfree, ownTarget_eq, abandonTuning_eq, abandonTuning_eq]
    rfl
  have hopen : recallValid band words x = plainTune band code .recall
      (updSd (fun d => { d with af := afPreload code codes })
        (recallClear (abandonTuning (recallTarget band code expected x)))) := by
    rw [← htarget]
    rfl
  rw [hopen, afPreload_eq code codes hlen, ← plainTune_abandoned band code .recall (recallReady _ _ _ _ _)]
  refine congrArg (plainTune band code .recall) ?_
  rw [recallClear_eq, recallReady]
  generalize recallClear (abandonTuning (recallTarget band code expected x)) = c
  simp only [contentCleared, abandonTuning_eq]
  rfl

/-- What follows an event in the tuner and on its line leaves what the event changes. -/
theorem ByEvent.tuned {always : List Rec} {src : Source} {was now : Bool} {s y z : State} {a : Attention}
    (h : ByEvent always src was now s y z a) (T : Tuner) (F : FrontEnd) :
    ByEvent always src was now s y { z with tun := T, fe := F } a :=
  ⟨h.runs, h.att, h.view, ⟨h.paths.zones, h.paths.gain, h.paths.mods, h.paths.dec, h.paths.bass, h.paths.pool⟩,
    h.before, h.beyond, h.keeps, h.found, h.carried, h.after, h.sets⟩

/-- The state in which a completed RECALL is judged. -/
def recallOver (s : State) : State :=
  { s with agent := { s.agent with port := .free, lastPart := true }, tun := { s.tun with transfer := .none } }

section Ready

variable {band : Band} {code : Nat} {expected : Option Word} {af : List Nat} {s x : State}

/-- The records that the clear of a valid RECALL changes. -/
def recallMarks (band : Band) (code : Nat) (expected : Option Word) (x : State) : List Rec :=
  clearMarks (abandonTuning (recallTarget band code expected x))

theorem recallReady_event (out : Bool) (hruns : x.audioRuns = s.audioRuns) (ha : x.att = s.att) (hd : x.dirty = s.dirty) :
    let y := recallReady band code expected af x
    ByEvent (recallMarks band code expected x) .tuner out false s (plainMoved y)
      (eventOf .tuner out false (plainMoved y)) y.att := by
  intro y
  set c := abandonTuning (recallTarget band code expected x) with hc
  have hbefore : c.att = s.att ∧ c.dirty = s.dirty := ⟨by rw [← ha]; rfl, by rw [← hd]; rfl⟩
  refine byEvent_own _ .tuner out false s (plainMoved y) hruns ?_ (fun r hr => ?_) (fun r hr => ?_) fun r hr => ?_
  · rw [← hbefore.1]
    exact recallClear_grows c
  · exact recallClear_keeps (hbefore.2 ▸ hr)
  · exact recallClear_sets hr
  · have hfound := recallClear_only (s := c) (r := r) hr
    rw [hbefore.1, hbefore.2] at hfound
    exact hfound

/-- The marks of the clear are those of an AF list that stood, beside records that the RECALL changes. -/
theorem recallMarks_course {out : Bool} {words : List Nat} {t : State} (hcode : code < 65536)
    (ht : t.sd = bitsStopped out { s.sd.clearContent with af := preloaded code words }) :
    let within := if s.sd.af = [] then [] else [Rec.af]
    (∀ r ∈ recallMarks band code expected (recallOver s),
        r ∈ within ∨ (r.isStream = false ∧ recWords s r ≠ recWords t r))
      ∧ ∀ r ∈ within, r ∈ recallMarks band code expected (recallOver s)
          ∨ (r.isStream = false ∧ recWords s r ≠ recWords t r) := by
  intro within
  set c := abandonTuning (recallTarget band code expected (recallOver s)) with hc
  have hsd : c.sd = { s.sd with af := afWithout code s.tun.code s.sd.af } := rfl
  refine ⟨fun r hr => ?_, fun r hr => ?_⟩
  · by_cases haf : r = .af
    · subst haf
      have hlist : s.sd.af ≠ [] := fun h => clearMarks_af hsd hr (by rw [h, afWithout]; split <;> rfl)
      exact .inl (by simp [within, hlist])
    · exact .inr ⟨((mem_clearMarks c r).1 hr).1, clearMarks_stand hsd ht hr haf⟩
  · have hlist : s.sd.af ≠ [] := fun h => by simp [within, h] at hr
    obtain rfl : r = .af := by simpa [within, hlist] using hr
    refine (af_moves hsd ht hcode hlist (fun h y hy => ?_) (preloaded_codes code words)).imp_right fun h => ⟨rfl, h⟩
    by_contra hne
    have hmem : y ∈ afWithout code s.tun.code s.sd.af := by
      unfold afWithout
      split
      · exact hy
      · simp [hy, hne]
    simp [h] at hmem

/-- The notice of the clear and that of the change of carrying status do not meet. -/
theorem recallReady_notice (was now : Bool) :
    sourceNotice was now (recallReady band code expected af (recallOver s)).att
      = if recallMarks band code expected (recallOver s) = [] then sourceNotice was now s.att
        else { sourceNotice was now s.att with pending := (sourceNotice was now s.att).pending ||| 0x0200#16 } := by
  have hatt := recallClear_att (abandonTuning (recallTarget band code expected (recallOver s)))
  have hready : (recallReady band code expected af (recallOver s)).att
      = (recallClear (abandonTuning (recallTarget band code expected (recallOver s)))).att := rfl
  rw [hready, hatt, recallMarks]
  split
  · rfl
  · unfold sourceNotice
    split
    · rfl
    · simp only [BitVec.or_assoc, BitVec.or_comm 0x0002#16]
      rfl

end Ready

/-! ### The completed fetch -/

section Fetched

variable {b : Burst} {n m : Nat} {got : List Word} {s : State} (hhigh : s.rstnLow = false) (hport : s.agent.port = .part b)
  (howner : b.owner = .recall m) (hwanted : b.discard = false) (hheld : s.agent.held = none)
  (htransfer : s.tun.transfer = .recalling n got)

include howner hwanted htransfer in
theorem burstDone_recall : burstDone b s =
    if (got ++ b.words).length < 18 then
      { recallOver s with tun := { s.tun with transfer := .recalling n (got ++ b.words) } }
    else normWeak (judgeRecall (got ++ b.words) (recallOver s)) := by
  have hopen : burstDone b s = recallDone b.words (updAgent (fun g => { g with port := .free, lastPart := true }) s) := by
    unfold burstDone burstResult
    rw [howner]
    exact if_neg (by simp [hwanted])
  have htun : (updAgent (fun g => { g with port := .free, lastPart := true }) s).tun.transfer = .recalling n got := htransfer
  rw [hopen, recallDone, htun]
  rfl

include hhigh hport hheld in
theorem recall_exec : exec .partBurstEnd s = act (burstDone b) s := by
  refine partBurstEnd_unheld b s hhigh hport ?_
  rw [burstDone_eq, hheld]
  rfl

/-- The judgement of a fetched record (R169): its valid flag, its band field and its code. -/
theorem judgeRecall_eq (words : List Word) (x : State) :
    let w := fun i => words.getD i 0
    let band := if (w 0).toNat / 16 % 4 = 0 then Band.fm else .am
    judgeRecall words x = if (w 0).getLsbD 0 = true ∧ (w 0).toNat / 16 % 4 ≤ 1 ∧ (w 1).toNat ≤ topCode x.tun.region band
      then recallValid band words x else longOutcome .invalid x := by
  intro w band
  have hfield : field (w 0) 4 2 = (w 0).toNat / 16 % 4 := rfl
  have hopen : judgeRecall words x = match presetBand (w 0) with
    | some band =>
      if flag (w 0) 0 && decide ((w 1).toNat ≤ topCode x.tun.region band) then recallValid band words x
      else longOutcome .invalid x
    | none => longOutcome .invalid x := rfl
  rw [hopen, presetBand, hfield]
  by_cases h0 : (w 0).toNat / 16 % 4 = 0
  · simp [band, h0, flag]
  · by_cases h1 : (w 0).toNat / 16 % 4 = 1
    · simp [band, h1, flag]
    · have hout : ¬(w 0).toNat / 16 % 4 ≤ 1 := by omega
      simp [h0, h1, hout]

include hhigh hport howner hwanted hheld htransfer in
theorem recall_short (hlen : (got ++ b.words).length < 18) : exec .partBurstEnd s =
    .next { s with
      agent := { s.agent with port := .free, lastPart := true }
      tun := { s.tun with transfer := .recalling n (got ++ b.words) } } := by
  have hdone := burstDone_recall howner hwanted htransfer
  rw [if_pos hlen] at hdone
  rw [recall_exec hhigh hport hheld, act_high _ _ hhigh, hdone]
  refine congrArg Host.Outcome.next (publish_quiet s _ fun r _ => ?_)
  cases r with
  | zone z => cases z <;> rfl
  | source x => cases x <;> rfl
  | tuner => simp only [recWords, tunerWords, htransfer, transferWord]
  | _ => rfl

include hhigh hport howner hwanted hheld htransfer in
/-- An invalid record is reported (R169). -/
theorem recall_invalid (hlen : 18 ≤ (got ++ b.words).length)
    (hjudge : judgeRecall (got ++ b.words) (recallOver s) = longOutcome .invalid (recallOver s)) :
    ∃ t, exec .partBurstEnd s = .next t ∧ OwnStep [] s { s with
      agent := { s.agent with port := .free, lastPart := true }
      tun := { s.tun with
        transfer := .none, outcome := .invalid, outcomeCount := (s.tun.outcomeCount + 1) % 65536, weak := weakKept s }
      att := told s.att } t := by
  have hdone := burstDone_recall howner hwanted htransfer
  rw [if_neg (by omega), hjudge] at hdone
  set z : State := { s with
    agent := { s.agent with port := .free, lastPart := true }
    tun := { s.tun with
      transfer := .none, outcome := .invalid, outcomeCount := (s.tun.outcomeCount + 1) % 65536
      weak := weakKept s } } with hz
  have hz' : burstDone b s = raise .tuner z := by
    rw [hdone, longOutcome_eq, normWeak_raise]
    rfl
  rw [recall_exec hhigh hport hheld]
  exact ownStep_of_eq _ [] s _ _ hhigh hz' (by rw [raise_tuner]) rfl rfl (setsMarks_told s z rfl rfl) told_station

/-- No record, and no mark, tells whether AF follow is active. -/
theorem afActive_published (s p : State) : afActive (publish s (normWeak p)) = afActive p := by
  rw [publish_eq, normWeak_eq]
  rfl

/-- The tuner after a valid RECALL, its weak count as given. -/
def recalled (band : Band) (code : Nat) (expected : Option Word) (out : Bool) (weak : Nat) (x : Tuner) : Tuner :=
  { x with
    state := .tuning, band := band, code := code, reason := .recall, backoff := false, expected := expected
    weak := weak, settleTimer := false, verifyTimer := false, readingTimer := x.readingTimer && !out
    queryTimer := x.queryTimer && !out, transfer := .none }

include hhigh hport howner hwanted hheld htransfer in
/-- A valid record tunes its preset (R169, R176, R188). -/
theorem recall_valid (hlen : 18 ≤ (got ++ b.words).length) (band : Band)
    (hjudge : judgeRecall (got ++ b.words) (recallOver s) = recallValid band (got ++ b.words) (recallOver s)) :
    let w := fun i => (got ++ b.words).getD i 0
    let code := (w 1).toNat
    let expected := if (w 0).getLsbD 7 = true then some (w 2) else none
    let af := preloaded code ((((got ++ b.words).drop 10).take (min 8 (w 9).toNat)).map BitVec.toNat)
    let out := listens s.tun.state
    let within := if s.sd.af = [] then [] else [Rec.af]
    ∃ t, exec .partBurstEnd s = .next t
      ∧ t = afterCarrying
          { s with
            agent := { s.agent with
              port := .free, lastPart := true, queue := queueWith s.agent.queue (targetAsked band code s.tun) }
            tun := recalled band code expected out (if afActive t = true then s.tun.weak else 0) s.tun
            fe := t.fe, meas := readingAbandoned s.meas
            sd := bitsStopped (takingBits s.tun) { s.sd.clearContent with af := af } } t
      ∧ SentOnLine (abandonsOf out) (.tune band s.tun.region code .plain) s.fe t.fe
      ∧ CarryingChange .tuner out false s t
      ∧ MarksBetween (carryingMarks .tuner out false ++ within) (pathMarks out false s) s t
      ∧ StationNotice within s (sourceNotice out false s.att) t := by
  intro w code expected af out within
  have hdone := burstDone_recall howner hwanted htransfer
  rw [if_neg (by omega), hjudge, recallValid_eq band _ (recallOver s) rfl] at hdone
  set x := recallOver s with hx
  set y := recallReady band code expected af x with hy
  set F := (s.fe.abandon (abandonsOf out)).send (.tune band s.tun.region code .plain) with hF
  set p := plainTune band code .recall y with hp
  have hdone : burstDone b s = normWeak p := hdone
  have hev := recallReady_event (band := band) (code := code) (expected := expected) (af := af) (s := s) (x := x) out
    rfl rfl rfl
  have hrest := eventOf_rest .tuner out false (plainMoved y)
  have hform : normWeak p = { eventOf .tuner out false (plainMoved y) with
      tun := recalled band code expected out (weakKept p) s.tun, fe := F } := by
    rw [normWeak_eq]
    generalize weakKept p = W
    rw [hp, plainTune_eq]
    rfl
  dsimp only at hev
  have hact : afActive (publish s (normWeak p)) = afActive p := afActive_published s p
  have hweak : weakKept p = if afActive (publish s (normWeak p)) = true then s.tun.weak else 0 := by
    have hcount : p.tun.weak = s.tun.weak := by rw [hp, plainTune_eq]; rfl
    rw [hact, weakKept, hcount]
  generalize eventOf .tuner out false (plainMoved y) = e at hev hrest hform
  have hz := hev.tuned (recalled band code expected out (weakKept p) s.tun) F
  rw [← hform] at hz
  have hsd : (publish s (normWeak p)).sd = bitsStopped (takingBits s.tun) { s.sd.clearContent with af := af } := by
    have hkept : (publish s (normWeak p)).sd = (normWeak p).sd := by simp
    rw [hkept, hform, hrest]
    rfl
  have hfe : (publish s (normWeak p)).fe = F := by
    have hkept : (publish s (normWeak p)).fe = (normWeak p).fe := by simp
    rw [hkept, hform]
  obtain ⟨hstand, hwithin⟩ := recallMarks_course (band := band) (code := code) (expected := expected) (w 1).isLt hsd
  refine ⟨publish s (normWeak p), ?_, ?_, hfe ▸ sent_of_abandon _ _ _, ?_, ?_, ?_⟩
  · rw [recall_exec hhigh hport hheld, act_high _ _ hhigh, hdone]
  · rw [← hweak, hfe]
    have hset : ∀ a d, { normWeak p with att := a, dirty := d } = afterCarrying
        { s with
          agent := { s.agent with
            port := .free, lastPart := true, queue := queueWith s.agent.queue (targetAsked band code s.tun) }
          tun := recalled band code expected out (weakKept p) s.tun
          fe := F, meas := readingAbandoned s.meas
          sd := bitsStopped (takingBits s.tun) { s.sd.clearContent with af := af } }
        { normWeak p with att := a, dirty := d } := fun a d => by
      rw [hform, hrest]
      rfl
    rw [publish_eq s (normWeak p)]
    exact hset _ _
  · exact hz.change (pathsAgree_of_eq ⟨rfl, rfl, rfl, rfl, rfl, rfl⟩ rfl rfl rfl rfl) (by simp)
      (publish_samePaths s (normWeak p))
  · exact marksBetween_course hstand hwithin (hz.marks.publish hz.station)
  · refine stationNotice_course hstand hwithin (publish_stationNotice s (normWeak p)) (fun r hr => clearMarks_station hr) ?_
    rw [hz.att]
    exact recallReady_notice out false

end Fetched

end Sys2Proof.Machine

end

/-! The end of every part burst, and the held access that goes at it or at the part's turn (R12). -/

section

set_option autoImplicit false

namespace Sys2Proof.Machine

/-! ### Bursts whose end changes nothing else -/

/-- A write-back, report or store burst, or one whose words nobody wants. -/
def PlainBurst (s : State) (b : Burst) : Prop :=
  (∃ n r, b.owner ∈ [BurstOwner.writeBack, .store n, .report r])
    ∨ (∃ m n, b.owner = .fetch m n ∧ (b.discard = true ∨ s.audioRuns = false))
    ∨ (∃ n, b.owner = .recall n ∧ b.discard = true)

theorem burstResult_plain {b : Burst} {s : State} (h : PlainBurst s b) : burstResult b s = s := by
  rcases h with ⟨n, r, h⟩ | ⟨m, n, ho, h⟩ | ⟨n, ho, hd⟩
  · simp only [List.mem_cons, List.not_mem_nil, or_false] at h
    rcases h with h | h | h <;> simp only [burstResult, h]
  · simp only [burstResult, ho]
    exact if_pos (by rcases h with h | h <;> simp [h])
  · simp only [burstResult, ho]
    exact if_pos hd

/-- The state at the end of such a burst, the access that was held having left. -/
def portReleased (last : Bool) (s : State) : State :=
  { s with agent := { s.agent with port := .free, lastPart := last, held := none } }

theorem burstEnded_plain {b : Burst} {s : State} (h : PlainBurst s b) : burstEnded b s = portReleased true s := by
  rw [burstEnded, burstResult_plain h, publish_refl]
  rfl

theorem partBurstEnd_plain {b : Burst} {s : State} (hhigh : s.rstnLow = false) (hport : s.agent.port = .part b)
    (hb : PlainBurst s b) (hheld : s.agent.held = none) :
    exec .partBurstEnd s = .next { s with agent := { s.agent with port := .free, lastPart := true } } := by
  have hdone : burstDone b s = { s with agent := { s.agent with port := .free, lastPart := true } } := by
    rw [burstDone_eq, burstResult_plain hb]
    rfl
  have hquiet : publish s { s with agent := { s.agent with port := .free, lastPart := true } }
      = { s with agent := { s.agent with port := .free, lastPart := true } } :=
    publish_same _ _ rfl rfl rfl rfl rfl rfl rfl rfl rfl rfl rfl rfl rfl rfl
  rw [partBurstEnd_unheld b s hhigh hport (by rw [hdone]; exact hheld), act_high _ _ hhigh, hdone, hquiet]

/-! ### A held access at the part's turn -/

/-- With nothing on the agent's list there is no request (R14). -/
theorem nextRequest_idle {s : State} (hfree : s.agent.port = .free) (hrest : s.agent.restore = none)
    (hqueue : s.agent.queue = []) (htransfer : s.tun.transfer = .none) (hdirty : s.dirty = [])
    (hfetch : ∀ m, ¬FetchDue s m) : nextRequest s = none := by
  have hnone : ∀ urgent m, fetchRequest s urgent m = none := fun urgent m =>
    fetchRequest_none s urgent m hfree fun h => hfetch m h.1
  simp [nextRequest, requestRanks, hrest, hnone, hqueue, htransfer, hdirty]

section Turn

variable {h : HeldAccess} {s : State} (hhigh : s.rstnLow = false) (hfree : s.agent.port = .free)
  (hheld : s.agent.held = some h) (hgo : MayGo s h.access) (hturn : s.agent.lastPart = true ∨ nextRequest s = none)

include hfree in
/-- At a free port the held access alone leaves. -/
theorem held_released :
    ({ s with agent := { s.agent with held := none } } : State) = portReleased s.agent.lastPart s := by
  have hagent : ({ s.agent with held := none } : Agent)
      = { s.agent with port := .free, lastPart := s.agent.lastPart, held := none } := by rw [← hfree]
  exact congrArg (fun g => ({ s with agent := g } : State)) hagent

include hfree hheld hgo hturn in
theorem partTurn_held : partTurn s = carryHeld s := by
  unfold partTurn
  rw [hfree]
  simp only
  split
  · rfl
  next hno =>
    have hlast : s.agent.lastPart = false := by
      cases hl : s.agent.lastPart with
      | false => rfl
      | true => exact absurd (by rw [hl, (heldMayGo_iff s).2 ⟨h, hheld, hgo⟩]; rfl) hno
    rw [hturn.resolve_left (by simp [hlast])]

include hhigh hfree hheld hgo hturn in
/-- At the part's turn a held access goes where the part held the port last or has no request (R12). -/
theorem partBurstIssue_goes : exec .partBurstIssue s =
    .next (publish (portReleased s.agent.lastPart s)
      (takePort h.access h.whole (portReleased s.agent.lastPart s))) := by
  have hexec : exec .partBurstIssue s = act partTurn s := rfl
  have hshown : ∀ y, publish s y = publish (portReleased s.agent.lastPart s) y := fun y =>
    (publish_put_left ⟨false, s.agent.lastPart, none⟩ s y).symm
  rw [hexec, act_high _ _ hhigh, partTurn_held hfree hheld hgo hturn, carryHeld_goes h s hheld hgo,
    held_released hfree, hshown]

include hfree hturn in
theorem portReleased_turn : partsTurn (portReleased s.agent.lastPart s) = false := by
  have hnext : nextRequest (portReleased s.agent.lastPart s) = nextRequest s := by
    rw [← held_released hfree]
    rfl
  have hlast : (portReleased s.agent.lastPart s).agent.lastPart = s.agent.lastPart := rfl
  rw [partsTurn, hnext, hlast]
  rcases hturn with hturn | hturn <;> simp [hturn]

end Turn

/-! ### The obligation -/

/-- An access held that goes, at the end of a burst that changes nothing else or at the part's turn. -/
theorem heldAccess_goes (i : Instr) (h : HeldAccess) (last : Bool) (s : State) (hhigh : s.rstnLow = false)
    (hheld : s.agent.held = some h) (hgo : MayGo s h.access)
    (hi : (i = .partBurstEnd ∧ last = true ∧ ∃ b, s.agent.port = .part b ∧ PlainBurst s b)
      ∨ (i = .partBurstIssue ∧ last = s.agent.lastPart ∧ s.agent.port = .free
          ∧ (s.agent.lastPart = true ∨ nextRequest s = none))) :
    let s' := portReleased last s
    (h.whole = false → exec i s = exec (.hostAccessBegin h.access) s')
      ∧ (h.whole = true → ∀ (off : BitVec 16) (l : Lanes) (v : Word), h.access = slotAccess s off.toNat l v →
          exec i s = exec (.slotWrite off l v) s') := by
  intro s'
  have hkept : MayGo s' h.access := hgo
  have hboth : exec i s = .next (publish s' (takePort h.access h.whole s')) ∧ partsTurn s' = false := by
    rcases hi with ⟨rfl, rfl, b, hport, hb⟩ | ⟨rfl, rfl, hfree, hturn⟩
    · have hended := burstEnded_plain hb
      have hgoes := partBurstEnd_goes b h s hhigh hport hheld (by rw [hended]; exact hkept)
      rw [hended] at hgoes
      exact ⟨hgoes, rfl⟩
    · exact ⟨partBurstIssue_goes hhigh hfree hheld hgo hturn, portReleased_turn hfree hturn⟩
  obtain ⟨hgoes, hturn⟩ := hboth
  obtain ⟨hsingle, hwhole⟩ := heldAccess_begins h s' hhigh rfl rfl hturn hkept
  exact ⟨fun hw => hgoes.trans (hsingle hw).symm, fun hw off l v hrow => hgoes.trans (hwhole hw off l v hrow).symm⟩

/-- Settles O37: a burst's end commutes with what is held on WAITN, and a RECALL's result goes by its record. -/
theorem burstEndFreesThePort : Obligations.BurstEndFreesThePort := by
  unfold Obligations.BurstEndFreesThePort
  intro s hhigh freed plain idle
  refine ⟨fun hport => ?_, fun b hport hb hheld => partBurstEnd_plain hhigh hport hb hheld,
    fun i h last hheld hgo hi => heldAccess_goes i h last s hhigh hheld hgo (hi.imp_right fun ⟨he, hl, hfree, hor⟩ =>
      ⟨he, hl, hfree, hor.imp_right fun ⟨hrest, hqueue, htransfer, hdirty, hfetch⟩ =>
        nextRequest_idle hfree hrest hqueue htransfer hdirty hfetch⟩),
    fun b h hport hheld => ⟨burstEnded b s, partBurstEnd_released b s hhigh hport, rfl, rfl, rfl, fun hgo => ?_,
      partBurstEnd_stays b h s hhigh hport hheld⟩,
    fun b n m got hport howner hwanted hheld htransfer => ?_⟩
  · have hexec : exec .partBurstEnd s = execPartBurstEnd s := rfl
    rw [hexec, execPartBurstEnd]
    split
    next b hb => exact absurd hb (hport b)
    next => rfl
  · have hgoes := partBurstEnd_goes b h s hhigh hport hheld hgo
    obtain ⟨hsingle, hwhole⟩ := heldAccess_begins h (burstEnded b s) (burstEnded_high b s hhigh) rfl rfl
      (burstEnded_turn b s) hgo
    exact ⟨fun hw => hgoes.trans (hsingle hw).symm, fun hw off l v hrow => hgoes.trans (hwhole hw off l v hrow).symm⟩
  · intro all w band code valid out reqs
    have hjudge := judgeRecall_eq all (recallOver s)
    have hout : listens s.tun.state = out := listens_iff _
    refine ⟨fun hlen => recall_short hhigh hport howner hwanted hheld htransfer hlen, fun hlen hvalid => ?_,
      fun hlen hvalid => ?_⟩
    · exact recall_invalid hhigh hport howner hwanted hheld htransfer hlen (hjudge.trans (if_neg hvalid))
    · have hdone := recall_valid hhigh hport howner hwanted hheld htransfer hlen band (hjudge.trans (if_pos hvalid))
      rw [hout] at hdone
      exact hdone

end Sys2Proof.Machine

end
